-- ==== Sys2Proof/Word.lean ====
section
/-! DEFINITION. The word types of the Q9 (00 R5, 07 R139): scalar registers hold 64 bits, vector registers 1,024
bits, a lane mask one bit for each of 128 byte lanes. Everything computed on them stands in Sys2Proof/Machine. -/

namespace Sys2Proof

/-- A scalar register, an address or a control register read whole: 64 bits (R139). -/
abbrev Word := BitVec 64

/-- One byte of memory or of a tile. -/
abbrev Byte := BitVec 8

/-- A vector register: 1,024 bits (R139). -/
abbrev VReg := BitVec 1024

/-- A predicate register: one bit for each of 64 byte lanes (R139). -/
abbrev PReg := BitVec 64

/-- The mask of a predicate and its partner: one bit for each of 128 byte lanes (R166). -/
abbrev Mask := BitVec 128

end Sys2Proof
end

