-- ==== Sys2Proof/Syntax.lean ====
section
/-! DEFINITION. The syntax of the Q9: one constructor of Instr for each row of spec/opcode_table.json. The first 238 are
the instruction words of 07 R140; the other 103 are the machine's own steps and the acts of outside parties that the
table lists (95_what_each_step_holds.md). Their operands are the fields of R132 to R138 and, for a step without an
encoding, what names the party and the data of the act. -/

namespace Sys2Proof

/-- A scalar register field (R133). -/
abbrev Reg := Fin 32

/-- A vector field: codes 0-27 are v0-v27, codes 28-31 the streams s0-s3 (R138). -/
abbrev VField := Fin 32

/-- The scopes of R115, by their SC codes 0-4. -/
inductive Scope where
  | core | clus | die | dev | sys
  deriving DecidableEq, Repr

/-- The ordering annotations of R116, by their ORD codes 0-3. -/
inductive MemOrd where
  | relaxed | acq | rel | acqrel
  deriving DecidableEq, Repr

/-- The sizes of an ordered access, by the SZ codes 0-3 of R136. -/
inductive Size where
  | b | h | w | d
  deriving DecidableEq, Repr

/-- The full/empty modes of R107, by the FE codes 0-5 of R136. -/
inductive FeMode where
  | none | lwf | lwt | swe | sf | se
  deriving DecidableEq, Repr

/-- The element types of R137, by their codes 0-7. -/
inductive ElemType where
  | i8 | i16 | i32 | i64 | bf16 | f32 | e4m3 | e5m2
  deriving DecidableEq, Repr

/-- The drain formats of `mzdrn`, codes 1-3 (R190). -/
inductive DrainFmt where
  | lb4 | f32 | bf16
  deriving DecidableEq, Repr

/-- A rank of a launch; launches are numbered by the model. -/
structure RankKey where
  launch : Nat
  rank   : Nat
  deriving DecidableEq, Repr

/-- Where a launch record comes from: a queue's next record, or a child launch handed over by `lnch` or a node (R250). -/
inductive LaunchSrc where
  | queue (q : Nat)
  | child (launch : Nat)
  deriving DecidableEq, Repr

/-- The two host ports (R279). -/
inductive HostPort where
  | portA | portB
  deriving DecidableEq, Repr

/-- A bind record of R249; `cores` lists the cores whose CORES bit is one. -/
structure BindRec where
  valid  : Bool
  owner  : Nat
  band   : Nat
  weight : Nat
  cores  : List Nat
  deriving DecidableEq, Repr

/-- What a context rung acts on: a whole launch, or one helper (R314). -/
inductive ContextTarget where
  | launch (l : Nat)
  | helper (k : RankKey) (run ctx : Nat)
  deriving DecidableEq, Repr

/-- What an engine rung acts on (R312, R313). -/
inductive EngineTarget where
  | channel (ch : Nat)
  | matrix (core : Nat)
  | walker (core : Nat)
  | netif (core : Nat)
  deriving DecidableEq, Repr

/-- The limits of the power limiter (R31). -/
inductive PowerLimit where
  | draw | temperature
  deriving DecidableEq, Repr

/-- The register spaces a host or guest writes: an ownership-port page, a port's PF, a VF (R281, R282, R288). -/
inductive RegSpace where
  | page (o : Nat)
  | pf (p : HostPort)
  | vf (v : Nat)
  deriving DecidableEq, Repr

/-- A flit's header (R263). Of one received, `good` says that its CRC has been compared: the CRC's initial value is not given, so the
comparison is an input. -/
structure Flit where
  lseq   : Nat
  keyid  : Nat
  weight : Nat
  cls    : Nat
  first  : Bool
  last   : Bool
  good   : Bool
  deriving DecidableEq, Repr

/-- A block of a lossy transfer as it arrives (R264, R272): intact, authenticated and in time or not is `good`. -/
structure LossyBlock where
  src   : Nat
  xfer  : Nat
  blk   : Nat
  nblk  : Nat
  keyid : Nat
  addr  : Word
  time  : Nat
  good  : Bool
  data  : List Byte
  deriving DecidableEq, Repr

/-- The kinds of a remote request (R264); `leg` is a leg of a collective. -/
inductive ReqKind where
  | read
  | write
  | atomic (op : Nat) (cmp : Word)
  | fe (mode : FeMode) (limit : Nat)
  | multicast
  | leg (result : Bool)
  deriving DecidableEq, Repr

/-- A request that arrives from a peer module (R264, R345): `good` says that its authentication succeeds, `port` by which port it comes,
`weight` is that of its header (R254). -/
structure RemoteReq where
  id     : Nat
  src    : Nat
  port   : Nat
  sagent : Nat
  pseq   : Nat
  weight : Nat
  kind   : ReqKind
  keyid  : Nat
  addr   : Word
  bytes  : Nat
  data   : List Byte
  time   : Nat
  good   : Bool
  deriving DecidableEq, Repr

/-- A leg of a collective as it arrives (R275, R357): the first member of its subtree, its level, the TIME it bears, its
elements' bytes, the counts of its blocks where it is lossy (0 for a block lost), and whether its status is OK. -/
structure LegIn where
  first  : Nat
  level  : Nat
  time   : Nat
  data   : List Byte
  counts : List Nat
  good   : Bool
  deriving DecidableEq, Repr

/-- The acts of firmware that a bound of R30 limits (R356). -/
inductive FwAttempt where
  | memory (write : Bool) (addr : Nat)
  | classTraffic (port bytes : Nat)
  | hostDma (addr : Nat)
  | bind (slot : Nat) (rec : BindRec)
  deriving DecidableEq, Repr

/-- An access of a scriptorium core, acting for an owner's guest; `aq` and `rl` are the ordering bits of an AMO, LR or SC (R24, R130). -/
inductive ScrAccess where
  | load (owner : Nat) (va : Word) (bytes : Nat)
  | store (owner : Nat) (va : Word) (bytes : Nat) (data : Word)
  | amo (owner : Nat) (va : Word) (bytes : Nat) (op : Nat) (data : Word) (cmp : Word) (aq rl : Bool)
  | lr (core owner : Nat) (va : Word) (bytes : Nat) (aq rl : Bool)
  | sc (core owner : Nat) (va : Word) (bytes : Nat) (data : Word) (aq rl : Bool)
  | fence
  deriving DecidableEq, Repr

/-- The instructions and steps of the Q9, in the order of the opcode table. Each line names its rule. -/
inductive Instr where
  | add (d a b : Reg)  -- R152
  | sub (d a b : Reg)  -- R152
  | and (d a b : Reg)  -- R152
  | or (d a b : Reg)  -- R152
  | xor (d a b : Reg)  -- R152
  | andn (d a b : Reg)  -- R152
  | orn (d a b : Reg)  -- R152
  | sll (d a b : Reg)  -- R152
  | srl (d a b : Reg)  -- R152
  | sra (d a b : Reg)  -- R152
  | rol (d a b : Reg)  -- R152
  | ror (d a b : Reg)  -- R152
  | slt (d a b : Reg)  -- R152
  | sltu (d a b : Reg)  -- R152
  | min (d a b : Reg)  -- R152
  | max (d a b : Reg)  -- R152
  | minu (d a b : Reg)  -- R152
  | maxu (d a b : Reg)  -- R152
  | mul (d a b : Reg)  -- R152
  | mulh (d a b : Reg)  -- R152
  | mulhu (d a b : Reg)  -- R152
  | mulhsu (d a b : Reg)  -- R152
  | div (d a b : Reg) (la : Fin 16)  -- R154
  | divu (d a b : Reg) (la : Fin 16)  -- R154
  | rem (d a b : Reg) (la : Fin 16)  -- R154
  | remu (d a b : Reg) (la : Fin 16)  -- R154
  | clz (d a : Reg)  -- R152
  | ctz (d a : Reg)  -- R152
  | popc (d a : Reg)  -- R152
  | sextb (d a : Reg)  -- R152
  | sexth (d a : Reg)  -- R152
  | sextw (d a : Reg)  -- R152
  | zextw (d a : Reg)  -- R152
  | bswap (d a : Reg)  -- R152
  | csel (d a b : Reg)  -- R152
  | addw (d a b : Reg)  -- R153
  | subw (d a b : Reg)  -- R153
  | sllw (d a b : Reg)  -- R153
  | srlw (d a b : Reg)  -- R153
  | sraw (d a b : Reg)  -- R153
  | mulw (d a b : Reg)  -- R153
  | divw (d a b : Reg) (la : Fin 16)  -- R153
  | divuw (d a b : Reg) (la : Fin 16)  -- R153
  | remw (d a b : Reg) (la : Fin 16)  -- R153
  | remuw (d a b : Reg) (la : Fin 16)  -- R153
  | addi (d a : Reg) (imm : BitVec 16)  -- R155
  | andi (d a : Reg) (imm : BitVec 16)  -- R155
  | ori (d a : Reg) (imm : BitVec 16)  -- R155
  | xori (d a : Reg) (imm : BitVec 16)  -- R155
  | slti (d a : Reg) (imm : BitVec 16)  -- R155
  | sltiu (d a : Reg) (imm : BitVec 16)  -- R155
  | slli (d a : Reg) (sh : Fin 64)  -- R155
  | srli (d a : Reg) (sh : Fin 64)  -- R155
  | srai (d a : Reg) (sh : Fin 64)  -- R155
  | rori (d a : Reg) (sh : Fin 64)  -- R155
  | lhi (d : Reg) (imm : BitVec 16)  -- R155
  | lsh (d : Reg) (imm : BitVec 16)  -- R155
  | adr (d : Reg) (imm : BitVec 16)  -- R155
  | beq (a b : Reg) (off : BitVec 13)  -- R156
  | bne (a b : Reg) (off : BitVec 13)  -- R156
  | blt (a b : Reg) (off : BitVec 13)  -- R156
  | bge (a b : Reg) (off : BitVec 13)  -- R156
  | bltu (a b : Reg) (off : BitVec 13)  -- R156
  | bgeu (a b : Reg) (off : BitVec 13)  -- R156
  | jal (off : BitVec 26)  -- R157
  | j (off : BitVec 26)  -- R157
  | jalr (d a : Reg) (imm : BitVec 16)  -- R157
  | bes (bit : Fin 64) (sense : Bool) (off : BitVec 19)  -- R158
  | ldB (d a : Reg) (imm : BitVec 16)  -- R159
  | ldH (d a : Reg) (imm : BitVec 16)  -- R159
  | ldW (d a : Reg) (imm : BitVec 16)  -- R159
  | ldD (d a : Reg) (imm : BitVec 16)  -- R159
  | ldBu (d a : Reg) (imm : BitVec 16)  -- R159
  | ldHu (d a : Reg) (imm : BitVec 16)  -- R159
  | ldWu (d a : Reg) (imm : BitVec 16)  -- R159
  | stB (d a : Reg) (imm : BitVec 16)  -- R159
  | stH (d a : Reg) (imm : BitVec 16)  -- R159
  | stW (d a : Reg) (imm : BitVec 16)  -- R159
  | stD (d a : Reg) (imm : BitVec 16)  -- R159
  | ldo (d a : Reg) (la : Fin 16) (sc : Scope) (ord : MemOrd) (sz : Size) (fe : FeMode) (inv : Bool)  -- R161
  | sto (d a : Reg) (la : Fin 16) (sc : Scope) (ord : MemOrd) (sz : Size) (fe : FeMode)  -- R162
  | amoSwap (d a b : Reg) (sc : Scope) (ord : MemOrd) (dbl : Bool)  -- R164
  | amoAdd (d a b : Reg) (sc : Scope) (ord : MemOrd) (dbl : Bool)  -- R164
  | amoAnd (d a b : Reg) (sc : Scope) (ord : MemOrd) (dbl : Bool)  -- R164
  | amoOr (d a b : Reg) (sc : Scope) (ord : MemOrd) (dbl : Bool)  -- R164
  | amoXor (d a b : Reg) (sc : Scope) (ord : MemOrd) (dbl : Bool)  -- R164
  | amoMin (d a b : Reg) (sc : Scope) (ord : MemOrd) (dbl : Bool)  -- R164
  | amoMax (d a b : Reg) (sc : Scope) (ord : MemOrd) (dbl : Bool)  -- R164
  | amoMinu (d a b : Reg) (sc : Scope) (ord : MemOrd) (dbl : Bool)  -- R164
  | amoMaxu (d a b : Reg) (sc : Scope) (ord : MemOrd) (dbl : Bool)  -- R164
  | amoCas (d a b : Reg) (sc : Scope) (ord : MemOrd) (dbl : Bool)  -- R164
  | amoFadd (d a b : Reg) (sc : Scope) (ord : MemOrd)  -- R164
  | fence (sc : Scope)  -- R122
  | xfence (pred succ : BitVec 6) (sc : Scope)  -- R122
  | ifence  -- R122
  | vadd (d a b : Reg) (pg : Fin 8) (t : ElemType)  -- R169
  | vsub (d a b : Reg) (pg : Fin 8) (t : ElemType)  -- R169
  | vmul (d a b : Reg) (pg : Fin 8) (t : ElemType)  -- R169
  | vmulh (d a b : Reg) (pg : Fin 8) (t : ElemType)  -- R169
  | vmulhu (d a b : Reg) (pg : Fin 8) (t : ElemType)  -- R169
  | vmin (d a b : Reg) (pg : Fin 8) (t : ElemType)  -- R169
  | vmax (d a b : Reg) (pg : Fin 8) (t : ElemType)  -- R169
  | vminu (d a b : Reg) (pg : Fin 8) (t : ElemType)  -- R169
  | vmaxu (d a b : Reg) (pg : Fin 8) (t : ElemType)  -- R169
  | vand (d a b : Reg) (pg : Fin 8) (t : ElemType)  -- R169
  | vor (d a b : Reg) (pg : Fin 8) (t : ElemType)  -- R169
  | vxor (d a b : Reg) (pg : Fin 8) (t : ElemType)  -- R169
  | vsll (d a b : Reg) (pg : Fin 8) (t : ElemType)  -- R169
  | vsrl (d a b : Reg) (pg : Fin 8) (t : ElemType)  -- R169
  | vsra (d a b : Reg) (pg : Fin 8) (t : ElemType)  -- R169
  | vabs (d a : Reg) (pg : Fin 8) (t : ElemType)  -- R169
  | vcmpeq (d : Fin 8) (a b : Reg) (pg : Fin 8) (t : ElemType)  -- R170
  | vcmplt (d : Fin 8) (a b : Reg) (pg : Fin 8) (t : ElemType)  -- R170
  | vcmpltu (d : Fin 8) (a b : Reg) (pg : Fin 8) (t : ElemType)  -- R170
  | vfadd (d a b : Reg) (pg : Fin 8) (t : ElemType)  -- R171
  | vfsub (d a b : Reg) (pg : Fin 8) (t : ElemType)  -- R171
  | vfmul (d a b : Reg) (pg : Fin 8) (t : ElemType)  -- R171
  | vfma (d a b : Reg) (pg : Fin 8) (t : ElemType)  -- R171
  | vfms (d a b : Reg) (pg : Fin 8) (t : ElemType)  -- R171
  | vfnma (d a b : Reg) (pg : Fin 8) (t : ElemType)  -- R171
  | vfmin (d a b : Reg) (pg : Fin 8) (t : ElemType)  -- R172
  | vfmax (d a b : Reg) (pg : Fin 8) (t : ElemType)  -- R172
  | vfdiv (d a b : Reg) (pg : Fin 8) (t : ElemType)  -- R171
  | vfsqrt (d a : Reg) (pg : Fin 8) (t : ElemType)  -- R171
  | vfrcp (d a : Reg) (pg : Fin 8) (t : ElemType)  -- R171
  | vfrsq (d a : Reg) (pg : Fin 8) (t : ElemType)  -- R171
  | vfexp2 (d a : Reg) (pg : Fin 8) (t : ElemType)  -- R171
  | vflog2 (d a : Reg) (pg : Fin 8) (t : ElemType)  -- R171
  | vfabs (d a : Reg) (pg : Fin 8) (t : ElemType)  -- R172
  | vfneg (d a : Reg) (pg : Fin 8) (t : ElemType)  -- R172
  | vfcmpeq (d : Fin 8) (a b : Reg) (pg : Fin 8) (t : ElemType)  -- R172
  | vfcmplt (d : Fin 8) (a b : Reg) (pg : Fin 8) (t : ElemType)  -- R172
  | vfcmple (d : Fin 8) (a b : Reg) (pg : Fin 8) (t : ElemType)  -- R172
  | vfcmpun (d : Fin 8) (a b : Reg) (pg : Fin 8) (t : ElemType)  -- R172
  | vresc (d a b : Reg) (pg : Fin 8) (t : ElemType)  -- R173
  | vcvtF32I32 (d a : Reg)  -- R174
  | vcvtI32F32 (d a : Reg)  -- R174
  | vcvtBf16F32 (d a b : Reg)  -- R174
  | vcvtF32Bf16 (d a : Reg) (h : Fin 2)  -- R174
  | vpackLb4 (d a b : Reg)  -- R175
  | vunpkLb4 (d a : Reg) (h : Fin 4)  -- R175
  | vpackE4m3 (d a b : Reg)  -- R175
  | vpackE5m2 (d a b : Reg)  -- R175
  | vunpkE4m3 (d a : Reg) (h : Fin 4)  -- R175
  | vunpkE5m2 (d a : Reg) (h : Fin 4)  -- R175
  | vbcast (d a : Reg) (pg : Fin 8) (t : ElemType)  -- R176
  | vext (d a b : Reg) (t : ElemType)  -- R176
  | vins (d a b : Reg) (t : ElemType)  -- R176
  | vperm (d a b : Reg) (pg : Fin 8) (t : ElemType)  -- R176
  | vslup (d a b : Reg) (pg : Fin 8) (t : ElemType)  -- R176
  | vsldn (d a b : Reg) (pg : Fin 8) (t : ElemType)  -- R176
  | vzip (d a b : Reg) (pg : Fin 8) (t : ElemType)  -- R176
  | vunzip (d a : Reg) (pg : Fin 8) (t : ElemType)  -- R176
  | vrev (d a : Reg) (pg : Fin 8) (t : ElemType)  -- R176
  | vsel (d a b : Reg) (pg : Fin 8) (t : ElemType)  -- R176
  | vmov (d a : Reg) (pg : Fin 8) (t : ElemType)  -- R176
  | pand (d a b : Fin 8)  -- R178
  | por (d a b : Fin 8)  -- R178
  | pxor (d a b : Fin 8)  -- R178
  | pandn (d a b : Fin 8)  -- R178
  | pnot (d a : Fin 8)  -- R178
  | pset (d : Fin 8) (a : Reg) (t : ElemType)  -- R178
  | pcnt (d : Reg) (a : Fin 8) (t : ElemType)  -- R178
  | pfirst (d : Reg) (a : Fin 8) (t : ElemType)  -- R178
  | pldm (d : Fin 8) (a b : Reg) (t : ElemType)  -- R179
  | pmovx (d : Reg) (a : Fin 8) (t : ElemType)  -- R180
  | pmovp (d : Fin 8) (a : Reg) (t : ElemType)  -- R180
  | vredadd (d a : Reg) (pg : Fin 8) (t : ElemType)  -- R177
  | vredmax (d a : Reg) (pg : Fin 8) (t : ElemType)  -- R177
  | vredmin (d a : Reg) (pg : Fin 8) (t : ElemType)  -- R177
  | vfredadd (d a : Reg) (pg : Fin 8) (t : ElemType)  -- R177
  | vfredmax (d a : Reg) (pg : Fin 8) (t : ElemType)  -- R177
  | vld (d a b : Reg) (pg : Fin 8) (t : ElemType)  -- R181
  | vst (d a b : Reg) (pg : Fin 8) (t : ElemType)  -- R181
  | vldt (d a b : Reg) (pg : Fin 8) (t : ElemType)  -- R182
  | vstt (d a b : Reg) (pg : Fin 8) (t : ElemType)  -- R182
  | vgather (d a b : Reg) (pg : Fin 8) (t : ElemType)  -- R183
  | vscatter (d a b : Reg) (pg : Fin 8) (t : ElemType)  -- R183
  | sbind (k : Fin 4) (a b : Reg) (la : Fin 16)  -- R185
  | sunbind (k : Fin 4) (la : Fin 16)  -- R185
  | sstat (d : Reg) (k : Fin 4) (la : Fin 16)  -- R186
  | tal (d a b : Reg) (la : Fin 16)  -- R191
  | tfree (d a : Reg) (la : Fin 16)  -- R191
  | tseal (d a : Reg) (la : Fin 16)  -- R191
  | trel (d a : Reg) (la : Fin 16)  -- R191
  | tstat (d a : Reg) (la : Fin 16)  -- R87
  | cpin (d a b : Reg) (la : Fin 16)  -- R193
  | cpout (d a b : Reg) (la : Fin 16)  -- R193
  | cpg (d a b : Reg) (la : Fin 16)  -- R194
  | cpx (d a b : Reg) (la : Fin 16)  -- R194
  | cpstat (d a : Reg) (la : Fin 16)  -- R197
  | tgpost (d a : Reg) (la : Fin 16)  -- R198
  | tgwait (d a : Reg) (la : Fin 16)  -- R198
  | tgstat (d a : Reg) (la : Fin 16)  -- R198
  | mxg (k : Fin 16) (a : Reg) (la : Fin 16)  -- R199
  | mxr (d : Reg) (k la : Fin 16)  -- R199
  | mwld (a b : Reg) (la : Fin 16)  -- R207
  | mwswap (la : Fin 16)  -- R208
  | mmul (nc : Bool) (z : Fin 4) (a b : Reg) (la : Fin 16)  -- R201
  | mzero (z : Fin 4) (la : Fin 16)  -- R203
  | mzdrn (z : Fin 4) (a : Reg) (f : DrainFmt) (la : Fin 16)  -- R205
  | mstat (d : Reg) (la : Fin 16)  -- R212
  | msnd (d a b : Reg) (la : Fin 16)  -- R215
  | msnds (d a b : Reg) (la : Fin 16)  -- R216
  | mrcv (d a : Reg) (la : Fin 16)  -- R219
  | mpeek (d a : Reg) (la : Fin 16)  -- R219
  | mcommit (d : Reg) (la : Fin 16)  -- R217
  | mabort (d : Reg) (la : Fin 16)  -- R217
  | barArrive (g : Fin 4)  -- R39
  | barWait (g : Fin 4)  -- R39
  | barVote (d a : Reg) (g : Fin 4)  -- R14
  | hstart (d a b : Reg)  -- R223
  | hjoin (d a : Reg) (la : Fin 16)  -- R224
  | hexit  -- R225
  | hstat (d : Reg)  -- R226
  | lnch (d a : Reg) (la : Fin 16)  -- R227
  | lwait (d a : Reg) (la : Fin 16)  -- R228
  | stmc (d a b : Reg) (la : Fin 16)  -- R230
  | coll (d a : Reg) (la : Fin 16)  -- R231
  | collwait (d a : Reg) (la : Fin 16)  -- R233
  | give (d a b : Reg) (la : Fin 16)  -- R236
  | accept (d a b : Reg) (la : Fin 16)  -- R236
  | lend (d a b : Reg) (la : Fin 16)  -- R236
  | reclaim (d a b : Reg) (la : Fin 16)  -- R236
  | ownq (d a : Reg) (la : Fin 16)  -- R236
  | omake (d : Reg) (la : Fin 16)  -- R236
  | evict (d a b : Reg) (la : Fin 16)  -- R287
  | crr (d : Reg) (ix : BitVec 12)  -- R238
  | crw (d a : Reg) (ix : BitVec 12)  -- R238
  | crs (d a : Reg) (ix : BitVec 12)  -- R238
  | crc (d a : Reg) (ix : BitVec 12)  -- R238
  | trap (a : Reg)  -- R240
  | tret  -- R304
  | brk  -- R241
  | halt  -- R241
  | wfe (a : Reg)  -- R242
  | nop  -- R240
  | solo  -- R53
  | mxovf  -- R325
  | launchPlace (src : LaunchSrc)  -- R45
  | rankEnd (k : RankKey)  -- R225
  | launchComplete (l : Nat)  -- R59
  | deadlinePassed (l : Nat)  -- R252
  | doorbell (port : HostPort) (owner q tail : Nat)  -- R245
  | queueDescriptorWrite (owner q : Nat) (ix : Fin 3) (v : Word)  -- R244
  | bindRecordWrite (slot : Nat) (rec : BindRec)  -- R250
  | bindRecordDeferred (slot : Nat)  -- R255
  | coreVacate (core : Nat)  -- R46
  | rankResume (core : Nat)  -- R48
  | arrivalCounted (k : RankKey) (g : Fin 4)  -- R40
  | barrierRelease (launch group : Nat)  -- R41
  | haltGroupStop (h : Fin 16)  -- R56
  | debugStop (core : Nat)  -- R56
  | debugResume (core : Nat)  -- R241
  | powerLimitWrite (which : PowerLimit) (v : Nat)  -- R31
  | powerMeasure (draw temp : Nat)  -- R31
  | fewaitTimeout (k : RankKey) (ctx : Nat)  -- R332
  | faultReplyPoll (n : Nat)  -- R306
  | faultRecordTimeout (n : Nat)  -- R306
  | replicaCommit  -- R126
  | flush (page : Nat)  -- R288
  | flushComplete (owner : Nat)  -- R105
  | moveStart (page : Nat) (v : Word)  -- R330
  | moveCopyDone  -- R331
  | moveDoneClear (page : Nat) (v : Word)  -- R330
  | tileClearEnd (k : RankKey) (h : Fin 128)  -- R191
  | tileReadsEnd (k : RankKey) (h : Fin 128)  -- R85
  | clusterTileEndFree (launch : Nat)  -- R82
  | copyStart (ch : Nat)  -- R96
  | copyChunkEnd (ch : Nat)  -- R96
  | matrixOpStart (k : RankKey)  -- R200
  | pairCycle (k : RankKey)  -- R202
  | matrixOpEnd (k : RankKey)  -- R204
  | drainEnd (k : RankKey)  -- R205
  | graphNodeStart (k : RankKey) (slot node : Nat)  -- R94
  | graphNodeFinish (k : RankKey) (slot node : Nat)  -- R94
  | messageDeliver (n : Nat)  -- R215
  | queueRung (q : Nat)  -- R313
  | contextRung (t : ContextTarget)  -- R313
  | engineRung (t : EngineTarget)  -- R313
  | partitionRung (owner : Nat)  -- R313
  | deviceRung  -- R313
  | rungTimeout (n : Nat)  -- R313
  | bringUp  -- R297
  | portGive (page : Nat)  -- R282
  | portAccept (page : Nat)  -- R282
  | portLend (page : Nat)  -- R282
  | portReclaim (page : Nat)  -- R282
  | portOwnq (page : Nat)  -- R282
  | portOmake (page : Nat)  -- R282
  | portEvict (page : Nat)  -- R282
  | trootWrite (page : Nat) (v : Word)  -- R288
  | mkeyidWrite (page : Nat) (v : Word)  -- R288
  | vfset (page : Nat) (v : Word)  -- R288
  | enrol (page : Nat) (v : Word)  -- R271
  | plotkey (page : Nat) (v : Word)  -- R288
  | attest (page : Nat) (v : Word)  -- R291
  | mcrecWrite (page off : Nat) (v : Word)  -- R274
  | registerWrite (sp : RegSpace) (off : Nat) (v : Word)  -- R288
  | leaseexpWrite (port : HostPort) (v : Word)  -- R281
  | leaseExpire  -- R349
  | vfEnableClear (port : HostPort)  -- R352
  | cxlMemRead (vf : Nat) (addr : Word)  -- R280
  | cxlMemWrite (vf : Nat) (addr v : Word)  -- R280
  | getVersion  -- R296
  | getCapabilities  -- R296
  | negotiateAlgorithms  -- R296
  | getDigests  -- R296
  | getCertificate (slot : Nat)  -- R296
  | challenge (nonce : Word)  -- R296
  | getMeasurements (ix : Nat)  -- R296
  | accessLogInterval  -- R293
  | logSeal  -- R294
  | flitReceive (port : Nat) (f : Flit)  -- R343
  | replayRequest (port lseq : Nat)  -- R343
  | linkOutOfService (port : Nat)  -- R344
  | spareRetrain  -- R344
  | packetInject (id : Nat)  -- R269
  | packetResend (id : Nat)  -- R344
  | packetDeliver (sagent pseq : Nat) (r : RemoteReq)  -- R267
  | lossyBlockArrive (b : LossyBlock)  -- R272
  | lossyClose (src xfer : Nat)  -- R272
  | remoteRequest (r : RemoteReq)  -- R345
  | remoteCompletion (id status : Nat) (data : Word)  -- R346
  | remoteDeadline (id : Nat)  -- R346
  | stmcReply (id : Nat) (failed : Word)  -- R230
  | stmcAckTimeout (id : Nat) (branch : Word)  -- R347
  | collCombine (id level j : Nat) (legs : List LegIn)  -- R357
  | collResult (group count : Nat) (leg : Option LegIn)  -- R357
  | collFaultTimeout (id : Nat) (missing : Word)  -- R348
  | collHeldDiscard (group count : Nat)  -- R358
  | collCloseTimeout (id : Nat)  -- R358
  | atomicMerge (i j : Nat)  -- R277
  | atomicMergeTimeout (i : Nat)  -- R277
  | timeFlit (ref : Nat)  -- R278
  | scrcache (line : Nat) (dirty : Bool)  -- R354
  | fwbound (a : FwAttempt)  -- R356
  | scriptoriumAccess (a : ScrAccess)  -- R130
  | vfEnableSet (port : HostPort)  -- R281
  | hostAccessLeaseTimeout (k : RankKey) (ctx : Nat)  -- R349
  | arbiterGrant (arb : Nat)  -- R253
  deriving DecidableEq, Repr

end Sys2Proof
end

