-- ==== Sys2Proof/WellFormed.lean ====
section
/-! DEFINITION. Which terms of Instr are instructions: the limits of R131 to R138 that a field's own type does not
already hold. A term that fails one is a word of R319, "not an instruction". The steps without an encoding have none. -/

namespace Sys2Proof

/-- The integer types of opcodes 0x21 and 0x26 (R140). -/
def ElemType.isInt : ElemType → Bool
  | .i8 | .i16 | .i32 | .i64 => true
  | .bf16 | .f32 | .e4m3 | .e5m2 => false

/-- The types of opcode 0x22 and of the FP reductions (R140). -/
def ElemType.isFp : ElemType → Bool
  | .bf16 | .f32 => true
  | .i8 | .i16 | .i32 | .i64 | .e4m3 | .e5m2 => false

/-- A vector register that is no stream: codes 0-27 (R214). -/
def VField.isReg (v : VField) : Bool := v.val < 28

/-- The control-register indices of R142. -/
def crListed (ix : BitVec 12) : Bool :=
  ix.toNat ≤ 0x00B || ix.toNat == 0x010 || ix.toNat == 0x011 || (0x020 ≤ ix.toNat && ix.toNat ≤ 0x027)
    || (0x030 ≤ ix.toNat && ix.toNat ≤ 0x034) || ix.toNat == 0x038 || (0x040 ≤ ix.toNat && ix.toNat ≤ 0x044)
    || (0x048 ≤ ix.toNat && ix.toNat ≤ 0x04A) || ix.toNat == 0x050

/-- The combinations R116 and R136 allow on `ldo`. -/
def ldoAllowed (ord : MemOrd) (sz : Size) (fe : FeMode) (inv : Bool) : Bool :=
  (ord == .relaxed || ord == .acq) && (fe == .none || fe == .lwf || fe == .lwt) && (fe == .none || sz == .d)
    && (!inv || (ord == .relaxed && fe == .none))

/-- The combinations R116, R136 and R160 allow on `sto`; `sto.se` reads no data, so its D is zero. -/
def stoAllowed (d : Reg) (ord : MemOrd) (sz : Size) (fe : FeMode) : Bool :=
  (ord == .relaxed || ord == .rel) && (fe == .none || fe == .swe || fe == .sf || fe == .se) && (fe == .none || sz == .d)
    && (fe != .se || d == 0)

/-- The limits that hold an instruction (R131 to R138). -/
def Instr.wf : Instr → Bool
  | .bes bit _ _ => bit.val ≤ 24
  | .ldo _ _ _ _ ord sz fe inv => ldoAllowed ord sz fe inv
  | .sto d _ _ _ ord sz fe => stoAllowed d ord sz fe
  | .xfence pred succ _ => pred != 0 && succ != 0
  | .vadd _ _ _ _ t | .vsub _ _ _ _ t | .vmul _ _ _ _ t | .vmulh _ _ _ _ t | .vmulhu _ _ _ _ t | .vmin _ _ _ _ t
  | .vmax _ _ _ _ t | .vminu _ _ _ _ t | .vmaxu _ _ _ _ t | .vand _ _ _ _ t | .vor _ _ _ _ t | .vxor _ _ _ _ t
  | .vsll _ _ _ _ t | .vsrl _ _ _ _ t | .vsra _ _ _ _ t | .vabs _ _ _ t | .vcmpeq _ _ _ _ t | .vcmplt _ _ _ _ t
  | .vcmpltu _ _ _ _ t | .vredadd _ _ _ t | .vredmax _ _ _ t | .vredmin _ _ _ t => t.isInt
  | .vfadd _ _ _ _ t | .vfsub _ _ _ _ t | .vfmul _ _ _ _ t | .vfma _ _ _ _ t | .vfms _ _ _ _ t | .vfnma _ _ _ _ t
  | .vfmin _ _ _ _ t | .vfmax _ _ _ _ t | .vfdiv _ _ _ _ t | .vfsqrt _ _ _ t | .vfrcp _ _ _ t | .vfrsq _ _ _ t
  | .vfexp2 _ _ _ t | .vflog2 _ _ _ t | .vfabs _ _ _ t | .vfneg _ _ _ t | .vfcmpeq _ _ _ _ t | .vfcmplt _ _ _ _ t
  | .vfcmple _ _ _ _ t | .vfcmpun _ _ _ _ t | .vresc _ _ _ _ t | .vfredadd _ _ _ t | .vfredmax _ _ _ t => t.isFp
  | .msnd v _ _ _ | .msnds v _ _ _ | .mrcv v _ _ => VField.isReg v
  | .crr _ ix | .crw _ _ ix | .crs _ _ ix | .crc _ _ ix => crListed ix
  | _ => true

end Sys2Proof
end

