-- ==== Sys2Proof/Decode.lean ====
section
/-! DEFINITION. The decoder of the instruction word (07 R131 to R140), total on every number, and the encoder from the
same tables. A word that is not an instruction is rejected with the step of R131 that it fails; R319 gives it ILLEGAL. -/

namespace Sys2Proof

/-- Why a word is not an instruction (R131, R319). -/
inductive Undecoded where
  /-- OP names no opcode, or OP 0x3F in a word that is not the prefix. Raised by decoding; safe: R319 gives ILLEGAL. -/
  | opcode
  /-- A function code past the last that R140 lists. Safe, as above. -/
  | function
  /-- A field the instruction does not use, or a reserved value, is not zero (R134). Safe, as above. -/
  | field
  /-- SC 5-7 (R115). Safe, as above. -/
  | scope
  /-- FE 6-7 (R136). Safe, as above. -/
  | mode
  /-- A limit of WellFormed: a type, an index, or an annotation the instruction does not admit. Safe, as above. -/
  | limits
  deriving DecidableEq, Repr

/-- Bits lo to lo + n - 1 of w. -/
def bitsOf (w lo n : Nat) : Nat := w / 2^lo % 2^n

def bitOf (w lo : Nat) : Bool := w / 2^lo % 2 == 1

def fieldD (w : Nat) : Reg := Fin.ofNat 32 (w / 2^21)
def fieldA (w : Nat) : Reg := Fin.ofNat 32 (w / 2^16)
def fieldB (w : Nat) : Reg := Fin.ofNat 32 (w / 2^11)

/-- SC (R115); 5-7 name no scope. -/
def Scope.ofCode? : Nat → Option Scope
  | 0 => some .core | 1 => some .clus | 2 => some .die | 3 => some .dev | 4 => some .sys
  | _ => none

def Scope.code : Scope → Nat
  | .core => 0 | .clus => 1 | .die => 2 | .dev => 3 | .sys => 4

/-- ORD (R116), its low two bits. -/
def MemOrd.ofCode (n : Nat) : MemOrd :=
  match n % 4 with
  | 0 => .relaxed | 1 => .acq | 2 => .rel | _ => .acqrel

def MemOrd.code : MemOrd → Nat
  | .relaxed => 0 | .acq => 1 | .rel => 2 | .acqrel => 3

/-- SZ (R136), its low two bits. -/
def Size.ofCode (n : Nat) : Size :=
  match n % 4 with
  | 0 => .b | 1 => .h | 2 => .w | _ => .d

def Size.code : Size → Nat
  | .b => 0 | .h => 1 | .w => 2 | .d => 3

/-- FE (R136); 6-7 name no mode. -/
def FeMode.ofCode? : Nat → Option FeMode
  | 0 => some .none | 1 => some .lwf | 2 => some .lwt | 3 => some .swe | 4 => some .sf | 5 => some .se
  | _ => Option.none

def FeMode.code : FeMode → Nat
  | .none => 0 | .lwf => 1 | .lwt => 2 | .swe => 3 | .sf => 4 | .se => 5

/-- The element type of F[7:5] (R137), its low three bits. -/
def ElemType.ofCode (n : Nat) : ElemType :=
  match n % 8 with
  | 0 => .i8 | 1 => .i16 | 2 => .i32 | 3 => .i64 | 4 => .bf16 | 5 => .f32 | 6 => .e4m3 | _ => .e5m2

def ElemType.code : ElemType → Nat
  | .i8 => 0 | .i16 => 1 | .i32 => 2 | .i64 => 3 | .bf16 => 4 | .f32 => 5 | .e4m3 => 6 | .e5m2 => 7

/-- The drain format of `mzdrn` and of a drain node (R190, R93); 0 names none. -/
def DrainFmt.ofCode? : Nat → Option DrainFmt
  | 1 => some .lb4 | 2 => some .f32 | 3 => some .bf16
  | _ => none

def DrainFmt.code : DrainFmt → Nat
  | .lb4 => 1 | .f32 => 2 | .bf16 => 3

/-- Opcode 0x01 of R140. -/
def decodeInteger (w : Nat) : Except Undecoded Instr :=
  match w % 128 with
  | 0 => if w / 2^7 % 2^4 = 0 then .ok (.add (fieldD w) (fieldA w) (fieldB w)) else .error .field
  | 1 => if w / 2^7 % 2^4 = 0 then .ok (.sub (fieldD w) (fieldA w) (fieldB w)) else .error .field
  | 2 => if w / 2^7 % 2^4 = 0 then .ok (.and (fieldD w) (fieldA w) (fieldB w)) else .error .field
  | 3 => if w / 2^7 % 2^4 = 0 then .ok (.or (fieldD w) (fieldA w) (fieldB w)) else .error .field
  | 4 => if w / 2^7 % 2^4 = 0 then .ok (.xor (fieldD w) (fieldA w) (fieldB w)) else .error .field
  | 5 => if w / 2^7 % 2^4 = 0 then .ok (.andn (fieldD w) (fieldA w) (fieldB w)) else .error .field
  | 6 => if w / 2^7 % 2^4 = 0 then .ok (.orn (fieldD w) (fieldA w) (fieldB w)) else .error .field
  | 7 => if w / 2^7 % 2^4 = 0 then .ok (.sll (fieldD w) (fieldA w) (fieldB w)) else .error .field
  | 8 => if w / 2^7 % 2^4 = 0 then .ok (.srl (fieldD w) (fieldA w) (fieldB w)) else .error .field
  | 9 => if w / 2^7 % 2^4 = 0 then .ok (.sra (fieldD w) (fieldA w) (fieldB w)) else .error .field
  | 10 => if w / 2^7 % 2^4 = 0 then .ok (.rol (fieldD w) (fieldA w) (fieldB w)) else .error .field
  | 11 => if w / 2^7 % 2^4 = 0 then .ok (.ror (fieldD w) (fieldA w) (fieldB w)) else .error .field
  | 12 => if w / 2^7 % 2^4 = 0 then .ok (.slt (fieldD w) (fieldA w) (fieldB w)) else .error .field
  | 13 => if w / 2^7 % 2^4 = 0 then .ok (.sltu (fieldD w) (fieldA w) (fieldB w)) else .error .field
  | 14 => if w / 2^7 % 2^4 = 0 then .ok (.min (fieldD w) (fieldA w) (fieldB w)) else .error .field
  | 15 => if w / 2^7 % 2^4 = 0 then .ok (.max (fieldD w) (fieldA w) (fieldB w)) else .error .field
  | 16 => if w / 2^7 % 2^4 = 0 then .ok (.minu (fieldD w) (fieldA w) (fieldB w)) else .error .field
  | 17 => if w / 2^7 % 2^4 = 0 then .ok (.maxu (fieldD w) (fieldA w) (fieldB w)) else .error .field
  | 18 => if w / 2^7 % 2^4 = 0 then .ok (.mul (fieldD w) (fieldA w) (fieldB w)) else .error .field
  | 19 => if w / 2^7 % 2^4 = 0 then .ok (.mulh (fieldD w) (fieldA w) (fieldB w)) else .error .field
  | 20 => if w / 2^7 % 2^4 = 0 then .ok (.mulhu (fieldD w) (fieldA w) (fieldB w)) else .error .field
  | 21 => if w / 2^7 % 2^4 = 0 then .ok (.mulhsu (fieldD w) (fieldA w) (fieldB w)) else .error .field
  | 22 => .ok (.div (fieldD w) (fieldA w) (fieldB w) (Fin.ofNat 16 (w / 2^7)))
  | 23 => .ok (.divu (fieldD w) (fieldA w) (fieldB w) (Fin.ofNat 16 (w / 2^7)))
  | 24 => .ok (.rem (fieldD w) (fieldA w) (fieldB w) (Fin.ofNat 16 (w / 2^7)))
  | 25 => .ok (.remu (fieldD w) (fieldA w) (fieldB w) (Fin.ofNat 16 (w / 2^7)))
  | 26 => if w / 2^7 % 2^9 = 0 then .ok (.clz (fieldD w) (fieldA w)) else .error .field
  | 27 => if w / 2^7 % 2^9 = 0 then .ok (.ctz (fieldD w) (fieldA w)) else .error .field
  | 28 => if w / 2^7 % 2^9 = 0 then .ok (.popc (fieldD w) (fieldA w)) else .error .field
  | 29 => if w / 2^7 % 2^9 = 0 then .ok (.sextb (fieldD w) (fieldA w)) else .error .field
  | 30 => if w / 2^7 % 2^9 = 0 then .ok (.sexth (fieldD w) (fieldA w)) else .error .field
  | 31 => if w / 2^7 % 2^9 = 0 then .ok (.sextw (fieldD w) (fieldA w)) else .error .field
  | 32 => if w / 2^7 % 2^9 = 0 then .ok (.zextw (fieldD w) (fieldA w)) else .error .field
  | 33 => if w / 2^7 % 2^9 = 0 then .ok (.bswap (fieldD w) (fieldA w)) else .error .field
  | 34 => if w / 2^7 % 2^4 = 0 then .ok (.csel (fieldD w) (fieldA w) (fieldB w)) else .error .field
  | _ => .error .function

/-- Opcode 0x02 of R140. -/
def decodeIntegerWord (w : Nat) : Except Undecoded Instr :=
  match w % 128 with
  | 0 => if w / 2^7 % 2^4 = 0 then .ok (.addw (fieldD w) (fieldA w) (fieldB w)) else .error .field
  | 1 => if w / 2^7 % 2^4 = 0 then .ok (.subw (fieldD w) (fieldA w) (fieldB w)) else .error .field
  | 2 => if w / 2^7 % 2^4 = 0 then .ok (.sllw (fieldD w) (fieldA w) (fieldB w)) else .error .field
  | 3 => if w / 2^7 % 2^4 = 0 then .ok (.srlw (fieldD w) (fieldA w) (fieldB w)) else .error .field
  | 4 => if w / 2^7 % 2^4 = 0 then .ok (.sraw (fieldD w) (fieldA w) (fieldB w)) else .error .field
  | 5 => if w / 2^7 % 2^4 = 0 then .ok (.mulw (fieldD w) (fieldA w) (fieldB w)) else .error .field
  | 6 => .ok (.divw (fieldD w) (fieldA w) (fieldB w) (Fin.ofNat 16 (w / 2^7)))
  | 7 => .ok (.divuw (fieldD w) (fieldA w) (fieldB w) (Fin.ofNat 16 (w / 2^7)))
  | 8 => .ok (.remw (fieldD w) (fieldA w) (fieldB w) (Fin.ofNat 16 (w / 2^7)))
  | 9 => .ok (.remuw (fieldD w) (fieldA w) (fieldB w) (Fin.ofNat 16 (w / 2^7)))
  | _ => .error .function

/-- Opcode 0x09 of R140. -/
def decodeShiftImm (w : Nat) : Except Undecoded Instr :=
  match w / 2^6 % 4 with
  | 0 => if w / 2^8 % 2^8 = 0 then .ok (.slli (fieldD w) (fieldA w) (Fin.ofNat 64 w)) else .error .field
  | 1 => if w / 2^8 % 2^8 = 0 then .ok (.srli (fieldD w) (fieldA w) (Fin.ofNat 64 w)) else .error .field
  | 2 => if w / 2^8 % 2^8 = 0 then .ok (.srai (fieldD w) (fieldA w) (Fin.ofNat 64 w)) else .error .field
  | 3 => if w / 2^8 % 2^8 = 0 then .ok (.rori (fieldD w) (fieldA w) (Fin.ofNat 64 w)) else .error .field
  | _ => .error .function

/-- Opcode 0x0D of R140. -/
def decodeBranch (w : Nat) : Except Undecoded Instr :=
  match w / 2^13 % 8 with
  | 0 => .ok (.beq (fieldD w) (fieldA w) (BitVec.ofNat 13 w))
  | 1 => .ok (.bne (fieldD w) (fieldA w) (BitVec.ofNat 13 w))
  | 2 => .ok (.blt (fieldD w) (fieldA w) (BitVec.ofNat 13 w))
  | 3 => .ok (.bge (fieldD w) (fieldA w) (BitVec.ofNat 13 w))
  | 4 => .ok (.bltu (fieldD w) (fieldA w) (BitVec.ofNat 13 w))
  | 5 => .ok (.bgeu (fieldD w) (fieldA w) (BitVec.ofNat 13 w))
  | _ => .error .function

/-- Opcode 0x1F of R140. -/
def decodeAmo (w : Nat) : Except Undecoded Instr :=
  match w % 32 with
  | 0 => (Scope.ofCode? (w / 2^8 % 8)).elim (.error .scope) fun sc => .ok (.amoSwap (fieldD w) (fieldA w) (fieldB w) sc (MemOrd.ofCode (w / 2^6)) (bitOf w 5))
  | 1 => (Scope.ofCode? (w / 2^8 % 8)).elim (.error .scope) fun sc => .ok (.amoAdd (fieldD w) (fieldA w) (fieldB w) sc (MemOrd.ofCode (w / 2^6)) (bitOf w 5))
  | 2 => (Scope.ofCode? (w / 2^8 % 8)).elim (.error .scope) fun sc => .ok (.amoAnd (fieldD w) (fieldA w) (fieldB w) sc (MemOrd.ofCode (w / 2^6)) (bitOf w 5))
  | 3 => (Scope.ofCode? (w / 2^8 % 8)).elim (.error .scope) fun sc => .ok (.amoOr (fieldD w) (fieldA w) (fieldB w) sc (MemOrd.ofCode (w / 2^6)) (bitOf w 5))
  | 4 => (Scope.ofCode? (w / 2^8 % 8)).elim (.error .scope) fun sc => .ok (.amoXor (fieldD w) (fieldA w) (fieldB w) sc (MemOrd.ofCode (w / 2^6)) (bitOf w 5))
  | 5 => (Scope.ofCode? (w / 2^8 % 8)).elim (.error .scope) fun sc => .ok (.amoMin (fieldD w) (fieldA w) (fieldB w) sc (MemOrd.ofCode (w / 2^6)) (bitOf w 5))
  | 6 => (Scope.ofCode? (w / 2^8 % 8)).elim (.error .scope) fun sc => .ok (.amoMax (fieldD w) (fieldA w) (fieldB w) sc (MemOrd.ofCode (w / 2^6)) (bitOf w 5))
  | 7 => (Scope.ofCode? (w / 2^8 % 8)).elim (.error .scope) fun sc => .ok (.amoMinu (fieldD w) (fieldA w) (fieldB w) sc (MemOrd.ofCode (w / 2^6)) (bitOf w 5))
  | 8 => (Scope.ofCode? (w / 2^8 % 8)).elim (.error .scope) fun sc => .ok (.amoMaxu (fieldD w) (fieldA w) (fieldB w) sc (MemOrd.ofCode (w / 2^6)) (bitOf w 5))
  | 9 => (Scope.ofCode? (w / 2^8 % 8)).elim (.error .scope) fun sc => .ok (.amoCas (fieldD w) (fieldA w) (fieldB w) sc (MemOrd.ofCode (w / 2^6)) (bitOf w 5))
  | 10 => if w / 2^5 % 2^1 = 0 then (Scope.ofCode? (w / 2^8 % 8)).elim (.error .scope) fun sc => .ok (.amoFadd (fieldD w) (fieldA w) (fieldB w) sc (MemOrd.ofCode (w / 2^6))) else .error .field
  | _ => .error .function

/-- Opcode 0x20 of R140. -/
def decodeFence (w : Nat) : Except Undecoded Instr :=
  match w % 4 with
  | 0 => if w / 2^2 % 2^9 = 0 ∧ w / 2^14 % 2^12 = 0 then (Scope.ofCode? (w / 2^11 % 8)).elim (.error .scope) fun sc => .ok (.fence sc) else .error .field
  | 1 => if w / 2^2 % 2^9 = 0 then (Scope.ofCode? (w / 2^11 % 8)).elim (.error .scope) fun sc => .ok (.xfence (BitVec.ofNat 6 (w / 2^20)) (BitVec.ofNat 6 (w / 2^14)) sc) else .error .field
  | 2 => if w / 2^2 % 2^24 = 0 then .ok .ifence else .error .field
  | _ => .error .function

/-- Opcode 0x21 of R140. -/
def decodeVecInt (w : Nat) : Except Undecoded Instr :=
  match w % 32 with
  | 0 => .ok (.vadd (fieldD w) (fieldA w) (fieldB w) (Fin.ofNat 8 (w / 2^8)) (ElemType.ofCode (w / 2^5)))
  | 1 => .ok (.vsub (fieldD w) (fieldA w) (fieldB w) (Fin.ofNat 8 (w / 2^8)) (ElemType.ofCode (w / 2^5)))
  | 2 => .ok (.vmul (fieldD w) (fieldA w) (fieldB w) (Fin.ofNat 8 (w / 2^8)) (ElemType.ofCode (w / 2^5)))
  | 3 => .ok (.vmulh (fieldD w) (fieldA w) (fieldB w) (Fin.ofNat 8 (w / 2^8)) (ElemType.ofCode (w / 2^5)))
  | 4 => .ok (.vmulhu (fieldD w) (fieldA w) (fieldB w) (Fin.ofNat 8 (w / 2^8)) (ElemType.ofCode (w / 2^5)))
  | 5 => .ok (.vmin (fieldD w) (fieldA w) (fieldB w) (Fin.ofNat 8 (w / 2^8)) (ElemType.ofCode (w / 2^5)))
  | 6 => .ok (.vmax (fieldD w) (fieldA w) (fieldB w) (Fin.ofNat 8 (w / 2^8)) (ElemType.ofCode (w / 2^5)))
  | 7 => .ok (.vminu (fieldD w) (fieldA w) (fieldB w) (Fin.ofNat 8 (w / 2^8)) (ElemType.ofCode (w / 2^5)))
  | 8 => .ok (.vmaxu (fieldD w) (fieldA w) (fieldB w) (Fin.ofNat 8 (w / 2^8)) (ElemType.ofCode (w / 2^5)))
  | 9 => .ok (.vand (fieldD w) (fieldA w) (fieldB w) (Fin.ofNat 8 (w / 2^8)) (ElemType.ofCode (w / 2^5)))
  | 10 => .ok (.vor (fieldD w) (fieldA w) (fieldB w) (Fin.ofNat 8 (w / 2^8)) (ElemType.ofCode (w / 2^5)))
  | 11 => .ok (.vxor (fieldD w) (fieldA w) (fieldB w) (Fin.ofNat 8 (w / 2^8)) (ElemType.ofCode (w / 2^5)))
  | 12 => .ok (.vsll (fieldD w) (fieldA w) (fieldB w) (Fin.ofNat 8 (w / 2^8)) (ElemType.ofCode (w / 2^5)))
  | 13 => .ok (.vsrl (fieldD w) (fieldA w) (fieldB w) (Fin.ofNat 8 (w / 2^8)) (ElemType.ofCode (w / 2^5)))
  | 14 => .ok (.vsra (fieldD w) (fieldA w) (fieldB w) (Fin.ofNat 8 (w / 2^8)) (ElemType.ofCode (w / 2^5)))
  | 15 => if w / 2^11 % 2^5 = 0 then .ok (.vabs (fieldD w) (fieldA w) (Fin.ofNat 8 (w / 2^8)) (ElemType.ofCode (w / 2^5))) else .error .field
  | 16 => if w / 2^24 % 2^2 = 0 then .ok (.vcmpeq (Fin.ofNat 8 (w / 2^21)) (fieldA w) (fieldB w) (Fin.ofNat 8 (w / 2^8)) (ElemType.ofCode (w / 2^5))) else .error .field
  | 17 => if w / 2^24 % 2^2 = 0 then .ok (.vcmplt (Fin.ofNat 8 (w / 2^21)) (fieldA w) (fieldB w) (Fin.ofNat 8 (w / 2^8)) (ElemType.ofCode (w / 2^5))) else .error .field
  | 18 => if w / 2^24 % 2^2 = 0 then .ok (.vcmpltu (Fin.ofNat 8 (w / 2^21)) (fieldA w) (fieldB w) (Fin.ofNat 8 (w / 2^8)) (ElemType.ofCode (w / 2^5))) else .error .field
  | _ => .error .function

/-- Opcode 0x22 of R140. -/
def decodeVecFp (w : Nat) : Except Undecoded Instr :=
  match w % 32 with
  | 0 => .ok (.vfadd (fieldD w) (fieldA w) (fieldB w) (Fin.ofNat 8 (w / 2^8)) (ElemType.ofCode (w / 2^5)))
  | 1 => .ok (.vfsub (fieldD w) (fieldA w) (fieldB w) (Fin.ofNat 8 (w / 2^8)) (ElemType.ofCode (w / 2^5)))
  | 2 => .ok (.vfmul (fieldD w) (fieldA w) (fieldB w) (Fin.ofNat 8 (w / 2^8)) (ElemType.ofCode (w / 2^5)))
  | 3 => .ok (.vfma (fieldD w) (fieldA w) (fieldB w) (Fin.ofNat 8 (w / 2^8)) (ElemType.ofCode (w / 2^5)))
  | 4 => .ok (.vfms (fieldD w) (fieldA w) (fieldB w) (Fin.ofNat 8 (w / 2^8)) (ElemType.ofCode (w / 2^5)))
  | 5 => .ok (.vfnma (fieldD w) (fieldA w) (fieldB w) (Fin.ofNat 8 (w / 2^8)) (ElemType.ofCode (w / 2^5)))
  | 6 => .ok (.vfmin (fieldD w) (fieldA w) (fieldB w) (Fin.ofNat 8 (w / 2^8)) (ElemType.ofCode (w / 2^5)))
  | 7 => .ok (.vfmax (fieldD w) (fieldA w) (fieldB w) (Fin.ofNat 8 (w / 2^8)) (ElemType.ofCode (w / 2^5)))
  | 8 => .ok (.vfdiv (fieldD w) (fieldA w) (fieldB w) (Fin.ofNat 8 (w / 2^8)) (ElemType.ofCode (w / 2^5)))
  | 9 => if w / 2^11 % 2^5 = 0 then .ok (.vfsqrt (fieldD w) (fieldA w) (Fin.ofNat 8 (w / 2^8)) (ElemType.ofCode (w / 2^5))) else .error .field
  | 10 => if w / 2^11 % 2^5 = 0 then .ok (.vfrcp (fieldD w) (fieldA w) (Fin.ofNat 8 (w / 2^8)) (ElemType.ofCode (w / 2^5))) else .error .field
  | 11 => if w / 2^11 % 2^5 = 0 then .ok (.vfrsq (fieldD w) (fieldA w) (Fin.ofNat 8 (w / 2^8)) (ElemType.ofCode (w / 2^5))) else .error .field
  | 12 => if w / 2^11 % 2^5 = 0 then .ok (.vfexp2 (fieldD w) (fieldA w) (Fin.ofNat 8 (w / 2^8)) (ElemType.ofCode (w / 2^5))) else .error .field
  | 13 => if w / 2^11 % 2^5 = 0 then .ok (.vflog2 (fieldD w) (fieldA w) (Fin.ofNat 8 (w / 2^8)) (ElemType.ofCode (w / 2^5))) else .error .field
  | 14 => if w / 2^11 % 2^5 = 0 then .ok (.vfabs (fieldD w) (fieldA w) (Fin.ofNat 8 (w / 2^8)) (ElemType.ofCode (w / 2^5))) else .error .field
  | 15 => if w / 2^11 % 2^5 = 0 then .ok (.vfneg (fieldD w) (fieldA w) (Fin.ofNat 8 (w / 2^8)) (ElemType.ofCode (w / 2^5))) else .error .field
  | 16 => if w / 2^24 % 2^2 = 0 then .ok (.vfcmpeq (Fin.ofNat 8 (w / 2^21)) (fieldA w) (fieldB w) (Fin.ofNat 8 (w / 2^8)) (ElemType.ofCode (w / 2^5))) else .error .field
  | 17 => if w / 2^24 % 2^2 = 0 then .ok (.vfcmplt (Fin.ofNat 8 (w / 2^21)) (fieldA w) (fieldB w) (Fin.ofNat 8 (w / 2^8)) (ElemType.ofCode (w / 2^5))) else .error .field
  | 18 => if w / 2^24 % 2^2 = 0 then .ok (.vfcmple (Fin.ofNat 8 (w / 2^21)) (fieldA w) (fieldB w) (Fin.ofNat 8 (w / 2^8)) (ElemType.ofCode (w / 2^5))) else .error .field
  | 19 => if w / 2^24 % 2^2 = 0 then .ok (.vfcmpun (Fin.ofNat 8 (w / 2^21)) (fieldA w) (fieldB w) (Fin.ofNat 8 (w / 2^8)) (ElemType.ofCode (w / 2^5))) else .error .field
  | 20 => .ok (.vresc (fieldD w) (fieldA w) (fieldB w) (Fin.ofNat 8 (w / 2^8)) (ElemType.ofCode (w / 2^5)))
  | _ => .error .function

/-- Opcode 0x23 of R140. -/
def decodeVecConv (w : Nat) : Except Undecoded Instr :=
  match w % 32 with
  | 0 => if w / 2^5 % 2^11 = 0 then .ok (.vcvtF32I32 (fieldD w) (fieldA w)) else .error .field
  | 1 => if w / 2^5 % 2^11 = 0 then .ok (.vcvtI32F32 (fieldD w) (fieldA w)) else .error .field
  | 2 => if w / 2^5 % 2^6 = 0 then .ok (.vcvtBf16F32 (fieldD w) (fieldA w) (fieldB w)) else .error .field
  | 3 => if w / 2^5 % 2^6 = 0 ∧ w / 2^12 % 2^4 = 0 then .ok (.vcvtF32Bf16 (fieldD w) (fieldA w) (Fin.ofNat 2 (w / 2^11))) else .error .field
  | 4 => if w / 2^5 % 2^6 = 0 then .ok (.vpackLb4 (fieldD w) (fieldA w) (fieldB w)) else .error .field
  | 5 => if w / 2^5 % 2^6 = 0 ∧ w / 2^13 % 2^3 = 0 then .ok (.vunpkLb4 (fieldD w) (fieldA w) (Fin.ofNat 4 (w / 2^11))) else .error .field
  | 6 => if w / 2^5 % 2^6 = 0 then .ok (.vpackE4m3 (fieldD w) (fieldA w) (fieldB w)) else .error .field
  | 7 => if w / 2^5 % 2^6 = 0 then .ok (.vpackE5m2 (fieldD w) (fieldA w) (fieldB w)) else .error .field
  | 8 => if w / 2^5 % 2^6 = 0 ∧ w / 2^13 % 2^3 = 0 then .ok (.vunpkE4m3 (fieldD w) (fieldA w) (Fin.ofNat 4 (w / 2^11))) else .error .field
  | 9 => if w / 2^5 % 2^6 = 0 ∧ w / 2^13 % 2^3 = 0 then .ok (.vunpkE5m2 (fieldD w) (fieldA w) (Fin.ofNat 4 (w / 2^11))) else .error .field
  | _ => .error .function

/-- Opcode 0x24 of R140. -/
def decodeVecPerm (w : Nat) : Except Undecoded Instr :=
  match w % 32 with
  | 0 => if w / 2^11 % 2^5 = 0 then .ok (.vbcast (fieldD w) (fieldA w) (Fin.ofNat 8 (w / 2^8)) (ElemType.ofCode (w / 2^5))) else .error .field
  | 1 => if w / 2^8 % 2^3 = 0 then .ok (.vext (fieldD w) (fieldA w) (fieldB w) (ElemType.ofCode (w / 2^5))) else .error .field
  | 2 => if w / 2^8 % 2^3 = 0 then .ok (.vins (fieldD w) (fieldA w) (fieldB w) (ElemType.ofCode (w / 2^5))) else .error .field
  | 3 => .ok (.vperm (fieldD w) (fieldA w) (fieldB w) (Fin.ofNat 8 (w / 2^8)) (ElemType.ofCode (w / 2^5)))
  | 4 => .ok (.vslup (fieldD w) (fieldA w) (fieldB w) (Fin.ofNat 8 (w / 2^8)) (ElemType.ofCode (w / 2^5)))
  | 5 => .ok (.vsldn (fieldD w) (fieldA w) (fieldB w) (Fin.ofNat 8 (w / 2^8)) (ElemType.ofCode (w / 2^5)))
  | 6 => .ok (.vzip (fieldD w) (fieldA w) (fieldB w) (Fin.ofNat 8 (w / 2^8)) (ElemType.ofCode (w / 2^5)))
  | 7 => if w / 2^11 % 2^5 = 0 then .ok (.vunzip (fieldD w) (fieldA w) (Fin.ofNat 8 (w / 2^8)) (ElemType.ofCode (w / 2^5))) else .error .field
  | 8 => if w / 2^11 % 2^5 = 0 then .ok (.vrev (fieldD w) (fieldA w) (Fin.ofNat 8 (w / 2^8)) (ElemType.ofCode (w / 2^5))) else .error .field
  | 9 => .ok (.vsel (fieldD w) (fieldA w) (fieldB w) (Fin.ofNat 8 (w / 2^8)) (ElemType.ofCode (w / 2^5)))
  | 10 => if w / 2^11 % 2^5 = 0 then .ok (.vmov (fieldD w) (fieldA w) (Fin.ofNat 8 (w / 2^8)) (ElemType.ofCode (w / 2^5))) else .error .field
  | _ => .error .function

/-- Opcode 0x25 of R140. -/
def decodePred (w : Nat) : Except Undecoded Instr :=
  match w % 32 with
  | 0 => if w / 2^5 % 2^6 = 0 ∧ w / 2^14 % 2^2 = 0 ∧ w / 2^19 % 2^2 = 0 ∧ w / 2^24 % 2^2 = 0 then .ok (.pand (Fin.ofNat 8 (w / 2^21)) (Fin.ofNat 8 (w / 2^16)) (Fin.ofNat 8 (w / 2^11))) else .error .field
  | 1 => if w / 2^5 % 2^6 = 0 ∧ w / 2^14 % 2^2 = 0 ∧ w / 2^19 % 2^2 = 0 ∧ w / 2^24 % 2^2 = 0 then .ok (.por (Fin.ofNat 8 (w / 2^21)) (Fin.ofNat 8 (w / 2^16)) (Fin.ofNat 8 (w / 2^11))) else .error .field
  | 2 => if w / 2^5 % 2^6 = 0 ∧ w / 2^14 % 2^2 = 0 ∧ w / 2^19 % 2^2 = 0 ∧ w / 2^24 % 2^2 = 0 then .ok (.pxor (Fin.ofNat 8 (w / 2^21)) (Fin.ofNat 8 (w / 2^16)) (Fin.ofNat 8 (w / 2^11))) else .error .field
  | 3 => if w / 2^5 % 2^6 = 0 ∧ w / 2^14 % 2^2 = 0 ∧ w / 2^19 % 2^2 = 0 ∧ w / 2^24 % 2^2 = 0 then .ok (.pandn (Fin.ofNat 8 (w / 2^21)) (Fin.ofNat 8 (w / 2^16)) (Fin.ofNat 8 (w / 2^11))) else .error .field
  | 4 => if w / 2^5 % 2^11 = 0 ∧ w / 2^19 % 2^2 = 0 ∧ w / 2^24 % 2^2 = 0 then .ok (.pnot (Fin.ofNat 8 (w / 2^21)) (Fin.ofNat 8 (w / 2^16))) else .error .field
  | 5 => if w / 2^8 % 2^8 = 0 ∧ w / 2^24 % 2^2 = 0 then .ok (.pset (Fin.ofNat 8 (w / 2^21)) (fieldA w) (ElemType.ofCode (w / 2^5))) else .error .field
  | 6 => if w / 2^8 % 2^8 = 0 ∧ w / 2^19 % 2^2 = 0 then .ok (.pcnt (fieldD w) (Fin.ofNat 8 (w / 2^16)) (ElemType.ofCode (w / 2^5))) else .error .field
  | 7 => if w / 2^8 % 2^8 = 0 ∧ w / 2^19 % 2^2 = 0 then .ok (.pfirst (fieldD w) (Fin.ofNat 8 (w / 2^16)) (ElemType.ofCode (w / 2^5))) else .error .field
  | 8 => if w / 2^8 % 2^3 = 0 ∧ w / 2^24 % 2^2 = 0 then .ok (.pldm (Fin.ofNat 8 (w / 2^21)) (fieldA w) (fieldB w) (ElemType.ofCode (w / 2^5))) else .error .field
  | 9 => if w / 2^8 % 2^8 = 0 ∧ w / 2^19 % 2^2 = 0 then .ok (.pmovx (fieldD w) (Fin.ofNat 8 (w / 2^16)) (ElemType.ofCode (w / 2^5))) else .error .field
  | 10 => if w / 2^8 % 2^8 = 0 ∧ w / 2^24 % 2^2 = 0 then .ok (.pmovp (Fin.ofNat 8 (w / 2^21)) (fieldA w) (ElemType.ofCode (w / 2^5))) else .error .field
  | _ => .error .function

/-- Opcode 0x26 of R140. -/
def decodeVecRed (w : Nat) : Except Undecoded Instr :=
  match w % 32 with
  | 0 => if w / 2^11 % 2^5 = 0 then .ok (.vredadd (fieldD w) (fieldA w) (Fin.ofNat 8 (w / 2^8)) (ElemType.ofCode (w / 2^5))) else .error .field
  | 1 => if w / 2^11 % 2^5 = 0 then .ok (.vredmax (fieldD w) (fieldA w) (Fin.ofNat 8 (w / 2^8)) (ElemType.ofCode (w / 2^5))) else .error .field
  | 2 => if w / 2^11 % 2^5 = 0 then .ok (.vredmin (fieldD w) (fieldA w) (Fin.ofNat 8 (w / 2^8)) (ElemType.ofCode (w / 2^5))) else .error .field
  | 3 => if w / 2^11 % 2^5 = 0 then .ok (.vfredadd (fieldD w) (fieldA w) (Fin.ofNat 8 (w / 2^8)) (ElemType.ofCode (w / 2^5))) else .error .field
  | 4 => if w / 2^11 % 2^5 = 0 then .ok (.vfredmax (fieldD w) (fieldA w) (Fin.ofNat 8 (w / 2^8)) (ElemType.ofCode (w / 2^5))) else .error .field
  | _ => .error .function

/-- Opcode 0x27 of R140. -/
def decodeVecMem (w : Nat) : Except Undecoded Instr :=
  match w % 32 with
  | 0 => .ok (.vld (fieldD w) (fieldA w) (fieldB w) (Fin.ofNat 8 (w / 2^8)) (ElemType.ofCode (w / 2^5)))
  | 1 => .ok (.vst (fieldD w) (fieldA w) (fieldB w) (Fin.ofNat 8 (w / 2^8)) (ElemType.ofCode (w / 2^5)))
  | 2 => .ok (.vldt (fieldD w) (fieldA w) (fieldB w) (Fin.ofNat 8 (w / 2^8)) (ElemType.ofCode (w / 2^5)))
  | 3 => .ok (.vstt (fieldD w) (fieldA w) (fieldB w) (Fin.ofNat 8 (w / 2^8)) (ElemType.ofCode (w / 2^5)))
  | 4 => .ok (.vgather (fieldD w) (fieldA w) (fieldB w) (Fin.ofNat 8 (w / 2^8)) (ElemType.ofCode (w / 2^5)))
  | 5 => .ok (.vscatter (fieldD w) (fieldA w) (fieldB w) (Fin.ofNat 8 (w / 2^8)) (ElemType.ofCode (w / 2^5)))
  | _ => .error .function

/-- Opcode 0x28 of R140. -/
def decodeStream (w : Nat) : Except Undecoded Instr :=
  match w % 128 with
  | 0 => if w / 2^23 % 2^3 = 0 then .ok (.sbind (Fin.ofNat 4 (w / 2^21)) (fieldA w) (fieldB w) (Fin.ofNat 16 (w / 2^7))) else .error .field
  | 1 => if w / 2^11 % 2^10 = 0 ∧ w / 2^23 % 2^3 = 0 then .ok (.sunbind (Fin.ofNat 4 (w / 2^21)) (Fin.ofNat 16 (w / 2^7))) else .error .field
  | 2 => if w / 2^11 % 2^5 = 0 ∧ w / 2^18 % 2^3 = 0 then .ok (.sstat (fieldD w) (Fin.ofNat 4 (w / 2^16)) (Fin.ofNat 16 (w / 2^7))) else .error .field
  | _ => .error .function

/-- Opcode 0x29 of R140. -/
def decodeTile (w : Nat) : Except Undecoded Instr :=
  match w % 128 with
  | 0 => .ok (.tal (fieldD w) (fieldA w) (fieldB w) (Fin.ofNat 16 (w / 2^7)))
  | 1 => if w / 2^11 % 2^5 = 0 then .ok (.tfree (fieldD w) (fieldA w) (Fin.ofNat 16 (w / 2^7))) else .error .field
  | 2 => if w / 2^11 % 2^5 = 0 then .ok (.tseal (fieldD w) (fieldA w) (Fin.ofNat 16 (w / 2^7))) else .error .field
  | 3 => if w / 2^11 % 2^5 = 0 then .ok (.trel (fieldD w) (fieldA w) (Fin.ofNat 16 (w / 2^7))) else .error .field
  | 4 => if w / 2^11 % 2^5 = 0 then .ok (.tstat (fieldD w) (fieldA w) (Fin.ofNat 16 (w / 2^7))) else .error .field
  | _ => .error .function

/-- Opcode 0x2A of R140. -/
def decodeCopyist (w : Nat) : Except Undecoded Instr :=
  match w % 128 with
  | 0 => .ok (.cpin (fieldD w) (fieldA w) (fieldB w) (Fin.ofNat 16 (w / 2^7)))
  | 1 => .ok (.cpout (fieldD w) (fieldA w) (fieldB w) (Fin.ofNat 16 (w / 2^7)))
  | 2 => .ok (.cpg (fieldD w) (fieldA w) (fieldB w) (Fin.ofNat 16 (w / 2^7)))
  | 3 => .ok (.cpx (fieldD w) (fieldA w) (fieldB w) (Fin.ofNat 16 (w / 2^7)))
  | 4 => if w / 2^11 % 2^5 = 0 then .ok (.cpstat (fieldD w) (fieldA w) (Fin.ofNat 16 (w / 2^7))) else .error .field
  | _ => .error .function

/-- Opcode 0x2B of R140. -/
def decodeGraph (w : Nat) : Except Undecoded Instr :=
  match w % 128 with
  | 0 => if w / 2^11 % 2^5 = 0 then .ok (.tgpost (fieldD w) (fieldA w) (Fin.ofNat 16 (w / 2^7))) else .error .field
  | 1 => if w / 2^11 % 2^5 = 0 then .ok (.tgwait (fieldD w) (fieldA w) (Fin.ofNat 16 (w / 2^7))) else .error .field
  | 2 => if w / 2^11 % 2^5 = 0 then .ok (.tgstat (fieldD w) (fieldA w) (Fin.ofNat 16 (w / 2^7))) else .error .field
  | _ => .error .function

/-- Opcode 0x2C of R140. -/
def decodeMatrix (w : Nat) : Except Undecoded Instr :=
  match w % 128 with
  | 0 => if w / 2^11 % 2^5 = 0 ∧ w / 2^25 % 2^1 = 0 then .ok (.mxg (Fin.ofNat 16 (w / 2^21)) (fieldA w) (Fin.ofNat 16 (w / 2^7))) else .error .field
  | 1 => if w / 2^11 % 2^5 = 0 ∧ w / 2^20 % 2^1 = 0 then .ok (.mxr (fieldD w) (Fin.ofNat 16 (w / 2^16)) (Fin.ofNat 16 (w / 2^7))) else .error .field
  | 2 => if w / 2^21 % 2^5 = 0 then .ok (.mwld (fieldA w) (fieldB w) (Fin.ofNat 16 (w / 2^7))) else .error .field
  | 3 => if w / 2^11 % 2^15 = 0 then .ok (.mwswap (Fin.ofNat 16 (w / 2^7))) else .error .field
  | 4 => if w / 2^24 % 2^2 = 0 then .ok (.mmul (bitOf w 23) (Fin.ofNat 4 (w / 2^21)) (fieldA w) (fieldB w) (Fin.ofNat 16 (w / 2^7))) else .error .field
  | 5 => if w / 2^11 % 2^10 = 0 ∧ w / 2^23 % 2^3 = 0 then .ok (.mzero (Fin.ofNat 4 (w / 2^21)) (Fin.ofNat 16 (w / 2^7))) else .error .field
  | 6 => if w / 2^13 % 2^3 = 0 ∧ w / 2^23 % 2^3 = 0 then (DrainFmt.ofCode? (w / 2^11 % 4)).elim (.error .field) fun f => .ok (.mzdrn (Fin.ofNat 4 (w / 2^21)) (fieldA w) f (Fin.ofNat 16 (w / 2^7))) else .error .field
  | 7 => if w / 2^11 % 2^10 = 0 then .ok (.mstat (fieldD w) (Fin.ofNat 16 (w / 2^7))) else .error .field
  | _ => .error .function

/-- Opcode 0x2D of R140. -/
def decodeMessage (w : Nat) : Except Undecoded Instr :=
  match w % 128 with
  | 0 => .ok (.msnd (fieldD w) (fieldA w) (fieldB w) (Fin.ofNat 16 (w / 2^7)))
  | 1 => .ok (.msnds (fieldD w) (fieldA w) (fieldB w) (Fin.ofNat 16 (w / 2^7)))
  | 2 => if w / 2^11 % 2^5 = 0 then .ok (.mrcv (fieldD w) (fieldA w) (Fin.ofNat 16 (w / 2^7))) else .error .field
  | 3 => if w / 2^11 % 2^5 = 0 then .ok (.mpeek (fieldD w) (fieldA w) (Fin.ofNat 16 (w / 2^7))) else .error .field
  | 4 => if w / 2^11 % 2^10 = 0 then .ok (.mcommit (fieldD w) (Fin.ofNat 16 (w / 2^7))) else .error .field
  | 5 => if w / 2^11 % 2^10 = 0 then .ok (.mabort (fieldD w) (Fin.ofNat 16 (w / 2^7))) else .error .field
  | _ => .error .function

/-- Opcode 0x2E of R140. -/
def decodeBarrier (w : Nat) : Except Undecoded Instr :=
  match w % 128 with
  | 0 => if w / 2^7 % 2^4 = 0 ∧ w / 2^13 % 2^13 = 0 then .ok (.barArrive (Fin.ofNat 4 (w / 2^11))) else .error .field
  | 1 => if w / 2^7 % 2^4 = 0 ∧ w / 2^13 % 2^13 = 0 then .ok (.barWait (Fin.ofNat 4 (w / 2^11))) else .error .field
  | 2 => if w / 2^7 % 2^4 = 0 ∧ w / 2^13 % 2^3 = 0 then .ok (.barVote (fieldD w) (fieldA w) (Fin.ofNat 4 (w / 2^11))) else .error .field
  | _ => .error .function

/-- Opcode 0x2F of R140. -/
def decodeHelper (w : Nat) : Except Undecoded Instr :=
  match w % 128 with
  | 0 => if w / 2^7 % 2^4 = 0 then .ok (.hstart (fieldD w) (fieldA w) (fieldB w)) else .error .field
  | 1 => if w / 2^11 % 2^5 = 0 then .ok (.hjoin (fieldD w) (fieldA w) (Fin.ofNat 16 (w / 2^7))) else .error .field
  | 2 => if w / 2^7 % 2^19 = 0 then .ok .hexit else .error .field
  | 3 => if w / 2^7 % 2^14 = 0 then .ok (.hstat (fieldD w)) else .error .field
  | 4 => if w / 2^11 % 2^5 = 0 then .ok (.lnch (fieldD w) (fieldA w) (Fin.ofNat 16 (w / 2^7))) else .error .field
  | 5 => if w / 2^11 % 2^5 = 0 then .ok (.lwait (fieldD w) (fieldA w) (Fin.ofNat 16 (w / 2^7))) else .error .field
  | _ => .error .function

/-- Opcode 0x30 of R140. -/
def decodeFabric (w : Nat) : Except Undecoded Instr :=
  match w % 128 with
  | 0 => .ok (.stmc (fieldD w) (fieldA w) (fieldB w) (Fin.ofNat 16 (w / 2^7)))
  | 1 => if w / 2^11 % 2^5 = 0 then .ok (.coll (fieldD w) (fieldA w) (Fin.ofNat 16 (w / 2^7))) else .error .field
  | 2 => if w / 2^11 % 2^5 = 0 then .ok (.collwait (fieldD w) (fieldA w) (Fin.ofNat 16 (w / 2^7))) else .error .field
  | _ => .error .function

/-- Opcode 0x31 of R140. -/
def decodeOwn (w : Nat) : Except Undecoded Instr :=
  match w % 128 with
  | 0 => .ok (.give (fieldD w) (fieldA w) (fieldB w) (Fin.ofNat 16 (w / 2^7)))
  | 1 => .ok (.accept (fieldD w) (fieldA w) (fieldB w) (Fin.ofNat 16 (w / 2^7)))
  | 2 => .ok (.lend (fieldD w) (fieldA w) (fieldB w) (Fin.ofNat 16 (w / 2^7)))
  | 3 => .ok (.reclaim (fieldD w) (fieldA w) (fieldB w) (Fin.ofNat 16 (w / 2^7)))
  | 4 => if w / 2^11 % 2^5 = 0 then .ok (.ownq (fieldD w) (fieldA w) (Fin.ofNat 16 (w / 2^7))) else .error .field
  | 5 => if w / 2^11 % 2^10 = 0 then .ok (.omake (fieldD w) (Fin.ofNat 16 (w / 2^7))) else .error .field
  | 6 => .ok (.evict (fieldD w) (fieldA w) (fieldB w) (Fin.ofNat 16 (w / 2^7)))
  | _ => .error .function

/-- Opcode 0x32 of R140. -/
def decodeControl (w : Nat) : Except Undecoded Instr :=
  match w / 2^14 % 4 with
  | 0 => if w / 2^12 % 2^2 = 0 ∧ w / 2^16 % 2^5 = 0 then .ok (.crr (fieldD w) (BitVec.ofNat 12 w)) else .error .field
  | 1 => if w / 2^12 % 2^2 = 0 then .ok (.crw (fieldD w) (fieldA w) (BitVec.ofNat 12 w)) else .error .field
  | 2 => if w / 2^12 % 2^2 = 0 then .ok (.crs (fieldD w) (fieldA w) (BitVec.ofNat 12 w)) else .error .field
  | 3 => if w / 2^12 % 2^2 = 0 then .ok (.crc (fieldD w) (fieldA w) (BitVec.ofNat 12 w)) else .error .field
  | _ => .error .function

/-- Opcode 0x33 of R140. -/
def decodeSystem (w : Nat) : Except Undecoded Instr :=
  match w % 2048 with
  | 0 => if w / 2^11 % 2^5 = 0 ∧ w / 2^21 % 2^5 = 0 then .ok (.trap (fieldA w)) else .error .field
  | 1 => if w / 2^11 % 2^15 = 0 then .ok .tret else .error .field
  | 2 => if w / 2^11 % 2^15 = 0 then .ok .brk else .error .field
  | 3 => if w / 2^11 % 2^15 = 0 then .ok .halt else .error .field
  | 4 => if w / 2^11 % 2^5 = 0 ∧ w / 2^21 % 2^5 = 0 then .ok (.wfe (fieldA w)) else .error .field
  | 5 => if w / 2^11 % 2^15 = 0 then .ok .nop else .error .field
  | _ => .error .function

/-- The three steps of R131: the layout by OP, the instruction by its function code, then the fields' limits. -/
def decodeRaw (w : Nat) : Except Undecoded Instr :=
  match w / 2^26 % 64 with
  | 1 => decodeInteger w
  | 2 => decodeIntegerWord w
  | 3 => .ok (.addi (fieldD w) (fieldA w) (BitVec.ofNat 16 w))
  | 4 => .ok (.andi (fieldD w) (fieldA w) (BitVec.ofNat 16 w))
  | 5 => .ok (.ori (fieldD w) (fieldA w) (BitVec.ofNat 16 w))
  | 6 => .ok (.xori (fieldD w) (fieldA w) (BitVec.ofNat 16 w))
  | 7 => .ok (.slti (fieldD w) (fieldA w) (BitVec.ofNat 16 w))
  | 8 => .ok (.sltiu (fieldD w) (fieldA w) (BitVec.ofNat 16 w))
  | 9 => decodeShiftImm w
  | 10 => if w / 2^16 % 2^5 = 0 then .ok (.lhi (fieldD w) (BitVec.ofNat 16 w)) else .error .field
  | 11 => if w / 2^16 % 2^5 = 0 then .ok (.lsh (fieldD w) (BitVec.ofNat 16 w)) else .error .field
  | 12 => if w / 2^16 % 2^5 = 0 then .ok (.adr (fieldD w) (BitVec.ofNat 16 w)) else .error .field
  | 13 => decodeBranch w
  | 14 => .ok (.jal (BitVec.ofNat 26 w))
  | 15 => .ok (.j (BitVec.ofNat 26 w))
  | 16 => .ok (.jalr (fieldD w) (fieldA w) (BitVec.ofNat 16 w))
  | 17 => .ok (.bes (Fin.ofNat 64 (w / 2^20)) (bitOf w 19) (BitVec.ofNat 19 w))
  | 18 => .ok (.ldB (fieldD w) (fieldA w) (BitVec.ofNat 16 w))
  | 19 => .ok (.ldH (fieldD w) (fieldA w) (BitVec.ofNat 16 w))
  | 20 => .ok (.ldW (fieldD w) (fieldA w) (BitVec.ofNat 16 w))
  | 21 => .ok (.ldD (fieldD w) (fieldA w) (BitVec.ofNat 16 w))
  | 22 => .ok (.ldBu (fieldD w) (fieldA w) (BitVec.ofNat 16 w))
  | 23 => .ok (.ldHu (fieldD w) (fieldA w) (BitVec.ofNat 16 w))
  | 24 => .ok (.ldWu (fieldD w) (fieldA w) (BitVec.ofNat 16 w))
  | 25 => .ok (.stB (fieldD w) (fieldA w) (BitVec.ofNat 16 w))
  | 26 => .ok (.stH (fieldD w) (fieldA w) (BitVec.ofNat 16 w))
  | 27 => .ok (.stW (fieldD w) (fieldA w) (BitVec.ofNat 16 w))
  | 28 => .ok (.stD (fieldD w) (fieldA w) (BitVec.ofNat 16 w))
  | 29 => if w % 2^1 = 0 then (Scope.ofCode? (w / 2^9 % 8)).elim (.error .scope) fun sc => (FeMode.ofCode? (w / 2^2 % 8)).elim (.error .mode) fun fe => .ok (.ldo (fieldD w) (fieldA w) (Fin.ofNat 16 (w / 2^12)) sc (MemOrd.ofCode (w / 2^7)) (Size.ofCode (w / 2^5)) fe (bitOf w 1)) else .error .field
  | 30 => if w % 2^2 = 0 then (Scope.ofCode? (w / 2^9 % 8)).elim (.error .scope) fun sc => (FeMode.ofCode? (w / 2^2 % 8)).elim (.error .mode) fun fe => .ok (.sto (fieldD w) (fieldA w) (Fin.ofNat 16 (w / 2^12)) sc (MemOrd.ofCode (w / 2^7)) (Size.ofCode (w / 2^5)) fe) else .error .field
  | 31 => decodeAmo w
  | 32 => decodeFence w
  | 33 => decodeVecInt w
  | 34 => decodeVecFp w
  | 35 => decodeVecConv w
  | 36 => decodeVecPerm w
  | 37 => decodePred w
  | 38 => decodeVecRed w
  | 39 => decodeVecMem w
  | 40 => decodeStream w
  | 41 => decodeTile w
  | 42 => decodeCopyist w
  | 43 => decodeGraph w
  | 44 => decodeMatrix w
  | 45 => decodeMessage w
  | 46 => decodeBarrier w
  | 47 => decodeHelper w
  | 48 => decodeFabric w
  | 49 => decodeOwn w
  | 50 => decodeControl w
  | 51 => decodeSystem w
  | 63 => if w % 2^26 = 0 then .ok .solo else .error .opcode
  | _ => .error .opcode

/-- The instruction of a word, or why it has none (R131). -/
def decode (w : Nat) : Except Undecoded Instr :=
  match decodeRaw w with
  | .ok i => if i.wf then .ok i else .error .limits
  | .error e => .error e

/-- The instruction of a table row's bits; a Q9 instruction is one 32-bit word, so bits past 31 make none. [DEDUCED log 6] -/
def decodeTableWord (nbits w : Nat) : Option Instr :=
  if nbits ≤ 32 ∧ w < 2^32 then
    match decode w with
    | .ok i => some i
    | .error _ => none
  else none

/-! The packers: each adds to a word's constant bits the fields that start at the bits its name lists (R132 to R138). -/

def pack21_16_11 (base v21 v16 v11 : Nat) : Nat := base + v21 * 2^21 + v16 * 2^16 + v11 * 2^11
def pack21_16_11_7 (base v21 v16 v11 v7 : Nat) : Nat := base + v21 * 2^21 + v16 * 2^16 + v11 * 2^11 + v7 * 2^7
def pack21_16 (base v21 v16 : Nat) : Nat := base + v21 * 2^21 + v16 * 2^16
def pack21_16_0 (base v21 v16 v0 : Nat) : Nat := base + v21 * 2^21 + v16 * 2^16 + v0
def pack21_0 (base v21 v0 : Nat) : Nat := base + v21 * 2^21 + v0
def pack0 (base v0 : Nat) : Nat := base + v0
def pack20_19_0 (base v20 v19 v0 : Nat) : Nat := base + v20 * 2^20 + v19 * 2^19 + v0
def pack21_16_12_9_7_5_2_1 (base v21 v16 v12 v9 v7 v5 v2 v1 : Nat) : Nat := base + v21 * 2^21 + v16 * 2^16 + v12 * 2^12 + v9 * 2^9 + v7 * 2^7 + v5 * 2^5 + v2 * 2^2 + v1 * 2^1
def pack21_16_12_9_7_5_2 (base v21 v16 v12 v9 v7 v5 v2 : Nat) : Nat := base + v21 * 2^21 + v16 * 2^16 + v12 * 2^12 + v9 * 2^9 + v7 * 2^7 + v5 * 2^5 + v2 * 2^2
def pack21_16_11_8_6_5 (base v21 v16 v11 v8 v6 v5 : Nat) : Nat := base + v21 * 2^21 + v16 * 2^16 + v11 * 2^11 + v8 * 2^8 + v6 * 2^6 + v5 * 2^5
def pack21_16_11_8_6 (base v21 v16 v11 v8 v6 : Nat) : Nat := base + v21 * 2^21 + v16 * 2^16 + v11 * 2^11 + v8 * 2^8 + v6 * 2^6
def pack11 (base v11 : Nat) : Nat := base + v11 * 2^11
def pack20_14_11 (base v20 v14 v11 : Nat) : Nat := base + v20 * 2^20 + v14 * 2^14 + v11 * 2^11
def pack21_16_11_8_5 (base v21 v16 v11 v8 v5 : Nat) : Nat := base + v21 * 2^21 + v16 * 2^16 + v11 * 2^11 + v8 * 2^8 + v5 * 2^5
def pack21_16_8_5 (base v21 v16 v8 v5 : Nat) : Nat := base + v21 * 2^21 + v16 * 2^16 + v8 * 2^8 + v5 * 2^5
def pack21_16_11_5 (base v21 v16 v11 v5 : Nat) : Nat := base + v21 * 2^21 + v16 * 2^16 + v11 * 2^11 + v5 * 2^5
def pack21_16_5 (base v21 v16 v5 : Nat) : Nat := base + v21 * 2^21 + v16 * 2^16 + v5 * 2^5
def pack21_7 (base v21 v7 : Nat) : Nat := base + v21 * 2^21 + v7 * 2^7
def pack21_16_7 (base v21 v16 v7 : Nat) : Nat := base + v21 * 2^21 + v16 * 2^16 + v7 * 2^7
def pack16_11_7 (base v16 v11 v7 : Nat) : Nat := base + v16 * 2^16 + v11 * 2^11 + v7 * 2^7
def pack7 (base v7 : Nat) : Nat := base + v7 * 2^7
def pack23_21_16_11_7 (base v23 v21 v16 v11 v7 : Nat) : Nat := base + v23 * 2^23 + v21 * 2^21 + v16 * 2^16 + v11 * 2^11 + v7 * 2^7
def pack21 (base v21 : Nat) : Nat := base + v21 * 2^21
def pack16 (base v16 : Nat) : Nat := base + v16 * 2^16

/-- The word of an instruction (R132 to R138); a step without an encoding has none. -/
def encode : Instr → Option Nat
  | .add d a b => some (pack21_16_11 0x04000000 d.val a.val b.val)
  | .sub d a b => some (pack21_16_11 0x04000001 d.val a.val b.val)
  | .and d a b => some (pack21_16_11 0x04000002 d.val a.val b.val)
  | .or d a b => some (pack21_16_11 0x04000003 d.val a.val b.val)
  | .xor d a b => some (pack21_16_11 0x04000004 d.val a.val b.val)
  | .andn d a b => some (pack21_16_11 0x04000005 d.val a.val b.val)
  | .orn d a b => some (pack21_16_11 0x04000006 d.val a.val b.val)
  | .sll d a b => some (pack21_16_11 0x04000007 d.val a.val b.val)
  | .srl d a b => some (pack21_16_11 0x04000008 d.val a.val b.val)
  | .sra d a b => some (pack21_16_11 0x04000009 d.val a.val b.val)
  | .rol d a b => some (pack21_16_11 0x0400000A d.val a.val b.val)
  | .ror d a b => some (pack21_16_11 0x0400000B d.val a.val b.val)
  | .slt d a b => some (pack21_16_11 0x0400000C d.val a.val b.val)
  | .sltu d a b => some (pack21_16_11 0x0400000D d.val a.val b.val)
  | .min d a b => some (pack21_16_11 0x0400000E d.val a.val b.val)
  | .max d a b => some (pack21_16_11 0x0400000F d.val a.val b.val)
  | .minu d a b => some (pack21_16_11 0x04000010 d.val a.val b.val)
  | .maxu d a b => some (pack21_16_11 0x04000011 d.val a.val b.val)
  | .mul d a b => some (pack21_16_11 0x04000012 d.val a.val b.val)
  | .mulh d a b => some (pack21_16_11 0x04000013 d.val a.val b.val)
  | .mulhu d a b => some (pack21_16_11 0x04000014 d.val a.val b.val)
  | .mulhsu d a b => some (pack21_16_11 0x04000015 d.val a.val b.val)
  | .div d a b la => some (pack21_16_11_7 0x04000016 d.val a.val b.val la.val)
  | .divu d a b la => some (pack21_16_11_7 0x04000017 d.val a.val b.val la.val)
  | .rem d a b la => some (pack21_16_11_7 0x04000018 d.val a.val b.val la.val)
  | .remu d a b la => some (pack21_16_11_7 0x04000019 d.val a.val b.val la.val)
  | .clz d a => some (pack21_16 0x0400001A d.val a.val)
  | .ctz d a => some (pack21_16 0x0400001B d.val a.val)
  | .popc d a => some (pack21_16 0x0400001C d.val a.val)
  | .sextb d a => some (pack21_16 0x0400001D d.val a.val)
  | .sexth d a => some (pack21_16 0x0400001E d.val a.val)
  | .sextw d a => some (pack21_16 0x0400001F d.val a.val)
  | .zextw d a => some (pack21_16 0x04000020 d.val a.val)
  | .bswap d a => some (pack21_16 0x04000021 d.val a.val)
  | .csel d a b => some (pack21_16_11 0x04000022 d.val a.val b.val)
  | .addw d a b => some (pack21_16_11 0x08000000 d.val a.val b.val)
  | .subw d a b => some (pack21_16_11 0x08000001 d.val a.val b.val)
  | .sllw d a b => some (pack21_16_11 0x08000002 d.val a.val b.val)
  | .srlw d a b => some (pack21_16_11 0x08000003 d.val a.val b.val)
  | .sraw d a b => some (pack21_16_11 0x08000004 d.val a.val b.val)
  | .mulw d a b => some (pack21_16_11 0x08000005 d.val a.val b.val)
  | .divw d a b la => some (pack21_16_11_7 0x08000006 d.val a.val b.val la.val)
  | .divuw d a b la => some (pack21_16_11_7 0x08000007 d.val a.val b.val la.val)
  | .remw d a b la => some (pack21_16_11_7 0x08000008 d.val a.val b.val la.val)
  | .remuw d a b la => some (pack21_16_11_7 0x08000009 d.val a.val b.val la.val)
  | .addi d a imm => some (pack21_16_0 0x0C000000 d.val a.val imm.toNat)
  | .andi d a imm => some (pack21_16_0 0x10000000 d.val a.val imm.toNat)
  | .ori d a imm => some (pack21_16_0 0x14000000 d.val a.val imm.toNat)
  | .xori d a imm => some (pack21_16_0 0x18000000 d.val a.val imm.toNat)
  | .slti d a imm => some (pack21_16_0 0x1C000000 d.val a.val imm.toNat)
  | .sltiu d a imm => some (pack21_16_0 0x20000000 d.val a.val imm.toNat)
  | .slli d a sh => some (pack21_16_0 0x24000000 d.val a.val sh.val)
  | .srli d a sh => some (pack21_16_0 0x24000040 d.val a.val sh.val)
  | .srai d a sh => some (pack21_16_0 0x24000080 d.val a.val sh.val)
  | .rori d a sh => some (pack21_16_0 0x240000C0 d.val a.val sh.val)
  | .lhi d imm => some (pack21_0 0x28000000 d.val imm.toNat)
  | .lsh d imm => some (pack21_0 0x2C000000 d.val imm.toNat)
  | .adr d imm => some (pack21_0 0x30000000 d.val imm.toNat)
  | .beq a b off => some (pack21_16_0 0x34000000 a.val b.val off.toNat)
  | .bne a b off => some (pack21_16_0 0x34002000 a.val b.val off.toNat)
  | .blt a b off => some (pack21_16_0 0x34004000 a.val b.val off.toNat)
  | .bge a b off => some (pack21_16_0 0x34006000 a.val b.val off.toNat)
  | .bltu a b off => some (pack21_16_0 0x34008000 a.val b.val off.toNat)
  | .bgeu a b off => some (pack21_16_0 0x3400A000 a.val b.val off.toNat)
  | .jal off => some (pack0 0x38000000 off.toNat)
  | .j off => some (pack0 0x3C000000 off.toNat)
  | .jalr d a imm => some (pack21_16_0 0x40000000 d.val a.val imm.toNat)
  | .bes bit sense off => some (pack20_19_0 0x44000000 bit.val sense.toNat off.toNat)
  | .ldB d a imm => some (pack21_16_0 0x48000000 d.val a.val imm.toNat)
  | .ldH d a imm => some (pack21_16_0 0x4C000000 d.val a.val imm.toNat)
  | .ldW d a imm => some (pack21_16_0 0x50000000 d.val a.val imm.toNat)
  | .ldD d a imm => some (pack21_16_0 0x54000000 d.val a.val imm.toNat)
  | .ldBu d a imm => some (pack21_16_0 0x58000000 d.val a.val imm.toNat)
  | .ldHu d a imm => some (pack21_16_0 0x5C000000 d.val a.val imm.toNat)
  | .ldWu d a imm => some (pack21_16_0 0x60000000 d.val a.val imm.toNat)
  | .stB d a imm => some (pack21_16_0 0x64000000 d.val a.val imm.toNat)
  | .stH d a imm => some (pack21_16_0 0x68000000 d.val a.val imm.toNat)
  | .stW d a imm => some (pack21_16_0 0x6C000000 d.val a.val imm.toNat)
  | .stD d a imm => some (pack21_16_0 0x70000000 d.val a.val imm.toNat)
  | .ldo d a la sc ord sz fe inv => some (pack21_16_12_9_7_5_2_1 0x74000000 d.val a.val la.val sc.code ord.code sz.code fe.code inv.toNat)
  | .sto d a la sc ord sz fe => some (pack21_16_12_9_7_5_2 0x78000000 d.val a.val la.val sc.code ord.code sz.code fe.code)
  | .amoSwap d a b sc ord dbl => some (pack21_16_11_8_6_5 0x7C000000 d.val a.val b.val sc.code ord.code dbl.toNat)
  | .amoAdd d a b sc ord dbl => some (pack21_16_11_8_6_5 0x7C000001 d.val a.val b.val sc.code ord.code dbl.toNat)
  | .amoAnd d a b sc ord dbl => some (pack21_16_11_8_6_5 0x7C000002 d.val a.val b.val sc.code ord.code dbl.toNat)
  | .amoOr d a b sc ord dbl => some (pack21_16_11_8_6_5 0x7C000003 d.val a.val b.val sc.code ord.code dbl.toNat)
  | .amoXor d a b sc ord dbl => some (pack21_16_11_8_6_5 0x7C000004 d.val a.val b.val sc.code ord.code dbl.toNat)
  | .amoMin d a b sc ord dbl => some (pack21_16_11_8_6_5 0x7C000005 d.val a.val b.val sc.code ord.code dbl.toNat)
  | .amoMax d a b sc ord dbl => some (pack21_16_11_8_6_5 0x7C000006 d.val a.val b.val sc.code ord.code dbl.toNat)
  | .amoMinu d a b sc ord dbl => some (pack21_16_11_8_6_5 0x7C000007 d.val a.val b.val sc.code ord.code dbl.toNat)
  | .amoMaxu d a b sc ord dbl => some (pack21_16_11_8_6_5 0x7C000008 d.val a.val b.val sc.code ord.code dbl.toNat)
  | .amoCas d a b sc ord dbl => some (pack21_16_11_8_6_5 0x7C000009 d.val a.val b.val sc.code ord.code dbl.toNat)
  | .amoFadd d a b sc ord => some (pack21_16_11_8_6 0x7C00000A d.val a.val b.val sc.code ord.code)
  | .fence sc => some (pack11 0x80000000 sc.code)
  | .xfence pred succ sc => some (pack20_14_11 0x80000001 pred.toNat succ.toNat sc.code)
  | .ifence => some 0x80000002
  | .vadd d a b pg t => some (pack21_16_11_8_5 0x84000000 d.val a.val b.val pg.val t.code)
  | .vsub d a b pg t => some (pack21_16_11_8_5 0x84000001 d.val a.val b.val pg.val t.code)
  | .vmul d a b pg t => some (pack21_16_11_8_5 0x84000002 d.val a.val b.val pg.val t.code)
  | .vmulh d a b pg t => some (pack21_16_11_8_5 0x84000003 d.val a.val b.val pg.val t.code)
  | .vmulhu d a b pg t => some (pack21_16_11_8_5 0x84000004 d.val a.val b.val pg.val t.code)
  | .vmin d a b pg t => some (pack21_16_11_8_5 0x84000005 d.val a.val b.val pg.val t.code)
  | .vmax d a b pg t => some (pack21_16_11_8_5 0x84000006 d.val a.val b.val pg.val t.code)
  | .vminu d a b pg t => some (pack21_16_11_8_5 0x84000007 d.val a.val b.val pg.val t.code)
  | .vmaxu d a b pg t => some (pack21_16_11_8_5 0x84000008 d.val a.val b.val pg.val t.code)
  | .vand d a b pg t => some (pack21_16_11_8_5 0x84000009 d.val a.val b.val pg.val t.code)
  | .vor d a b pg t => some (pack21_16_11_8_5 0x8400000A d.val a.val b.val pg.val t.code)
  | .vxor d a b pg t => some (pack21_16_11_8_5 0x8400000B d.val a.val b.val pg.val t.code)
  | .vsll d a b pg t => some (pack21_16_11_8_5 0x8400000C d.val a.val b.val pg.val t.code)
  | .vsrl d a b pg t => some (pack21_16_11_8_5 0x8400000D d.val a.val b.val pg.val t.code)
  | .vsra d a b pg t => some (pack21_16_11_8_5 0x8400000E d.val a.val b.val pg.val t.code)
  | .vabs d a pg t => some (pack21_16_8_5 0x8400000F d.val a.val pg.val t.code)
  | .vcmpeq d a b pg t => some (pack21_16_11_8_5 0x84000010 d.val a.val b.val pg.val t.code)
  | .vcmplt d a b pg t => some (pack21_16_11_8_5 0x84000011 d.val a.val b.val pg.val t.code)
  | .vcmpltu d a b pg t => some (pack21_16_11_8_5 0x84000012 d.val a.val b.val pg.val t.code)
  | .vfadd d a b pg t => some (pack21_16_11_8_5 0x88000000 d.val a.val b.val pg.val t.code)
  | .vfsub d a b pg t => some (pack21_16_11_8_5 0x88000001 d.val a.val b.val pg.val t.code)
  | .vfmul d a b pg t => some (pack21_16_11_8_5 0x88000002 d.val a.val b.val pg.val t.code)
  | .vfma d a b pg t => some (pack21_16_11_8_5 0x88000003 d.val a.val b.val pg.val t.code)
  | .vfms d a b pg t => some (pack21_16_11_8_5 0x88000004 d.val a.val b.val pg.val t.code)
  | .vfnma d a b pg t => some (pack21_16_11_8_5 0x88000005 d.val a.val b.val pg.val t.code)
  | .vfmin d a b pg t => some (pack21_16_11_8_5 0x88000006 d.val a.val b.val pg.val t.code)
  | .vfmax d a b pg t => some (pack21_16_11_8_5 0x88000007 d.val a.val b.val pg.val t.code)
  | .vfdiv d a b pg t => some (pack21_16_11_8_5 0x88000008 d.val a.val b.val pg.val t.code)
  | .vfsqrt d a pg t => some (pack21_16_8_5 0x88000009 d.val a.val pg.val t.code)
  | .vfrcp d a pg t => some (pack21_16_8_5 0x8800000A d.val a.val pg.val t.code)
  | .vfrsq d a pg t => some (pack21_16_8_5 0x8800000B d.val a.val pg.val t.code)
  | .vfexp2 d a pg t => some (pack21_16_8_5 0x8800000C d.val a.val pg.val t.code)
  | .vflog2 d a pg t => some (pack21_16_8_5 0x8800000D d.val a.val pg.val t.code)
  | .vfabs d a pg t => some (pack21_16_8_5 0x8800000E d.val a.val pg.val t.code)
  | .vfneg d a pg t => some (pack21_16_8_5 0x8800000F d.val a.val pg.val t.code)
  | .vfcmpeq d a b pg t => some (pack21_16_11_8_5 0x88000010 d.val a.val b.val pg.val t.code)
  | .vfcmplt d a b pg t => some (pack21_16_11_8_5 0x88000011 d.val a.val b.val pg.val t.code)
  | .vfcmple d a b pg t => some (pack21_16_11_8_5 0x88000012 d.val a.val b.val pg.val t.code)
  | .vfcmpun d a b pg t => some (pack21_16_11_8_5 0x88000013 d.val a.val b.val pg.val t.code)
  | .vresc d a b pg t => some (pack21_16_11_8_5 0x88000014 d.val a.val b.val pg.val t.code)
  | .vcvtF32I32 d a => some (pack21_16 0x8C000000 d.val a.val)
  | .vcvtI32F32 d a => some (pack21_16 0x8C000001 d.val a.val)
  | .vcvtBf16F32 d a b => some (pack21_16_11 0x8C000002 d.val a.val b.val)
  | .vcvtF32Bf16 d a h => some (pack21_16_11 0x8C000003 d.val a.val h.val)
  | .vpackLb4 d a b => some (pack21_16_11 0x8C000004 d.val a.val b.val)
  | .vunpkLb4 d a h => some (pack21_16_11 0x8C000005 d.val a.val h.val)
  | .vpackE4m3 d a b => some (pack21_16_11 0x8C000006 d.val a.val b.val)
  | .vpackE5m2 d a b => some (pack21_16_11 0x8C000007 d.val a.val b.val)
  | .vunpkE4m3 d a h => some (pack21_16_11 0x8C000008 d.val a.val h.val)
  | .vunpkE5m2 d a h => some (pack21_16_11 0x8C000009 d.val a.val h.val)
  | .vbcast d a pg t => some (pack21_16_8_5 0x90000000 d.val a.val pg.val t.code)
  | .vext d a b t => some (pack21_16_11_5 0x90000001 d.val a.val b.val t.code)
  | .vins d a b t => some (pack21_16_11_5 0x90000002 d.val a.val b.val t.code)
  | .vperm d a b pg t => some (pack21_16_11_8_5 0x90000003 d.val a.val b.val pg.val t.code)
  | .vslup d a b pg t => some (pack21_16_11_8_5 0x90000004 d.val a.val b.val pg.val t.code)
  | .vsldn d a b pg t => some (pack21_16_11_8_5 0x90000005 d.val a.val b.val pg.val t.code)
  | .vzip d a b pg t => some (pack21_16_11_8_5 0x90000006 d.val a.val b.val pg.val t.code)
  | .vunzip d a pg t => some (pack21_16_8_5 0x90000007 d.val a.val pg.val t.code)
  | .vrev d a pg t => some (pack21_16_8_5 0x90000008 d.val a.val pg.val t.code)
  | .vsel d a b pg t => some (pack21_16_11_8_5 0x90000009 d.val a.val b.val pg.val t.code)
  | .vmov d a pg t => some (pack21_16_8_5 0x9000000A d.val a.val pg.val t.code)
  | .pand d a b => some (pack21_16_11 0x94000000 d.val a.val b.val)
  | .por d a b => some (pack21_16_11 0x94000001 d.val a.val b.val)
  | .pxor d a b => some (pack21_16_11 0x94000002 d.val a.val b.val)
  | .pandn d a b => some (pack21_16_11 0x94000003 d.val a.val b.val)
  | .pnot d a => some (pack21_16 0x94000004 d.val a.val)
  | .pset d a t => some (pack21_16_5 0x94000005 d.val a.val t.code)
  | .pcnt d a t => some (pack21_16_5 0x94000006 d.val a.val t.code)
  | .pfirst d a t => some (pack21_16_5 0x94000007 d.val a.val t.code)
  | .pldm d a b t => some (pack21_16_11_5 0x94000008 d.val a.val b.val t.code)
  | .pmovx d a t => some (pack21_16_5 0x94000009 d.val a.val t.code)
  | .pmovp d a t => some (pack21_16_5 0x9400000A d.val a.val t.code)
  | .vredadd d a pg t => some (pack21_16_8_5 0x98000000 d.val a.val pg.val t.code)
  | .vredmax d a pg t => some (pack21_16_8_5 0x98000001 d.val a.val pg.val t.code)
  | .vredmin d a pg t => some (pack21_16_8_5 0x98000002 d.val a.val pg.val t.code)
  | .vfredadd d a pg t => some (pack21_16_8_5 0x98000003 d.val a.val pg.val t.code)
  | .vfredmax d a pg t => some (pack21_16_8_5 0x98000004 d.val a.val pg.val t.code)
  | .vld d a b pg t => some (pack21_16_11_8_5 0x9C000000 d.val a.val b.val pg.val t.code)
  | .vst d a b pg t => some (pack21_16_11_8_5 0x9C000001 d.val a.val b.val pg.val t.code)
  | .vldt d a b pg t => some (pack21_16_11_8_5 0x9C000002 d.val a.val b.val pg.val t.code)
  | .vstt d a b pg t => some (pack21_16_11_8_5 0x9C000003 d.val a.val b.val pg.val t.code)
  | .vgather d a b pg t => some (pack21_16_11_8_5 0x9C000004 d.val a.val b.val pg.val t.code)
  | .vscatter d a b pg t => some (pack21_16_11_8_5 0x9C000005 d.val a.val b.val pg.val t.code)
  | .sbind k a b la => some (pack21_16_11_7 0xA0000000 k.val a.val b.val la.val)
  | .sunbind k la => some (pack21_7 0xA0000001 k.val la.val)
  | .sstat d k la => some (pack21_16_7 0xA0000002 d.val k.val la.val)
  | .tal d a b la => some (pack21_16_11_7 0xA4000000 d.val a.val b.val la.val)
  | .tfree d a la => some (pack21_16_7 0xA4000001 d.val a.val la.val)
  | .tseal d a la => some (pack21_16_7 0xA4000002 d.val a.val la.val)
  | .trel d a la => some (pack21_16_7 0xA4000003 d.val a.val la.val)
  | .tstat d a la => some (pack21_16_7 0xA4000004 d.val a.val la.val)
  | .cpin d a b la => some (pack21_16_11_7 0xA8000000 d.val a.val b.val la.val)
  | .cpout d a b la => some (pack21_16_11_7 0xA8000001 d.val a.val b.val la.val)
  | .cpg d a b la => some (pack21_16_11_7 0xA8000002 d.val a.val b.val la.val)
  | .cpx d a b la => some (pack21_16_11_7 0xA8000003 d.val a.val b.val la.val)
  | .cpstat d a la => some (pack21_16_7 0xA8000004 d.val a.val la.val)
  | .tgpost d a la => some (pack21_16_7 0xAC000000 d.val a.val la.val)
  | .tgwait d a la => some (pack21_16_7 0xAC000001 d.val a.val la.val)
  | .tgstat d a la => some (pack21_16_7 0xAC000002 d.val a.val la.val)
  | .mxg k a la => some (pack21_16_7 0xB0000000 k.val a.val la.val)
  | .mxr d k la => some (pack21_16_7 0xB0000001 d.val k.val la.val)
  | .mwld a b la => some (pack16_11_7 0xB0000002 a.val b.val la.val)
  | .mwswap la => some (pack7 0xB0000003 la.val)
  | .mmul nc z a b la => some (pack23_21_16_11_7 0xB0000004 nc.toNat z.val a.val b.val la.val)
  | .mzero z la => some (pack21_7 0xB0000005 z.val la.val)
  | .mzdrn z a f la => some (pack21_16_11_7 0xB0000006 z.val a.val f.code la.val)
  | .mstat d la => some (pack21_7 0xB0000007 d.val la.val)
  | .msnd d a b la => some (pack21_16_11_7 0xB4000000 d.val a.val b.val la.val)
  | .msnds d a b la => some (pack21_16_11_7 0xB4000001 d.val a.val b.val la.val)
  | .mrcv d a la => some (pack21_16_7 0xB4000002 d.val a.val la.val)
  | .mpeek d a la => some (pack21_16_7 0xB4000003 d.val a.val la.val)
  | .mcommit d la => some (pack21_7 0xB4000004 d.val la.val)
  | .mabort d la => some (pack21_7 0xB4000005 d.val la.val)
  | .barArrive g => some (pack11 0xB8000000 g.val)
  | .barWait g => some (pack11 0xB8000001 g.val)
  | .barVote d a g => some (pack21_16_11 0xB8000002 d.val a.val g.val)
  | .hstart d a b => some (pack21_16_11 0xBC000000 d.val a.val b.val)
  | .hjoin d a la => some (pack21_16_7 0xBC000001 d.val a.val la.val)
  | .hexit => some 0xBC000002
  | .hstat d => some (pack21 0xBC000003 d.val)
  | .lnch d a la => some (pack21_16_7 0xBC000004 d.val a.val la.val)
  | .lwait d a la => some (pack21_16_7 0xBC000005 d.val a.val la.val)
  | .stmc d a b la => some (pack21_16_11_7 0xC0000000 d.val a.val b.val la.val)
  | .coll d a la => some (pack21_16_7 0xC0000001 d.val a.val la.val)
  | .collwait d a la => some (pack21_16_7 0xC0000002 d.val a.val la.val)
  | .give d a b la => some (pack21_16_11_7 0xC4000000 d.val a.val b.val la.val)
  | .accept d a b la => some (pack21_16_11_7 0xC4000001 d.val a.val b.val la.val)
  | .lend d a b la => some (pack21_16_11_7 0xC4000002 d.val a.val b.val la.val)
  | .reclaim d a b la => some (pack21_16_11_7 0xC4000003 d.val a.val b.val la.val)
  | .ownq d a la => some (pack21_16_7 0xC4000004 d.val a.val la.val)
  | .omake d la => some (pack21_7 0xC4000005 d.val la.val)
  | .evict d a b la => some (pack21_16_11_7 0xC4000006 d.val a.val b.val la.val)
  | .crr d ix => some (pack21_0 0xC8000000 d.val ix.toNat)
  | .crw d a ix => some (pack21_16_0 0xC8004000 d.val a.val ix.toNat)
  | .crs d a ix => some (pack21_16_0 0xC8008000 d.val a.val ix.toNat)
  | .crc d a ix => some (pack21_16_0 0xC800C000 d.val a.val ix.toNat)
  | .trap a => some (pack16 0xCC000000 a.val)
  | .tret => some 0xCC000001
  | .brk => some 0xCC000002
  | .halt => some 0xCC000003
  | .wfe a => some (pack16 0xCC000004 a.val)
  | .nop => some 0xCC000005
  | .solo => some 0xFC000000
  | _ => none

end Sys2Proof
end

