-- ==== Sys2Proof/Config.lean ====
section
/-! DEFINITION. What the spec leaves open. Each constant has no body, so nothing can be proved of its value and a claim
holds for every value of it. Those applied to a `tick` give a fresh value each time: State.tick counts their uses. -/

namespace Sys2Proof

/-- Core cycles that pass in one step (R26); the spec gives no duration. [DESIGN CHOICE log 4] -/
opaque Config.elapsedCycles : Nat → Nat

/-- Whether a cache line present has been replaced by now (R118: "the line is replaced", at no stated time). [DESIGN CHOICE log 16] -/
opaque Config.lineReplaced : (tick line : Nat) → Bool

/-- Whether an agent still uses a superseded translation before its flush has completed (R105: "may keep using"). [DEDUCED log 22] -/
opaque Config.staleTranslation : (tick page : Nat) → Bool

/-- Whether an access in a lookahead window sees the newer of the two values (R51: "either its old or its new value"). [DEDUCED log 15] -/
opaque Config.windowNew : (tick : Nat) → Bool

/-- Which of the values a broken invariant location has held a later load returns (R111). [DEDUCED log 25] -/
opaque Config.invariantStale : (tick addr : Nat) → Byte

/-- Whether a later load of a broken invariant location returns such a value (R111: "may"). [DEDUCED log 25] -/
opaque Config.invariantUsed : (tick addr : Nat) → Bool

/-- What a byte reads as under a key other than the one it was written under (R289: "other values"); `block` lists the bytes of its 16 that
were written so. [DEDUCED log 26] -/
opaque Config.veiledByte : (key written addr : Nat) → (block : List (Nat × Byte)) → Byte

/-- Which value an overlapping copy gives a byte whose source it has already written (R96: either of two). [DEDUCED log 42] -/
opaque Config.overlapNew : (tick addr : Nat) → Bool

/-- Which of R348's three values an element of DST holds after a faulted collective: 0 its old one, 1 the result, 2 a reduction over the legs in
hand that `faultedSubset` names by their first members, else one over members whose data is elsewhere, `faultedElement`. [DESIGN CHOICE log 100] -/
opaque Config.faultedChoice : (tick index : Nat) → Nat
/-- [DESIGN CHOICE log 100] -/
opaque Config.faultedSubset : (tick first : Nat) → Bool
/-- [DESIGN CHOICE log 100] -/
opaque Config.faultedElement : (tick index : Nat) → Nat

/-- The members whose legs a collective lacks, where a member other than 0 records them and the step names none (R348). [DEDUCED log 101] -/
opaque Config.missingMembers : (tick coll : Nat) → Word

/-- Whether a router that may open a collective's payloads still holds its legs for a partner (R275: "any whole subtree"). [DEDUCED log 101] -/
opaque Config.legHeld : (tick coll : Nat) → Bool

/-- An SM2 signature of a message under the attestation key of a measurement (R291, R292, R294). [PRESUMED log 63] -/
opaque Config.sm2Sign : (measurement message : List Byte) → List Byte

/-- The digest each boot stage is measured to (R295). [DESIGN CHOICE log 64] -/
opaque Config.stageDigest : (stage : Nat) → List Byte

/-- The body of an SPDM response (R296: SPDM 1.2 is named, not given). [DESIGN CHOICE log 62] -/
opaque Config.spdmBody : (code arg : Nat) → List Byte

/-- ID[31:16], the silicon revision (R281). [DESIGN CHOICE log 107] -/
opaque Config.revision : BitVec 16

/-- The next hop, and whether firmware wrote a route, for a destination and entry (R261, R266: written at bring-up). [DESIGN CHOICE log 104] -/
opaque Config.routePort : (dest entry : Nat) → Nat
/-- [DESIGN CHOICE log 104] -/
opaque Config.routeVia : (dest entry : Nat) → Nat
/-- [DESIGN CHOICE log 104] -/
opaque Config.routeWritten : (dest : Nat) → Bool

/-- The input port of the module's own packets at its router (R253 grants ties by port index). [DESIGN CHOICE log 103] -/
opaque Config.localPort : Nat

/-- The table entries, by destination and number, that stand marked dead because they run through a link between other routers (R344).
[DESIGN CHOICE log 104] -/
opaque Config.brokenEntries : (tick : Nat) → List (Nat × Nat)

/-- Whether a router that holds an atomic forwards it before its 32 ns are over (R277: "at most"). [DEDUCED log 98] -/
opaque Config.atomicForwarded : (tick held : Nat) → Bool

/-- Which of the sizes of R262 the fabric is built at, by its row. [DESIGN CHOICE log 104] -/
opaque Config.fabricSize : Fin 7

/-- How many flits a port's peer has acknowledged, and how many of its input buffers the router has emptied, in one step (R268, R343).
[DESIGN CHOICE log 95] -/
opaque Config.flitsAcked : (tick port : Nat) → Nat
/-- [DESIGN CHOICE log 95] -/
opaque Config.buffersFreed : (tick port : Nat) → Nat

/-- The named link whose spare port 35 is, and the peer of each port's link (R344: cabled at installation). [DESIGN CHOICE log 104] -/
opaque Config.spareLink : Nat
/-- [DESIGN CHOICE log 104] -/
opaque Config.portPeer : (port : Nat) → Nat

/-- The die-temperature ceiling, in the unit of POWER_LIMIT_WRITE (R31: "a fixed die-temperature ceiling"). [DESIGN CHOICE log 14] -/
opaque Config.temperatureCeiling : Nat

/-- The agent kind that the access log gives a dispatcher's access (R293 names none). [DESIGN CHOICE log 65] -/
opaque Config.dispatcherAgent : Nat

/-- The layout of an access-log record (R293 names its seven fields, in 32 bytes) and of a seal (R294); where in the ring one lies and
whether the ring is full (R294 names neither a size nor a pointer). [DESIGN CHOICE log 62] -/
opaque Config.logRecord : (start slot granule agent owner op count : Nat) → List Byte
/-- [DESIGN CHOICE log 62] -/
opaque Config.logSeal : (chain signature : List Byte) → (dropped : Nat) → List Byte
/-- [DESIGN CHOICE log 62] -/
opaque Config.logOffset : (put : Nat) → Nat
/-- [DESIGN CHOICE log 62] -/
opaque Config.logFull : (tick put : Nat) → Bool

/-- The agent kind that the access log gives the root of trust (R293 names none). [DESIGN CHOICE log 65] -/
opaque Config.trustAgent : Nat

/-- Which of the eight measurement registers is the hypervisor stage's (R291, R295): 1 + this number mod 7. [DESIGN CHOICE log 64] -/
opaque Config.hypervisorStage : Nat

/-- The device identity key that the boot ROM derives from the PUF response (R295). [DESIGN CHOICE log 64] -/
opaque Config.identityKey : List Byte

/-- How an image holds a plane's E with its recorded bit, and the map of z0 to z3 (R339 lists them without a layout). [DESIGN CHOICE log 92] -/
opaque Config.imagePlane : (e : Nat) → (recorded : Bool) → Nat
/-- [DESIGN CHOICE log 92] -/
opaque Config.imageMap : List Nat → Nat

/-- Whether a rung of the levels 3 to 5 has come to its end by now: the spec bounds how long a reset takes, and says that it may not end (R313).
[DESIGN CHOICE log 111] -/
opaque Config.rungEnds : (tick rung : Nat) → Bool

/-- The firmware region and the firmware window of host DMA (R30: named by the signed configuration block). [DESIGN CHOICE log 107] -/
opaque Config.inFirmwareRegion : (addr : Nat) → Bool
/-- The addresses of the slot table and the error-record rings, and of the read-only view of the ownership map, at the management core's memory port
(R30). [DESIGN CHOICE log 117] -/
opaque Config.inFirmwareTables : (addr : Nat) → Bool
/-- [DESIGN CHOICE log 117] -/
opaque Config.inMapView : (addr : Nat) → Bool
/-- [DESIGN CHOICE log 107] -/
opaque Config.inFirmwareWindow : (addr : Nat) → Bool

end Sys2Proof
end

