-- ==== Sys2Proof/Machine/State.lean ====
section
/-! DEFINITION. The state of one Q9 module, as plain data. The record State holds the issuing context `cx`, its rank `rk`
and its core `co` apart, because every instruction acts on them; the module's other contexts, ranks and cores stand in
lists. Numbers the spec counts (device time, ticket numbers, tile rows) are Nat; what software reads as bits is a BitVec. -/

namespace Sys2Proof.Machine

open Sys2Proof

/-- Why the machine stops. -/
inductive Fault where
  /-- A stage of bring-up failed its signature: READY stays 0 and the module does nothing by itself (R295). Raised by step alone,
  with an empty agenda; safe: the hardware stops there too. -/
  | notStarted
  deriving DecidableEq, Repr

/-- Why an instruction is refused. -/
inductive Refusal where
  /-- The instruction has no meaning yet. Raised by an arm of exec; safe. -/
  | notModelled (mnemonic : String)
  deriving DecidableEq, Repr

/-! ### A context (R22, R42, R139) -/

/-- The control registers held per context (R142): each at the width of its writable bits. -/
structure CtxRegs where
  keyid     : BitVec 10
  frm       : BitVec 2
  fflags    : BitVec 5
  mxcnt     : BitVec 48
  fmt       : BitVec 4
  sclp      : BitVec 20
  accexp    : BitVec 8
  spar      : BitVec 2
  mxtrap    : BitVec 3
  trapvec   : BitVec 53
  trapcause : BitVec 9
  trappc    : BitVec 53
  trapval   : Word
  trapsave  : Word
  fewait    : BitVec 32
  deriving DecidableEq, Repr

/-- The MXOVF event of a context: whether it is pending, and the counts and planes it has gathered (R325). -/
structure MxPending where
  pending : Bool
  ovf     : BitVec 16
  xsat    : BitVec 16
  range   : BitVec 16
  planes  : BitVec 4
  deriving DecidableEq, Repr

/-- The accesses that translation tells apart (R102, R307). -/
inductive Access where
  | load | store | atomic | fetch | engineRead | engineWrite | walker | dispatcher
  deriving DecidableEq, Repr

/-- A fault that found its ring full (R308): since when, what its record will tell, and the step in which it arose, which orders it among the
faults that wait for the same ring (R327). -/
structure RingWait where
  since : Nat
  va    : Word
  cause : BitVec 8
  acc   : Access
  tick  : Nat
  deriving DecidableEq, Repr

/-- What a context waits for: the kinds of R340, and the waits of R306, R346, R189, R215, R104, R126, R349, R121, R84 and R85
that an image records as KIND 0; a full/empty wait holds its limit and the address of its word, an `mrcv` the cycle it executed in and its match
word (R219); `fetch` is the wait for a word that is fetched from host space or another module, `exiting` the wait of a control context's `hexit`
(R225). A barrier wait names its slot, and whether it is a switch point (R48). -/
inductive Wait where
  | none
  | retry (limit : Nat) (va : Word)
  | reoffer (limit : Nat) (va : Word)
  | mrcv (since : Nat) (word : Word)
  | tgwait
  | wfe
  | lwait
  | collwait
  | hjoin
  | barrier (g : Nat) (point : Bool)
  | soloPost (k : Nat)
  | record (n : Nat)
  | recordRing (w : RingWait)
  | remote (id : Nat)
  | fetch (id : Nat)
  | host (pa : Nat) (va : Word) (since : Nat)
  | acceptance
  | inboxSlot
  | held
  | replica
  | stores
  | rowFill
  | tileReads
  | launchRead (launch : Nat)
  | exiting
  deriving DecidableEq, Repr

/-- Whether a context issues: running, stopped for good (R305, R313), or in fault-lock (R309). -/
inductive RunState where
  | running | stopped | locked
  deriving DecidableEq, Repr

/-- A load whose lookahead window is open: the register it wrote, the bytes it read, and the instructions left (R50, R51). -/
structure Window where
  d    : Reg
  pa   : Nat
  size : Nat
  old  : Word
  left : Nat
  deriving DecidableEq, Repr

/-- A context. `answer` holds the value that an event brought to the waiting instruction, `lanes` the lane values that a vector load has so far
(R112, R184), `fetched` the words of the instruction that requests have fetched, with their addresses, `toPost` the faults of its later lanes
that found the ring full (R308, R327), `lost` the address of a remote store that failed (R346). -/
structure Context where
  num     : Nat
  pc      : Word
  x       : Vector Word 32
  v       : Vector VReg 28
  p       : Vector PReg 8
  mg      : Vector Word 16
  cr      : CtxRegs
  hf      : Bool
  mx      : MxPending
  wait    : Wait
  remain  : Option Nat
  pair    : Bool
  run     : RunState
  windows : List Window
  answer  : Option Word
  lanes   : List Nat
  fetched : List (Word × Nat)
  toPost  : List RingWait
  lost    : Option Word
  deriving DecidableEq, Repr

/-! ### Tiles and streams (R79 to R91) -/

/-- The four tile states, by their codes in the status word (R83, R87). -/
inductive TileState where
  | empty | filling | full | draining
  deriving DecidableEq, Repr

/-- An allocated tile. `bytes` lists its non-zero bytes in ascending offset: `tal` clears the rest (R81). `cores` lists the
cores its banks come from, `launch` the launch that allocated it; `emptying` says that it becomes EMPTY once no counted read remains (R85). -/
structure Tile where
  handle   : Nat
  shape    : BitVec 36
  state    : TileState
  filled   : Nat
  reads    : Nat
  emptying : Bool
  clearing : Bool
  bytes    : List Host.Cell
  launch   : Nat
  run      : Nat
  cluster  : Nat
  cores    : List Nat
  ended    : Bool
  deriving DecidableEq, Repr

/-- A bound stream: its descriptor words, the indices i and j of the current step, and the completed passes (R89 to R91). -/
structure Stream where
  w0   : Word
  w1   : Word
  i    : Nat
  j    : Nat
  pass : Nat
  deriving DecidableEq, Repr

/-! ### Engines: tickets, copies, graphs (R92 to R96, R193 to R198) -/

inductive TicketKind where
  | copy | graph | launch | coll
  deriving DecidableEq, Repr

/-- The status of an issued ticket: STATE as R197 and R198 code it, DONE bytes or nodes, and the total. `taken` says of a
collective that `collwait` has collected it (R233). -/
structure Ticket where
  kind  : TicketKind
  chan  : Nat
  seq   : Nat
  state : Nat
  done  : Nat
  total : Nat
  taken : Bool
  deriving DecidableEq, Repr

inductive CopyKind where
  | copyIn | copyOut | copy | remoteExact | remoteLossy
  deriving DecidableEq, Repr

/-- A copyist command or copy node (R193, R194, R382). `chan` is the copyist channel of the module, 4 × cluster + channel; 384 and more, a number
of its rank's own, while its rank is switched out with its core tile (R46). `node` names the graph slot and node of a copy node. `bytes` is the
whole length, known for a tile once started; `record` the fault record it waits on, if any, `ring` the fault of its that finds the ring full;
`got` the words that host or remote reads of the running chunk have returned; `lease` since when it waits for a host lease (R349); `moved` says
that its rank was moved (R46), `counted` that it started a counted read of its tile (R192). -/
structure CopyCmd where
  chan    : Nat
  key     : RankKey
  run     : Nat
  ctx     : Nat
  core    : Nat
  owner   : Nat
  keyid   : BitVec 10
  kind    : CopyKind
  mem     : Word
  src     : Word
  control : Word
  pitch   : Nat
  bytes   : Nat
  seq     : Nat
  node    : Option (Nat × Nat)
  started : Bool
  done    : Nat
  record  : Option Nat
  ring    : Option RingWait
  got     : List Word
  moved   : Bool
  counted : Bool
  lease   : Option Nat
  deriving DecidableEq, Repr

/-- The registers an engine command keeps from its place in program order (R94, R189). -/
structure Snapshot where
  mg     : Vector Word 16
  fmt    : BitVec 4
  sclp   : BitVec 20
  accexp : BitVec 8
  spar   : BitVec 2
  keyid  : BitVec 10
  deriving DecidableEq, Repr

inductive NodeState where
  | waiting | running | finished | faulted
  deriving DecidableEq, Repr

/-- A node of a posted graph: its eight record words, the count left and how far it is. -/
structure Node where
  words : Vector Word 8
  count : Nat
  state : NodeState
  deriving DecidableEq, Repr

/-- A graph in one of the walker's four slots (R94); `gone` says that the context that posted it has ended. -/
structure Graph where
  slot    : Nat
  addr    : Word
  seq     : Nat
  ctx     : Nat
  gone    : Bool
  snap    : Snapshot
  nodes   : List Node
  faulted : Bool
  deriving DecidableEq, Repr

/-! ### The matrix unit (R199 to R213) -/

inductive MxKind where
  | mwld | mwswap | mmul | mzero | mzdrn
  deriving DecidableEq, Repr

/-- A matrix operation as accepted (R383). `gone` says that its context has ended (R326). `tile` is the physical tile of an F-core that a
later renaming has left it (R210), `reads` the tiles whose counted reads it started, in `cluster` (R192); `flip` says of one in the F-array that a
swap has passed it, so that its weights stand in the shadow plane (R208), `passed` that a swap has started since, whose wavefront follows it. -/
structure MatrixOp where
  kind : MxKind
  nc   : Bool
  z    : Fin 4
  fmt  : Nat
  ctx  : Nat
  gone : Bool
  node : Option (Nat × Nat)
  opA  : Word
  opB  : Word
  snap : Snapshot
  tile : Option Nat
  reads : List Nat
  cluster : Nat
  flip : Bool
  passed : Bool
  deriving DecidableEq, Repr

/-- One cell of an L-core plane: its A24 value, excursion counter, poison, the two queues, oldest first (R202), and the
case that poisoned it during the running operation (0 none, 1 OVF, 2 XSAT, 3 RANGE, 4 NaR). -/
structure Cell where
  a    : Int
  x    : Int
  bad  : Bool
  pos  : List Int
  neg  : List Int
  case : Nat
  deriving DecidableEq, Repr

/-- A plane of an L-core: its recorded exponent E, if any, and the cells that differ from a zeroed one, by 64 m + n. -/
structure Plane where
  exp   : Option (BitVec 8)
  cells : List (Nat × Cell)
  deriving DecidableEq, Repr

/-- The matrix unit as the rank sees it. `stream` is the operation that streams into the array, with the words done; `tails` those whose last
word or row has entered it, oldest first; `drain` the drain that runs, with the rows done. `weights` and `scales` hold the active and the shadow
plane; `phys` the eight physical tiles of an F-core. -/
structure MatrixUnit where
  queue   : List MatrixOp
  stream  : Option (MatrixOp × Nat)
  tails   : List MatrixOp
  drain   : Option (MatrixOp × Nat)
  planes  : Vector Plane 4
  weights : Vector (List (Nat × BitVec 16)) 2
  scales  : Vector (List (Nat × Byte)) 2
  loaded  : Bool
  phys    : Vector (List (Nat × BitVec 32)) 8
  map     : Vector (Fin 8) 4
  deriving DecidableEq, Repr

/-! ### Messages, barriers, solo (R39, R53, R214 to R217) -/

structure Message where
  src  : Nat
  tag  : BitVec 16
  data : VReg
  deriving DecidableEq, Repr

/-- A held message of the blotter (R216, R384). -/
structure Held where
  ctx  : Nat
  dest : Nat
  tag  : BitVec 16
  data : VReg
  deriving DecidableEq, Repr

/-- A rank's part in the barrier of one group slot (R39, R40). `released` says that the phase it arrived in has released, `byVote` that a
`bar.vote` made the arrival. -/
structure BarSlot where
  arrived  : Bool
  byVote   : Bool
  counted  : Bool
  released : Bool
  vote     : Bool
  andBit   : Bool
  orBit    : Bool
  deriving DecidableEq, Repr

/-- The solo pairs of a rank (R53, R54): pairs done since the last release of group 0, posted values by instance, and
instances it failed with their cause. `atArrival` is the count with which it arrived at the current phase of group 0, `home` the
cluster it takes part in. -/
structure SoloState where
  count     : Nat
  performed : Nat
  atArrival : Nat
  posted    : List (Nat × Word)
  failed    : List (Nat × BitVec 8)
  home      : Nat
  deriving DecidableEq, Repr

/-! ### A rank (R33 to R38) -/

/-- What the rank reads of its launch; it does not change while the rank lives (R35). -/
structure RankId where
  owner    : BitVec 12
  keyid    : BitVec 10
  span     : BitVec 17
  lb       : BitVec 53
  hmax     : Nat
  deadline : Word
  dual     : Bool
  deriving DecidableEq, Repr

/-- Whether the rank runs on its core, is switched out there (R48), is switched out with no core (R256), or has ended. -/
inductive RankState where
  | running | folded | saved | ended
  deriving DecidableEq, Repr

/-- A rank. `ctxs` holds its live contexts but, for the rank in focus, the one in focus; the first was issued longest ago. `spilled` says
that its core tiles stand in its save area (R88), `imaged` that its image stands there (R339), `behind` that something reached it while
it was switched out which its image does not show yet (R46, R47); `since` when it came to its core, if that was after its start (R57). -/
structure Rank where
  key     : RankKey
  run     : Nat
  core    : Nat
  state   : RankState
  id      : RankId
  ctxs    : List Context
  wake    : BitVec 16
  faults  : BitVec 3
  vote    : BitVec 4
  grp     : Vector Word 4
  bar     : Vector BarSlot 4
  streams : Vector (Option Stream) 4
  tiles   : List Tile
  inbox   : List Message
  blotter : List Held
  tickets : List Ticket
  issued  : Vector Nat 7
  graphs  : List Graph
  mx      : MatrixUnit
  solo    : SoloState
  sig     : BitVec 64
  spilled : Bool
  imaged  : Bool
  behind  : Bool
  since   : Nat
  deriving DecidableEq, Repr

/-! ### A core (R20, R22) -/

/-- A cache line: the line's address, its bytes, the order in which it was filled (R98, R99), and the step that filled it. -/
structure Line where
  addr : Nat
  data : List Byte
  fill : Nat
  born : Nat
  deriving DecidableEq, Repr

/-- Where a store is performed (R106, R117, R119). -/
inductive Place where
  | home | cluster | sequencer
  deriving DecidableEq, Repr

/-- A store in a core's store buffer, not yet performed at its place (R119). `left` counts its open window (R51);
`forwarded` says that it has served a load of another context (R121). -/
structure Buffered where
  key       : RankKey
  ctx       : Nat
  pa        : Nat
  data      : List Byte
  place     : Place
  left      : Nat
  forwarded : Bool
  deriving DecidableEq, Repr

/-- A core. `last` is the rank that it ran last, after which R48 counts the next one. -/
structure Core where
  num     : Nat
  cycle   : Nat
  member  : BitVec 16
  signal  : BitVec 16
  halted  : Bool
  haltedAt : Nat
  last    : Option RankKey
  lender  : BitVec 12
  image   : BitVec 53
  dcache  : List Line
  mark    : Nat
  icache  : List Line
  stores  : List Buffered
  deriving DecidableEq, Repr

/-! ### Memory (R97 to R112) -/

/-- What a plot holds under a key that is its key no more (R289, R290): the bytes written under it that differ from what they would else
read as. -/
structure KeyLayer where
  key   : Nat
  cells : List Host.Cell
  deriving DecidableEq, Repr

/-- A plot whose key has changed: its key now, the key it was last overwritten whole under, and what stands in it under other keys,
latest first. -/
structure KeyedPlot where
  now    : Nat
  base   : Nat
  layers : List KeyLayer
  deriving DecidableEq, Repr

/-- Physical memory. `bytes` lists, in strictly rising address, the bytes that differ from what an unlisted one reads as;
`full` the words whose full/empty bit is FULL; `keyed` the plots whose key changed. -/
structure Memory where
  bytes  : List Host.Cell
  full   : List Nat
  keyed  : List (Nat × KeyedPlot)
  deriving DecidableEq, Repr

/-- What the answer to a peer's request bears of it: module and number, ordering key and packet number, key ID and weight, and the address
(R254, R264). -/
structure PeerRef where
  src    : Nat
  id     : Nat
  sagent : Nat
  pseq   : Nat
  keyid  : Nat
  weight : Nat
  addr   : Word
  deriving DecidableEq, Repr

/-- A full/empty access waiting in a home controller's retry list, oldest first (R108), of an owner; `moved` marks one held for a page
move (R331). `who` is a context here; else `peer` is a peer's request, and `limit` the time to which it waits (R332). -/
structure RetryEntry where
  ctl   : Nat
  owner : Nat
  who   : Option (RankKey × Nat × Nat)
  peer  : PeerRef
  limit : Nat
  pa    : Nat
  mode  : FeMode
  data  : Word
  moved : Bool
  deriving DecidableEq, Repr

/-- An update of a replicated page that not every copy holds yet, in the sequencer's order (R126). -/
structure Pending where
  pa   : Nat
  data : List Byte
  deriving DecidableEq, Repr

/-- A translation kept until a flush (R105): owner, 8 KiB page, entry; `named` says that a flush in progress names it. -/
structure Kept where
  owner : Nat
  page  : Nat
  entry : Word
  level : Nat
  named : Bool
  deriving DecidableEq, Repr

/-- The page move (R330, R331): the registers MVSRC, MVDST and SIZE, BUSY, DONE, and of the move that runs its operands and
START. -/
structure PageMove where
  mvsrc : Nat
  mvdst : Nat
  size  : Bool
  src   : Nat
  dst   : Nat
  large : Bool
  busy  : Bool
  done  : Bool
  start : Nat
  deriving DecidableEq, Repr

/-- Memory with all that stands before it. `ccache` holds the lines of each cluster's cache, `excl` the CLUSTER lines held
exclusively with their cluster: such a line's bytes stand in `mem`, since the line is the location's one place (R98, R106).
`fills` counts cache fills, the time R99 compares with a mark. `promised` and `broken` list, for a launch, the bytes it reads
as invariant, and those written all the same (R111). `keyGens` counts, for a key ID, the drawings and destructions of its memory key (R290). -/
structure MemSystem where
  mem     : Memory
  ccache  : List (Nat × Line)
  excl    : List (Nat × Nat)
  fills   : Nat
  retry   : List RetryEntry
  pending : List Pending
  kept    : List Kept
  flushes : List Nat
  move    : PageMove
  promised : List (Nat × Nat)
  broken  : List (Nat × Nat)
  keyGens : List (Nat × Nat)
  deriving DecidableEq, Repr

/-! ### Ownership (R283 to R288) -/

/-- A map entry that differs from "held by owner 1, not lent, not offered" (R284, R297). A loan began at `lentAt` and its term ends at
`expiry` (R285). -/
structure MapEntry where
  cls       : Nat
  idx       : Nat
  holder    : Nat
  lender    : Nat
  offerTo   : Nat
  lendOffer : Bool
  offerTerm : Nat
  lentAt    : Nat
  expiry    : Nat
  mkey      : Nat
  deriving DecidableEq, Repr

/-- An owner's record and the registers of its ownership-port page (R284, R288, R353); `opF` is the F code of the operation in progress. -/
structure OwnerRec where
  num      : Nat
  live     : Bool
  sponsor  : Nat
  troot    : Nat
  faultq   : BitVec 53
  saveArea : BitVec 53
  rwtab    : Nat
  mkeyid   : BitVec 10
  rcptbuf  : BitVec 53
  cfgown   : Nat
  opA      : Word
  opB      : Word
  opRes    : Word
  opBusy   : Bool
  opF      : Nat
  qsel     : Nat
  mcsel    : Nat
  deriving DecidableEq, Repr

/-- A range-watch slot (R293): WCFG and WOPS. -/
structure Watch where
  num  : Nat
  cfg  : Word
  ops  : BitVec 5
  deriving DecidableEq, Repr

/-- One counted tuple of the logging interval that begins at a time (R293). -/
structure LogTuple where
  start   : Nat
  slot    : Nat
  granule : Nat
  agent   : Nat
  owner   : Nat
  op      : Nat
  count   : Nat
  deriving DecidableEq, Repr

/-- The access log (R293, R294) and the page-1 registers that only it uses. `records` are those written since the last seal, whose
chain value is `chain`, written at `sealAt`; `put` counts what went to the ring. -/
structure LogState where
  base    : BitVec 53
  wsel    : Nat
  watches : List Watch
  tuples  : List LogTuple
  put     : Nat
  dropped : Nat
  records : List (List Byte)
  chain   : List Byte
  sealAt  : Nat
  deriving DecidableEq, Repr

structure Ownership where
  endowed : Bool
  entries : List MapEntry
  owners  : List OwnerRec
  deriving DecidableEq, Repr

/-! ### Dispatch (R244 to R258) -/

inductive QueueState where
  | idle | admitted | switchedOut
  deriving DecidableEq, Repr

/-- A launch queue (R244, R246). `seenFence` is the SEQ of the last well-formed fence read, `fenceRec` the record number of
the last fence completed (R316), `shownFence` and `shownRec` LASTFENCE and that number as the progress record last showed them (R314), `ended`
the records above DONE that have ended, `record` and `progRec` the fault records that the read of a launch record and the progress record wait on, `ring` and `progRing` the faults of theirs that find the ring full, `stale` that the progress
record is yet to be written, `tell` that MSI-X vector 0 is due once it is (R246, R280), `held` that a fence launch ended without completing,
so that no later launch is placed (R247), `arrivals` the doorbells: first record, count, time (R251). -/
structure Queue where
  num       : Nat
  base      : BitVec 53
  log2      : Nat
  qkey      : BitVec 10
  enable    : Bool
  prog      : BitVec 53
  head      : Nat
  doneNum   : Nat
  tail      : Nat
  lastFence : Word
  seenFence : Word
  fenceRec  : Option Nat
  shownFence : Word
  shownRec  : Option Nat
  state     : QueueState
  ended     : List Nat
  record    : Option Nat
  progRec   : Option Nat
  ring      : Option RingWait
  progRing  : Option RingWait
  stale     : Bool
  tell      : Bool
  held      : Bool
  arrivals  : List (Nat × Nat × Nat)
  deriving DecidableEq, Repr

/-- Where a launch came from (R227, R250). -/
inductive Origin where
  | queue (number : Nat)
  | program (parent : RankKey) (run seq : Nat)
  | node (parent : RankKey) (run slot node : Nat)
  deriving DecidableEq, Repr

/-- `reading` until dispatch has read its record (R34), then `ready` until it is placed. -/
inductive LaunchState where
  | reading | ready | running | complete | ended
  deriving DecidableEq, Repr

/-- A launch. `words` is its record as read; `groups` the members of each table group; `channels` the barrier channels it
holds (R38); `ring` is the fault of the read of a child's record that finds the ring full. -/
structure Launch where
  num      : Nat
  origin   : Origin
  queue    : Nat
  owner    : Nat
  addr     : Word
  words    : Vector Word 16
  state    : LaunchState
  groups   : List (List Nat)
  channels : List Nat
  arrival  : Nat
  late     : Bool
  ring     : Option RingWait
  sig0     : Option (BitVec 64)
  sig1     : Option (BitVec 64)
  deriving DecidableEq, Repr

/-- Who waits on a fault record (R306). -/
inductive Waiter where
  | context (key : RankKey) (run ctx : Nat)
  | channel (chan : Nat)
  | dispatcher (queue : Nat)
  | child (launch : Nat)
  | coll (id : Nat)
  deriving DecidableEq, Repr

/-- A fault record posted and unanswered (R306): the context it is one of, if it is one, each waiter with its faulting address, and
where the record lies. `num` is 2^32 × owner + the record's number in that owner's queue. -/
structure FaultRec where
  num     : Nat
  owner   : Nat
  who     : Option (RankKey × Nat × Nat)
  waiters : List (Waiter × Word)
  page    : Nat
  va      : Word
  cause   : BitVec 8
  slot    : Option Nat
  posted  : Nat
  deriving DecidableEq, Repr

/-- An error record of the management ring (R310). -/
structure ErrRec where
  cls     : BitVec 8
  rung    : Nat
  dropped : Bool
  time    : Nat
  owner   : Nat
  core    : Nat
  ctx     : Nat
  queue   : Nat
  addr    : Word
  val1    : Word
  val2    : Word
  num     : Nat
  deriving DecidableEq, Repr

inductive RungTarget where
  | queue (q : Nat)
  | launch (l : Nat)
  | helper (k : RankKey) (run ctx : Nat)
  | channel (ch : Nat)
  | matrix (core : Nat)
  | walker (core : Nat)
  | netif (core : Nat)
  | owner (o : Nat)
  | device
  deriving DecidableEq, Repr

/-- A rung that has started and not ended (R313). -/
structure RungRun where
  num    : Nat
  level  : Nat
  target : RungTarget
  start  : Nat
  deriving DecidableEq, Repr

structure Dispatch where
  queues   : List Queue
  slots    : List (Nat × BindRec)
  deferred : List (Nat × BindRec)
  orders   : List (Nat × Nat)
  restores : List (Nat × List Nat)
  launches : List Launch
  nextNum  : Nat
  records  : List FaultRec
  errors   : List ErrRec
  errNum   : Nat
  rungs    : List RungRun
  nextRung : Nat
  heldCopies : List (Nat × ErrRec)
  ending   : List Nat
  begun    : Bool
  deriving DecidableEq, Repr

/-- A message accepted and not yet in an inbox (R215); `gate` marks one sent before an arrival that waits for it (R40). -/
structure Flight where
  launch : Nat
  run    : Nat
  src    : Nat
  dest   : Nat
  tag    : BitVec 16
  data   : VReg
  gate   : Bool
  deriving DecidableEq, Repr

structure Engines where
  copies   : List CopyCmd
  tiles    : List Tile
  flights  : List Flight
  deriving DecidableEq, Repr

/-! ### The fabric (R261 to R278, R343 to R348) -/

/-- What an outstanding remote or host request stands for (R346). -/
inductive Issuer where
  | load (key : RankKey) (run ctx : Nat)
  | fullEmpty (key : RankKey) (run ctx : Nat)
  | store (key : RankKey) (run ctx : Nat)
  | copy (chan seq : Nat)
  | multicast (key : RankKey) (run ctx : Nat)
  | leg (coll : Nat)
  deriving DecidableEq, Repr

/-- What one member's copy of a `stmc` packet bears: its module, its address there, the number within that module's ordering key, path, and
encryption counter (R264, R267, R270, R274). -/
structure McCopy where
  member : Nat
  node   : Nat
  addr   : Word
  pseq   : Nat
  entry  : Nat
  via    : Nat
  ivc    : Nat
  deriving DecidableEq, Repr

/-- A request of this module that has no completion yet: its packet's fields (R264) and its deadline (R346). `payload` holds the bytes of a
packet longer than a word, `block` the transfer, index and count of a lossy block, `via` and `weight` what its route flit and headers bear,
`vf` the VF as which a host request leaves (R280), `resent` that it was sent again (R344). Of a `stmc`, `dest` is the group, `local_` the
mask of its members, `nodes` the modules of its record as it committed (R274), `copies` the packets of those members, `failed` those that have
failed, and `marked` that a router has marked the members of a branch (R347). -/
structure Request where
  id       : Nat
  issuer   : Issuer
  kind     : ReqKind
  dest     : Nat
  sagent   : Nat
  pseq     : Nat
  keyid    : BitVec 10
  addr     : Word
  local_   : Word
  bytes    : Nat
  data     : Word
  time     : Nat
  deadline : Nat
  owner    : Nat
  injected : Bool
  entry    : Nat
  host     : Bool
  ivc      : Nat
  failed   : Word
  payload  : List Byte
  block    : Option (Nat × Nat × Nat)
  weight   : Nat
  via      : Nat
  vf       : Nat
  nodes    : List Nat
  copies   : List McCopy
  resent   : Bool
  marked   : Bool
  deriving DecidableEq, Repr

/-- A key ID's row of the router key table (R269 to R271). -/
structure FabricKey where
  keyid  : Nat
  loaded : Bool
  rate   : Nat
  open_  : Bool
  tokens : Nat
  filled : Nat
  ivc    : Nat
  lateAt : Nat
  deriving DecidableEq, Repr

/-- A fabric port: its link, its buffers and its replay counts (R268, R343, R344). `lseq` is the number of the next flit it sends, `replay` its
replay buffer, `again` those of it that a replay has yet to send; `expect` is the LSEQ it expects, `asked` the one that its receiver has asked
the peer to replay from, `lastReq` the one the peer last asked it to replay from. `bufs` lists the input buffers in use by key ID, 1,024 for
management, and whether of the shared pool. `fwHeld` are the bytes of the management packets that its limiter holds, `fwFree` when it lets the
next one go, in hundredths of a ns (R30). -/
structure Port where
  num      : Nat
  dead     : Bool
  expect   : Nat
  asked    : Option Nat
  lastReq  : Option Nat
  lseq     : Nat
  replay   : List Flit
  again    : List Flit
  bufs     : List (Nat × Bool)
  failures : Nat
  replays  : List Nat
  spareOf  : Option Nat
  fwHeld   : List Nat
  fwFree   : Nat
  deriving DecidableEq, Repr

/-- A multicast group record, its words that are not zero, and the collectives counted at this module (R232, R274). -/
structure McGroup where
  num   : Nat
  words : List (Nat × Word)
  count : Nat
  deriving DecidableEq, Repr

/-- An exact packet in the destination's reorder store, and the next number of each ordering key (R267). -/
structure OrderKey where
  src    : Nat
  sagent : Nat
  next   : Nat
  early  : List (Nat × RemoteReq)
  deriving DecidableEq, Repr

/-- An open lossy transfer (R272). -/
structure LossyXfer where
  src    : Nat
  xfer   : Nat
  keyid  : Nat
  addr   : Word
  nblk   : Nat
  time   : Nat
  blocks : List LossyBlock
  deriving DecidableEq, Repr

/-- A leg of a collective that has arrived: the first member of its subtree, its level, its elements' bytes and the counts
of its blocks; a lossy block lost has count 0 (R275, R357). -/
structure Leg where
  first  : Nat
  level  : Nat
  time   : Nat
  data   : List Byte
  counts : List Nat
  deriving DecidableEq, Repr

/-- A collective of this module (R231 to R233): its descriptor words, its group's record as it committed (R274) and the legs in hand. `sent`
says that its contribution is made, `result` is the result leg once it is here, `failed` the modules that answered a leg of it with a status other
than OK; `record` and `ring` are as for a copy. -/
structure Collective where
  id      : Nat
  key     : RankKey
  run     : Nat
  ctx     : Nat
  seq     : Nat
  group   : Nat
  count   : Nat
  desc    : McGroup
  words   : Vector Word 8
  owner   : Nat
  keyid   : BitVec 10
  time    : Nat
  sent    : Bool
  legs    : List Leg
  result  : Option Leg
  failed  : List Nat
  record  : Option Nat
  ring    : Option RingWait
  deriving DecidableEq, Repr

/-- A result held for a member that has not reached its `coll` (R358); `good` is its status. -/
structure HeldResult where
  group : Nat
  count : Nat
  time  : Nat
  leg   : Leg
  good  : Bool
  deriving DecidableEq, Repr

/-- Atomics held in a router for a partner, each with its number by arrival (R277). -/
structure Merging where
  num   : Nat
  port  : Nat
  reqs  : List (Nat × RemoteReq)
  since : Nat
  deriving DecidableEq, Repr

/-- What waits at an arbiter: a packet of a request, an answer to a peer, a device request to the host, or a host's access to a window of device
memory. -/
inductive Cargo where
  | packet (id : Nat)
  | answer (dest id : Nat)
  | host (id : Nat)
  | window (vf : Nat) (addr : Word) (data : Option Word)
  deriving DecidableEq, Repr

/-- A request waiting at an arbiter (R253): its port and weight, the cycle it arrived in, and its flits. -/
structure Claim where
  arb     : Nat
  port    : Nat
  weight  : Nat
  arrived : Nat
  cargo   : Cargo
  flits   : List Flit
  deriving DecidableEq, Repr

/-- A completion this module has sent: the peer's request, KIND, path, TIME and encryption counter of its route flit (R264, R270), the status of
R345, and the bytes read. -/
structure Sent where
  peer   : PeerRef
  kind   : Nat
  entry  : Nat
  via    : Nat
  time   : Nat
  ivc    : Nat
  status : Nat
  data   : List Byte
  deriving DecidableEq, Repr

/-- The fabric side of the module. `clock` counts core cycles since reset (R26), the arbiters' clock too; `grants` holds the port each arbiter
served last, `answers` the completions that their key's rate keeps waiting (R269), `lag` how far the reference time is ahead, `flitAt` the time
that the last time flits bore (R278). `broken` lists the table entries, by destination and number, that are marked dead for a link elsewhere
(R344), `shut` the transfers closed before their cutoff (R272), `earlyLegs` the legs that came before their collective, each with its time
(R357). -/
structure Fabric where
  requests : List Request
  nextId   : Nat
  pseqs    : List (Nat × Nat × Nat)
  keys     : List FabricKey
  ports    : List Port
  groups   : List McGroup
  order    : List OrderKey
  lossy    : List LossyXfer
  nextXfer : Nat
  colls    : List Collective
  results  : List HeldResult
  merging  : List Merging
  claims   : List Claim
  grants   : List (Nat × Nat)
  clock    : Nat
  sent     : List Sent
  answers  : List Sent
  lag      : Int
  flitAt   : Nat
  broken   : List (Nat × Nat)
  shut     : List (Nat × Nat × Nat)
  earlyLegs : List (Nat × Nat × LegIn)
  deriving DecidableEq, Repr

/-! ### Host ports, firmware, power (R27 to R31, R279 to R282, R295, R296) -/

/-- One host port's PF registers (R281). -/
structure PortRegs where
  leaseExp : Nat
  errBase  : BitVec 64
  errCtl   : BitVec 32
  errHead  : BitVec 32
  errTail  : BitVec 32
  errLost  : BitVec 32
  vfEnable : Bool
  deriving DecidableEq, Repr

/-- A virtual function: VFCFG and the VF's BAR0 registers (R281, R282). -/
structure VFunc where
  num    : Nat
  owner  : Nat
  keyid  : BitVec 10
  weight : BitVec 5
  opA    : Word
  opB    : Word
  opRes  : Word
  opBusy : Bool
  opF    : Nat
  qsel   : Nat
  fired  : Option Nat
  deriving DecidableEq, Repr

/-- A doorbell write that arrived while no lease held, before its nanosecond was over (R349); `portB` says that it came on port B. -/
structure Bell where
  portB : Bool
  owner : Nat
  queue : Nat
  tail  : Nat
  time  : Nat
  deriving DecidableEq, Repr

/-- The host side (R279 to R282). `ring` lists the host error records with the host addresses they were written to, `msix` the messages
sent, `reads` the values that CXL.mem reads returned, `accessAt` when a VF last had a HOSTACCESS record of R350; `losing` the owners that
have lost their last live VF, with the count, until R352 is done with them. -/
structure Host_ where
  ready    : Bool
  leased   : Bool
  active   : Bool
  ports    : Vector PortRegs 2
  vfs      : List VFunc
  heldErrs : List ErrRec
  ring     : List (Nat × ErrRec)
  msix     : List (Nat × Nat)
  heldMsix : List (Nat × Nat)
  reads    : List Word
  accessAt : List (Nat × Nat)
  bells    : List Bell
  losing   : List (Nat × Nat)
  deriving DecidableEq, Repr

/-- The algorithms that SPDM may agree on (R296). -/
inductive SigAlg where
  | sm2P256
  deriving DecidableEq, Repr

inductive HashAlg where
  | sm3_256
  deriving DecidableEq, Repr

/-- The management plane (R30, R31, R295 to R297). `stage` counts the steps of bring-up that are done, `identity` is the device identity key once
it is derived, `measured` the eight registers, `verified` the stages whose signatures verify, `stopped` says that one did not and bring-up has
stopped, `agreed` the algorithms that SPDM has agreed on, `spdm` the responses sent, `fwReads` what reads of firmware returned, `attests` the writes of ATTEST
that wait for a held page. -/
structure Management where
  drawLimit  : Nat
  tempLimit  : Nat
  duty       : Nat
  draw       : Nat
  temp       : Nat
  stage      : Nat
  identity   : List Byte
  measured   : Vector (BitVec 256) 8
  verified   : Vector Bool 8
  stopped    : Bool
  agreed     : Option (SigAlg × HashAlg)
  spdm       : List (List Byte)
  fwReads    : List Word
  attests    : List Word
  deriving DecidableEq, Repr

/-! ### The scriptorium (R24, R130, R354) -/

/-- The scriptorium as the rest of the module meets it: the device-memory lines in its caches; of each dirty one what home holds (R354); the
values its loads returned; the line that a core's LR has reserved; its stopped cores; the owners whose debugger is attached (R241); whether the
hypervisor runs, on core 0 (R297). -/
structure Scriptorium where
  lines   : List Nat
  dirty   : List (Nat × List Byte)
  loads   : List Word
  reserved : List (Nat × Nat)
  stopped : List Nat
  debugOwners : List Nat
  hypervisor : Bool
  deriving DecidableEq, Repr

/-! ### The module -/

/-- A choice of the environment: an event of the table, the issue of a context, a store leaving a store buffer, a row of a copy-in or of a drain,
or the retry of nothing (time passes). -/
inductive Turn where
  | event (i : Instr)
  | issue (key : RankKey) (run ctx : Nat)
  | drain (core k : Nat)
  | row (chan : Nat)
  | shift (key : RankKey)
  | pass
  deriving DecidableEq, Repr

/-- The state of the module. `signals` names the halt groups that a stop has signalled and whose members still run (R56). -/
structure State where
  cx     : Context
  rk     : Rank
  co     : Core
  ranks  : List Rank
  cores  : List Core
  ms     : MemSystem
  own    : Ownership
  log    : LogState
  disp   : Dispatch
  eng    : Engines
  fab    : Fabric
  host   : Host_
  mgmt   : Management
  scr    : Scriptorium
  time   : Nat
  node   : BitVec 11
  signals : BitVec 16
  agenda : List Turn
  tick   : Nat
  deriving DecidableEq, Repr

/-! ### Reset -/

/-- The per-context control registers at their reset values (R109, R146, R148). -/
def CtxRegs.reset : CtxRegs :=
  { keyid := 0, frm := 0, fflags := 0, mxcnt := 0, fmt := 0, sclp := 0, accexp := 0, spar := 0, mxtrap := 0,
    trapvec := 0, trapcause := 0, trappc := 0, trapval := 0, trapsave := 0, fewait := 100000 }

def MxPending.reset : MxPending := { pending := false, ovf := 0, xsat := 0, range := 0, planes := 0 }

/-- A context as R10 starts it, at address 0: every register zero but p0, which reads all ones (R139, R166). [DESIGN CHOICE log 1] -/
def Context.reset : Context :=
  { num := 0, pc := 0, x := Vector.replicate 32 0, v := Vector.replicate 28 0, p := Vector.replicate 8 0,
    mg := Vector.replicate 16 0, cr := .reset, hf := false, mx := .reset, wait := .none, remain := none, pair := false,
    run := .running, windows := [], answer := none, lanes := [], fetched := [], toPost := [],
    lost := none }

def Plane.zero : Plane := { exp := none, cells := [] }

/-- The matrix unit at a rank's start: weights and scales zero, z0 to z3 on physical tiles 0 to 3, which are zero (R206, R210); the planes of an
L-core too, as `mzero` leaves them. [DESIGN CHOICE log 113] -/
def MatrixUnit.reset : MatrixUnit :=
  { queue := [], stream := none, tails := [], drain := none, planes := Vector.replicate 4 .zero, weights := Vector.replicate 2 [],
    scales := Vector.replicate 2 [], loaded := false, phys := Vector.replicate 8 [], map := #v[0, 1, 2, 3] }

def BarSlot.reset : BarSlot :=
  { arrived := false, byVote := false, counted := false, released := false, vote := true, andBit := false, orBit := false }

def SoloState.reset : SoloState := { count := 0, performed := 0, atArrival := 0, posted := [], failed := [], home := 0 }

def RankId.reset : RankId := { owner := 0, keyid := 0, span := 0, lb := 0, hmax := 0, deadline := 0, dual := false }

/-- A rank with nothing in it, ended: no rank runs before a launch is placed. [DESIGN CHOICE log 1] -/
def Rank.reset : Rank :=
  { key := ⟨0, 0⟩, run := 0, core := 0, state := .ended, id := .reset, ctxs := [], wake := 0, faults := 0, vote := 0,
    grp := Vector.replicate 4 0, bar := Vector.replicate 4 .reset, streams := Vector.replicate 4 none, tiles := [],
    inbox := [], blotter := [], tickets := [], issued := Vector.replicate 7 0, graphs := [], mx := .reset,
    solo := .reset, sig := 0, spilled := false, imaged := false, behind := false, since := 0 }

/-- A core out of reset (R56, R144, R149). [DESIGN CHOICE log 1] -/
def Core.reset (n : Nat) : Core :=
  { num := n, cycle := 0, member := 0, signal := 0, halted := false, haltedAt := 0, last := none, lender := 0, image := 0, dcache := [], mark := 0,
    icache := [], stores := [] }

/-- [DEDUCED log 9] -/
def Memory.reset : Memory := { bytes := [], full := [], keyed := [] }

def PageMove.reset : PageMove := { mvsrc := 0, mvdst := 0, size := false, src := 0, dst := 0, large := false, busy := false, done := false, start := 0 }

/-- [DEDUCED log 9] -/
def MemSystem.reset : MemSystem :=
  { mem := .reset, ccache := [], excl := [], fills := 0, retry := [], pending := [], kept := [], flushes := [],
    move := .reset, promised := [], broken := [], keyGens := [] }

def LogState.reset : LogState :=
  { base := 0, wsel := 0, watches := [], tuples := [], put := 0, dropped := 0, records := [], chain := [], sealAt := 0 }

/-- Owner n's record at its creation (R288: every register 0). -/
def OwnerRec.fresh (n sponsor : Nat) : OwnerRec :=
  { num := n, live := true, sponsor := sponsor, troot := 0, faultq := 0, saveArea := 0, rwtab := 0, mkeyid := 0,
    rcptbuf := 0, cfgown := 0, opA := 0, opB := 0, opRes := 0, opBusy := false, opF := 0, qsel := 0, mcsel := 0 }

/-- Before bring-up nobody holds anything and no owner is live (R297). -/
def Ownership.reset : Ownership :=
  { endowed := false, entries := [], owners := [] }

def Dispatch.reset : Dispatch :=
  { queues := [], slots := [], deferred := [], orders := [], restores := [], launches := [], nextNum := 0, records := [], errors := [],
    errNum := 0, rungs := [], nextRung := 0, heldCopies := [], ending := [], begun := false }

def Engines.reset : Engines := { copies := [], tiles := [], flights := [] }

def Fabric.reset : Fabric :=
  { requests := [], nextId := 0, pseqs := [], keys := [], ports := [], groups := [], order := [], lossy := [],
    nextXfer := 0, colls := [], results := [], merging := [], claims := [], grants := [], clock := 0, sent := [], answers := [], lag := 0,
    flitAt := 0, broken := [], shut := [], earlyLegs := [] }

def PortRegs.reset : PortRegs :=
  { leaseExp := 0, errBase := 0, errCtl := 0, errHead := 0, errTail := 0, errLost := 0, vfEnable := false }

/-- The host ports at reset: READY 0, LEASED 1, port A active (R281). -/
def Host_.reset : Host_ :=
  { ready := false, leased := true, active := false, ports := Vector.replicate 2 .reset, vfs := [], heldErrs := [],
    ring := [], msix := [], heldMsix := [], reads := [], accessAt := [], bells := [], losing := [] }

/-- Limits at their ceilings, full duty (R31). [DESIGN CHOICE log 1, DESIGN CHOICE log 14] -/
def Management.reset : Management :=
  { drawLimit := 3200, tempLimit := Config.temperatureCeiling, duty := 16, draw := 0, temp := 0, stage := 0, identity := [],
    measured := Vector.replicate 8 0, verified := Vector.replicate 8 true, stopped := false, agreed := none, spdm := [], fwReads := [],
    attests := [] }

/-- [DESIGN CHOICE log 1] -/
def Scriptorium.reset : Scriptorium := { lines := [], dirty := [], loads := [], reserved := [], stopped := [], debugOwners := [], hypervisor := false }

/-- The module right after reset: bring-up has not run (R297), no launch is placed, memory lists nothing.
[DESIGN CHOICE log 1, DESIGN CHOICE log 3] -/
def State.reset : State :=
  { cx := .reset, rk := .reset, co := Core.reset 0, ranks := [], cores := [], ms := .reset, own := .reset, log := .reset,
    disp := .reset, eng := .reset, fab := .reset, host := .reset, mgmt := .reset, scr := .reset, time := 0, node := 0, signals := 0,
    agenda := [], tick := 0 }

end Sys2Proof.Machine
end

