-- ==== Sys2Proof/Machine/Bits.lean ====
section
/-! DEFINITION. Helpers on bits and bytes: fields of a word, sign extension, the little-endian bytes of a value (R5), and the
sorted lists in which memory and tiles are held. -/

namespace Sys2Proof.Machine

open Sys2Proof

/-- The field of n bits of w that starts at bit lo, as a number. -/
def field (w : Word) (lo n : Nat) : Nat := w.toNat / 2^lo % 2^n

/-- Bit k of w. -/
def bitAt (w : Word) (k : Nat) : Bool := w.toNat.testBit k

/-- Whether the n bits of w from bit lo are all zero. -/
def zeroAt (w : Word) (lo n : Nat) : Bool := field w lo n == 0

/-- The word of a number, modulo 2^64. -/
def wd (n : Nat) : Word := BitVec.ofNat 64 n

/-- One if the condition holds, else zero. -/
def boolWord (b : Bool) : Word := if b then 1 else 0

def boolNat (b : Bool) : Nat := if b then 1 else 0

/-- The low n bits of w, extended by their top bit (R155: Sext). -/
def sextLow (n : Nat) (w : Word) : Word := (w.setWidth n).signExtend 64

/-- The low n bits of w, extended by zeros. -/
def zextLow (n : Nat) (w : Word) : Word := (w.setWidth n).setWidth 64

/-- A 53-bit address as the 64-bit address of R100: bit 52 repeated above. [DEDUCED log 8] -/
def addr53 (a : BitVec 53) : Word := a.signExtend 64

/-- Whether bits 63 to 53 of an address equal bit 52 (R100). [DEDUCED log 8] -/
def canonical (va : Word) : Bool := va == (va.setWidth 53).signExtend 64

/-- The little-endian value of a list of bytes (R5). -/
def leNat : List Byte → Nat
  | [] => 0
  | b :: r => b.toNat + 256 * leNat r

/-- The n little-endian bytes of a value (R5). -/
def leBytes : (n : Nat) → (v : Nat) → List Byte
  | 0, _ => []
  | n + 1, v => BitVec.ofNat 8 v :: leBytes n (v / 256)

/-! ### Sorted lists of cells: ascending keys, no entry that equals what an unlisted key reads as -/

/-- The byte listed at a, if any. -/
def cellsFind (a : Nat) : List Host.Cell → Option Byte
  | [] => none
  | (k, b) :: r => if k = a then some b else if a < k then none else cellsFind a r

/-- The list with b at a. -/
def cellsPut (a : Nat) (b : Byte) : List Host.Cell → List Host.Cell
  | [] => [(a, b)]
  | (k, c) :: r => if a < k then (a, b) :: (k, c) :: r else if a = k then (a, b) :: r else (k, c) :: cellsPut a b r

/-- The list with nothing at a. -/
def cellsErase (a : Nat) : List Host.Cell → List Host.Cell
  | [] => []
  | (k, c) :: r => if a = k then r else if a < k then (k, c) :: r else (k, c) :: cellsErase a r

/-- The list after b is written at a, where an unlisted a reads as z. -/
def cellsWrite (z : Byte) (a : Nat) (b : Byte) (l : List Host.Cell) : List Host.Cell :=
  if b = z then cellsErase a l else cellsPut a b l

/-- Whether the keys rise strictly and all stand above `lo`. -/
def cellsRise (lo : Option Nat) : List Host.Cell → Bool
  | [] => true
  | (k, _) :: r => (match lo with | none => true | some l => decide (l < k)) && cellsRise (some k) r

/-- The bytes at a, a + 1, …, where unlisted ones are zero: the contents of a tile. -/
def cellsBytes (l : List Host.Cell) (a : Nat) : (n : Nat) → List Byte
  | 0 => []
  | n + 1 => (cellsFind a l).getD 0 :: cellsBytes l (a + 1) n

/-- The contents of a tile after the bytes are written from a on. -/
def cellsStore (l : List Host.Cell) (a : Nat) : List Byte → List Host.Cell
  | [] => l
  | b :: r => cellsStore (cellsWrite 0 a b l) (a + 1) r

/-! ### Sorted lists of numbered values -/

/-- The value listed under k, else z. -/
def getAt {α : Type} (z : α) (k : Nat) : List (Nat × α) → α
  | [] => z
  | (j, v) :: r => if j = k then v else getAt z k r

/-- The list with v under k, keys rising. -/
def putAt {α : Type} (k : Nat) (v : α) : List (Nat × α) → List (Nat × α)
  | [] => [(k, v)]
  | (j, w) :: r => if k < j then (k, v) :: (j, w) :: r else if k = j then (k, v) :: r else (j, w) :: putAt k v r

/-- The list with nothing under k. -/
def dropAt {α : Type} (k : Nat) : List (Nat × α) → List (Nat × α)
  | [] => []
  | (j, w) :: r => if k = j then r else (j, w) :: dropAt k r

/-- The sorted list of numbers with k in it. -/
def setAdd (k : Nat) : List Nat → List Nat
  | [] => [k]
  | j :: r => if k < j then k :: j :: r else if k = j then j :: r else j :: setAdd k r

/-- The list without k. -/
def setRemove (k : Nat) (l : List Nat) : List Nat := l.filter fun j => j != k

/-- The first entry that p accepts becomes f of it; the others stay. -/
def updFirst {α : Type} (p : α → Bool) (f : α → α) : List α → List α
  | [] => []
  | a :: r => if p a then f a :: r else a :: updFirst p f r

/-- The list without the first entry that p accepts. -/
def removeFirst {α : Type} (p : α → Bool) : List α → List α
  | [] => []
  | a :: r => if p a then r else a :: removeFirst p r

end Sys2Proof.Machine
end

