-- ==== Sys2Proof/Machine/Memory.lean ====
section
/-! DEFINITION. Physical memory and translation: the map of R97, reading and writing bytes and full/empty bits, the ownership
map's look-ups, and the four-level walk of R100 to R103. Nothing here traps: a walk answers why it failed. -/

namespace Sys2Proof.Machine

open Sys2Proof

/-! ### The physical map (R19, R97) -/

def plotOf (pa : Nat) : Nat := pa / 2^21

/-- Whether a plot number is backed: slot ⌊p / 4⌋ of its die is at most 152,586 (R97). -/
def plotBacked (p : Nat) : Bool := p / 4 ≤ 152586

/-- Whether an address lies in device memory that is backed (R97). -/
def backed (pa : Nat) : Bool := pa < 0x014000000000 && plotBacked (plotOf pa)

/-- Whether an address lies in host space (R97). -/
def hostSpace (pa : Nat) : Bool := 0x800000000000 ≤ pa && pa < 2^48

/-- The home controller of a byte: 4 × (p mod 4) + PA[9:8] (R97). -/
def homeCtl (pa : Nat) : Nat := 4 * (plotOf pa % 4) + pa / 256 % 4

def lineOf (pa : Nat) : Nat := pa / 64 * 64

def clusterOf (core : Nat) : Nat := core / 16

def dieOfCluster (c : Nat) : Nat := c / 24

def dieOf (core : Nat) : Nat := core / 384

/-- Local indices 16 to 23 of a die are F-clusters (R19). -/
def isFCore (core : Nat) : Bool := 16 ≤ core / 16 % 24

/-! ### Bytes (R97, R289, R297) -/

/-- What a byte reads as under a key, of a plot overwritten with zeros under `base` and written since as the layers tell: what was last
written under that key, where no write under another has passed over its block of the cipher since; else a value the spec leaves open
(R289, R290). [DEDUCED log 26] -/
def underKey (key base pa : Nat) : List KeyLayer → Byte
  | [] => if key = base then 0 else Config.veiledByte key base pa []
  | l :: r =>
    let block := l.cells.filter fun c => c.1 / 16 == pa / 16
    if l.key = key then (cellsFind pa l.cells).getD (underKey key base pa r)
    else if block.isEmpty then underKey key base pa r
    else Config.veiledByte key l.key pa block

/-- What is told of a plot whose key changed, if it did (R289). [DEDUCED log 26, DESIGN CHOICE log 12] -/
def keyedOf (m : Memory) (pa : Nat) : Option KeyedPlot := (m.keyed.find? fun e => e.1 == plotOf pa).map (·.2)

/-- What a byte that nothing has written under its plot's key reads as: zero, since bring-up scrubs all memory (R297), where that key has
not changed. [DEDUCED log 9] -/
def unlisted (m : Memory) (pa : Nat) : Byte :=
  match keyedOf m pa with
  | none => 0
  | some k => underKey k.now k.base pa k.layers

/-- One byte of memory. -/
def readByte (m : Memory) (pa : Nat) : Byte := (cellsFind pa m.bytes).getD (unlisted m pa)

/-- Memory after one byte is written. -/
def writeByte (m : Memory) (pa : Nat) (b : Byte) : Memory := { m with bytes := cellsWrite (unlisted m pa) pa b m.bytes }

/-- The n bytes from pa on. -/
def readBytes (m : Memory) (pa : Nat) : (n : Nat) → List Byte
  | 0 => []
  | n + 1 => readByte m pa :: readBytes m (pa + 1) n

/-- Memory after the bytes are written from pa on. -/
def writeBytes (m : Memory) (pa : Nat) : List Byte → Memory
  | [] => m
  | b :: r => writeBytes (writeByte m pa b) (pa + 1) r

/-- The n-byte little-endian value at pa. -/
def readLE (m : Memory) (pa n : Nat) : Nat := leNat (readBytes m pa n)

def writeLE (m : Memory) (pa n v : Nat) : Memory := writeBytes m pa (leBytes n v)

/-- Whether the full/empty bit of the word at pa is FULL (R107). -/
def isFull (m : Memory) (pa : Nat) : Bool := m.full.contains (pa / 8 * 8)

def setFull (m : Memory) (pa : Nat) (b : Bool) : Memory :=
  { m with full := if b then setAdd (pa / 8 * 8) m.full else setRemove (pa / 8 * 8) m.full }

/-- Whether no entry of a list equals what an unlisted address reads as. -/
def cellsProper (m : Memory) : List Host.Cell → Bool
  | [] => true
  | (a, b) :: r => (b != unlisted m a) && cellsProper m r

/-- The canonical form of memory: addresses rise strictly and no entry equals what an unlisted address reads as. -/
def Memory.wf (m : Memory) : Bool := cellsRise none m.bytes && cellsProper m m.bytes

/-- The bytes of the n words of 8 from pa on become zero under the plot's key and their bits EMPTY (R286). [DEDUCED log 89] -/
def scrubRange (m : Memory) (pa n : Nat) : Memory :=
  { m with
    bytes := m.bytes.filter fun c => !(pa ≤ c.1 && c.1 < pa + n)
    full := m.full.filter fun w => !(pa ≤ w && w < pa + n) }

/-- Plot p overwritten with zeros, its bits EMPTY (R286). -/
def scrubPlot (m : Memory) (p : Nat) : Memory :=
  let m := { m with keyed := dropAt p m.keyed }
  scrubRange m (p * 2^21) (2^21)

/-- What a plot holds once its key is a new one: the layers, with what stood there under the key before, and the bytes that stand there
under the new key already. -/
def KeyedPlot.turned (k : KeyedPlot) (new : Nat) (cells : List Host.Cell) : KeyedPlot × List Host.Cell :=
  match (if cells.isEmpty then k.layers else ⟨k.now, cells⟩ :: k.layers) with
  | [] => ({ k with now := new, layers := [] }, [])
  | l :: r => if l.key = new then ({ k with now := new, layers := r }, l.cells) else ({ k with now := new, layers := l :: r }, [])

/-- Plot p after its key changes from one to another: what was written under the former reads as other values from now on, what was written
under the latter, if it was the plot's key before, as itself; the full/empty bits keep their state (R289). [DEDUCED log 26] -/
def rekeyPlot (m : Memory) (p old new : Nat) : Memory :=
  let k := (keyedOf m (p * 2^21)).getD { now := old, base := old, layers := [] }
  if k.now = new then m
  else
    let t := k.turned new (m.bytes.filter fun c => plotOf c.1 == p)
    let u := { m with
      bytes := m.bytes.filter fun c => plotOf c.1 != p
      keyed := if t.1.layers.isEmpty && t.1.base == new then dropAt p m.keyed else putAt p t.1 m.keyed }
    (t.2.filter fun c => plotOf c.1 == p).foldl (fun n c => writeByte n c.1 c.2) u

/-- The drawing of a key ID's memory key that is in force: odd while there is one; that of key ID 0 is drawn at bring-up (R290). [DEDUCED log 26] -/
def MemSystem.keyGen (ms : MemSystem) (k : Nat) : Nat :=
  ((ms.keyGens.find? fun e => e.1 == k).map (·.2)).getD (if k = 0 then 1 else 0)

/-- The number by which one memory key is told from every other: its key ID and its drawing (R290). -/
def MemSystem.memKey (ms : MemSystem) (k : Nat) : Nat := k + 1024 * ms.keyGen k

/-! ### The ownership map (R283, R284) -/

/-- How many resources a class has; 0 for a class that R283 does not list. -/
def classCount : Nat → Nat
  | 0x01 => 1536 | 0x02 => 15360 | 0x03 => 655360 | 0x04 => 4096 | 0x05 => 384 | 0x06 => 1024 | 0x07 => 4096
  | 0x08 => 4096 | 0x09 => 256 | 0x0A => 4096 | 0x0B => 16
  | _ => 0

/-- Whether a class and index name a resource (R283); only backed plots carry an entry. -/
def resourceExists (cls idx : Nat) : Bool := idx < classCount cls && (cls != 0x03 || plotBacked idx)

def MapEntry.default (cls idx holder : Nat) : MapEntry :=
  { cls := cls, idx := idx, holder := holder, lender := 0, offerTo := 0, lendOffer := false, offerTerm := 0, lentAt := 0, expiry := 0,
    mkey := 0 }

/-- The map's entry of a resource (R284); before the endowment nobody holds anything, then owner 1 holds the rest (R297). -/
def Ownership.entry (o : Ownership) (cls idx : Nat) : MapEntry :=
  (o.entries.find? fun e => e.cls == cls && e.idx == idx).getD (.default cls idx (boolNat o.endowed))

/-- The map with one entry replaced. -/
def Ownership.setEntry (o : Ownership) (e : MapEntry) : Ownership :=
  { o with entries := e :: o.entries.filter fun f => !(f.cls == e.cls && f.idx == e.idx) }

def Ownership.holder (o : Ownership) (cls idx : Nat) : Nat := (o.entry cls idx).holder

/-- Owner n's record. -/
def Ownership.owner? (o : Ownership) (n : Nat) : Option OwnerRec := o.owners.find? fun r => r.num == n

/-- Owner n's record, or one with every register 0 where the owner does not exist. -/
def Ownership.ownerOr (o : Ownership) (n : Nat) : OwnerRec := (o.owner? n).getD { OwnerRec.fresh n 0 with live := false }

def Ownership.isLive (o : Ownership) (n : Nat) : Bool := (o.ownerOr n).live

/-- Owner n's record changed; the page of a number that no owner has had has registers too (R288). -/
def Ownership.updOwner (o : Ownership) (n : Nat) (f : OwnerRec → OwnerRec) : Ownership :=
  { o with owners :=
      if (o.owner? n).isSome then updFirst (fun r => r.num == n) f o.owners else o.owners ++ [f { OwnerRec.fresh n 0 with live := false }] }

/-! ### The walk (R100 to R103) -/

/-- KIND of a fault record (R307). -/
def Access.kind : Access → Nat
  | .load => 0 | .store => 1 | .atomic => 2 | .fetch => 3 | .engineRead => 4 | .engineWrite => 5 | .walker => 6
  | .dispatcher => 7

/-- PTE fields (R101). -/
def pteV (e : Word) : Bool := bitAt e 0
def pteR (e : Word) : Bool := bitAt e 1
def pteW (e : Word) : Bool := bitAt e 2
def pteX (e : Word) : Bool := bitAt e 3
def pteA (e : Word) : Bool := bitAt e 5
def pteD (e : Word) : Bool := bitAt e 6
def ptePin (e : Word) : Bool := bitAt e 7
def pteMig (e : Word) : Bool := bitAt e 8
def pteRepl (e : Word) : Bool := bitAt e 9
def pteRemote (e : Word) : Bool := bitAt e 10
def pteApl (e : Word) : Nat := field e 11 2
def ptePpn (e : Word) : Nat := field e 13 35

/-- Whether the access has the permissions of R102. -/
def permits (e : Word) : Access → Bool
  | .load | .engineRead | .walker | .dispatcher => pteR e
  | .store | .engineWrite => pteW e
  | .atomic => pteR e && pteW e
  | .fetch => pteX e

/-- Whether the access writes, so that its translation sets D as well as A (R102). -/
def Access.writes : Access → Bool
  | .store | .atomic | .engineWrite => true
  | .load | .fetch | .engineRead | .walker | .dispatcher => false

/-- The bytes that a leaf of a level maps (R100). -/
def pageBytes (level : Nat) : Nat := 2^(13 + 10 * level)

/-- Whether an entry read at a level points to the next table (R101). -/
def isPointer (e : Word) : Bool := !pteR e && !pteW e && !pteX e

/-- The cases of R103 that need no remote window. -/
def malformed (e : Word) (level : Nat) : Bool :=
  field e 48 16 != 0 || bitAt e 4 || (pteW e && !pteR e)
    || (if isPointer e then
          level == 0 || !backed (ptePpn e * 2^13) || pteA e || pteD e || pteApl e != 0 || pteRemote e || pteRepl e || pteMig e
            || ptePin e
        else
          level == 3 || (!pteRemote e && ptePpn e % 2^(10 * level) != 0) || (pteRemote e && pteRepl e)
            || (pteRemote e && field e 25 23 != 0) || (pteRepl e && (level != 0 || ptePpn e / 256 % 4 != 0)))

/-- A leaf found by a walk: the entry, the address it lies at (none for a kept one), its level. -/
structure Leaf where
  entry : Word
  loc   : Option Nat
  level : Nat
  deriving DecidableEq, Repr

/-- The walk from a table at a level (R100): none where it meets an entry with V = 0 or a malformed one. -/
def walkFrom (m : Memory) (va : Word) : (level : Nat) → (table : Nat) → Option Leaf
  | 0, table =>
    let loc := table + field va 13 10 * 8
    let e := wd (readLE m loc 8)
    if !pteV e || malformed e 0 then none else some ⟨e, some loc, 0⟩
  | level + 1, table =>
    let loc := table + field va (13 + 10 * (level + 1)) 10 * 8
    let e := wd (readLE m loc 8)
    if !pteV e || malformed e (level + 1) then none
    else if isPointer e then walkFrom m va level (ptePpn e * 2^13)
    else some ⟨e, some loc, level + 1⟩

/-- An entry of a remote-window table (R112). -/
structure RemoteWindow where
  lbase : Nat
  size  : Nat
  rbase : Nat
  node  : Nat
  deriving DecidableEq, Repr

def remoteWindow (m : Memory) (rwtab rwi : Nat) : RemoteWindow :=
  let a := rwtab + 32 * rwi
  { lbase := readLE m a 8 % 2^53, size := readLE m (a + 8) 8 % 2^53, rbase := readLE m (a + 16) 8 % 2^53,
    node := readLE m (a + 24) 8 % 2^11 }

/-- Whether a window contains a 53-bit address (R103, R112). -/
def RemoteWindow.holds (w : RemoteWindow) (va : Nat) : Bool := w.size != 0 && w.lbase ≤ va && va < w.lbase + w.size

/-- What a translation found. -/
inductive Found where
  /-- A physical address of this module, or of host space. -/
  | at (pa : Nat) (leaf : Leaf)
  /-- A remote window's module and address, with the window's last address (R112). -/
  | remote (node : Nat) (addr : Word) (last : Nat) (leaf : Leaf)
  /-- No valid entry: a PAGE case with a fault record (R306). -/
  | page
  /-- The permission is lacking: a PERM case with a fault record; the leaf says whether the page is a PIN page. -/
  | perm (leaf : Leaf)
  /-- The leaf is being moved: the access is held (R104). -/
  | held
  /-- A valid leaf maps to an unbacked address (R97). -/
  | unbacked
  deriving DecidableEq, Repr

/-- The meaning of a leaf for an access at va (R101 to R104, R112). -/
def resolve (m : Memory) (rwtab : Nat) (va : Word) (acc : Access) (l : Leaf) : Found :=
  let off := va.toNat % pageBytes l.level
  if pteRemote l.entry then
    let w := remoteWindow m rwtab (field l.entry 13 12)
    let v := va.toNat % 2^53
    if !w.holds v then .page
    else if !permits l.entry acc then .perm l
    else if pteMig l.entry then .held
    else .remote w.node (addr53 (BitVec.ofNat 53 (w.rbase + (v - w.lbase)))) (w.lbase + w.size - 1) l
  else if !permits l.entry acc then .perm l
  else if pteMig l.entry then .held
  else
    let pa := ptePpn l.entry * 2^13 + off
    if backed pa || hostSpace pa then .at pa l else .unbacked

/-- The leaf that a walk of owner o's tables finds for va. [DEDUCED log 22] -/
def leafOf (ms : MemSystem) (o : OwnerRec) (va : Word) : Option Leaf := walkFrom ms.mem va 3 o.troot

/-- The translation of a canonical address for owner o (R100 to R105): the tables as they stand or, where one is kept and
differs, the superseded entry, as the spec leaves open until the flush. -/
def translate (ms : MemSystem) (tick : Nat) (o : OwnerRec) (va : Word) (acc : Access) : Found :=
  let page := va.toNat % 2^53 / 2^13
  let fresh := leafOf ms o va
  let kept := ms.kept.find? fun k => k.owner == o.num && k.page == page
  let used := match kept with
    | none => fresh
    | some k =>
      match fresh with
      | some l =>
        if l.entry ||| 0x60 = k.entry ||| 0x60 then fresh
        else if Config.staleTranslation tick page then some ⟨k.entry, none, k.level⟩ else fresh
      | none => if Config.staleTranslation tick page then some ⟨k.entry, none, k.level⟩ else none
  match used with
  | none => .page
  | some l => resolve ms.mem o.rwtab va acc l

/-- Memory after a translation's update of A and D, at the entry's home (R102), with the translation kept (R105). -/
def markUsed (ms : MemSystem) (o : OwnerRec) (va : Word) (acc : Access) (l : Leaf) : MemSystem :=
  let e := l.entry ||| 0x20 ||| (if acc.writes then 0x40 else 0)
  let page := va.toNat % 2^53 / 2^13
  let kept : Kept := { owner := o.num, page := page, entry := e, level := l.level, named := false }
  let old := ms.kept.find? fun k => k.owner == o.num && k.page == page
  { ms with
    mem := match l.loc with
      | none => ms.mem
      | some a => if e = l.entry then ms.mem else writeLE ms.mem a 8 e.toNat
    kept := match old with | none => kept :: ms.kept | some _ => ms.kept }

/-! ### Writes at their place -/

/-- A page move's source range (R330). -/
def PageMove.covers (v : PageMove) (pa : Nat) : Bool :=
  let n := if v.large then 2^23 else 2^13
  v.src ≤ pa && pa < v.src + n

/-- Whether accesses to pa are held for a page move that copies (R331). -/
def MemSystem.movingAt (ms : MemSystem) (pa : Nat) : Bool := ms.move.busy && ms.move.covers pa

/-- Where an access with a physical address is performed: after a move's copy, until DONE is cleared, the old home forwards
it to the new one (R331). -/
def MemSystem.homeAddr (ms : MemSystem) (pa : Nat) : Nat :=
  if ms.move.done && !ms.move.busy && ms.move.covers pa then pa - ms.move.src + ms.move.dst else pa

/-- A place as accesses reach it: the new home of a page whose old home forwards (R331). -/
def Found.homed (ms : MemSystem) : Found → Found
  | .at pa l => .at (ms.homeAddr pa) l
  | f => f

/-- Memory after bytes are accepted at their home: a location that a launch reads as invariant is then broken (R111). -/
def MemSystem.put (ms : MemSystem) (pa : Nat) (bs : List Byte) : MemSystem :=
  let a := ms.homeAddr pa
  let hit := fun (q : Nat × Nat) => decide (a ≤ q.2) && decide (q.2 < a + bs.length)
  { ms with
    mem := writeBytes ms.mem a bs
    promised := ms.promised.filter fun q => !hit q
    broken := ms.broken ++ ms.promised.filter hit }

/-- The four copies of an address on a replicated page (R110). -/
def copiesOf (pa : Nat) : List Nat := [pa, pa + 2^21, pa + 2 * 2^21, pa + 3 * 2^21]

/-- An update applied to every copy of a replicated page (R126). -/
def MemSystem.putCopies (ms : MemSystem) (pa : Nat) (bs : List Byte) : MemSystem :=
  (copiesOf pa).foldl (fun m a => m.put a bs) ms

/-- Every pending update committed, in the sequencer's order (R126). [DEDUCED log 20] -/
def MemSystem.commitAll (ms : MemSystem) : MemSystem :=
  ms.pending.foldl (fun m u => m.putCopies u.pa u.data) { ms with pending := [] }

/-- The exclusively held lines that p accepts recalled to home with their contents; each is an ordinary line of its cluster's cache
from then on (R98). -/
def MemSystem.recallAll (ms : MemSystem) (p : Nat × Nat → Bool) : MemSystem :=
  match ms.excl.filter p with
  | [] => ms
  | es => { ms with
    excl := ms.excl.filter fun e => !p e
    ccache := ms.ccache.map fun c =>
      if es.contains (c.2.addr, c.1) then (c.1, { c.2 with data := readBytes ms.mem (ms.homeAddr c.2.addr) 64 }) else c }

/-- A line recalled to home from the cluster that holds it exclusively (R98). -/
def MemSystem.recall (ms : MemSystem) (pa : Nat) : MemSystem := ms.recallAll fun e => e.1 == lineOf pa

/-- A line recalled unless the cluster itself holds it. -/
def MemSystem.recallFrom (ms : MemSystem) (cluster pa : Nat) : MemSystem :=
  ms.recallAll fun e => e.1 == lineOf pa && e.2 != cluster

def MemSystem.heldBy (ms : MemSystem) (cluster pa : Nat) : Bool := ms.excl.contains (lineOf pa, cluster)

/-- A line gone from a cluster's cache (R98). -/
def MemSystem.invalidate (ms : MemSystem) (cluster pa : Nat) : MemSystem :=
  { ms with ccache := ms.ccache.filter fun e => !(e.1 == cluster && e.2.addr == lineOf pa) }

/-- A line gone from the scriptorium's caches, and with it a core's reservation of it, by the hub die's directory (R119, R130). -/
def Scriptorium.invalidate (c : Scriptorium) (pa : Nat) : Scriptorium :=
  { c with
    lines := c.lines.filter fun l => l != lineOf pa
    dirty := c.dirty.filter fun d => d.1 != lineOf pa
    reserved := c.reserved.filter fun q => q.2 != lineOf pa }

/-- Whether a replicated line has an update that not every copy holds (R126). -/
def MemSystem.pendingAt (ms : MemSystem) (pa n : Nat) : Bool :=
  ms.pending.any fun u => lineOf u.pa ≤ pa + n - 1 && pa ≤ lineOf (u.pa + u.data.length - 1) + 63

/-- Every line of a range recalled to home (R98). -/
def MemSystem.recallRange (ms : MemSystem) (pa n : Nat) : MemSystem :=
  ms.recallAll fun e => decide (lineOf pa ≤ e.1) && decide (e.1 < pa + n)

/-- Every line of a range gone from the scriptorium's caches. -/
def Scriptorium.invalidateRange (c : Scriptorium) (pa n : Nat) : Scriptorium :=
  { c with
    lines := c.lines.filter fun l => !(lineOf pa ≤ l && l < pa + n)
    dirty := c.dirty.filter fun d => !(lineOf pa ≤ d.1 && d.1 < pa + n)
    reserved := c.reserved.filter fun q => !(lineOf pa ≤ q.2 && q.2 < pa + n) }

/-- The lines of an address and of its copies gone from the scriptorium's caches. -/
def Scriptorium.dropCopies (c : Scriptorium) (pa n : Nat) : Scriptorium :=
  (copiesOf pa).foldl (fun c a => c.invalidateRange a n) c

/-- Every pending update of the replicated pages committed, in the sequencer's order; no scriptorium cache keeps a line of one (R119, R126,
R130). [DEDUCED log 20] -/
def State.commitAll (s : State) : State :=
  { s with ms := s.ms.commitAll, scr := s.ms.pending.foldl (fun c u => c.dropCopies u.pa u.data.length) s.scr }

end Sys2Proof.Machine
end

