-- ==== Sys2Proof/Machine/Ops.lean ====
section
/-! DEFINITION. The named operations every meaning is built from: registers, focus, error records (R310), the stop of a
launch (R313), taking an exception (R303 to R305, R309) and the return from one (R304), fault records (R306 to R308) and the
translation of an access of the issuing context. -/

namespace Sys2Proof.Machine

open Sys2Proof

/-- The outcome of every meaning. -/
abbrev Out := Host.Outcome State Fault Refusal

/-! ### Registers (R139) -/

/-- X[r]: x0 reads zero. -/
def State.x (s : State) (r : Reg) : Word := if r = 0 then 0 else s.cx.x[r]

/-- The state after X[d] is written: a write to x0 is discarded. -/
def State.setX (s : State) (d : Reg) (w : Word) : State :=
  if d = 0 then s else { s with cx := { s.cx with x := s.cx.x.set d w } }

/-- P[g]: p0 reads all ones. -/
def State.p (s : State) (g : Fin 8) : PReg := if g = 0 then BitVec.allOnes 64 else s.cx.p[g]

/-- The state after P[d] is written: a write to p0 is discarded. -/
def State.setP (s : State) (d : Fin 8) (w : PReg) : State :=
  if d = 0 then s else { s with cx := { s.cx with p := s.cx.p.set d w } }

/-- The address of the instruction being executed: under a solo prefix, the word after it (R52). [DEDUCED log 17] -/
def State.insnPc (s : State) : Word := if s.cx.pair then s.cx.pc + 4 else s.cx.pc

/-- The context after an instruction completed with the next one at pc: its wait is over and a solo pair is closed. -/
def Context.settled (c : Context) (pc : Word) : Context :=
  { c with pc := pc, wait := .none, remain := none, answer := none, lanes := [], fetched := [], toPost := [], pair := false }

/-- The state after the instruction completed and the next one follows it. A solo pair counts as one instruction of two
words, and as one more pair of its rank (R52, R53). -/
def State.advance (s : State) : State :=
  if s.cx.pair then
    { s with
      cx := s.cx.settled (s.cx.pc + 8)
      rk := { s.rk with solo := { s.rk.solo with count := s.rk.solo.count + 1 } } }
  else { s with cx := s.cx.settled (s.cx.pc + 4) }

/-- The state after a taken branch or jump. -/
def State.goTo (s : State) (pc : Word) : State := { s with cx := s.cx.settled pc }

/-- The state while the instruction waits: PC names it still, so that it is issued again (R341). -/
def State.waitFor (s : State) (w : Wait) : State := { s with cx := { s.cx with wait := w } }

def State.setCr (s : State) (f : CtxRegs → CtxRegs) : State := { s with cx := { s.cx with cr := f s.cx.cr } }

/-- Whether the context is the control context of its rank (R44). -/
def State.isControl (s : State) : Bool := s.cx.num == 0

/-- The owner whose launch the rank belongs to (R144). -/
def State.owner (s : State) : Nat := s.rk.id.owner.toNat

/-! ### Contexts, ranks and cores out of focus -/

def Rank.is (r : Rank) (k : RankKey) (run : Nat) : Bool := r.key == k && r.run == run

/-- The rank in focus with all its contexts. -/
def State.wholeRank (s : State) : Rank := { s.rk with ctxs := s.rk.ctxs ++ [s.cx] }

/-- Every rank that has not ended. -/
def State.liveRanks (s : State) : List Rank :=
  if s.rk.state = .ended then s.ranks else s.wholeRank :: s.ranks

def State.rank? (s : State) (k : RankKey) (run : Nat) : Option Rank := s.liveRanks.find? fun r => r.is k run

/-- The live rank of a key, of either run, that p accepts. -/
def State.runWhere (s : State) (k : RankKey) (p : Rank → Bool) : Option Rank := s.liveRanks.find? fun r => r.key == k && p r

/-- Whether a rank is held on a core (R48). -/
def Rank.onCore (core : Nat) (r : Rank) : Bool := r.core == core && r.state != .ended && r.state != .saved

/-- The state with f applied to a rank; where it is the one in focus, its context in focus is not among `ctxs`. -/
def State.updRank (s : State) (k : RankKey) (run : Nat) (f : Rank → Rank) : State :=
  if s.rk.is k run && s.rk.state != .ended then { s with rk := f s.rk }
  else { s with ranks := updFirst (fun r => r.is k run) f s.ranks }

/-- The state with f applied to every rank that p accepts. -/
def State.updRanks (s : State) (p : Rank → Bool) (f : Rank → Rank) : State :=
  { s with
    rk := if p s.rk && s.rk.state != .ended then f s.rk else s.rk
    ranks := s.ranks.map fun r => if p r then f r else r }

def State.ctx? (s : State) (k : RankKey) (run n : Nat) : Option Context :=
  (s.rank? k run).bind fun r => r.ctxs.find? fun c => c.num == n

/-- The state with f applied to a context. -/
def State.updCtx (s : State) (k : RankKey) (run n : Nat) (f : Context → Context) : State :=
  if s.rk.is k run && s.rk.state != .ended && s.cx.num == n then { s with cx := f s.cx }
  else s.updRank k run fun r => { r with ctxs := updFirst (fun c => c.num == n) f r.ctxs }

/-- The state with f applied to every context of the ranks that p accepts. -/
def State.updCtxs (s : State) (p : Rank → Bool) (f : Context → Context) : State :=
  let t := s.updRanks p fun r => { r with ctxs := r.ctxs.map f }
  if p s.rk && s.rk.state != .ended then { t with cx := f t.cx } else t

def State.coreAt (s : State) (n : Nat) : Core :=
  if s.co.num = n then s.co else (s.cores.find? fun c => c.num == n).getD { Core.reset n with cycle := s.fab.clock }

/-- The state with f applied to a core. -/
def State.updCore (s : State) (n : Nat) (f : Core → Core) : State :=
  if s.co.num = n then { s with co := f s.co }
  else { s with cores := f (s.coreAt n) :: s.cores.filter fun c => c.num != n }

/-- The state with another core in focus. -/
def State.focusCore (s : State) (n : Nat) : State :=
  if s.co.num = n then s
  else { s with co := s.coreAt n, cores := s.co :: s.cores.filter fun c => c.num != n }

/-- The state with context n of a rank in focus: none where no such context lives. The context that leaves the focus goes
to the end of its rank's list, so that contexts issue round-robin (R58). -/
def State.focusOn (s : State) (k : RankKey) (run n : Nat) : Option State :=
  if s.rk.is k run && s.rk.state != .ended then
    if s.cx.num = n then some s
    else
      match s.rk.ctxs.find? fun c => c.num == n with
      | none => none
      | some c => some { s with cx := c, rk := { s.rk with ctxs := (removeFirst (fun c => c.num == n) s.rk.ctxs) ++ [s.cx] } }
  else
    match s.ranks.find? fun r => r.is k run with
    | none => none
    | some r =>
      match r.ctxs.find? fun c => c.num == n with
      | none => none
      | some c =>
        let rest := s.ranks.filter fun q => !q.is k run
        let t := s.focusCore r.core
        some { t with
          cx := c
          rk := { r with ctxs := removeFirst (fun c => c.num == n) r.ctxs }
          ranks := if s.rk.state = .ended then rest else rest ++ [s.wholeRank] }

/-- f of the state seen from a context, the focus as before afterwards where its context still lives. -/
def State.inContext (s : State) (k : RankKey) (run n : Nat) (f : State → State) : State :=
  if s.rk.is k run && s.rk.state != .ended && s.cx.num == n then f s
  else
    match s.focusOn k run n with
    | none => s
    | some t =>
      let u := f t
      if s.rk.state = .ended then u else (u.focusOn s.rk.key s.rk.run s.cx.num).getD u

/-! ### The end of a halt (R57, R285) -/

/-- A time that a timeout counts from, moved on by the part of a halt, from one time to another, that lies after it (R57). -/
def pastHalt (start now since : Nat) : Nat := since + (now - Nat.max start since)

/-- The limit of a wait moved on by the part of a halt that it has waited through (R57). [DEDUCED log 37] -/
def Wait.delayed (start now : Nat) : Wait → Wait
  | .retry l va => .retry (l + (now - start)) va
  | .reoffer l va => .reoffer (l + (now - start)) va
  | .recordRing w => .recordRing { w with since := pastHalt start now w.since }
  | .host pa va since => .host pa va (pastHalt start now since)
  | w => w

/-- How long a core that halted at a time has stood so within the loan of a resource of its (R285). -/
def MapEntry.haltedPart (e : MapEntry) (since now : Nat) : Nat := now - Nat.max since e.lentAt

/-- The term of a loan moved on by the time that the lent resource's core stood halted (R57, R285). -/
def Ownership.extendLoan (o : Ownership) (cls idx since now : Nat) : Ownership :=
  let e := o.entry cls idx
  if e.lender = 0 then o else o.setEntry { e with expiry := e.expiry + e.haltedPart since now }

/-- The number of no context. -/
def noContext : Nat := 16

/-- The issuing context of a request, if a context issued it. -/
def Issuer.context? : Issuer → Option (RankKey × Nat × Nat)
  | .load k run n | .fullEmpty k run n | .store k run n | .multicast k run n => some (k, run, n)
  | .leg _ => none
  | .copy .. => none

/-- The time up to which the limits of a rank's contexts have counted: on a halted core, its halt, or when the rank came to it (R57). -/
def State.clockOf (s : State) (r : Rank) : Nat :=
  let c := s.coreAt r.core
  if c.halted then Nat.max c.haltedAt r.since else s.time

/-- Whether a rank stands on a halted core: the timeouts of its contexts are suspended (R57). -/
def State.haltedRank (s : State) (k : RankKey) (run : Nat) : Bool :=
  match s.rank? k run with
  | none => false
  | some r => r.onCore r.core && (s.coreAt r.core).halted

/-- Every timeout of a rank's contexts moved on by the part of the halt of its core that it stood there: of their waits, records, engine
commands, collectives and requests (R57). [DEDUCED log 37] -/
def State.resumeTimes (s : State) (r : Rank) : State :=
  let c := s.coreAt r.core
  if !c.halted then s
  else
    let h := Nat.max c.haltedAt r.since
    let later := fun (w : RingWait) => { w with since := pastHalt h s.time w.since }
    let t := s.updCtxs (fun q => q.is r.key r.run) fun x => { x with wait := x.wait.delayed h s.time, toPost := x.toPost.map later }
    let t := t.updRank r.key r.run fun q => { q with since := s.time }
    { t with
      disp := { t.disp with
        records := t.disp.records.map fun f => match f.who with
          | some (k, run, _) => if r.is k run then { f with posted := pastHalt h s.time f.posted } else f
          | none => f }
      eng := { t.eng with
        copies := t.eng.copies.map fun x => if r.is x.key x.run then { x with ring := x.ring.map later } else x }
      fab := { t.fab with
        colls := t.fab.colls.map fun x => if r.is x.key x.run then { x with ring := x.ring.map later } else x
        requests := t.fab.requests.map fun q => match q.issuer.context? with
          | some (k, run, _) => if r.is k run then { q with deadline := q.deadline + (s.time - Nat.max h q.time) } else q
          | none => q } }

/-- A core that stood halted does so no more: every timeout of its contexts, and the loan terms of the core and its helper slots, go on
from their remaining values (R57, R285). [DEDUCED log 37] -/
def State.endHalt (s : State) (core : Nat) : State :=
  let c := s.coreAt core
  if !c.halted then s
  else
    let t := (s.liveRanks.filter (Rank.onCore core)).foldl State.resumeTimes s
    let t := t.updCore core fun c => { c with halted := false }
    { t with
      own := ((List.range 10).map fun h => (0x02, 10 * core + h)).foldl (fun o q => o.extendLoan q.1 q.2 c.haltedAt s.time)
        (t.own.extendLoan 0x01 core c.haltedAt s.time) }

/-! ### The cause codes (R317) and error classes (R312, R334, R342) -/

def Cause.illegal : BitVec 8 := 0x01
def Cause.misalign : BitVec 8 := 0x02
def Cause.page : BitVec 8 := 0x03
def Cause.perm : BitVec 8 := 0x04
def Cause.unbacked : BitVec 8 := 0x05
def Cause.tileState : BitVec 8 := 0x06
def Cause.tileAlloc : BitVec 8 := 0x07
def Cause.operand : BitVec 8 := 0x08
def Cause.resource : BitVec 8 := 0x09
def Cause.limit : BitVec 8 := 0x0A
def Cause.mxCombo : BitVec 8 := 0x0B
def Cause.mxOvf : BitVec 8 := 0x0C
def Cause.feWait : BitVec 8 := 0x0D
def Cause.fabric : BitVec 8 := 0x0E
def Cause.brk : BitVec 8 := 0x0F
def Cause.trap : BitVec 8 := 0x10
def Cause.nested : BitVec 8 := 0x11
def Cause.solo : BitVec 8 := 0x12

def Err.noHandler : BitVec 8 := 0x01
def Err.faultLock : BitVec 8 := 0x02
def Err.faultDeny : BitVec 8 := 0x03
def Err.launchBad : BitVec 8 := 0x04
def Err.deadline : BitVec 8 := 0x05
def Err.dualRun : BitVec 8 := 0x06
def Err.bindRefused : BitVec 8 := 0x07
def Err.rungRan : BitVec 8 := 0x08
def Err.loanRet : BitVec 8 := 0x09
def Err.saveFail : BitVec 8 := 0x0A
def Err.mxStart : BitVec 8 := 0x20
def Err.cpFault : BitVec 8 := 0x21
def Err.graphFault : BitVec 8 := 0x22
def Err.moveBad : BitVec 8 := 0x23
def Err.linkDown : BitVec 8 := 0x24
def Err.late : BitVec 8 := 0x25
def Err.remote : BitVec 8 := 0x26
def Err.collFault : BitVec 8 := 0x27
def Err.lease : BitVec 8 := 0x28
def Err.hostWrite : BitVec 8 := 0x29
def Err.hostAccess : BitVec 8 := 0x2A
def Err.vfDisable : BitVec 8 := 0x2B
def Err.scrCache : BitVec 8 := 0x2C
def Err.fwBound : BitVec 8 := 0x2D

/-- The classes that R342 copies to the host error ring. -/
def Err.toHost (c : BitVec 8) : Bool :=
  c == Err.linkDown || c == Err.lease || c == Err.hostWrite || c == Err.hostAccess || c == Err.vfDisable
    || c == Err.scrCache || c == Err.fwBound

/-- A resource descriptor (R235). -/
def descriptor (cls idx : Nat) : Word := wd (cls * 2^56 + idx)

/-! ### The access log (R293) -/

/-- The count of one more access of an agent to an enabled range in the interval that begins at a time. -/
def LogState.count (l : LogState) (start slot granule agent owner op : Nat) : LogState :=
  let same := fun (t : LogTuple) =>
    t.start == start && t.slot == slot && t.granule == granule && t.agent == agent && t.owner == owner && t.op == op
  match l.tuples.find? same with
  | some _ => { l with tuples := updFirst same (fun t => { t with count := Nat.min (t.count + 1) (2^32 - 1) }) l.tuples }
  | none => { l with tuples := l.tuples ++ [⟨start, slot, granule, agent, owner, op, 1⟩] }

def Watch.base (w : Watch) : Nat := field w.cfg 13 35 * 2^13
def Watch.bytes (w : Watch) : Nat := field w.cfg 0 13 * 2^13
def Watch.enabled (w : Watch) : Bool := bitAt w.cfg 63

/-- The partitions whose plots a slot watches. -/
def State.watched (s : State) (w : Watch) : List Nat :=
  (List.range (plotOf (w.base + w.bytes - 1) + 1 - plotOf w.base)).foldl
    (fun l i => setAdd (s.own.holder 0x03 (plotOf w.base + i)) l) []

/-- The slots that watch ranges of a partition's plots: 64 at most, the lowest. [DESIGN CHOICE log 66] -/
def State.watchers (s : State) (owner : Nat) : List Watch :=
  (((List.range 4096).filterMap fun n => s.log.watches.find? fun w => w.num == n).filter fun w =>
    w.enabled && (s.watched w).contains owner).take 64

/-- The state after an access of an agent (0 to 5 by R113, 6 scriptorium, 7 host, 8 peer) is logged; op is 0 read, 1 write,
2 atomic, 3 fetch, 4 engine. [DESIGN CHOICE log 65] -/
def State.logAccess (s : State) (agent owner op pa : Nat) : State :=
  if s.log.watches.isEmpty then s
  else
    let hit := (s.watchers (s.own.holder 0x03 (plotOf pa))).filter fun w =>
      w.ops.toNat.testBit op && w.base ≤ pa && pa < w.base + w.bytes
    { s with log := hit.foldl (fun l w => l.count (s.time / 1000 * 1000) w.num ((pa - w.base) / 2^13) agent owner op) s.log }

/-- An access logged, on a replicated page in each of its copies (R110, R293). [DESIGN CHOICE log 65] -/
def State.logCopies (s : State) (repl : Bool) (agent owner op pa : Nat) : State :=
  if repl then (copiesOf pa).foldl (fun t a => t.logAccess agent owner op a) s else s.logAccess agent owner op pa

/-- The class of the agent whose access a translation serves (R113, R293). [DESIGN CHOICE log 65] -/
def Access.agent : Access → Nat
  | .load | .store | .atomic | .fetch => 0
  | .engineRead | .engineWrite => 1
  | .walker => 5
  | .dispatcher => Config.dispatcherAgent

/-- The entries that a walk reads, from a table at a level on. -/
def walkReads (m : Memory) (va : Word) : (level : Nat) → (table : Nat) → List Nat
  | 0, table => [table + field va 13 10 * 8]
  | level + 1, table =>
    let loc := table + field va (13 + 10 * (level + 1)) 10 * 8
    let e := wd (readLE m loc 8)
    if !pteV e || malformed e (level + 1) || !isPointer e then [loc] else loc :: walkReads m va level (ptePpn e * 2^13)

/-- The walk of a translation logged, where none is kept: its reads, and the update of A and D where it makes one (R102, R293).
[DESIGN CHOICE log 65] -/
def State.logWalk (s : State) (o : OwnerRec) (acc : Access) (va : Word) : State :=
  if s.log.watches.isEmpty || s.ms.kept.any fun k => k.owner == o.num && k.page == va.toNat % 2^53 / 2^13 then s
  else
    let t := (walkReads s.ms.mem va 3 o.troot).foldl (fun t a => t.logAccess acc.agent o.num 0 a) s
    match leafOf s.ms o va with
    | some ⟨e, some a, _⟩ =>
      if permits e acc && e != e ||| 0x20 ||| (if acc.writes then 0x40 else 0) then t.logAccess acc.agent o.num 2 a else t
    | some ⟨_, none, _⟩ | none => t

/-! ### Fault queues and error records (R308, R310, R311) -/

/-- Where an owner's virtual address lies for a write of the hub die. -/
inductive PinPlace where
  /-- On no writable PIN page of this module. -/
  | bad
  /-- On a page that is being moved: the write is held (R104, R331). -/
  | held
  /-- At a physical address; `repl` says that the page is replicated. -/
  | at (pa : Nat) (repl : Bool)
  deriving DecidableEq, Repr

/-- What the next place in an owner's fault queue is (R308, R311). -/
inductive QueuePlace where
  /-- The queue's address does not translate to a writable PIN page. -/
  | bad
  /-- The ring holds no record, or is full. -/
  | none
  /-- A page of the queue is being moved. -/
  | held
  /-- Record `num`, at virtual address `va` and physical address `pa`. -/
  | some (num : Nat) (va : Word) (pa : Nat)
  deriving DecidableEq, Repr

/-- Where an owner's virtual address lies for a write of the hub die: only on a writable PIN page. -/
def pinAddr (ms : MemSystem) (tick : Nat) (o : OwnerRec) (va : Word) : PinPlace :=
  if canonical va then
    match (translate ms tick o va .store).homed ms with
    | .at pa l =>
      if !(ptePin l.entry && backed pa) then .bad else if ms.movingAt pa then .held else .at pa (pteRepl l.entry)
    | .held => .held
    | .remote .. | .page | .perm .. | .unbacked => .bad
  else .bad

/-- The next place of owner o's fault queue. -/
def queuePlace (ms : MemSystem) (tick : Nat) (o : OwnerRec) : QueuePlace :=
  let q := addr53 o.faultq
  match pinAddr ms tick o q with
  | .bad => .bad
  | .held => .held
  | .at h _ =>
    let put := readLE ms.mem h 4
    let get := readLE ms.mem (h + 8) 4
    let log := readLE ms.mem (h + 16) 1 % 16
    if log = 0 || 13 ≤ log || 2^log ≤ (put + 2^32 - get) % 2^32 then .none
    else
      let va := q + wd (64 + 64 * (put % 2^log))
      match pinAddr ms tick o va with
      | .bad => .bad
      | .held => .held
      | .at pa _ => .some (put + 1) va pa

/-- The state in which the hub die reads an owner's fault queue: on a replicated page, once every pending update is committed (R126). -/
def State.atQueue (s : State) (o : OwnerRec) : State :=
  match pinAddr s.ms s.tick o (addr53 o.faultq) with
  | .at _ true => s.commitAll
  | .at _ false | .bad | .held => s

/-- A and D set in the leaf through which a record is written (R102). -/
def markPin (ms : MemSystem) (tick : Nat) (o : OwnerRec) (va : Word) : MemSystem :=
  match translate ms tick o va .store with
  | .at _ l => markUsed ms o va .store l
  | .remote .. | .page | .perm .. | .held | .unbacked => ms

/-- The hub die's write to an owner's PIN page, at home or, on a replicated page, in every copy (R110); its leaf has A and D set. -/
def State.writePin (s : State) (o : OwnerRec) (va : Word) (bs : List Byte) : State :=
  match pinAddr s.ms s.tick o va with
  | .bad | .held => s
  | .at pa repl =>
    let ms := markPin s.ms s.tick o va
    let t := if repl then { s with ms := ms.putCopies pa bs, scr := s.scr.dropCopies pa bs.length }
      else { s with ms := (ms.recallRange pa bs.length).put pa bs, scr := s.scr.invalidateRange pa bs.length }
    t.logCopies repl Config.dispatcherAgent o.num 1 pa

/-- Record `num` written at its place in owner o's fault queue, and PUT raised (R308). -/
def State.putRecord (s : State) (o : OwnerRec) (num : Nat) (va : Word) (words : List Nat) : State :=
  (s.writePin o va (words.flatMap fun w => leBytes 8 w)).writePin o (addr53 o.faultq) (leBytes 4 (num % 2^32))

/-- The eight words of an error record (R310). -/
def ErrRec.words (e : ErrRec) : List Nat :=
  [0xFF + 256 * e.cls.toNat + 2^16 * e.rung + 2^23 * boolNat e.dropped, e.time,
    e.owner % 2^12 + 2^16 * (e.core % 2^11) + 2^32 * (e.ctx % 16) + 2^48 * (e.queue % 2^12), e.addr.toNat, e.val1.toNat,
    e.val2.toNat, e.num % 2^32, 0]

/-- The virtual functions of an owner that are live (R281). -/
def State.liveVfs (s : State) (o : Nat) : List VFunc :=
  let p := s.host.ports[if s.host.active then (1 : Fin 2) else 0]
  s.host.vfs.filter fun v => v.owner == o && v.owner != 0 && p.vfEnable

/-- The lowest-numbered live VF of an owner, which its device accesses leave as (R280); 0 where there is none. -/
def State.lowestVf (s : State) (o : Nat) : Nat :=
  match (s.liveVfs o).map VFunc.num with
  | [] => 0
  | v :: r => r.foldl Nat.min v

/-- MSI-X vector v of a VF fires on the active port, or is held while the lease has expired (R280, R349). -/
def State.fireMsix (s : State) (vfs : List VFunc) (v : Nat) : State :=
  let m := vfs.map fun f => (f.num, v)
  if s.host.leased then { s with host := { s.host with msix := s.host.msix ++ m } }
  else { s with host := { s.host with heldMsix := s.host.heldMsix ++ m } }

/-- The host error ring of the active port takes a record, at its place from ERRBASE on, or counts it as lost (R281); while the lease has
expired it is held (R349). -/
def State.hostCopy (s : State) (e : ErrRec) : State :=
  if !s.host.leased then { s with host := { s.host with heldErrs := s.host.heldErrs ++ [e] } }
  else
    let k : Fin 2 := if s.host.active then 1 else 0
    let p := s.host.ports[k]
    let log := p.errCtl.toNat % 16
    if p.errCtl.toNat.testBit 31 && log != 0 && log ≤ 12 && (p.errHead - p.errTail).toNat < 2^log then
      { s with host := { s.host with
          ring := s.host.ring ++ [(p.errBase.toNat + 64 * (p.errHead.toNat % 2^log), e)]
          ports := s.host.ports.set k { p with errHead := p.errHead + 1 } } }
    else
      { s with host := { s.host with
          ports := s.host.ports.set k { p with errLost := if p.errLost = BitVec.allOnes 32 then p.errLost else p.errLost + 1 } } }

/-- The copy of an error record to an owner's fault queue: the state, and whether it was written, or will be (R311). A copy whose queue lies
on a page that is being moved is held until that is over (R104), and so is every later one of that owner. [DEDUCED log 122] -/
def State.ownerCopy (s : State) (o : Nat) (e : ErrRec) : State × Bool :=
  let r := s.own.ownerOr o
  let t := s.atQueue r
  let hold := { s with disp := { s.disp with heldCopies := s.disp.heldCopies ++ [(o, e)] } }
  if s.disp.heldCopies.any fun h => h.1 == o then (hold, true)
  else
    match queuePlace t.ms t.tick r with
    | .bad | .none => (s, false)
    | .held => (hold, true)
    | .some num va _ =>
      let u := t.putRecord r num va e.words
      (u.fireMsix (u.liveVfs o) 1, true)

/-- A copy of a record was not written: the management copy tells of it (R311). -/
def State.markDropped (s : State) (num : Nat) : State :=
  { s with disp := { s.disp with errors := s.disp.errors.map fun e => if e.num == num then { e with dropped := true } else e } }

/-- One more copy of a record, whose management copy is there (R311). -/
def State.copyTo (s : State) (o : Nat) (e : ErrRec) : State :=
  let q := s.ownerCopy o e
  if q.2 then q.1 else q.1.markDropped e.num

/-- The held copies tried once more, in their order. [DEDUCED log 122] -/
def State.sendCopies (s : State) : State :=
  s.disp.heldCopies.foldl (fun t q => t.copyTo q.1 q.2) { s with disp := { s.disp with heldCopies := [] } }

/-- The state after an error record is written: to the management ring, to the owner's queue where it names one, and for
the classes of R342 to the host (R311). The management copy alone tells of an owner copy that was not written (R310). -/
def State.report (s : State) (e : ErrRec) : State :=
  let e := { e with time := s.time, num := s.disp.errNum + 1 }
  let (t, ok) := if e.owner = 0 then (s, true) else s.ownerCopy e.owner e
  let t := { t with disp := { t.disp with errors := t.disp.errors ++ [{ e with dropped := !ok }], errNum := e.num } }
  if Err.toHost e.cls then t.hostCopy e else t

/-- An error record with the fields that most classes leave zero. -/
def errRec (cls : BitVec 8) (owner : Nat) (addr val1 val2 : Word) : ErrRec :=
  { cls := cls, rung := 0, dropped := false, time := 0, owner := owner, core := 0, ctx := 0, queue := 0, addr := addr,
    val1 := val1, val2 := val2, num := 0 }

/-! ### The stop of a launch or a helper (R313 to R315) -/

/-- A context stopped at its boundary: its wait is withdrawn, its long-latency result discarded (R313). -/
def Context.stopped (c : Context) : Context :=
  { c with run := .stopped, wait := .none, remain := none, windows := [], answer := none, lanes := [], fetched := [], toPost := [], pair := false }

/-- The retry lists without the entries of the contexts that p accepts (R313: "waits are withdrawn"). -/
def withdrawRetry (l : List RetryEntry) (p : RankKey × Nat × Nat → Bool) : List RetryEntry :=
  l.filter fun e => match e.who with | none => true | some w => !p w

/-- Whether a fault record's waiter is a context of a launch. -/
def Waiter.isOf (l : Nat) : Waiter → Bool
  | .context k _ _ => k.launch == l
  | .channel _ | .dispatcher _ | .child _ | .coll _ => false

/-- Whether a waiter of a record is a copyist command. -/
def Waiter.isCopy (c : CopyCmd) (f : FaultRec) (w : Waiter) : Bool := c.record == some f.num && w == Waiter.channel c.chan

/-- Outstanding records without the waiters that p accepts. A record that nobody waits on any more stays in the queue, and its REPLY
is read with no effect (R327). [DEDUCED log 33] -/
def dropWaiters (p : FaultRec → Waiter → Bool) (fs : List FaultRec) : List FaultRec :=
  fs.map fun f => { f with waiters := f.waiters.filter fun w => !p f w.1 }

/-- Whether a copyist command of a launch stands at a boundary, where a stop ends it: not started, waiting on a fault, or away from its
channel with a rank that is switched out. -/
def CopyCmd.idleOf (l : Nat) (c : CopyCmd) : Bool :=
  c.key.launch == l && (!c.started || c.record.isSome || c.ring.isSome || 384 ≤ c.chan)

/-- Every rank of a launch stopped: waits withdrawn, blotters discarded, commands at a boundary dropped. -/
def State.stopLaunch (s : State) (l : Nat) : State :=
  let p := fun (r : Rank) => r.key.launch == l
  let t := s.updCtxs p Context.stopped
  let t := t.updRanks p fun r => { r with blotter := [], graphs := [], mx := { r.mx with queue := [] } }
  let gone := s.eng.copies.filter (CopyCmd.idleOf l)
  { t with
    ms := { t.ms with retry := withdrawRetry t.ms.retry fun w => w.1.launch == l }
    eng := { t.eng with copies := t.eng.copies.filter fun c => !c.idleOf l }
    disp := { t.disp with
      records := dropWaiters (fun f w => w.isOf l || gone.any fun c => w.isCopy c f) t.disp.records } }

/-- The halted cores that hold ranks of a launch run again: a rung acts on them (R314). -/
def State.unhalt (s : State) (l : Nat) : State :=
  (s.liveRanks.filter fun r => r.key.launch == l && r.onCore r.core).foldl (fun t r => t.endHalt r.core) s

/-- A launch stopped by a rung (R313). -/
def State.rungStop (s : State) (l : Nat) : State := (s.unhalt l).stopLaunch l

/-- One helper stopped, its held messages discarded, its records waited on no more; its core, if it stands halted, does so no more (R314). -/
def State.stopHelper (s : State) (k : RankKey) (run n : Nat) : State :=
  let t := match s.rank? k run with
    | some r => if r.onCore r.core then s.endHalt r.core else s
    | none => s
  let t := t.updCtx k run n Context.stopped
  let t := t.updRank k run fun r => { r with blotter := r.blotter.filter fun h => h.ctx != n }
  { t with
    ms := { t.ms with retry := withdrawRetry t.ms.retry fun w => w == (k, run, n) }
    disp := { t.disp with records := dropWaiters (fun _ w => w == Waiter.context k run n) t.disp.records } }

/-- A rung begins on its target (R313); its record is written when it ends. [DEDUCED log 105] -/
def State.startRung (s : State) (level : Nat) (target : RungTarget) : State :=
  { s with disp := { s.disp with
      rungs := s.disp.rungs ++ [{ num := s.disp.nextRung, level := level, target := target, start := s.time }]
      nextRung := s.disp.nextRung + 1 } }

/-- The context rung that hardware starts on the context in focus (R305, R309): on a control context it acts on the whole
launch, on a helper it ends that helper alone (R314). -/
def State.contextRungHere (s : State) : State :=
  if s.isControl then (s.rungStop s.rk.key.launch).startRung 2 (.launch s.rk.key.launch)
  else (s.stopHelper s.rk.key s.rk.run s.cx.num).startRung 2 (.helper s.rk.key s.rk.run s.cx.num)

/-! ### Taking an exception (R303 to R305, R309) -/

/-- A record of the context in focus. -/
def State.reportHere (s : State) (cls : BitVec 8) (addr val1 val2 : Word) : State :=
  s.report { errRec cls s.owner addr val1 val2 with core := s.co.num, ctx := s.cx.num }

/-- Fault-lock: the context issues nothing further, a FAULTLOCK record is written, the context rung runs (R309). [DEDUCED log 36] -/
def State.faultLock (s : State) (cause : BitVec 8) (addr : Word) : State :=
  let t := { s with cx := { s.cx with run := .locked, wait := .none } }
  (t.reportHere Err.faultLock addr (cause.setWidth 64) 0).contextRungHere

/-- A trap with no handler: the context stops, a NOHANDLER record is written, the context rung runs (R305). -/
def State.noHandler (s : State) (cause : BitVec 8) (val : Word) : State :=
  let t := { s with cx := { s.cx with run := .stopped, wait := .none } }
  (t.reportHere Err.noHandler s.cx.pc (cause.setWidth 64) val).contextRungHere

/-- The ranks that take part in the solo instances of the rank in focus (R53). -/
def State.soloPeer (s : State) (r : Rank) : Bool :=
  r.key.launch == s.rk.key.launch && r.run == s.rk.run && r.solo.home == s.rk.solo.home && r.state != .ended

/-- Instance k marked failed with a cause at every participant of the cluster (R54). -/
def State.soloFail (s : State) (k : Nat) (cause : BitVec 8) : State :=
  s.updRanks s.soloPeer fun r => { r with solo := { r.solo with failed := putAt k cause r.solo.failed } }

/-- TakeTrap of R303: the one way into a handler. An event that finds HF set stays pending; a precise trap that finds it set
is the NESTED case. Nothing but cr.trapcause, cr.trappc, cr.trapval, HF and the program counter changes. A solo pair that its
elected rank traps on is marked failed (R54). -/
def State.takeTrap (s : State) (cause : BitVec 8) (val : Word) (async : Bool) : State :=
  if s.cx.hf && async then s
  else
    let s := if s.cx.pair && !async then s.soloFail (s.rk.solo.count + 1) cause else s
    if s.cx.hf then s.faultLock Cause.nested s.cx.pc
    else if s.cx.cr.trapvec = 0 then s.noHandler cause val
    else
      { s with cx := { s.cx with
          cr := { s.cx.cr with
            trapcause := BitVec.ofNat 9 (cause.toNat + 256 * boolNat async)
            trappc := s.cx.pc.setWidth 53
            trapval := val }
          hf := true
          pc := addr53 s.cx.cr.trapvec
          wait := .none
          remain := none
          answer := none
          lanes := []
          fetched := []
          toPost := []
          pair := false
          windows := [] } }

/-- The return of R304: the program counter becomes cr.trappc with bits [1:0] zero, and HF clears. -/
def State.returnFromTrap (s : State) : State :=
  { s with cx := { s.cx.settled (addr53 (s.cx.cr.trappc &&& ~~~3)) with hf := false } }

/-- The value of cr.trapval at an MXOVF (R325). -/
def MxPending.trapval (m : MxPending) : Word :=
  wd (m.ovf.toNat + 2^16 * m.xsat.toNat + 2^32 * m.range.toNat + 2^48 * m.planes.toNat)

/-- The pending MXOVF taken at an instruction boundary: its counts are gone from the context when it is delivered (R325). -/
def State.takeMxovf (s : State) : State :=
  if s.cx.mx.pending && !s.cx.hf then
    { s with cx := { s.cx with mx := .reset } }.takeTrap Cause.mxOvf s.cx.mx.trapval true
  else s

/-- Whether an event that became pending while the instruction in focus waited goes before its trap (R318). -/
def State.eventFirst (s : State) : Bool := s.cx.wait != .none && s.cx.mx.pending && !s.cx.hf

/-- A precise trap at the instruction in focus. An event that became pending while the instruction waited goes first: the instruction
executes again after it, and then takes its trap (R318). -/
def State.trap (s : State) (cause : BitVec 8) (val : Word) : State :=
  if s.eventFirst then s.takeMxovf else s.takeTrap cause val false

/-! ### Fault records (R306 to R309, R327 to R329) -/

/-- The eight words of a fault record (R307). -/
def faultWords (acc : Access) (cause : BitVec 8) (path : Nat) (va pc : Word) (owner core ctx rank time : Nat)
    (ticket : Word) : List Nat :=
  [acc.kind + 256 * cause.toNat + 2^16 * path, va.toNat, pc.toNat % 2^53,
    owner % 2^12 + 2^16 * (core % 2^11) + 2^32 * (ctx % 16) + 2^36 * (rank % 2^17), time, ticket.toNat, 0, 0]

/-- What became of a fault that was to be posted. -/
inductive Posted where
  | done (s : State) (num : Nat)
  | ringFull
  | badQueue
  /-- The queue's page is being moved: the posting is held (R104). -/
  | held
  deriving Repr

/-- Whether a fault joins a record: one of the same context, or for want of a context of the same waiter, on the same page (R306).
[DEDUCED log 32] -/
def FaultRec.joinedBy (f : FaultRec) (who : Option (RankKey × Nat × Nat)) (w : Waiter) (page : Nat) : Bool :=
  f.page == page && f.who == who && (who.isSome || f.waiters.any fun q => q.1 == w)

/-- A record with a further waiter on it. [DEDUCED log 32] -/
def FaultRec.join (f : FaultRec) (w : Waiter) (va : Word) : FaultRec :=
  if f.waiters.any fun q => q.1 == w then f else { f with waiters := f.waiters ++ [(w, va)] }

/-- The faults of an owner that wait for a place in its ring: of contexts that run on cores that are not halted, of engines, of collectives,
of dispatchers (R308). -/
def State.ringWaits (s : State) (owner : Nat) : List RingWait :=
  ((s.liveRanks.filter fun r => r.id.owner.toNat == owner && r.state == .running && !(s.coreAt r.core).halted).flatMap fun r =>
    (r.ctxs.filter fun c => c.run == .running).flatMap fun c => (match c.wait with | .recordRing w => [w] | _ => []) ++ c.toPost)
  ++ (s.eng.copies.filter fun c => c.owner == owner).filterMap CopyCmd.ring
  ++ (s.fab.colls.filter fun c => c.owner == owner).filterMap Collective.ring
  ++ (s.disp.launches.filter fun l => l.owner == owner).filterMap Launch.ring
  ++ (s.disp.queues.filter fun q => s.own.holder 0x04 q.num == owner).flatMap fun q => q.ring.toList ++ q.progRing.toList

/-- Whether a fault's turn has come: none that arose in an earlier step waits for the same ring (R327). [DEDUCED log 31] -/
def State.ringTurn (s : State) (owner : Nat) (mine : Option RingWait) : Bool :=
  (s.ringWaits owner).all fun w => match mine with
    | none => false
    | some m => m.tick ≤ w.tick

/-- The time a record that was just posted counts from: the moment its fault found the ring full, if it did (R308). [DEDUCED log 31] -/
def State.postedSince (s : State) (num : Nat) (since : Option RingWait) : State :=
  match since with
  | none => s
  | some w =>
    { s with disp := { s.disp with
        records := s.disp.records.map fun f => if f.num == num then { f with posted := Nat.min f.posted w.since } else f } }

/-- The posting of R306: a record of the context for a page already outstanding is joined; otherwise one is written, once no earlier fault waits
for the ring. `mine` is the wait of a fault that found the ring full before. [DEDUCED log 32] -/
def State.postFault (s : State) (mine : Option RingWait) (who : Option (RankKey × Nat × Nat)) (w : Waiter) (owner : Nat) (va : Word)
    (cause : BitVec 8) (words : List Nat) : Posted :=
  let page := va.toNat % 2^53 / 2^13
  match s.disp.records.find? fun f => f.joinedBy who w page with
  | some f =>
    .done ({ s with disp := { s.disp with
      records := s.disp.records.map fun (g : FaultRec) => if g.num == f.num then g.join w va else g } }.postedSince f.num mine) f.num
  | none =>
    let o := s.own.ownerOr owner
    let t := s.atQueue o
    match queuePlace t.ms t.tick o with
    | .bad => .badQueue
    | .held => .held
    | .none => .ringFull
    | .some num at_ pa =>
      if !s.ringTurn owner mine then .ringFull
      else
        let key := owner * 2^32 + num % 2^32
        let u := t.putRecord o num at_ words
        let f : FaultRec := ⟨key, owner, who, [(w, va)], page, va, cause, some pa, s.time⟩
        .done ({ u with disp := { u.disp with records := u.disp.records ++ [f] } }.postedSince key mine) key

/-- A translation fault of the issuing context: its record is posted and it waits (R306), or it enters fault-lock (R309). A wait
for a place in a full ring counts toward the 1 ms; after it the access is denied (R306, R308). [DEDUCED log 36] -/
def State.faultHere (s : State) (va : Word) (cause : BitVec 8) (acc : Access) (pin : Bool) : State :=
  if pin then s.faultLock cause va
  else
    let words := faultWords acc cause (if acc = .walker then 5 else 0) va (if acc = .walker then 0 else s.cx.pc) s.owner
      s.co.num s.cx.num s.rk.key.rank s.time 0
    let since := match s.cx.wait with
      | .recordRing w => some w
      | _ => none
    match s.postFault since (some (s.rk.key, s.rk.run, s.cx.num)) (.context s.rk.key s.rk.run s.cx.num) s.owner va cause words with
    | .done t num => t.waitFor (.record num)
    | .held => match since with
      | some _ => s
      | none => s.waitFor (.recordRing ⟨s.time, va, cause, acc, s.tick⟩)
    | .ringFull => match since with
      | some w =>
        if w.since + 1000000 ≤ s.time then (s.reportHere Err.faultDeny va 0 0).trap cause va else s
      | none => s.waitFor (.recordRing ⟨s.time, va, cause, acc, s.tick⟩)
    | .badQueue => s.faultLock cause (addr53 (s.own.ownerOr s.owner).faultq)

/-- The faulting address of a waiter of a record. [DEDUCED log 35] -/
def FaultRec.vaOf (w : Waiter) (f : FaultRec) : Option Word := (f.waiters.find? fun q => q.1 == w).map Prod.snd

/-- The lowest faulting lane of the waiting instruction, whose fault the wait names (R327). -/
def State.lowFault (s : State) : Option Word :=
  match s.cx.wait with
  | .record m =>
    (s.disp.records.find? fun f => f.num == m).bind (FaultRec.vaOf (.context s.rk.key s.rk.run s.cx.num))
  | .recordRing w => some w.va
  | .none | .retry .. | .reoffer .. | .mrcv .. | .tgwait | .wfe | .lwait | .collwait | .hjoin | .barrier .. | .soloPost _
  | .remote _ | .fetch _ | .host .. | .acceptance | .inboxSlot | .held | .replica | .stores | .rowFill | .tileReads | .launchRead _
  | .exiting => none

/-- The denial of an access of the context in focus: a trap with the record's cause at the lowest faulting lane; the instruction's other
records have no effect from now on (R306, R327). [DEDUCED log 35] -/
def State.denied (s : State) (cause : BitVec 8) (va : Word) : State :=
  let me := Waiter.context s.rk.key s.rk.run s.cx.num
  { s with disp := { s.disp with records := dropWaiters (fun _ w => w == me) s.disp.records } }.trap cause (s.lowFault.getD va)

/-- The fault of a later lane that found the ring full: posted once GET has advanced, denied after 1 ms (R306, R308). [DEDUCED log 31] -/
def State.lateFault (s : State) (w : RingWait) (r : List RingWait) : State :=
  let words := faultWords w.acc w.cause 0 w.va s.cx.pc s.owner s.co.num s.cx.num s.rk.key.rank s.time 0
  match s.postFault (some w) (some (s.rk.key, s.rk.run, s.cx.num)) (.context s.rk.key s.rk.run s.cx.num) s.owner w.va w.cause words with
  | .done t _ => { t with cx := { t.cx with toPost := r } }
  | .held => s
  | .ringFull => if w.since + 1000000 ≤ s.time then (s.reportHere Err.faultDeny w.va 0 0).denied w.cause w.va else s
  | .badQueue => s.faultLock w.cause (addr53 (s.own.ownerOr s.owner).faultq)

/-- A context whose faults found the ring full posts the first of them once GET has advanced, and else goes on waiting (R308). [DEDUCED log 31] -/
def State.seekPlace (s : State) : State :=
  match s.cx.wait with
  | .recordRing w => s.faultHere w.va w.cause w.acc false
  | .record _ => match s.cx.toPost with
    | [] => s
    | w :: r => s.lateFault w r
  | .none | .retry .. | .reoffer .. | .mrcv .. | .tgwait | .wfe | .lwait | .collwait | .hjoin | .barrier .. | .soloPost _
  | .remote _ | .fetch _ | .host .. | .acceptance | .inboxSlot | .held | .replica | .stores | .rowFill | .tileReads | .launchRead _
  | .exiting => s

/-- The faults of an access's lanes, in lane order: address, cause, and whether the page is a PIN page. -/
def laneFaults : List (Word × Found) → List (Word × BitVec 8 × Bool)
  | [] => []
  | (va, .page) :: r => (va, Cause.page, false) :: laneFaults r
  | (va, .perm l) :: r => (va, Cause.perm, ptePin l.entry) :: laneFaults r
  | (_, .at ..) :: r | (_, .remote ..) :: r | (_, .held) :: r | (_, .unbacked) :: r => laneFaults r

/-- Every lane's fault posted, in lane order, one record for each page (R327); the context waits on the first of them, and keeps those
that find the ring full. [DEDUCED log 35] -/
def State.faultLanes (s : State) (acc : Access) : List (Word × BitVec 8 × Bool) → State
  | [] => s
  | (va, cause, pin) :: r =>
    let t := s.faultHere va cause acc pin
    match t.cx.run with
    | .running =>
      let u := { t with cx := { t.cx with wait := .none } }.faultLanes acc r
      let late := match u.cx.wait with
        | .recordRing w => w :: u.cx.toPost
        | _ => u.cx.toPost
      match u.cx.run with
      | .running => { u with cx := { u.cx with wait := t.cx.wait, toPost := late } }
      | .stopped | .locked => u
    | .stopped | .locked => t

/-- Memory after the leaf that a translation used has its A and D set. -/
def markFound (o : OwnerRec) (acc : Access) (ms : MemSystem) (q : Word × Found) : MemSystem :=
  match q.2 with
  | .at _ l | .remote _ _ _ l => markUsed ms o q.1 acc l
  | .page | .perm _ | .held | .unbacked => ms

/-- The translation of every address of an access of the issuing context, in the order of R318: a non-canonical address,
then the fault records, then a page being moved, then an unbacked address. Answers the places, A and D set, or the state in
which the access traps or waits. Of several non-canonical or unbacked addresses the trap names the first, which is that of the lowest lane.
[DEDUCED log 22, DESIGN CHOICE log 127] -/
def State.reach (s : State) (vas : List Word) (acc : Access) : Except State (State × List Found) :=
  match vas.find? fun va => !canonical va with
  | some va => .error (s.trap Cause.page va)
  | none =>
    let o := s.own.ownerOr s.owner
    let fs := vas.map fun va => (translate s.ms s.tick o va acc).homed s.ms
    let pairs := vas.zip fs
    match laneFaults pairs with
    | f :: r => .error ((vas.foldl (fun t va => t.logWalk o acc va) s).faultLanes acc (f :: r))
    | [] =>
      if fs.any fun f => f == .held then .error (s.waitFor .held)
      else
        match pairs.find? fun q => q.2 == .unbacked with
        | some q => .error (s.trap Cause.unbacked q.1)
        | none =>
          .ok ({ (vas.foldl (fun t va => t.logWalk o acc va) s) with ms := pairs.foldl (markFound o acc) s.ms }, fs)

end Sys2Proof.Machine
end

