-- ==== Sys2Proof/Machine/Links.lean ====
section
/-! DEFINITION. The links of the Druiq fabric (13 R261 to R271; 12 R253, R254; 20 R343, R344): sizes, ports, flits, the choice of a path, the
rates of keys, the claims of arbiters, and the completions that this module sends. -/

namespace Sys2Proof.Machine

open Sys2Proof

/-! ### Sizes (R2, R262) -/

/-- q of the fabric. [DESIGN CHOICE log 104] -/
def fabricQ : Nat := [5, 7, 11, 13, 17, 19, 23].getD Config.fabricSize.val 23

/-- The links of a module: (3q - δ) / 2, where δ is 1 or -1 with q = 4w + δ (R2, R261). -/
def fabricDegree (q : Nat) : Nat := if q % 4 = 1 then (3 * q - 1) / 2 else (3 * q + 1) / 2

/-- The node numbers of a fabric: 2q² (R261). -/
def fabricNodes (q : Nat) : Nat := 2 * q * q

/-! ### Ports (R262, R268, R343, R344) -/

def Port.fresh (n : Nat) : Port :=
  { num := n, dead := false, expect := 0, asked := none, lastReq := none, lseq := 0, replay := [], again := [], bufs := [], failures := 0,
    replays := [], spareOf := none, fwHeld := [], fwFree := 0 }

def Fabric.port (f : Fabric) (n : Nat) : Port := (f.ports.find? fun p => p.num == n).getD (.fresh n)

def Fabric.setPort (f : Fabric) (p : Port) : Fabric := { f with ports := p :: f.ports.filter fun q => q.num != p.num }

/-- The link whose spare port 35 is. [DESIGN CHOICE log 104] -/
def spareLink : Nat := Config.spareLink % fabricDegree fabricQ

/-- Whether a port carries a link: one of the degree's, or the spare once it stands for its link (R262, R344). -/
def Fabric.portActive (f : Fabric) (n : Nat) : Bool := n < fabricDegree fabricQ || (n == 35 && (f.port 35).spareOf.isSome)

/-- The free buffer that an arriving flit takes: of its key ID's reserve of 8, or management's of 16, else of the shared pool of 256; none
where it waits for a credit at the sending port (R268). -/
def Port.takeBuffer (p : Port) (f : Flit) : Option Port :=
  let k := if f.cls = 2 then 1024 else f.keyid
  let own := (p.bufs.filter fun b => b.1 == k && !b.2).length
  if own < (if k = 1024 then 16 else 8) then some { p with bufs := p.bufs ++ [(k, false)] }
  else if (p.bufs.filter Prod.snd).length < 256 then some { p with bufs := p.bufs ++ [(k, true)] }
  else none

/-! ### Flits (R263, R264) -/

/-- Header bits [39:0], the part that the CRC covers. -/
def Flit.low (f : Flit) : Nat :=
  2^30 * (f.lseq % 1024) + 2^20 * (f.keyid % 1024) + 2^15 * (f.weight % 32) + 2^13 * (f.cls % 4) + 2^12 * boolNat f.first + 2^11 * boolNat f.last

/-- The flits of a packet: its route flit, and one for each 64 bytes of payload, at least one. They are numbered as they leave. -/
def packetFlits (keyid weight cls bytes : Nat) : List Flit :=
  let n := 1 + Nat.max 1 ((bytes + 63) / 64)
  (List.range n).map fun k =>
    { lseq := 0, keyid := keyid, weight := weight, cls := cls, first := k == 0, last := k + 1 == n, good := true }

/-- The words at 0x00 to 0x28 of a packet's route flit (R264); the tag follows them. `block` is XFER, BLK and NBLK. -/
def packetRoute (dest self via entry kind sagent pseq : Nat) (addr : Word) (bytes : Nat) (block : Nat × Nat × Nat) (time ivc : Nat) : List Nat :=
  [dest % 2^11 + 2^16 * (self % 2^11) + 2^32 * (via % 2^11) + 2^44 * (entry % 8) + 2^48 * kind,
    sagent % 2^16 + 2^32 * (pseq % 2^16), addr.toNat % 2^53,
    bytes % 2^13 + 2^16 * (block.1 % 2^16) + 2^32 * (block.2.1 % 64) + 2^40 * (block.2.2 % 128), time, ivc]

/-- Flits leave by a port: those of the exact and management classes get its next numbers and stand in its replay buffer until they are
acknowledged; lossy ones do not (R343). [DESIGN CHOICE log 95] -/
def Port.send (p : Port) (fs : List Flit) : Port :=
  let kept := (fs.filter fun f => f.cls != 1).zipIdx.map fun q => { q.1 with lseq := (p.lseq + q.2) % 1024 }
  { p with lseq := (p.lseq + kept.length) % 1024, replay := p.replay ++ kept }

/-- Whether the replay buffer of 512 has room for flits that leave. -/
def Port.holds (p : Port) (fs : List Flit) : Bool := p.replay.length + (fs.filter fun f => f.cls != 1).length ≤ 512

/-- What a step brings to a port: flits acknowledged, but for those that a replay has yet to send, and input buffers emptied.
[DESIGN CHOICE log 95] -/
def Port.pass (p : Port) (tick : Nat) : Port :=
  { p with
    replay := if p.again.isEmpty then p.replay.drop (Config.flitsAcked tick p.num) else p.replay
    bufs := p.bufs.drop (Config.buffersFreed tick p.num) }

/-! ### Arbiters (R253, R254) -/

/-- A request waits at an arbiter, with the weight of its launch or VF. [DESIGN CHOICE log 103] -/
def Fabric.claim (f : Fabric) (arb port weight : Nat) (cargo : Cargo) (flits : List Flit) : Fabric :=
  { f with claims := f.claims ++ [⟨arb, port, weight, f.clock, cargo, flits⟩] }

/-- The flits queued at an output port. -/
def Fabric.queuedAt (f : Fabric) (port : Nat) : Nat := ((f.claims.filter fun c => c.arb == port).map fun c => c.flits.length).sum

/-- Whether a packet waits to leave. -/
def Fabric.awaitsGrant (f : Fabric) (cargo : Cargo) : Bool := f.claims.any fun c => c.cargo == cargo

/-! ### Paths (R265, R266, R344) -/

/-- The output port of a router entry. [DESIGN CHOICE log 104] -/
def outPort (dest e : Nat) : Nat := Config.routePort dest e % fabricDegree fabricQ

/-- VIA of an entry: the destination on the minimal path (R264). [DESIGN CHOICE log 104] -/
def viaNode (dest e : Nat) : Nat := if e = 0 then dest else Config.routeVia dest e

/-- Whether the router entry of a destination runs through links in service: this module's own, and those of other routers (R344).
[DESIGN CHOICE log 104] -/
def Fabric.entryLive (f : Fabric) (dest e : Nat) : Bool := !(f.port (outPort dest e)).dead && !f.broken.contains (dest, e)

/-- The entry, of those given, with the fewest flits queued at its port, ties going to the lower entry (R266). -/
def Fabric.leastQueued (f : Fabric) (dest : Nat) : List Nat → Option Nat
  | [] => none
  | e :: r => some (r.foldl (fun b k => if f.queuedAt (outPort dest k) < f.queuedAt (outPort dest b) then k else b) e)

/-- The entry an exact packet takes (R266), dead entries skipped; none where no entry lives. -/
def Fabric.exactEntry (f : Fabric) (dest : Nat) : Option Nat :=
  match f.leastQueued dest ([1, 2, 3, 4].filter (f.entryLive dest)) with
  | none => if f.entryLive dest 0 then some 0 else none
  | some b => if f.entryLive dest 0 && f.queuedAt (outPort dest 0) ≤ 2 * f.queuedAt (outPort dest b) then some 0 else some b

/-- The entry a lossy block takes: the minimal one, or the lowest-numbered live one (R265, R344). -/
def Fabric.lossyEntry (f : Fabric) (dest : Nat) : Option Nat := (List.range 5).find? (f.entryLive dest)

/-- Whether a destination can be reached: it is a node, firmware wrote a route for it, and an entry of it lives (R345). [DESIGN CHOICE log 104] -/
def Fabric.reachable (f : Fabric) (dest : Nat) : Bool :=
  dest < fabricNodes fabricQ && Config.routeWritten dest && (List.range 5).any (f.entryLive dest)

/-! ### Keys and rates (R269 to R271) -/

/-- A key ID's row, where its fabric key is loaded. -/
def Fabric.key? (f : Fabric) (keyid : Nat) : Option FabricKey := f.keys.find? fun k => k.keyid == keyid && k.loaded

/-- A key's bucket refilled at RATE up to 64 KiB (R269). [DESIGN CHOICE log 78] -/
def FabricKey.refilled (k : FabricKey) (now : Nat) : FabricKey :=
  { k with tokens := Nat.min 65536 (k.tokens + k.rate * (now - k.filled) / 1000), filled := now }

/-- The key rows after a key ID spends bytes, those of the payload, on packets, each with a new encryption counter (R269, R270); none where its bucket
does not hold them. [DESIGN CHOICE log 78] -/
def Fabric.spend (f : Fabric) (now keyid bytes packets : Nat) : Option Fabric :=
  match f.key? keyid with
  | none => none
  | some k =>
    let k := k.refilled now
    if k.tokens < bytes then none
    else
      let k := { k with tokens := k.tokens - bytes, ivc := k.ivc + packets }
      some { f with keys := updFirst (fun (q : FabricKey) => q.keyid == keyid) (fun _ => k) f.keys }

def Fabric.ivcOf (f : Fabric) (keyid : Nat) : Nat := ((f.key? keyid).map FabricKey.ivc).getD 0

/-! ### Completions sent (R264, R269, R345) -/

/-- A completion is sent: it waits at the port of its path. [DESIGN CHOICE log 103] -/
def Fabric.claimAnswer (f : Fabric) (a : Sent) : Fabric :=
  match f.exactEntry a.peer.src with
  | none => { f with sent := f.sent ++ [a] }
  | some e =>
    { f with sent := f.sent ++ [{ a with entry := e, via := viaNode a.peer.src e }] }.claim (outPort a.peer.src e) Config.localPort
      a.peer.weight (.answer a.peer.src a.peer.id) (packetFlits a.peer.keyid a.peer.weight 0 a.data.length)

/-- The route flit of a completion (R264). [DEDUCED log 96] -/
def Sent.route (a : Sent) (self : Nat) : List Nat :=
  packetRoute a.peer.src self a.via a.entry a.kind a.peer.sagent a.peer.pseq a.peer.addr a.data.length (0, 0, 0) a.time a.ivc

/-- A completion for a peer, accepted by the source router once the rate of its key ID allows; under a key ID that has no key here it goes at
once. KIND is 2, 4, 6 or 9 (R264). [DESIGN CHOICE log 10, DESIGN CHOICE log 116] -/
def State.answerTo (s : State) (peer : PeerRef) (kind status : Nat) (data : List Byte) : State :=
  let a : Sent := { peer := peer, kind := kind, entry := 0, via := peer.src, time := s.time, ivc := 0, status := status, data := data }
  match (if (s.fab.key? peer.keyid).isNone then some s.fab else s.fab.spend s.time peer.keyid data.length 1) with
  | none => { s with fab := { s.fab with answers := s.fab.answers ++ [a] } }
  | some f =>
    { s with fab := f.claimAnswer { a with ivc := f.ivcOf peer.keyid } }

/-- The completions that a rate kept waiting, tried again. -/
def State.sendAnswers (s : State) : State :=
  s.fab.answers.foldl (fun t a => t.answerTo a.peer a.kind a.status a.data) { s with fab := { s.fab with answers := [] } }

end Sys2Proof.Machine
end

