-- ==== Sys2Proof/Machine/Access.lean ====
section
/-! DEFINITION. The load/store path of the issuing context (05 R98 to R112, 06 R117 to R126): caches and the mark, the store
buffer and its drain to the place of R117, full/empty accesses with the passes of R108, remote and host requests, the acquire
and release actions of R121, and the signature of a dual run (R258). -/

namespace Sys2Proof.Machine

open Sys2Proof

/-! ### The dual-run signature (R258) -/

/-- One byte more of CRC-64 with the ECMA-182 polynomial, most significant bit first. -/
def crcByte (crc : BitVec 64) (b : Byte) : BitVec 64 :=
  let rec go : Nat → BitVec 64 → BitVec 64
    | 0, c => c
    | n + 1, c => go n (if c.msb then (c <<< 1) ^^^ 0x42F0E1EBA9EA3693 else c <<< 1)
  go 8 (crc ^^^ (b.setWidth 64 <<< 56))

/-- Crc64 of R258 over a list of bytes. -/
def crc64 (bs : List Byte) : BitVec 64 := ~~~(bs.foldl crcByte (BitVec.allOnes 64))

/-- The bytes of one 8-byte word among the written ones: its byte-enable mask and its value, unwritten bytes zero. -/
def wordWritten (word : Nat) (bs : List (Nat × Byte)) : Nat × Nat :=
  bs.foldl (fun q b => if b.1 / 8 = word then (q.1 ||| 2^(b.1 % 8), q.2 ||| (b.2.toNat * 2^(8 * (b.1 % 8)))) else q) (0, 0)

/-- The words that a list of written bytes touches, each once. -/
def wordsTouched (bs : List (Nat × Byte)) : List Nat := bs.foldl (fun l b => setAdd (b.1 / 8) l) []

/-- The sum over the words touched by one write, the bytes named by virtual address (R258). [DEDUCED log 83] -/
def signWrite (bs : List (Nat × Byte)) : BitVec 64 :=
  (wordsTouched bs).foldl (fun acc w =>
    let q := wordWritten w bs
    acc + crc64 (leBytes 8 (w * 8) ++ leBytes 8 q.1 ++ leBytes 8 q.2)) 0

/-- The bytes of a write by their virtual addresses. -/
def addressed (va : Nat) : List Byte → List (Nat × Byte)
  | [] => []
  | b :: r => (va, b) :: addressed (va + 1) r

/-! ### The store buffer (R119 to R121) -/

/-- The copy of a replicated page that a core's die reads (R110). -/
def copyAddr (core pa : Nat) : Nat := pa + dieOf core * 2^21

/-- A buffered store performed at its place: at home, invalidating the line in the issuing cluster's cache and in any
scriptorium cache; in the cluster's line while it is held exclusively; or into the sequencer's order, the cluster's line of its die's
copy invalidated (R98, R110, R119). -/
def State.perform (s : State) (core : Nat) (e : Buffered) : State :=
  match e.place with
  | .sequencer =>
    let base := e.pa - dieOf core * 2^21
    { s with
      ms := ({ s.ms with pending := s.ms.pending ++ [{ pa := base, data := e.data }] } : MemSystem).invalidate (clusterOf core) e.pa
      scr := s.scr.invalidate base }
  | .cluster | .home =>
    if s.ms.heldBy (clusterOf core) e.pa then { s with ms := s.ms.put e.pa e.data }
    else
      { s with
        ms := ((s.ms.recall e.pa).put e.pa e.data).invalidate (clusterOf core) e.pa
        scr := s.scr.invalidate e.pa }

/-- Whether two stores touch one line. -/
def Buffered.sameLine (e f : Buffered) : Bool :=
  lineOf e.pa ≤ f.pa + f.data.length - 1 && lineOf f.pa ≤ e.pa + e.data.length - 1

/-- The k-th store of a core's buffer leaves it, where no older one is to its line and its page is not moving: stores to one line
travel in program order (R117); the order of those to other lines is not kept (R120). -/
def State.drainOne (s : State) (core k : Nat) : State :=
  let c := s.coreAt core
  match c.stores[k]? with
  | none => s
  | some e =>
    if (c.stores.take k).any (fun f => f.sameLine e) || s.ms.movingAt e.pa then s
    else (s.updCore core fun c => { c with stores := c.stores.eraseIdx k }).perform core e

/-- Every store of a core's buffer performed, oldest first; those to a page that moves stay. -/
def State.drainCore (s : State) (core : Nat) : State :=
  let c := s.coreAt core
  let stay := c.stores.filter fun e => s.ms.movingAt e.pa
  let go := c.stores.filter fun e => !s.ms.movingAt e.pa
  go.foldl (fun t e => t.perform core e) (s.updCore core fun c => { c with stores := stay })

/-- The stores of a core's buffer to one line performed, oldest first: a core's stores to one line travel in program order, and
an access past the buffer follows its core's own (R117). [DEDUCED log 19] -/
def State.drainLine (s : State) (core pa : Nat) : State :=
  let c := s.coreAt core
  if c.stores.isEmpty then s
  else
    let go := c.stores.filter fun e => lineOf e.pa == lineOf pa
    go.foldl (fun t e => t.perform core e)
      (s.updCore core fun c => { c with stores := c.stores.filter fun e => lineOf e.pa != lineOf pa })

/-- Every committed store of the core in focus performed at device scope: the buffer drained, the pending updates of
replicated pages committed in all four copies (R119). None while some of them are held for a page move. [DEDUCED log 20] -/
def State.settleStores (s : State) : Option State :=
  let t := s.drainCore s.co.num
  if t.co.stores.isEmpty then some t.commitAll else none

/-- The acquire action of a scope (R99, R121). -/
def State.acquire (s : State) : Scope → State
  | .core => s
  | .clus => { s with co := { s.co with dcache := [] } }
  | .die | .dev | .sys => { s with co := { s.co with dcache := [], mark := s.ms.fills } }

/-- Whether a remote or host store of the issuing context has no completion yet (R119: performed at system scope then). -/
def Request.isStoreOf (k : RankKey) (run ctx : Nat) (q : Request) : Bool :=
  match q.issuer with
  | .store k' run' ctx' => k' == k && run' == run && ctx' == ctx
  | .load .. | .fullEmpty .. | .copy .. | .multicast .. | .leg _ => false

def State.storesOut (s : State) : Bool := s.fab.requests.any (Request.isStoreOf s.rk.key s.rk.run s.cx.num)

/-- Whether a message that the rank sent is on its way: for ordering it is a store at device scope (R127). -/
def State.sendsOut (s : State) : Bool :=
  s.eng.flights.any fun f => f.launch == s.rk.key.launch && f.run == s.rk.run && f.src == s.rk.key.rank

/-- The windows of the context's earlier loads closed: each has its value, and is performed (R50, R120). -/
def State.closeWindows (s : State) : State := { s with cx := { s.cx with windows := [] } }

/-- What a release or fence at a scope waits for: every earlier access performed at it (R121, R122). The remote and host
stores of the context are covered at system scope only (R119); one that failed makes it take FABRIC (R346). Answers the
state in which it may go on, or the one in which it waits or traps. Earlier loads have their values from then on (R120); messages
on their way are stores at device scope (R127). [DEDUCED log 20] -/
def State.releaseReady (s : State) : Scope → Except State State
  | .core => .ok s.closeWindows
  | .clus | .die | .dev =>
    if s.sendsOut then .error (s.waitFor .stores)
    else
      match s.settleStores with
      | some t => .ok t.closeWindows
      | none => .error (s.waitFor .stores)
  | .sys =>
    if s.sendsOut then .error (s.waitFor .stores)
    else
      match s.settleStores with
      | none => .error (s.waitFor .stores)
      | some t =>
        if t.storesOut then .error (t.waitFor .stores)
        else
          match t.cx.lost with
          | some va => .error ({ t with cx := { t.cx with lost := if t.eventFirst then some va else none } }.trap Cause.fabric va)
          | none => .ok t.closeWindows

/-! ### Loads (R98, R99, R118) -/

/-- The value of a byte with the core's buffered stores over it, oldest first; a store in whose window the load lies gives its
old or its new value (R51). -/
def overlayByte (tick ctx pa : Nat) (key : RankKey) : List Buffered → Byte → Byte
  | [], b => b
  | e :: r, b =>
    let b' :=
      if e.pa ≤ pa && pa < e.pa + e.data.length then
        if e.left != 0 && e.ctx == ctx && e.key == key && !Config.windowNew tick then b else e.data.getD (pa - e.pa) 0
      else b
    overlayByte tick ctx pa key r b'

/-- A line of a cache that holds the address and has not been replaced since the step that filled it (R118). [DESIGN CHOICE log 16] -/
def findLine (tick pa : Nat) (ls : List Line) : Option Line :=
  match ls.find? fun l => l.addr == lineOf pa with
  | none => none
  | some l => if l.born != tick && Config.lineReplaced tick (lineOf pa) then none else some l

/-- The line of a cluster cache that a load may hit: filled after the core's mark, or any for an invariant load (R99). -/
def clusterLine (ms : MemSystem) (tick cluster mark pa : Nat) (inv : Bool) : Option Line :=
  findLine tick pa ((ms.ccache.filter fun e => e.1 == cluster && (inv || mark < e.2.fill)).map (·.2))

/-- The n bytes of a line from an address on. -/
def lineBytes (l : Line) (pa n : Nat) : List Byte := (l.data.drop (pa - l.addr)).take n

/-- A line filled from home. [DESIGN CHOICE log 16] -/
def homeLine (ms : MemSystem) (tick pa : Nat) : Line :=
  { addr := lineOf pa, data := readBytes ms.mem (ms.homeAddr (lineOf pa)) 64, fill := ms.fills + 1, born := tick }

/-- A line of the core data cache updated by a store to it (R98). -/
def updateLine (pa : Nat) (bs : List Byte) (l : Line) : Line :=
  if l.addr == lineOf pa then
    { l with data := l.data.take (pa - l.addr) ++ bs ++ l.data.drop (pa - l.addr + bs.length) }
  else l

/-- A line as it enters the core data cache: with the core's buffered stores in it, so that it stays no older than they are once they
have left the buffer (R117, R119). -/
def State.mended (s : State) (l : Line) : Line := s.co.stores.foldl (fun k e => updateLine e.pa e.data k) l

/-- Fills of the two caches (R98). -/
def State.fillBoth (s : State) (l : Line) : State :=
  let c := clusterOf s.co.num
  { s with
    co := { s.co with dcache := s.mended l :: s.co.dcache.filter fun k => k.addr != l.addr }
    ms := { s.ms with
      ccache := (c, l) :: s.ms.ccache.filter (fun e => !(e.1 == c && e.2.addr == l.addr))
      fills := s.ms.fills + 1 } }

def State.fillCore (s : State) (l : Line) : State :=
  { s with co := { s.co with dcache := s.mended l :: s.co.dcache.filter fun k => k.addr != l.addr } }

/-- A line gone from the core data cache. -/
def State.dropCore (s : State) (pa : Nat) : State :=
  { s with co := { s.co with dcache := s.co.dcache.filter fun k => k.addr != lineOf pa } }

def State.fillCluster (s : State) (l : Line) : State :=
  let c := clusterOf s.co.num
  { s with ms := { s.ms with
      ccache := (c, l) :: s.ms.ccache.filter (fun e => !(e.1 == c && e.2.addr == l.addr))
      fills := s.ms.fills + 1 } }

/-- The caches after a load that read below them: a copy of the line whose bytes there are others is replaced, since no later load
of the context may return them (R117). [DEDUCED log 18] -/
def State.dropOlder (s : State) (pa : Nat) (bs : List Byte) (cluster : Bool) : State :=
  let stale := fun (l : Line) => l.addr == lineOf pa && lineBytes l pa bs.length != bs
  let c := clusterOf s.co.num
  { s with
    co := { s.co with dcache := s.co.dcache.filter fun l => !stale l }
    ms := { s.ms with ccache := if cluster then s.ms.ccache.filter fun e => !(e.1 == c && stale e.2) else s.ms.ccache } }

/-- What a load reads below the store buffer, by its scope (R98, R118), with the fills it makes. A line older than the mark, which an invariant
load alone may use (R111), does not enter the core data cache, where a later load would find it (R99). [DEDUCED log 18] -/
def State.readThrough (s : State) (pa n : Nat) (sc : Scope) (inv bypass : Bool) : State × List Byte :=
  let c := clusterOf s.co.num
  let s := { s with ms := s.ms.recallFrom c pa }
  let home := readBytes s.ms.mem (s.ms.homeAddr pa) n
  if bypass then (s, home)
  else
    match sc with
    | .core =>
      match findLine s.tick pa s.co.dcache with
      | some l => (s, lineBytes l pa n)
      | none =>
        if s.ms.heldBy c pa then (s.fillCore (homeLine s.ms s.tick pa), home)
        else
          match clusterLine s.ms s.tick c s.co.mark pa inv with
          | some l => (if s.co.mark < l.fill then s.fillCore l else s.dropCore pa, lineBytes l pa n)
          | none => (s.fillBoth (homeLine s.ms s.tick pa), home)
    | .clus =>
      if s.ms.heldBy c pa then (s.dropOlder pa home false, home)
      else
        match clusterLine s.ms s.tick c s.co.mark pa inv with
        | some l => (s.dropOlder pa (lineBytes l pa n) false, lineBytes l pa n)
        | none => ((s.fillCluster (homeLine s.ms s.tick pa)).dropOlder pa home false, home)
    | .die | .dev | .sys => (s.dropOlder pa home true, home)

/-- A byte of a location whose invariant promise is broken may be any it has held (R111). [DEDUCED log 25] -/
def invariantByte (tick launch : Nat) (broken : List (Nat × Nat)) (pa : Nat) (b : Byte) : Byte :=
  if broken.contains (launch, pa) && Config.invariantUsed tick pa then Config.invariantStale tick pa else b

/-- The bytes from pa on as the issuing context sees them over what lies below. -/
def State.overlay (s : State) (pa : Nat) : List Byte → List Byte
  | [] => []
  | b :: r =>
    invariantByte s.tick s.rk.key.launch s.ms.broken pa (overlayByte s.tick s.cx.num pa s.rk.key s.co.stores b)
      :: s.overlay (pa + 1) r

/-- The buffered stores that served a load of another context are marked (R121). -/
def markForwarded (key : RankKey) (ctx pa n : Nat) (l : List Buffered) : List Buffered :=
  l.map fun e =>
    if (e.ctx != ctx || e.key != key) && e.pa < pa + n && pa < e.pa + e.data.length then { e with forwarded := true } else e

/-- The address under which a core's caches and store buffer hold a location: on a replicated page, that of its die's copy (R110). -/
def Leaf.coreAddr (l : Leaf) (core pa : Nat) : Nat := if pteRepl l.entry then copyAddr core pa else pa

/-- A load of n bytes from a physical address of this module. It waits while the page moves or a replicated line has a
pending update. -/
def State.loadPhys (s : State) (pa n : Nat) (l : Leaf) (sc : Scope) (inv : Bool) : Except State (State × List Byte) :=
  if s.ms.movingAt pa then .error (s.waitFor .held)
  else if pteRepl l.entry && s.ms.pendingAt pa n then .error (s.waitFor .replica)
  else
    let a := l.coreAddr s.co.num pa
    let (t, bs) := s.readThrough a n sc inv (pteApl l.entry == 3)
    let out := t.overlay a bs
    let t := if t.co.stores.isEmpty then t
      else { t with co := { t.co with stores := markForwarded t.rk.key t.cx.num a n t.co.stores } }
    let t := if inv then
        { t with ms := { t.ms with promised := (List.range n).foldl (fun p i => if p.contains (t.rk.key.launch, a + i) then p
          else p ++ [(t.rk.key.launch, a + i)]) t.ms.promised } }
      else t
    .ok (t.logAccess 0 t.owner 0 a, out)

/-! ### Remote and host requests (R112, R264, R280, R346, R349) -/

/-- The number of the next packet of an ordering key, modulo 2^16 (R264). -/
def Fabric.nextPseq (f : Fabric) (sagent dest : Nat) : Nat :=
  ((f.pseqs.find? fun q => q.1 == sagent && q.2.1 == dest).map (·.2.2)).getD 0

def Fabric.bumpPseq (f : Fabric) (sagent dest : Nat) : Fabric :=
  let n := f.nextPseq sagent dest
  { f with pseqs := (sagent, dest, (n + 1) % 2^16) :: f.pseqs.filter fun q => !(q.1 == sagent && q.2.1 == dest) }

/-- The arbiter of the active host port (R253): its requests come in through one port of the hub die. -/
def hostArbiter (active : Bool) : Nat := 64 + boolNat active

/-- The weight of a VF. -/
def State.vfWeight (s : State) (v : Nat) : Nat := ((s.host.vfs.find? fun x => x.num == v).map fun x => x.weight.toNat).getD 1

/-- The next request waits at the active host port, with the weight of the VF it leaves as (R254). -/
def State.claimHost (s : State) (owner : Nat) : State :=
  { s with fab := s.fab.claim (hostArbiter s.host.active) 0 (s.vfWeight (s.lowestVf owner)) (.host s.fab.nextId) [] }

/-- A request sent to another module, in the exact class under a key ID (R112, R264). -/
def State.sendTo (s : State) (issuer : Issuer) (kind : ReqKind) (dest sagent : Nat) (keyid : BitVec 10) (addr here : Word)
    (bytes : Nat) (data : Word) (deadline owner : Nat) : State :=
  let q : Request :=
    { id := s.fab.nextId, issuer := issuer, kind := kind, dest := dest, sagent := sagent,
      pseq := s.fab.nextPseq sagent dest, keyid := keyid, addr := addr, local_ := here, bytes := bytes, data := data,
      time := s.time, deadline := deadline, owner := owner, injected := false, entry := 0, host := false, ivc := 0, failed := 0,
      payload := [], block := none, weight := 1, via := dest, vf := 0, nodes := [], copies := [],
      resent := false, marked := false }
  { s with fab := { (s.fab.bumpPseq sagent dest) with requests := s.fab.requests ++ [q], nextId := s.fab.nextId + 1 } }

/-- A request of an owner's agent through the active host port, as the lowest-numbered live VF of the owner (R280). -/
def State.sendHostAs (s : State) (owner sagent : Nat) (keyid : BitVec 10) (issuer : Issuer) (kind : ReqKind) (pa : Nat) (bytes : Nat)
    (data : Word) : State :=
  let s := s.claimHost owner
  let q : Request :=
    { id := s.fab.nextId, issuer := issuer, kind := kind, dest := 0, sagent := sagent,
      pseq := 0, keyid := keyid, addr := wd pa, local_ := wd pa, bytes := bytes, data := data, time := s.time,
      deadline := s.time + 12000, owner := owner, injected := true, entry := 0, host := true, ivc := 0, failed := 0,
      payload := [], block := none, weight := s.vfWeight (s.lowestVf owner), via := 0, vf := s.lowestVf owner, nodes := [], copies := [],
      resent := false, marked := false }
  { s with fab := { s.fab with requests := s.fab.requests ++ [q], nextId := s.fab.nextId + 1 } }

/-- A request of the issuing context to host space. -/
def State.sendHost (s : State) (issuer : Issuer) (kind : ReqKind) (pa : Nat) (bytes : Nat) (data : Word) : State :=
  s.sendHostAs s.owner (s.co.num * 16 + s.cx.num) s.cx.cr.keyid issuer kind pa bytes data

/-- Whether the issuing context waits for an answer that only an event can bring. -/
def State.awaiting (s : State) : Bool :=
  match s.cx.wait with
  | .record _ | .retry .. | .remote _ | .fetch _ | .host .. => s.cx.answer.isNone
  | .recordRing _ => true
  | .none | .reoffer .. | .mrcv .. | .tgwait | .wfe | .lwait | .collwait | .hjoin | .barrier .. | .soloPost _
  | .acceptance | .inboxSlot | .held | .replica | .stores | .rowFill | .tileReads | .launchRead _ | .exiting => false

/-- The outcome of an access to host space: a request, after the checks of R280 and R349. [DEDUCED log 29] -/
def State.hostAccess (s : State) (isStore : Bool) (pa : Nat) (va : Word) (bytes : Nat) (kind : ReqKind) (data : Word) :
    Except State State :=
  if (s.liveVfs s.owner).isEmpty then
    .error ((s.report (errRec Err.hostAccess s.owner (wd pa) 1 0)).trap Cause.fabric va)
  else if !s.host.leased then
    .error (match s.cx.wait with
      | .host .. => s
      | _ => s.waitFor (.host pa va s.time))
  else if isStore then .ok (s.sendHost (.store s.rk.key s.rk.run s.cx.num) kind pa bytes data)
  else .error ((s.sendHost (.load s.rk.key s.rk.run s.cx.num) kind pa bytes data).waitFor (.remote s.fab.nextId))

/-- The sending agent of the issuing context (R264). -/
def State.sagent (s : State) : Nat := s.co.num * 16 + s.cx.num

/-- A load, or the read of an atomic, from a remote window: sent, and waited for. -/
def State.remoteLoad (s : State) (kind : ReqKind) (node : Nat) (addr va : Word) (bytes : Nat) (data : Word) : State :=
  (s.sendTo (.load s.rk.key s.rk.run s.cx.num) kind node s.sagent s.cx.cr.keyid addr va bytes data (s.time + 12000)
    s.owner).waitFor (.remote s.fab.nextId)

/-- A load of n aligned bytes at a virtual address, as a number; or the state in which it traps or waits. -/
def State.loadAt (s : State) (va : Word) (n : Nat) (sc : Scope) (inv : Bool) : Except State (State × Nat) :=
  match s.cx.answer with
  | some v => .ok ({ s with cx := { s.cx with answer := none } }, v.toNat % 2^(8 * n))
  | none =>
    if s.awaiting then .error s
    else
      match s.reach [va] .load with
      | .error t => .error t
      | .ok (t, [.at pa l]) =>
        if hostSpace pa then
          match t.hostAccess false pa va n .read 0 with
          | .ok u => .error u
          | .error u => .error u
        else
          match t.loadPhys pa n l sc inv with
          | .error u => .error u
          | .ok (u, bs) => .ok (u, leNat bs)
      | .ok (t, [.remote node addr _ _]) => .error (t.remoteLoad .read node addr va n 0)
      | .ok (t, _) => .error t

/-! ### Stores -/

/-- A dual-run launch's write is counted in its run's signature; run 1's write is then discarded (R257, R258). [DEDUCED log 83] -/
def State.signStore (s : State) (va : Word) (bs : List Byte) : State :=
  if s.rk.id.dual then
    { s with rk := { s.rk with sig := s.rk.sig + signWrite (addressed (va.toNat % 2^64) bs) } }
  else s

/-- Where a store to a page is performed (R106, R117): on a CLUSTER page, in its cluster's line where that is held exclusively as the store
leaves the buffer. -/
def Leaf.placeOf (l : Leaf) : Place :=
  if pteRepl l.entry then .sequencer else if pteApl l.entry == 1 then .cluster else .home

/-- A store to a physical address of this module: it updates a present line and enters the store buffer (R98, R119). -/
def State.storePhys (s : State) (pa : Nat) (l : Leaf) (bs : List Byte) (la : Nat) : State :=
  let t := s.logCopies (pteRepl l.entry) 0 s.owner 1 pa
  let a := l.coreAddr t.co.num pa
  let e : Buffered :=
    { key := t.rk.key, ctx := t.cx.num, pa := a, data := bs, place := l.placeOf,
      left := if la = 0 then 0 else la + 1,
      forwarded := false }
  { t with co := { t.co with stores := t.co.stores ++ [e], dcache := t.co.dcache.map (updateLine a bs) } }

/-- Whether the rank belongs to run 1 of a dual-run launch, whose writes are signed and then discarded (R257). [DEDUCED log 83] -/
def State.dry (s : State) : Bool := s.rk.id.dual && s.rk.run == 1

/-- A store of the issuing context sent to another module. -/
def State.remoteStore (s : State) (node : Nat) (addr va : Word) (bs : List Byte) : State :=
  s.sendTo (.store s.rk.key s.rk.run s.cx.num) .write node s.sagent s.cx.cr.keyid addr va bs.length (wd (leNat bs))
    (s.time + 12000) s.owner

/-- A store to the place a translation found, its signature counted. -/
def State.storeTo (s : State) (va : Word) (bs : List Byte) (la : Nat) : Found → Except State State
  | .at pa l =>
    if s.dry then .ok (s.signStore va bs)
    else if hostSpace pa then
      match s.hostAccess true pa va bs.length .write (wd (leNat bs)) with
      | .ok u => .ok (u.signStore va bs)
      | .error u => .error u
    else .ok ((s.signStore va bs).storePhys pa l bs la)
  | .remote node addr _ _ =>
    if s.dry then .ok (s.signStore va bs) else .ok ((s.signStore va bs).remoteStore node addr va bs)
  | .page | .perm _ | .held | .unbacked => .error s

/-- A store of aligned bytes at a virtual address; or the state in which it traps or waits. -/
def State.storeAt (s : State) (va : Word) (bs : List Byte) (la : Nat) : Except State State :=
  if s.awaiting then .error s
  else
    match s.reach [va] .store with
    | .error t => .error t
    | .ok (t, [f]) => t.storeTo va bs la f
    | .ok (t, _) => .error t

/-- A release store: on a REMOTE page or in host space it waits for its own completion, at any scope (R119, R162, R346), and its
write is counted once it is performed (R258). [DEDUCED log 21] -/
def State.storeHeld (s : State) (va : Word) (bs : List Byte) : Except State State :=
  match s.cx.answer with
  | some _ => .ok (s.signStore va bs)
  | none =>
    if s.awaiting then .error s
    else
      match s.reach [va] .store with
      | .error t => .error t
      | .ok (t, [.remote node addr w l]) =>
        if t.dry then t.storeTo va bs 0 (.remote node addr w l)
        else .error (t.remoteLoad .write node addr va bs.length (wd (leNat bs)))
      | .ok (t, [.at pa l]) =>
        if hostSpace pa && !t.dry then
          match t.hostAccess false pa va bs.length .write (wd (leNat bs)) with
          | .ok u | .error u => .error u
        else t.storeTo va bs 0 (.at pa l)
      | .ok (t, _) => .error t

/-! ### Full/empty accesses (R107, R108, R125) -/

/-- Whether a full/empty access changes its word or writes its bit EMPTY by `se`: a store to translation (R102). -/
def isStoreMode : FeMode → Bool
  | .swe | .sf | .se => true
  | .none | .lwf | .lwt => false

/-- Whether a full/empty access can proceed (R107). -/
def feReady (m : Memory) (pa : Nat) : FeMode → Bool
  | .lwf | .lwt => isFull m pa
  | .swe => !isFull m pa
  | .sf | .se | .none => true

/-- A full/empty access performed at home: memory, and the value it read. One of run 1 of a dual run (`dry`) changes neither
word nor bit (R257). -/
def fePerform (ms : MemSystem) (dry : Bool) (pa : Nat) (mode : FeMode) (data : Word) : MemSystem × Word :=
  let a := ms.homeAddr pa
  let v := wd (readLE ms.mem a 8)
  if dry then (ms, v) else
  match mode with
  | .lwf => (ms, v)
  | .lwt => ({ ms with mem := setFull ms.mem a false }, v)
  | .swe | .sf =>
    let ms := ms.put pa (leBytes 8 data.toNat)
    ({ ms with mem := setFull ms.mem a true }, v)
  | .se => ({ ms with mem := setFull ms.mem a false }, v)
  | .none => (ms, v)

/-- Whether an entry belongs to run 1 of a dual run: only such a launch has a run 1. -/
def RetryEntry.dry (e : RetryEntry) : Bool := match e.who with | none => false | some w => w.2.1 == 1

/-- One pass over a word's entries in arrival order: memory, the entries left, and those performed with their values. -/
def fePass (ms : MemSystem) (pa : Nat) : List RetryEntry → MemSystem × List RetryEntry × List (RetryEntry × Word)
  | [] => (ms, [], [])
  | e :: r =>
    if e.pa = ms.homeAddr pa && !e.moved && feReady ms.mem (ms.homeAddr pa) e.mode then
      let (ms, v) := fePerform ms e.dry pa e.mode e.data
      let (ms, rest, out) := fePass ms pa r
      (ms, rest, (e, v) :: out)
    else
      let (ms, rest, out) := fePass ms pa r
      (ms, e :: rest, out)

/-- Passes until one performs nothing (R108); `fuel` bounds them by the entries there are. -/
def fePasses (ms : MemSystem) (pa : Nat) : (fuel : Nat) → MemSystem × List (RetryEntry × Word)
  | 0 => (ms, [])
  | fuel + 1 =>
    let (m, rest, out) := fePass ms pa ms.retry
    let m := { m with retry := rest }
    match out with
    | [] => (m, [])
    | _ :: _ =>
      let (m, more) := fePasses m pa fuel
      (m, out ++ more)

/-- The value of a performed entry given to the context that waits for it, whose core's and cluster's copies of the line it passed are
gone (R117); or answered to the peer. It is logged as it is performed (R293). -/
def State.deliver (s : State) (d : RetryEntry × Word) : State :=
  match d.1.who with
  | some (k, run, n) =>
    let core := ((s.rank? k run).map Rank.core).getD s.co.num
    let t := s.updCore core fun c => { c with dcache := c.dcache.filter fun l => l.addr != lineOf d.1.pa }
    (({ t with ms := t.ms.invalidate (clusterOf core) d.1.pa } : State).updCtx k run n fun c => { c with answer := some d.2 }).logAccess
      0 d.1.owner (boolNat (isStoreMode d.1.mode)) d.1.pa
  | none =>
    (s.logAccess 8 d.1.owner (boolNat (isStoreMode d.1.mode)) d.1.pa).answerTo d.1.peer 6 0 (leBytes 8 d.2.toNat)

/-- The passes after a word's bit may have changed. -/
def State.feSettle (s : State) (pa : Nat) : State :=
  let (m, out) := fePasses s.ms pa (s.ms.retry.length + 1)
  out.foldl State.deliver { s with ms := m }

/-- The wait limit of the issuing context in ns: what is left of a resumed wait, else cr.fewait, at least 1,000 (R109). -/
def State.feLimit (s : State) : Nat := s.cx.remain.getD (Nat.max 1000 s.cx.cr.fewait.toNat)

/-- The deadline of a wait that is already running, or of one that starts now: it runs from the first refusal (R108). [DEDUCED log 38] -/
def State.feDeadline (s : State) : Nat :=
  match s.cx.wait with
  | .reoffer d _ => d
  | _ => s.time + s.feLimit

/-- A full/empty access that meets a page move: what is left of its limit stands still from START on (R331). -/
def State.heldForMove (s : State) : State :=
  match s.cx.wait with
  | .reoffer d _ => { s with cx := { s.cx with wait := .held, remain := some (d - s.ms.move.start) } }
  | _ => s.waitFor .held

/-- The signature after a full/empty access that stores its data. [DEDUCED log 83] -/
def State.signFe (s : State) (va : Word) (mode : FeMode) (data : Word) : State :=
  match mode with
  | .swe | .sf => s.signStore va (leBytes 8 data.toNat)
  | .none | .lwf | .lwt | .se => s

/-- Whether a context waits for an entry of a full retry list to free (R108). [DEDUCED log 38] -/
def Wait.isReoffer : Wait → Bool
  | .reoffer .. => true
  | _ => false

/-- Whether the retry list of a word's controller holds its 256 entries (R108). [DEDUCED log 38] -/
def MemSystem.retryFull (ms : MemSystem) (pa : Nat) : Bool :=
  decide (256 ≤ (ms.retry.filter fun e => e.ctl == homeCtl (ms.homeAddr pa)).length)

/-- A full/empty access of the issuing context to an aligned word: the value at its pass, or the state in which it traps or
waits. Its home is reached past every cache; the context's own earlier stores are performed first (R117). [DEDUCED log 19, DEDUCED log 24] -/
def State.fullEmpty (s : State) (va : Word) (mode : FeMode) (data : Word) : Except State (State × Word) :=
  match s.cx.answer with
  | some v => .ok ({ s with cx := { s.cx with answer := none } }.signFe va mode data, v)
  | none =>
    if s.awaiting then .error s
    else
      let acc : Access := if isStoreMode mode then .store else .load
      match s.reach [va] acc with
      | .error t => .error t
      | .ok (t, [.at pa l]) =>
        if pteRepl l.entry then .error (t.trap Cause.perm va)
        else if t.dry && hostSpace pa && acc.writes then .ok (t.signFe va mode data, 0)
        else if hostSpace pa then
          match t.hostAccess false pa va 8 (.fe (if t.dry then .lwf else mode) t.feLimit) data with
          | .ok u => .error u
          | .error u => .error u
        else if t.ms.movingAt pa then .error t.heldForMove
        else if t.cx.wait.isReoffer && t.ms.retryFull pa then .error s
        else
          let t := t.drainLine t.co.num pa
          let t := { t with ms := (t.ms.recall pa).invalidate (clusterOf t.co.num) pa,
                            co := { t.co with dcache := t.co.dcache.filter fun k => k.addr != lineOf pa } }
          if feReady t.ms.mem (t.ms.homeAddr pa) mode then
            let (ms, v) := fePerform t.ms t.dry pa mode data
            let u := { t with ms := ms, scr := t.scr.invalidate pa }
            .ok (((u.signFe va mode data).feSettle pa).logAccess 0 t.owner (boolNat acc.writes) pa, v)
          else if t.ms.retryFull pa then .error (t.waitFor (.reoffer t.feDeadline va))
          else
            let e : RetryEntry :=
              { ctl := homeCtl (t.ms.homeAddr pa), owner := t.owner, who := some (t.rk.key, t.rk.run, t.cx.num), peer := ⟨0, 0, 0, 0, 0, 0, 0⟩, limit := 0,
                pa := t.ms.homeAddr pa, mode := mode, data := data, moved := false }
            .error ({ t with ms := { t.ms with retry := t.ms.retry ++ [e] } }.waitFor (.retry t.feDeadline va))
      | .ok (t, [.remote node addr _ _]) =>
        if t.dry && acc.writes then .ok (t.signFe va mode data, 0)
        else
          let mode := if t.dry then .lwf else mode
          .error ((t.sendTo (.fullEmpty t.rk.key t.rk.run t.cx.num) (.fe mode t.feLimit) node t.sagent t.cx.cr.keyid addr va 8 data
            (t.time + t.feLimit + 12000) t.owner).waitFor (.remote t.fab.nextId))
      | .ok (t, _) => .error t

/-! ### Instruction fetch (R102, R122) -/

/-- The word at a physical address as the core fetches it: from its instruction cache, else from home, filling the line. [DESIGN CHOICE log 16] -/
def State.fetchPhys (s : State) (pa : Nat) : State × Nat :=
  match findLine s.tick pa s.co.icache with
  | some l => (s.logAccess 0 s.owner 3 pa, leNat (lineBytes l pa 4))
  | none =>
    let s := { s with ms := s.ms.recall pa }
    let l := homeLine s.ms s.tick pa
    ({ s with co := { s.co with icache := l :: s.co.icache.filter fun k => k.addr != l.addr } }.logAccess 0 s.owner 3 pa,
      leNat (lineBytes l pa 4))

/-- The state in which a request that has just been made is that of a fetch. -/
def State.asFetch (s : State) : State :=
  match s.cx.wait with
  | .remote id => s.waitFor (.fetch id)
  | _ => s

/-- The answer to the request of a fetch: the word, which the context keeps until its instruction is over. -/
def State.takeFetched (s : State) (pc v : Word) : State × Nat :=
  let w := v.toNat % 2^32
  ({ s with cx := { s.cx with wait := .none, answer := none, fetched := s.cx.fetched ++ [(pc, w)] } }, w)

/-- The word that a request has fetched from an address, if one has. -/
def State.wordInHand (s : State) (pc : Word) : Option (State × Nat) :=
  match s.cx.fetched.find? fun q => q.1 == pc with
  | some q => some (s, q.2)
  | none => match s.cx.wait, s.cx.answer with
    | .fetch _, some v => some (s.takeFetched pc v)
    | _, _ => none

/-- The fetch of the word at a program counter: the word, or the state in which the context waits or traps (R318). A word of host space or of
another module is fetched by a request. [DEDUCED log 23, DESIGN CHOICE log 124] -/
def State.fetch (s : State) (pc : Word) : Except State (State × Nat) :=
  match s.wordInHand pc with
  | some q => .ok q
  | none =>
  match s.reach [pc] .fetch with
  | .error t => .error t
  | .ok (t, [.at pa l]) =>
    if t.ms.movingAt pa then .error (t.waitFor .held)
    else if hostSpace pa then
      match t.hostAccess false pa pc 4 .read 0 with
      | .ok u | .error u => .error u.asFetch
    else if pteRepl l.entry then
      if t.ms.pendingAt pa 4 then .error (t.waitFor .replica) else .ok (t.fetchPhys (copyAddr t.co.num pa))
    else .ok (t.fetchPhys pa)
  | .ok (t, [.remote node addr _ _]) => .error (t.remoteLoad .read node addr pc 4 0).asFetch
  | .ok (t, _) => .error t

end Sys2Proof.Machine
end

