-- ==== Sys2Proof/Machine/Flags.lean ====
section
/-! DEFINITION. Every flag and status computation: the sticky flags of R64, the counts of R146, cr.est as it is sampled (R145,
R158), and the control registers as a whole (R142 to R149): what each index reads, and what a write leaves (R6, R143). -/

namespace Sys2Proof.Machine

open Sys2Proof

/-! ### The sticky flags and counts (R64, R146, R204) -/

/-- Flags by the bits of cr.fflags (R64). -/
def Flag.none : BitVec 5 := 0
def Flag.nx : BitVec 5 := 1
def Flag.uf : BitVec 5 := 2
def Flag.of : BitVec 5 := 4
def Flag.dz : BitVec 5 := 8
def Flag.nv : BitVec 5 := 16

/-- The state after an instruction raised flags: hardware only ever sets them. -/
def State.raise (s : State) (f : BitVec 5) : State := s.setCr fun c => { c with fflags := c.fflags ||| f }

/-- A 16-bit count that saturates (R146). -/
def satCount (c : BitVec 16) (n : Nat) : BitVec 16 := BitVec.ofNat 16 (Nat.min (c.toNat + n) 0xFFFF)

/-- cr.mxcnt with OVF, XSAT and RANGE raised by three counts (R146). -/
def mergeCounts (m : BitVec 48) (ovf xsat range : Nat) : BitVec 48 :=
  let part := fun k n => (satCount (m.extractLsb' (16 * k) 16) n).setWidth 48 <<< (16 * k)
  part 0 ovf ||| part 1 xsat ||| part 2 range

/-! ### cr.est (R95, R145) -/

/-- Whether the matrix unit holds accepted work of the rank. -/
def MatrixUnit.busy (m : MatrixUnit) : Bool := !m.queue.isEmpty || m.stream.isSome || !m.tails.isEmpty || m.drain.isSome

/-- Whether a ticket's command has not ended (R196, R197). -/
def Ticket.outstanding (t : Ticket) : Bool := t.state < 2

/-- cr.est of a rank with the given contexts: bits [15:0] mirror cr.wake, the fault bits are held, the rest are levels. -/
def estOf (r : Rank) (ctxs : List Context) : Word :=
  wd (r.wake.toNat
    + 2^16 * boolNat r.mx.busy + 2^17 * boolNat r.faults[0]
    + 2^18 * boolNat (r.tickets.any fun t => t.kind == .copy && t.outstanding) + 2^19 * boolNat r.faults[1]
    + 2^20 * boolNat (!r.inbox.isEmpty) + 2^21 * boolNat (!r.blotter.isEmpty)
    + 2^22 * boolNat (r.tickets.any fun t => t.kind == .coll && !t.outstanding && !t.taken) + 2^23 * boolNat r.faults[2]
    + 2^24 * boolNat (ctxs.any fun c => c.num != 0))

/-- Sample(cr.est) of R158: every context of the rank samples the one register. -/
def State.est (s : State) : Word := estOf s.rk (s.cx :: s.rk.ctxs)

/-! ### Control registers (R142) -/

/-- cr.core (R20). -/
def coreWord (n : Nat) : Word := wd (n % 2^11 + 2^16 * dieOf n)

/-- What an index of R142 reads; an index it does not list is no instruction and never gets here. -/
def State.readCr (s : State) (ix : BitVec 12) : Word :=
  let c := s.cx.cr
  match ix.toNat with
  | 0x000 => wd s.co.cycle
  | 0x001 => wd s.time
  | 0x002 => wd (s.rk.key.rank % 2^17)
  | 0x003 => s.rk.id.span.setWidth 64
  | 0x004 => wd (s.cx.num % 16)
  | 0x005 => coreWord s.co.num
  | 0x006 => boolWord (isFCore s.co.num)
  | 0x007 => s.node.setWidth 64
  | 0x008 => s.rk.id.owner.setWidth 64
  | 0x009 => s.co.lender.setWidth 64
  | 0x00A => c.keyid.setWidth 64
  | 0x00B => s.rk.id.lb.setWidth 64
  | 0x010 => s.est
  | 0x011 => s.rk.wake.setWidth 64
  | 0x020 => c.frm.setWidth 64
  | 0x021 => c.fflags.setWidth 64
  | 0x022 => c.mxcnt.setWidth 64
  | 0x023 => c.fmt.setWidth 64
  | 0x024 => c.sclp.setWidth 64
  | 0x025 => c.accexp.setWidth 64
  | 0x026 => c.spar.setWidth 64
  | 0x027 => c.mxtrap.setWidth 64
  | 0x030 => s.rk.grp[0]
  | 0x031 => s.rk.grp[1]
  | 0x032 => s.rk.grp[2]
  | 0x033 => s.rk.grp[3]
  | 0x034 => s.rk.vote.setWidth 64
  | 0x038 => wd (s.co.member.toNat + 2^16 * s.co.signal.toNat + 2^32 * boolNat s.co.halted)
  | 0x040 => c.trapvec.setWidth 64
  | 0x041 => c.trapcause.setWidth 64
  | 0x042 => c.trappc.setWidth 64
  | 0x043 => c.trapval
  | 0x044 => c.trapsave
  | 0x048 => c.fewait.setWidth 64
  | 0x049 => (s.own.ownerOr s.owner).faultq.setWidth 64
  | 0x04A => s.co.image.setWidth 64
  | 0x050 => s.rk.id.deadline
  | _ => 0

/-- The fault bits of cr.est after a W1C write clears those that are one in w (R143, R145). -/
def clearFaults (f : BitVec 3) (w : Word) : BitVec 3 :=
  f &&& ~~~(BitVec.ofNat 3 (boolNat (bitAt w 17) + 2 * boolNat (bitAt w 19) + 4 * boolNat (bitAt w 23)))

/-- WriteCR of R238: the writable bits of the register take w; RO and reserved bits keep their value (R6). -/
def State.writeCr (s : State) (ix : BitVec 12) (w : Word) : State :=
  match ix.toNat with
  | 0x011 => { s with rk := { s.rk with wake := w.setWidth 16 } }
  | 0x020 => s.setCr fun c => { c with frm := w.setWidth 2 }
  | 0x021 => s.setCr fun c => { c with fflags := w.setWidth 5 }
  | 0x022 => s.setCr fun c => { c with mxcnt := w.setWidth 48 }
  | 0x023 => s.setCr fun c => { c with fmt := w.setWidth 4 }
  | 0x024 => s.setCr fun c => { c with sclp := w.setWidth 20 &&& 0xFFF7F }
  | 0x025 => s.setCr fun c => { c with accexp := w.setWidth 8 }
  | 0x026 => s.setCr fun c => { c with spar := w.setWidth 2 }
  | 0x027 => s.setCr fun c => { c with mxtrap := w.setWidth 3 }
  | 0x038 => { s with co := { s.co with member := w.setWidth 16, signal := w.extractLsb' 16 16 } }
  | 0x040 => s.setCr fun c => { c with trapvec := w.setWidth 53 &&& ~~~3 }
  | 0x041 => s.setCr fun c => { c with trapcause := w.setWidth 9 }
  | 0x042 => s.setCr fun c => { c with trappc := w.setWidth 53 }
  | 0x043 => s.setCr fun c => { c with trapval := w }
  | 0x044 => s.setCr fun c => { c with trapsave := w }
  | 0x048 => s.setCr fun c => { c with fewait := w.setWidth 32 }
  | _ => s

/-- The W1C bits of cr.est that a write clears; other indices have none. -/
def State.clearW1C (s : State) (ix : BitVec 12) (w : Word) : State :=
  if ix = 0x010 then { s with rk := { s.rk with faults := clearFaults s.rk.faults w } } else s

end Sys2Proof.Machine
end

