-- ==== Sys2Proof/Machine/Fp.lean ====
section
/-! DEFINITION. Floating point (04 R62 to R65, R77; 09 R171 to R174): formats, the exact value of an operand, one rounding of
an exact value, and every operation of the vector unit as exact arithmetic followed by that rounding. A result is a code and
the flags it raises (R64). -/

namespace Sys2Proof.Machine

open Sys2Proof

/-- A binary format: the bits of its exponent and fraction fields (R62). -/
structure FpFmt where
  eb : Nat
  mb : Nat
  deriving DecidableEq, Repr

def fp32 : FpFmt := ⟨8, 23⟩
def bf16 : FpFmt := ⟨8, 7⟩
def e5m2 : FpFmt := ⟨5, 2⟩
def e4m3 : FpFmt := ⟨4, 3⟩

def FpFmt.bias (f : FpFmt) : Nat := 2^(f.eb - 1) - 1

/-- The code of +∞, the first one past the largest finite value. -/
def FpFmt.infCode (f : FpFmt) : Nat := (2^f.eb - 1) * 2^f.mb

/-- The canonical NaN (R63). -/
def FpFmt.nanCode (f : FpFmt) : Nat := f.infCode + 2^(f.mb - 1)

def FpFmt.signed (f : FpFmt) (neg : Bool) (code : Nat) : Nat := code + boolNat neg * 2^(f.eb + f.mb)

/-- What a code stands for: a NaN, an infinity, or ±m × 2^e. -/
inductive Fp where
  | nan (signalling : Bool)
  | inf (neg : Bool)
  | fin (neg : Bool) (m : Nat) (e : Int)
  deriving DecidableEq, Repr

/-- The value of a code with no special exponent. -/
def FpFmt.finite (f : FpFmt) (c : Nat) : Fp :=
  let neg := c.testBit (f.eb + f.mb)
  let be := c / 2^f.mb % 2^f.eb
  let fr := c % 2^f.mb
  if be = 0 then .fin neg fr (1 - f.bias - f.mb) else .fin neg (2^f.mb + fr) (be - f.bias - f.mb)

/-- The value of an FP32, BF16 or E5M2 code; a NaN whose fraction MSB is zero is signalling in FP32 and BF16 (R63). -/
def FpFmt.value (f : FpFmt) (c : Nat) : Fp :=
  if f = e4m3 then if c % 128 = 127 then .nan false else f.finite c
  else if c / 2^f.mb % 2^f.eb = 2^f.eb - 1 then
    if c % 2^f.mb = 0 then .inf (c.testBit (f.eb + f.mb)) else .nan (f != e5m2 && c % 2^f.mb < 2^(f.mb - 1))
  else f.finite c

/-! ### One rounding (R63, R64) -/

/-- An exact real: ±(m + δ) × 2^e, where 0 < δ < 1 if `more`, else δ = 0. Where `more` holds, m has at least two bits more than
the format that it is rounded to, or lies far below its range. -/
structure Exact where
  neg  : Bool
  m    : Nat
  e    : Int
  more : Bool
  deriving DecidableEq, Repr

/-- m × 2^e as a multiple of 2^q, rounded in mode rm (0 nearest even, 1 toward zero, 2 up, 3 down); and whether inexact. -/
def roundAt (rm : Nat) (neg : Bool) (m : Nat) (e q : Int) : Nat × Bool :=
  if q ≤ e then (m * 2^(e - q).toNat, false)
  else
    let d := 2^(q - e).toNat
    let n := m / d
    let r := m % d
    let up := match rm with
      | 0 => d < 2 * r || (2 * r == d && n % 2 == 1)
      | 1 => false
      | 2 => !neg
      | _ => neg
    (if r != 0 && up then n + 1 else n, r != 0)

/-- The magnitude code an exact value rounds to, its exponent unbounded above; whether inexact; whether tiny after rounding. -/
def FpFmt.roundMag (f : FpFmt) (rm : Nat) (v : Exact) : Nat × Bool × Bool :=
  let k := f.mb + 4
  let m := v.m * 2^k + boolNat v.more
  let e := v.e - k
  if m = 0 then (0, false, false)
  else
    let x : Int := m.log2 + e
    let emin : Int := 1 - f.bias
    let q := max x emin - f.mb
    let (n, inexact) := roundAt rm v.neg m e q
    let carried := (roundAt rm v.neg m e (x - f.mb)).1 == 2^(f.mb + 1)
    ((q - (emin - f.mb)).toNat * 2^f.mb + n, inexact, decide (x < emin) && !(x == emin - 1 && carried))

def flagIf (b : Bool) (f : BitVec 5) : BitVec 5 := if b then f else 0

/-- A result: its code and the flags it raises. -/
abbrev FpRes := Nat × BitVec 5

/-- An exact value rounded once to an IEEE format (R63, R64); an overflow gives ∞ or the largest finite value by the mode. -/
def FpFmt.round (f : FpFmt) (rm : Nat) (v : Exact) : FpRes :=
  let (code, inexact, tiny) := f.roundMag rm v
  if f.infCode ≤ code then
    let toInf := rm == 0 || (rm == 2 && !v.neg) || (rm == 3 && v.neg)
    (f.signed v.neg (if toInf then f.infCode else f.infCode - 1), Flag.of ||| Flag.nx)
  else (f.signed v.neg code, flagIf inexact Flag.nx ||| flagIf (tiny && inexact) Flag.uf)

/-- An exact value rounded once to E4M3: above 448 it saturates, in every mode (R65). -/
def roundE4m3 (rm : Nat) (v : Exact) : FpRes :=
  let (code, inexact, tiny) := e4m3.roundMag rm v
  if 0x7E < code then (e4m3.signed v.neg 0x7E, Flag.of ||| Flag.nx)
  else (e4m3.signed v.neg code, flagIf inexact Flag.nx ||| flagIf (tiny && inexact) Flag.uf)

/-! ### Exact arithmetic -/

def signedInt (neg : Bool) (m : Nat) : Int := if neg then -(m : Int) else m

/-- The exact sum of two finite values; an exact zero sum of opposite signs is +0, or -0 in round-down mode (R63). -/
def exactSum (rm : Nat) (n1 : Bool) (m1 : Nat) (e1 : Int) (n2 : Bool) (m2 : Nat) (e2 : Int) : Exact :=
  let e := min e1 e2
  let s := signedInt n1 (m1 * 2^(e1 - e).toNat) + signedInt n2 (m2 * 2^(e2 - e).toNat)
  if s = 0 then ⟨if n1 == n2 then n1 else rm == 3, 0, 0, false⟩ else ⟨decide (s < 0), s.natAbs, e, false⟩

/-- The exact quotient of two non-zero magnitudes, to 64 bits past the divisor's. -/
def exactQuot (neg : Bool) (m1 : Nat) (e1 : Int) (m2 : Nat) (e2 : Int) : Exact :=
  ⟨neg, m1 * 2^64 / m2, e1 - e2 - 64, m1 * 2^64 % m2 != 0⟩

/-- The integer square root, bit by bit from 2^k down: the largest r with r^2 ≤ n that agrees with acc above bit k. -/
def isqrtFrom (n : Nat) : (k : Nat) → (acc : Nat) → Nat
  | 0, acc => if (acc + 1) * (acc + 1) ≤ n then acc + 1 else acc
  | k + 1, acc =>
    let a := acc + 2^(k + 1)
    isqrtFrom n k (if a * a ≤ n then a else acc)

def isqrt (n : Nat) : Nat := isqrtFrom n (n.log2 / 2 + 1) 0

/-- The exact square root of a positive value, to 64 bits past the operand's. -/
def exactSqrt (m : Nat) (e : Int) : Exact :=
  let (m, e) := if e % 2 = 0 then (m, e) else (2 * m, e - 1)
  let n := m * 2^128
  let r := isqrt n
  ⟨false, r, e / 2 - 64, r * r != n⟩

/-- The exact reciprocal square root of a positive value. -/
def exactRsqrt (m : Nat) (e : Int) : Exact :=
  let (m, e) := if e % 2 = 0 then (m, e) else (2 * m, e - 1)
  let n := 2^256 / m
  let r := isqrt n
  ⟨false, r, -(e / 2) - 128, r * r * m != 2^256⟩

/-- 2^0.b1…bn as a fixed-point number of 192 fraction bits from below, the n bits of `f` read from the last one up: each step
takes the square root of 2^b × the value so far. -/
def exp2Frac (f : Nat) : (n : Nat) → Nat
  | 0 => 2^192
  | n + 1 => isqrt (exp2Frac f n * 2^192 * (if f.testBit n then 2 else 1))

/-- The exact 2^(±m × 2^e). Outside ±2^9 the result lies past every format's range. -/
def exactExp2 (neg : Bool) (m : Nat) (e : Int) : Exact :=
  if m = 0 then ⟨false, 1, 0, false⟩
  else if 2^9 * 2^(-e).toNat ≤ m * 2^e.toNat then ⟨false, 1, if neg then -1000 else 1000, true⟩
  else if 0 ≤ e then ⟨false, 1, signedInt neg (m * 2^e.toNat), false⟩
  else
    let n := (-e).toNat
    let x := signedInt neg m
    let k := x / 2^n
    let f := (x % 2^n).toNat
    if f = 0 then ⟨false, 1, k, false⟩ else ⟨false, exp2Frac f n, k - 192, true⟩

/-- The first n bits of log2 of y × 2^-p, 1 ≤ y × 2^-p < 2, from below: each squaring gives one bit. -/
def log2Bits (p : Nat) : (n : Nat) → (y acc : Nat) → Nat
  | 0, _, acc => acc
  | n + 1, y, acc =>
    let z := y * y / 2^p
    if 2^(p + 1) ≤ z then log2Bits p n (z / 2) (2 * acc + 1) else log2Bits p n z (2 * acc)

/-- The exact log2 of a positive value m × 2^e. -/
def exactLog2 (m : Nat) (e : Int) : Exact :=
  let b := m.log2
  let k : Int := b + e
  if m = 2^b then ⟨decide (k < 0), k.natAbs, 0, false⟩
  else
    let l := log2Bits 320 128 (m * 2^320 / 2^b) 0
    let v : Int := k * 2^128 + l
    if 0 ≤ v then ⟨false, v.natAbs, -128, true⟩ else ⟨true, v.natAbs - 1, -128, true⟩

/-! ### The operations of the vector unit (R171, R172) -/

def Fp.isNan : Fp → Bool
  | .nan _ => true
  | .inf _ | .fin .. => false

def Fp.signals : Fp → Bool
  | .nan q => q
  | .inf _ | .fin .. => false

/-- The canonical NaN of an operation with a NaN operand: NV where one signals (R63). -/
def FpFmt.nanRes (f : FpFmt) (signals : Bool) : FpRes := (f.nanCode, flagIf signals Flag.nv)

def FpFmt.invalid (f : FpFmt) : FpRes := (f.nanCode, Flag.nv)

def FpFmt.infRes (f : FpFmt) (neg : Bool) : FpRes := (f.signed neg f.infCode, 0)

def FpFmt.zeroRes (f : FpFmt) (neg : Bool) : FpRes := (f.signed neg 0, 0)

/-- A sum of two values. -/
def FpFmt.addV (f : FpFmt) (rm : Nat) (a b : Fp) : FpRes :=
  match a, b with
  | .nan p, y => f.nanRes (p || y.signals)
  | x, .nan q => f.nanRes (x.signals || q)
  | .inf p, .inf q => if p == q then f.infRes p else f.invalid
  | .inf p, .fin .. => f.infRes p
  | .fin .., .inf q => f.infRes q
  | .fin p m1 e1, .fin q m2 e2 => f.round rm (exactSum rm p m1 e1 q m2 e2)

def Fp.negate : Fp → Fp
  | .nan q => .nan q
  | .inf n => .inf (!n)
  | .fin n m e => .fin (!n) m e

def Fp.isNeg : Fp → Bool
  | .nan _ => false
  | .inf n | .fin n _ _ => n

/-- The exact product of two values that are no NaN; none for ∞ × 0. -/
def Fp.times (a b : Fp) : Option Fp :=
  match a, b with
  | .inf p, .inf q => some (.inf (p != q))
  | .inf p, .fin q m _ => if m = 0 then none else some (.inf (p != q))
  | .fin p m _, .inf q => if m = 0 then none else some (.inf (p != q))
  | .fin p m1 e1, .fin q m2 e2 => some (.fin (p != q) (m1 * m2) (e1 + e2))
  | .nan _, _ | _, .nan _ => none

/-- An exact value delivered with one rounding. -/
def FpFmt.deliver (f : FpFmt) (rm : Nat) : Fp → FpRes
  | .nan q => f.nanRes q
  | .inf n => f.infRes n
  | .fin n m e => f.round rm ⟨n, m, e, false⟩

/-- a × b. -/
def FpFmt.mulV (f : FpFmt) (rm : Nat) (a b : Fp) : FpRes :=
  if a.isNan || b.isNan then f.nanRes (a.signals || b.signals)
  else
    match a.times b with
    | none => f.invalid
    | some v => f.deliver rm v

/-- a × b + c with one rounding; ∞ × 0 is invalid even when c is a quiet NaN (R171). -/
def FpFmt.fmaV (f : FpFmt) (rm : Nat) (a b c : Fp) : FpRes :=
  if a.isNan || b.isNan then f.nanRes (a.signals || b.signals || c.signals)
  else
    match a.times b with
    | none => f.invalid
    | some v => f.addV rm v c

/-- a ÷ b: a finite non-zero a over a zero gives ∞ with DZ (R171). -/
def FpFmt.divV (f : FpFmt) (rm : Nat) (a b : Fp) : FpRes :=
  match a, b with
  | .nan p, y => f.nanRes (p || y.signals)
  | x, .nan q => f.nanRes (x.signals || q)
  | .inf _, .inf _ => f.invalid
  | .inf p, .fin q _ _ => f.infRes (p != q)
  | .fin p _ _, .inf q => f.zeroRes (p != q)
  | .fin p m1 e1, .fin q m2 e2 =>
    if m2 = 0 then if m1 = 0 then f.invalid else ((f.infRes (p != q)).1, Flag.dz)
    else if m1 = 0 then f.zeroRes (p != q)
    else f.round rm (exactQuot (p != q) m1 e1 m2 e2)

/-- √a. -/
def FpFmt.sqrtV (f : FpFmt) (rm : Nat) : Fp → FpRes
  | .nan q => f.nanRes q
  | .inf n => if n then f.invalid else f.infRes false
  | .fin n m e => if m = 0 then f.zeroRes n else if n then f.invalid else f.round rm (exactSqrt m e)

/-- 1 ÷ a: ±0 gives ±∞ with DZ, ±∞ gives ±0. -/
def FpFmt.rcpV (f : FpFmt) (rm : Nat) (a : Fp) : FpRes := f.divV rm (.fin false 1 0) a

/-- 1 ÷ √a: ±0 gives ±∞ with DZ, +∞ gives +0. -/
def FpFmt.rsqV (f : FpFmt) (rm : Nat) : Fp → FpRes
  | .nan q => f.nanRes q
  | .inf n => if n then f.invalid else f.zeroRes false
  | .fin n m e =>
    if m = 0 then ((f.infRes n).1, Flag.dz) else if n then f.invalid else f.round rm (exactRsqrt m e)

/-- 2^a: -∞ gives +0, +∞ gives +∞. -/
def FpFmt.exp2V (f : FpFmt) (rm : Nat) : Fp → FpRes
  | .nan q => f.nanRes q
  | .inf n => if n then f.zeroRes false else f.infRes false
  | .fin n m e => f.round rm (exactExp2 n m e)

/-- log2 a: ±0 gives -∞ with DZ, 1 gives +0. -/
def FpFmt.log2V (f : FpFmt) (rm : Nat) : Fp → FpRes
  | .nan q => f.nanRes q
  | .inf n => if n then f.invalid else f.infRes false
  | .fin n m e => if m = 0 then ((f.infRes true).1, Flag.dz) else if n then f.invalid else f.round rm (exactLog2 m e)

/-- Whether a < b of two values that are no NaN; with `zeros`, -0 counts as less than +0 (R172). -/
def Fp.lt (zeros : Bool) (a b : Fp) : Bool :=
  match a, b with
  | .nan _, _ | _, .nan _ => false
  | .inf p, .inf q => p && !q
  | .inf p, .fin .. => p
  | .fin .., .inf q => !q
  | .fin p m1 e1, .fin q m2 e2 =>
    let e := min e1 e2
    let x := signedInt p (m1 * 2^(e1 - e).toNat)
    let y := signedInt q (m2 * 2^(e2 - e).toNat)
    decide (x < y) || (zeros && x == 0 && y == 0 && p && !q)

def Fp.eq (a b : Fp) : Bool := !a.isNan && !b.isNan && !a.lt false b && !b.lt false a

/-- The smaller (`less`) or larger of two codes (R172). -/
def FpFmt.pick (f : FpFmt) (less : Bool) (a b : Nat) : FpRes :=
  let x := f.value a
  let y := f.value b
  let fl := flagIf (x.signals || y.signals) Flag.nv
  if x.isNan && y.isNan then (f.nanCode, fl)
  else if x.isNan then (b, fl)
  else if y.isNan then (a, fl)
  else (if less then (if y.lt true x then b else a) else if x.lt true y then b else a, fl)

/-- A code with its sign bit cleared or inverted; a NaN gives the canonical one (R172). -/
def FpFmt.resign (f : FpFmt) (abs : Bool) (a : Nat) : FpRes :=
  match f.value a with
  | .nan q => f.nanRes q
  | .inf n => f.infRes (!abs && !n)
  | .fin n _ _ => (f.signed (!abs && !n) (a % 2^(f.eb + f.mb)), 0)

/-- The rescale a × d ÷ b with one rounding, by the table of R173. -/
def FpFmt.rescV (f : FpFmt) (rm : Nat) (a d b : Fp) : FpRes :=
  let neg := (a.isNeg != d.isNeg) != b.isNeg
  match b with
  | .fin _ 0 _ => (0, 0)
  | .nan q => f.nanRes (a.signals || d.signals || q)
  | .inf _ =>
    if a.isNan || d.isNan then f.nanRes (a.signals || d.signals)
    else
      match a.times d with
      | none | some (.inf _) | some (.nan _) => f.invalid
      | some (.fin ..) => f.zeroRes neg
  | .fin _ m e =>
    if a.isNan || d.isNan then f.nanRes (a.signals || d.signals)
    else
      match a.times d with
      | none | some (.nan _) => f.invalid
      | some (.inf _) => f.infRes neg
      | some (.fin _ m' e') => if m' = 0 then f.zeroRes neg else f.round rm (exactQuot neg m' e' m e)

/-! ### Conversions (R65, R174) -/

/-- FP32 or FP8 to an IEEE format. -/
def convTo (f g : FpFmt) (rm : Nat) (a : Nat) : FpRes := g.deliver rm (f.value a)

/-- FP32 to E4M3. -/
def convE4m3 (rm : Nat) (a : Nat) : FpRes :=
  match fp32.value a with
  | .nan q => (0x7F, flagIf q Flag.nv)
  | .inf _ => (0x7F, Flag.nv)
  | .fin n m e => roundE4m3 rm ⟨n, m, e, false⟩

/-- FP32 to INT32. [DEDUCED log 118] -/
def convInt32 (rm : Nat) (a : Nat) : FpRes :=
  match fp32.value a with
  | .nan _ => (0, Flag.nv)
  | .inf n => (if n then 2^31 else 2^31 - 1, Flag.nv)
  | .fin n m e =>
    let (k, inexact) := roundAt rm n m e 0
    if n then if 2^31 < k then (2^31, Flag.nv) else ((2^32 - k) % 2^32, flagIf inexact Flag.nx)
    else if 2^31 ≤ k then (2^31 - 1, Flag.nv) else (k, flagIf inexact Flag.nx)

/-- INT32 to FP32. -/
def convFromInt32 (rm : Nat) (a : Nat) : FpRes :=
  if a < 2^31 then fp32.round rm ⟨false, a, 0, false⟩ else fp32.round rm ⟨true, 2^32 - a, 0, false⟩

end Sys2Proof.Machine
end

