-- ==== Sys2Proof/Machine/Scalar.lean ====
section
/-! DEFINITION. The scalar instructions of opcodes 0x01 to 0x0C (08 R150 to R155), over the integer rules of 04 R60 and R61.
Each reads its sources, writes X[D] and advances; none traps. A divide is long-latency (R154): the model runs it whole. -/

namespace Sys2Proof.Machine

open Sys2Proof

/-! ### Shared operations -/

/-- The instruction completes with w in X[D]. -/
def State.result (s : State) (d : Reg) (w : Word) : Out := .next (s.setX d w).advance

/-- The instruction completes with the sign-extended 32-bit result (R153). -/
def State.resultW (s : State) (d : Reg) (w : BitVec 32) : Out := s.result d (w.signExtend 64)

/-- Bits [31:0] of X[r]. -/
def State.xw (s : State) (r : Reg) : BitVec 32 := (s.x r).setWidth 32

/-- The signed quotient of R61: truncated toward zero; all ones on division by zero; the most negative value over -1 is itself. -/
def divS {w : Nat} (a b : BitVec w) : BitVec w := if b = 0 then BitVec.allOnes w else a.sdiv b

/-- The unsigned quotient of R61. -/
def divU {w : Nat} (a b : BitVec w) : BitVec w := if b = 0 then BitVec.allOnes w else a.udiv b

/-- The signed remainder of R61, with the sign of the dividend; the dividend itself on division by zero. -/
def remS {w : Nat} (a b : BitVec w) : BitVec w := if b = 0 then a else a.srem b

/-- The unsigned remainder of R61. -/
def remU {w : Nat} (a b : BitVec w) : BitVec w := if b = 0 then a else a.umod b

/-- The upper half of a product of w-bit values taken as integers (R152). -/
def mulHigh (w : Nat) (p : Int) : BitVec w := BitVec.ofInt w (p / 2^w)

def minS {w : Nat} (a b : BitVec w) : BitVec w := if a.slt b then a else b

def maxS {w : Nat} (a b : BitVec w) : BitVec w := if a.slt b then b else a

def minU {w : Nat} (a b : BitVec w) : BitVec w := if a.ult b then a else b

def maxU {w : Nat} (a b : BitVec w) : BitVec w := if a.ult b then b else a

/-- How many of the low n bits of a, from bit n - 1 down, are zero before the first one. -/
def leadingZeros (a : Word) : (n : Nat) → Nat
  | 0 => 0
  | n + 1 => if bitAt a n then 0 else 1 + leadingZeros a n

/-- How many bits from bit k up, of the n that remain, are zero before the first one. -/
def trailingZeros (a : Word) (k : Nat) : (n : Nat) → Nat
  | 0 => 0
  | n + 1 => if bitAt a k then 0 else 1 + trailingZeros a (k + 1) n

/-- The number of one bits among the low n. -/
def onesBelow (a : Nat) : (n : Nat) → Nat
  | 0 => 0
  | n + 1 => boolNat (a.testBit n) + onesBelow a n

/-- The bytes of a word in reverse order (R152). -/
def byteSwap (a : Word) : Word := wd (leNat (leBytes 8 a.toNat).reverse)

/-- Sext(IMM) of R133. -/
def immW (imm : BitVec 16) : Word := imm.signExtend 64

/-! ### Opcode 0x01: 64-bit register operations (R152, R154) -/

/-- `add` (R152): X[D] := a + b modulo 2^64. -/
def execAdd (d a b : Reg) (s : State) : Out :=
  let (a, b) := (s.x a, s.x b)
  s.result d (a + b)

/-- `sub` (R152): X[D] := a - b modulo 2^64. -/
def execSub (d a b : Reg) (s : State) : Out :=
  let (a, b) := (s.x a, s.x b)
  s.result d (a - b)

/-- `and` (R152): X[D] := a AND b. -/
def execAnd (d a b : Reg) (s : State) : Out :=
  let (a, b) := (s.x a, s.x b)
  s.result d (a &&& b)

/-- `or` (R152): X[D] := a OR b. -/
def execOr (d a b : Reg) (s : State) : Out :=
  let (a, b) := (s.x a, s.x b)
  s.result d (a ||| b)

/-- `xor` (R152): X[D] := a XOR b. -/
def execXor (d a b : Reg) (s : State) : Out :=
  let (a, b) := (s.x a, s.x b)
  s.result d (a ^^^ b)

/-- `andn` (R152): X[D] := a AND NOT b. -/
def execAndn (d a b : Reg) (s : State) : Out :=
  let (a, b) := (s.x a, s.x b)
  s.result d (a &&& ~~~b)

/-- `orn` (R152): X[D] := a OR NOT b. -/
def execOrn (d a b : Reg) (s : State) : Out :=
  let (a, b) := (s.x a, s.x b)
  s.result d (a ||| ~~~b)

/-- `sll` (R152): X[D] := a shifted left by b[5:0]. -/
def execSll (d a b : Reg) (s : State) : Out :=
  let (a, b) := (s.x a, s.x b)
  s.result d (a <<< field b 0 6)

/-- `srl` (R152): X[D] := a shifted right by b[5:0], zeros entering. -/
def execSrl (d a b : Reg) (s : State) : Out :=
  let (a, b) := (s.x a, s.x b)
  s.result d (a >>> field b 0 6)

/-- `sra` (R152): X[D] := a shifted right by b[5:0], copies of bit 63 entering. -/
def execSra (d a b : Reg) (s : State) : Out :=
  let (a, b) := (s.x a, s.x b)
  s.result d (a.sshiftRight (field b 0 6))

/-- `rol` (R152): X[D] := a rotated left by b[5:0]. -/
def execRol (d a b : Reg) (s : State) : Out :=
  let (a, b) := (s.x a, s.x b)
  s.result d (a.rotateLeft (field b 0 6))

/-- `ror` (R152): X[D] := a rotated right by b[5:0]. -/
def execRor (d a b : Reg) (s : State) : Out :=
  let (a, b) := (s.x a, s.x b)
  s.result d (a.rotateRight (field b 0 6))

/-- `slt` (R152): X[D] := 1 if a < b signed, else 0. -/
def execSlt (d a b : Reg) (s : State) : Out :=
  let (a, b) := (s.x a, s.x b)
  s.result d (boolWord (a.slt b))

/-- `sltu` (R152): X[D] := 1 if a < b unsigned, else 0. -/
def execSltu (d a b : Reg) (s : State) : Out :=
  let (a, b) := (s.x a, s.x b)
  s.result d (boolWord (a.ult b))

/-- `min` (R152): X[D] := the smaller, signed. -/
def execMin (d a b : Reg) (s : State) : Out :=
  let (a, b) := (s.x a, s.x b)
  s.result d (minS a b)

/-- `max` (R152): X[D] := the larger, signed. -/
def execMax (d a b : Reg) (s : State) : Out :=
  let (a, b) := (s.x a, s.x b)
  s.result d (maxS a b)

/-- `minu` (R152): X[D] := the smaller, unsigned. -/
def execMinu (d a b : Reg) (s : State) : Out :=
  let (a, b) := (s.x a, s.x b)
  s.result d (minU a b)

/-- `maxu` (R152): X[D] := the larger, unsigned. -/
def execMaxu (d a b : Reg) (s : State) : Out :=
  let (a, b) := (s.x a, s.x b)
  s.result d (maxU a b)

/-- `mul` (R152): X[D] := bits [63:0] of the product. -/
def execMul (d a b : Reg) (s : State) : Out :=
  let (a, b) := (s.x a, s.x b)
  s.result d (a * b)

/-- `mulh` (R152): X[D] := bits [127:64] of the product, both signed. -/
def execMulh (d a b : Reg) (s : State) : Out :=
  let (a, b) := (s.x a, s.x b)
  s.result d (mulHigh 64 (a.toInt * b.toInt))

/-- `mulhu` (R152): X[D] := bits [127:64] of the product, both unsigned. -/
def execMulhu (d a b : Reg) (s : State) : Out :=
  let (a, b) := (s.x a, s.x b)
  s.result d (mulHigh 64 (a.toNat * b.toNat))

/-- `mulhsu` (R152): X[D] := bits [127:64] of the product, a signed and b unsigned. -/
def execMulhsu (d a b : Reg) (s : State) : Out :=
  let (a, b) := (s.x a, s.x b)
  s.result d (mulHigh 64 (a.toInt * b.toNat))

/-- `div` (R152, R154): X[D] := the signed quotient of R61. -/
def execDiv (d a b : Reg) (_la : Fin 16) (s : State) : Out := s.result d (divS (s.x a) (s.x b))

/-- `divu` (R152, R154): X[D] := the unsigned quotient of R61. -/
def execDivu (d a b : Reg) (_la : Fin 16) (s : State) : Out := s.result d (divU (s.x a) (s.x b))

/-- `rem` (R152, R154): X[D] := the signed remainder of R61. -/
def execRem (d a b : Reg) (_la : Fin 16) (s : State) : Out := s.result d (remS (s.x a) (s.x b))

/-- `remu` (R152, R154): X[D] := the unsigned remainder of R61. -/
def execRemu (d a b : Reg) (_la : Fin 16) (s : State) : Out := s.result d (remU (s.x a) (s.x b))

/-- `clz` (R152): X[D] := the number of leading zero bits of a. -/
def execClz (d a : Reg) (s : State) : Out :=
  let a := s.x a
  s.result d (wd (leadingZeros a 64))

/-- `ctz` (R152): X[D] := the number of trailing zero bits of a. -/
def execCtz (d a : Reg) (s : State) : Out :=
  let a := s.x a
  s.result d (wd (trailingZeros a 0 64))

/-- `popc` (R152): X[D] := the number of one bits of a. -/
def execPopc (d a : Reg) (s : State) : Out :=
  let a := s.x a
  s.result d (wd (onesBelow a.toNat 64))

/-- `sextb` (R152): X[D] := Sext(a[7:0]). -/
def execSextb (d a : Reg) (s : State) : Out :=
  let a := s.x a
  s.result d (sextLow 8 a)

/-- `sexth` (R152): X[D] := Sext(a[15:0]). -/
def execSexth (d a : Reg) (s : State) : Out :=
  let a := s.x a
  s.result d (sextLow 16 a)

/-- `sextw` (R152): X[D] := Sext(a[31:0]). -/
def execSextw (d a : Reg) (s : State) : Out :=
  let a := s.x a
  s.result d (sextLow 32 a)

/-- `zextw` (R152): X[D] := Zext(a[31:0]). -/
def execZextw (d a : Reg) (s : State) : Out :=
  let a := s.x a
  s.result d (zextLow 32 a)

/-- `bswap` (R152): X[D] := the bytes of a in reverse order. -/
def execBswap (d a : Reg) (s : State) : Out :=
  let a := s.x a
  s.result d (byteSwap a)

/-- `csel` (R152): X[D] := a if X[D] is not zero, else b. -/
def execCsel (d a b : Reg) (s : State) : Out := s.result d (if s.x d != 0 then s.x a else s.x b)

/-! ### Opcode 0x02: 32-bit operations, sign-extended (R153) -/

/-- `addw` (R153): a + b. -/
def execAddw (d a b : Reg) (s : State) : Out :=
  let (a, b) := (s.xw a, s.xw b)
  s.resultW d (a + b)

/-- `subw` (R153): a - b. -/
def execSubw (d a b : Reg) (s : State) : Out :=
  let (a, b) := (s.xw a, s.xw b)
  s.resultW d (a - b)

/-- `sllw` (R153): a shifted left by b[4:0]. -/
def execSllw (d a b : Reg) (s : State) : Out :=
  let (a, b) := (s.xw a, s.xw b)
  s.resultW d (a <<< (b.toNat % 32))

/-- `srlw` (R153): a shifted right by b[4:0], zeros entering. -/
def execSrlw (d a b : Reg) (s : State) : Out :=
  let (a, b) := (s.xw a, s.xw b)
  s.resultW d (a >>> (b.toNat % 32))

/-- `sraw` (R153): a shifted right by b[4:0], copies of bit 31 entering. -/
def execSraw (d a b : Reg) (s : State) : Out :=
  let (a, b) := (s.xw a, s.xw b)
  s.resultW d (a.sshiftRight (b.toNat % 32))

/-- `mulw` (R153): bits [31:0] of the product. -/
def execMulw (d a b : Reg) (s : State) : Out :=
  let (a, b) := (s.xw a, s.xw b)
  s.resultW d (a * b)

/-- `divw` (R153, R154): the signed quotient of R61 at width 32. -/
def execDivw (d a b : Reg) (_la : Fin 16) (s : State) : Out := s.resultW d (divS (s.xw a) (s.xw b))

/-- `divuw` (R153, R154): the unsigned quotient of R61 at width 32. -/
def execDivuw (d a b : Reg) (_la : Fin 16) (s : State) : Out := s.resultW d (divU (s.xw a) (s.xw b))

/-- `remw` (R153, R154): the signed remainder of R61 at width 32. -/
def execRemw (d a b : Reg) (_la : Fin 16) (s : State) : Out := s.resultW d (remS (s.xw a) (s.xw b))

/-- `remuw` (R153, R154): the unsigned remainder of R61 at width 32. -/
def execRemuw (d a b : Reg) (_la : Fin 16) (s : State) : Out := s.resultW d (remU (s.xw a) (s.xw b))

/-! ### Opcodes 0x03 to 0x0C: immediates and constants (R155) -/

/-- `addi` (R155): X[D] := a + i. -/
def execAddi (d a : Reg) (imm : BitVec 16) (s : State) : Out :=
  let (a, i) := (s.x a, immW imm)
  s.result d (a + i)

/-- `andi` (R155): X[D] := a AND i. -/
def execAndi (d a : Reg) (imm : BitVec 16) (s : State) : Out :=
  let (a, i) := (s.x a, immW imm)
  s.result d (a &&& i)

/-- `ori` (R155): X[D] := a OR i. -/
def execOri (d a : Reg) (imm : BitVec 16) (s : State) : Out :=
  let (a, i) := (s.x a, immW imm)
  s.result d (a ||| i)

/-- `xori` (R155): X[D] := a XOR i. -/
def execXori (d a : Reg) (imm : BitVec 16) (s : State) : Out :=
  let (a, i) := (s.x a, immW imm)
  s.result d (a ^^^ i)

/-- `slti` (R155): X[D] := 1 if a < i signed, else 0. -/
def execSlti (d a : Reg) (imm : BitVec 16) (s : State) : Out :=
  let (a, i) := (s.x a, immW imm)
  s.result d (boolWord (a.slt i))

/-- `sltiu` (R155): X[D] := 1 if a < i unsigned, else 0. -/
def execSltiu (d a : Reg) (imm : BitVec 16) (s : State) : Out :=
  let (a, i) := (s.x a, immW imm)
  s.result d (boolWord (a.ult i))

/-- `slli` (R155): X[D] := a shifted left by SHAMT. -/
def execSlli (d a : Reg) (sh : Fin 64) (s : State) : Out := s.result d (s.x a <<< sh.val)

/-- `srli` (R155): X[D] := a shifted right, zeros entering, by SHAMT. -/
def execSrli (d a : Reg) (sh : Fin 64) (s : State) : Out := s.result d (s.x a >>> sh.val)

/-- `srai` (R155): X[D] := a shifted right, copies of bit 63 entering, by SHAMT. -/
def execSrai (d a : Reg) (sh : Fin 64) (s : State) : Out := s.result d ((s.x a).sshiftRight sh.val)

/-- `rori` (R155): X[D] := a rotated right by SHAMT. -/
def execRori (d a : Reg) (sh : Fin 64) (s : State) : Out := s.result d ((s.x a).rotateRight sh.val)

/-- `lhi` (R155): X[D] := i × 65,536. -/
def execLhi (d : Reg) (imm : BitVec 16) (s : State) : Out := s.result d (immW imm <<< 16)

/-- `lsh` (R155): X[D] := X[D] shifted left by 16, OR the 16 bits of IMM. -/
def execLsh (d : Reg) (imm : BitVec 16) (s : State) : Out := s.result d ((s.x d <<< 16) ||| imm.setWidth 64)

/-- `adr` (R155): X[D] := Pc + i × 4. -/
def execAdr (d : Reg) (imm : BitVec 16) (s : State) : Out := s.result d (s.insnPc + immW imm * 4)

end Sys2Proof.Machine
end

