-- ==== Sys2Proof/Machine/LoadStore.lean ====
section
/-! DEFINITION. Plain and ordered loads and stores, atomics and fences (08 R159 to R165), over the access path of Access. -/

namespace Sys2Proof.Machine

open Sys2Proof

/-! ### Plain loads and stores (R159) -/

/-- Whether an address is no multiple of n. -/
def misaligned (va : Word) (n : Nat) : Bool := va.toNat % n != 0

/-- A loaded n-byte value extended to a register. -/
def extend (signed : Bool) (n v : Nat) : Word := if signed then sextLow (8 * n) (wd v) else wd v

/-- A plain load: relaxed at core scope. -/
def State.plainLoad (s : State) (d a : Reg) (imm : BitVec 16) (n : Nat) (signed : Bool) : Out :=
  let va := s.x a + immW imm
  if misaligned va n then .next (s.trap Cause.misalign va)
  else
    match s.loadAt va n .core false with
    | .error t => .next t
    | .ok (t, v) => .next (t.setX d (extend signed n v)).advance

/-- A plain store: it completes when it enters the store buffer. -/
def State.plainStore (s : State) (d a : Reg) (imm : BitVec 16) (n : Nat) : Out :=
  let va := s.x a + immW imm
  if misaligned va n then .next (s.trap Cause.misalign va)
  else
    match s.storeAt va (leBytes n (s.x d).toNat) 0 with
    | .error t => .next t
    | .ok t => .next t.advance

/-- `ld.b` (R159). -/
def execLdB (d a : Reg) (imm : BitVec 16) (s : State) : Out := s.plainLoad d a imm 1 true

/-- `ld.h` (R159). -/
def execLdH (d a : Reg) (imm : BitVec 16) (s : State) : Out := s.plainLoad d a imm 2 true

/-- `ld.w` (R159). -/
def execLdW (d a : Reg) (imm : BitVec 16) (s : State) : Out := s.plainLoad d a imm 4 true

/-- `ld.d` (R159). -/
def execLdD (d a : Reg) (imm : BitVec 16) (s : State) : Out := s.plainLoad d a imm 8 true

/-- `ld.bu` (R159). -/
def execLdBu (d a : Reg) (imm : BitVec 16) (s : State) : Out := s.plainLoad d a imm 1 false

/-- `ld.hu` (R159). -/
def execLdHu (d a : Reg) (imm : BitVec 16) (s : State) : Out := s.plainLoad d a imm 2 false

/-- `ld.wu` (R159). -/
def execLdWu (d a : Reg) (imm : BitVec 16) (s : State) : Out := s.plainLoad d a imm 4 false

/-- `st.b` (R159). -/
def execStB (d a : Reg) (imm : BitVec 16) (s : State) : Out := s.plainStore d a imm 1

/-- `st.h` (R159). -/
def execStH (d a : Reg) (imm : BitVec 16) (s : State) : Out := s.plainStore d a imm 2

/-- `st.w` (R159). -/
def execStW (d a : Reg) (imm : BitVec 16) (s : State) : Out := s.plainStore d a imm 4

/-- `st.d` (R159). -/
def execStD (d a : Reg) (imm : BitVec 16) (s : State) : Out := s.plainStore d a imm 8

/-! ### Ordered loads and stores (R160 to R162) -/

/-- The bytes of an access size. -/
def sizeBytes : Size → Nat
  | .b => 1 | .h => 2 | .w => 4 | .d => 8

/-- The lookahead window of a load that has just read va (R50, R51): none for LA = 0, or off this module's device memory. [DEDUCED log 15] -/
def State.openWindow (s : State) (d : Reg) (va : Word) (n la : Nat) (v : Word) : State :=
  if la = 0 then s
  else
    match translate s.ms s.tick (s.own.ownerOr s.owner) va .load with
    | .at pa l =>
      if hostSpace pa then s
      else { s with cx := { s.cx with windows := s.cx.windows ++ [⟨d, l.coreAddr s.co.num pa, n, v, la⟩] } }
    | .remote .. | .page | .perm _ | .held | .unbacked => s

/-- The value of an `ldo`: through the caches, or by a full/empty access (R161). An acquire has its value before its action (R121), so
it leaves no window open. -/
def State.ldoValue (s : State) (va : Word) (n la : Nat) (d : Reg) (sc : Scope) (ord : MemOrd) (fe : FeMode) (inv : Bool) :
    Except State (State × Word) :=
  match fe with
  | .none =>
    match s.loadAt va n sc inv with
    | .error t => .error t
    | .ok (t, v) => .ok (if ord = .acq then t else t.openWindow d va n la (extend true n v), extend true n v)
  | .lwf | .lwt | .swe | .sf | .se => s.fullEmpty va fe 0

/-- `ldo` (R161). -/
def execLdo (d a : Reg) (la : Fin 16) (sc : Scope) (ord : MemOrd) (sz : Size) (fe : FeMode) (inv : Bool) (s : State) : Out :=
  let va := s.x a
  let n := sizeBytes sz
  if misaligned va n then .next (s.trap Cause.misalign va)
  else
    match s.ldoValue va n la.val d sc ord fe inv with
    | .error t => .next t
    | .ok (t, v) => .next ((if ord = .acq then t.acquire sc else t).setX d v).advance

/-- What a release annotation waits for before the access (R121). -/
def State.released (s : State) (ord : MemOrd) (sc : Scope) : Except State State :=
  match ord with
  | .rel | .acqrel => s.releaseReady sc
  | .relaxed | .acq => .ok s

/-- A store just accepted, once it is performed at device scope with all before it; while a page move holds it the context waits,
and issues it again. -/
def State.performed (s : State) : Except State State → Except State State
  | .error t => .error t
  | .ok t =>
    match t.settleStores with
    | some u => .ok u
    | none => .error (s.waitFor .held)

/-- The store of an `sto` without a full/empty mode: a release completes when it is performed at its scope. [DEDUCED log 21] -/
def State.stoPlain (s : State) (va : Word) (bs : List Byte) (la : Nat) (sc : Scope) (ord : MemOrd) : Except State State :=
  match ord with
  | .rel | .acqrel =>
    match sc with
    | .clus | .die | .dev | .sys => s.performed (s.storeHeld va bs)
    | .core => s.storeHeld va bs
  | .relaxed | .acq => s.storeAt va bs la

/-- The checks of an access that come before a release waits or traps (R318): its translation, then PERM for a full/empty access to a
replicated page. An access that already has its answer, or waits for it, has passed them. -/
def State.placed (s : State) (va : Word) (acc : Access) (fe : Bool) : Except State Unit :=
  if s.cx.answer.isSome || s.awaiting then .ok ()
  else
    match s.reach [va] acc with
    | .error t => .error t
    | .ok (t, [.at _ l]) => if fe && pteRepl l.entry then .error (t.trap Cause.perm va) else .ok ()
    | .ok _ => .ok ()

/-- As `released`, the access's own translation checked first (R318). -/
def State.releasedFor (s : State) (va : Word) (acc : Access) (fe : Bool) (ord : MemOrd) (sc : Scope) : Except State State :=
  match ord with
  | .rel | .acqrel =>
    match s.placed va acc fe with
    | .error t => .error t
    | .ok () => s.released ord sc
  | .relaxed | .acq => .ok s

/-- The effect of an `sto` (R162). -/
def State.stoEffect (s : State) (d : Reg) (va : Word) (n la : Nat) (sc : Scope) (ord : MemOrd) (fe : FeMode) :
    Except State State :=
  match fe with
  | .none => s.stoPlain va (leBytes n (s.x d).toNat) la sc ord
  | .swe | .sf | .se | .lwf | .lwt => (s.fullEmpty va fe (s.x d)).map (·.1)

/-- `sto` (R162). -/
def execSto (d a : Reg) (la : Fin 16) (sc : Scope) (ord : MemOrd) (sz : Size) (fe : FeMode) (s : State) : Out :=
  let va := s.x a
  let n := sizeBytes sz
  if misaligned va n then .next (s.trap Cause.misalign va)
  else
    match s.releasedFor va .store (fe != .none) ord sc with
    | .error t => .next t
    | .ok t =>
      match t.stoEffect d va n la.val sc ord fe with
      | .error u => .next u
      | .ok u => .next u.advance

/-! ### Atomics (R163, R164, R106) -/

/-- The operations of `amo`, by F. -/
inductive AmoOp where
  | swap | add | and | or | xor | min | max | minu | maxu | cas | fadd
  deriving DecidableEq, Repr

def AmoOp.code : AmoOp → Nat
  | .swap => 0 | .add => 1 | .and => 2 | .or => 3 | .xor => 4 | .min => 5 | .max => 6 | .minu => 7 | .maxu => 8 | .cas => 9
  | .fadd => 10

/-- What an atomic of n bytes writes, none for a `cas` that fails (R164), and the flags of an `fadd`. -/
def amoNew (op : AmoOp) (n old b cmp : Nat) : Option Nat × BitVec 5 :=
  let w := 8 * n
  let x := BitVec.ofNat w old
  let y := BitVec.ofNat w b
  match op with
  | .swap => (some y.toNat, 0)
  | .add => (some (x + y).toNat, 0)
  | .and => (some (x &&& y).toNat, 0)
  | .or => (some (x ||| y).toNat, 0)
  | .xor => (some (x ^^^ y).toNat, 0)
  | .min => (some (minS x y).toNat, 0)
  | .max => (some (maxS x y).toNat, 0)
  | .minu => (some (minU x y).toNat, 0)
  | .maxu => (some (maxU x y).toNat, 0)
  | .cas => (if x = BitVec.ofNat w cmp then some y.toNat else none, 0)
  | .fadd =>
    let r := fp32.addV 0 (fp32.value x.toNat) (fp32.value y.toNat)
    (some r.1, r.2)

/-- The line taken exclusively by a cluster for an atomic, and filled into its cache (R98, R106). While it is held its bytes stand in
`mem`; a recall gives the cache's line the bytes it then has. -/
def MemSystem.hold (ms : MemSystem) (cluster pa : Nat) : MemSystem :=
  let m := ms.recallFrom cluster pa
  if m.heldBy cluster pa then m
  else { m.invalidate cluster pa with
    excl := m.excl ++ [(lineOf pa, cluster)]
    ccache := (cluster, homeLine m 0 pa) :: (m.invalidate cluster pa).ccache
    fills := m.fills + 1 }

/-- An atomic performed at a physical address of this module, at the place its page names (R106): memory system and old
value. `copy` is the replicated copy that answers. -/
def amoAt (ms : MemSystem) (cluster pa copy n : Nat) (l : Leaf) (dry : Bool) (op : AmoOp) (b cmp : Nat) : MemSystem × Nat :=
  if pteRepl l.entry then
    let m := ms.invalidate cluster copy
    let old := readLE m.mem copy n
    match (amoNew op n old b cmp).1 with
    | none => (m, old)
    | some v => (if dry then m else m.putCopies pa (leBytes n v), old)
  else
    let m := if pteApl l.entry == 1 then ms.hold cluster pa else (ms.recall pa).invalidate cluster pa
    let old := readLE m.mem (m.homeAddr pa) n
    match (amoNew op n old b cmp).1 with
    | none => (m, old)
    | some v => (if dry then m else m.put pa (leBytes n v), old)

/-- The signature after an atomic's write (R258). [DEDUCED log 83] -/
def State.signAmo (s : State) (va : Word) (op : AmoOp) (n old b cmp : Nat) : State :=
  match (amoNew op n old b cmp).1 with
  | none => s
  | some v => s.signStore va (leBytes n v)

/-- The old value of an atomic of the issuing context, performed; or the state in which it traps or waits. The context's own
stores to the line go first (R117); the core's data cache drops the line. [DEDUCED log 19] -/
def State.amoValue (s : State) (va : Word) (n : Nat) (op : AmoOp) (b cmp : Word) : Except State (State × Nat) :=
  match s.cx.answer with
  | some v => .ok ({ s with cx := { s.cx with answer := none } }, v.toNat % 2^(8 * n))
  | none =>
    if s.awaiting then .error s
    else
      match s.reach [va] .atomic with
      | .error t => .error t
      | .ok (t, [.at pa l]) =>
        if hostSpace pa then
          match t.hostAccess false pa va n (if t.dry then .read else .atomic op.code cmp) b with
          | .ok u | .error u => .error u
        else if t.ms.movingAt pa then .error (t.waitFor .held)
        else
          let a := l.coreAddr t.co.num pa
          let t := t.drainLine t.co.num a
          if pteRepl l.entry && t.ms.pendingAt pa n then .error (t.waitFor .replica)
          else
            let (ms, old) := amoAt t.ms (clusterOf t.co.num) pa (copyAddr t.co.num pa) n l t.dry op b.toNat cmp.toNat
            let u := { t with
              ms := ms
              scr := if pteRepl l.entry then t.scr.dropCopies pa n else t.scr.invalidate pa
              co := { t.co with dcache := t.co.dcache.filter fun k => k.addr != lineOf a } }
            .ok (u.logCopies (pteRepl l.entry) 0 u.owner 2 pa, old)
      | .ok (t, [.remote node addr _ _]) =>
        .error (t.remoteLoad (if t.dry then .read else .atomic op.code cmp) node addr va n b)
      | .ok (t, _) => .error t

/-- `amo` (R164). -/
def State.amo (s : State) (op : AmoOp) (d a b : Reg) (sc : Scope) (ord : MemOrd) (n : Nat) : Out :=
  let va := s.x a
  if misaligned va n then .next (s.trap Cause.misalign va)
  else
    match s.releasedFor va .atomic false ord sc with
    | .error t => .next t
    | .ok t =>
      match t.amoValue va n op (s.x b) (s.x d) with
      | .error u => .next u
      | .ok (u, old) =>
        let fl := (amoNew op n old (s.x b).toNat (s.x d).toNat).2
        let u := (u.signAmo va op n old (s.x b).toNat (s.x d).toNat).raise fl
        .next ((if ord = .acq || ord = .acqrel then u.acquire sc else u).setX d (extend true n old)).advance

/-- The bytes of an atomic's word, by SZ. -/
def amoBytes (dbl : Bool) : Nat := if dbl then 8 else 4

/-- `amo.swap` (R164). -/
def execAmoSwap (d a b : Reg) (sc : Scope) (ord : MemOrd) (dbl : Bool) (s : State) : Out :=
  s.amo .swap d a b sc ord (amoBytes dbl)

/-- `amo.add` (R164). -/
def execAmoAdd (d a b : Reg) (sc : Scope) (ord : MemOrd) (dbl : Bool) (s : State) : Out :=
  s.amo .add d a b sc ord (amoBytes dbl)

/-- `amo.and` (R164). -/
def execAmoAnd (d a b : Reg) (sc : Scope) (ord : MemOrd) (dbl : Bool) (s : State) : Out :=
  s.amo .and d a b sc ord (amoBytes dbl)

/-- `amo.or` (R164). -/
def execAmoOr (d a b : Reg) (sc : Scope) (ord : MemOrd) (dbl : Bool) (s : State) : Out :=
  s.amo .or d a b sc ord (amoBytes dbl)

/-- `amo.xor` (R164). -/
def execAmoXor (d a b : Reg) (sc : Scope) (ord : MemOrd) (dbl : Bool) (s : State) : Out :=
  s.amo .xor d a b sc ord (amoBytes dbl)

/-- `amo.min` (R164). -/
def execAmoMin (d a b : Reg) (sc : Scope) (ord : MemOrd) (dbl : Bool) (s : State) : Out :=
  s.amo .min d a b sc ord (amoBytes dbl)

/-- `amo.max` (R164). -/
def execAmoMax (d a b : Reg) (sc : Scope) (ord : MemOrd) (dbl : Bool) (s : State) : Out :=
  s.amo .max d a b sc ord (amoBytes dbl)

/-- `amo.minu` (R164). -/
def execAmoMinu (d a b : Reg) (sc : Scope) (ord : MemOrd) (dbl : Bool) (s : State) : Out :=
  s.amo .minu d a b sc ord (amoBytes dbl)

/-- `amo.maxu` (R164). -/
def execAmoMaxu (d a b : Reg) (sc : Scope) (ord : MemOrd) (dbl : Bool) (s : State) : Out :=
  s.amo .maxu d a b sc ord (amoBytes dbl)

/-- `amo.cas` (R164): the comparand is X[D]. -/
def execAmoCas (d a b : Reg) (sc : Scope) (ord : MemOrd) (dbl : Bool) (s : State) : Out :=
  s.amo .cas d a b sc ord (amoBytes dbl)

/-- `amo.fadd` (R164): FP32, to nearest even whatever cr.frm holds. -/
def execAmoFadd (d a b : Reg) (sc : Scope) (ord : MemOrd) (s : State) : Out := s.amo .fadd d a b sc ord 4

/-! ### Fences (R122, R165) -/

/-- `fence` (R122): it waits as a release does, then takes the acquire action. -/
def execFence (sc : Scope) (s : State) : Out :=
  match s.releaseReady sc with
  | .error t => .next t
  | .ok t => .next (t.acquire sc).advance

/-- Whether a command of the copyist was issued by the context in focus, or posted by it. -/
def State.ownsCopy (s : State) (c : CopyCmd) : Bool := c.key == s.rk.key && c.run == s.rk.run && c.ctx == s.cx.num

/-- Whether engine accesses of class code c (R113) made for the context are still outstanding. [DEDUCED log 84] -/
def State.classBusy (s : State) (c : Nat) : Bool :=
  let n := s.cx.num
  match c with
  | 1 => s.eng.copies.any s.ownsCopy
  | 2 =>
    let mine := fun (o : MatrixOp) => o.ctx == n && !o.gone
    s.rk.mx.queue.any mine || (s.rk.mx.stream.any fun o => mine o.1) || s.rk.mx.tails.any mine || s.rk.mx.drain.any fun o => mine o.1
  | 4 =>
    (s.fab.colls.any fun q => q.key == s.rk.key && q.run == s.rk.run && q.ctx == n)
      || s.fab.requests.any fun q => match q.issuer with
        | .multicast k run m => k == s.rk.key && run == s.rk.run && m == n
        | .load .. | .fullEmpty .. | .store .. | .copy .. | .leg _ => false
  | 5 => s.rk.graphs.any fun g => g.ctx == n && !g.gone && g.nodes.any fun d => d.state == .running && field d.words[0] 0 4 == 5
  | _ => false

/-- An `xfence.sys` that names LS takes FABRIC for a remote store that failed, also where LS is a successor alone (R346). -/
def State.lostStore (s : State) (sc : Scope) (succ : BitVec 6) : Except State State :=
  match s.cx.lost with
  | some va =>
    if sc = .sys && succ.toNat.testBit 0 then .error ({ s with cx := { s.cx with lost := none } }.trap Cause.fabric va) else .ok s
  | none => .ok s

/-- `xfence` (R122): every access of a predecessor class is performed at the scope first; where LS is a successor the action of
a device-wide acquire follows. [DEDUCED log 84] -/
def execXfence (pred succ : BitVec 6) (sc : Scope) (s : State) : Out :=
  if [1, 2, 3, 4, 5].any fun c => pred.toNat.testBit c && s.classBusy c then .next (s.waitFor .stores)
  else
    match (if pred.toNat.testBit 0 then s.releaseReady sc else s.lostStore sc succ) with
    | .error t => .next t
    | .ok t => .next (if succ.toNat.testBit 0 then t.acquire .dev else t).advance

/-- `ifence` (R122): the context's stores are performed at device scope, then the core's instruction cache is emptied. -/
def execIfence (s : State) : Out :=
  match s.settleStores with
  | none => .next (s.waitFor .stores)
  | some t => .next { t with co := { t.co with icache := [] } }.advance

end Sys2Proof.Machine
end

