-- ==== Sys2Proof/Machine/Operands.lean ====
section
/-! DEFINITION. The operand forms beyond scalar registers: lanes and predicate masks (09 R166 to R168), tiles as every path sees
them (05 R79 to R87), streams (R89 to R91, R333), and the word of an instruction for an ILLEGAL trap (R319). -/

namespace Sys2Proof.Machine

open Sys2Proof

/-- The ILLEGAL trap of an instruction that its context or core does not have (R319): cr.trapval is its word. -/
def State.illegal (s : State) (i : Instr) : State := s.trap Cause.illegal (wd ((encode i).getD 0))

/-! ### Lanes (R137, R166) -/

/-- The width in bits of an element type (R137). -/
def elemWidth : ElemType → Nat
  | .i8 | .e4m3 | .e5m2 => 8
  | .i16 | .bf16 => 16
  | .i32 | .f32 => 32
  | .i64 => 64

/-- The lane count of an element type. -/
def laneCount (t : ElemType) : Nat := 1024 / elemWidth t

/-- The n lowest lanes of w bits, lane 0 first. -/
def lanesFrom (w : Nat) : (n : Nat) → (v : Nat) → List Nat
  | 0, _ => []
  | n + 1, v => v % 2^w :: lanesFrom w n (v / 2^w)

/-- The lanes of a vector register at width w. -/
def lanesOf (w : Nat) (v : VReg) : List Nat := lanesFrom w (1024 / w) v.toNat

def joinNat (w : Nat) : List Nat → Nat
  | [] => 0
  | x :: r => x % 2^w + 2^w * joinNat w r

/-- The register with the given lanes of w bits, lane 0 first. -/
def joinLanes (w : Nat) (xs : List Nat) : VReg := BitVec.ofNat 1024 (joinNat w xs)

/-- The 128 bytes of a register, byte 0 first. -/
def bytesOf (v : VReg) : List Byte := (lanesOf 8 v).map fun b => BitVec.ofNat 8 b

def ofBytes (bs : List Byte) : VReg := joinLanes 8 (bs.map BitVec.toNat)

/-! ### Masks (R166, R167, R180) -/

/-- The partner of a predicate: p(g XOR 4). -/
def partner (g : Fin 8) : Fin 8 := g ^^^ 4

/-- The mask of g: 128 bits, one for each byte lane (R166). -/
def State.mask (s : State) (g : Fin 8) : Mask :=
  if g = 0 then BitVec.allOnes 128 else (s.p (partner g)) ++ (s.p g)

/-- Active(g, i) for each lane i of width w: the bit of the lane's lowest byte (R166). -/
def activeLanes (w : Nat) (m : Mask) : List Bool :=
  (lanesFrom (w / 8) (1024 / w) m.toNat).map fun x => x % 2 == 1

/-- The byte mask that sets all w/8 bits of each set lane (R167). -/
def laneMask (w : Nat) (ls : List Bool) : Mask :=
  BitVec.ofNat 128 (joinNat (w / 8) (ls.map fun b => if b then 2^(w / 8) - 1 else 0))

/-- The state after the whole mask of d is written: a half whose register is p0 is discarded (R167). -/
def State.setMask (s : State) (d : Fin 8) (m : Mask) : State :=
  (s.setP d (m.setWidth 64)).setP (if d = 0 then 0 else partner d) (m.extractLsb' 64 64)

/-- The bytes of `new` where the mask is set, those of `old` elsewhere. -/
def mergeBytes (m : Mask) (new old : VReg) : VReg :=
  joinLanes 8 (((lanesOf 8 new).zip (lanesOf 8 old)).zipWith (fun q b => if b then q.1 else q.2) (activeLanes 8 m))

/-! ### Vector registers -/

/-- V[f] of a vector field that is no stream. -/
def State.v (s : State) (f : VField) : VReg := if h : f.val < 28 then s.cx.v[f.val] else 0

def State.setV (s : State) (f : VField) (v : VReg) : State :=
  if h : f.val < 28 then { s with cx := { s.cx with v := s.cx.v.set f.val v } } else s

/-! ### Tiles (R79 to R87) -/

def Tile.rows (t : Tile) : Nat := t.shape.toNat % 2^16

def Tile.rowBytes (t : Tile) : Nat := t.shape.toNat / 2^16 % 2^16

/-- STATE in the status word (R87). -/
def TileState.code : TileState → Nat
  | .empty => 0 | .filling => 1 | .full => 2 | .draining => 3

/-- The status word of R87; 0 for a free handle. -/
def tileWord : Option Tile → Word
  | none => 0
  | some t => wd (t.filled * 2^40 + 2^39 + 2^38 * boolNat (64 ≤ t.handle) + 2^36 * t.state.code + t.shape.toNat)

/-- Whether a cluster-tile entry is the one that a launch's run sees under a handle in a cluster (R79). -/
def Tile.isCluster (t : Tile) (launch run cluster h : Nat) : Bool :=
  t.handle == h && t.launch == launch && t.run == run && t.cluster == cluster && !t.ended

/-- The rank of a key and run, live or not, as far as it is held. -/
def State.rankOf (s : State) (k : RankKey) (run : Nat) : Rank :=
  if s.rk.is k run then s.rk else (s.ranks.find? fun r => r.is k run).getD Rank.reset

/-- The tile that handle h names for a rank placed in a cluster: core tiles are the rank's, cluster tiles its launch's (R79). -/
def State.tileOf (s : State) (k : RankKey) (run cluster h : Nat) : Option Tile :=
  if h < 64 then (s.rankOf k run).tiles.find? fun t => t.handle == h
  else s.eng.tiles.find? fun t => t.isCluster k.launch run cluster h

/-- The state with f applied to that tile. -/
def State.updTile (s : State) (k : RankKey) (run cluster h : Nat) (f : Tile → Tile) : State :=
  if h < 64 then s.updRank k run fun r => { r with tiles := updFirst (fun t => t.handle == h) f r.tiles }
  else { s with eng := { s.eng with tiles := updFirst (fun t => t.isCluster k.launch run cluster h) f s.eng.tiles } }

/-- The tile a handle names for the issuing context. -/
def State.tile? (s : State) (h : Nat) : Option Tile := s.tileOf s.rk.key s.rk.run (clusterOf s.co.num) h

def State.setTile (s : State) (h : Nat) (f : Tile → Tile) : State := s.updTile s.rk.key s.rk.run (clusterOf s.co.num) h f

/-- n bytes of a row from an offset on; bytes past the row's end read as zero (R90, R182). -/
def Tile.rowPart (t : Tile) (row off n : Nat) : List Byte :=
  let have_ := Nat.min n (t.rowBytes - off)
  cellsBytes t.bytes (row * t.rowBytes + off) have_ ++ List.replicate (n - have_) 0

/-- The tile after bytes are written to a row where `ks` allows, from an offset on; bytes past the row's end are never written. -/
def Tile.writePart (t : Tile) (row : Nat) : (off : Nat) → List (Bool × Byte) → Tile
  | _, [] => t
  | off, (k, b) :: r =>
    let u := t.writePart row (off + 1) r
    if k && off < t.rowBytes then { u with bytes := cellsWrite 0 (row * t.rowBytes + off) b u.bytes } else u

/-- cr.trapval of a TILESTATE case: the handle and the state found (R317). -/
def stateVal (h : Nat) (st : TileState) : Word := wd (h + 2^8 * st.code)

/-- cr.trapval of a TILEALLOC case: the handle and the REASON (R317). -/
def allocVal (h reason : Nat) : Word := wd (h + 2^8 * reason)

/-! ### Streams (R89 to R91, R333) -/

def Stream.handle (k : Stream) : Nat := field k.w0 0 7
def Stream.writes (k : Stream) : Bool := bitAt k.w0 7
def Stream.base (k : Stream) : Nat := field k.w0 8 12
def Stream.col (k : Stream) : Nat := field k.w0 20 6
def Stream.s0 (k : Stream) : Int := (k.w0.extractLsb' 32 13).toInt
def Stream.s1 (k : Stream) : Int := (k.w0.extractLsb' 48 13).toInt
def Stream.c0 (k : Stream) : Nat := field k.w1 0 13
def Stream.c1 (k : Stream) : Nat := field k.w1 16 13

/-- The row of a step (R90). -/
def Stream.rowAt (k : Stream) (i j : Nat) : Int := k.base + j * k.s1 + i * k.s0

def Stream.row (k : Stream) : Int := k.rowAt k.i k.j

/-- The stream after one step; a completed pass is counted, saturating at 2^24 - 1 (R186). -/
def Stream.next (k : Stream) : Stream :=
  if k.i + 1 < k.c0 then { k with i := k.i + 1 }
  else if k.j + 1 < k.c1 then { k with i := 0, j := k.j + 1 }
  else { k with i := 0, j := 0, pass := Nat.min (k.pass + 1) (2^24 - 1) }

/-- The stream that a vector field names, if it is one. -/
def streamNo (f : VField) : Option (Fin 4) := if h : f.val < 28 then none else some ⟨f.val - 28, by omega⟩

/-- The streams among some fields. -/
def streamsIn (fs : List VField) : List (VField × Fin 4) := fs.filterMap fun f => (streamNo f).map fun k => (f, k)

/-- The OPERAND trap of a stream operand: cr.trapval is its field code (R317). -/
def State.streamTrap (s : State) (f : VField) : State := s.trap Cause.operand (wd f.val)

/-- The uses of streams as an instruction makes them: each field, whether it is written, and whether its old value is read. -/
structure VUse where
  f      : VField
  writes : Bool
  reads  : Bool
  deriving DecidableEq, Repr

/-- The first stream that is unbound, bound in the wrong direction, or named as a destination whose old value is read. -/
def State.badUse (s : State) (u : VUse) : Bool :=
  match streamNo u.f with
  | none => false
  | some k =>
    match s.rk.streams[k] with
    | none => true
    | some b => (u.writes && u.reads) || b.writes != u.writes

/-- Whether a stream's current row or COL lies outside the tile it now names (R333); a free handle is no case of this. -/
def State.pastTile (s : State) (u : VUse) : Bool :=
  match streamNo u.f with
  | none => false
  | some k =>
    match s.rk.streams[k] with
    | none => false
    | some b =>
      match s.tile? b.handle with
      | none => false
      | some t => decide (b.row < 0) || decide ((t.rows : Int) ≤ b.row) || decide (t.rowBytes / 64 ≤ b.col)

/-- The TILESTATE case of a stream access, if any: the handle and the state found. A freed tile reports EMPTY (R333). -/
def State.badState (s : State) (u : VUse) : Option (Nat × TileState) :=
  match streamNo u.f with
  | none => none
  | some k =>
    match s.rk.streams[k] with
    | none => none
    | some b =>
      match s.tile? b.handle with
      | none => some (b.handle, .empty)
      | some t =>
        if u.writes then if t.state = .empty || t.state = .filling then none else some (b.handle, t.state)
        else if t.state = .draining then some (b.handle, t.state) else none

/-- Whether a read stream stalls: its tile is not FULL and its row lies at or above FILLED (R84). -/
def State.stalls (s : State) (u : VUse) : Bool :=
  match streamNo u.f with
  | none => false
  | some k =>
    match s.rk.streams[k] with
    | none => false
    | some b =>
      match s.tile? b.handle with
      | none => false
      | some t => !u.writes && t.state != .full && decide ((t.filled : Int) ≤ b.row)

/-- The stream checks of R318 that come before translation: in a helper a stream code is no instruction (R319); then OPERAND
for an illegal use; then OPERAND for a step past the tile. -/
def State.streamsLegal (s : State) (i : Instr) (us : List VUse) : Except State Unit :=
  if !s.isControl && us.any fun u => (streamNo u.f).isSome then .error (s.illegal i)
  else
    match us.find? s.badUse with
    | some u => .error (s.streamTrap u.f)
    | none =>
      match us.find? s.pastTile with
      | some u => .error (s.streamTrap u.f)
      | none => .ok ()

/-- The stream checks that come last: TILESTATE, then the stall on a row that is not filled. -/
def State.streamsReady (s : State) (us : List VUse) : Except State Unit :=
  match us.findSome? s.badState with
  | some (h, st) => .error (s.trap Cause.tileState (stateVal h st))
  | none => if us.any s.stalls then .error (s.waitFor .rowFill) else .ok ()

/-- The value of a vector source: a register, or the 128 bytes at the stream's step (R90). -/
def State.source (s : State) (f : VField) : VReg :=
  match streamNo f with
  | none => s.v f
  | some k =>
    match s.rk.streams[k] with
    | none => 0
    | some b =>
      match s.tile? b.handle with
      | none => 0
      | some t => ofBytes (t.rowPart b.row.toNat (b.col * 64) 128)

/-- The state after a vector destination receives the bytes that the mask sets: merged into a register, or written through a
write stream, whose tile is then FILLING (R83, R168). -/
def State.writeV (s : State) (d : VField) (m : Mask) (v : VReg) : State :=
  match streamNo d with
  | none => s.setV d (mergeBytes m v (s.v d))
  | some k =>
    match s.rk.streams[k] with
    | none => s
    | some b =>
      s.setTile b.handle fun t =>
        { t.writePart b.row.toNat (b.col * 64) ((activeLanes 8 m).zip (bytesOf v)) with state := .filling }

/-- One stream advanced by one step (R91). -/
def State.stepStream (s : State) (k : Fin 4) : State :=
  { s with rk := { s.rk with streams := s.rk.streams.set k (s.rk.streams[k].map Stream.next) } }

/-- Each stream among the fields advanced once (R91). -/
def State.stepStreams (s : State) (fs : List VField) : State :=
  ((streamsIn fs).map (·.2)).eraseDups.foldl State.stepStream s

/-- Sources are read, never written. -/
def srcUse (f : VField) : VUse := ⟨f, false, true⟩

/-- The frame of every vector instruction without a memory operand: the stream checks, the effect k of the source values, one
step of each stream, and the advance (R91, R168). -/
def State.vector (s : State) (i : Instr) (srcs : List VField) (dst : Option VField) (old : Bool)
    (k : List VReg → State) : Out :=
  let us := srcs.map srcUse ++ (dst.map fun d => VUse.mk d true old).toList
  match s.streamsLegal i us with
  | .error t => .next t
  | .ok () =>
    match s.streamsReady us with
    | .error t => .next t
    | .ok () => .next ((k (srcs.map s.source)).stepStreams (srcs ++ dst.toList)).advance

end Sys2Proof.Machine
end

