-- ==== Sys2Proof/Machine/Tiles.lean ====
section
/-! DEFINITION. Tile instructions (10 R191, 05 R79 to R87), the end of a tile's clearing and of its counted reads, and the
tickets of engine commands (10 R196, R197). -/

namespace Sys2Proof.Machine

open Sys2Proof

/-! ### Scratch banks (R81) -/

/-- Whether a word is a shape word of R80. -/
def shapeOk (w : Word) : Bool :=
  let rows := field w 0 16
  let bytes := field w 16 16
  zeroAt w 36 28 && field w 32 4 < 8 && 1 ≤ rows && rows ≤ 4096 && 64 ≤ bytes && bytes ≤ 4096 && bytes % 64 == 0

/-- The banks a tile occupies. -/
def Tile.banks (t : Tile) : Nat := (t.rows * t.rowBytes + 8191) / 8192

/-- How many of n banks the k-th of h cores gives, where bank i comes from the (i mod h)-th. -/
def bankShare (n h k : Nat) : Nat := (n + h - 1 - k) / h

/-- The banks that a tile takes from a core. -/
def Tile.banksOn (t : Tile) (core : Nat) : Nat :=
  match t.cores.idxOf? core with
  | none => 0
  | some k => bankShare t.banks t.cores.length k

/-- The banks of a core that cluster tiles hold, reserved ones included (R82). -/
def State.clusterBanks (s : State) (core : Nat) : Nat := (s.eng.tiles.map fun t => t.banksOn core).sum

/-- The banks of a rank's core tiles. -/
def Rank.coreBanks (r : Rank) : Nat := (r.tiles.map Tile.banks).sum

/-- The most banks that core tiles of one rank held on a core take. -/
def State.rankBanks (s : State) (core : Nat) : Nat :=
  ((s.liveRanks.filter (Rank.onCore core)).map Rank.coreBanks).foldl Nat.max 0

/-- The cores of a cluster that an owner holds, ascending. -/
def State.heldCores (s : State) (cluster owner : Nat) : List Nat :=
  ((List.range 16).map fun k => 16 * cluster + k).filter fun c => s.own.holder 0x01 c == owner

/-- The cores that the banks of a new tile come from: the issuing core, or the owner's cores of the cluster. -/
def State.tileCores (s : State) (h : Nat) : List Nat :=
  if h < 64 then [s.co.num] else s.heldCores (clusterOf s.co.num) s.owner

/-- Whether a new tile finds its banks (R81). -/
def State.banksFree (s : State) (t : Tile) : Bool :=
  if t.handle < 64 then s.clusterBanks s.co.num + s.rk.coreBanks + t.banks ≤ 96
  else !t.cores.isEmpty && t.cores.all fun c => s.clusterBanks c + t.banksOn c + s.rankBanks c ≤ 96

/-- A tile as `tal` leaves it: EMPTY, zero, its clearing under way. -/
def State.freshTile (s : State) (h : Nat) (shape : Word) : Tile :=
  { handle := h, shape := shape.setWidth 36, state := .empty, filled := 0, reads := 0, emptying := false, clearing := true, bytes := [],
    launch := s.rk.key.launch, run := s.rk.run, cluster := clusterOf s.co.num, cores := s.tileCores h, ended := false }

/-- The state with a tile added to the table of its level. -/
def State.addTile (s : State) (t : Tile) : State :=
  if t.handle < 64 then { s with rk := { s.rk with tiles := s.rk.tiles ++ [t] } }
  else { s with eng := { s.eng with tiles := s.eng.tiles ++ [t] } }

/-- The state without the tile a handle names. -/
def State.dropTile (s : State) (h : Nat) : State :=
  if h < 64 then { s with rk := { s.rk with tiles := removeFirst (fun t => t.handle == h) s.rk.tiles } }
  else
    let mine := fun (t : Tile) => t.isCluster s.rk.key.launch s.rk.run (clusterOf s.co.num) h
    { s with eng := { s.eng with tiles := removeFirst mine s.eng.tiles } }

/-! ### Tile instructions (R191) -/

/-- The check of a tile operand's word: only its handle is named (R188). -/
def State.handleOk (s : State) (w : Word) (k : Nat → Out) : Out :=
  if zeroAt w 7 57 then k (field w 0 7) else .next (s.trap Cause.operand w)

/-- `tal` (R81, R191). [DESIGN CHOICE log 40] -/
def execTal (d a b : Reg) (_la : Fin 16) (s : State) : Out :=
  s.handleOk (s.x a) fun h =>
    let shape := s.x b
    let t := s.freshTile h shape
    if !shapeOk shape then .next (s.trap Cause.operand shape)
    else if (s.tile? h).isSome then .next (s.trap Cause.tileAlloc (allocVal h 1))
    else if !s.banksFree t then .next (s.trap Cause.tileAlloc (allocVal h 2))
    else if 64 ≤ h && 256 ≤ (s.eng.tiles.filter fun q => q.cluster == clusterOf s.co.num).length then
      .next (s.trap Cause.tileAlloc (allocVal h 3))
    else .next ((s.addTile t).setX d (tileWord (some t))).advance

/-- The frame of an instruction that changes an allocated tile's state: TILEALLOC for a free handle, a wait while counted reads remain
(R85, R192), then TILESTATE where R83 does not list the state. -/
def State.onTile (s : State) (h : Nat) (ok : TileState → Bool) (waits : Bool) (k : Tile → Out) : Out :=
  match s.tile? h with
  | none => .next (s.trap Cause.tileAlloc (allocVal h 0))
  | some t =>
    if waits && t.reads != 0 then .next (s.waitFor .tileReads)
    else if !ok t.state then .next (s.trap Cause.tileState (stateVal h t.state))
    else k t

/-- A tile given a state and fill mark, and X[D] its status word afterwards. -/
def State.restate (s : State) (d : Reg) (h : Nat) (st : TileState) (filled : Nat) : Out :=
  let t := s.setTile h fun t => { t with state := st, filled := filled }
  .next (t.setX d (tileWord (t.tile? h))).advance

/-- `tfree` (R191). -/
def execTfree (d a : Reg) (_la : Fin 16) (s : State) : Out :=
  s.handleOk (s.x a) fun h =>
    s.onTile h (fun st => st == .empty || st == .full) true fun _ => .next ((s.dropTile h).setX d 0).advance

/-- `tseal` (R191). -/
def execTseal (d a : Reg) (_la : Fin 16) (s : State) : Out :=
  s.handleOk (s.x a) fun h =>
    s.onTile h (fun st => st == .empty || st == .filling) false fun t => s.restate d h .full t.rows

/-- `trel` (R191). -/
def execTrel (d a : Reg) (_la : Fin 16) (s : State) : Out :=
  s.handleOk (s.x a) fun h => s.onTile h (fun st => st == .full) true fun _ => s.restate d h .empty 0

/-- `tstat` (R87): 0 for a free handle. -/
def execTstat (d a : Reg) (_la : Fin 16) (s : State) : Out :=
  s.handleOk (s.x a) fun h => .next (s.setX d (tileWord (s.tile? h))).advance

/-! ### The ends of clearing and of reads (R85, R191) -/

/-- The clearing of an allocated tile ends: no access saw an uncleared row (R191). -/
def execTileClearEnd (k : RankKey) (h : Fin 128) (s : State) : Out :=
  let clearing := fun (r : Rank) =>
    match s.tileOf k r.run (clusterOf r.core) h.val with
    | none => false
    | some t => t.clearing
  match s.runWhere k clearing with
  | none => .next s
  | some r => .next (s.updTile k r.run (clusterOf r.core) h.val fun t => { t with clearing := false })

/-- A tile EMPTY once no counted read of it remains (R84, R85). -/
def Tile.empties (t : Tile) : Tile :=
  if t.reads = 0 then { t with state := .empty, filled := 0, emptying := false } else { t with emptying := true }

/-- A counted read of a tile ends, the last with a change to EMPTY that waits for it. [DEDUCED log 47] -/
def Tile.readEnds (t : Tile) : Tile :=
  let u := { t with reads := t.reads - 1 }
  if u.emptying then u.empties else u

/-- A counted read of a tile starts (R85, R192). [DEDUCED log 47] -/
def Tile.readStarts (t : Tile) : Tile := { t with reads := t.reads + 1 }

/-! ### Tickets (R196 to R198, R228, R233) -/

/-- Which counter of a rank numbers a command: channels 0 to 3, graphs, launches, collectives. -/
def ticketLine (kind : TicketKind) (chan : Nat) : Fin 7 :=
  match kind with
  | .copy => ⟨chan % 4, by omega⟩
  | .graph => 4
  | .launch => 5
  | .coll => 6

/-- SEQ of the command that follows n earlier ones: from 1, and after 2^32 - 1 at 1 again. -/
def ticketSeq (n : Nat) : Nat := n % (2^32 - 1) + 1

/-- The ticket layout of R196. -/
def ticketWord (chan seq : Nat) : Word := wd (2^34 + chan * 2^32 + seq)

/-- SEQ of the rank's next command of a kind. -/
def Rank.nextSeq (r : Rank) (kind : TicketKind) (chan : Nat) : Nat := ticketSeq r.issued[ticketLine kind chan]

/-- The rank after it issued a command of a kind, its status in a state. -/
def Rank.issue (r : Rank) (kind : TicketKind) (chan state total : Nat) : Rank :=
  let line := ticketLine kind chan
  { r with
    tickets := r.tickets ++ [⟨kind, chan, r.nextSeq kind chan, state, 0, total, false⟩]
    issued := r.issued.set line (r.issued[line] + 1) }

def Ticket.isAt (t : Ticket) (kind : TicketKind) (chan seq : Nat) : Bool := t.kind == kind && t.chan == chan && t.seq == seq

/-- Something has reached a rank: where it is switched out, its saved image does not show it yet (R46, R47). -/
def Rank.reached (r : Rank) : Rank := { r with behind := r.behind || r.state == .folded || r.state == .saved }

/-- The rank with f applied to its ticket of that number. -/
def Rank.updTicket (r : Rank) (kind : TicketKind) (chan seq : Nat) (f : Ticket → Ticket) : Rank :=
  { r with tickets := updFirst (fun t => t.isAt kind chan seq && t.outstanding) f r.tickets }.reached

/-- The latest ticket of that number, and the tickets of its line issued after it. -/
def findTicket (kind : TicketKind) (chan seq : Nat) : List Ticket → Option (Ticket × List Ticket)
  | [] => none
  | t :: r =>
    match findTicket kind chan seq r with
    | some q => some q
    | none => if t.isAt kind chan seq then some (t, r.filter fun u => u.kind == kind && u.chan == chan) else none

/-- The status word of a ticket: STATE with the low bits given, or AGED (R197, R198). -/
def statusWord (aged : Bool) (state low : Nat) : Word :=
  if aged then wd (2^35 + 2^34 + 2 * 2^32) else wd (2^34 + state * 2^32 + low)

/-- Whether a copy ticket's status is no longer kept: 16 later commands of its channel have ended (R196). -/
def copyAged (later : List Ticket) : Bool := 16 ≤ (later.filter fun t => !t.outstanding).length

/-- Whether a graph's, launch's or collective's status is no longer kept: 16 are more recent. -/
def recentAged (later : List Ticket) : Bool := 16 ≤ later.length

/-- The frame of a status instruction: unnamed bits of the ticket take OPERAND, a ticket never issued gives 0. -/
def State.onTicket (s : State) (d : Reg) (w : Word) (kind : TicketKind) (k : Ticket → List Ticket → Word) : Out :=
  if !zeroAt w 35 29 then .next (s.trap Cause.operand w)
  else
    let v := if !bitAt w 34 then 0 else
      match findTicket kind (field w 32 2) (field w 0 32) s.rk.tickets with
      | none => 0
      | some (t, later) => k t later
    .next (s.setX d v).advance

/-- `cpstat` (R197). -/
def execCpstat (d a : Reg) (_la : Fin 16) (s : State) : Out :=
  s.onTicket d (s.x a) .copy fun t later => statusWord (copyAged later) t.state t.done

end Sys2Proof.Machine
end

