-- ==== Sys2Proof/Machine/Copyist.lean ====
section
/-! DEFINITION. The copyist (10 R193 to R197, 05 R96, 21 R273): its commands, the start, the chunks and the rows of a copy, its end and its
faults (19 R333 to R335), and the fault of a graph node. What one step moves is translated whole before a byte of it moves. -/

namespace Sys2Proof.Machine

open Sys2Proof

/-! ### Faults of engines (R334, R335) -/

/-- The fault bits of cr.est by engine (R145): matrix, copyist, collectives. -/
def faultBit (k : Fin 3) : BitVec 3 := BitVec.ofNat 3 (2^k.val)

/-- The rank with a fault bit set. -/
def Rank.faulted (r : Rank) (k : Fin 3) : Rank := { r with faults := r.faults ||| faultBit k }

def Rank.graph? (r : Rank) (slot : Nat) : Option Graph := r.graphs.find? fun g => g.slot == slot

def Rank.updGraph (r : Rank) (slot : Nat) (f : Graph → Graph) : Rank :=
  { r with graphs := updFirst (fun g => g.slot == slot) f r.graphs }

/-- The list with f applied to its n-th element. -/
def updNth {α : Type} (f : α → α) : (n : Nat) → List α → List α
  | _, [] => []
  | 0, a :: r => f a :: r
  | n + 1, a :: r => a :: updNth f n r

def Graph.setNode (g : Graph) (n : Nat) (st : NodeState) : Graph :=
  { g with nodes := updNth (fun d => { d with state := st }) n g.nodes }

/-- Whether a node stands in a state. -/
def Graph.nodeIs (g : Graph) (n : Nat) (st : NodeState) : Bool :=
  match g.nodes[n]? with
  | none => false
  | some d => d.state == st

/-- Whether a graph has ended: complete, or faulted with no node running and none able to start (R94). -/
def Graph.ended (g : Graph) : Bool :=
  g.nodes.all (fun d => d.state == .finished)
    || (g.faulted && g.nodes.all fun d => d.state != .running && !(d.state == .waiting && d.count == 0))

/-- The rank after a graph that has ended gave up its slot; one that completed has STATE 2 (R94, R198). -/
def Rank.settleGraph (r : Rank) (slot : Nat) : Rank :=
  match r.graph? slot with
  | none => r
  | some g =>
    if !g.ended then r
    else
      let r := { r with graphs := r.graphs.filter fun h => h.slot != slot }
      if g.faulted then r else r.updTicket .graph 0 g.seq fun t => { t with state := 2 }

/-- A node faults: its graph goes to STATE 3, its engine's fault bit is set, and GRAPHFAULT is written (R334, R335). -/
def State.nodeFault (s : State) (k : RankKey) (run slot node reason : Nat) (bit : Option (Fin 3)) : State :=
  let r := s.rankOf k run
  match r.graph? slot with
  | none => s
  | some g =>
    if !g.nodeIs node .running then s else
    let t := s.updRank k run fun r =>
      let r := match bit with | none => r | some b => r.faulted b
      let r := r.updGraph slot fun g => { (g.setNode node .faulted) with faulted := true }
      ((r.updTicket .graph 0 g.seq fun t => { t with state := 3 }).settleGraph slot).reached
    t.report { errRec Err.graphFault r.id.owner.toNat (g.addr + wd (64 * node)) (wd node) (wd reason) with
      core := r.core, ctx := g.ctx }

/-! ### Commands -/

/-- The module's number of a channel of the copyist that serves a core. -/
def channelOf (core chan : Nat) : Nat := 4 * clusterOf core + chan % 4

def CopyCmd.handle (c : CopyCmd) : Nat := field c.control 0 7
def CopyCmd.row0 (c : CopyCmd) : Nat := field c.control 16 12
def CopyCmd.nrows (c : CopyCmd) : Nat := field c.control 32 13

/-- Whether a command names a tile. -/
def CopyCmd.onTile (c : CopyCmd) : Bool := c.kind == .copyIn || c.kind == .copyOut

/-- The tile a command names: its rank's, or one of its launch in the channel's cluster (R79). -/
def State.copyTile (s : State) (c : CopyCmd) : Option Tile := s.tileOf c.key c.run (c.chan / 4) c.handle

def State.updCopyTile (s : State) (c : CopyCmd) (f : Tile → Tile) : State := s.updTile c.key c.run (c.chan / 4) c.handle f

/-- The command that a channel runs: the first of its arrivals (R96). -/
def State.copyHead (s : State) (ch : Nat) : Option CopyCmd :=
  if ch < 384 then s.eng.copies.find? fun c => c.chan == ch else none

def State.updCopy (s : State) (ch : Nat) (f : CopyCmd → CopyCmd) : State :=
  { s with eng := { s.eng with copies := updFirst (fun c => c.chan == ch) f s.eng.copies } }

/-- Whether a request belongs to a copyist channel's command. -/
def Request.ofChannel (ch : Nat) (q : Request) : Bool :=
  match q.issuer with
  | .copy c _ => c == ch
  | .load .. | .fullEmpty .. | .store .. | .multicast .. | .leg _ => false

/-- The command that a channel runs leaves it; what completions of its packets are yet to come answer no other command. -/
def State.dropCopy (s : State) (ch : Nat) : State :=
  { s with
    eng := { s.eng with copies := removeFirst (fun c => c.chan == ch) s.eng.copies }
    fab := { s.fab with requests := s.fab.requests.filter fun q => !q.ofChannel ch } }

/-- Whether a command of the channel still has a request without its completion. [DEDUCED log 44] -/
def State.copyAsks (s : State) (ch : Nat) : Bool := s.fab.requests.any (Request.ofChannel ch)

/-- A command or node accepted by a channel of the issuing core's cluster. -/
def State.copyOf (s : State) (kind : CopyKind) (chan : Nat) (mem src control : Word) (pitch bytes : Nat) : CopyCmd :=
  { chan := channelOf s.co.num chan, key := s.rk.key, run := s.rk.run, ctx := s.cx.num, core := s.co.num, owner := s.owner,
    keyid := s.cx.cr.keyid, kind := kind, mem := mem, src := src, control := control, pitch := pitch, bytes := bytes,
    seq := s.rk.nextSeq .copy chan, node := none, started := false, done := 0, record := none, ring := none, got := [],
    moved := false, counted := kind == .copyOut, lease := none }

def State.acceptCopy (s : State) (c : CopyCmd) : State := { s with eng := { s.eng with copies := s.eng.copies ++ [c] } }

/-- Whether the rank has as many commands outstanding on a channel as it may hold (R339). -/
def Rank.channelFull (r : Rank) (chan : Nat) : Bool :=
  16 ≤ (r.tickets.filter fun t => t.kind == .copy && t.chan == chan % 4 && t.outstanding).length

/-- A command's acceptance: its ticket is issued, queued, and X[D] receives it; the seventeenth on a channel waits. -/
def State.copyCommand (s : State) (d : Reg) (chan : Nat) (c : CopyCmd) : Out :=
  if s.rk.channelFull chan then .next (s.waitFor .acceptance)
  else
    let t := if c.counted then s.setTile c.handle Tile.readStarts else s
    let t := (t.acceptCopy c).updRank s.rk.key s.rk.run fun r => r.issue .copy (chan % 4) 0 c.bytes
    .next (t.setX d (ticketWord (chan % 4) c.seq)).advance

/-- Whether the owner holds a channel. -/
def State.holdsChannel (s : State) (owner ch : Nat) : Bool := s.own.holder 0x05 ch == owner

/-- Whether a word is a control word of R193. -/
def controlOk (w : Word) : Bool :=
  zeroAt w 7 1 && zeroAt w 10 6 && zeroAt w 28 4 && 1 ≤ field w 32 13 && field w 32 13 ≤ 4096

/-- The shared body of `cpin` and `cpout` (R193, R320). -/
def State.copyTileCommand (s : State) (kind : CopyKind) (d a b : Reg) : Out :=
  let w := s.x b
  let chan := field w 8 2
  let h := field w 0 7
  if misaligned (s.x a) 64 then .next (s.trap Cause.operand (s.x a))
  else if !controlOk w then .next (s.trap Cause.operand w)
  else
    match s.tile? h with
    | none => .next (s.trap Cause.tileAlloc (allocVal h 0))
    | some _ =>
      if !s.holdsChannel s.owner (channelOf s.co.num chan) then
        .next (s.trap Cause.resource (descriptor 0x05 (channelOf s.co.num chan)))
      else s.copyCommand d chan (s.copyOf kind chan (s.x a) 0 w (field w 45 19 * 64) 0)

/-- `cpin` (R193). -/
def execCpin (d a b : Reg) (_la : Fin 16) (s : State) : Out := s.copyTileCommand .copyIn d a b

/-- `cpout` (R193): its read of the tile counts from its commit (R192). -/
def execCpout (d a b : Reg) (_la : Fin 16) (s : State) : Out := s.copyTileCommand .copyOut d a b

/-- The shared body of `cpg` and `cpx` (R194): the size word is X[D]. -/
def State.copyBytesCommand (s : State) (kind : CopyKind) (d a b : Reg) (ok : Bool) (bad : Word) : Out :=
  let w := s.x d
  let chan := field w 32 2
  if !ok then .next (s.trap Cause.operand bad)
  else if !s.holdsChannel s.owner (channelOf s.co.num chan) then
    .next (s.trap Cause.resource (descriptor 0x05 (channelOf s.co.num chan)))
  else s.copyCommand d chan (s.copyOf kind chan (s.x a) (s.x b) 0 0 (field w 0 32))

/-- `cpg` (R194). -/
def execCpg (d a b : Reg) (_la : Fin 16) (s : State) : Out :=
  let w := s.x d
  s.copyBytesCommand .copy d a b (zeroAt w 34 30 && field w 0 32 != 0) w

/-- `cpx` (R194): a lossy one needs multiples of 256, at most 16,384 bytes. -/
def execCpx (d a b : Reg) (_la : Fin 16) (s : State) : Out :=
  let w := s.x d
  let n := field w 0 32
  let sized := zeroAt w 34 6 && zeroAt w 41 23 && n != 0
  if !bitAt w 40 then s.copyBytesCommand .remoteExact d a b sized w
  else if misaligned (s.x a) 256 then s.copyBytesCommand .remoteLossy d a b false (s.x a)
  else if misaligned (s.x b) 256 then s.copyBytesCommand .remoteLossy d a b false (s.x b)
  else s.copyBytesCommand .remoteLossy d a b (sized && n % 256 == 0 && n ≤ 16384) w

/-! ### The end and the fault of a command -/

/-- The command at the head of a channel has ended: its ticket has STATE 2, or its node is done (R195, R196). -/
def State.finishCopy (s : State) (c : CopyCmd) : State :=
  let t := match c.kind with
    | .copyIn => s.updCopyTile c fun t => { t with state := .full }
    | .copyOut | .copy | .remoteExact | .remoteLossy => s
  let t := t.dropCopy c.chan
  match c.node with
  | some _ => t
  | none => t.updRank c.key c.run fun r =>
      r.updTicket .copy (c.chan % 4) c.seq fun t => { t with state := 2, done := c.bytes, total := c.bytes }

/-- The bytes of a command whose chunks have completed: its progress pointer (R96). Only a copy-in stands between two of them, at a row.
[DEDUCED log 41] -/
def CopyCmd.pointer (c : CopyCmd) (rowBytes : Nat) : Nat :=
  if c.kind != .copyIn || c.bytes ≤ c.done then c.done else c.done - (c.row0 * rowBytes + c.done) % 65536

/-- The progress pointer of a command. -/
def State.progressOf (s : State) (c : CopyCmd) : Nat := c.pointer (((s.copyTile c).map Tile.rowBytes).getD 1)

/-- DONE of a command's ticket (R197): the bytes whose chunks have completed. [DEDUCED log 44] -/
def State.tellProgress (s : State) (c : CopyCmd) (done : Nat) : State :=
  if c.node.isSome then s
  else s.updRank c.key c.run fun r => r.updTicket .copy (c.chan % 4) c.seq fun t => { t with done := done }

/-- The command at the head of a channel ends if every byte has moved, every request is completed and, for a copy-out, its tile has become
EMPTY (R83, R195). [DEDUCED log 44] -/
def State.settleCopy (s : State) (ch : Nat) : State :=
  match s.copyHead ch with
  | none => s
  | some c =>
    if !c.started || s.copyAsks ch then s
    else if c.done < c.bytes then s.tellProgress c (s.progressOf c)
    else if c.kind == .copyOut then
      match s.copyTile c with
      | some t => if t.emptying then s else s.finishCopy c
      | none => s.finishCopy c
    else s.finishCopy c

/-- The tile of a faulted command (R333): unchanged if found at the start; mid-copy EMPTY for a copy-in, once no counted read of it remains (R85),
FULL for a copy-out. The counted read of a copy-out ends with it. -/
def State.copyTileFault (s : State) (c : CopyCmd) : State :=
  match c.kind with
  | .copyIn => if c.started then s.updCopyTile c Tile.empties else s
  | .copyOut =>
    let t := s.updCopyTile c fun t => if c.counted && (c.done < c.bytes || !c.started) then t.readEnds else t
    if c.started && c.done < c.bytes then t.updCopyTile c fun t => { t with state := .full } else t
  | .copy | .remoteExact | .remoteLossy => s

/-- The command at the head of a channel faults (R334): fault bit 19, STATE 3 and CPFAULT, or the fault of its node. -/
def State.faultCopy (s : State) (c : CopyCmd) (reason : Nat) (val2 : Word) : State :=
  let t := (s.copyTileFault c).dropCopy c.chan
  let t := { t with disp := { t.disp with records := dropWaiters (Waiter.isCopy c) t.disp.records } }
  match c.node with
  | some (slot, n) => t.nodeFault c.key c.run slot n reason (some 1)
  | none =>
    let t := t.updRank c.key c.run fun r =>
      (r.updTicket .copy (c.chan % 4) c.seq fun t => { t with state := 3 }).faulted 1
    t.report { errRec Err.cpFault c.owner (ticketWord (c.chan % 4) c.seq) (wd reason) val2 with core := c.core, ctx := c.ctx }

/-- The handle of a command, as VALUE2 of a fault of reason 1. -/
def CopyCmd.handleWord (c : CopyCmd) : Word := wd c.handle

/-! ### Places of a copy -/

/-- One end of a piece: bytes of the named tile, or of memory. -/
inductive Spot where
  | tile (off : Nat)
  | mem (va : Word)
  deriving DecidableEq, Repr

def Spot.pos : Spot → Nat
  | .tile off => off
  | .mem va => va.toNat

/-- A piece of a copy: it crosses no 8-byte boundary at either end. -/
structure Piece where
  src : Spot
  dst : Spot
  len : Nat
  deriving DecidableEq, Repr

/-- Source and destination of the byte at an offset of a command, and how far both go on (R193, R194). -/
def CopyCmd.spots (c : CopyCmd) (rowBytes off : Nat) : Spot × Spot × Nat :=
  let pitch := if c.pitch = 0 then rowBytes else c.pitch
  let mem := c.mem + wd (off / rowBytes * pitch + off % rowBytes)
  let tile := Spot.tile (c.row0 * rowBytes + off)
  match c.kind with
  | .copyIn => (.mem mem, tile, rowBytes - off % rowBytes)
  | .copyOut => (tile, .mem mem, rowBytes - off % rowBytes)
  | .copy | .remoteExact | .remoteLossy => (.mem (c.src + wd off), .mem (c.mem + wd off), c.bytes - off)

/-- The pieces of a chunk: from an offset on, up to 64 KiB and to the next 64 KiB boundary of the destination (R96). [DEDUCED log 41] -/
def CopyCmd.pieces (c : CopyCmd) (rowBytes block limit : Nat) : (fuel : Nat) → (off : Nat) → List Piece
  | 0, _ => []
  | fuel + 1, off =>
    if limit ≤ off then []
    else
      let q := c.spots rowBytes off
      if q.2.1.pos / 65536 != block then []
      else
        let n := Nat.min (Nat.min q.2.2 (limit - off)) (Nat.min (8 - q.1.pos % 8) (8 - q.2.1.pos % 8))
        ⟨q.1, q.2.1, n⟩ :: c.pieces rowBytes block limit fuel (off + n)

/-- The pieces from a command's progress on to a limit within its chunk. [DEDUCED log 41] -/
def CopyCmd.piecesTo (c : CopyCmd) (rowBytes limit : Nat) : List Piece :=
  c.pieces rowBytes ((c.spots rowBytes c.done).2.1.pos / 65536) (Nat.min c.bytes limit) 65536 c.done

/-- The next chunk of a command, or what is left of it. [DEDUCED log 41] -/
def CopyCmd.chunk (c : CopyCmd) (rowBytes : Nat) : List Piece := c.piecesTo rowBytes (c.done + 65536)

/-- The next row of a copy-in, or what is left of it (R84). -/
def CopyCmd.row (c : CopyCmd) (rowBytes : Nat) : List Piece := c.piecesTo rowBytes ((c.done / rowBytes + 1) * rowBytes)

/-- Where one end of a piece lies. -/
inductive Site where
  | tile (off : Nat)
  | here (pa : Nat) (repl : Bool)
  | host (pa : Nat)
  | remote (node : Nat) (addr : Word) (last : Nat)
  deriving DecidableEq, Repr

/-- Why a piece cannot move: a fault to be posted, a fault of the engine, host space without a live VF (1) or a lease (4) as R342
numbers them, or a place that is held for now. -/
inductive Trouble where
  | replay (va : Word) (cause : BitVec 8) (acc : Access) (pin : Bool)
  | bad (reason : Nat) (val : Word)
  | noHost (reason pa : Nat) (va : Word)
  | later
  deriving DecidableEq, Repr

/-- The fault that waits for a place in the ring, once more (R308). [DEDUCED log 31] -/
def RingWait.trouble (w : RingWait) : Trouble := .replay w.va w.cause w.acc false

/-- A fault that waits for a place in the ring goes before anything else of its reader (R308). [DEDUCED log 31] -/
def ringFault {ε α : Type} (f : Trouble → ε) (ring : Option RingWait) (r : Except ε α) : Except ε α :=
  match ring with
  | some w => .error (f w.trouble)
  | none => r

/-- The translation of one end, under the command's owner (R195); a noncanonical or unbacked address is reason 3. -/
def State.site (s : State) (owner : Nat) (acc : Access) : Spot → Except Trouble Site
  | .tile off => .ok (.tile off)
  | .mem va =>
    if !canonical va then .error (.bad 3 va)
    else
      match translate s.ms s.tick (s.own.ownerOr owner) va acc with
      | .at pa l =>
        if hostSpace pa then
          if (s.liveVfs owner).isEmpty then .error (.noHost 1 pa va)
          else if s.host.leased then .ok (.host pa) else .error (.noHost 4 pa va)
        else if s.ms.movingAt pa || (!acc.writes && pteRepl l.entry && s.ms.pendingAt pa 8) then .error .later
        else .ok (.here pa (pteRepl l.entry))
      | .remote node addr last _ => .ok (.remote node addr last)
      | .page => .error (.replay va Cause.page acc false)
      | .perm l => .error (.replay va Cause.perm acc (ptePin l.entry))
      | .held => .error .later
      | .unbacked => .error (.bad 3 va)

/-- The ends of every piece, or the first trouble. -/
def State.sites (s : State) (owner : Nat) : List Piece → Except Trouble (List (Piece × Site × Site))
  | [] => .ok []
  | p :: r =>
    match s.site owner .engineRead p.src with
    | .error e => .error e
    | .ok a =>
      match s.site owner .engineWrite p.dst with
      | .error e => .error e
      | .ok b =>
        match s.sites owner r with
        | .error e => .error e
        | .ok l => .ok ((p, a, b) :: l)

/-- A and D set in the leaves that the pieces used (R102). -/
def State.markSpot (s : State) (owner : Nat) (acc : Access) : Spot → State
  | .tile _ => s
  | .mem va =>
    let o := s.own.ownerOr owner
    { (s.logWalk o acc va) with ms := markFound o acc s.ms (va, translate s.ms s.tick o va acc) }

/-- A copy that may not reach host space: it fails at once, or, for want of a lease, after 1 ms (R280, R349). -/
def State.copyUnleased (s : State) (c : CopyCmd) (reason pa : Nat) (va : Word) : State :=
  let fails := (s.report (errRec Err.hostAccess c.owner (wd pa) (wd reason) (wd (s.lowestVf c.owner)))).faultCopy c 5 va
  if reason = 1 then fails
  else
    match c.lease with
    | none => s.updCopy c.chan fun c => { c with lease := some s.time }
    | some t => if t + 1000000 ≤ s.time then fails else s

/-- What an engine does about a trouble: a fault record for which the channel waits (R306, R327), fault-lock of the issuing context
on a PIN page or a bad queue (R309, R329), a fault of the command, or nothing yet. [DEDUCED log 36] -/
def State.copyTrouble (s : State) (c : CopyCmd) : Trouble → State
  | .later => s
  | .bad reason val => s.faultCopy c reason val
  | .noHost reason pa va => s.copyUnleased c reason pa va
  | .replay va cause acc pin =>
    if pin then s.inContext c.key c.run c.ctx fun t => t.faultLock cause va
    else
      let ticket := if c.node.isSome then 0 else ticketWord (c.chan % 4) c.seq
      let words := faultWords acc cause 1 va 0 c.owner c.core c.ctx c.key.rank s.time ticket
      match s.postFault c.ring (some (c.key, c.run, c.ctx)) (.channel c.chan) c.owner va cause words with
      | .held => s
      | .done t num => t.updCopy c.chan fun c => { c with record := some num, ring := none }
      | .ringFull =>
        match c.ring with
        | none => s.updCopy c.chan fun c => { c with ring := some ⟨s.time, va, cause, acc, s.tick⟩ }
        | some w =>
          if w.since + 1000000 ≤ s.time && !s.haltedRank c.key c.run then
            (s.report { errRec Err.faultDeny c.owner va 0 0 with core := c.core, ctx := c.ctx }).faultCopy c 2 va
          else s
      | .badQueue => s.inContext c.key c.run c.ctx fun t => t.faultLock cause (addr53 (s.own.ownerOr c.owner).faultq)

/-! ### Words that the walker, the dispatchers and collectives read (R34, R94, R231) -/

/-- The aligned word at an address, read under an owner's translation. `die` names the copy of a replicated page (R110). A word
that lies off this module's memory cannot be read. [DESIGN CHOICE log 30] -/
def State.engineWord (s : State) (owner : Nat) (acc : Access) (die : Nat) (va : Word) : Except Trouble Word :=
  match s.site owner acc (.mem va) with
  | .error (.noHost ..) => .error (.bad 5 va)
  | .error e => .error e
  | .ok (.here pa repl) =>
    .ok (wd (readLE s.ms.mem (if repl then pa + die * 2^21 else s.ms.homeAddr pa) 8))
  | .ok (.tile _) | .ok (.host _) | .ok (.remote ..) => .error (.bad 5 va)

/-- The eight words of the aligned line at an address: one translation serves them all. -/
def State.engineLine (s : State) (owner : Nat) (acc : Access) (die : Nat) (va : Word) : Except Trouble (List Word) :=
  match s.site owner acc (.mem va) with
  | .error (.noHost ..) => .error (.bad 5 va)
  | .error e => .error e
  | .ok (.here pa repl) =>
    let a := if repl then pa + die * 2^21 else s.ms.homeAddr pa
    .ok ((List.range 8).map fun i => wd (readLE s.ms.mem (a + 8 * i) 8))
  | .ok (.tile _) | .ok (.host _) | .ok (.remote ..) => .error (.bad 5 va)

/-- The eight words of the line at an address; one off this module gives what requests have brought already, in order, or the address of the
next word that is to be asked for. -/
def State.lineFrom (s : State) (owner : Nat) (acc : Access) (die : Nat) (va : Word) (got : List Nat) : Except Trouble (List Word × List Nat) :=
  match s.engineLine owner acc die va with
  | .ok ws => .ok (ws, got)
  | .error (.bad 5 _) => if 8 ≤ got.length then .ok ((got.take 8).map wd, got.drop 8) else .error (.bad 5 (va + wd (8 * got.length)))
  | .error e => .error e

/-- A word of the issuing context's record or descriptor asked for where it lies in host space or on another module. [DESIGN CHOICE log 124] -/
def State.readAway (s : State) (acc : Access) (va : Word) : State :=
  let t := s.markSpot s.owner acc (.mem va)
  match translate s.ms s.tick (s.own.ownerOr s.owner) va acc with
  | .at pa _ => match t.hostAccess false pa va 8 .read 0 with
    | .ok u | .error u => u
  | .remote node addr _ _ => t.remoteLoad .read node addr va 8 0
  | .page | .perm _ | .held | .unbacked => s

/-- The answer to a request of `readAway` kept with those before it. -/
def State.keepAnswer (s : State) : State :=
  match s.cx.answer with
  | some v => { s with cx := { s.cx with wait := .none, answer := none, lanes := s.cx.lanes ++ [v.toNat] } }
  | none => s

/-- The n words from an address on. -/
def State.engineWords (s : State) (owner : Nat) (acc : Access) (die : Nat) (va : Word) : (n : Nat) → Except Trouble (List Word)
  | 0 => .ok []
  | n + 1 =>
    match s.engineWord owner acc die va with
    | .error e => .error e
    | .ok w =>
      match s.engineWords owner acc die (va + 8) n with
      | .error e => .error e
      | .ok r => .ok (w :: r)

/-- A set in the leaf of each of the n words from an address on, and the reads logged, on a replicated page those of a die's copy (R102,
R293). -/
def State.markWords (s : State) (owner agent die : Nat) (acc : Access) (va : Word) : (n : Nat) → State
  | 0 => s
  | n + 1 =>
    let t := s.markSpot owner acc (.mem va)
    let t := match s.site owner acc (.mem va) with
      | .ok (.here pa repl) =>
        { t with ms := t.ms.recall pa }.logAccess agent owner 4 (if repl then pa + die * 2^21 else pa)
      | .ok (.tile _) | .ok (.host _) | .ok (.remote ..) | .error _ => t
    t.markWords owner agent die acc (va + 8) n

/-! ### Chunks (R96) -/

/-- A request of a channel, with the sending agent of R264; to the host it goes at once, with no packet number. [DESIGN CHOICE log 45] -/
def State.copyRequest (s : State) (c : CopyCmd) (kind : ReqKind) (dest : Nat) (host : Bool) (addr here : Word) (bytes : Nat)
    (payload : List Byte) (block : Option (Nat × Nat × Nat)) : State :=
  let sagent := c.core * 16 + 11 + c.chan % 4
  let s := if host then s.claimHost c.owner else s
  let q : Request :=
    { id := s.fab.nextId, issuer := .copy c.chan c.seq, kind := kind, dest := dest, sagent := sagent,
      pseq := if host then 0 else s.fab.nextPseq sagent dest, keyid := c.keyid, addr := addr, local_ := here, bytes := bytes,
      data := wd (leNat (payload.take 8)), time := s.time, deadline := s.time + 12000, owner := c.owner, injected := host,
      entry := 0, host := host, ivc := 0, failed := 0, payload := payload, block := block, weight := 1, via := dest,
      vf := if host then s.lowestVf c.owner else 0, nodes := [], copies := [], resent := false, marked := false }
  let f := if host || block.isSome then s.fab else s.fab.bumpPseq sagent dest
  { s with fab := { f with requests := f.requests ++ [q], nextId := f.nextId + 1 } }

/-- The read of one piece's source that lies off this module. [DESIGN CHOICE log 45] -/
def State.askRead (s : State) (c : CopyCmd) (p : Piece) : Site → State
  | .host pa => s.copyRequest c .read 0 true (wd pa) (wd p.src.pos) p.len [] none
  | .remote node addr _ => s.copyRequest c .read node false addr (wd p.src.pos) p.len [] none
  | .tile _ | .here .. => s

def Site.away : Site → Bool
  | .host _ | .remote .. => true
  | .tile _ | .here .. => false

/-- A byte of the source: where the command has meanwhile written another value over it, either may be taken (R96). [DEDUCED log 42] -/
def copiedByte (tick : Nat) (old new : Memory) (pa : Nat) : Byte :=
  let b := readByte old pa
  let n := readByte new pa
  if b = n then b else if Config.overlapNew tick pa then n else b

/-- [DEDUCED log 42] -/
def copiedBytes (tick : Nat) (old new : Memory) (pa : Nat) : (n : Nat) → List Byte
  | 0 => []
  | n + 1 => copiedByte tick old new pa :: copiedBytes tick old new (pa + 1) n

/-- The bytes of one piece, and what remains of the words that reads off this module brought. -/
def State.pieceBytes (s : State) (c : CopyCmd) (old : Memory) (p : Piece) (got : List Word) : Site → List Byte × List Word
  | .tile off =>
    match s.copyTile c with
    | none => (List.replicate p.len 0, got)
    | some t => (cellsBytes t.bytes off p.len, got)
  | .here pa repl =>
    let a := if repl then pa + dieOfCluster (c.chan / 4) * 2^21 else s.ms.homeAddr pa
    (copiedBytes s.tick old s.ms.mem a p.len, got)
  | .host _ | .remote .. =>
    match got with
    | [] => (List.replicate p.len 0, [])
    | w :: r => (leBytes p.len w.toNat, r)

/-- Whether a request is the packet that further bytes at an address of a module may join: at most 4 KiB (R264). -/
def Request.joins (q : Request) (ch node : Nat) (addr : Word) (n : Nat) : Bool :=
  q.ofChannel ch && !q.injected && q.dest == node && q.kind == .write && q.addr + wd q.payload.length == addr
    && q.payload.length + n ≤ 4096

/-- Bytes sent to another module: they join the packet sent last where it goes on, or start one. [DESIGN CHOICE log 45] -/
def State.sendBytes (s : State) (c : CopyCmd) (node : Nat) (addr here : Word) (bs : List Byte) : State :=
  match s.fab.requests.getLast? with
  | some q =>
    if q.joins c.chan node addr bs.length then
      { s with fab := { s.fab with
          requests := s.fab.requests.map fun r =>
            if r.id == q.id then { r with payload := r.payload ++ bs, bytes := r.bytes + bs.length } else r } }
    else s.copyRequest c .write node false addr here bs.length bs none
  | none => s.copyRequest c .write node false addr here bs.length bs none

/-- The bytes of a lossy block: 256 to a packet, numbered from the transfer's start (R264, R272). -/
def State.sendBlock (s : State) (c : CopyCmd) (node : Nat) (addr here : Word) (off : Nat) (bs : List Byte) : State :=
  let blk := off / 256
  let mine := fun (q : Request) => q.ofChannel c.chan && match q.block with
    | some (_, k, _) => k == blk
    | none => false
  if s.fab.requests.any mine then
    { s with fab := { s.fab with
        requests := s.fab.requests.map fun q =>
          if mine q then { q with payload := q.payload ++ bs, bytes := q.bytes + bs.length } else q } }
  else
    let xfer := s.fab.requests.findSome? fun q => if q.ofChannel c.chan then q.block.map (·.1) else none
    let t := s.copyRequest c .write node false addr here bs.length bs (some (xfer.getD s.fab.nextXfer, blk, c.bytes / 256))
    if xfer.isSome then t else { t with fab := { t.fab with nextXfer := (t.fab.nextXfer + 1) % 2^16 } }

/-- Whether run 1 of a dual run made the command: its engine writes are signed and then discarded (R257). -/
def State.copyDry (s : State) (c : CopyCmd) : Bool := (s.rankOf c.key c.run).id.dual && c.run == 1

/-- One piece written at its destination. -/
def State.putPiece (s : State) (c : CopyCmd) (off : Nat) (here : Word) (bs : List Byte) : Site → State
  | .tile o => s.updCopyTile c fun t => { t with bytes := cellsStore t.bytes o bs }
  | .here pa repl =>
    if s.copyDry c then s
    else if repl then { s with ms := { s.ms with pending := s.ms.pending ++ [{ pa := pa, data := bs }] } }
    else { s with ms := (s.ms.recall pa).put pa bs, scr := s.scr.invalidate pa }
  | .host pa => if s.copyDry c then s else s.copyRequest c .write 0 true (wd pa) here bs.length bs none
  | .remote node addr _ =>
    if s.copyDry c then s
    else if c.kind == .remoteLossy then s.sendBlock c node addr here off bs
    else s.sendBytes c node addr here bs

/-- A log entry for each physical page end of a piece (R293): operation 4, agent class CP. On a replicated page it reads its die's copy, and
writes every one. [DESIGN CHOICE log 65] -/
def State.logSite (s : State) (owner : Nat) (reads : Option Nat) : Site → State
  | .here pa repl => match reads with
    | some die => s.logAccess 1 owner 4 (if repl then pa + die * 2^21 else pa)
    | none => s.logCopies repl 1 owner 4 pa
  | .tile _ | .host _ | .remote .. => s

/-- The pieces moved in order. `old` is memory as the chunk found it, so that what an earlier chunk wrote over a source byte is always taken
(R96 allows either; the model's choice). [DEDUCED log 42] -/
def State.movePieces (s : State) (c : CopyCmd) (old : Memory) (off : Nat) (got : List Word) :
    List (Piece × Site × Site) → State × List (Nat × Byte)
  | [] => (s, [])
  | (p, a, b) :: r =>
    let s := match a with
      | .here pa _ => { s with ms := s.ms.recall pa }
      | .tile _ | .host _ | .remote .. => s
    let q := s.pieceBytes c old p got a
    let t := ((s.putPiece c off (wd p.dst.pos) q.1 b).logSite c.owner (some (dieOfCluster (c.chan / 4))) a).logSite c.owner none b
    let u := t.movePieces c old (off + p.len) q.2 r
    let mine := match p.dst with
      | .mem va => addressed va.toNat q.1
      | .tile _ => []
    (u.1, mine ++ u.2)

/-- The rows of a copy-in filled so far (R84). -/
def Tile.raise (t : Tile) (row : Nat) : Tile := { t with filled := row }

/-- Whether the launch of a command, or its channel, is being stopped by a rung, or by a reclaim (R313, R363). -/
def State.stopping (s : State) (launch : Nat) : Bool :=
  s.disp.ending.contains launch || s.disp.rungs.any fun r => match r.target with
    | .launch l => l == launch
    | .queue q => s.disp.launches.any fun x => x.num == launch && x.queue == q
    | .owner o => s.disp.launches.any fun x => x.num == launch && x.owner == o
    | .helper .. | .channel _ | .matrix _ | .walker _ | .netif _ | .device => false

/-- The bytes of a chunk, or of a row of it, have moved: signature, progress, FILLED, the end of a copy-out's read, with which its tile
becomes EMPTY. A command that is stopped ends with its chunk (R313). -/
def State.chunkDone (s : State) (c : CopyCmd) (rowBytes done : Nat) (written : List (Nat × Byte)) : State :=
  let old := c.done
  let t := s.updRank c.key c.run fun r => if r.id.dual then { r with sig := r.sig + signWrite written } else r
  let t := t.updCopy c.chan fun c => { c with done := done, got := [], lease := none }
  let t := match c.kind with
    | .copyIn => t.updCopyTile c fun t => t.raise (c.row0 + done / rowBytes)
    | .copyOut =>
      if done < c.bytes then t
      else t.updCopyTile c fun t => (if c.counted then { t with reads := t.reads - 1 } else t).empties
    | .copy | .remoteExact | .remoteLossy => t
  let c := { c with done := done }
  if s.stopping c.key.launch && c.pointer rowBytes == done then
    (t.tellProgress c (if t.copyAsks c.chan then old else done)).dropCopy c.chan
  else t.settleCopy c.chan

/-- The window of a `cpx`: every page of a lossy one, the first of an exact one, must lie in one window that also holds the last
byte (R194, R273); the first address outside it otherwise. -/
def State.windowTrouble (s : State) (c : CopyCmd) : Option Trouble :=
  let len := if c.kind == .remoteLossy then c.bytes + 8 else c.bytes
  let first := c.mem.toNat % 2^53
  match s.site c.owner .engineWrite (.mem c.mem) with
  | .error e => some e
  | .ok (.remote node _ last) =>
    if last < first + len - 1 then some (.bad 5 (addr53 (BitVec.ofNat 53 (last + 1))))
    else if c.kind != .remoteLossy then none
    else
      ((List.range ((first % 8192 + len - 1) / 8192)).map fun k => c.mem - wd (first % 8192) + wd (8192 * (k + 1))).findSome? fun va =>
        match s.site c.owner .engineWrite (.mem va) with
        | .error e => some e
        | .ok (.remote n _ l) => if n = node && l = last then none else some (.bad 5 va)
        | .ok (.tile _) | .ok (.here ..) | .ok (.host _) => some (.bad 5 va)
  | .ok (.tile _) | .ok (.here ..) | .ok (.host _) => some (.bad 5 c.mem)

/-- The first piece of an exact `cpx` whose page lies in no window, or in another one. -/
def windowStray : List (Piece × Site × Site) → Option Word
  | [] => none
  | (_, _, .remote node _ last) :: r =>
    r.findSome? fun q => match q.2.2 with
      | .remote n _ l => if n = node && l = last then none else some (wd q.1.dst.pos)
      | .tile _ | .here .. | .host _ => some (wd q.1.dst.pos)
  | (p, _, _) :: _ => some (wd p.dst.pos)

def CopyCmd.toWindow (c : CopyCmd) : Bool := c.kind == .remoteExact || c.kind == .remoteLossy

/-- The pieces of a started command's next chunk or row: they are translated, reads off this module made one by one, the bytes moved. A chunk whose
bytes went off this module has completed once they are answered; the blocks of a lossy transfer leave together (R269). [DEDUCED log 41] -/
def State.runPieces (s : State) (c : CopyCmd) (rowBytes : Nat) (pieces : List Piece) : State :=
  match ringFault id c.ring (s.sites c.owner pieces) with
  | .error e => s.copyTrouble c e
  | .ok ps =>
    match (if c.toWindow then windowStray ps else none) with
    | some va => s.faultCopy c 5 va
    | none =>
      match (ps.filter fun q => q.2.1.away)[c.got.length]? with
      | some q => if s.copyAsks c.chan then s else s.askRead c q.1 q.2.1
      | none =>
        if s.copyAsks c.chan && c.kind != .remoteLossy then s
        else
        let t := ps.foldl (fun t q => (t.markSpot c.owner .engineRead q.1.src).markSpot c.owner .engineWrite q.1.dst) s
        let u := t.movePieces c t.ms.mem c.done c.got ps
        u.1.chunkDone c rowBytes (c.done + (ps.map fun q => q.1.len).sum) u.2

/-- Whether a moved command meets a channel that its owner holds (R46). [DEDUCED log 48] -/
def State.channelLost (s : State) (c : CopyCmd) : Bool := c.moved && !s.holdsChannel c.owner c.chan

/-- The shape checks of a copy that names a tile, and its length (R193, R321). -/
def CopyCmd.length? (c : CopyCmd) (t : Tile) : Option Nat :=
  let n := if c.node.isSome then c.bytes else c.nrows * t.rowBytes
  if n % t.rowBytes = 0 && n ≤ (t.rows - c.row0) * t.rowBytes then some n else none

/-- The start of a copy that names a tile: its state and shape checks, the address of a node's among them (R193), and its first change of state
(R83, R84). [DEDUCED log 43, DEDUCED log 85] -/
def State.startTileCopy (s : State) (c : CopyCmd) : State :=
  match s.copyTile c with
  | none => s.faultCopy c 1 c.handleWord
  | some t =>
    let ok := (if c.kind == .copyIn then t.state == .empty else t.state == .full) && !misaligned c.mem 64
    match c.length? t with
    | none => s.faultCopy c 1 c.handleWord
    | some n =>
      if !ok then s.faultCopy c 1 c.handleWord
      else
        let u := s.updCopyTile c fun t =>
          if c.kind == .copyIn then { t with state := .filling, filled := c.row0 } else { t with state := .draining }
        u.updCopy c.chan fun c => { c with started := true, bytes := n }

/-- The command at the head of a channel starts (R96). [DEDUCED log 43] -/
def execCopyStart (ch : Nat) (s : State) : Out :=
  match s.copyHead ch with
  | none => .next s
  | some c =>
    if c.started || c.record.isSome then .next s
    else if s.channelLost c then .next (s.faultCopy c 8 (descriptor 0x05 ch))
    else
      let run := fun (t : State) => if c.node.isSome then t else
        t.updRank c.key c.run fun r => r.updTicket .copy (ch % 4) c.seq fun t => { t with state := 1 }
      match (c.ring.map RingWait.trouble <|> if c.toWindow then s.windowTrouble c else none) with
      | some e => .next ((run s).copyTrouble c e)
      | none =>
        if c.onTile then .next (run s |>.startTileCopy c)
        else .next (run s |>.updCopy ch fun c => { c with started := true })

/-- The running command of a channel ends a chunk, or meets what keeps it from doing so (R96, R195). -/
def execCopyChunkEnd (ch : Nat) (s : State) : Out :=
  match s.copyHead ch with
  | none => .next s
  | some c =>
    if !c.started || c.record.isSome then .next s
    else if s.channelLost c then .next (s.faultCopy c 8 (descriptor 0x05 ch))
    else if c.bytes ≤ c.done then .next (s.settleCopy ch)
    else if !c.onTile then .next (s.runPieces c 1 (c.chunk 1))
    else
      match s.copyTile c with
      | none => .next (s.faultCopy c 1 c.handleWord)
      | some t => .next (s.runPieces c t.rowBytes (c.chunk t.rowBytes))

/-- A row of the copy-in that a channel runs is complete, within its chunk (R84, R96). -/
def State.copyRow (ch : Nat) (s : State) : State :=
  match s.copyHead ch with
  | none => s
  | some c =>
    if !c.started || c.record.isSome || c.kind != .copyIn || s.channelLost c || c.bytes ≤ c.done then s
    else
      match s.copyTile c with
      | none => s
      | some t => s.runPieces c t.rowBytes (c.row t.rowBytes)

/-- The last counted read of a DRAINING tile has ended, so that it is EMPTY: the copy-out that drained it ends (R83, R85). [DEDUCED log 47] -/
def execTileReadsEnd (k : RankKey) (h : Fin 128) (s : State) : Out :=
  match s.eng.copies.find? fun c => c.key == k && c.kind == .copyOut && c.handle == h.val && c.started && c.bytes ≤ c.done with
  | none => .next s
  | some c => .next (s.settleCopy c.chan)

end Sys2Proof.Machine
end

