-- ==== Sys2Proof/Machine/Launch.lean ====
section
/-! DEFINITION. Launches (03 R33 to R38, R45, R59; 11 R227, R228; 12 R244 to R258): the reading of a record and its group table,
LAUNCHBAD, the progress record, placement, the end of a rank and of a launch, `lnch` and `lwait`. -/

namespace Sys2Proof.Machine

open Sys2Proof

/-! ### The launch record (R33) -/

def Launch.entry (l : Launch) : Nat := field l.words[0] 0 53
def Launch.lblk (l : Launch) : Nat := field l.words[1] 0 53
def Launch.span (l : Launch) : Nat := field l.words[2] 0 17
def Launch.kind (l : Launch) : Nat := field l.words[2] 20 2
def Launch.hmax (l : Launch) : Nat := field l.words[2] 24 4
def Launch.band (l : Launch) : Nat := field l.words[2] 32 3
def Launch.fold (l : Launch) : Bool := bitAt l.words[2] 40
def Launch.dual (l : Launch) : Bool := bitAt l.words[2] 41
def Launch.fence (l : Launch) : Bool := bitAt l.words[2] 42
def Launch.keyid (l : Launch) : BitVec 10 := l.words[2].extractLsb' 48 10
def Launch.deadline (l : Launch) : Word := l.words[5]
def Launch.seq (l : Launch) : Word := l.words[7]

/-- Whether a record's word of an index breaks R33. `last` is the SEQ of the queue's latest well-formed fence (R247); a child's
FSEQ is not checked and its SEQ is non-zero only with FENCE (R227). -/
def wordBroken (w : Vector Word 16) (last : Option Word) (i : Nat) : Bool :=
  let x := w.toList.getD i 0
  let span := field w[2] 0 17
  match i with
  | 0 => !zeroAt x 53 11 || field x 0 2 != 0
  | 1 => !zeroAt x 53 11 || field x 0 3 != 0
  | 2 =>
    span == 0 || 65536 < span || !zeroAt x 17 3 || field x 20 2 == 3 || !zeroAt x 22 2 || 10 < field x 24 4 || !zeroAt x 28 4
      || !zeroAt x 35 5 || !zeroAt x 43 5 || !zeroAt x 58 6
  | 3 => !zeroAt x 53 11 || (field w[4] 0 9 != 0 && field x 0 4 != 0)
  | 4 => !zeroAt x 9 55 || 256 < field x 0 9
  | 5 => false
  | 6 => match last with
    | none => false
    | some f => x != f
  | 7 =>
    if bitAt w[2] 42 then x == 0 || (match last with | none => false | some f => x.toNat ≤ f.toNat) else x != 0
  | _ => x != 0

/-- VALUE1 of LAUNCHBAD for the first broken word of a record, if any (R312). -/
def recordBroken (w : Vector Word 16) (last : Option Word) : Option Nat :=
  ((List.range 16).find? (wordBroken w last)).map fun i => 8 * i

/-! ### The group table (R36 to R38) -/

/-- Why a launch is not started: its table could not be read, or VALUE1 of its LAUNCHBAD. -/
inductive Unstarted where
  | trouble (t : Trouble)
  | broken (v : Nat)
  deriving DecidableEq, Repr

/-- The members of a range entry, or the trouble with it. -/
def rangeMembers (span i : Nat) (w : Word) : Except Unstarted (List Nat) :=
  let first := field w 0 17
  let stride := field w 17 17
  let count := field w 34 17
  if !zeroAt w 51 13 || count == 0 || (1 < count && stride == 0) || span ≤ first + (count - 1) * stride then
    .error (.broken (0x10000 + 16 * i + 8))
  else .ok ((List.range count).map fun k => first + k * stride)

/-- The members of a bitmap, or the trouble with it. -/
def mapMembers (span i : Nat) (ws : List Word) : Except Unstarted (List Nat) :=
  let bit := fun (r : Nat) => bitAt (ws.getD (r / 64) 0) (r % 64)
  let ms := (List.range (64 * ws.length)).filter bit
  if ms.isEmpty || ms.any fun r => span ≤ r then .error (.broken (0x20000 + i)) else .ok ms

/-- The members of table entry i (R37). -/
def State.groupEntry (s : State) (owner span i : Nat) (va : Word) : Except Unstarted (List Nat) :=
  match s.engineWords owner .dispatcher 0 va 2 with
  | .error t => .error (.trouble t)
  | .ok [m, r] =>
    if m = 0 then rangeMembers span i r
    else if field m 0 3 != 0 then .error (.broken (0x10000 + 16 * i))
    else if r != 0 then .error (.broken (0x10000 + 16 * i + 8))
    else
      match s.engineWords owner .dispatcher 0 m ((span + 63) / 64) with
      | .error t => .error (.trouble t)
      | .ok ws => mapMembers span i ws
  | .ok _ => .error (.broken 0x80)

/-- Whether a further group gives some rank a fourth table group (R38). [DEDUCED log 57] -/
def fourth (groups : List (List Nat)) (ms : List Nat) : Bool :=
  ms.any fun r => 3 ≤ (groups.filter fun g => g.contains r).length

/-- The groups of a table: entries i, i + 1, … after those in `done`. [DEDUCED log 57] -/
def State.groupTable (s : State) (owner span : Nat) (gtab : Word) (done : List (List Nat)) (i : Nat) :
    (n : Nat) → Except Unstarted (List (List Nat))
  | 0 => .ok done
  | n + 1 =>
    match s.groupEntry owner span i (gtab + wd (16 * i)) with
    | .error e => .error e
    | .ok ms =>
      if fourth done ms then .error (.broken (0x10000 + 16 * i + 8)) else s.groupTable owner span gtab (done ++ [ms]) (i + 1) n

/-- A record and its group table as dispatch reads them, once (R34). One that is not aligned to 128 bytes breaks R33.
[DESIGN CHOICE log 30, DESIGN CHOICE log 108] -/
def State.readRecord (s : State) (owner : Nat) (va : Word) (last : Option Word) :
    Except Unstarted (Vector Word 16 × List (List Nat)) :=
  if misaligned va 128 then .error (.broken 0x80)
  else
  match s.engineWords owner .dispatcher 0 va 16 with
  | .error t => .error (.trouble t)
  | .ok ws =>
    let w : Vector Word 16 := Vector.ofFn fun i => ws.getD i.val 0
    match recordBroken w last with
    | some v => .error (.broken v)
    | none =>
      match s.groupTable owner (field w[2] 0 17) (addr53 (w[3].setWidth 53)) [] 0 (field w[4] 0 9) with
      | .error e => .error e
      | .ok gs => .ok (w, gs)

/-- The group table's words that dispatch reads from entry i on, with the bitmaps they name: addresses and counts of words. -/
def State.tableReads (s : State) (owner span : Nat) (gtab : Word) (done : List (List Nat)) (i : Nat) : (n : Nat) → List (Word × Nat)
  | 0 => []
  | n + 1 =>
    let a := gtab + wd (16 * i)
    let map := match s.engineWords owner .dispatcher 0 a 2 with
      | .ok [m, r] => if m != 0 && field m 0 3 == 0 && r == 0 then [(m, (span + 63) / 64)] else []
      | .ok _ | .error _ => []
    let rest := match s.groupEntry owner span i a with
      | .ok ms => if fourth done ms then [] else s.tableReads owner span gtab (done ++ [ms]) (i + 1) n
      | .error _ => []
    (a, 2) :: map ++ rest

/-- What dispatch reads of a record and its group table. -/
def State.recordReads (s : State) (owner : Nat) (va : Word) (last : Option Word) : List (Word × Nat) :=
  match s.engineWords owner .dispatcher 0 va 16 with
  | .error _ => []
  | .ok ws =>
    let w : Vector Word 16 := Vector.ofFn fun i => ws.getD i.val 0
    match recordBroken w last with
    | some _ => [(va, 16)]
    | none => (va, 16) :: s.tableReads owner (field w[2] 0 17) (addr53 (w[3].setWidth 53)) [] 0 (field w[4] 0 9)

/-- A set in the leaves through which a record and its group table were read, the reads logged (R102, R293). -/
def State.markRecord (s : State) (owner : Nat) (va : Word) (last : Option Word) : State :=
  (s.recordReads owner va last).foldl (fun t q => t.markWords owner Config.dispatcherAgent 0 .dispatcher q.1 q.2) s

/-! ### Queues -/

def State.queue? (s : State) (q : Nat) : Option Queue := s.disp.queues.find? fun x => x.num == q

def State.updQueue (s : State) (q : Nat) (f : Queue → Queue) : State :=
  { s with disp := { s.disp with queues := updFirst (fun x => x.num == q) f s.disp.queues } }

def State.launch? (s : State) (n : Nat) : Option Launch := s.disp.launches.find? fun l => l.num == n

def State.updLaunch (s : State) (n : Nat) (f : Launch → Launch) : State :=
  { s with disp := { s.disp with launches := updFirst (fun l => l.num == n) f s.disp.launches } }

/-- The bind record in force of a queue (R249). -/
def State.bindRec (s : State) (q : Nat) : Option BindRec :=
  (s.disp.slots.find? fun e => e.1 == q).bind fun e => if e.2.valid then some e.2 else none

def QueueState.code : QueueState → Nat
  | .idle => 0 | .admitted => 1 | .switchedOut => 2

/-- A queue as its progress record last showed its fences: a fence whose completion has not reached the record counts as ended without
completing (R314). -/
def Queue.asShown (q : Queue) : Queue :=
  { q with lastFence := q.shownFence, fenceRec := q.shownRec, held := q.held || q.fenceRec != q.shownRec }

/-- The queue rung on a queue (R313): it reads no more records, its running launches stop, and it becomes idle, with no bind record
in force (R248). [DEDUCED log 105] -/
def State.queueRung (s : State) (q : Nat) : State :=
  let mine := s.disp.launches.filter fun l => l.queue == q && l.state == .running
  let t := mine.foldl (fun t l => t.rungStop l.num) s
  let t := { t with disp := { t.disp with slots := dropAt q t.disp.slots } }
  (t.updQueue q fun x => { x.asShown with state := .idle }).startRung 1 (.queue q)

/-- The progress record of a queue (R246). [DEDUCED log 59] -/
def Queue.progress (q : Queue) : List Byte :=
  leBytes 8 q.head ++ leBytes 8 q.doneNum ++ leBytes 8 q.lastFence.toNat ++ leBytes 8 q.state.code ++ leBytes 32 0

/-- MSI-X vector 0 of an owner's VFs, at most once per µs for each (R280). -/
def State.fireDone (s : State) (o : Nat) : State :=
  let due := (s.liveVfs o).filter fun v => match v.fired with
    | none => true
    | some t => t + 1000 ≤ s.time
  let t := s.fireMsix due 0
  { t with host := { t.host with
      vfs := t.host.vfs.map fun v => if due.any fun d => d.num == v.num then { v with fired := some s.time } else v } }

/-- The write of a progress record given up. -/
def State.dropProgress (s : State) (n : Nat) : State :=
  s.updQueue n fun q => { q with stale := false, tell := false, progRec := none, progRing := none }

/-- A progress record that cannot be written: the queue rung runs, and that write is given up (R246). [DEDUCED log 59] -/
def State.progressFails (s : State) (n : Nat) : State := (s.queueRung n).dropProgress n

/-- The progress record written at its address, under the queue's holder, with device-scope stores; or the fault record that it
waits on, or what comes of its failure (R246). A queue whose LOG2SIZE is 0 is not configured yet, and has none.
The vector of a completion fires once the record shows it. [DESIGN CHOICE log 30, DEDUCED log 59] -/
def State.writeProgressOr (fails : State → State) (s : State) (n : Nat) : State :=
  match s.queue? n with
  | none => s
  | some q =>
    if q.log2 = 0 then s
    else if q.progRec.isSome then s.updQueue n fun q => { q with stale := true }
    else
    let o := s.own.holder 0x04 n
    let va := addr53 q.prog
    match ringFault id q.progRing (s.site o .engineWrite (.mem va)) with
    | .ok (.here pa repl) =>
      let t := s.markSpot o .engineWrite (.mem va)
      let ms := if repl then { t.ms with pending := t.ms.pending ++ [{ pa := pa, data := q.progress }] }
        else (t.ms.recall pa).put pa q.progress
      let u := ({ t with ms := ms, scr := t.scr.invalidate pa }.logCopies repl Config.dispatcherAgent o 1 pa).updQueue n fun q =>
        { q with shownFence := q.lastFence, shownRec := q.fenceRec, stale := false, tell := false, progRec := none, progRing := none }
      if q.tell then u.fireDone o else u
    | .ok (.tile _) | .ok (.host _) | .ok (.remote ..) | .error (.bad ..) | .error (.noHost ..) => fails s
    | .error .later => s.updQueue n fun q => { q with stale := true }
    | .error (.replay va cause _ pin) =>
      if pin then fails s
      else
        let words := faultWords .dispatcher cause 7 va 0 o 0 0 0 s.time 0
        match s.postFault q.progRing none (.dispatcher n) o va cause words with
        | .held => s.updQueue n fun q => { q with stale := true }
        | .done t num => t.updQueue n fun q => { q with stale := true, progRec := some num, progRing := none }
        | .ringFull =>
          match q.progRing with
          | none => s.updQueue n fun q => { q with stale := true, progRing := some ⟨s.time, va, cause, .dispatcher, s.tick⟩ }
          | some w => if w.since + 1000000 ≤ s.time then fails (s.report (errRec Err.faultDeny o va 0 0)) else s
        | .badQueue => fails s

/-- The progress record written, or the queue rung run (R246). -/
def State.writeProgress (s : State) (n : Nat) : State := s.writeProgressOr (fun t => t.progressFails n) n

/-- DONE after the records that have ended (R246). -/
def advanceDone (done : Nat) (ended : List Nat) : (fuel : Nat) → Nat
  | 0 => done
  | fuel + 1 => if ended.contains done then advanceDone ((done + 1) % 2^32) ended fuel else done

/-- A queue after one of its records has ended, a completed fence setting LASTFENCE (R246, R247). -/
def Queue.recordEnds (q : Queue) (num : Nat) (fence : Option Word) : Queue :=
  let all := num :: q.ended
  let d := advanceDone q.doneNum all all.length
  { q with
    ended := all.filter fun n => !(decide ((n + 2^32 - d) % 2^32 ≥ 2^31))
    doneNum := d
    lastFence := fence.getD q.lastFence
    fenceRec := match fence with | none => q.fenceRec | some _ => some num }

/-! ### The end of a launch (R59, R227, R246) -/

/-- What the end of a launch tells the one that started it: its queue, the `lnch` ticket, or the walker's node. A fence that ends without
completing holds every later launch of its queue back (R247). -/
def State.tellOrigin (s : State) (l : Launch) (ok : Bool) : State :=
  match l.origin with
  | .queue num =>
    let f := fun (q : Queue) =>
      let x := q.recordEnds num (if ok && l.fence then some l.seq else none)
      { x with tell := q.tell || x.doneNum != q.doneNum, held := q.held || (!ok && l.fence) }
    (s.updQueue l.queue f).writeProgress l.queue
  | .program k run seq => s.updRank k run fun r => r.updTicket .launch 0 seq fun t => { t with state := if ok then 2 else 3 }
  | .node k run slot n => if ok then s else s.nodeFault k run slot n 7 none

/-- A launch ends, complete or not. Its cluster tiles are marked ended (R82). -/
def State.endLaunch (s : State) (l : Launch) (ok : Bool) : State :=
  let t := s.updLaunch l.num fun l => { l with state := if ok then .complete else .ended }
  let t := { t with eng := { t.eng with
    tiles := t.eng.tiles.map fun (x : Tile) => if x.launch == l.num then { x with ended := true } else x } }
  t.tellOrigin l ok

/-- A launch that is never started (R33, R312): LAUNCHBAD, and its end without completing. -/
def State.launchBad (s : State) (l : Launch) (val1 val2 : Nat) : State :=
  (s.report { errRec Err.launchBad l.owner l.addr (wd val1) (wd val2) with queue := l.queue }).endLaunch l false

/-! ### Reading -/

/-- The fault record of a dispatcher read (R306, R328): outstanding, waiting for a place in the ring, or none to be had. [DEDUCED log 58] -/
def State.dispatchFault (s : State) (mine : Option RingWait) (w : Waiter) (owner : Nat) (va : Word) (cause : BitVec 8) (pin : Bool) : Posted :=
  if pin then .badQueue
  else s.postFault mine none w owner va cause (faultWords .dispatcher cause 7 va 0 owner 0 0 0 s.time 0)

/-- A launch with its record and groups read. -/
def Launch.readAs (l : Launch) (w : Vector Word 16) (gs : List (List Nat)) : Launch :=
  { l with words := w, groups := gs, state := .ready }

/-- The record of a child launch read (R227): it is ready, is never started, or waits on a fault record. [DEDUCED log 58] -/
def State.readChild (s : State) (n : Nat) : State :=
  match s.launch? n with
  | none => s
  | some l =>
    if l.state != .reading || s.disp.records.any fun f => f.waiters.any fun w => w.1 == .child n then s
    else
      let m := if l.ring.isSome then s else s.markRecord l.owner l.addr none
      match ringFault Unstarted.trouble l.ring (s.readRecord l.owner l.addr none) with
      | .ok (w, gs) => m.updLaunch n fun l => l.readAs w gs
      | .error (.broken v) => m.launchBad l v 0
      | .error (.trouble (.bad ..)) | .error (.trouble (.noHost ..)) => m.launchBad l 0x80 0
      | .error (.trouble .later) => s
      | .error (.trouble (.replay va cause _ pin)) =>
        match m.dispatchFault l.ring (.child n) l.owner va cause pin with
        | .held => s
        | .done t _ => t.updLaunch n fun l => { l with ring := none }
        | .ringFull =>
          match l.ring with
          | none => m.updLaunch n fun l => { l with ring := some ⟨s.time, va, cause, .dispatcher, s.tick⟩ }
          | some w => if w.since + 1000000 ≤ s.time then (s.report (errRec Err.faultDeny l.owner va 0 0)).launchBad l 0x80 0 else s
        | .badQueue => m.launchBad l 0x80 0

/-- A new launch, its record not yet read. -/
def State.newLaunch (s : State) (origin : Origin) (queue owner : Nat) (addr : Word) : State :=
  let l : Launch :=
    { num := s.disp.nextNum, origin := origin, queue := queue, owner := owner, addr := addr, words := Vector.replicate 16 0,
      state := .reading, groups := [], channels := [], arrival := s.time, late := false, ring := none, sig0 := none, sig1 := none }
  { s with disp := { s.disp with launches := s.disp.launches ++ [l], nextNum := s.disp.nextNum + 1 } }

/-- The queue that carries the launches a rank starts (R250). -/
def State.queueOf (s : State) (k : RankKey) : Nat := ((s.launch? k.launch).map Launch.queue).getD 0

/-- Whether a running launch of a queue has ranks that are saved and hold no core (R256). -/
def State.awaitsCores (s : State) (q : Nat) : Bool :=
  s.disp.launches.any fun l => l.queue == q && l.state == .running && s.liveRanks.any fun r =>
    r.key.launch == l.num && r.state == .saved

/-- Whether a queue's holder has lost its last live VF, and R352 is not done with its queues yet. -/
def State.losesVfs (s : State) (q : Nat) : Bool := s.host.losing.any fun e => e.1 == s.own.holder 0x04 q

/-- Whether a queue may read its next record: admitted, records there, none read and unplaced, nothing it waits on, and no launch of it
that is yet to resume (R256). One that keeps cores reads none either while a vacated launch of it waits for its cores. [DESIGN CHOICE log 123] -/
def State.mayRead (s : State) (q : Queue) : Bool :=
  !s.losesVfs q.num && q.state == .admitted && q.head != q.tail && !q.stale && q.record.isNone && !s.awaitsCores q.num
    && !s.disp.launches.any fun l => l.queue == q.num && l.state == .ready && match l.origin with
      | .queue _ => true
      | .program .. | .node .. => false

/-- The address of a queue's next record (R245). -/
def Queue.recordAddr (q : Queue) : Word := addr53 q.base + wd (q.head % 2^q.log2 * 128)

/-- When the doorbell that made a record readable arrived (R251). -/
def Queue.arrivalOf (q : Queue) (n now : Nat) : Nat :=
  ((q.arrivals.find? fun a => decide ((n + 2^32 - a.1) % 2^32 < a.2.1)).map fun a => a.2.2).getD now

/-- HEAD raised past the queue's next record, which is a launch from now on. -/
def State.takeNext (n : Nat) (q : Queue) (owner : Nat) (va : Word) (s : State) : State :=
  let t := (s.newLaunch (.queue q.head) n owner va).updQueue n fun q =>
    { q with head := (q.head + 1) % 2^32, record := none, ring := none }
  t.updLaunch s.disp.nextNum fun l => { l with arrival := q.arrivalOf q.head s.time }

/-- The queue's next record taken as one that is never started (R312). -/
def State.badNext (n : Nat) (q : Queue) (owner : Nat) (va : Word) (s : State) (val1 val2 : Nat) : State :=
  let t := s.takeNext n q owner va
  match t.launch? s.disp.nextNum with
  | none => t
  | some l => t.launchBad l val1 val2

/-- The queue's next record read and HEAD raised: a launch that is ready, or one that is never started (R245 to R247). [DEDUCED log 56] -/
def State.readNext (s : State) (n : Nat) : State :=
  match s.queue? n with
  | none => s
  | some q =>
    if !s.mayRead q then s
    else
      let o := s.own.holder 0x04 n
      let va := q.recordAddr
      let taken := State.takeNext n q o va
      let bad := State.badNext n q o va
      let m := if q.ring.isSome then s else s.markRecord o va (some q.seenFence)
      match ringFault Unstarted.trouble q.ring (s.readRecord o va (some q.seenFence)) with
      | .ok (w, gs) =>
        let t := (taken m).updLaunch s.disp.nextNum fun l => l.readAs w gs
        let t := if bitAt w[2] 42 then t.updQueue n fun q => { q with seenFence := w[7] } else t
        t.writeProgress n
      | .error (.broken v) => bad m v 0
      | .error (.trouble (.bad ..)) | .error (.trouble (.noHost ..)) => bad m 0x80 0
      | .error (.trouble .later) => s
      | .error (.trouble (.replay va cause _ pin)) =>
        match m.dispatchFault q.ring (.dispatcher n) o va cause pin with
        | .held => s
        | .done t num => t.updQueue n fun q => { q with record := some num, ring := none }
        | .ringFull =>
          match q.ring with
          | none => m.updQueue n fun q => { q with ring := some ⟨s.time, va, cause, .dispatcher, s.tick⟩ }
          | some w =>
            if w.since + 1000000 ≤ s.time then bad (s.report (errRec Err.faultDeny o va 0 0)) 0x80 0 else s
        | .badQueue => bad m 0x80 0

/-! ### Placement (R45, R251, R257) -/

/-- The cores a bind record grants, ascending. -/
def sortedCores (b : BindRec) : List Nat := b.cores.foldl (fun l c => setAdd c l) []

/-- Whether no rank of any launch holds a core (R251). -/
def State.coreFree (s : State) (c : Nat) : Bool := !s.liveRanks.any (Rank.onCore c)

/-- Whether a core is of a launch's kind (R45). -/
def kindFits (kind core : Nat) : Bool := kind == 2 || (kind == 1) == isFCore core

/-- The free granted cores of a launch's kind. -/
def State.freeCores (s : State) (l : Launch) : List Nat :=
  match s.bindRec l.queue with
  | none => []
  | some b => (sortedCores b).filter fun c => kindFits l.kind c && s.coreFree c

/-- The barrier channels of an owner that no launch holds (R38, R284). -/
def State.freeChannels (s : State) (owner : Nat) : List Nat :=
  (List.range 4096).filter fun c =>
    s.own.holder 0x07 c == owner
      && !s.disp.launches.any fun l => l.state == .running && l.channels.contains c

/-- The die, of the four, with the most cores of a list; the lowest where several have as many. [DEDUCED log 55] -/
def fullestDie (free : List Nat) : Nat :=
  let count := fun (d : Nat) => (free.filter fun c => dieOf c == d).length
  [1, 2, 3].foldl (fun b d => if count b < count d then d else b) 0

/-- The cores of the next ranks, batch by batch (R45 steps 1 and 2). [DEDUCED log 55] -/
def placeBatches (free : List Nat) (need : Nat) : (fuel : Nat) → List Nat
  | 0 => []
  | fuel + 1 =>
    if need = 0 then []
    else
      let here := free.filter fun c => dieOf c == fullestDie free
      let batch := here.take (Nat.min 64 need)
      batch ++ placeBatches (free.filter fun c => !batch.contains c) (need - batch.length) fuel

/-- The core of each rank, on the cores given: one each, or folded where they are fewer (R45); none where it cannot be. -/
def placeOn (fold : Bool) (span : Nat) (free : List Nat) : Option (List Nat) :=
  let n := free.length
  if span ≤ n then some (placeBatches free span span)
  else if fold && 0 < n then some ((List.range span).map fun r => free.getD (r % n) 0)
  else none

/-- The cores of each run's ranks (R257). [DEDUCED log 55] -/
def State.placement (s : State) (l : Launch) : Option (List (List Nat)) :=
  let free := s.freeCores l
  if l.dual then
    let h := (free.length + 1) / 2
    match placeOn l.fold l.span (free.take h), placeOn l.fold l.span (free.drop h) with
    | some a, some b => some [a, b]
    | _, _ => none
  else (placeOn l.fold l.span free).map fun a => [a]

/-- The barrier channels a launch takes: G + 1 for each run. -/
def Launch.channelsNeeded (l : Launch) : Nat := (l.groups.length + 1) * (if l.dual then 2 else 1)

/-- Whether the fence rules of R247 let a launch of a queue be placed: none after a fence that ended without completing; a child waits for no
fence (R227). -/
def State.fencesAllow (s : State) (l : Launch) : Bool :=
  match l.origin with
  | .program .. | .node .. => true
  | .queue _ =>
    let others := s.disp.launches.filter fun o => o.queue == l.queue && o.num < l.num && o.state == .running && match o.origin with
      | .queue _ => true
      | .program .. | .node .. => false
    let held := match s.queue? l.queue with
      | some q => q.held
      | none => false
    !held && if l.fence then others.isEmpty else !others.any Launch.fence

/-- Whether a launch is ready to be placed now (R251). -/
def State.placeable (s : State) (l : Launch) : Bool :=
  !s.losesVfs l.queue && l.state == .ready && s.fencesAllow l && (s.placement l).isSome
    && l.channelsNeeded ≤ (s.freeChannels l.owner).length
    && match s.queue? l.queue with
      | none => false
      | some q => q.state == .admitted && !q.stale

/-- The band a launch runs at. -/
def State.bandOf (s : State) (l : Launch) : Nat :=
  match s.bindRec l.queue with
  | none => l.band
  | some b => Nat.min l.band b.band

/-- Whether one launch goes before another in the order of R251. [DEDUCED log 56, DESIGN CHOICE log 121] -/
def State.before (s : State) (a b : Launch) : Bool :=
  let due := fun (l : Launch) => if l.deadline = 0 then 2^64 else l.deadline.toNat
  if s.bandOf a != s.bandOf b then s.bandOf b < s.bandOf a
  else if due a != due b then due a < due b
  else if a.arrival != b.arrival then a.arrival < b.arrival
  else if a.queue != b.queue then a.queue < b.queue
  else a.num < b.num

/-- Whether two launches' grants overlap. -/
def State.overlap (s : State) (a b : Launch) : Bool :=
  match s.bindRec a.queue, s.bindRec b.queue with
  | some x, some y => x.cores.any fun c => y.cores.contains c
  | _, _ => false

/-- Whether an overlapping launch that is ready goes first. -/
def State.outranked (s : State) (l : Launch) : Bool :=
  s.disp.launches.any fun o => o.num != l.num && s.placeable o && s.overlap o l && s.before o l

/-- The word of cr.grp for a group (R35). -/
def grpWord (gid ord count : Nat) : Word := wd (gid + 2^15 + 2^16 * ord + 2^32 * count)

/-- The slot words of a rank: group 0, then its table groups in ascending number (R38). -/
def groupWords (span rank : Nat) (groups : List (List Nat)) : Vector Word 4 :=
  let mine := (groups.zipIdx.filter fun q => q.1.contains rank).map fun q =>
    grpWord (q.2 + 1) (q.1.filter fun r => r < rank).length q.1.length
  let all := grpWord 0 rank span :: mine
  Vector.ofFn fun i => all.getD i.val 0

/-- A rank as it starts (R10, R35, R42 for the control context's own registers). -/
def Launch.newRank (l : Launch) (run rank core : Nat) (st : RankState) : Rank :=
  let lb : BitVec 53 := BitVec.ofNat 53 l.lblk
  let cx := { Context.reset with
    pc := addr53 (BitVec.ofNat 53 l.entry)
    x := Context.reset.x.set 3 (lb.setWidth 64)
    cr := { CtxRegs.reset with keyid := l.keyid } }
  { Rank.reset with
    key := ⟨l.num, rank⟩
    run := run
    core := core
    state := st
    id := { owner := BitVec.ofNat 12 l.owner, keyid := l.keyid, span := BitVec.ofNat 17 l.span, lb := lb, hmax := l.hmax,
            deadline := l.deadline, dual := l.dual }
    ctxs := [cx]
    grp := groupWords l.span rank l.groups
    solo := { SoloState.reset with home := clusterOf core } }

/-- The ranks of a run on their cores: the lowest rank of each core runs, the others stand folded. -/
def Launch.newRanks (l : Launch) (run : Nat) (cores : List Nat) : List Rank :=
  cores.zipIdx.map fun q =>
    l.newRank run q.2 q.1 (if (cores.take q.2).contains q.1 then .folded else .running)

/-- A launch placed: its channels taken, its ranks started. -/
def State.place (s : State) (l : Launch) (runs : List (List Nat)) : State :=
  let chans := (s.freeChannels l.owner).take l.channelsNeeded
  let t := s.updLaunch l.num fun l => { l with state := .running, channels := chans }
  { t with
    ranks := t.ranks ++ runs.zipIdx.flatMap fun q => l.newRanks q.2 q.1
    disp := { t.disp with begun := true } }

/-- A progress record that is yet to be written, and waits on no fault record, tried again (R246). [DEDUCED log 59] -/
def State.retryProgress (s : State) (n : Nat) : State :=
  match s.queue? n with
  | none => s
  | some q => if q.stale && q.progRec.isNone then s.writeProgress n else s

/-! ### `lnch` and `lwait` (R227, R228) -/

/-- `lnch` (R227): a release at device scope, then the record is handed over; it completes when the record has been read. -/
def execLnch (d a : Reg) (la : Fin 16) (s : State) : Out :=
  if !s.isControl then .next (s.illegal (.lnch d a la))
  else
    match s.cx.wait with
    | .launchRead n =>
      let t := s.readChild n
      match t.launch? n with
      | none => .next t.advance
      | some l =>
        if l.state == .reading then .next t
        else
          match l.origin with
          | .program _ _ seq => .next (t.setX d (ticketWord 0 seq)).advance
          | .queue _ | .node .. => .next t.advance
    | _ =>
      if misaligned (s.x a) 128 then .next (s.trap Cause.misalign (s.x a))
      else
        match s.releaseReady .dev with
        | .error t => .next t
        | .ok t =>
          let seq := t.rk.nextSeq .launch 0
          let n := t.disp.nextNum
          let u := t.newLaunch (.program t.rk.key t.rk.run seq) (t.queueOf t.rk.key) t.owner (t.x a)
          let u := (u.updRank t.rk.key t.rk.run fun r => r.issue .launch 0 1 0).readChild n
          match u.launch? n with
          | none => .next u
          | some l => if l.state == .reading then .next (u.waitFor (.launchRead n)) else .next (u.setX d (ticketWord 0 seq)).advance

/-- `lwait` (R228): a completed launch makes it an acquire at device scope, its status kept or not. -/
def execLwait (d a : Reg) (_la : Fin 16) (s : State) : Out :=
  let w := s.x a
  if !zeroAt w 35 29 || !zeroAt w 32 2 then .next (s.trap Cause.operand w)
  else
    match (if bitAt w 34 then findTicket .launch 0 (field w 0 32) s.rk.tickets else none) with
    | none => .next (s.setX d 0).advance
    | some (t, later) =>
      if t.outstanding then .next (s.waitFor .lwait)
      else .next ((if t.state = 2 then s.acquire .dev else s).setX d (statusWord (recentAged later) t.state 0)).advance

/-! ### The end of a rank and of a launch (R11, R59, R225, R258) -/

/-- Whether everything that a control context's `hexit` waits for has ended: helpers, engine work, stores (R225). -/
def State.mayEnd (s : State) (r : Rank) : Bool :=
  (match r.ctxs with
    | [c] => c.num == 0 && c.wait == .exiting
    | _ => false)
    && !s.eng.copies.any (fun c => c.key == r.key && c.run == r.run)
    && !r.mx.busy
    && r.graphs.all (fun g => g.nodes.all fun d => d.state != .running && !(d.state == .waiting && d.count == 0))
    && !s.fab.colls.any (fun c => c.key == r.key && c.run == r.run)
    && (s.coreAt r.core).stores.all fun e => e.key != r.key

/-- The switch point of a core whose running rank stands still (R48): the next rank it holds, in ascending order and wrapping
round, that is released or has not yet reached its barrier, runs. The resumption empties the caches as R129 says. [DEDUCED log 90] -/
def nextFolded (ready : Rank → Bool) (after : Nat) (held : List Rank) : Option Rank :=
  let low := fun (rs : List Rank) => rs.foldl (fun (b : Option Rank) r => match b with
    | none => some r
    | some q => if r.key.rank < q.key.rank then some r else some q) none
  let ok := held.filter ready
  match low (ok.filter fun r => after < r.key.rank) with
  | some r => some r
  | none => low ok

/-- Whether a rank can run: no context of it waits in an unreleased barrier. -/
def Rank.canResume (r : Rank) : Bool :=
  r.ctxs.all fun c => match c.wait with
    | .barrier g _ => (r.bar.toList.getD g .reset).released
    | _ => true

/-- The core's data cache emptied and its mark raised, as an acquire at device scope by a rank that resumes there (R129). -/
def State.acquireAt (s : State) (core : Nat) : State :=
  s.updCore core fun c => { c with dcache := [], mark := s.ms.fills }

/-- The wait of a command on a fault record follows the command to another channel. [DEDUCED log 46] -/
def State.rechannel (s : State) (c : CopyCmd) (ch : Nat) : State :=
  { s with disp := { s.disp with
      records := s.disp.records.map fun f =>
        { f with waiters := f.waiters.map fun w => if w.1.isCopy c f then (.channel ch, w.2) else w } } }

/-- The commands that a switched-out rank took with its core tiles go back to the channels of the cluster it runs in (R46). [DEDUCED log 46] -/
def State.unparkCopies (s : State) (k : RankKey) (run core : Nat) : State :=
  let parked := fun (c : CopyCmd) => c.key == k && c.run == run && 384 ≤ c.chan
  let mine := s.eng.copies.filter parked
  let back := mine.map fun c => { c with chan := channelOf core c.chan, core := core, moved := true }
  if back.isEmpty then s
  else { (mine.foldl (fun t c => t.rechannel c (channelOf core c.chan)) s) with eng := { s.eng with copies := s.eng.copies.filter (fun c => !parked c) ++ back } }

/-- The bytes of a core tile read back from an address on, under an owner's translation; a word that cannot be read keeps its bytes.
[DESIGN CHOICE log 109] -/
def State.tileBack (s : State) (owner : Nat) (va : Word) (t : Tile) : Tile :=
  let word := fun (k : Nat) => match s.engineWord owner .engineRead 0 (va + wd (8 * k)) with
    | .ok w => leBytes 8 w.toNat
    | .error _ => cellsBytes t.bytes (8 * k) 8
  { t with bytes := cellsStore [] 0 ((List.range (t.rows * t.rowBytes / 8)).flatMap word) }

/-- The core tiles of a list read back one after another, each from a multiple of 8 KiB (R88, R339). -/
def State.tilesBack (s : State) (owner : Nat) (va : Word) : List Tile → List Tile
  | [] => []
  | t :: r => s.tileBack owner va t :: s.tilesBack owner (va + wd (8192 * t.banks)) r

/-- The core tiles in ascending handle order. -/
def Rank.tilesInOrder (r : Rank) : List Tile :=
  (List.range 64).filterMap fun h => r.tiles.find? fun t => t.handle == h

/-- A rank's slot in its owner's save area (R339). -/
def State.saveSlot (s : State) (r : Rank) : Word := addr53 (s.own.ownerOr r.id.owner.toNat).saveArea + wd (r.key.rank * 0x100000)

/-- A rank whose core tiles stand in its save area has them in scratch again (R88). -/
def State.readTiles (s : State) (r : Rank) : Rank :=
  if r.spilled then
    { r with tiles := s.tilesBack r.id.owner.toNat (s.saveSlot r + 0x3C000) r.tilesInOrder, spilled := false }
  else r

/-- A set in the leaves through which the core tiles of a list are read back, and the reads logged (R102, R293). -/
def State.markTiles (s : State) (owner : Nat) (va : Word) : List Tile → State
  | [] => s
  | t :: r => (s.markWords owner 1 0 .engineRead va (t.rows * t.rowBytes / 8)).markTiles owner (va + wd (8192 * t.banks)) r

/-- The same for the core tiles of a rank that stand in its save area. -/
def State.markSpill (s : State) (r : Rank) : State :=
  if r.spilled then s.markTiles r.id.owner.toNat (s.saveSlot r + 0x3C000) r.tilesInOrder else s

/-- A switched-out rank resumes on its core (R48, R129). -/
def State.resumeRank (s : State) (r : Rank) : State :=
  let t := (s.markSpill r).updRank r.key r.run fun r => { s.readTiles r with state := .running, imaged := false, behind := false }
  ((t.acquireAt r.core).updCore r.core fun c => { c with last := some r.key }).unparkCopies r.key r.run r.core

/-- Whether posted stores of a rank that no context of it counts are under way off this module: those of its image among them (R339). -/
def State.imageAway (s : State) (k : RankKey) (run : Nat) : Bool := s.fab.requests.any fun q => q.issuer == .store k run noContext

/-- A core without a running rank takes the next rank it holds after the one it ran last, of the same launch, once its image is performed
(R48, R301, R339). [DEDUCED log 90] -/
def State.switchCore (s : State) (core : Nat) : State :=
  let held := s.liveRanks.filter (Rank.onCore core)
  let after := match (s.coreAt core).last with
    | some k => if held.any fun r => r.key.launch == k.launch then k.rank else 2^17
    | none => 2^17
  if held.any fun r => r.state == .running then s
  else
    match nextFolded (fun r => r.canResume && !s.imageAway r.key r.run) after held with
    | none => s
    | some r => s.resumeRank r

/-- A rank ends: its held and unread messages, streams and core tiles go with it (R225). -/
def Rank.over (r : Rank) : Rank :=
  { r with state := .ended, ctxs := [], blotter := [], inbox := [], graphs := [], tiles := [],
           streams := Vector.replicate 4 none }

/-- The focus laid down where its rank has ended. -/
def State.dropEnded (s : State) : State := { s with ranks := s.ranks.filter fun r => r.state != .ended }

/-- The rank of a key and run removed: the one in focus becomes an ended rank, another leaves the list. -/
def State.removeRank (s : State) (k : RankKey) (run : Nat) : State :=
  if s.rk.is k run && s.rk.state != .ended then { s with rk := s.rk.over, cx := Context.reset }
  else { s with ranks := s.ranks.filter fun r => !r.is k run }

/-- A run's signature with a rank's added (R258). -/
def Launch.signed (l : Launch) (run : Nat) (sig : BitVec 64) : Launch :=
  if run = 1 then { l with sig1 := some (l.sig1.getD 0 + sig) } else { l with sig0 := some (l.sig0.getD 0 + sig) }

/-- Whether a launch has no live rank. -/
def State.allEnded (s : State) (n : Nat) : Bool := !s.liveRanks.any fun r => r.key.launch == n

/-- The two signatures of a dual-run launch compared once its last rank has ended: on a mismatch it ends without completing. -/
def State.compareRuns (s : State) (n : Nat) : State :=
  match s.launch? n with
  | none => s
  | some l =>
    if !l.dual || !s.allEnded n || l.state != .running || l.sig0 = l.sig1 then s
    else
      let t := s.report { errRec Err.dualRun l.owner l.addr (l.sig0.getD 0) (l.sig1.getD 0) with queue := l.queue }
      t.endLaunch l false

/-- A control context's `hexit` ends its rank once what it waits for has ended (R225). The stores of the rank are made visible
at device scope; a core that holds other ranks goes on with the next (R301). -/
def execRankEnd (k : RankKey) (s : State) : Out :=
  match s.runWhere k s.mayEnd with
  | none => .next s
  | some r =>
    let t := s.commitAll
    let t := (t.removeRank k r.run).updLaunch k.launch fun l => l.signed r.run r.sig
    let t := if r.state == .running then (t.updCore r.core fun c => { c with last := some r.key }).switchCore r.core else t
    .next (t.compareRuns k.launch)

/-- A launch whose ranks have all ended completes, once its queue's progress record can be written (R59, R246). -/
def execLaunchComplete (n : Nat) (s : State) : Out :=
  match s.launch? n with
  | none => .next s
  | some l =>
    let s := s.retryProgress l.queue
    let blocked := match l.origin with
      | .queue _ => match s.queue? l.queue with
        | some q => q.stale || q.progRec.isSome
        | none => false
      | .program .. | .node .. => false
    if l.state == .running && s.allEnded n && !s.stopping n && !blocked then .next (s.endLaunch l true) else .next s

/-- Device time passes the deadline of a launch that has not completed: one DEADLINE record (R252). -/
def execDeadlinePassed (n : Nat) (s : State) : Out :=
  match s.launch? n with
  | none => .next s
  | some l =>
    let open_ := l.state == .ready || l.state == .running
    if open_ && !l.late && l.deadline != 0 && l.deadline.toNat < s.time then
      let t := s.report { errRec Err.deadline l.owner l.addr l.deadline (wd s.time) with queue := l.queue }
      .next (t.updLaunch n fun l => { l with late := true })
    else .next s

/-- The cluster tiles of an ended launch are freed once nothing reads them (R82, R85). -/
def execClusterTileEndFree (n : Nat) (s : State) : Out :=
  let above := match s.launch? n with
    | some l => l.state == .complete || l.state == .ended
    | none => false
  let used := s.eng.copies.any (fun c => c.key.launch == n) || s.liveRanks.any fun r => r.key.launch == n
  if above && !used then .next { s with eng := { s.eng with tiles := s.eng.tiles.filter fun t => t.launch != n } } else .next s

end Sys2Proof.Machine
end

