-- ==== Sys2Proof/Machine/Lns.lean ====
section
/-! DEFINITION. The logarithmic block format (04 R66 to R75): UE4M3 scales, LNS6 elements, LB4 words, the block-dot term, the
encode rule, and the conversion of an A24 element at a drain. -/

namespace Sys2Proof.Machine

open Sys2Proof

/-- Significand σ and exponent ε of a UE4M3 scale that has a value (R66). -/
def ue4m3 (c : Nat) : Nat × Int := if c / 8 = 0 then (c % 8, -9) else (8 + c % 8, c / 8 - 10)

/-- The table T of R69: 2^(f/4) × 1024, rounded. -/
def lnsT (f : Nat) : Nat :=
  match f % 4 with
  | 0 => 1024 | 1 => 1218 | 2 => 1448 | _ => 1722

/-- Element i of an LB4 word (R68). -/
def lbElem (w i : Nat) : Nat := w / 2^(6 * i) % 64

def lbScale (w : Nat) : Nat := w / 2^24 % 256

/-- Whether a word is NaR in all four elements (R68). -/
def lbNaR (w : Nat) : Bool := 0x7F ≤ lbScale w

/-- DecodeLB4 of R69 as an FP32 code. -/
def decodeLb4 (w i : Nat) : Nat :=
  let sc := lbScale w
  let e := lbElem w i
  if lbNaR w then 0x7FC00000
  else if sc = 0 then 0
  else if e = 0x20 then 0x7FC00000
  else if e = 0 then 0
  else
    let l := e % 32
    let (sg, ex) := ue4m3 sc
    (fp32.round 0 ⟨e.testBit 5, lnsT l * sg, (l / 4 : Nat) - 14 + ex, false⟩).1

/-- LnsProduct of R70, in units of 2^-18; none is NaR. -/
def lnsProduct (a b : Nat) : Option Int :=
  if a = 0x20 || b = 0x20 then none
  else if a = 0 || b = 0 then some 0
  else
    let s := a % 32 + b % 32
    some (signedInt (a.testBit 5 != b.testBit 5) (lnsT s * 2^(s / 4)))

/-- The nearest integer to n × 2^k, ties to even (R71). -/
def roundNE (n : Int) (k : Int) : Int := signedInt (decide (n < 0)) (roundAt 0 false n.natAbs k 0).1

/-- The sum of the four element products (R71). -/
def blockDot (a b : Nat) : (n : Nat) → Option Int
  | 0 => some 0
  | n + 1 => (blockDot a b n).bind fun d => (lnsProduct (lbElem a n) (lbElem b n)).map fun p => d + p

/-- BlockTerm of R71 with unit E; none is NaR. -/
def blockTerm (a b : Nat) (unit : Int) : Option Int :=
  if lbNaR a || lbNaR b then none
  else if lbScale a = 0 || lbScale b = 0 then some 0
  else
    (blockDot a b 4).map fun d =>
      let (sa, ea) := ue4m3 (lbScale a)
      let (sb, eb) := ue4m3 (lbScale b)
      roundNE (d * sa * sb) (ea + eb - 18 - unit)

/-! ### Encoding (R74, R75) -/

/-- Whether m1 × 2^e1 ≤ m2 × 2^e2. -/
def dyadicLe (m1 : Nat) (e1 : Int) (m2 : Nat) (e2 : Int) : Bool :=
  let e := min e1 e2
  m1 * 2^(e1 - e).toNat ≤ m2 * 2^(e2 - e).toNat

/-- THETA[k] of R75 as significand and exponent. -/
def theta (k : Nat) : Nat × Int :=
  let fr := match k % 4 with
    | 0 => 0x0B95C2 | 1 => 0x25FED7 | 2 => 0x45672A | _ => 0x6AC0C7
  (2^23 + fr, (k / 4 : Nat) - 27)

/-- BMAX of R74, the FP32 value 0x4157_44FD, as significand and exponent. -/
def bmax : Nat × Int := (0xD744FD, -20)

/-- The smallest scale code of the n from c up whose product with BMAX is at least m × 2^e (R74). -/
def smallestScale (m : Nat) (e : Int) (c : Nat) : (n : Nat) → Option Nat
  | 0 => none
  | n + 1 =>
    let (sg, ex) := ue4m3 c
    if dyadicLe m e (sg * bmax.1) (ex + bmax.2) then some c else smallestScale m e (c + 1) n

/-- The code L of a magnitude: one more than the highest of the thresholds below n that it reaches (R74). -/
def lnsCode (m : Nat) (e : Int) (sg : Nat) (ex : Int) : (n : Nat) → Nat
  | 0 => 0
  | n + 1 =>
    let (t, te) := theta n
    if dyadicLe (t * sg) (te + ex) m e then n + 1 else lnsCode m e sg ex n

/-- The magnitude of a finite value. -/
def Fp.mag : Fp → Nat × Int
  | .fin _ m e => (m, e)
  | .nan _ | .inf _ => (0, 0)

/-- EncodeLB4 of R74 on four values. -/
def encodeLb4 (x0 x1 x2 x3 : Fp) : FpRes :=
  let xs := [x0, x1, x2, x3]
  if xs.any fun x => match x with | .nan _ | .inf _ => true | .fin .. => false then (0x7F820820, Flag.nv)
  else
    let top := xs.foldl (fun t x => if dyadicLe t.1 t.2 x.mag.1 x.mag.2 then x.mag else t) (0, 0)
    if top.1 = 0 then (0, 0)
    else
      let found := smallestScale top.1 top.2 1 0x7E
      let s := found.getD 0x7E
      let (sg, ex) := ue4m3 s
      let enc := fun (x : Fp) =>
        let l := lnsCode x.mag.1 x.mag.2 sg ex 31
        if l = 0 then 0 else boolNat x.isNeg * 32 + l
      let es := enc x0 + enc x1 * 2^6 + enc x2 * 2^12 + enc x3 * 2^18
      (if es = 0 then 0 else s * 2^24 + es, flagIf found.isNone Flag.of)

/-! ### A24 elements at a drain (R73) -/

/-- The value a × 2^E of an element. -/
def a24Value (a unit : Int) : Fp := .fin (decide (a < 0)) a.natAbs unit

/-- The value of an element that is not poisoned, in FP32 or BF16, to nearest even. -/
def a24To (f : FpFmt) (a unit : Int) : FpRes :=
  if a = 0 then (0, 0) else f.round 0 ⟨decide (a < 0), a.natAbs, unit, false⟩

end Sys2Proof.Machine
end

