-- ==== Sys2Proof/Machine/Matrix.lean ====
section
/-! DEFINITION. The matrix unit (10 R199 to R213, 04 R70 to R76, 18 R322 to R325): its commands as they are accepted, the start of
a queued operation with its checks, the L-array and its pairing stages, the F-array, drains, and the merge of counts. -/

namespace Sys2Proof.Machine

open Sys2Proof

/-! ### Geometry and formats (R147, R199) -/

def Snapshot.rowsM (p : Snapshot) : Nat := field p.mg[0] 0 7
def Snapshot.lenK (p : Snapshot) : Nat := field p.mg[1] 0 13
def Snapshot.aRow (p : Snapshot) : Nat := field p.mg[2] 0 12
def Snapshot.bRow (p : Snapshot) : Nat := field p.mg[3] 0 12
def Snapshot.kOff (p : Snapshot) : Nat := field p.mg[4] 0 12
def Snapshot.pair (p : Snapshot) : Nat := p.fmt.toNat
def Snapshot.mode (p : Snapshot) : Nat := p.spar.toNat
def Snapshot.scaleTile (p : Snapshot) : Nat := p.sclp.toNat % 128
def Snapshot.scaleRow (p : Snapshot) : Nat := p.sclp.toNat / 256

/-- Whether PAIR is one of the four FP8 pairs. -/
def Snapshot.fp8 (p : Snapshot) : Bool := 2 ≤ p.pair && p.pair ≤ 5

/-- The registers an engine command keeps, as they stand in program order (R189). -/
def State.snapshot (s : State) : Snapshot :=
  { mg := s.cx.mg, fmt := s.cx.cr.fmt, sclp := s.cx.cr.sclp, accexp := s.cx.cr.accexp, spar := s.cx.cr.spar,
    keyid := s.cx.cr.keyid }

/-- The lowest REASON of R322 that holds for an operation; 0 where none does. -/
def comboReason (fcore : Bool) (kind : MxKind) (p : Snapshot) : Nat :=
  let some? := fun (l : List (Bool × Nat)) => ((l.find? fun q => q.1).map (·.2)).getD 0
  let formats := [((if fcore then p.pair == 0 || 6 ≤ p.pair else p.pair != 0), 1), (2 ≤ p.mode, 2),
    (p.mode == 1 && !fcore, 3), (p.mode == 1 && p.fp8, 4)]
  match kind with
  | .mmul =>
    some? (formats ++ [(p.rowsM == 0 || 64 < p.rowsM, 5), (!fcore && (p.lenK % 4 != 0 || p.lenK < 4 || 4096 < p.lenK), 6),
      (!fcore && p.kOff % 4 != 0, 7)])
  | .mwld => some? (formats ++ [(!fcore, 8)])
  | .mwswap => if fcore then 0 else 8
  | .mzero | .mzdrn => 0

/-- cr.trapval of MXCOMBO (R322). -/
def comboVal (p : Snapshot) (reason : Nat) : Word := wd (reason + 2^8 * p.pair + 2^16 * p.mode)

/-! ### Geometry registers and status (R199, R212) -/

/-- `mxg` (R199). -/
def execMxg (k : Fin 16) (a : Reg) (_la : Fin 16) (s : State) : Out :=
  .next { s with cx := { s.cx with mg := s.cx.mg.set k (s.x a) } }.advance

/-- `mxr` (R199). -/
def execMxr (d : Reg) (k _la : Fin 16) (s : State) : Out := .next (s.setX d s.cx.mg[k]).advance

/-- The operations accepted and not ended. -/
def MatrixUnit.ops (m : MatrixUnit) : List MatrixOp :=
  m.queue ++ (m.stream.map (·.1)).toList ++ m.tails ++ (m.drain.map (·.1)).toList

/-- Whether an operation acts on a plane. -/
def MatrixOp.onPlane (o : MatrixOp) (z : Fin 4) : Bool :=
  o.z == z && match o.kind with
    | .mmul | .mzero | .mzdrn => true
    | .mwld | .mwswap => false

/-- The physical tiles no plane maps to and no accepted operation still needs (R210). -/
def MatrixUnit.freeTiles (m : MatrixUnit) : List (Fin 8) :=
  (List.finRange 8).filter fun t => !m.map.toList.contains t && !m.ops.any fun o => o.tile == some t.val

/-- Whether a plane holds a poisoned element. -/
def Plane.poisoned (p : Plane) : Bool := p.cells.any fun q => q.2.bad

/-- The four bits of a function of the planes. -/
def planeBits (f : Fin 4 → Bool) : Nat := ((List.finRange 4).map fun z => if f z then 2^z.val else 0).sum

/-- The status word of `mstat` (R212). The wavefront of a swap has not passed while rows of an earlier stream are still in the array. -/
def MatrixUnit.status (m : MatrixUnit) (fcore : Bool) : Word :=
  wd (planeBits (fun z => m.ops.any fun o => o.onPlane z)
    + 2^4 * boolNat (m.stream.isSome || !m.tails.isEmpty) + 2^5 * boolNat m.drain.isSome + 2^6 * boolNat m.loaded
    + 2^7 * boolNat (m.queue.any (fun o => o.kind == .mwswap) || m.stream.any (fun q => q.1.passed) || m.tails.any MatrixOp.passed)
    + 2^8 * (if fcore then m.freeTiles.length else 0)
    + 2^12 * (if fcore then 0 else planeBits fun z => m.planes[z].poisoned)
    + 2^16 * m.queue.length)

/-- `mstat` (R212). -/
def execMstat (d : Reg) (_la : Fin 16) (s : State) : Out := .next (s.setX d (s.rk.mx.status (isFCore s.co.num))).advance

/-! ### Acceptance (R189, R200, R323) -/

def MatrixOp.tileA (o : MatrixOp) : Nat := field o.opA 0 7
def MatrixOp.tileB (o : MatrixOp) : Nat := field o.opB 0 7

/-- The tiles whose reads by the operation are counted (R85, R192). -/
def MatrixOp.readTiles (o : MatrixOp) (fcore : Bool) : List Nat :=
  match o.kind with
  | .mmul => if fcore then o.tileA :: (if o.snap.fp8 then [o.snap.scaleTile] else []) else [o.tileA, o.tileB]
  | .mwld => o.tileA :: (if o.snap.fp8 || o.snap.mode == 1 then [o.tileB] else [])
  | .mwswap | .mzero | .mzdrn => []

/-- The tiles whose allocation the instruction checks, in the order of R318. -/
def MatrixOp.named (o : MatrixOp) (fcore : Bool) : List Nat :=
  if o.kind == .mzdrn then [o.tileA] else o.readTiles fcore

/-- An operation of the issuing context. -/
def State.matrixOp (s : State) (kind : MxKind) (nc : Bool) (z : Fin 4) (fmt : Nat) (a b : Word) : MatrixOp :=
  { kind := kind, nc := nc, z := z, fmt := fmt, ctx := s.cx.num, gone := false, node := none, opA := a, opB := b, snap := s.snapshot,
    tile := none, reads := [], cluster := 0, flip := false, passed := false }

/-- An operation joined to the rank's queue, its counted reads started. -/
def State.queueOp (s : State) (r : Rank) (o : MatrixOp) : State :=
  let cl := clusterOf r.core
  let reads := (o.readTiles (isFCore r.core)).filter fun h => (s.tileOf r.key r.run cl h).isSome
  let t := reads.foldl (fun t h => t.updTile r.key r.run cl h Tile.readStarts) s
  t.updRank r.key r.run fun r => { r with mx := { r.mx with queue := r.mx.queue ++ [{ o with reads := reads, cluster := cl }] } }

/-- The frame of a matrix command: MXCOMBO, OPERAND for a word that breaks its layout, TILEALLOC for a free handle, then the
queue of 16, for which it waits (R200, R318, R323). -/
def State.matrixCommand (s : State) (o : MatrixOp) (bad : Option Word) : Out :=
  let f := isFCore s.co.num
  let reason := comboReason f o.kind o.snap
  if reason != 0 then .next (s.trap Cause.mxCombo (comboVal o.snap reason))
  else
    match bad with
    | some w => .next (s.trap Cause.operand w)
    | none =>
      match (o.named f).find? fun h => (s.tile? h).isNone with
      | some h => .next (s.trap Cause.tileAlloc (allocVal h 0))
      | none =>
        if 16 ≤ s.rk.mx.queue.length then .next (s.waitFor .acceptance)
        else .next (s.queueOp s.rk o).advance

/-- Whether a word names a tile and nothing else. -/
def handleWordOk (w : Word) : Bool := zeroAt w 7 57

/-- Whether a word names a tile in [6:0] and a row in [27:16], and nothing else (R207). -/
def rowWordOk (w : Word) : Bool := zeroAt w 7 9 && zeroAt w 28 36

/-- The first word that is not well formed. -/
def firstBad (l : List (Word × Bool)) : Option Word := (l.find? fun q => !q.2).map (·.1)

/-- `mwld` (R207): X[B] is read for FP8 and for sparse BF16 weights only. -/
def execMwld (a b : Reg) (_la : Fin 16) (s : State) : Out :=
  let o := s.matrixOp .mwld false 0 0 (s.x a) (s.x b)
  let usesB := o.snap.fp8 || o.snap.mode == 1
  s.matrixCommand o (firstBad [(s.x a, rowWordOk (s.x a)), (s.x b, !usesB || rowWordOk (s.x b))])

/-- `mwswap` (R208). -/
def execMwswap (_la : Fin 16) (s : State) : Out := s.matrixCommand (s.matrixOp .mwswap false 0 0 0 0) none

/-- `mmul`, `mmul.nc` (R201, R209); with a non-zero B field it is no instruction on an F-core (R190). -/
def execMmul (nc : Bool) (z : Fin 4) (a b : Reg) (la : Fin 16) (s : State) : Out :=
  let f := isFCore s.co.num
  if f && b != 0 then .next (s.illegal (.mmul nc z a b la))
  else
    s.matrixCommand (s.matrixOp .mmul nc z 0 (s.x a) (s.x b))
      (firstBad [(s.x a, handleWordOk (s.x a)), (s.x b, f || handleWordOk (s.x b))])

/-- `mzero` (R203, R210). -/
def execMzero (z : Fin 4) (_la : Fin 16) (s : State) : Out := s.matrixCommand (s.matrixOp .mzero false z 0 0 0) none

/-- The code of a drain format (R190), also the format tag it sets (R80). -/
def drainCode : DrainFmt → Nat
  | .lb4 => 1 | .f32 => 2 | .bf16 => 3

/-- `mzdrn` (R205). -/
def execMzdrn (z : Fin 4) (a : Reg) (f : DrainFmt) (_la : Fin 16) (s : State) : Out :=
  s.matrixCommand (s.matrixOp .mzdrn false z (drainCode f) (s.x a) 0) (firstBad [(s.x a, handleWordOk (s.x a))])

/-! ### Which operation may start (R200, R208, R210) -/

/-- Whether an operation renames its plane on an F-core. -/
def MatrixOp.renames (o : MatrixOp) (fcore : Bool) : Bool := fcore && (o.kind == .mzero || (o.kind == .mmul && o.nc))

/-- The operations that have started and not ended. -/
def MatrixUnit.started (m : MatrixUnit) : List MatrixOp := (m.stream.map (·.1)).toList ++ m.tails ++ (m.drain.map (·.1)).toList

/-- Whether the last word or row of the `mmul` that streams has entered the array, or none streams (R200). -/
def MatrixUnit.arrayFree (m : MatrixUnit) (fcore : Bool) : Bool :=
  match m.stream with
  | none => true
  | some (o, j) => fcore || o.snap.lenK / 4 ≤ j

/-- Whether the first operation of the queue may start: no earlier one on its plane has not ended, but where it renames the plane; the array is
free for an `mmul`; no row in the array reads the weights that a load overwrites (R200, R208, R210). [DEDUCED log 49] -/
def MatrixUnit.ready (m : MatrixUnit) (fcore : Bool) (o : MatrixOp) : Bool :=
  let free := if o.renames fcore then !m.freeTiles.isEmpty else !m.started.any fun e => e.onPlane o.z
  match o.kind with
  | .mmul => m.arrayFree fcore && free
  | .mzero => free
  | .mzdrn => m.drain.isNone && free
  | .mwld => !m.started.any MatrixOp.flip
  | .mwswap => true

/-- The operation that starts next, with those behind it: operations start in commit order (R200). [DEDUCED log 49] -/
def MatrixUnit.pickOp (m : MatrixUnit) (fcore : Bool) : Option (MatrixOp × List MatrixOp) :=
  match m.queue with
  | [] => none
  | o :: r => if m.ready fcore o then some (o, r) else none

/-! ### Start checks (R324) -/

/-- What an operation needs of a tile: its state, its rows, its row width. -/
structure TileNeed where
  handle : Nat
  state  : TileState
  rows   : Nat
  width  : Nat
  deriving DecidableEq, Repr

def drainWidth (fmt : Nat) : Nat := if fmt = 1 then 64 else if fmt = 2 then 256 else 128

def MatrixOp.rowA (o : MatrixOp) : Nat := field o.opA 16 12
def MatrixOp.rowB (o : MatrixOp) : Nat := field o.opB 16 12

/-- The tiles of R199, R205 and R211. [DESIGN CHOICE log 50] -/
def MatrixOp.needs (o : MatrixOp) (fcore : Bool) : List TileNeed :=
  let p := o.snap
  match o.kind with
  | .mmul =>
    if fcore then
      ⟨o.tileA, .full, p.aRow + p.rowsM, 128⟩ :: (if p.fp8 then [⟨p.scaleTile, .full, p.scaleRow + p.rowsM, 64⟩] else [])
    else [⟨o.tileA, .full, p.aRow + p.rowsM, p.kOff + p.lenK⟩, ⟨o.tileB, .full, p.bRow + 64, p.kOff + p.lenK⟩]
  | .mwld =>
    if p.fp8 then [⟨o.tileA, .full, o.rowA + 128, 64⟩, ⟨o.tileB, .full, o.rowB + 32, 64⟩]
    else if p.mode = 1 then [⟨o.tileA, .full, o.rowA + 32, 128⟩, ⟨o.tileB, .full, o.rowB + 16, 64⟩]
    else [⟨o.tileA, .full, o.rowA + 64, 128⟩]
  | .mzdrn => [⟨o.tileA, .empty, 64, drainWidth o.fmt⟩]
  | .mwswap | .mzero => []

/-- The first failed check: the handle, and 1 for bounds or layout, 2 for a state. [DESIGN CHOICE log 50] -/
def State.needFails (s : State) (k : RankKey) (run cluster : Nat) : List TileNeed → Option (Nat × Nat)
  | [] => none
  | n :: r =>
    match s.tileOf k run cluster n.handle with
    | none => some (n.handle, 2)
    | some t =>
      if t.rows < n.rows || t.rowBytes < n.width then some (n.handle, 1)
      else if t.state != n.state then some (n.handle, 2)
      else s.needFails k run cluster r

/-- The rank's matrix unit changed. -/
def State.updMx (s : State) (k : RankKey) (run : Nat) (f : MatrixUnit → MatrixUnit) : State :=
  s.updRank k run fun r => { r with mx := f r.mx }

/-- The operation's counted reads end, where they were counted: of one that a pre-empted rank took to another cluster, on the tiles of the old
one (R192, R213). [DESIGN CHOICE log 114] -/
def State.endReads (s : State) (r : Rank) (o : MatrixOp) : State :=
  o.reads.foldl (fun t h => t.updTile r.key r.run o.cluster h Tile.readEnds) s

/-- What an operation leaves in the registers of the context that committed it, unless that context has ended (R146, R326). -/
def State.mergeOp (s : State) (r : Rank) (o : MatrixOp) (f : Context → Context) : State :=
  if o.gone then s else s.updCtx r.key r.run o.ctx f

/-- An operation refused at its start: nothing changes but fault bit 17, an MXSTART record, and its node's fault (R324). -/
def State.refuseOp (s : State) (r : Rank) (o : MatrixOp) (handle val1 : Nat) : State :=
  let t := (s.endReads r o).updRank r.key r.run fun r => r.faulted 0
  let t := t.report { errRec Err.mxStart r.id.owner.toNat (wd handle) (wd val1) (wd o.z.val) with
    core := r.core, ctx := o.ctx }
  match o.node with
  | none => t
  | some (slot, n) => t.nodeFault r.key r.run slot n 6 (some 0)

/-! ### The pairing stage (R202 to R204, R325) -/

def Cell.zero : Cell := { a := 0, x := 0, bad := false, pos := [], neg := [], case := 0 }

/-- A poisoned stage: the saturation value, X = 0, the queues emptied without being added. Cases: 1 genuine overflow,
2 excursion, 3 out of range, 4 NaR. [DEDUCED log 53] -/
def Cell.poison (up : Bool) (case : Nat) : Cell :=
  { a := if up then 2^23 - 1 else -2^23, x := 0, bad := true, pos := [], neg := [], case := case }

/-- Add of R202: the sum wraps into 24 bits, X counting the wraps. [DEDUCED log 53] -/
def Cell.add (c : Cell) (v : Int) : Cell :=
  let s := c.a + v
  let (s, x) := if 2^23 - 1 < s then (s - 2^24, c.x + 1) else if s < -2^23 then (s + 2^24, c.x - 1) else (s, c.x)
  if 3 < x then .poison true 2 else if x < -3 then .poison false 2 else { c with a := s, x := x }

/-- Whether the stage's true value is non-negative. -/
def Cell.nonNeg (c : Cell) : Bool := decide (0 < c.x) || (c.x == 0 && decide (0 ≤ c.a))

/-- The release of a term of opposite sign to the true value, if the rule of R202 makes one. -/
def Cell.paired (c : Cell) : Option Cell :=
  if c.nonNeg then
    match c.neg with
    | [] => none
    | v :: r => some ({ c with neg := r }.add v)
  else
    match c.pos with
    | [] => none
    | v :: r => some ({ c with pos := r }.add v)

/-- PairCycle of R202 with a non-zero term in range: its queue takes it, a full queue releasing its head. -/
def Cell.take (c : Cell) (t : Int) : Cell :=
  if 0 < t then
    match c.pos with
    | v :: r => if r.length = 3 then { c with pos := r ++ [t] }.add v
                else let d := { c with pos := c.pos ++ [t] }; d.paired.getD d
    | [] => let d := { c with pos := [t] }; d.paired.getD d
  else
    match c.neg with
    | v :: r => if r.length = 3 then { c with neg := r ++ [t] }.add v
                else let d := { c with neg := c.neg ++ [t] }; d.paired.getD d
    | [] => let d := { c with neg := [t] }; d.paired.getD d

/-- PairCycle of R202; none is a NaR term. -/
def Cell.cycle (c : Cell) (t : Option Int) : Cell :=
  if c.bad then c
  else
    match t with
    | none => .poison false 4
    | some t =>
      if 2^23 - 1 < t then .poison true 3
      else if t < -(2^23 - 1) then .poison false 3
      else if t = 0 then c.paired.getD c
      else c.take t

/-- The tail: entries of the one sign left, head first; a wrap that carries X away from 0 is a genuine overflow. -/
def Cell.tail (c : Cell) (up : Bool) : List Int → Cell
  | [] => if c.x = 0 then c else .poison (decide (0 < c.x)) 1
  | v :: r =>
    let d := { c with pos := [], neg := [] }.add v
    if c.x.natAbs < d.x.natAbs || (d.bad && !c.bad) then .poison up 1 else d.tail up r

/-- The residue pass (R203): pairs while the rule makes one, then the tail. `fuel` bounds the pairs by the entries held. -/
def Cell.residue (c : Cell) : (fuel : Nat) → Cell
  | 0 => c
  | fuel + 1 =>
    if c.bad then c
    else
      match c.paired with
      | some d => d.residue fuel
      | none =>
        match c.pos with
        | [] => c.tail false c.neg
        | p => c.tail true p

/-- The cell at an index of a plane. -/
def Plane.cell (p : Plane) (k : Nat) : Cell := getAt Cell.zero k p.cells

def Plane.setCell (p : Plane) (k : Nat) (c : Cell) : Plane :=
  { p with cells := if c = Cell.zero then dropAt k p.cells else putAt k c p.cells }

/-! ### The L-array (R201) -/

/-- Word j of a row of an operand tile. -/
def Tile.wordAt (t : Tile) (p : Snapshot) (row j : Nat) : Nat := leNat (t.rowPart row (p.kOff + 4 * j) 4)

/-- A tile for a handle that names none. -/
def Tile.none_ : Tile :=
  { handle := 0, shape := 0, state := .empty, filled := 0, reads := 0, emptying := false, clearing := false, bytes := [], launch := 0, run := 0,
    cluster := 0, cores := [], ended := true }

/-- One word position of an L-core `mmul`, at every cell (m, n) with m < M. -/
def Plane.wordStep (p : Plane) (snap : Snapshot) (a b : Tile) (j : Nat) : Plane :=
  let unit := (p.exp.getD 0).toInt
  (List.range (64 * snap.rowsM)).foldl (fun p k =>
    let t := blockTerm (a.wordAt snap (snap.aRow + k / 64) j) (b.wordAt snap (snap.bRow + k % 64) j) unit
    p.setCell k ((p.cell k).cycle t)) p

/-- The residue pass of every cell of the operation. -/
def Plane.residues (p : Plane) (rows : Nat) : Plane :=
  (List.range (64 * rows)).foldl (fun p k => p.setCell k ((p.cell k).residue 9)) p

def State.opTile (s : State) (r : Rank) (h : Nat) : Tile := (s.tileOf r.key r.run (clusterOf r.core) h).getD Tile.none_

/-- The n word positions from j on. -/
def Plane.wordSteps (p : Plane) (snap : Snapshot) (a b : Tile) (j : Nat) : (n : Nat) → Plane
  | 0 => p
  | n + 1 => (p.wordStep snap a b j).wordSteps snap a b (j + 1) n

/-- How many elements of a plane the running operation poisoned by a case. -/
def Plane.poisonedBy (p : Plane) (case : Nat) : Nat := (p.cells.filter fun q => q.2.case == case).length

/-- The plane with the cases of the ended operation forgotten. -/
def Plane.casesEnd (p : Plane) : Plane := { p with cells := p.cells.map fun q => (q.1, { q.2 with case := 0 }) }

/-- The merge of an ended operation's counts into its context, with the MXOVF that cr.mxtrap enables (R204, R325). -/
def Context.mergeMx (c : Context) (z : Fin 4) (ovf xsat range : Nat) : Context :=
  let on := fun (k n : Nat) => if c.cr.mxtrap.toNat.testBit k then n else 0
  let hit := 0 < on 0 ovf + on 1 xsat + on 2 range
  { c with
    cr := { c.cr with mxcnt := mergeCounts c.cr.mxcnt ovf xsat range }
    mx := if hit then
        { pending := true, ovf := satCount c.mx.ovf (on 0 ovf), xsat := satCount c.mx.xsat (on 1 xsat),
          range := satCount c.mx.range (on 2 range), planes := c.mx.planes ||| BitVec.ofNat 4 (2^z.val) }
      else c.mx }

/-- The `mmul` that ends first: the oldest whose last word has entered, else the one that streams, with the words it has done. -/
def MatrixUnit.endsNext (m : MatrixUnit) : Option (MatrixOp × Nat) :=
  match m.tails with
  | o :: _ => some (o, o.snap.lenK / 4)
  | [] => m.stream

/-- The unit after that `mmul` has left the array. -/
def MatrixUnit.leaves (m : MatrixUnit) : MatrixUnit :=
  match m.tails with
  | _ :: r => { m with tails := r }
  | [] => { m with stream := none }

/-- The end of an L-core `mmul`: the words left, the residue pass, and the merge in one update. -/
def State.endMmulL (s : State) (r : Rank) (o : MatrixOp) (done : Nat) : State :=
  let a := s.opTile r o.tileA
  let b := s.opTile r o.tileB
  let p := ((r.mx.planes[o.z].wordSteps o.snap a b done (o.snap.lenK / 4 - done)).residues o.snap.rowsM)
  let t := s.updMx r.key r.run fun m => { m.leaves with planes := m.planes.set o.z p.casesEnd }
  t.mergeOp r o fun c => c.mergeMx o.z (p.poisonedBy 1) (p.poisonedBy 2) (p.poisonedBy 3)

/-! ### The F-array (R76, R206 to R210) -/

/-- The value under an index, zero where none is listed. -/
def sparse16 (l : List (Nat × BitVec 16)) (k : Nat) : Nat := (getAt 0 k l).toNat

/-- A weight cell's 16 bits as `mwld` reads them from its tiles (R207). -/
def weightBits (o : MatrixOp) (w x : Tile) (c n : Nat) : Nat :=
  let half := fun (row : Nat) => leNat (w.rowPart row (2 * n) 2)
  if o.snap.fp8 then
    leNat (w.rowPart (o.rowA + 2 * c) n 1) + 256 * leNat (w.rowPart (o.rowA + 2 * c + 1) n 1)
  else if o.snap.mode = 1 then
    let nib := leNat (x.rowPart (o.rowB + c / 4) (n / 2) 1) / 16^(n % 2) % 16
    let p0 := nib % 4
    let p1 := nib / 4
    if c % 4 = p1 && p1 != p0 then half (o.rowA + 2 * (c / 4) + 1)
    else if c % 4 = p0 then half (o.rowA + 2 * (c / 4)) else 0
  else half (o.rowA + c)

/-- The list of the non-zero values of a function over the indices below a bound. -/
def listed {α : Type} [DecidableEq α] (z : α) (f : Nat → α) (n : Nat) : List (Nat × α) :=
  (List.range n).filterMap fun k => if f k = z then none else some (k, f k)

/-- The shadow plane and its scale store after a load (R207). -/
def MatrixUnit.load (m : MatrixUnit) (o : MatrixOp) (w x : Tile) : MatrixUnit :=
  { m with
    weights := m.weights.set 1 (listed 0 (fun k => BitVec.ofNat 16 (weightBits o w x (k / 64) (k % 64))) 4096)
    scales := m.scales.set 1
      (if o.snap.fp8 then listed 0 (fun k => ((x.rowPart (o.rowB + k / 64) (k % 64) 1).getD 0 0 : Byte)) 2048 else [])
    loaded := true }

/-- The planes exchanged; the rows of every `mmul` in the array go on with the weights they have (R208). -/
def MatrixUnit.swap (m : MatrixUnit) : MatrixUnit :=
  let flip := fun (o : MatrixOp) => { o with flip := !o.flip, passed := true }
  { m with
    stream := m.stream.map fun q => (flip q.1, q.2)
    tails := m.tails.map flip
    weights := #v[m.weights[1], m.weights[0]]
    scales := #v[m.scales[1], m.scales[0]]
    loaded := false }

/-- A factor times a UE4M3 scale: scale 0 makes it a zero of the element's sign, + for a NaN (the sign is the model's
choice); a scale of 0x7F or above NaN (R76). [DEDUCED log 52] -/
def Fp.scaled (x : Fp) (code : Nat) : Fp :=
  if code = 0 then .fin x.isNeg 0 0
  else if 0x7F ≤ code then .nan false
  else
    let (sg, ex) := ue4m3 code
    (x.times (.fin false sg ex)).getD (.nan false)

/-- The exact sum of finite values at a common exponent. -/
def finSum (e : Int) : List Fp → Int
  | [] => 0
  | .fin neg m x :: r => signedInt neg (m * 2^(x - e).toNat) + finSum e r
  | .nan _ :: r | .inf _ :: r => finSum e r

def Fp.exp : Fp → Int
  | .fin _ _ e => e
  | .nan _ | .inf _ => 0

def Fp.isInf (neg : Bool) : Fp → Bool
  | .inf n => n == neg
  | .nan _ | .fin .. => false

/-- FPass of R76: the products and the accumulator summed exactly and rounded once, to nearest even. [DEDUCED log 51] -/
def fPass (acc : Fp) (ps : List (Fp × Fp)) : FpRes :=
  let nan := acc.isNan || ps.any fun q => q.1.isNan || q.2.isNan
  let quiet := !(acc.signals || ps.any fun q => q.1.signals || q.2.signals)
  let prods := ps.map fun q => q.1.times q.2
  let invalid := (ps.zip prods).any fun q => q.2.isNone && !q.1.1.isNan && !q.1.2.isNan
  let xs := acc :: prods.filterMap id
  let up := xs.any (Fp.isInf false)
  let down := xs.any (Fp.isInf true)
  if nan || invalid then (fp32.nanCode, flagIf (invalid || !quiet || (up && down)) Flag.nv)
  else
    if up && down then fp32.invalid
    else if up || down then fp32.infRes down
    else
      let e := xs.foldl (fun e x => min e x.exp) acc.exp
      let sum := finSum e xs
      if sum = 0 then fp32.zeroRes (xs.all Fp.isNeg) else fp32.round 0 ⟨decide (sum < 0), sum.natAbs, e, false⟩

/-- The factors of element (m, n) of an F-core `mmul` (R209). [DEDUCED log 52] -/
def fFactors (o : MatrixOp) (act scale : Tile) (w : List (Nat × BitVec 16)) (sw : List (Nat × Byte)) (m n : Nat) :
    List (Fp × Fp) :=
  let p := o.snap
  let row := p.aRow + m
  if p.fp8 then
    let fa := if p.pair ≤ 3 then e4m3 else e5m2
    let fb := if p.pair = 2 || p.pair = 4 then e4m3 else e5m2
    (List.range 128).map fun k =>
      let a := fa.value (leNat (act.rowPart row k 1))
      let b := fb.value (sparse16 w (64 * (k / 2) + n) / 256^(k % 2) % 256)
      (a.scaled (leNat (scale.rowPart (p.scaleRow + m) (k / 4) 1)), b.scaled (getAt 0 (64 * (k / 4) + n) sw).toNat)
  else
    (List.range 64).map fun k =>
      (bf16.value (leNat (act.rowPart row (2 * k) 2)), bf16.value (sparse16 w (64 * k + n)))

/-- The accumulator tile of an F-core `mmul` after it, and its flags. [DEDUCED log 51] -/
def fMmul (o : MatrixOp) (act scale : Tile) (m : MatrixUnit) (acc : List (Nat × BitVec 32)) : List (Nat × BitVec 32) × BitVec 5 :=
  let plane : Fin 2 := if o.flip then 1 else 0
  (List.range (64 * o.snap.rowsM)).foldl (fun q k =>
    let r := fPass (fp32.value (getAt 0 k q.1).toNat) (fFactors o act scale m.weights[plane] m.scales[plane] (k / 64) (k % 64))
    let v := BitVec.ofNat 32 r.1
    (if v = 0 then dropAt k q.1 else putAt k v q.1, q.2 ||| r.2)) (acc, 0)

/-- The physical tile an operation acts on: the one a later renaming left it, else its plane's. -/
def MatrixUnit.tileFor (m : MatrixUnit) (o : MatrixOp) : Fin 8 :=
  match o.tile with
  | some t => if h : t < 8 then ⟨t, h⟩ else m.map[o.z]
  | none => m.map[o.z]

/-- The end of an F-core `mmul`. -/
def State.endMmulF (s : State) (r : Rank) (o : MatrixOp) : State :=
  let t := r.mx.tileFor o
  let q := fMmul o (s.opTile r o.tileA) (s.opTile r o.snap.scaleTile) r.mx r.mx.phys[t]
  let u := s.updMx r.key r.run fun m => { m.leaves with phys := m.phys.set t q.1 }
  u.mergeOp r o fun c => { c with cr := { c.cr with fflags := c.cr.fflags ||| q.2 } }

/-- A plane renamed onto the lowest-numbered free physical tile, of +0; the operations that have started keep the old one (R210).
[DESIGN CHOICE log 128] -/
def MatrixUnit.rename (m : MatrixUnit) (z : Fin 4) : MatrixUnit :=
  match m.freeTiles with
  | [] => m
  | t :: _ =>
    let old := m.map[z].val
    let keep := fun (o : MatrixOp) => if o.onPlane z && o.tile.isNone then { o with tile := some old } else o
    { m with
      stream := m.stream.map fun q => (keep q.1, q.2)
      tails := m.tails.map keep
      drain := m.drain.map fun q => (keep q.1, q.2)
      map := m.map.set z t
      phys := m.phys.set t [] }

/-! ### Drains (R205, R210) -/

/-- Splits a list into groups of four. -/
def fours {α : Type} : List α → List (List α)
  | a :: b :: c :: d :: r => [a, b, c, d] :: fours r
  | _ => []

/-- A row of an L-core plane converted (R73): its bytes and flags. -/
def drainRowL (p : Plane) (fmt m : Nat) : List Byte × BitVec 5 :=
  let unit := (p.exp.getD 0).toInt
  let cells := (List.range 64).map fun n => p.cell (64 * m + n)
  if fmt = 1 then
    (fours cells).foldl (fun q g =>
      let v := fun (i : Nat) => a24Value ((g.getD i Cell.zero).a) unit
      let r := if g.any Cell.bad then (0x7F820820, 0) else encodeLb4 (v 0) (v 1) (v 2) (v 3)
      (q.1 ++ leBytes 4 r.1, q.2 ||| r.2)) ([], 0)
  else
    let f := if fmt = 2 then fp32 else bf16
    cells.foldl (fun q c =>
      let r := if c.bad then (f.nanCode, 0) else a24To f c.a unit
      (q.1 ++ leBytes (if fmt = 2 then 4 else 2) r.1, q.2 ||| r.2)) ([], 0)

/-- A row of an F-core accumulator converted (R210). -/
def drainRowF (acc : List (Nat × BitVec 32)) (fmt m : Nat) : List Byte × BitVec 5 :=
  let xs := (List.range 64).map fun n => (getAt 0 (64 * m + n) acc).toNat
  if fmt = 1 then
    (fours xs).foldl (fun q g =>
      let v := fun (i : Nat) => fp32.value (g.getD i 0)
      let r := encodeLb4 (v 0) (v 1) (v 2) (v 3)
      (q.1 ++ leBytes 4 r.1, q.2 ||| r.2)) ([], 0)
  else
    xs.foldl (fun q x =>
      let r := if fmt = 2 then (x, 0) else convTo fp32 bf16 0 x
      (q.1 ++ leBytes (if fmt = 2 then 4 else 2) r.1, q.2 ||| r.2)) ([], 0)

/-- The tile with rows of a drain written, each of which is then filled. -/
def drainRows (row : Nat → List Byte × BitVec 5) (rows : List Nat) (t : Tile) : Tile :=
  rows.foldl (fun t m => { t with bytes := cellsStore t.bytes (m * t.rowBytes) (row m).1, filled := m + 1 }) t

/-- The flags of a drain's 64 rows. -/
def drainFlags (row : Nat → List Byte × BitVec 5) : BitVec 5 := (List.range 64).foldl (fun f m => f ||| (row m).2) 0

/-- A row of the plane that an operation drains, converted. -/
def Rank.drainRow (r : Rank) (o : MatrixOp) : Nat → List Byte × BitVec 5 :=
  if isFCore r.core then drainRowF r.mx.phys[r.mx.tileFor o] o.fmt else drainRowL r.mx.planes[o.z] o.fmt

/-- The next row of the drain that runs shifts out into its tile, and FILLED rises (R205). -/
def State.drainShift (s : State) (r : Rank) : State :=
  match r.mx.drain with
  | none => s
  | some (o, j) =>
    if 64 ≤ j then s
    else
      (s.updTile r.key r.run (clusterOf r.core) o.tileA (drainRows (r.drainRow o) [j])).updMx r.key r.run fun m =>
        { m with drain := some (o, j + 1) }

/-- The tile with its format tag set. -/
def Tile.tagged (t : Tile) (fmt : Nat) : Tile :=
  { t with shape := (t.shape &&& 0x0FFFFFFFF) ||| (BitVec.ofNat 36 fmt <<< 32) }

/-- A drain ends: the rows left are in the tile, which is FULL; an L-core plane is left zeroed; the flags are merged (R205). -/
def State.endDrain (s : State) (r : Rank) : State :=
  match r.mx.drain with
  | none => s
  | some (o, j) =>
    let t := s.updTile r.key r.run (clusterOf r.core) o.tileA fun t =>
      { drainRows (r.drainRow o) ((List.range 64).drop j) t with state := .full, filled := 64 }
    let t := t.updMx r.key r.run fun m =>
      { m with drain := none, planes := if isFCore r.core then m.planes else m.planes.set o.z .zero }
    t.mergeOp r o fun c => { c with cr := { c.cr with fflags := c.cr.fflags ||| drainFlags (r.drainRow o) } }

/-- The rank's drain shifts a row out where its core runs it. -/
def State.drainStep (s : State) (k : RankKey) : State :=
  match s.runWhere k fun r => r.mx.drain.isSome && r.state == .running with
  | none => s
  | some r => s.drainShift r

/-- The drain that runs ends (R205). -/
def execDrainEnd (k : RankKey) (s : State) : Out :=
  match s.runWhere k fun r => r.mx.drain.isSome with
  | none => .next s
  | some r => .next (s.endDrain r)

/-! ### The start and the end of an operation -/

/-- The plane of an `mmul` as its stream begins: emptied by NC, its E recorded at the first since it was zeroed (R72, R201). -/
def Plane.begin (p : Plane) (o : MatrixOp) : Plane :=
  let p := if o.nc then .zero else p
  match p.exp with
  | none => { p with exp := some o.snap.accexp }
  | some _ => p

/-- An `mmul` begins streaming; the words or rows of the one before it are all in the array (R200). -/
def MatrixUnit.streams (m : MatrixUnit) (o : MatrixOp) : MatrixUnit :=
  { m with stream := some (o, 0), tails := m.tails ++ (m.stream.map (·.1)).toList }

/-- The effect of the start of an operation that passed its checks. [DEDUCED log 49] -/
def State.beginOp (s : State) (r : Rank) (o : MatrixOp) (later : List MatrixOp) : State :=
  let f := isFCore r.core
  let upd := fun (g : MatrixUnit → MatrixUnit) => s.updMx r.key r.run fun m => g { m with queue := later }
  match o.kind with
  | .mwld =>
    (upd fun m => m.load o (s.opTile r o.tileA) (s.opTile r o.tileB)).endReads r o
  | .mwswap => upd MatrixUnit.swap
  | .mzero =>
    if f then upd fun m => m.rename o.z
    else upd fun m => { m with planes := m.planes.set o.z .zero }
  | .mmul =>
    if f then upd fun m => (if o.nc then m.rename o.z else m).streams o
    else upd fun m => { m with planes := m.planes.set o.z (m.planes[o.z].begin o) }.streams o
  | .mzdrn =>
    (upd fun m => { m with drain := some (o, 0) }).updTile r.key r.run (clusterOf r.core) o.tileA fun t =>
      { t.tagged o.fmt with state := .filling, filled := 0 }

/-- Whether the rank's matrix unit and walker work: the rank runs on its core (R46, R341). -/
def Rank.hasCore (r : Rank) : Bool := r.state == .running

/-- The first operation of the queue starts once it may, or is refused (R200, R324). [DEDUCED log 49] -/
def execMatrixOpStart (k : RankKey) (s : State) : Out :=
  let pick := fun (r : Rank) => if r.hasCore then r.mx.pickOp (isFCore r.core) else none
  match s.runWhere k fun r => (pick r).isSome with
  | none => .next s
  | some r =>
    match pick r with
    | none => .next s
    | some (o, later) =>
      let f := isFCore r.core
      let reason := if o.node.isSome then comboReason f o.kind o.snap else 0
      let refused := fun (h v : Nat) => (s.updMx r.key r.run fun m => { m with queue := later }).refuseOp r o h v
      if reason != 0 then .next (refused o.tileA (3 + 256 * reason))
      else
        match s.needFails r.key r.run (clusterOf r.core) (o.needs f) with
        | some (h, v) => .next (refused h v)
        | none => .next (s.beginOp r o later)

/-- One word position of the `mmul` that streams on an L-core (R201, R202). -/
def execPairCycle (k : RankKey) (s : State) : Out :=
  let streams := fun (r : Rank) => match r.mx.stream with
    | some (o, j) => !isFCore r.core && r.hasCore && j < o.snap.lenK / 4
    | none => false
  match s.runWhere k streams with
  | none => .next s
  | some r =>
    match r.mx.stream with
    | none => .next s
    | some (o, j) =>
      let p := r.mx.planes[o.z].wordStep o.snap (s.opTile r o.tileA) (s.opTile r o.tileB) j
      .next (s.updMx r.key r.run fun m => { m with planes := m.planes.set o.z p, stream := some (o, j + 1) })

/-- The `mmul` that is in the array longest ends, its residue pass done and its counts or flags merged (R203, R204, R209). -/
def State.endStream (s : State) (r : Rank) : State :=
  match r.mx.endsNext with
  | none => s
  | some (o, j) => (if isFCore r.core then s.endMmulF r o else s.endMmulL r o j).endReads r o

/-- Every `mmul` in the array ends, and then the drain that runs (R213). -/
def State.endStarted (s : State) (k : RankKey) (run : Nat) : (fuel : Nat) → State
  | 0 => s.endDrain (s.rankOf k run)
  | n + 1 => (s.endStream (s.rankOf k run)).endStarted k run n

/-- The oldest operation in the array ends (R200, R204). -/
def execMatrixOpEnd (k : RankKey) (s : State) : Out :=
  match s.runWhere k fun r => r.mx.endsNext.isSome && r.hasCore with
  | none => .next s
  | some r => .next (s.endStream r)

end Sys2Proof.Machine
end

