-- ==== Sys2Proof/Machine/Graph.lean ====
section
/-! DEFINITION. Task graphs (05 R92 to R95, 10 R198, 18 R321): the check of a posted graph, the walker's starting and finishing of
nodes, `tgpost`, `tgwait` and `tgstat`. -/

namespace Sys2Proof.Machine

open Sys2Proof

/-! ### The records (R92, R93) -/

def Node.type (d : Node) : Nat := field d.words[0] 0 4
def Node.succCount (d : Node) : Nat := field d.words[0] 4 3
def Node.last (d : Node) : Bool := bitAt d.words[0] 7
def Node.pred (d : Node) : Nat := field d.words[0] 16 8
def Node.succ (d : Node) (i : Nat) : Nat := field d.words[1] (8 * i) 8
def Node.succs (d : Node) : List Nat := (List.range d.succCount).map d.succ

/-- Whether a node is performed by the copyist. -/
def Node.isCopy (d : Node) : Bool := d.type < 3

/-- CHAN of a copy node. -/
def Node.chan (d : Node) : Nat := field d.words[4] 8 2

/-- Whether the operands of a record break R93, unnamed bits included. [DEDUCED log 85] -/
def Node.operandsBroken (d : Node) : Bool :=
  let w := d.words
  let none4 := fun (i : Nat) => (w.toList.drop i).any fun x => x != 0
  match d.type with
  | 0 | 1 =>
    !zeroAt w[2] 53 11 || !zeroAt w[3] 32 32 || w[3] == 0 || !zeroAt w[3] 0 6 || !zeroAt w[4] 7 1 || !zeroAt w[4] 10 6
      || !zeroAt w[4] 28 36 || !zeroAt w[5] 32 32 || !zeroAt w[5] 0 6 || none4 6
  | 2 =>
    !zeroAt w[2] 53 11 || !zeroAt w[3] 32 32 || w[3] == 0 || !zeroAt w[4] 0 8 || !zeroAt w[4] 10 54 || !zeroAt w[5] 53 11 || none4 6
  | 3 => !zeroAt w[2] 7 1 || !zeroAt w[2] 15 1 || !zeroAt w[2] 18 2 || !zeroAt w[2] 21 43 || none4 3
  | 4 =>
    !zeroAt w[2] 2 6 || !zeroAt w[2] 15 1 || !zeroAt w[2] 20 44 || field w[2] 16 4 == 0 || 3 < field w[2] 16 4 || none4 3
  | 5 => !zeroAt w[2] 4 60 || none4 3
  | 6 => !zeroAt w[2] 53 11 || none4 3
  | _ => true

/-- Whether a record breaks R92 or R93 whatever the graph's length. -/
def Node.broken (d : Node) : Bool :=
  4 < d.succCount || !zeroAt d.words[0] 8 8 || !zeroAt d.words[0] 24 40 || !zeroAt d.words[1] 32 32
    || (List.range 4).any (fun i => d.succCount ≤ i && d.succ i != 0) || d.operandsBroken

/-- Whether a record of a graph of n records is malformed (R321). [DEDUCED log 85] -/
def Node.malformed (n : Nat) (d : Node) : Bool := d.broken || d.succs.any fun i => n ≤ i

/-- A record as read. -/
def nodeOf (ws : List Word) : Node :=
  let w : Vector Word 8 := Vector.ofFn fun i => ws.getD i.val 0
  { words := w, count := field w[0] 16 8, state := .waiting }

/-- The records of a graph up to its last, at most n of them, and the trouble that ended the reading. [DESIGN CHOICE log 30, DEDUCED log 86] -/
def State.readGraph (s : State) (va : Word) (got : List Nat) : (n : Nat) → List Node × Option Trouble
  | 0 => ([], none)
  | n + 1 =>
    match s.lineFrom s.owner .walker (dieOf s.co.num) va got with
    | .error t => ([], some t)
    | .ok (ws, rest) =>
      let d := nodeOf ws
      if d.last then ([d], none)
      else
        let q := s.readGraph (va + 64) rest n
        (d :: q.1, q.2)

/-- The first copy node whose channel the owner does not hold (R320). -/
def State.missingChannel (s : State) (ds : List Node) : Option Nat :=
  (ds.find? fun d => d.isCopy && !s.holdsChannel s.owner (channelOf s.co.num d.chan)).map fun d => channelOf s.co.num d.chan

/-- The outcome of a record that could not be read, or not yet. [DEDUCED log 85] -/
def State.graphTrouble (s : State) (acc : Access) : Trouble → State
  | .replay va cause acc pin => s.faultHere va cause acc pin
  | .bad reason va =>
    if reason != 3 then s.readAway acc va
    else if canonical va then s.trap Cause.unbacked va else s.trap Cause.page va
  | .noHost _ _ va => s.readAway acc va
  | .later => s.waitFor .held

/-- The malformed record of a graph read whole: the first that breaks a rule, or record 255 where none has LAST (R321). -/
def brokenNode (ds : List Node) : Option Nat :=
  match ds.findIdx? (Node.malformed ds.length) with
  | some k => some k
  | none => if ds.any Node.last then none else some 255

/-! ### `tgpost` (R94, R198) -/

/-- The graphs that a core's walker holds. -/
def State.walkerGraphs (s : State) (core : Nat) : List Graph := (s.liveRanks.filter (Rank.onCore core)).flatMap Rank.graphs

/-- The lowest of the four slots that no graph of the core holds. [DEDUCED log 86] -/
def State.freeSlot (s : State) (core : Nat) : Option Nat :=
  (List.range 4).find? fun k => !(s.walkerGraphs core).any fun g => g.slot == k

/-- A graph taken by the walker, with the snapshot of the posting context. -/
def State.postGraph (s : State) (slot : Nat) (addr : Word) (ds : List Node) : State :=
  let g : Graph :=
    { slot := slot, addr := addr, seq := s.rk.nextSeq .graph 0, ctx := s.cx.num, gone := false, snap := s.snapshot, nodes := ds, faulted := false }
  s.updRank s.rk.key s.rk.run fun r => { r.issue .graph 0 1 ds.length with graphs := r.graphs ++ [g] }

/-- `tgpost` (R198): it waits for a slot, then the walker reads the graph once; A is set where it has read, whatever comes of it (R102).
[DEDUCED log 86] -/
def execTgpost (d a : Reg) (_la : Fin 16) (s : State) : Out :=
  let va := s.x a
  if misaligned va 64 then .next (s.trap Cause.misalign va)
  else
    let s := s.keepAnswer
    match s.freeSlot s.co.num with
    | none => .next (s.waitFor .acceptance)
    | some slot =>
      let (ds, trouble) := s.readGraph va s.cx.lanes 256
      let s := s.markWords s.owner 2 (dieOf s.co.num) .walker va (8 * ds.length)
      match trouble with
      | some e =>
        match ds.findIdx? Node.broken with
        | some k => .next (s.trap Cause.operand (va + wd (64 * k)))
        | none =>
          match s.missingChannel ds with
          | some ch => .next (s.trap Cause.resource (descriptor 0x05 ch))
          | none => .next (s.graphTrouble .walker e)
      | none =>
        match brokenNode ds with
        | some k => .next (s.trap Cause.operand (va + wd (64 * k)))
        | none =>
          match s.missingChannel ds with
          | some ch => .next (s.trap Cause.resource (descriptor 0x05 ch))
          | none => .next ((s.postGraph slot va ds).setX d (ticketWord 0 (s.rk.nextSeq .graph 0))).advance

/-! ### `tgwait` and `tgstat` (R198) -/

/-- `tgwait` (R198): the wake bits that end the wait are cleared in the same update. -/
def execTgwait (d a : Reg) (_la : Fin 16) (s : State) : Out :=
  let m := s.x a
  let hit := s.rk.wake &&& m.setWidth 16
  let fault := s.rk.faults[0] || s.rk.faults[1]
  if !zeroAt m 16 48 then .next (s.trap Cause.operand m)
  else if m = 0 then s.result d 0
  else if hit = 0 && !fault then .next (s.waitFor .tgwait)
  else
    let t := { s with rk := { s.rk with wake := s.rk.wake &&& ~~~hit } }
    t.result d (hit.setWidth 64 ||| (if fault then 0x8000000000000000 else 0))

/-- `tgstat` (R198). -/
def execTgstat (d a : Reg) (_la : Fin 16) (s : State) : Out :=
  s.onTicket d (s.x a) .graph fun t later => statusWord (recentAged later) t.state (t.total * 2^16 + t.done)

/-! ### The walker (R94) -/

/-- Whether a node can start: it waits and its count is 0. -/
def Node.startable (d : Node) : Bool := d.state == .waiting && d.count == 0

/-- Whether a node is the lowest of its graph that can start. -/
def Graph.startsNext (g : Graph) (n : Nat) : Bool :=
  match g.nodes.findIdx? Node.startable with
  | none => false
  | some k => k == n

/-- The copyist command of a copy node. -/
def copyNode (r : Rank) (g : Graph) (n : Nat) (d : Node) : CopyCmd :=
  let kind : CopyKind := if d.type = 0 then .copyIn else if d.type = 1 then .copyOut else .copy
  let onTile := d.type != 2
  { chan := channelOf r.core d.chan, key := r.key, run := r.run, ctx := g.ctx, core := r.core, owner := r.id.owner.toNat,
    keyid := g.snap.keyid, kind := kind, mem := addr53 ((if onTile then d.words[2] else d.words[5]).setWidth 53),
    src := if onTile then 0 else addr53 (d.words[2].setWidth 53), control := d.words[4],
    pitch := if onTile then field d.words[5] 0 32 else 0, bytes := field d.words[3] 0 32, seq := g.seq, node := some (g.slot, n),
    started := false, done := 0, record := none, ring := none, got := [], moved := true, counted := false,
    lease := none }

/-- The matrix operation of a matrix or drain node, with the graph's snapshot. -/
def matrixNode (g : Graph) (n : Nat) (d : Node) : MatrixOp :=
  let w := d.words[2]
  let z := fun (k : Nat) => (⟨k % 4, by omega⟩ : Fin 4)
  if d.type = 3 then
    { kind := .mmul, nc := bitAt w 20, z := z (field w 16 2), fmt := 0, ctx := g.ctx, gone := g.gone, node := some (g.slot, n),
      opA := wd (field w 0 7), opB := wd (field w 8 7), snap := g.snap, tile := none, reads := [], cluster := 0, flip := false, passed := false }
  else
    { kind := .mzdrn, nc := false, z := z (field w 0 2), fmt := field w 16 4, ctx := g.ctx, gone := g.gone, node := some (g.slot, n),
      opA := wd (field w 8 7), opB := 0, snap := g.snap, tile := none, reads := [], cluster := 0, flip := false, passed := false }

/-- A node handed to its engine (R94 step 2). A copy-out whose tile is allocated starts its counted read (R192). -/
def State.startNode (s : State) (r : Rank) (g : Graph) (n : Nat) (d : Node) : State :=
  let t := s.updRank r.key r.run fun r => r.updGraph g.slot fun g => g.setNode n .running
  match d.type with
  | 0 | 1 | 2 =>
    let c := copyNode r g n d
    let c := { c with counted := c.kind == .copyOut && (s.copyTile c).isSome }
    let t := t.acceptCopy c
    if c.counted then t.updCopyTile c Tile.readStarts else t
  | 3 | 4 => t.queueOp r (matrixNode g n d)
  | 5 => t.updRank r.key r.run fun r => { r with wake := r.wake ||| BitVec.ofNat 16 (2^(field d.words[2] 0 4)) }
  | _ =>
    let num := t.disp.nextNum
    let u := t.newLaunch (.node r.key r.run g.slot n) (t.queueOf r.key) r.id.owner.toNat (addr53 (d.words[2].setWidth 53))
    u.readChild num

/-- Whether the engine of a node takes it: the matrix unit's queue holds 16 (R200). -/
def Rank.takes (r : Rank) (d : Node) : Bool := !(d.type == 3 || d.type == 4) || decide (r.mx.queue.length < 16)

/-- The walker starts a node whose count is 0, the lowest first (R94). -/
def execGraphNodeStart (k : RankKey) (slot node : Nat) (s : State) : Out :=
  let ready := fun (r : Rank) => r.hasCore && match r.graph? slot with
    | none => false
    | some g => g.startsNext node && match g.nodes[node]? with
      | none => false
      | some d => r.takes d
  match s.runWhere k ready with
  | none => .next s
  | some r =>
    match r.graph? slot with
    | none => .next s
    | some g =>
      match g.nodes[node]? with
      | none => .next s
      | some d => .next (s.startNode r g node d)

/-- The latest launch that a node started. -/
def State.nodeLaunch (s : State) (k : RankKey) (run slot node : Nat) : Option Launch :=
  (s.disp.launches.filter fun l => l.origin == .node k run slot node).getLast?

/-- Whether the work of a running node is done (R94 step 3). -/
def State.nodeDone (s : State) (r : Rank) (slot n : Nat) (d : Node) : Bool :=
  match d.type with
  | 0 | 1 | 2 => !s.eng.copies.any fun c => c.key == r.key && c.run == r.run && c.node == some (slot, n)
  | 3 | 4 => !r.mx.ops.any fun o => o.node == some (slot, n)
  | 5 => true
  | _ => match s.nodeLaunch r.key r.run slot n with
    | none => false
    | some l => l.state == .complete

/-- The counts of a finished node's successors go down by one; one that is 0 already stays 0. [DESIGN CHOICE log 115] -/
def countDown (succs : List Nat) (ds : List Node) : List Node :=
  succs.foldl (fun ds i => updNth (fun (d : Node) => { d with count := d.count - 1 }) i ds) ds

/-- One more finished node in the status of a graph, faulted or not. -/
def Rank.countNode (r : Rank) (seq : Nat) : Rank :=
  { r with tickets := (updFirst (fun t => t.isAt .graph 0 seq) (fun t => { t with done := t.done + 1 }) r.tickets.reverse).reverse }

/-- A running node finishes: its successors' counts go down, and a graph whose nodes have all finished completes (R94); the saved image of a
switched-out rank is to show it (R46). -/
def State.finishNode (s : State) (k : RankKey) (run : Nat) (q : Nat × Nat) : State :=
  let upd := fun (g : Graph) =>
    let succs := match g.nodes[q.2]? with
      | none => []
      | some d => d.succs
    let g := g.setNode q.2 .finished
    { g with nodes := countDown succs g.nodes }
  s.updRank k run fun r =>
    match r.graph? q.1 with
    | none => r
    | some g => (((r.updGraph q.1 upd).countNode g.seq).settleGraph q.1).reached

/-- The running nodes of a rank whose work is done, by graph slot and node. -/
def State.doneNodes (s : State) (r : Rank) : List (Nat × Nat) :=
  r.graphs.flatMap fun g => (g.nodes.zipIdx.filter fun q => q.1.state == .running && s.nodeDone r g.slot q.2 q.1).map fun q => (g.slot, q.2)

/-- Every running node of a rank whose work is done finishes, as at the pause of its graphs (R46 step 1). [DEDUCED log 46] -/
def State.finishNodes (s : State) (k : RankKey) (run : Nat) : State :=
  (s.doneNodes (s.rankOf k run)).foldl (fun t q => t.finishNode k run q) s

/-- A node whose work is done finishes (R94). -/
def execGraphNodeFinish (k : RankKey) (slot node : Nat) (s : State) : Out :=
  let running := fun (r : Rank) => match r.graph? slot with
    | none => false
    | some g => g.nodeIs node .running && match g.nodes[node]? with
      | none => false
      | some d => s.nodeDone r slot node d
  match s.runWhere k running with
  | none => .next s
  | some r => .next (s.finishNode k r.run (slot, node))

end Sys2Proof.Machine
end

