-- ==== Sys2Proof/Machine/VecMem.lean ====
section
/-! DEFINITION. Vector memory (09 R181 to R184) and the stream instructions (R185 to R187, 05 R89). Every active lane translates
before any is performed (R327). -/

namespace Sys2Proof.Machine

open Sys2Proof

/-! ### Lanes in memory -/

/-- Lane i's value where active, with its number. -/
def activeOf {α : Type} : (i : Nat) → List Bool → List α → List (Nat × α)
  | i, b :: bs, x :: xs => if b then (i, x) :: activeOf (i + 1) bs xs else activeOf (i + 1) bs xs
  | _, _, _ => []

/-- The lanes of n bytes at the places found, in lane order. `got` holds the values of the first lanes from an earlier issue of
the instruction, `ans` the answer to the lane after them. A remote or host lane is requested, and the instruction waits with
the values so far. [DEDUCED log 27] -/
def State.loadLanes (s : State) (n : Nat) : (done got : List Nat) → (ans : Option Nat) → List (Word × Found) →
    Except State (State × List Nat)
  | done, _, _, [] => .ok (s, done)
  | done, g :: gs, ans, _ :: r => s.loadLanes n (done ++ [g]) gs ans r
  | done, [], some v, _ :: r => s.loadLanes n (done ++ [v]) [] none r
  | done, [], none, (va, .at pa l) :: r =>
    if hostSpace pa then
      let t := { s with cx := { s.cx with lanes := done } }
      match t.hostAccess false pa va n .read 0 with
      | .ok u | .error u => .error u
    else
      match s.loadPhys pa n l .core false with
      | .error t => .error { t with cx := { t.cx with lanes := done } }
      | .ok (t, bs) => t.loadLanes n (done ++ [leNat bs]) [] none r
  | done, [], none, (va, .remote node addr _ _) :: _ =>
    .error ({ s with cx := { s.cx with lanes := done } }.remoteLoad .read node addr va n 0)
  | _, [], none, (_, .page) :: _ | _, [], none, (_, .perm _) :: _ | _, [], none, (_, .held) :: _
  | _, [], none, (_, .unbacked) :: _ => .error s

/-- The loads of a vector instruction from the given addresses, in lane order. -/
def State.loadVec (s : State) (vas : List Word) (n : Nat) : Except State (State × List Nat) :=
  if s.awaiting then .error s
  else
    match s.reach vas .load with
    | .error t => .error t
    | .ok (t, fs) =>
      { t with cx := { t.cx with answer := none, lanes := [] } }.loadLanes n [] s.cx.lanes
        (s.cx.answer.map fun (v : Word) => v.toNat % 2^(8 * n)) (vas.zip fs)

/-- The stores of a vector instruction performed in lane order. [DEDUCED log 27] -/
def State.storeLanes (s : State) (n : Nat) : List ((Word × Found) × Nat) → Except State State
  | [] => .ok s
  | ((va, f), v) :: r =>
    match s.storeTo va (leBytes n v) 0 f with
    | .error t => .error t
    | .ok t => t.storeLanes n r

/-- The state in which a store to host space traps or waits, if it does (R280, R349): asked before any lane is performed. -/
def State.hostStop (s : State) (fs : List (Word × Found)) : Option State :=
  match fs.find? fun q => match q.2 with
    | .at pa _ => hostSpace pa
    | .remote .. | .page | .perm _ | .held | .unbacked => false with
  | some (va, .at pa _) =>
    match s.hostAccess true pa va 1 .write 0 with
    | .error t => some t
    | .ok _ => none
  | some _ | none => none

/-- The stores of a vector instruction to the given addresses. -/
def State.storeVec (s : State) (vas : List Word) (vs : List Nat) (n : Nat) : Except State State :=
  if s.awaiting then .error s
  else
    match s.reach vas .store with
    | .error t => .error t
    | .ok (t, fs) =>
      match t.hostStop (vas.zip fs) with
      | some u => if t.dry then t.storeLanes n ((vas.zip fs).zip vs) else .error u
      | none => t.storeLanes n ((vas.zip fs).zip vs)

/-- A stop that the translation of the lanes comes before (R318): where one of them faults, that is taken instead. -/
def State.lastOf (s : State) (vas : List Word) (acc : Access) (u : State) : State :=
  match s.reach vas acc with
  | .error t => t
  | .ok _ => u

/-- The frame of a vector load, a gather too: ILLEGAL, MISALIGN of the lowest active lane that is misaligned, the streams' OPERAND, translation,
then the streams' state (R318). [DEDUCED log 27, DESIGN CHOICE log 127] -/
def State.vecLoad (s : State) (i : Instr) (d : VField) (srcs : List VField) (pg : Fin 8) (w : Nat)
    (addrs : List Word) : Out :=
  let us := srcs.map srcUse ++ [VUse.mk d true false]
  let act := activeLanes w (s.mask pg)
  let lanes := activeOf 0 act addrs
  if !s.isControl && us.any fun u => (streamNo u.f).isSome then .next (s.illegal i)
  else
    match lanes.find? fun q => misaligned q.2 (w / 8) with
    | some q => .next (s.trap Cause.misalign q.2)
    | none =>
      match s.streamsLegal i us with
      | .error t => .next t
      | .ok () =>
        match s.streamsReady us with
        | .error u => .next (s.lastOf (lanes.map (·.2)) .load u)
        | .ok () =>
          match s.loadVec (lanes.map (·.2)) (w / 8) with
          | .error t => .next t
          | .ok (t, vs) =>
            let full := (lanes.zip vs).foldl (fun (l : List Nat) q => l.set q.1.1 q.2) (List.replicate (1024 / w) 0)
            .next ((t.writeV d (laneMask w act) (joinLanes w full)).stepStreams (srcs ++ [d])).advance

/-- The frame of a vector store of VD's active lanes, a scatter too; MISALIGN is that of the lowest active lane that is misaligned.
[DESIGN CHOICE log 127] -/
def State.vecStore (s : State) (i : Instr) (d : VField) (srcs : List VField) (pg : Fin 8) (w : Nat)
    (addrs : List Word) : Out :=
  let us := srcs.map srcUse ++ [srcUse d]
  let lanes := activeOf 0 (activeLanes w (s.mask pg)) (addrs.zip (lanesOf w (s.source d)))
  if !s.isControl && us.any fun u => (streamNo u.f).isSome then .next (s.illegal i)
  else
    match lanes.find? fun q => misaligned q.2.1 (w / 8) with
    | some q => .next (s.trap Cause.misalign q.2.1)
    | none =>
      match s.streamsLegal i us with
      | .error t => .next t
      | .ok () =>
        match s.streamsReady us with
        | .error u => .next (s.lastOf (lanes.map (·.2.1)) .store u)
        | .ok () =>
          match s.storeVec (lanes.map (·.2.1)) (lanes.map (·.2.2)) (w / 8) with
          | .error t => .next t
          | .ok t => .next (t.stepStreams (srcs ++ [d])).advance

/-- The addresses of consecutive lanes (R181). -/
def strideAddrs (ea : Word) (w : Nat) : List Word := (List.range (1024 / w)).map fun i => ea + wd (i * (w / 8))

/-- The addresses X[A] + Sext(b[i]) × (w/8) (R183). -/
def gatherAddrs (base : Word) (w : Nat) (b : VReg) : List Word :=
  (lanesOf w b).map fun x => base + sextLow w (wd x) * wd (w / 8)

/-- `vld` (R181). -/
def execVld (d a b : Reg) (pg : Fin 8) (t : ElemType) (s : State) : Out :=
  s.vecLoad (.vld d a b pg t) d [] pg (elemWidth t) (strideAddrs (s.x a + s.x b) (elemWidth t))

/-- `vst` (R181). -/
def execVst (d a b : Reg) (pg : Fin 8) (t : ElemType) (s : State) : Out :=
  s.vecStore (.vst d a b pg t) d [] pg (elemWidth t) (strideAddrs (s.x a + s.x b) (elemWidth t))

/-- `vgather` (R183). [DEDUCED log 28] -/
def execVgather (d a b : Reg) (pg : Fin 8) (t : ElemType) (s : State) : Out :=
  s.vecLoad (.vgather d a b pg t) d [b] pg (elemWidth t) (gatherAddrs (s.x a) (elemWidth t) (s.source b))

/-- `vscatter` (R183): stores in ascending lane order. [DEDUCED log 28] -/
def execVscatter (d a b : Reg) (pg : Fin 8) (t : ElemType) (s : State) : Out :=
  s.vecStore (.vscatter d a b pg t) d [b] pg (elemWidth t) (gatherAddrs (s.x a) (elemWidth t) (s.source b))

/-! ### Tile rows (R182) -/

/-- The checks of `vldt` and `vstt` in the order of R318: ILLEGAL, the operand words' unnamed bits and the stream's use, the
handle, then the row and column bounds and the stream's step. Answers the tile. -/
def State.rowOperand (s : State) (i : Instr) (u : VUse) (a b : Word) : Except State Tile :=
  if !s.isControl && (streamNo u.f).isSome then .error (s.illegal i)
  else if !zeroAt a 7 57 then .error (s.trap Cause.operand a)
  else if !zeroAt b 12 4 || !zeroAt b 22 42 then .error (s.trap Cause.operand b)
  else if s.badUse u then .error (s.streamTrap u.f)
  else
    match s.tile? (field a 0 7) with
    | none => .error (s.trap Cause.tileAlloc (allocVal (field a 0 7) 0))
    | some t =>
      if t.rows ≤ field b 0 12 || t.rowBytes / 64 ≤ field b 16 6 then .error (s.trap Cause.operand b)
      else if s.pastTile u then .error (s.streamTrap u.f)
      else .ok t

/-- `vldt` (R182): the tile is FULL. -/
def execVldt (d a b : Reg) (pg : Fin 8) (t : ElemType) (s : State) : Out :=
  let u := VUse.mk d true false
  let w := elemWidth t
  match s.rowOperand (.vldt d a b pg t) u (s.x a) (s.x b) with
  | .error u => .next u
  | .ok tile =>
    if tile.state != .full then .next (s.trap Cause.tileState (stateVal tile.handle tile.state))
    else
      match s.streamsReady [u] with
      | .error u => .next u
      | .ok () =>
        let v := ofBytes (tile.rowPart (field (s.x b) 0 12) (field (s.x b) 16 6 * 64) 128)
        .next ((s.writeV d (laneMask w (activeLanes w (s.mask pg))) v).stepStreams [d]).advance

/-- `vstt` (R182): the tile is EMPTY or FILLING and becomes FILLING. -/
def execVstt (d a b : Reg) (pg : Fin 8) (t : ElemType) (s : State) : Out :=
  let u := srcUse d
  let w := elemWidth t
  match s.rowOperand (.vstt d a b pg t) u (s.x a) (s.x b) with
  | .error u => .next u
  | .ok tile =>
    if tile.state = .full || tile.state = .draining then .next (s.trap Cause.tileState (stateVal tile.handle tile.state))
    else
      match s.streamsReady [u] with
      | .error u => .next u
      | .ok () =>
        let bs := (activeLanes 8 (laneMask w (activeLanes w (s.mask pg)))).zip (bytesOf (s.source d))
        .next ((s.setTile tile.handle fun k =>
          { k.writePart (field (s.x b) 0 12) (field (s.x b) 16 6 * 64) bs with state := .filling }).stepStreams [d]).advance

/-! ### Streams (R185, R186, R89) -/

/-- Whether word 0 of a descriptor keeps its layout (R89). -/
def bindWord0 (w : Word) : Bool := zeroAt w 61 3 && zeroAt w 45 3 && zeroAt w 26 6

/-- Whether word 1 does: its counts are 1 to 4,096. -/
def bindWord1 (w : Word) : Bool :=
  zeroAt w 29 35 && zeroAt w 13 3 && 1 ≤ field w 0 13 && field w 0 13 ≤ 4096 && 1 ≤ field w 16 13 && field w 16 13 ≤ 4096

/-- Whether every row of the pattern lies in the tile: the extreme ones do, since rows are affine in i and j. -/
def Stream.inside (k : Stream) (t : Tile) : Bool :=
  let ok := fun (i j : Nat) => decide (0 ≤ k.rowAt i j) && decide (k.rowAt i j < t.rows)
  ok 0 0 && ok (k.c0 - 1) 0 && ok 0 (k.c1 - 1) && ok (k.c0 - 1) (k.c1 - 1) && k.col < t.rowBytes / 64

/-- `sbind` (R185): any binding of sk ends, then sk is bound at step 0 of pass 0. -/
def execSbind (k : Fin 4) (a b : Reg) (la : Fin 16) (s : State) : Out :=
  let m : Stream := { w0 := s.x a, w1 := s.x b, i := 0, j := 0, pass := 0 }
  if !s.isControl then .next (s.illegal (.sbind k a b la))
  else if !bindWord0 m.w0 then .next (s.trap Cause.operand m.w0)
  else if !bindWord1 m.w1 then .next (s.trap Cause.operand m.w1)
  else
    match s.tile? m.handle with
    | none => .next (s.trap Cause.tileAlloc (allocVal m.handle 0))
    | some t =>
      if !m.inside t then .next (s.trap Cause.operand m.w0)
      else .next { s with rk := { s.rk with streams := s.rk.streams.set k (some m) } }.advance

/-- `sunbind` (R185). -/
def execSunbind (k : Fin 4) (la : Fin 16) (s : State) : Out :=
  if !s.isControl then .next (s.illegal (.sunbind k la))
  else .next { s with rk := { s.rk with streams := s.rk.streams.set k none } }.advance

/-- The status word of R186. -/
def streamWord : Option Stream → Word
  | none => 0
  | some k => wd (k.pass * 2^40 + k.handle * 2^32 + 2^30 + 2^29 * boolNat k.writes + k.j * 2^16 + k.i)

/-- `sstat` (R186). -/
def execSstat (d : Reg) (k : Fin 4) (la : Fin 16) (s : State) : Out :=
  if !s.isControl then .next (s.illegal (.sstat d k la)) else s.result d (streamWord s.rk.streams[k])

end Sys2Proof.Machine
end

