-- ==== Sys2Proof/Machine/Image.lean ====
section
/-! DEFINITION. The context image (19 R339 to R341, R382 to R384): its sections as words, and the writing of it, checked whole
before a byte of it is written. -/

namespace Sys2Proof.Machine

open Sys2Proof

/-! ### Words -/

/-- The words of 8 bytes that a list of 4-byte words makes. -/
def pairWords : List Nat → List Nat
  | a :: b :: r => (a % 2^32 + 2^32 * b) :: pairWords r
  | [a] => [a % 2^32]
  | [] => []

/-- The words of 8 bytes that n groups of w-bit values make, lowest first. -/
def packWords (w : Nat) (f : Nat → Nat) (n : Nat) : List Nat :=
  (List.range n).map fun k => joinNat w ((List.range (64 / w)).map fun i => f (64 / w * k + i))

/-- The 16 words of a vector register's 128 bytes. -/
def vectorWords (v : VReg) : List Nat := lanesOf 64 v

/-! ### A context's section (R340) -/

/-- KIND of a wait. [DEDUCED log 93] -/
def Wait.code : Wait → Nat
  | .retry .. | .reoffer .. => 1
  | .mrcv .. => 2
  | .tgwait => 3
  | .wfe => 4
  | .lwait => 5
  | .collwait => 6
  | .hjoin => 7
  | .barrier .. => 8
  | .soloPost _ => 9
  | .none | .record _ | .recordRing _ | .remote _ | .fetch _ | .host .. | .acceptance | .inboxSlot | .held | .replica | .stores | .rowFill
  | .tileReads | .launchRead _ | .exiting => 0

/-- What is left of a full/empty wait in ns (R341). -/
def Context.left (c : Context) (now : Nat) : Nat :=
  match c.wait with
  | .retry l _ | .reoffer l _ => l - now
  | _ => c.remain.getD 0

/-- The word at 0x008 of a context's section. [DEDUCED log 93] -/
def Context.waitWord (c : Context) (now : Nat) : Nat :=
  let k := match c.wait with
    | .soloPost k => k % 2^16
    | _ => 0
  c.wait.code + 2^16 * k + 2^32 * (c.left now % 2^32)

/-- The control registers of a context in the order of R340. -/
def CtxRegs.words (c : CtxRegs) : List Nat :=
  [c.frm.toNat, c.fflags.toNat, c.mxcnt.toNat, c.fmt.toNat, c.sclp.toNat, c.accexp.toNat, c.spar.toNat, c.mxtrap.toNat,
    c.trapvec.toNat, c.trapcause.toNat, c.trappc.toNat, c.trapval.toNat, c.trapsave.toNat, c.fewait.toNat]

/-- A live context's section, at a base offset. -/
def Context.image (c : Context) (now base : Nat) : List (Nat × List Nat) :=
  [(base, [c.pc.toNat % 2^53 + 2^56 * boolNat c.hf + 2^63, c.waitWord now, 2^63 * boolNat c.mx.pending, c.mx.trapval.toNat]),
    (base + 0x40, c.cr.words),
    (base + 0x100, 0 :: (c.x.toList.drop 1).map BitVec.toNat),
    (base + 0x200, (2^64 - 1) :: (c.p.toList.drop 1).map BitVec.toNat),
    (base + 0x240, c.mg.toList.map BitVec.toNat),
    (base + 0x400, c.v.toList.flatMap vectorWords)]

/-! ### The rank's sections (R339) -/

/-- The 16 latest status words of a line of tickets, oldest first. [DESIGN CHOICE log 92] -/
def statusWords (r : Rank) (kind : TicketKind) (chan : Nat) : List Nat :=
  let mine := r.tickets.filter fun t => t.kind == kind && t.chan == chan
  (mine.drop (mine.length - 16)).map fun t =>
    (statusWord false t.state (match kind with
      | .copy => t.done
      | .graph => t.total * 2^16 + t.done
      | .launch | .coll => 0)).toNat

/-- [DESIGN CHOICE log 92] -/
def statusImage (r : Rank) : List (Nat × List Nat) :=
  ((List.range 4).map fun c => (0x400 + 128 * c, statusWords r .copy c))
    ++ [(0x600, statusWords r .graph 0), (0x680, statusWords r .launch 0), (0x700, statusWords r .coll 0)]

def streamImage (r : Rank) : List (Nat × List Nat) :=
  (r.streams.toList.zipIdx.map fun q => (0x800 + 24 * q.2, match q.1 with
    | none => [0, 0, 0]
    | some k => [k.w0.toNat, k.w1.toNat, (streamWord (some k)).toNat]))
    ++ [(0x860, (r.solo.posted.take 16).map fun q => q.2.toNat), (0x8E0, [(r.solo.posted.take 16).length])]

/-- KIND of a copyist entry (R382). -/
def CopyCmd.imageKind (c : CopyCmd) : Nat :=
  (if c.kind == .copyOut then 1 else 0) + (if c.node.isSome then 4 else 0)

/-- CONTROL of a copyist entry: the command's control word, or one built from the node's record. -/
def CopyCmd.imageControl (c : CopyCmd) (rowBytes : Nat) : Nat :=
  if c.node.isNone then c.control.toNat
  else c.control.toNat % 2^28 + 2^32 * (c.bytes / rowBytes % 2^13) + 2^45 * (c.pitch / 64 % 2^19)

/-- A copyist entry (R382). -/
def CopyCmd.image (c : CopyCmd) (rowBytes : Nat) : List Nat :=
  let node := match c.node with
    | none => 0
    | some (slot, n) => 2^32 * n + 2^40 * slot
  [c.mem.toNat % 2^53 + 2^56 * c.imageKind + 2^63, c.imageControl rowBytes, c.seq + node,
    c.done % 2^32 + 2^32 * boolNat c.started]

/-- Whether a command is a rank's and acts on a core tile, so that it moves with it (R46). -/
def CopyCmd.movesWith (c : CopyCmd) (r : Rank) : Bool :=
  c.key == r.key && c.run == r.run && c.onTile && c.handle < 64

/-- The commands that move with a rank, by channel and in arrival order. -/
def State.movingCopies (s : State) (r : Rank) : List CopyCmd :=
  (List.range 4).flatMap fun k => s.eng.copies.filter fun c => c.movesWith r && c.chan % 4 == k

def State.copyImage (s : State) (r : Rank) : List (Nat × List Nat) :=
  (((s.movingCopies r).take 64).zipIdx).map fun q =>
    (0xA00 + 32 * q.2, q.1.image ((r.tiles.find? fun t => t.handle == q.1.handle).getD Tile.none_).rowBytes)

/-- The words of a snapshot (R94). -/
def Snapshot.words (p : Snapshot) : List Nat :=
  p.mg.toList.map BitVec.toNat ++ [p.fmt.toNat, p.sclp.toNat, p.accexp.toNat, p.spar.toNat, p.keyid.toNat]

/-- The finished bitmap of a graph. -/
def Graph.finishedBits (g : Graph) : Nat :=
  (g.nodes.zipIdx.map fun q => if q.1.state == .finished then 2^q.2 else 0).sum

/-- The posted graphs; a place that holds none is zero. -/
def graphImage (r : Rank) : List (Nat × List Nat) :=
  (0x1200, List.replicate 256 0) :: ((r.graphs.take 4).zipIdx).flatMap fun q =>
    let b := 0x1200 + 512 * q.2
    let g := q.1
    [(b, g.addr.toNat % 2^53 :: g.snap.words),
      (b + 0xB0, packWords 8 (fun i => ((g.nodes[i]?).map Node.count).getD 0) 32),
      (b + 0x1B0, packWords 64 (fun i => g.finishedBits / 2^(64 * i)) 4)]

def MxKind.code : MxKind → Nat
  | .mwld => 0 | .mwswap => 1 | .mmul => 2 | .mzero => 3 | .mzdrn => 4

/-- A matrix-operation entry (R383). -/
def MatrixOp.image (o : MatrixOp) : List Nat :=
  let p := o.snap
  let node := match o.node with
    | none => 0
    | some (slot, n) => 2^15 + 2^16 * n + 2^24 * slot
  [o.kind.code + 2^3 * boolNat o.nc + 2^4 * o.z.val + 2^8 * (o.fmt % 4) + node + 2^32 * (o.ctx % 16) + 2^63, o.opA.toNat,
    o.opB.toNat, p.rowsM + 2^16 * p.lenK + 2^32 * p.aRow + 2^48 * p.bRow,
    p.kOff + 2^16 * p.pair + 2^24 * p.mode + 2^32 * p.accexp.toNat + 2^40 * p.scaleTile + 2^48 * (p.scaleRow % 2^12)]

def matrixQueueImage (r : Rank) : List (Nat × List Nat) :=
  ((r.mx.queue.take 16).zipIdx).map fun q => (0x1A00 + 64 * q.2, q.1.image)

/-- The envelope of a message (R218). -/
def envelope (src : Nat) (tag : BitVec 16) : Word := wd (2^63 + 2^32 * tag.toNat + src % 2^17)

/-- [DEDUCED log 93] -/
def messageImage (r : Rank) : List (Nat × List Nat) :=
  (((r.inbox.take 64).zipIdx).map fun q =>
    (0x2000 + 144 * q.2, (envelope q.1.src q.1.tag).toNat :: vectorWords q.1.data))
    ++ ((r.blotter.take 32).zipIdx).map fun q =>
      (0x4400 + 144 * q.2,
        (q.1.dest % 2^16 + 2^16 * q.1.tag.toNat + 2^32 * (q.1.ctx % 16) + 2^63) :: 0 :: vectorWords q.1.data)

/-- A cell of an L-core plane: A24 in [23:0], X in [26:24], poison in [31]. -/
def Cell.image (c : Cell) : Nat :=
  (BitVec.ofInt 24 c.a).toNat + 2^24 * (BitVec.ofInt 3 c.x).toNat + 2^31 * boolNat c.bad

/-- [DESIGN CHOICE log 92] -/
def matrixImage (r : Rank) (fcore : Bool) : List (Nat × List Nat) :=
  if fcore then
    (r.mx.phys.toList.zipIdx.map fun q => (0x14000 + 0x4000 * q.2, packWords 32 (fun i => (getAt 0 i q.1).toNat) 2048))
      ++ (r.mx.weights.toList.zipIdx.map fun q => (0x34000 + 0x2000 * q.2, packWords 16 (fun i => sparse16 q.1 i) 1024))
      ++ (r.mx.scales.toList.zipIdx.map fun q => (0x38000 + 0x800 * q.2, packWords 8 (fun i => (getAt 0 i q.1).toNat) 256))
      ++ [(0x39000, [Config.imageMap (r.mx.map.toList.map Fin.val)])]
  else
    (r.mx.planes.toList.zipIdx.map fun q => (0x14000 + 0x4000 * q.2, packWords 32 (fun i => (q.1.cell i).image) 2048))
      ++ [(0x24000, r.mx.planes.toList.map fun p => Config.imagePlane (p.exp.getD 0).toNat p.exp.isSome)]

/-- The contents of the core tiles, each padded to 8 KiB. -/
def Rank.tileWords (r : Rank) : List Nat :=
  r.tilesInOrder.flatMap fun t =>
    (List.range (1024 * t.banks)).map fun k => leNat (cellsBytes t.bytes (8 * k) 8)

def Rank.tileBytes (r : Rank) : Nat := (r.tilesInOrder.map fun t => 8192 * t.banks).sum

/-- Bit h for each live context h. -/
def liveBits (cs : List Context) : Nat := (cs.map fun c => 2^(c.num % 11)).sum

/-- The time up to which a full/empty wait of a context has counted: one that a page move holds has counted to the move's start (R331). -/
def State.waitClock (s : State) (r : Rank) (c : Context) : Nat :=
  if s.ms.retry.any fun e => e.moved && e.who == some (r.key, r.run, c.num) then Nat.min (s.clockOf r) s.ms.move.start else s.clockOf r

/-- A context as its image shows it: a full/empty access under way to another module waits as one in a retry list does (R340, R346).
[DEDUCED log 93] -/
def State.pictured (s : State) (c : Context) : Context :=
  match c.wait with
  | .remote id => match s.fab.requests.find? fun q => q.id == id with
    | none => c
    | some q => match q.issuer with
      | .fullEmpty .. => { c with wait := .retry (q.deadline - 12000) q.local_ }
      | .load .. | .store .. | .copy .. | .multicast .. | .leg _ => c
  | _ => c

/-- The image of a rank, all its contexts in the list; `reason` 0 fold, 1 switch, 2 reclaim; `bare` leaves the contents of its tiles out, as
at a reclaim and where they stay in scratch (R88, R339). [DESIGN CHOICE log 110] -/
def State.image (s : State) (r : Rank) (reason : Nat) (bare : Bool) : List (Nat × List Nat) :=
  let f := isFCore r.core
  let tiles := if bare then 0 else r.tileBytes
  let arrived := (r.bar.toList.zipIdx.map fun q => if q.1.arrived then 2^q.2 else 0).sum
  let launch := ((s.launch? r.key.launch).map Launch.addr).getD 0
  [(0, [1 + 2^16 * reason + 2^18 * boolNat f + 2^32 * (r.key.rank % 2^17),
      r.id.owner.toNat + 2^16 * r.id.keyid.toNat + 2^32 * liveBits r.ctxs, s.time, tiles,
      r.wake.toNat + 2^16 * arrived + 2^20 * r.vote.toNat, launch.toNat % 2^53])]
    ++ statusImage r ++ streamImage r ++ s.copyImage r ++ graphImage r ++ matrixQueueImage r ++ messageImage r
    ++ r.ctxs.flatMap (fun c => (s.pictured c).image (s.waitClock r c) (0x6000 + 0x1200 * c.num))
    ++ matrixImage r f ++ [(0x3A000, (List.range 64).map fun h => (tileWord (r.tiles.find? fun t => t.handle == h)).toNat)]
    ++ (if bare then [] else [(0x3C000, r.tileWords)])

/-- The image of a core that runs no rank of the borrower: its header alone (R286). -/
def State.emptyImage (s : State) (core owner : Nat) : List (Nat × List Nat) :=
  [(0, [1 + 2^16 * 2 + 2^18 * boolNat (isFCore core), owner, s.time])]

/-! ### The writing of an image (R339) -/

/-- The addresses of the 8 KiB pages that n bytes from an address on touch: the address itself, then each page's start. -/
def pagesOf (va : Word) (n : Nat) : List Word :=
  va :: (List.range ((va.toNat % 8192 + n - 1) / 8192)).map fun k => va - wd (va.toNat % 8192) + wd (8192 * (k + 1))

/-- What keeps an image from being written: a page that fails the check, or one that a page move holds. -/
inductive ImageTrouble where
  | fails (va : Word)
  | later
  deriving DecidableEq, Repr

/-- Who writes an image: the rank it is of, and the core, owner and key ID under which its words go to host space or another module. -/
structure ImageAgent where
  key   : RankKey
  run   : Nat
  core  : Nat
  owner : Nat
  keyid : BitVec 10
  deriving DecidableEq, Repr

/-- The writer of a rank's image. -/
def Rank.imageAgent (r : Rank) : ImageAgent := ⟨r.key, r.run, r.core, r.id.owner.toNat, r.id.keyid⟩

/-- Whether any image is under way off this module. -/
def State.imagesAway (s : State) : Bool :=
  s.fab.requests.any fun q => match q.issuer with
    | .store _ _ n => n == noContext
    | .load .. | .fullEmpty .. | .copy .. | .multicast .. | .leg _ => false

/-- The check of every page, in ascending order. A page of host space that no access can reach fails it. [DEDUCED log 94] -/
def State.imagePages (s : State) (owner : Nat) : List Word → Option ImageTrouble
  | [] => none
  | va :: r =>
    match s.site owner .engineWrite (.mem va) with
    | .ok (.here ..) | .ok (.host _) | .ok (.remote ..) => s.imagePages owner r
    | .error .later => some .later
    | .ok (.tile _) | .error (.bad ..) | .error (.noHost ..) | .error (.replay ..) => some (.fails va)

/-- One word written under the owner's translation; on a page of another module or of host space it leaves as a posted store of the core's
copyist path (R339). [DEDUCED log 94] -/
def State.imageWord (s : State) (a : ImageAgent) (va : Word) (w : Nat) : State :=
  let t := s.markSpot a.owner .engineWrite (.mem va)
  match s.site a.owner .engineWrite (.mem va) with
  | .ok (.here pa repl) =>
    let t := if repl then { t with ms := { t.ms with pending := t.ms.pending ++ [{ pa := pa, data := leBytes 8 w }] } }
      else { t with ms := (t.ms.recall pa).put pa (leBytes 8 w) }
    { t with scr := t.scr.invalidate pa }.logCopies repl 1 a.owner 4 pa
  | .ok (.host pa) => t.sendHostAs a.owner (16 * a.core + 11) a.keyid (.store a.key a.run noContext) .write pa 8 (wd w)
  | .ok (.remote node addr _) =>
    t.sendTo (.store a.key a.run noContext) .write node (16 * a.core + 11) a.keyid addr va 8 (wd w) (t.time + 12000) a.owner
  | .ok (.tile _) | .error _ => s

/-- The words of one section written from an address on. [DESIGN CHOICE log 91] -/
def State.imageWords (s : State) (a : ImageAgent) (va : Word) : List Nat → State
  | [] => s
  | w :: r => (s.imageWord a va w).imageWords a (va + 8) r

/-- The n words of an image whose sections stand at offsets in bytes: a word that no section names is zero. [DESIGN CHOICE log 91] -/
def layImage (n : Nat) (sections : List (Nat × List Nat)) : List Nat :=
  sections.foldl (fun ws q => ws.take (q.1 / 8) ++ q.2 ++ ws.drop (q.1 / 8 + q.2.length)) (List.replicate n 0)

/-- An image of n bytes written at an address, checked whole first. [DESIGN CHOICE log 91] -/
def State.writeImage (s : State) (a : ImageAgent) (va : Word) (n : Nat) (sections : List (Nat × List Nat)) :
    Except ImageTrouble State :=
  match s.imagePages a.owner (pagesOf va n) with
  | some e => .error e
  | none => .ok (s.imageWords a va (layImage (n / 8) sections))

end Sys2Proof.Machine
end

