-- ==== Sys2Proof/Machine/System.lean ====
section
/-! DEFINITION. Control-register and system instructions (11 R238 to R242), and the stop of a core for debugging (03 R56, R57). -/

namespace Sys2Proof.Machine

open Sys2Proof

/-! ### Control registers (R238) -/

/-- A control-register instruction that writes: `f` forms the new value from the old one; `w1c` says that ones in X[A] clear
W1C bits (R143). -/
def State.crAccess (s : State) (i : Instr) (d a : Reg) (ix : BitVec 12) (w1c : Bool) (f : Word → Word → Word) : Out :=
  if !crListed ix then .next (s.illegal i)
  else
    let old := s.readCr ix
    let t := s.writeCr ix (f old (s.x a))
    .next ((if w1c then t.clearW1C ix (s.x a) else t).setX d old).advance

/-- `crr` (R238): a read changes nothing. -/
def execCrr (d : Reg) (ix : BitVec 12) (s : State) : Out :=
  if !crListed ix then .next (s.illegal (.crr d ix)) else s.result d (s.readCr ix)

/-- `crw` (R238). -/
def execCrw (d a : Reg) (ix : BitVec 12) (s : State) : Out := s.crAccess (.crw d a ix) d a ix true fun _ x => x

/-- `crs` (R238): bits set. -/
def execCrs (d a : Reg) (ix : BitVec 12) (s : State) : Out := s.crAccess (.crs d a ix) d a ix false fun old x => old ||| x

/-- `crc` (R238): bits cleared. -/
def execCrc (d a : Reg) (ix : BitVec 12) (s : State) : Out := s.crAccess (.crc d a ix) d a ix true fun old x => old &&& ~~~x

/-! ### System instructions (R239 to R242) -/

/-- `trap` (R240): the TRAP cause with X[A]. -/
def execTrap (a : Reg) (s : State) : Out := .next (s.trap Cause.trap (s.x a))

/-- `tret` (R304): ILLEGAL where the context runs no handler. -/
def execTret (s : State) : Out := if s.cx.hf then .next s.returnFromTrap else .next (s.illegal .tret)

/-- The core in focus stops, and the stop is signalled on the groups named in SIGNAL (R56). -/
def State.stopCore (s : State) : State :=
  if s.co.halted then s
  else { s with co := { s.co with halted := true, haltedAt := s.time }, signals := s.signals ||| s.co.signal }

/-- Whether the owner of the issuing context has a debugger attached (R241). [DESIGN CHOICE log 81] -/
def State.debugged (s : State) : Bool := s.scr.debugOwners.contains s.owner

/-- `brk` (R241): with a debugger the core stops, to resume at the next instruction; without one, the BRK cause. -/
def execBrk (s : State) : Out := if s.debugged then .next s.advance.stopCore else .next (s.trap Cause.brk 0)

/-- `halt` (R241): the core stops, to resume at the next instruction. -/
def execHalt (s : State) : Out := .next s.advance.stopCore

/-- `wfe` (R242). [DEDUCED log 82] -/
def execWfe (a : Reg) (s : State) : Out :=
  let m := s.x a
  if !zeroAt m 25 39 then .next (s.trap Cause.operand m)
  else if m = 0 || s.est &&& m != 0 || s.cx.mx.pending then .next s.advance
  else .next (s.waitFor .wfe)

/-- `nop` (R240). -/
def execNop (s : State) : Out := .next s.advance

/-! ### Stops by others (R56, R57) -/

/-- A core that halts at an instruction boundary without signalling (R56). -/
def haltCore (now : Nat) (c : Core) : Core := if c.halted then c else { c with halted := true, haltedAt := now }

/-- The members of a signalled halt group stop; they signal nothing in turn. -/
def execHaltGroupStop (h : Fin 16) (s : State) : Out :=
  if s.signals.toNat.testBit h.val then
    let f := fun (c : Core) => if c.member.toNat.testBit h.val then haltCore s.time c else c
    .next { s with co := f s.co, cores := s.cores.map f, signals := s.signals &&& ~~~(BitVec.ofNat 16 (2^h.val)) }
  else .next s

/-- The owner's debugger stops a core through the hypervisor: one of the three stops that are signalled. -/
def execDebugStop (core : Nat) (s : State) : Out :=
  let c := s.coreAt core
  if core < 1536 && !c.halted then
    .next { s.updCore core (haltCore s.time) with signals := s.signals ||| c.signal }
  else .next s

/-- The owner's debugger resumes a halted core: every timeout of its contexts, and the loan term of the core, goes on from its
remaining value (R57, R241). -/
def execDebugResume (core : Nat) (s : State) : Out :=
  if (s.coreAt core).halted then .next (s.endHalt core) else .next s

end Sys2Proof.Machine
end

