-- ==== Sys2Proof/Machine/Solo.lean ====
section
/-! DEFINITION. The solo prefix (03 R52 to R54, 11 R243): the pair of a prefix and one scalar instruction, performed once per
cluster by the elected rank and posted to the other participants. -/

namespace Sys2Proof.Machine

open Sys2Proof

/-- The destination of an instruction that may follow the prefix (R52), and its meaning; none for any other word. [DEDUCED log 17] -/
def soloBody : Instr → Option (Reg × (State → Out))
  | .add d a b => some (d, execAdd d a b)
  | .sub d a b => some (d, execSub d a b)
  | .and d a b => some (d, execAnd d a b)
  | .or d a b => some (d, execOr d a b)
  | .xor d a b => some (d, execXor d a b)
  | .andn d a b => some (d, execAndn d a b)
  | .orn d a b => some (d, execOrn d a b)
  | .sll d a b => some (d, execSll d a b)
  | .srl d a b => some (d, execSrl d a b)
  | .sra d a b => some (d, execSra d a b)
  | .rol d a b => some (d, execRol d a b)
  | .ror d a b => some (d, execRor d a b)
  | .slt d a b => some (d, execSlt d a b)
  | .sltu d a b => some (d, execSltu d a b)
  | .min d a b => some (d, execMin d a b)
  | .max d a b => some (d, execMax d a b)
  | .minu d a b => some (d, execMinu d a b)
  | .maxu d a b => some (d, execMaxu d a b)
  | .mul d a b => some (d, execMul d a b)
  | .mulh d a b => some (d, execMulh d a b)
  | .mulhu d a b => some (d, execMulhu d a b)
  | .mulhsu d a b => some (d, execMulhsu d a b)
  | .div d a b la => some (d, execDiv d a b la)
  | .divu d a b la => some (d, execDivu d a b la)
  | .rem d a b la => some (d, execRem d a b la)
  | .remu d a b la => some (d, execRemu d a b la)
  | .clz d a => some (d, execClz d a)
  | .ctz d a => some (d, execCtz d a)
  | .popc d a => some (d, execPopc d a)
  | .sextb d a => some (d, execSextb d a)
  | .sexth d a => some (d, execSexth d a)
  | .sextw d a => some (d, execSextw d a)
  | .zextw d a => some (d, execZextw d a)
  | .bswap d a => some (d, execBswap d a)
  | .csel d a b => some (d, execCsel d a b)
  | .addw d a b => some (d, execAddw d a b)
  | .subw d a b => some (d, execSubw d a b)
  | .sllw d a b => some (d, execSllw d a b)
  | .srlw d a b => some (d, execSrlw d a b)
  | .sraw d a b => some (d, execSraw d a b)
  | .mulw d a b => some (d, execMulw d a b)
  | .divw d a b la => some (d, execDivw d a b la)
  | .divuw d a b la => some (d, execDivuw d a b la)
  | .remw d a b la => some (d, execRemw d a b la)
  | .remuw d a b la => some (d, execRemuw d a b la)
  | .addi d a imm => some (d, execAddi d a imm)
  | .andi d a imm => some (d, execAndi d a imm)
  | .ori d a imm => some (d, execOri d a imm)
  | .xori d a imm => some (d, execXori d a imm)
  | .slti d a imm => some (d, execSlti d a imm)
  | .sltiu d a imm => some (d, execSltiu d a imm)
  | .slli d a sh => some (d, execSlli d a sh)
  | .srli d a sh => some (d, execSrli d a sh)
  | .srai d a sh => some (d, execSrai d a sh)
  | .rori d a sh => some (d, execRori d a sh)
  | .lhi d imm => some (d, execLhi d imm)
  | .lsh d imm => some (d, execLsh d imm)
  | .adr d imm => some (d, execAdr d imm)
  | .ldB d a imm => some (d, execLdB d a imm)
  | .ldH d a imm => some (d, execLdH d a imm)
  | .ldW d a imm => some (d, execLdW d a imm)
  | .ldD d a imm => some (d, execLdD d a imm)
  | .ldBu d a imm => some (d, execLdBu d a imm)
  | .ldHu d a imm => some (d, execLdHu d a imm)
  | .ldWu d a imm => some (d, execLdWu d a imm)
  | .ldo d a la sc ord sz fe inv => some (d, execLdo d a la sc ord sz fe inv)
  | .amoSwap d a b sc ord dbl => some (d, execAmoSwap d a b sc ord dbl)
  | .amoAdd d a b sc ord dbl => some (d, execAmoAdd d a b sc ord dbl)
  | .amoAnd d a b sc ord dbl => some (d, execAmoAnd d a b sc ord dbl)
  | .amoOr d a b sc ord dbl => some (d, execAmoOr d a b sc ord dbl)
  | .amoXor d a b sc ord dbl => some (d, execAmoXor d a b sc ord dbl)
  | .amoMin d a b sc ord dbl => some (d, execAmoMin d a b sc ord dbl)
  | .amoMax d a b sc ord dbl => some (d, execAmoMax d a b sc ord dbl)
  | .amoMinu d a b sc ord dbl => some (d, execAmoMinu d a b sc ord dbl)
  | .amoMaxu d a b sc ord dbl => some (d, execAmoMaxu d a b sc ord dbl)
  | .amoCas d a b sc ord dbl => some (d, execAmoCas d a b sc ord dbl)
  | .amoFadd d a b sc ord => some (d, execAmoFadd d a b sc ord)
  | .crr d ix => some (d, execCrr d ix)
  | _ => none

/-- The scope of an acquire annotation on the pair's access, if it carries one (R128). -/
def soloAcquire : Instr → Option Scope
  | .ldo _ _ _ sc .acq _ _ _ => some sc
  | .amoSwap _ _ _ sc ord _ => if ord = .acq || ord = .acqrel then some sc else none
  | .amoAdd _ _ _ sc ord _ => if ord = .acq || ord = .acqrel then some sc else none
  | .amoAnd _ _ _ sc ord _ => if ord = .acq || ord = .acqrel then some sc else none
  | .amoOr _ _ _ sc ord _ => if ord = .acq || ord = .acqrel then some sc else none
  | .amoXor _ _ _ sc ord _ => if ord = .acq || ord = .acqrel then some sc else none
  | .amoMin _ _ _ sc ord _ => if ord = .acq || ord = .acqrel then some sc else none
  | .amoMax _ _ _ sc ord _ => if ord = .acq || ord = .acqrel then some sc else none
  | .amoMinu _ _ _ sc ord _ => if ord = .acq || ord = .acqrel then some sc else none
  | .amoMaxu _ _ _ sc ord _ => if ord = .acq || ord = .acqrel then some sc else none
  | .amoCas _ _ _ sc ord _ => if ord = .acq || ord = .acqrel then some sc else none
  | .amoFadd _ _ _ sc ord => if ord = .acq || ord = .acqrel then some sc else none
  | _ => none

/-- The participants of the instances of the rank in focus (R53). -/
def State.participants (s : State) : List Rank := s.liveRanks.filter s.soloPeer

/-- The elected rank: the lowest live participant. -/
def State.elected (s : State) : Nat := (s.participants.map fun r => r.key.rank).foldl Nat.min s.rk.key.rank

/-- The elected rank's own record. -/
def State.electedRank (s : State) : Rank := (s.participants.find? fun r => r.key.rank == s.elected).getD s.rk

/-- Instance k posted to every other participant that has not executed it (R53). -/
def State.soloSend (s : State) (k : Nat) (v : Word) : State :=
  s.updRanks (fun r => s.soloPeer r && !r.is s.rk.key s.rk.run && decide (r.solo.count < k))
    fun r => { r with solo := { r.solo with posted := putAt k v r.solo.posted } }

/-- cr.trapval of a SOLO trap (R317). -/
def soloVal (k : Nat) (cause : BitVec 8) (few failed : Bool) : Word :=
  wd (k % 2^16 + cause.toNat * 2^48 + boolNat few * 2^62 + boolNat failed * 2^63)

/-- Whether the elected rank has arrived at the current phase of group 0 with fewer than k instances performed (R54). -/
def Rank.tooFew (r : Rank) (k : Nat) : Bool := r.bar[0].arrived && !r.bar[0].released && decide (r.solo.atArrival < k)

/-- The elected rank's pair: a standing mark is cleared, the instruction is performed, and once it has completed its result is
posted (R53, R54); no window of it stays open, so that every participant has the same result.
A pair that the rank had not done when it arrived at the phase is posted to nobody. -/
def State.soloPerform (s : State) (k : Nat) (d : Reg) (body : State → Out) : Out :=
  let t := s.updRanks s.soloPeer fun r => { r with solo := { r.solo with failed := dropAt k r.solo.failed } }
  match body { t with cx := { t.cx with pair := true } } with
  | .next u =>
    if u.rk.solo.count = k then
      let t := { u.closeWindows with rk := { u.rk with solo := { u.rk.solo with performed := k } } }
      .next (if u.rk.tooFew k then t else t.soloSend k (u.x d))
    else .next u
  | .fault r => .fault r
  | .refused r => .refused r

/-- A participant's own k-th pair, taking the posted value (R53, R128). -/
def State.soloTake (s : State) (k : Nat) (i : Instr) (d : Reg) (v : Word) : State :=
  let t := { s with
    cx := { s.cx with pair := true }
    rk := { s.rk with solo := { s.rk.solo with posted := dropAt k s.rk.solo.posted } } }
  let t := match soloAcquire i with
    | none => t
    | some sc => t.acquire sc
  (t.setX d v).advance

/-- The k-th pair of the rank in focus, once its word is known. -/
def State.soloPair (s : State) (i : Instr) (d : Reg) (body : State → Out) : Out :=
  let k := s.rk.solo.count + 1
  match s.rk.solo.posted.find? fun q => q.1 == k with
  | some q => .next (s.soloTake k i d q.2)
  | none =>
    if s.elected = s.rk.key.rank then
      if s.participants.any fun r => 16 ≤ r.solo.posted.length then .next (s.waitFor (.soloPost k))
      else s.soloPerform k d body
    else
      match s.rk.solo.failed.find? fun q => q.1 == k with
      | some q => .next (s.trap Cause.solo (soloVal k q.2 false true))
      | none =>
        if s.electedRank.tooFew k then .next (s.trap Cause.solo (soloVal k 0 true false))
        else .next (s.waitFor (.soloPost k))

/-- `solo` (R52, R243): in a helper, or before a word that R52 does not allow, it is no instruction. [DEDUCED log 17, DEDUCED log 39] -/
def execSolo (s : State) : Out :=
  let s := { s with cx := { s.cx with pair := false } }
  if !s.isControl then .next (s.illegal .solo)
  else
    match s.fetch (s.cx.pc + 4) with
    | .error t => .next t
    | .ok (t, w) =>
      match decode w with
      | .error _ => .next (t.trap Cause.illegal (wd w))
      | .ok i =>
        match soloBody i with
        | none => .next (t.trap Cause.illegal (wd w))
        | some (d, body) => t.soloPair i d body

end Sys2Proof.Machine
end

