-- ==== Sys2Proof/Machine/Preempt.lean ====
section
/-! DEFINITION. Folding and pre-emption (03 R46 to R49, 12 R249, R250, R255, R256, 16 R301): the saving of a rank, switch points, bind
records, the vacating of cores and the restoring of ranks to them. -/

namespace Sys2Proof.Machine

open Sys2Proof

/-! ### The saving of a rank (R46, R339, R341) -/

/-- A context as it stands once it is saved: its earlier loads are performed (R129), and an access in a retry list is withdrawn, to be
issued again (R341). `now` is when its core halted where it stands halted: the limit counts no time from then on (R57). -/
def Context.suspended (c : Context) (now : Nat) : Context :=
  let c := { c with windows := [], toPost := [] }
  match c.wait with
  | .retry l _ | .reoffer l _ => { c with wait := .none, remain := some (l - now) }
  | .barrier g _ => { c with wait := .barrier g false }
  | _ => c

/-- The commands that move with a rank leave their channels, their places kept (R46). [DEDUCED log 46] -/
def State.parkCopies (s : State) (r : Rank) : State :=
  let ch := fun (c : CopyCmd) => 384 + 4 * (2 * (2^17 * r.key.launch + r.key.rank) + r.run) + c.chan % 4
  let gone := fun (c : CopyCmd) => c.movesWith r && c.chan < 384
  let t := (s.eng.copies.filter gone).foldl (fun t c => t.rechannel c (ch c)) s
  { t with eng := { t.eng with
      copies := t.eng.copies.map fun c => if gone c then { c with chan := ch c } else c } }

/-- A full/empty access or an atomic that waited and has been performed since commits: its context's instruction is carried out (R341). -/
def State.commitHere (s : State) : State :=
  let u := { s with cx := { s.cx with pair := false } }
  let w := match u.fetch u.cx.pc with
    | .error _ => none
    | .ok (t, w) => match decode w with
      | .error _ => none
      | .ok i => some ({ t with cx := { t.cx with pair := s.cx.pair } }, i)
  let out := match w with
    | some (t, .ldo d a la sc ord sz fe inv) => execLdo d a la sc ord sz fe inv t
    | some (t, .sto d a la sc ord sz fe) => execSto d a la sc ord sz fe t
    | some (t, .amoSwap d a b sc ord w) => execAmoSwap d a b sc ord w t
    | some (t, .amoAdd d a b sc ord w) => execAmoAdd d a b sc ord w t
    | some (t, .amoAnd d a b sc ord w) => execAmoAnd d a b sc ord w t
    | some (t, .amoOr d a b sc ord w) => execAmoOr d a b sc ord w t
    | some (t, .amoXor d a b sc ord w) => execAmoXor d a b sc ord w t
    | some (t, .amoMin d a b sc ord w) => execAmoMin d a b sc ord w t
    | some (t, .amoMax d a b sc ord w) => execAmoMax d a b sc ord w t
    | some (t, .amoMinu d a b sc ord w) => execAmoMinu d a b sc ord w t
    | some (t, .amoMaxu d a b sc ord w) => execAmoMaxu d a b sc ord w t
    | some (t, .amoCas d a b sc ord w) => execAmoCas d a b sc ord w t
    | some (t, .amoFadd d a b sc ord) => execAmoFadd d a b sc ord t
    | some (t, .solo) => execSolo t
    | _ => .next s
  match out with
  | .next t => t
  | .fault _ | .refused _ => s

/-- Whether a context waits in a retry list, or for another module, with its answer in hand: its access has been performed. -/
def Context.performed (c : Context) : Bool :=
  c.answer.isSome && match c.wait with
    | .retry .. | .reoffer .. | .remote _ => true
    | _ => false

/-- The performed accesses of a rank's contexts committed (R341). -/
def State.commitAnswered (s : State) (r : Rank) : State :=
  (r.ctxs.filter Context.performed).foldl (fun t c => t.inContext r.key r.run c.num State.commitHere) s

/-- Whether a command that moves with a rank stands inside a chunk (R46). -/
def State.inChunk (s : State) (r : Rank) : Bool :=
  s.eng.copies.any fun c => c.movesWith r && c.chan < 384 && (s.copyAsks c.chan || (c.started && s.progressOf c != c.done))

/-- Whether a command that moves with a rank stands inside a chunk, or a core's store cannot be performed now. -/
def State.unsettled (s : State) (r : Rank) : Bool :=
  s.inChunk r || (s.coreAt r.core).stores.any fun e => s.ms.movingAt e.pa

/-- The rank's accesses performed at device scope, its matrix operations in flight ended, and the nodes that this ends finished (R46, R129,
R213). -/
def State.quiet (s : State) (r : Rank) : State :=
  let t := (s.commitAnswered r).drainCore r.core
  let t := t.commitAll
  (t.endStarted r.key r.run ((t.rankOf r.key r.run).mx.tails.length + 1)).finishNodes r.key r.run

/-- A rank saved: its image in the owner's save area, its retry-list entries withdrawn, its commands parked; `stay` says that its core
tiles stay in scratch (R88). Where the image cannot be written its launch is ended at the context rung (R339). None while something it
waits for has not ended; beside the state, whether the rank is saved. [DESIGN CHOICE log 110] -/
def State.saveRank (s : State) (r : Rank) (reason : Nat) (stay : Bool) : Option (State × Bool) :=
  if s.unsettled r then none
  else
    let t := s.quiet r
    match t.rank? r.key r.run with
    | none => some (t, false)
    | some q =>
      let t := t.markSpill q
      let q := t.readTiles q
      let o := q.id.owner.toNat
      match t.writeImage q.imageAgent (t.saveSlot q) (0x3C000 + if stay then 0 else q.tileBytes) (t.image q reason stay) with
      | .error .later => none
      | .error (.fails bad) =>
        let u := t.report { errRec Err.saveFail o bad (wd q.key.rank) 0 with core := q.core }
        some ((u.stopLaunch q.key.launch).startRung 2 (.launch q.key.launch), false)
      | .ok u =>
        let mine := fun (w : RankKey × Nat × Nat) => w.1 == q.key && w.2.1 == q.run
        let u := { u with ms := { u.ms with retry := withdrawRetry u.ms.retry mine } }
        let u := u.updCtxs (fun x => x.is q.key q.run) fun c => c.suspended (s.waitClock q c)
        some ((u.parkCopies q).updRank q.key q.run fun x =>
          { x with state := .folded, tiles := q.tiles, spilled := !stay, imaged := true, behind := false }, true)

/-- The saved image of a switched-out rank brought up to what has reached it since (R46, R47). -/
def State.syncImage (s : State) (r : Rank) : State :=
  let t := (statusImage r ++ graphImage r ++ messageImage r).foldl (fun t q => t.imageWords r.imageAgent (s.saveSlot r + wd q.1) q.2) s
  t.updRank r.key r.run fun x => { x with behind := false }

/-- Every image that is behind its rank, brought up to it. -/
def State.syncImages (s : State) : State :=
  (s.liveRanks.filter fun r => r.behind && r.imaged && r.state != .running).foldl State.syncImage s

/-! ### Switch points (R48, R301) -/

/-- Whether a context's `bar.wait` or `bar.vote` could not complete at once, and its core has not gone on with another rank since (R48). -/
def Context.switchDue (c : Context) : Bool :=
  match c.wait with
  | .barrier _ true => true
  | _ => false

/-- Whether a rank stands at a switch point. A release that comes before it could be saved does not end that. -/
def Rank.atSwitch (r : Rank) : Bool := r.ctxs.any Context.switchDue

/-- Whether the banks of every rank that a core holds fit in its scratch, beside those of cluster tiles (R88). [DESIGN CHOICE log 110] -/
def State.banksTogether (s : State) (core : Nat) : Bool :=
  s.clusterBanks core + ((s.liveRanks.filter (Rank.onCore core)).map Rank.coreBanks).sum ≤ 96

/-- A core goes on with the next rank it holds, where its running rank stands at a switch point or none runs. A core that holds several
ranks saves the running one there, and idles where none of them can run (R48). [DEDUCED log 90] -/
def State.switchAt (s : State) (core : Nat) : State :=
  let held := s.liveRanks.filter (Rank.onCore core)
  match held.find? fun r => r.state == .running with
  | none => s.switchCore core
  | some r =>
    if !r.atSwitch || held.length < 2 then s
    else
      match s.saveRank r 1 (s.banksTogether core) with
      | none => s
      | some (t, saved) => if saved then (t.updCore core fun c => { c with last := some r.key }).switchCore core else t

/-- A core that idles resumes a rank whose barrier is released, or that has not reached one (R48). -/
def execRankResume (core : Nat) (s : State) : Out := .next (s.switchAt core)

/-! ### Bind records (R249, R250) -/

def Queue.fresh (q : Nat) : Queue :=
  { num := q, base := 0, log2 := 0, qkey := 0, enable := false, prog := 0, head := 0, doneNum := 0, tail := 0, lastFence := 0,
    seenFence := 0, fenceRec := none, shownFence := 0, shownRec := none, state := .idle, ended := [], record := none, progRec := none,
    ring := none, progRing := none, stale := false, tell := false, held := false, arrivals := [] }

/-- The state in which a queue is listed. -/
def State.ensureQueue (s : State) (q : Nat) : State :=
  match s.queue? q with
  | some _ => s
  | none => { s with disp := { s.disp with queues := s.disp.queues ++ [Queue.fresh q] } }

/-- Whether a bind record is accepted for a slot (R250). -/
def State.bindOk (s : State) (slot : Nat) (b : BindRec) : Bool :=
  !b.valid || (b.owner != 0 && s.own.holder 0x04 slot == b.owner && b.cores.all (fun c => s.own.holder 0x01 c == b.owner && c < 1536)
    && 1 ≤ b.weight && b.weight ≤ 16)

/-- The cores that a running launch holds now, ascending. -/
def State.launchCores (s : State) (l run : Nat) : List Nat :=
  ((s.liveRanks.filter fun r => r.key.launch == l && r.run == run && r.state != .saved).map Rank.core).foldl
    (fun q c => setAdd c q) []

/-- The running launches of a queue, lowest number first. -/
def State.runningOf (s : State) (q : Nat) : List Launch := s.disp.launches.filter fun l => l.queue == q && l.state == .running

/-- The cores that a change of a slot to the given cores withdraws; a launch that cannot fold is vacated whole (R255). -/
def State.withdrawn (s : State) (slot : Nat) (cores : List Nat) : List Nat :=
  (s.runningOf slot).foldl (fun q l =>
    let held := s.launchCores l.num 0 ++ s.launchCores l.num 1
    let gone := held.filter fun c => !cores.contains c
    (if gone.isEmpty || l.fold then gone else held).foldl (fun q c => setAdd c q) q) []

/-! ### The placing of saved and folded ranks (R46 step 3, R49) -/

/-- How many ranks a core holds. -/
def State.heldOn (s : State) (core : Nat) : Nat := (s.liveRanks.filter (Rank.onCore core)).length

/-- The lowest rank that a core holds. -/
def State.lowestOn (s : State) (core : Nat) : Nat :=
  ((s.liveRanks.filter (Rank.onCore core)).map fun r => r.key.rank).foldl Nat.min (2^17)

/-- The best core of a list by a comparison of two cores; the earlier one stays where neither is better. -/
def bestCore (better : Nat → Nat → Bool) : List Nat → Option Nat
  | [] => none
  | c :: r => some (r.foldl (fun b d => if better d b then d else b) c)

/-- The core holding the fewest ranks; ties go to the core whose lowest rank is lowest (R46 step 3). -/
def State.leastLoaded (s : State) (cores : List Nat) : Option Nat :=
  bestCore (fun a b => s.heldOn a < s.heldOn b || (s.heldOn a == s.heldOn b && s.lowestOn a < s.lowestOn b)) cores

/-- A rank that is switched out, given to a core, which comes into focus with the rank where the rank is in focus. -/
def State.giveRank (s : State) (r : Rank) (core : Nat) : State :=
  let t := if r.state = .saved then s else s.resumeTimes r
  let t := t.updRank r.key r.run fun r =>
    { r with core := core, state := .folded, since := s.time, tiles := r.tiles.map fun t => { t with cores := [core] } }
  if s.rk.is r.key r.run && s.rk.state != .ended then t.focusCore core else t

/-- The saved ranks of a launch's run, ascending. -/
def State.savedRanks (s : State) (l run : Nat) : List Rank :=
  let mine := s.liveRanks.filter fun r => r.key.launch == l && r.run == run && r.state == .saved
  let nums := (mine.map fun r => r.key.rank).foldl (fun q k => setAdd k q) []
  nums.filterMap fun k => mine.find? fun r => r.key.rank == k

/-- Each saved rank given to the least loaded of some cores, in ascending rank order. -/
def State.assignSaved (s : State) (cores : List Nat) : List Rank → State
  | [] => s
  | r :: rest =>
    match s.leastLoaded cores with
    | none => s
    | some c => (s.giveRank r c).assignSaved cores rest

/-- Ranks moved to restored cores, from the most heavily loaded core first, until none holds two more than another (R49). -/
def State.balance (s : State) (l run : Nat) (cores restored : List Nat) : (fuel : Nat) → State
  | 0 => s
  | fuel + 1 =>
    let folded := fun (c : Nat) =>
      (s.liveRanks.filter fun r => r.key.launch == l && r.run == run && r.core == c && r.state == .folded)
    match bestCore (fun a b => s.heldOn b < s.heldOn a) (cores.filter fun c => !(folded c).isEmpty),
      bestCore (fun a b => s.heldOn a < s.heldOn b) restored with
    | some a, some b =>
      if s.heldOn a < s.heldOn b + 2 then s
      else
        let low := ((folded a).map fun r => r.key.rank).foldl Nat.min (2^17)
        match (folded a).find? fun r => r.key.rank == low with
        | none => s
        | some r => (s.giveRank r b).balance l run cores restored fuel
    | _, _ => s

/-- Every core of a list without a running rank resumes one. -/
def State.startCores (s : State) (cores : List Nat) : State := cores.foldl (fun t c => t.switchCore c) s

/-- Cores restored to one run of a launch: it takes its saved ranks up, then evens out the load (R49). A launch that cannot fold
needs a core for each rank (R255). -/
def State.restoreRun (s : State) (l : Launch) (run : Nat) (restored : List Nat) : State :=
  let held := s.launchCores l.num run
  let cores := held ++ restored.filter fun c => !held.contains c
  let saved := s.savedRanks l.num run
  if l.fold then
    let t := s.assignSaved cores saved
    (t.balance l.num run cores restored l.span).startCores cores
  else if saved.isEmpty || cores.length < l.span then s
  else
    ((saved.zip cores).foldl (fun t q => t.giveRank q.1 q.2) s).startCores cores

/-- The cores of a list that a launch may take now. -/
def State.takeable (s : State) (l : Launch) (cores : List Nat) : List Nat :=
  cores.filter fun c => kindFits l.kind c && s.coreFree c

/-- Cores restored to a launch; a dual run's two runs share them as R257 shares free cores. -/
def State.restoreLaunch (s : State) (cores : List Nat) (l : Launch) : State :=
  let free := s.takeable l cores
  if l.dual then
    let h := (free.length + 1) / 2
    (s.restoreRun l 0 (free.take h)).restoreRun l 1 (free.drop h)
  else s.restoreRun l 0 free

/-- The granted cores of a slot, ascending. -/
def State.grantOf (s : State) (slot : Nat) : List Nat := ((s.bindRec slot).map sortedCores).getD []

/-- A running launch's runs that are saved and hold no core, resumed on the granted cores that are free: one that can fold on those there
are, another once there are SPAN for each run (R49, R255, R256). -/
def State.resumeLaunch (s : State) (l : Launch) : State :=
  let free := s.takeable l (s.grantOf l.queue)
  let waits := fun (run : Nat) => !(s.savedRanks l.num run).isEmpty && (s.launchCores l.num run).isEmpty
  if waits 0 && waits 1 then
    let h := (free.length + 1) / 2
    if !l.fold && free.length < 2 * l.span then s else (s.restoreRun l 0 (free.take h)).restoreRun l 1 (free.drop h)
  else if waits 0 then s.restoreRun l 0 free
  else if waits 1 then s.restoreRun l 1 free
  else s

/-- Cores that a change sets, of those that the slot still grants, restored to the queue's running launches, lowest number first (R255). A
launch that cannot fold takes no core but with all of its ranks. -/
def State.restoreCores (s : State) (slot : Nat) (cores : List Nat) : State :=
  let mine := cores.filter (s.grantOf slot).contains
  (s.runningOf slot).foldl (fun t l => (if l.fold then t.restoreLaunch mine l else t).resumeLaunch l) s

/-- The saved launches of an admitted queue resumed, lowest number first, while no order of it is carried out (R255, R256). -/
def State.resumeSaved (s : State) (slot : Nat) : State :=
  let admitted := match s.queue? slot with
    | some q => q.state == .admitted
    | none => false
  if !admitted || s.disp.orders.any (fun o => o.1 == slot) then s
  else (s.runningOf slot).foldl State.resumeLaunch s

/-! ### The change of a slot (R250, R255, R256) -/

/-- The state a bind record puts its queue in (R248). -/
def bindState (b : BindRec) : QueueState := if !b.valid then .idle else if b.cores.isEmpty then .switchedOut else .admitted

/-- An accepted record in force: the queue's state and progress record, and the order for the cores withdrawn. The cores that the change sets
are restored at once, or once the order is carried out (R255). [DEDUCED log 77] -/
def State.applyBind (s : State) (slot : Nat) (b : BindRec) : State :=
  let cores := if b.valid then sortedCores b else []
  let set_ := cores.filter fun c => !(s.grantOf slot).contains c
  let gone := s.withdrawn slot cores
  let t := s.ensureQueue slot
  let t := { t with disp := { t.disp with
    slots := putAt slot b t.disp.slots, orders := t.disp.orders ++ gone.map fun c => (slot, c) } }
  let t := (t.updQueue slot fun q => { q with state := bindState b }).writeProgress slot
  if gone.isEmpty then (t.restoreCores slot set_).resumeSaved slot
  else { t with disp := { t.disp with restores := putAt slot set_ t.disp.restores } }

/-- A FWBOUND record of a bound of R30. -/
def State.fwRecord (s : State) (addr : Word) (bound : Nat) : State :=
  s.report (errRec Err.fwBound 0 addr (wd bound) 0)

/-- A record checked and accepted, or refused with an error record (R250, R312). One that names cores its owner does not hold is an attempt of
firmware beyond its bounds, which gets its FWBOUND record too (R356). [DEDUCED log 77] -/
def State.writeBind (s : State) (slot : Nat) (b : BindRec) : State :=
  if s.bindOk slot b then s.applyBind slot b
  else
    let t := s.report { errRec Err.bindRefused b.owner (wd slot) (wd b.owner) 0 with queue := slot }
    if b.cores.all fun c => s.own.holder 0x01 c == b.owner && c < 1536 then t else t.fwRecord (wd slot) 2

/-- Firmware's write of the word at 0x00 of a slot's bind record; while an order of the slot is carried out it waits (R255).
[DESIGN CHOICE log 13] -/
def execBindRecordWrite (slot : Nat) (b : BindRec) (s : State) : Out :=
  if 4096 ≤ slot then .next s
  else if s.disp.orders.any fun o => o.1 == slot then
    .next { s with disp := { s.disp with deferred := putAt slot b s.disp.deferred } }
  else .next ({ s with disp := { s.disp with deferred := dropAt slot s.disp.deferred } }.writeBind slot b)

/-- The latest record written during an order takes effect once the order's last core is released (R255). [DEDUCED log 77] -/
def State.takeDeferred (s : State) (slot : Nat) : State :=
  match s.disp.deferred.find? fun e => e.1 == slot with
  | none => s
  | some e =>
    if s.disp.orders.any fun o => o.1 == slot then s
    else { s with disp := { s.disp with deferred := dropAt slot s.disp.deferred } }.writeBind slot e.2

/-- A record written during an order whose last core has been released takes effect (R255). [DEDUCED log 77] -/
def execBindRecordDeferred (slot : Nat) (s : State) : Out := .next (s.takeDeferred slot)

/-! ### Vacating a core (R46) -/

/-- The ranks that a core holds, ascending. -/
def State.ranksOn (s : State) (core : Nat) : List Rank :=
  let mine := s.liveRanks.filter (Rank.onCore core)
  let nums := (mine.map fun r => r.key.rank).foldl (fun q k => setAdd k q) []
  nums.filterMap fun k => mine.find? fun r => r.key.rank == k

/-- Each rank of a list saved and without a core. -/
def State.vacateRanks (s : State) (reason : Nat) : List Rank → Option State
  | [] => some s
  | r :: rest =>
    match s.saveRank r reason false with
    | none => none
    | some (t, saved) =>
      (if saved then (t.resumeTimes r).updRank r.key r.run fun q => { q with state := .saved } else t).vacateRanks reason rest

/-- The cores of a run that no order withdraws. [DEDUCED log 94] -/
def State.remaining (s : State) (l run : Nat) : List Nat :=
  (s.launchCores l run).filter fun c => !s.disp.orders.any fun o => o.2 == c

/-- Once an order's last core is released: the vacated ranks are assigned to the cores that remain, then the cores that the change set are
restored, and launches that hold none resume (R46, R255). [DEDUCED log 94] -/
def State.endOrder (s : State) (slot : Nat) : State :=
  if s.disp.orders.any fun o => o.1 == slot then s
  else
    let t := (s.runningOf slot).foldl (fun t l =>
      if !l.fold then t
      else [0, 1].foldl (fun t run =>
        let cores := t.remaining l.num run
        (t.assignSaved cores (t.savedRanks l.num run)).startCores cores) t) s
    let set_ := ((s.disp.restores.find? fun e => e.1 == slot).map fun e => e.2).getD []
    (({ t with disp := { t.disp with restores := dropAt slot t.disp.restores } } : State).restoreCores slot set_).resumeSaved slot

/-- A core that an order withdraws is interrupted, its ranks are saved, and it is released (R46). -/
def execCoreVacate (core : Nat) (s : State) : Out :=
  match s.disp.orders.find? fun o => o.2 == core with
  | none => .next s
  | some (slot, _) =>
    let rs := s.ranksOn core
    let reason := match rs with
      | [] => 0
      | r :: _ => match s.launch? r.key.launch with
        | none => 0
        | some l => if l.fold && !(s.remaining l.num r.run).isEmpty then 0 else 1
    match s.vacateRanks reason rs with
    | none => .next s
    | some t =>
      let t := { t with disp := { t.disp with orders := t.disp.orders.filter fun o => !(o.1 == slot && o.2 == core) } }
      .next ((t.endOrder slot).takeDeferred slot)

/-! ### The placing of a launch (R45) -/

/-- The launch an event names: a queue's oldest unplaced record, or a child. [DEDUCED log 55, DEDUCED log 56] -/
def State.candidate (s : State) : LaunchSrc → Option Launch
  | .queue q => s.disp.launches.find? fun l => l.queue == q && l.state == .ready && match l.origin with
      | .queue _ => true
      | .program .. | .node .. => false
  | .child n => s.launch? n

/-- Saved launches of the queue resume where they can, a record is read where none is in hand, and the launch is placed where it is ready and
nothing goes before it (R45). -/
def execLaunchPlace (src : LaunchSrc) (s : State) : Out :=
  let t := match src with
    | .queue q => ((s.retryProgress q).resumeSaved q).readNext q
    | .child n => s.readChild n
  match t.candidate src with
  | none => .next t
  | some l =>
    if !t.placeable l || t.outranked l then .next t
    else
      match t.placement l with
      | none => .next t
      | some runs => .next (t.place l runs)

end Sys2Proof.Machine
end

