-- ==== Sys2Proof/Machine/Comm.lean ====
section
/-! DEFINITION. Messages (11 R214 to R220), barriers and votes (03 R36 to R41, 11 R221), and helpers (03 R42 to R44, 11 R222 to R226). -/

namespace Sys2Proof.Machine

open Sys2Proof

/-! ### Messages (R215 to R219) -/

/-- The slots of a rank's inbox that are taken, reserved ones included. -/
def State.inboxTaken (s : State) (r : Rank) : Nat :=
  r.inbox.length + (s.eng.flights.filter fun f => f.launch == r.key.launch && f.run == r.run && f.dest == r.key.rank).length

/-- Whether the network interface can reserve a slot at a rank of the launch; one that has ended needs none (R215). -/
def State.inboxHasRoom (s : State) (dest : Nat) : Bool :=
  match s.rank? ⟨s.rk.key.launch, dest⟩ s.rk.run with
  | none => true
  | some r => s.inboxTaken r < 64

/-- A message accepted. [DEDUCED log 39] -/
def State.sendMessage (s : State) (dest : Nat) (tag : BitVec 16) (data : VReg) : State :=
  { s with eng := { s.eng with
      flights := s.eng.flights ++ [⟨s.rk.key.launch, s.rk.run, s.rk.key.rank, dest, tag, data, false⟩] } }

/-- The words of a message's destination and tag checked: OPERAND with the word that breaks its layout (R215). -/
def State.messageBad (s : State) (a b : Reg) : Option Word :=
  if !zeroAt (s.x a) 17 47 || s.rk.id.span.toNat ≤ field (s.x a) 0 17 then some (s.x a)
  else if !zeroAt (s.x b) 16 48 then some (s.x b) else none

/-- `msnd` (R215). -/
def execMsnd (d a b : Reg) (_la : Fin 16) (s : State) : Out :=
  match s.messageBad a b with
  | some w => .next (s.trap Cause.operand w)
  | none =>
    let dest := field (s.x a) 0 17
    if s.inboxHasRoom dest then .next (s.sendMessage dest ((s.x b).setWidth 16) (s.v d)).advance
    else .next (s.waitFor .inboxSlot)

/-- The held messages of the issuing context. -/
def State.heldHere (s : State) : List Held := s.rk.blotter.filter fun h => h.ctx == s.cx.num

/-- `msnds` (R216): LIMIT where all 32 entries are the context's own (R317). -/
def execMsnds (d a b : Reg) (_la : Fin 16) (s : State) : Out :=
  match s.messageBad a b with
  | some w => .next (s.trap Cause.operand w)
  | none =>
    if 32 ≤ s.heldHere.length then .next (s.trap Cause.limit 32)
    else if 32 ≤ s.rk.blotter.length then .next (s.waitFor .acceptance)
    else
      let h : Held := ⟨s.cx.num, field (s.x a) 0 17, (s.x b).setWidth 16, s.v d⟩
      .next { s with rk := { s.rk with blotter := s.rk.blotter ++ [h] } }.advance

/-- Held messages sent, oldest first, while their slots can be reserved; `lanes` counts those sent while the instruction waits. [DEDUCED log 88] -/
def State.sendHeld (s : State) : List Held → State
  | [] => s
  | h :: r =>
    if s.inboxHasRoom h.dest then
      let t := s.sendMessage h.dest h.tag h.data
      { t with
        rk := { t.rk with blotter := removeFirst (fun q => q.ctx == s.cx.num) t.rk.blotter }
        cx := { t.cx with lanes := [t.cx.lanes.headD 0 + 1] } }.sendHeld r
    else s

/-- `mcommit` (R217). [DEDUCED log 88] -/
def execMcommit (d : Reg) (_la : Fin 16) (s : State) : Out :=
  let t := s.sendHeld s.heldHere
  if t.heldHere.isEmpty then .next (t.setX d (wd (t.cx.lanes.headD 0))).advance else .next (t.waitFor .inboxSlot)

/-- `mabort` (R217). -/
def execMabort (d : Reg) (_la : Fin 16) (s : State) : Out :=
  let t := { s with rk := { s.rk with blotter := s.rk.blotter.filter fun h => h.ctx != s.cx.num } }
  .next (t.setX d (wd s.heldHere.length)).advance

/-- Whether a message matches a match word (R218). -/
def Message.fits (m : Message) (w : Word) : Bool :=
  ((m.tag ^^^ w.setWidth 16) &&& w.extractLsb' 16 16) == 0 && (bitAt w 49 || m.src == field w 32 17)

/-- The oldest matching message of the rank's inbox. -/
def State.firstMatch (s : State) (w : Word) : Option Message := s.rk.inbox.find? fun m => m.fits w

/-- The cycle in which the `mrcv` of the context in focus executed first. -/
def State.mrcvSince (s : State) : Nat :=
  match s.cx.wait with
  | .mrcv c _ => c
  | _ => s.fab.clock

/-- A waiting receive placed among others by the cycle in which it executed, then by cr.ctx. -/
def orderWaiter (q : Nat × Nat × Word) : List (Nat × Nat × Word) → List (Nat × Nat × Word)
  | [] => [q]
  | p :: r => if q.1 < p.1 || (q.1 == p.1 && q.2.1 < p.2.1) then q :: p :: r else p :: orderWaiter q r

/-- The match words of the rank's waiting receives that executed before the one in focus, first to last (R219). -/
def State.earlierWaiters (s : State) : List Word :=
  let ws := s.rk.ctxs.filterMap fun c => match c.wait with
    | .mrcv n w => if n < s.mrcvSince || (n == s.mrcvSince && c.num < s.cx.num) then some (n, c.num, w) else none
    | _ => none
  (ws.foldl (fun l q => orderWaiter q l) []).map fun q => q.2.2

/-- A numbered inbox without the messages that some receives take, each its oldest matching one. -/
def leftFor (ws : List Word) (box : List (Message × Nat)) : List (Message × Nat) :=
  ws.foldl (fun box w => removeFirst (fun q => q.1.fits w) box) box

/-- The message that a receive in focus takes, with its place in the inbox: the oldest matching one that no earlier receive takes (R219). -/
def State.takesNext (s : State) (w : Word) : Option (Message × Nat) :=
  (leftFor s.earlierWaiters s.rk.inbox.zipIdx).find? fun q => q.1.fits w

/-- `mrcv` (R219). -/
def execMrcv (d a : Reg) (_la : Fin 16) (s : State) : Out :=
  let w := s.x a
  if !zeroAt w 50 14 then .next (s.trap Cause.operand w)
  else
    match s.takesNext w with
    | none => .next (s.waitFor (.mrcv s.mrcvSince w))
    | some (m, n) =>
      let t := { s with rk := { s.rk with inbox := s.rk.inbox.eraseIdx n } }
      .next ((t.setV d m.data).setX a (envelope m.src m.tag)).advance

/-- `mpeek` (R219). -/
def execMpeek (d a : Reg) (_la : Fin 16) (s : State) : Out :=
  let w := s.x a
  if !zeroAt w 50 14 then .next (s.trap Cause.operand w)
  else s.result d (match s.firstMatch w with | none => 0 | some m => envelope m.src m.tag)

/-- Whether two accepted messages go from one sender to one receiver. -/
def Flight.sameWay (f g : Flight) : Bool :=
  f.launch == g.launch && f.run == g.run && f.src == g.src && f.dest == g.dest

/-- An accepted message reaches its inbox, saved or not, or is discarded because its rank has ended; messages of one sender to one
receiver arrive in the order they were accepted (R215, R47). -/
def execMessageDeliver (n : Nat) (s : State) : Out :=
  match s.eng.flights[n]? with
  | none => .next s
  | some f =>
    if (s.eng.flights.take n).any f.sameWay then .next s
    else
      let t := { s with eng := { s.eng with flights := s.eng.flights.eraseIdx n } }
      .next (t.updRank ⟨f.launch, f.dest⟩ f.run fun r => ({ r with inbox := r.inbox ++ [⟨f.src, f.tag, f.data⟩] } : Rank).reached)

/-! ### Barriers (R39 to R41, R221) -/

/-- Whether a group slot names a group. [DEDUCED log 39] -/
def State.slotValid (s : State) (g : Fin 4) : Bool := bitAt s.rk.grp[g] 15

/-- The rank with a slot's barrier part changed. -/
def Rank.setBar (r : Rank) (g : Fin 4) (b : BarSlot) : Rank := { r with bar := r.bar.set g b }

/-- An arrival in the slot's current phase: messages in flight are marked as sent before it (R40), and the solo pairs done before an arrival
at group 0 are noted (R54). -/
def State.arrive (s : State) (g : Fin 4) (byVote vote : Bool) (orBit : Bool) : State :=
  { s with
    rk := { s.rk.setBar g { BarSlot.reset with arrived := true, byVote := byVote, vote := vote, orBit := orBit } with
      solo := if g = 0 then { s.rk.solo with atArrival := s.rk.solo.count } else s.rk.solo }
    eng := { s.eng with flights := s.eng.flights.map fun f =>
      if f.launch == s.rk.key.launch && f.run == s.rk.run && f.src == s.rk.key.rank then { f with gate := true } else f } }

/-- The frame of a barrier instruction: not in a helper (R44), and OPERAND where its slot names no group. -/
def State.barrier (s : State) (i : Instr) (g : Fin 4) (k : BarSlot → Out) : Out :=
  if !s.isControl then .next (s.illegal i)
  else if !s.slotValid g then .next (s.trap Cause.operand (wd g.val))
  else k s.rk.bar[g]

/-- The members of a launch's group. -/
def Launch.members (l : Launch) (group : Nat) : List Nat :=
  if group = 0 then List.range l.span else l.groups.getD (group - 1) []

/-- The slot in which a rank holds a group, if it does. -/
def Rank.slotOf (r : Rank) (group : Nat) : Option (Fin 4) :=
  (List.finRange 4).find? fun g => bitAt r.grp[g] 15 && field r.grp[g] 0 9 == group

/-- Whether a rank has arrived in its group's current phase. -/
def Rank.arrivedIn (r : Rank) (group : Nat) : Bool :=
  match r.slotOf group with
  | none => false
  | some g => r.bar[g].arrived && !r.bar[g].released

/-- Whether every member of a slot's group has arrived in its current phase: a wait for its release completes at once, and is no switch
point (R48, R301). [DEDUCED log 90] -/
def State.allArrived (s : State) (g : Fin 4) : Bool :=
  let group := field s.rk.grp[g] 0 9
  match s.launch? s.rk.key.launch with
  | none => false
  | some l => (l.members group).all fun n => match s.rank? ⟨l.num, n⟩ s.rk.run with
    | none => false
    | some r => r.arrivedIn group

/-- Whether the barrier instruction in focus is a switch point: as it was when it executed first. -/
def State.pointHere (s : State) (g : Fin 4) : Bool :=
  match s.cx.wait with
  | .barrier _ point => point
  | _ => !s.allArrived g

/-- The wait of a barrier instruction; where it is a switch point, a folded core goes on with another rank (R48). -/
def State.barrierWait (s : State) (g : Fin 4) (point : Bool) : Out :=
  let t := s.waitFor (.barrier g.val point)
  .next (if point then t.switchAt t.co.num else t)

/-- Whether the core of the rank in focus is yet to go on with another rank, from the switch point of a barrier that has been released since
(R48). [DEDUCED log 90] -/
def State.yields (s : State) : Bool :=
  s.cx.switchDue && 2 ≤ (s.liveRanks.filter (Rank.onCore s.co.num)).length

/-- `bar.arrive` (R39): a neutral vote. -/
def execBarArrive (g : Fin 4) (s : State) : Out :=
  s.barrier (.barArrive g) g fun b =>
    if b.arrived && !b.released then s.barrierWait g false else .next (s.arrive g false true false).advance

/-- The end of a released wait: ARRIVED clears, and the rank's later loads are ordered as an acquire at device scope (R40). -/
def State.barrierEnd (s : State) (g : Fin 4) : State :=
  { s with rk := s.rk.setBar g .reset }.acquire .dev

/-- `bar.wait` (R39). -/
def execBarWait (g : Fin 4) (s : State) : Out :=
  s.barrier (.barWait g) g fun b =>
    if b.arrived && b.released then .next (if s.yields then s.switchAt s.co.num else (s.barrierEnd g).advance)
    else if b.arrived then s.barrierWait g (s.pointHere g)
    else
      let t := s.arrive g false true false
      t.barrierWait g (!t.allArrived g)

/-- The result of a vote (R14). -/
def BarSlot.result (b : BarSlot) : Nat := boolNat b.andBit + 2 * boolNat b.orBit

/-- `bar.vote` (R14, R39, R221). -/
def execBarVote (d a : Reg) (g : Fin 4) (s : State) : Out :=
  s.barrier (.barVote d a g) g fun b =>
    if b.arrived && b.byVote then
      if b.released then
        let t := s.barrierEnd g
        let t := { t with rk := { t.rk with vote := BitVec.ofNat 4 (b.result + 4 * g.val) } }
        .next (if s.yields then s.switchAt s.co.num else (t.setX d (wd b.result)).advance)
      else s.barrierWait g (s.pointHere g)
    else if b.arrived && !b.released then s.barrierWait g (s.pointHere g)
    else
      let t := s.arrive g true (bitAt (s.x a) 0) (bitAt (s.x a) 0)
      t.barrierWait g (!t.allArrived g)

/-- Whether every message that a rank sent before its arrivals has been placed (R40). -/
def State.messagesPlaced (s : State) (r : Rank) : Bool :=
  !s.eng.flights.any fun f => f.gate && f.launch == r.key.launch && f.run == r.run && f.src == r.key.rank

/-- An arrival is counted: the rank's stores are visible at device scope and its messages are placed (R40). -/
def execArrivalCounted (k : RankKey) (g : Fin 4) (s : State) : Out :=
  match s.runWhere k fun r => r.bar[g].arrived && !r.bar[g].counted && s.messagesPlaced r with
  | none => .next s
  | some r =>
    let t := if r.state == .saved then s else s.drainCore r.core
    if r.state != .saved && !(t.coreAt r.core).stores.isEmpty then .next s
    else .next (t.commitAll.updRank k r.run fun r => r.setBar g { r.bar[g] with counted := true })

/-- A rank's part in its group's current phase, if its arrival there is counted. -/
def Rank.inPhase (r : Rank) (group : Nat) : Option BarSlot :=
  match r.slotOf group with
  | none => none
  | some g => if r.bar[g].arrived && r.bar[g].counted && !r.bar[g].released then some r.bar[g] else none

/-- The solo pairs of a rank at a release of group 0: counts restart, posted values and marks go (R53, R54). -/
def Rank.soloRestart (r : Rank) : Rank :=
  { r with solo := { SoloState.reset with home := clusterOf r.core } }

/-- A rank released from its group's phase, with the phase's AND and OR. -/
def Rank.release (r : Rank) (group : Nat) (andBit orBit : Bool) : Rank :=
  match r.slotOf group with
  | none => r
  | some g =>
    let r := r.setBar g { r.bar[g] with released := true, andBit := andBit, orBit := orBit }
    if group = 0 then r.soloRestart else r

/-- The parts of a run's ranks in a group's current phase. -/
def State.phaseParts (s : State) (launch run group : Nat) : List BarSlot :=
  (s.liveRanks.filter fun r => r.key.launch == launch && r.run == run).filterMap fun r => r.inPhase group

/-- A phase whose every member's arrival is counted releases (R39, R41). -/
def execBarrierRelease (launch group : Nat) (s : State) : Out :=
  match s.launch? launch with
  | none => .next s
  | some l =>
    let full := fun (run : Nat) =>
      decide (0 < (l.members group).length) && (s.phaseParts launch run group).length == (l.members group).length
    match [0, 1].find? full with
    | none => .next s
    | some run =>
      let ps := s.phaseParts launch run group
      let a := ps.all BarSlot.vote
      let o := ps.any BarSlot.orBit
      .next (s.updRanks (fun r => r.key.launch == launch && r.run == run) fun r => r.release group a o)

/-! ### Helpers (R42 to R44, R223 to R226) -/

/-- The live helpers of the rank. -/
def State.helpers (s : State) : List Nat := ((s.cx :: s.rk.ctxs).map Context.num).filter fun n => n != 0

/-- The lowest helper number that is free and whose slot on the core the owner holds (R42, R283). -/
def State.freeHelper (s : State) : Option Nat :=
  ((List.range 10).map (· + 1)).find? fun h =>
    !s.helpers.contains h && s.own.holder 0x02 (10 * s.co.num + h - 1) == s.owner

/-- A helper as `hstart` starts it (R42). -/
def State.newHelper (s : State) (h : Nat) (pc arg : Word) : Context :=
  let c := s.cx.cr
  { Context.reset with
    num := h
    pc := pc
    x := Context.reset.x.set 3 arg
    cr := { CtxRegs.reset with
      keyid := s.rk.id.keyid, frm := c.frm, fewait := c.fewait, fmt := c.fmt, sclp := c.sclp, accexp := c.accexp, spar := c.spar,
      mxtrap := c.mxtrap } }

/-- `hstart` (R42, R223). -/
def execHstart (d a b : Reg) (s : State) : Out :=
  if !s.isControl then .next (s.illegal (.hstart d a b))
  else if misaligned (s.x a) 4 then .next (s.trap Cause.misalign (s.x a))
  else if s.rk.id.hmax ≤ s.helpers.length then s.result d 0
  else
    match s.freeHelper with
    | none => s.result d 0
    | some h =>
      { s with rk := { s.rk with ctxs := s.rk.ctxs ++ [s.newHelper h (s.x a) (s.x b)] } }.result d (wd h)

/-- `hjoin` (R224). -/
def execHjoin (d a : Reg) (la : Fin 16) (s : State) : Out :=
  let h := field (s.x a) 0 4
  if !s.isControl then .next (s.illegal (.hjoin d a la))
  else if !zeroAt (s.x a) 4 60 then .next (s.trap Cause.operand (s.x a))
  else if s.helpers.contains h then .next (s.waitFor .hjoin)
  else s.result d (if s.cx.wait = .hjoin then wd h else 0)

/-- A rank's helper has ended: its held messages are discarded, and what it committed and has not ended merges into no register, whoever takes its
number (R43, R225, R326). -/
def State.forgetHelper (s : State) (k : RankKey) (run n : Nat) : State :=
  let lone := fun (o : MatrixOp) => if o.ctx == n then { o with gone := true } else o
  let t := s.updRank k run fun r =>
    { r with
      blotter := r.blotter.filter fun h => h.ctx != n
      graphs := r.graphs.map fun g => if g.ctx == n then { g with gone := true } else g
      mx := { r.mx with
        queue := r.mx.queue.map lone
        stream := r.mx.stream.map fun q => (lone q.1, q.2)
        tails := r.mx.tails.map lone
        drain := r.mx.drain.map fun q => (lone q.1, q.2) } }
  { t with fab := { t.fab with
    requests := t.fab.requests.map fun q =>
      if q.issuer = .store k run n then { q with issuer := .store k run noContext } else q } }

/-- The rank without the helper in focus: its number is free (R43, R225). -/
def State.endHelper (s : State) : State :=
  match s.rk.ctxs with
  | [] => s
  | c :: r => { s with cx := c, rk := { s.rk with ctxs := r } }.forgetHelper s.rk.key s.rk.run s.cx.num

/-- `hexit` (R225): a helper ends; the control context waits until its rank can end. -/
def execHexit (s : State) : Out := if s.isControl then .next (s.waitFor .exiting) else .next s.endHelper

/-- `hstat` (R226). -/
def execHstat (d : Reg) (s : State) : Out :=
  s.result d (wd ((s.helpers.map fun h => 2^h).sum + 2^12 * s.helpers.length + 2^16 * s.rk.id.hmax))

end Sys2Proof.Machine
end

