-- ==== Sys2Proof/Machine/Fabric.lean ====
section
/-! DEFINITION. The Druiq fabric (13 R261 to R273, R277, R278; 20 R343 to R346): the path and the injection of packets, what a
request meets at its destination and at its issuer, lossy transfers, merging atomics, link replay, and time flits. -/

namespace Sys2Proof.Machine

open Sys2Proof

/-! ### Injection (R266 to R270, R343) -/

/-- The owner under which a key ID's traffic is translated here (R270). -/
def State.keyOwner (s : State) (keyid : Nat) : Nat := s.own.holder 0x06 keyid

def Fabric.request? (f : Fabric) (id : Nat) : Option Request := f.requests.find? fun q => q.id == id

def State.updRequest (s : State) (id : Nat) (f : Request → Request) : State :=
  { s with fab := { s.fab with requests := updFirst (fun q => q.id == id) f s.fab.requests } }

/-- The packets that a request sends: where they go, and their numbers there (R267). -/
def Request.packets (q : Request) : List (Nat × Nat) :=
  if q.kind = .multicast then q.copies.map fun c => (c.node, c.pseq) else [(q.dest, q.pseq)]

/-- The exact requests that send packets of an ordering key. -/
def Fabric.ofKey (f : Fabric) (sagent dest : Nat) : List Request :=
  f.requests.filter fun r => r.sagent == sagent && r.packets.any (fun p => p.1 == dest) && !r.host && r.block.isNone

/-- Whether an earlier packet of an ordering key is still at the source, or 32 of the key are unacknowledged (R267). -/
def Fabric.keyBusy (f : Fabric) (q : Request) : Bool :=
  q.packets.any fun p =>
    let mine := f.ofKey q.sagent p.1
    mine.any (fun r => !r.injected && r.id < q.id) || 32 ≤ (mine.filter Request.injected).length

/-- The launch that issued a request. -/
def State.launchOf (s : State) (q : Request) : Nat :=
  match q.issuer with
  | .load k .. | .fullEmpty k .. | .store k .. | .multicast k .. => k.launch
  | .copy ch seq => ((s.eng.copies.find? fun c => c.chan == ch && c.seq == seq).map fun c => c.key.launch).getD 0
  | .leg id => ((s.fab.colls.find? fun c => c.id == id).map fun c => c.key.launch).getD 0

/-- The weight of the launch that issued a request (R254): 1 where no bind record of its queue is in force any more. [DESIGN CHOICE log 103] -/
def State.weightOf (s : State) (q : Request) : Nat :=
  (((s.launch? (s.launchOf q)).bind fun x => s.bindRec x.queue).map BindRec.weight).getD 1

/-- KIND of a request's route flit (R264). -/
def Request.kindCode (q : Request) : Nat :=
  match q.kind with
  | .write => if q.block.isSome then 7 else 0
  | .read => 1
  | .atomic .. => 3
  | .fe .. => 5
  | .multicast => 8
  | .leg result => if result then 11 else 10

/-- The route flit of a request that has one destination (R264). -/
def Request.route (q : Request) (self : Nat) : List Nat :=
  packetRoute q.dest self q.via q.entry q.kindCode q.sagent q.pseq q.addr q.bytes (q.block.getD (0, 0, 0)) q.time q.ivc

/-- The route flits of the copies of a multicast store, one for each member (R264, R274). [DEDUCED log 96] -/
def Request.copyRoutes (q : Request) (self : Nat) : List (List Nat) :=
  q.copies.map fun c => packetRoute c.node self c.via c.entry q.kindCode q.sagent c.pseq c.addr q.bytes (0, 0, 0) q.time c.ivc

/-- The class of a request's packet (R265). -/
def Request.cls (q : Request) : Nat := if q.block.isSome then 1 else 0

def Request.flits (q : Request) : List Flit := packetFlits q.keyid.toNat q.weight q.cls q.bytes

/-- A request as it is accepted by the source router on an entry (R264). -/
def Request.accepted (q : Request) (now entry ivc weight : Nat) : Request :=
  { q with injected := true, entry := entry, via := viaNode q.dest entry, time := now, deadline := q.deadline + (now - q.time), ivc := ivc,
           weight := weight }

/-- A packet waits at the port of its entry. -/
def Fabric.claimPacket (f : Fabric) (q : Request) : Fabric :=
  f.claim (outPort q.dest q.entry) Config.localPort q.weight (.packet q.id) q.flits

/-- An exact packet accepted by the source router on an entry: its TIME is now, and its deadline runs from it (R264, R346). [DEDUCED log 96] -/
def State.injectExact (s : State) (q : Request) (entry : Nat) : State :=
  match s.fab.spend s.time q.keyid.toNat q.bytes 1 with
  | none => s
  | some f =>
    let r := q.accepted s.time entry (f.ivcOf q.keyid.toNat) (s.weightOf q)
    { s with fab := f.claimPacket r }.updRequest q.id fun _ => r

/-- The blocks of a transfer. -/
def Request.inTransfer (xfer : Nat) (q : Request) : Bool :=
  match q.block with
  | none => false
  | some b => b.1 == xfer

/-- The command of a request looks whether it has ended. -/
def State.settleIssuer (s : State) (q : Request) : State :=
  match q.issuer with
  | .copy ch _ => s.settleCopy ch
  | .load .. | .fullEmpty .. | .store .. | .multicast .. | .leg _ => s

/-- A lossy transfer accepted whole, once all of its blocks are there: all bear the TIME of block 0, and nobody answers for them (R269, R272).
Without a live path they are lost. [DEDUCED log 96] -/
def State.injectLossy (s : State) (q : Request) (xfer nblk : Nat) : State :=
  let mine := s.fab.requests.filter (Request.inTransfer xfer)
  if mine.length < nblk then s
  else
    match s.fab.spend s.time q.keyid.toNat (mine.map Request.bytes).sum nblk with
    | none => s
    | some f =>
      match f.lossyEntry q.dest with
      | none => ({ s with fab := { f with requests := f.requests.filter fun r => !r.inTransfer xfer } } : State).settleIssuer q
      | some e =>
        let ivc := f.ivcOf q.keyid.toNat - nblk
        let out := mine.zipIdx.map fun p => p.1.accepted s.time e (ivc + p.2 + 1) (s.weightOf q)
        let rest := f.requests.filter fun r => !r.inTransfer xfer
        { s with fab := out.foldl Fabric.claimPacket { f with requests := rest ++ out } }

/-! ### The completion of a request (R345, R346) -/

/-- The core of a request's issuer, by its sending agent (R264). -/
def Request.core (q : Request) : Nat := q.sagent / 16

/-- The REMOTE record of a failure, at the issuer (R342, R346). -/
def State.remoteRecord (s : State) (q : Request) (status : Nat) : State :=
  let n := match q.issuer.context? with
    | some (_, _, n) => n
    | none => 0
  s.report { errRec Err.remote q.owner q.local_ (wd status) (wd q.dest) with core := q.core, ctx := n }

/-- A value for the context that waits for a request. -/
def State.answerRequest (s : State) (q : Request) (v : Word) : State :=
  match q.issuer.context? with
  | none => s
  | some (k, run, n) => s.updCtx k run n fun c => if c.wait = .remote q.id || c.wait = .fetch q.id then { c with answer := some v } else c

/-- A failed wait for a request: the context takes a trap there. [DEDUCED log 99] -/
def State.failRequest (s : State) (q : Request) (cause : BitVec 8) : State :=
  match q.issuer.context? with
  | none => s
  | some (k, run, n) =>
    s.inContext k run n fun t => if t.cx.wait = .remote q.id || t.cx.wait = .fetch q.id then t.trap cause q.local_ else t

/-- What the completion of a copyist's packet does to its command. [DESIGN CHOICE log 45] -/
def State.copyAnswer (s : State) (ch seq : Nat) (q : Request) (status : Nat) (data : Word) : State :=
  match s.copyHead ch with
  | none => s
  | some c =>
    if c.seq != seq || !c.started then s
    else if status != 0 then s.faultCopy c 5 q.local_
    else
      match q.kind with
      | .read => s.updCopy ch fun c => { c with got := c.got ++ [data] }
      | .write | .atomic .. | .fe .. | .multicast | .leg _ => s.settleCopy ch

/-- A request ends with a status: the issuer receives its answer, or fails as R346 says; a full/empty access whose home withdrew
it, or that has no completion, takes FEWAIT; a leg that is not OK faults its collective (R348), and one without a completion leaves it to the
collective's own bound. -/
def State.completeRequest (s : State) (q : Request) (status : Nat) (data : Word) : State :=
  let t := { s with fab := { s.fab with requests := s.fab.requests.filter fun r => r.id != q.id } }
  match q.issuer with
  | .load .. => if status = 0 then t.answerRequest q data else (t.remoteRecord q status).failRequest q Cause.fabric
  | .fullEmpty .. =>
    if status = 0 then t.answerRequest q data
    else
      (t.remoteRecord q status).failRequest q (if status = 2 || 7 ≤ status then Cause.feWait else Cause.fabric)
  | .store k run n =>
    if status = 0 then t
    else
      (t.remoteRecord q status).updCtx k run n fun c => { c with lost := some (c.lost.getD q.local_) }
  | .copy ch seq => t.copyAnswer ch seq q status data
  | .multicast .. => s
  | .leg id =>
    if status = 0 || 7 ≤ status then t
    else { t with fab := { t.fab with
      colls := updFirst (fun (c : Collective) => c.id == id) (fun c => { c with failed := c.failed ++ [q.dest] }) t.fab.colls } }

/-- The members of a `stmc` that its packet cannot reach (R345, R347). -/
def State.unreachedMembers (s : State) (dest : Nat → Nat) (mask : Word) : Word :=
  wd (((List.range 64).filter fun i => bitAt mask i && dest i != s.node.toNat && !s.fab.reachable (dest i)).map fun i => 2^i).sum

/-- A request of this module leaves it, once its rate and its order allow (R266, R267, R269); a destination without a live path is
answered UNREACH by this router (R345). -/
def State.injectRequest (s : State) (q : Request) : State :=
  match q.block with
  | some (xfer, _, nblk) => s.injectLossy q xfer nblk
  | none =>
    if s.fab.keyBusy q then s
    else
      match s.fab.exactEntry q.dest with
      | none => s.completeRequest q 1 0
      | some e => if s.fab.reachable q.dest then s.injectExact q e else s.completeRequest q 1 0

/-- Whether a request has left this module: its packet, or the host port, has been granted (R253). -/
def Fabric.left (f : Fabric) (q : Request) : Bool :=
  q.injected && !f.awaitsGrant (if q.host then .host q.id else .packet q.id)

/-- A completion arrives (R345, R346). [DEDUCED log 29, DESIGN CHOICE log 10] -/
def execRemoteCompletion (id status : Nat) (data : Word) (s : State) : Out :=
  match s.fab.request? id with
  | none => .next s
  | some q => if s.fab.left q && status < 7 then .next (s.completeRequest q status data) else .next s

/-- Whether a request's context stands on a halted core, so that its timeouts are suspended (R57). -/
def State.suspendedReq (s : State) (q : Request) : Bool :=
  match q.issuer.context? with
  | some (k, run, _) => s.haltedRank k run
  | none => false

/-- No completion came by the deadline: NOANSWER (R346). -/
def execRemoteDeadline (id : Nat) (s : State) : Out :=
  match s.fab.request? id with
  | none => .next s
  | some q => if q.injected && q.deadline ≤ s.time && !s.suspendedReq q then .next (s.completeRequest q 7 0) else .next s

/-- The lowest live entry of a destination other than one. [DESIGN CHOICE log 126] -/
def Fabric.otherEntry (f : Fabric) (dest e : Nat) : Option Nat := (List.range 5).find? fun k => k != e && f.entryLive dest k

/-- Copies of a multicast store in the fabric, with the counters that follow one; a copy goes to each port once (R274). -/
def Fabric.claimCopies (f : Fabric) (q : Request) (ports : List Nat) : Fabric :=
  (ports.foldl (fun l p => setAdd p l) []).foldl (fun f p => f.claim p Config.localPort q.weight (.packet q.id) q.flits) f

/-- The copies that have another live entry, on it, numbered by new counters. [DESIGN CHOICE log 126] -/
def Fabric.moveCopies (f : Fabric) (ivc : Nat) (cs : List McCopy) : List McCopy :=
  (cs.filterMap fun c => (f.otherEntry c.node c.entry).map fun e => { c with entry := e, via := viaNode c.node e }).zipIdx.map
    fun p => { p.1 with ivc := ivc + p.2 + 1 }

/-- A packet sent again under a new encryption counter, since its route flit is another (R270, R344); none where no other entry lives, or its key
is gone. [DESIGN CHOICE log 126] -/
def Fabric.resend (f : Fabric) (now : Nat) (q : Request) : Option (Fabric × Request) :=
  let clear := fun (g : Fabric) => { g with claims := g.claims.filter fun c => c.cargo != Cargo.packet q.id }
  let old := f.ivcOf q.keyid.toNat
  if q.kind = .multicast then
    let cs := f.moveCopies old q.copies
    if cs.isEmpty then none
    else (f.spend now q.keyid.toNat 0 cs.length).map fun g =>
      let kept := q.copies.filter fun c => !cs.any fun d => d.member == c.member
      let r := { q with copies := kept ++ cs, resent := true }
      ((clear g).claimCopies r (cs.map fun c => outPort c.node c.entry), r)
  else
    match f.otherEntry q.dest q.entry with
    | none => none
    | some e => (f.spend now q.keyid.toNat 0 1).map fun g =>
      let r := { q with entry := e, via := viaNode q.dest e, ivc := old + 1, resent := true }
      ((clear g).claimPacket r, r)

/-- An exact packet without a completion 5 µs after its TIME is sent again, once, on another live entry (R344). [DESIGN CHOICE log 126] -/
def execPacketResend (id : Nat) (s : State) : Out :=
  match s.fab.request? id with
  | none => .next s
  | some q =>
    if !q.injected || q.resent || q.host || q.block.isSome || s.time < q.time + 5000 then .next s
    else
      match s.fab.resend s.time q with
      | none => .next s
      | some (f, r) => .next ({ s with fab := f }.updRequest id fun _ => r)

/-! ### A request at its destination (R345, R346) -/

/-- What a request meets at its destination. -/
inductive Arrival where
  | fails (status : Nat)
  | held
  | ok
  deriving DecidableEq, Repr

/-- The access that a request makes there (R102). -/
def reqAccess : ReqKind → Access
  | .read => .load
  | .write | .multicast | .leg _ => .store
  | .atomic .. => .atomic
  | .fe .swe _ | .fe .sf _ | .fe .se _ => .store
  | .fe .none _ | .fe .lwf _ | .fe .lwt _ => .load

/-- The parts of a range that lie on one 8 KiB page each; a packet's payload crosses one boundary at most. -/
def pageParts (va : Word) (n : Nat) : List (Word × Nat) :=
  let k := Nat.min n (8192 - va.toNat % 8192)
  if k < n then [(va, k), (va + wd k, n - k)] else [(va, n)]

/-- What a range of n bytes on one page meets in the translation of an owner, for a request from outside (R345). One that reads waits
for every pending update to its lines (R126). -/
def State.remotePlace (s : State) (owner : Nat) (acc : Access) (fe : Bool) (va : Word) (n : Nat) : Arrival :=
  if !canonical va then .fails 3
  else
    match translate s.ms s.tick (s.own.ownerOr owner) va acc with
    | .at pa l =>
      if hostSpace pa then .fails 3
      else if pteRepl l.entry && fe then .fails 4
      else if s.ms.movingAt pa || (pteRepl l.entry && acc != .store && s.ms.pendingAt pa n) then .held else .ok
    | .remote .. | .page => .fails 3
    | .perm _ => .fails 4
    | .held => .held
    | .unbacked => .fails 6

/-- The first of several outcomes that is not `ok`. -/
def Arrival.first : List Arrival → Arrival
  | [] => .ok
  | .ok :: r => Arrival.first r
  | a :: _ => a

/-- The address of a request: 53 bits (R264). -/
def reqVa (r : RemoteReq) : Word := addr53 (r.addr.setWidth 53)

def reqIsFe : ReqKind → Bool
  | .fe .. => true
  | .read | .write | .atomic .. | .multicast | .leg _ => false

/-- A leg of a collective is held by the router, and meets no translation (R275, R358). -/
def reqIsLeg : ReqKind → Bool
  | .leg _ => true
  | .read | .write | .atomic .. | .fe .. | .multicast => false

/-- The status that a request meets (R345): too late, its key unknown or its tag false, or its translation. [DEDUCED log 96] -/
def State.arrival (s : State) (r : RemoteReq) : Arrival :=
  let limit := if r.kind = .multicast then 6000 else 10000
  if r.time + limit < s.time then .fails 2
  else if (s.fab.key? r.keyid).isNone || !r.good then .fails 5
  else if reqIsLeg r.kind then .ok
  else
    Arrival.first ((pageParts (reqVa r) r.bytes).map fun p => s.remotePlace (s.keyOwner r.keyid) (reqAccess r.kind) (reqIsFe r.kind) p.1 p.2)

/-- The physical address and leaf of an address whose translation serves. -/
def State.placeAt (s : State) (owner : Nat) (acc : Access) (va : Word) : Option (Nat × Leaf) :=
  match translate s.ms s.tick (s.own.ownerOr owner) va acc with
  | .at pa l => some (pa, l)
  | .remote .. | .page | .perm _ | .held | .unbacked => none

/-- Bytes written at home, on one page, by an agent outside the cores (7 host, 8 peer). -/
def State.writeHome (s : State) (owner agent : Nat) (va : Word) (bs : List Byte) : State :=
  match s.placeAt owner .store va with
  | none => s
  | some (pa, l) =>
    let t := s.markSpot owner .store (.mem va)
    let ms := if pteRepl l.entry then { t.ms with pending := t.ms.pending ++ [{ pa := pa, data := bs }] }
      else (t.ms.recallRange pa bs.length).put pa bs
    { t with ms := ms, scr := t.scr.invalidateRange pa bs.length }.logCopies (pteRepl l.entry) agent owner 1 pa

/-- Bytes read at home, on one page. -/
def State.readHome (s : State) (owner agent : Nat) (va : Word) (n : Nat) : State × List Byte :=
  match s.placeAt owner .load va with
  | none => (s, List.replicate n 0)
  | some (pa, _) =>
    let t := s.markSpot owner .load (.mem va)
    let t := { t with ms := t.ms.recallRange pa n }
    (t.logAccess agent owner 0 pa, readBytes t.ms.mem (t.ms.homeAddr pa) n)

/-- A range that may cross a page, written and read part by part. -/
def State.writeParts (s : State) (owner agent : Nat) (bs : List Byte) : List (Word × Nat) → State
  | [] => s
  | (va, n) :: r => (s.writeHome owner agent va (bs.take n)).writeParts owner agent (bs.drop n) r

def State.readParts (s : State) (owner agent : Nat) : List (Word × Nat) → State × List Byte
  | [] => (s, [])
  | (va, n) :: r =>
    let q := s.readHome owner agent va n
    let u := q.1.readParts owner agent r
    (u.1, q.2 ++ u.2)

/-- What an answer bears of a request. -/
def peerOf (r : RemoteReq) : PeerRef :=
  { src := r.src, id := r.id, sagent := r.sagent, pseq := r.pseq, keyid := r.keyid, weight := r.weight, addr := r.addr }

/-- The completion sent to a peer: a read or atomic response, a multicast acknowledgement, or a completion (R264). -/
def State.answerPeer (s : State) (r : RemoteReq) (status : Nat) (data : List Byte) : State :=
  let kind := match r.kind with
    | .read => 2
    | .atomic .. => 4
    | .multicast => 9
    | .write | .fe .. | .leg _ => 6
  s.answerTo (peerOf r) kind status data

/-- The operation of an atomic's code (R164). -/
def amoOf : Nat → AmoOp
  | 0 => .swap | 1 => .add | 2 => .and | 3 => .or | 4 => .xor | 5 => .min | 6 => .max | 7 => .minu | 8 => .maxu | 9 => .cas
  | _ => .fadd

/-- An atomic performed at home for an agent outside the cores: state and old value (R106). -/
def State.amoHome (s : State) (owner agent : Nat) (va : Word) (n : Nat) (op : AmoOp) (b cmp : Nat) : State × Nat :=
  match s.placeAt owner .atomic va with
  | none => (s, 0)
  | some (pa, l) =>
    let t := s.markSpot owner .atomic (.mem va)
    let ms := t.ms.recallRange pa n
    let old := readLE ms.mem (ms.homeAddr pa) n
    let ms := match (amoNew op n old b cmp).1 with
      | none => ms
      | some v => if pteRepl l.entry then ms.putCopies pa (leBytes n v) else ms.put pa (leBytes n v)
    ({ t with
      ms := ms
      scr := if pteRepl l.entry then t.scr.dropCopies pa n else t.scr.invalidateRange pa n }.logCopies (pteRepl l.entry) agent owner 2 pa, old)

/-- Whether an atomic may merge with another of its operation (R277). -/
def AmoOp.merges : AmoOp → Bool
  | .swap | .cas => false
  | .add | .and | .or | .xor | .min | .max | .minu | .maxu | .fadd => true

/-- A full/empty request at home: performed, or listed with the limit it carries (R107, R108, R332); none while the list is
full. -/
def State.feHome (s : State) (r : RemoteReq) (mode : FeMode) (limit : Nat) : Option State :=
  let owner := s.keyOwner r.keyid
  match s.placeAt owner (reqAccess r.kind) (reqVa r) with
  | none => some s
  | some (pa, _) =>
    let t := s.markSpot owner (reqAccess r.kind) (.mem (reqVa r))
    let t := { t with ms := t.ms.recall pa }
    let data := wd (leNat (r.data.take 8))
    if feReady t.ms.mem (t.ms.homeAddr pa) mode then
      let q := fePerform t.ms false pa mode data
      let u := { t with ms := q.1, scr := t.scr.invalidate pa }.answerPeer r 0 (leBytes 8 q.2.toNat)
      some ((u.feSettle pa).logAccess 8 owner (boolNat (reqAccess r.kind).writes) pa)
    else if t.ms.retryFull pa then none
    else
      let e : RetryEntry :=
        { ctl := homeCtl (t.ms.homeAddr pa), owner := owner, who := none, peer := peerOf r, limit := s.time + limit,
          pa := t.ms.homeAddr pa, mode := mode, data := data,
          moved := false }
      some { t with ms := { t.ms with retry := t.ms.retry ++ [e] } }

/-- Whether an atomic request meets a WINDOW page and may wait there for a partner (R106, R277). [DEDUCED log 98] -/
def State.mayMerge (s : State) (r : RemoteReq) (op : AmoOp) : Bool :=
  op.merges && match s.placeAt (s.keyOwner r.keyid) .atomic (reqVa r) with
    | none => false
    | some (_, l) => pteApl l.entry == 2

/-- A request served: performed and answered, or answered with its status; none while its place is held. -/
def State.serve (s : State) (r : RemoteReq) : Option State :=
  match s.arrival r with
  | .held => none
  | .fails status => some (s.answerPeer r status [])
  | .ok =>
    let owner := s.keyOwner r.keyid
    let parts := pageParts (reqVa r) r.bytes
    match r.kind with
    | .read =>
      let q := s.readParts owner 8 parts
      some (q.1.answerPeer r 0 q.2)
    | .leg _ => some (s.answerPeer r 0 [])
    | .write | .multicast => some ((s.writeParts owner 8 r.data parts).answerPeer r 0 [])
    | .atomic op cmp =>
      if s.mayMerge r (amoOf op) then
        some { s with fab := { s.fab with
          merging := s.fab.merging ++ [{ num := s.fab.nextId, port := r.port, reqs := [(s.fab.nextId, r)], since := s.time }]
          nextId := s.fab.nextId + 1 } }
      else
        let q := s.amoHome owner 8 (reqVa r) r.bytes (amoOf op) (leNat r.data) cmp.toNat
        some (q.1.answerPeer r 0 (leBytes r.bytes q.2))
    | .fe mode limit => s.feHome r mode limit

/-- A request from a peer arrives and is served (R345). [DESIGN CHOICE log 10] -/
def execRemoteRequest (r : RemoteReq) (s : State) : Out := .next ((s.serve r).getD s)

/-! ### Order and lateness (R267, R344) -/

/-- A LATE record for a packet delivered more than 3 µs after its TIME, at most one for each key ID in a ms (R344). -/
def State.noteLate (s : State) (r : RemoteReq) : State :=
  match s.fab.key? r.keyid with
  | none => s
  | some k =>
    if s.time ≤ r.time + 3000 || (k.lateAt != 0 && s.time < k.lateAt + 1000000) then s
    else
      let t := s.report (errRec Err.late (s.keyOwner r.keyid) r.addr (wd r.keyid) (wd (s.time - r.time)))
      { t with fab := { t.fab with
          keys := updFirst (fun q => q.keyid == r.keyid) (fun q => { q with lateAt := s.time }) t.fab.keys } }

def Fabric.order? (f : Fabric) (src sagent : Nat) : OrderKey :=
  (f.order.find? fun k => k.src == src && k.sagent == sagent).getD { src := src, sagent := sagent, next := 0, early := [] }

def Fabric.setOrder (f : Fabric) (k : OrderKey) : Fabric :=
  { f with order := k :: f.order.filter fun q => !(q.src == k.src && q.sagent == k.sagent) }

/-- A packet delivered in its turn; none while its place is held. -/
def State.deliverNext (s : State) (k : OrderKey) (r : RemoteReq) : Option State :=
  match (s.noteLate r).serve r with
  | none => none
  | some t =>
    some { t with fab := t.fab.setOrder { k with next := (k.next + 1) % 2^16, early := k.early.filter fun e => e.1 != k.next } }

/-- Whether an atomic of an ordering key is held for a partner: the packets after it are not delivered before it (R267, R277). -/
def Fabric.atomicHeld (f : Fabric) (src sagent : Nat) : Bool :=
  f.merging.any fun m => m.reqs.any fun q => q.2.src == src && q.2.sagent == sagent

/-- The packets of a key that have waited in the reorder store, delivered in turn. -/
def State.deliverEarly (s : State) (src sagent : Nat) : (fuel : Nat) → State
  | 0 => s
  | fuel + 1 =>
    let k := s.fab.order? src sagent
    match (if s.fab.atomicHeld src sagent then none else k.early.find? fun e => e.1 == k.next) with
    | none => s
    | some e =>
      match s.deliverNext k e.2 with
      | none => s
      | some t => t.deliverEarly src sagent fuel

/-- The packets that wait in the reorder store. -/
def Fabric.storeLoad (f : Fabric) : Nat := (f.order.map fun k => k.early.length).sum

/-- An exact packet arrives, its header bearing SAGENT and PSEQ: delivered in PSEQ order, kept while early or while its place is held, discarded
where its number was delivered (R267, R344). An early one that finds the reorder store full is discarded too.
[DESIGN CHOICE log 10, DESIGN CHOICE log 129] -/
def execPacketDeliver (sagent pseq : Nat) (r : RemoteReq) (s : State) : Out :=
  let r := { r with sagent := sagent, pseq := pseq }
  let k := s.fab.order? r.src r.sagent
  let t := if (r.pseq + 2^16 - k.next) % 2^16 ≥ 2^15 || k.early.any (fun e => e.1 == r.pseq)
      || (r.pseq != k.next && decide (4096 ≤ s.fab.storeLoad)) then s
    else { s with fab := s.fab.setOrder { k with early := k.early ++ [(r.pseq, r)] } }
  .next (t.deliverEarly r.src r.sagent (k.early.length + 1))

/-- The packets of every key that wait for their places, tried again. -/
def State.deliverKept (s : State) : State :=
  s.fab.order.foldl (fun t k => t.deliverEarly k.src k.sagent k.early.length) s

/-! ### Atomics that merge (R277) -/

/-- Whether two requests are atomics of one operation, address, size and key ID. -/
def sameAtomic (a b : RemoteReq) : Bool :=
  match a.kind, b.kind with
  | .atomic p _, .atomic q _ => p == q && a.addr == b.addr && a.bytes == b.bytes && a.keyid == b.keyid && (amoOf p).merges
  | _, _ => false

/-- Requests in ascending input port, arrival order within a port. -/
def byPort (l : List (Nat × RemoteReq)) (r : Nat × RemoteReq) : List (Nat × RemoteReq) :=
  let before := fun (q : Nat × RemoteReq) => q.2.port < r.2.port || (q.2.port == r.2.port && q.1 < r.1)
  l.takeWhile before ++ r :: l.dropWhile before

/-- A router merges the atomics it holds under two numbers, neither of which has waited for more than 32 ns. [DEDUCED log 98] -/
def execAtomicMerge (i j : Nat) (s : State) : Out :=
  match s.fab.merging.find? fun m => m.num == i, s.fab.merging.find? fun m => m.num == j with
  | some a, some b =>
    match a.reqs, b.reqs with
    | p :: _, q :: _ =>
      if i = j || !sameAtomic p.2 q.2 || a.since + 32 < s.time || b.since + 32 < s.time then .next s
      else
        let m := { a with reqs := b.reqs.foldl byPort a.reqs, since := Nat.min a.since b.since }
        .next { s with fab := { s.fab with
          merging := (s.fab.merging.filter fun x => x.num != j).map fun x => if x.num == i then m else x } }
    | _, _ => .next s
  | _, _ => .next s

/-- The combination of operands, one rounding for each `fadd`. [DEDUCED log 98] -/
def combine (op : AmoOp) (n : Nat) : List Nat → Nat
  | [] => 0
  | x :: r => r.foldl (fun acc y => ((amoNew op n acc y 0).1).getD acc) x

/-- The old value each issuer receives: the reply's, combined with the operands of the issuers before it. [DEDUCED log 98] -/
def issuerOlds (op : AmoOp) (n : Nat) : (old : Nat) → List Nat → List Nat
  | _, [] => []
  | old, x :: r => old :: issuerOlds op n (((amoNew op n old x 0).1).getD old) r

/-- A held atomic goes on, after 32 ns at the latest, as one atomic of the merged operands; each issuer is answered. [DEDUCED log 98] -/
def execAtomicMergeTimeout (i : Nat) (s : State) : Out :=
  match s.fab.merging.find? fun m => m.num == i with
  | none => .next s
  | some m =>
    let gone := { s with fab := { s.fab with merging := s.fab.merging.filter fun x => x.num != i } }
    match m.reqs with
    | [] => .next gone
    | (_, r) :: _ =>
      if s.time < m.since + 32 && !Config.atomicForwarded s.tick i then .next s
      else
        match s.arrival r, r.kind with
        | .held, _ => .next s
        | .fails st, _ => .next (m.reqs.foldl (fun t q => t.answerPeer q.2 st []) gone)
        | .ok, .atomic op _ =>
          let xs := m.reqs.map fun q => leNat q.2.data
          let q := gone.amoHome (s.keyOwner r.keyid) 8 (reqVa r) r.bytes (amoOf op) (combine (amoOf op) r.bytes xs) 0
          .next ((m.reqs.zip (issuerOlds (amoOf op) r.bytes q.2 xs)).foldl
            (fun t p => t.answerPeer p.1.2 0 (leBytes r.bytes p.2)) q.1)
        | .ok, _ => .next gone

/-! ### Lossy transfers at the destination (R272, R273) -/

/-- What a block's range meets at the destination. -/
def State.blockPlace (s : State) (owner : Nat) (va : Word) (n : Nat) : Arrival :=
  Arrival.first ((pageParts va n).map fun p => s.remotePlace owner .store false p.1 p.2)

/-- The address of block k. -/
def LossyXfer.blockAt (x : LossyXfer) (k : Nat) : Word := addr53 (x.addr.setWidth 53) + wd (256 * k)

def LossyXfer.valid (x : LossyXfer) (k : Nat) : Bool := x.blocks.any fun b => b.blk == k && b.good

/-- Zeros over every block not received valid, from block k on, and the first of them whose range fails; none while a range is
held. [DEDUCED log 97] -/
def State.zeroBlocks (s : State) (x : LossyXfer) (owner : Nat) (k : Nat) : (n : Nat) → Option (State × Option (Nat × Nat))
  | 0 => some (s, none)
  | n + 1 =>
    if x.valid k then s.zeroBlocks x owner (k + 1) n
    else
      match s.blockPlace owner (x.blockAt k) 256 with
      | .held => none
      | .fails st =>
        match s.zeroBlocks x owner (k + 1) n with
        | none => none
        | some (t, _) => some (t, some (k, st))
      | .ok =>
        (s.writeParts owner 8 (List.replicate 256 0) (pageParts (x.blockAt k) 256)).zeroBlocks x owner (k + 1) n

/-- The mask word of a transfer. -/
def LossyXfer.mask (x : LossyXfer) : Nat := (((List.range x.nblk).filter x.valid).map fun k => 2^k).sum

/-- The mask stored full at its word, or its REMOTE record (R273). [DEDUCED log 97] -/
def State.storeMask (s : State) (x : LossyXfer) (owner : Nat) : Option State :=
  let va := x.blockAt x.nblk
  match s.remotePlace owner .store true va 8 with
  | .held => none
  | .fails st => some (s.report (errRec Err.remote owner va (wd st) (wd x.src)))
  | .ok =>
    match s.placeAt owner .store va with
    | none => some s
    | some (pa, _) =>
      let t := (s.markSpot owner .store (.mem va)).commitAll
      let ms := (t.ms.recall pa).put pa (leBytes 8 x.mask)
      let ms := { ms with mem := setFull ms.mem (ms.homeAddr pa) true }
      some ({ t with ms := ms, scr := t.scr.invalidate pa }.feSettle pa)

/-- A transfer closed: zeros, the record of its first failed block, and the mask, ordered after every block. [DEDUCED log 97] -/
def State.closeLossy (s : State) (x : LossyXfer) : Option State :=
  let owner := s.keyOwner x.keyid
  match s.zeroBlocks x owner 0 x.nblk with
  | none => none
  | some (t, bad) =>
    let t := match bad with
      | none => t
      | some (k, st) => t.report (errRec Err.remote owner (x.blockAt k) (wd st) (wd x.src))
    match t.storeMask x owner with
    | none => none
    | some u =>
      some { u with fab := { u.fab with
        lossy := u.fab.lossy.filter fun y => !(y.src == x.src && y.xfer == x.xfer)
        shut := (x.src, x.xfer, x.time) :: u.fab.shut.filter fun y => u.time < y.2.2 + 1500 } }

def Fabric.lossy? (f : Fabric) (src xfer : Nat) : Option LossyXfer := f.lossy.find? fun x => x.src == src && x.xfer == xfer

/-- A block of a lossy transfer arrives before its cutoff: written where it is valid and its range serves. The last valid block
closes the transfer, and a block that comes after is dropped (R272). [DEDUCED log 97, DESIGN CHOICE log 12] -/
def execLossyBlockArrive (b : LossyBlock) (s : State) : Out :=
  let fresh : LossyXfer :=
    { src := b.src, xfer := b.xfer, keyid := b.keyid, addr := b.addr - wd (256 * b.blk), nblk := b.nblk, time := b.time, blocks := [] }
  let x := (s.fab.lossy? b.src b.xfer).getD fresh
  if b.time + 1500 ≤ s.time || s.fab.shut.contains (b.src, b.xfer, b.time) || x.blocks.any (fun c => c.blk == b.blk) || x.nblk ≤ b.blk
      || 64 < x.nblk then .next s
  else
    let owner := s.keyOwner x.keyid
    let sound := b.good && (s.fab.key? b.keyid).isSome && b.keyid == x.keyid
    let place := if sound then s.blockPlace owner (x.blockAt b.blk) 256 else .fails 5
    if place = .held then .next s
    else
      let ok := sound && place == .ok
      let t := if ok then s.writeParts owner 8 b.data (pageParts (x.blockAt b.blk) 256) else s
      let y := { x with blocks := x.blocks ++ [{ b with good := ok }] }
      let t := { t with fab := { t.fab with
        lossy := y :: t.fab.lossy.filter fun z => !(z.src == b.src && z.xfer == b.xfer) } }
      if (List.range y.nblk).all y.valid then .next ((t.closeLossy y).getD t) else .next t

/-- The cutoff of a transfer: TIME + 1.5 µs (R272). -/
def execLossyClose (src xfer : Nat) (s : State) : Out :=
  match s.fab.lossy? src xfer with
  | none => .next s
  | some x => if x.time + 1500 ≤ s.time || (List.range x.nblk).all x.valid then .next ((s.closeLossy x).getD s) else .next s

/-! ### Links (R343, R344) -/

/-- A flit arrives. One of the exact or management class that fails its CRC, or that follows a gap, is discarded, and a replay is asked for from
the first LSEQ that is lacking; a lossy one that fails is dropped, outside the replay (R343). One that finds no buffer waits at the sending
port (R268). [DESIGN CHOICE log 95, DESIGN CHOICE log 12] -/
def execFlitReceive (port : Nat) (f : Flit) (s : State) : Out :=
  let p := s.fab.port port
  if !s.fab.portActive port || 3 ≤ f.cls then .next s
  else if f.cls = 1 then
    match p.takeBuffer f with
    | some q => .next (if f.good then { s with fab := s.fab.setPort q } else s)
    | none => .next s
  else if f.good && f.lseq = p.expect then
    match p.takeBuffer f with
    | some q => .next { s with fab := s.fab.setPort { q with expect := (p.expect + 1) % 1024, asked := none } }
    | none => .next s
  else .next { s with fab := s.fab.setPort { p with asked := some p.expect } }

/-- The peer asks for a replay from an LSEQ, which acknowledges the flits before it: those from it on are sent again, in order. A peer that
asks again for the same shows that the last replay failed. [DESIGN CHOICE log 95] -/
def execReplayRequest (port lseq : Nat) (s : State) : Out :=
  let p := s.fab.port port
  if !s.fab.portActive port then .next s
  else
    let rest := p.replay.dropWhile fun f => f.lseq != lseq
    .next { s with fab := s.fab.setPort { p with
      replay := rest
      again := rest
      lastReq := some lseq
      failures := if p.lastReq = some lseq then p.failures + 1 else 0
      replays := (p.replays.filter fun t => s.time < t + 1000000) ++ [s.time] } }

/-- A lossy block that waits to leave is dropped. -/
def State.loseBlock (s : State) (id : Nat) : State :=
  match s.fab.request? id with
  | none => s
  | some q =>
    if q.block.isSome then
      ({ s with fab := { s.fab with
        requests := s.fab.requests.filter fun r => r.id != id
        claims := s.fab.claims.filter fun c => c.cargo != Cargo.packet id } } : State).settleIssuer q
    else s

/-- The blocks that have waited at a port past their TIME + 1.5 µs are dropped (R272). -/
def State.dropLate (s : State) (port : Nat) : State :=
  let late := s.fab.requests.filter fun q => q.block.isSome && q.time + 1500 < s.time
    && s.fab.claims.any fun c => c.arb == port && c.cargo == Cargo.packet q.id
  late.foldl (fun t q => t.loseBlock q.id) s

/-- What waited at a port whose link has left service: exact packets stay at the source, to be sent again; blocks are lost; completions take
another path (R344). [DESIGN CHOICE log 116] -/
def State.clearPort (s : State) (port : Nat) : State :=
  let gone := s.fab.claims.filter fun c => c.arb == port
  let t := { s with fab := { s.fab with claims := s.fab.claims.filter fun c => c.arb != port } }
  gone.foldl (fun t c => match c.cargo with
    | .packet id => t.loseBlock id
    | .answer d id => match t.fab.sent.find? fun a => a.peer.src == d && a.peer.id == id with
      | some a => { t with fab := { t.fab with sent := removeFirst (fun b => b == a) t.fab.sent }.claimAnswer a }
      | none => t
    | .host _ | .window .. => t) t

/-- A link leaves service after 8 failed replays in a row, or 64 replays in 1 ms: its router entries are dead, and LINKDOWN is
written. -/
def execLinkOutOfService (port : Nat) (s : State) : Out :=
  let p := s.fab.port port
  if !s.fab.portActive port || p.dead || (p.failures < 8 && (p.replays.filter fun t => s.time < t + 1000000).length < 64) then .next s
  else
    let t := ({ s with fab := s.fab.setPort { p with dead := true, replay := [], again := [] } } : State).clearPort port
    .next (t.report (errRec Err.linkDown 0 (wd port) (wd (Config.portPeer port)) (wd s.time)))

/-- Firmware retrains port 35 onto the peer of its named link, which the routers then treat as the link itself. -/
def execSpareRetrain (s : State) : Out :=
  let p := s.fab.port spareLink
  let q := s.fab.port 35
  if !p.dead || q.spareOf.isSome || spareLink = 35 then .next s
  else
    let f := s.fab.setPort { p with dead := false, failures := 0, replays := [], lastReq := none, expect := 0, lseq := 0 }
    .next { s with fab := f.setPort { q with spareOf := some spareLink } }

/-! ### Time (R278) -/

/-- A time flit leaves by a port. [DESIGN CHOICE log 95] -/
def Port.sendTimeFlit (p : Port) (time : Nat) : Port :=
  let f : Flit := { lseq := 0, keyid := 0, weight := 0, cls := 2, first := true, last := true, good := true }
  if p.dead || !p.holds [f] then p else { p.send [f] with fwFree := Nat.max p.fwFree (100 * time) + 72 * 10000 / 112 }

/-- Once in each µs a time flit, which bears the module's time, leaves by every port that carries a link (R265, R278). [DESIGN CHOICE log 95] -/
def Fabric.timeFlits (f : Fabric) (ready : Bool) (time : Nat) : Fabric :=
  let due := ready && decide (f.flitAt / 1000 < time / 1000)
  { f with
    ports := if due then
        (((List.range 36).filter f.portActive).foldl (fun g n => g.setPort ((g.port n).sendTimeFlit time)) f).ports
      else f.ports
    flitAt := if due then time else f.flitAt }

/-- A time flit: a module whose first launch has not started adopts the reference time; later its own time is steered toward it. Two modules
differ by at most 40 ns, so that no flit says more (R278). -/
def execTimeFlit (ref : Nat) (s : State) : Out :=
  let d : Int := ref - s.time
  if !s.disp.begun then .next { s with time := Nat.max s.time ref }
  else if 40 < d.natAbs then .next s
  else .next { s with fab := { s.fab with lag := d } }

/-- The device time that a step adds where its own count of ns goes from a to b, and what is left to steer: 1 ns at most is gained or lost in
10,000 (R278). -/
def steered (lag : Int) (a b : Nat) : Nat × Int :=
  let n := b - a
  let k := Nat.min lag.natAbs (b / 10000 - a / 10000)
  if 0 < lag then (n + k, lag - k) else (n - k, lag + k)

/-! ### Full/empty requests of peers (R332, R346) -/

/-- The entries of peers whose limit has run out, withdrawn and answered; a held page's entries do not count on (R331), and a pass in
the nanosecond of the limit goes first (R332). [DEDUCED log 99] -/
def State.withdrawPeers (s : State) : State :=
  let out := fun (e : RetryEntry) => e.who.isNone && !e.moved && decide (e.limit < s.time)
  if s.ms.retry.any out then
    (s.ms.retry.filter out).foldl (fun t e => t.answerTo e.peer 6 2 [])
      { s with ms := { s.ms with retry := s.ms.retry.filter fun e => !out e } }
  else s

end Sys2Proof.Machine
end

