-- ==== Sys2Proof/Machine/Collective.lean ====
section
/-! DEFINITION. Multicast stores and collectives (11 R229 to R233; 13 R274 to R276; 20 R347, R348; 21 R357, R358), and the injection
of packets, which serves both and the requests of Fabric. What 21 R360 gives as the end state of its program follows from execColl and
execCollwait here, with State.takeHeld, State.giveResult and State.finishColl, and from execPldm, execVresc and execVst. -/

namespace Sys2Proof.Machine

open Sys2Proof

/-! ### Multicast groups (R274) -/

/-- The record of a group; one never written is all zeros. -/
def Fabric.group (f : Fabric) (n : Nat) : McGroup := (f.groups.find? fun g => g.num == n).getD { num := n, words := [], count := 0 }

def Fabric.setGroup (f : Fabric) (g : McGroup) : Fabric := { f with groups := g :: f.groups.filter fun h => h.num != g.num }

/-- The word of a record at an offset. -/
def McGroup.word (g : McGroup) (off : Nat) : Word := getAt 0 (off / 8) g.words

def McGroup.members (g : McGroup) : Nat := Nat.min 64 (field (g.word 0) 0 7)
def McGroup.size (g : McGroup) : Nat := field (g.word 8) 0 53
def McGroup.node (g : McGroup) (i : Nat) : Nat := field (g.word (0x10 + 16 * i)) 0 11
def McGroup.base (g : McGroup) (i : Nat) : Word := addr53 ((g.word (0x18 + 16 * i)).setWidth 53)

/-- A module's member index: the lowest i with its node number. -/
def McGroup.index? (g : McGroup) (self : Nat) : Option Nat := (List.range g.members).find? fun i => g.node i == self

/-- The bits of a list of members. -/
def memberBits (l : List Nat) : Word := wd (l.map fun i => 2^i).sum

/-! ### `stmc` (R230, R347) -/

/-- The store of this module's own members, at their own home: the members that failed (statuses 3, 4 and 6); none while a place
is held. -/
def State.storeOwn (s : State) (g : McGroup) (owner : Nat) (off data : Word) : List Nat → Option (State × List Nat)
  | [] => some (s, [])
  | i :: r =>
    let va := g.base i + off
    match s.remotePlace owner .store false va 8 with
    | .held => none
    | .fails _ =>
      match s.storeOwn g owner off data r with
      | none => none
      | some (t, l) => some (t, i :: l)
    | .ok => (s.writeHome owner 4 va (leBytes 8 data.toNat)).storeOwn g owner off data r

/-- The signature of a multicast store in a dual run: one write at each member's address (R258). [DEDUCED log 83] -/
def State.signMembers (s : State) (g : McGroup) (off data : Word) : State :=
  (List.range g.members).foldl (fun t i => t.signStore (g.base i + off) (leBytes 8 data.toNat)) s

/-- The nodes of a record's members. -/
def McGroup.nodes (g : McGroup) : List Nat := (List.range g.members).map g.node

/-- The copies of a multicast store for members, each with the next number of its module's ordering key (R267). -/
def Fabric.numberCopies (f : Fabric) (g : McGroup) (sagent : Nat) (off : Word) : List Nat → Fabric × List McCopy
  | [] => (f, [])
  | i :: r =>
    let n := g.node i
    let c : McCopy := { member := i, node := n, addr := g.base i + off, pseq := f.nextPseq sagent n, entry := 0, via := n, ivc := 0 }
    let q := (f.bumpPseq sagent n).numberCopies g sagent off r
    (q.1, c :: q.2)

/-- The request that carries a multicast store to the other members, and the wait for its merged reply. -/
def State.multicast (s : State) (grp : Nat) (g : McGroup) (off data : Word) (others : List Nat) (failed : Word) : State :=
  let agent := s.co.num * 16 + 15
  let q := s.fab.numberCopies g agent off others
  let t := s.sendTo (.multicast s.rk.key s.rk.run s.cx.num) .multicast grp agent s.cx.cr.keyid off (memberBits others) 8 data
    (s.time + 8000) s.owner
  let t := { t with fab := { t.fab with pseqs := q.1.pseqs } }
  (t.updRequest s.fab.nextId fun r => { r with failed := failed, nodes := g.nodes, copies := q.2 }).waitFor (.remote s.fab.nextId)

/-- The store of a `stmc` whose operands are sound. Run 1 of a dual run stores nothing, and no member fails it (R257). -/
def State.multicastStore (s : State) (d : Reg) (grp : Nat) (off : Word) : Out :=
  let g := s.fab.group grp
  let data := s.x d
  let t := s.signMembers g off data
  if s.dry then t.result d 0
  else
    let own := (List.range g.members).filter fun i => g.node i == s.node.toNat
    let others := (List.range g.members).filter fun i => g.node i != s.node.toNat
    match t.storeOwn g (s.keyOwner s.cx.cr.keyid.toNat) off data own with
    | none => .next (s.waitFor .held)
    | some (u, bad) =>
      if others.isEmpty then u.result d (memberBits bad)
      else .next (u.multicast grp g off data others (memberBits bad))

/-- `stmc` (R230). -/
def execStmc (d a b : Reg) (_la : Fin 16) (s : State) : Out :=
  let off := s.x a
  let grp := field (s.x b) 0 12
  match s.cx.answer with
  | some v => s.result d v
  | none =>
    if s.awaiting then .next s
    else if misaligned off 8 then .next (s.trap Cause.operand off)
    else if !zeroAt (s.x b) 12 52 then .next (s.trap Cause.operand (s.x b))
    else if (s.fab.group grp).size < off.toNat + 8 then .next (s.trap Cause.operand off)
    else if s.own.holder 0x08 grp != s.owner then .next (s.trap Cause.resource (descriptor 0x08 grp))
    else s.multicastStore d grp off

/-- A list without repeats. -/
def distinct (l : List Nat) : List Nat := l.foldl (fun q c => setAdd c q) []

/-- A multicast store accepted by the source router, once its rate and the order of each member's key allow, which copies it to each port on
its minimal paths; members without a live path fail at once (R267, R274, R345, R347). [DEDUCED log 96] -/
def State.injectMulticast (s : State) (q : Request) : State :=
  let bad := s.unreachedMembers (fun i => q.nodes.getD i 0) q.local_
  let live := q.copies.filter fun c => !bitAt bad c.member
  match (if s.fab.keyBusy q then none else s.fab.spend s.time q.keyid.toNat 8 live.length) with
  | none => s
  | some f =>
    let ivc := s.fab.ivcOf q.keyid.toNat
    let cs : List McCopy := live.zipIdx.map fun p => { p.1 with ivc := ivc + p.2 + 1 }
    let r := { q.accepted s.time 0 (f.ivcOf q.keyid.toNat) (s.weightOf q) with failed := q.failed ||| bad, copies := cs }
    { s with fab := f.claimCopies r (cs.map fun (c : McCopy) => outPort c.node c.entry) }.updRequest q.id fun _ => r

/-- A packet, or a whole lossy transfer, enters the fabric (R269). -/
def execPacketInject (id : Nat) (s : State) : Out :=
  match s.fab.request? id with
  | none => .next s
  | some q =>
    if q.injected then .next s
    else if q.kind = .multicast then .next (s.injectMulticast q) else .next (s.injectRequest q)

/-- A multicast store ends with its failure bitmap. -/
def State.endMulticast (s : State) (q : Request) (failed : Word) : State :=
  { s with fab := { s.fab with requests := s.fab.requests.filter fun r => r.id != q.id } }.answerRequest q
    (q.failed ||| (failed &&& q.local_))

/-- The merged reply of a `stmc` arrives (R230). -/
def execStmcReply (id : Nat) (failed : Word) (s : State) : Out :=
  match s.fab.request? id with
  | none => .next s
  | some q => if q.kind = .multicast && s.fab.left q then .next (s.endMulticast q failed) else .next s

/-- At TIME + 7 µs a router marks the members below a branch that it still waits for; by TIME + 8 µs the `stmc` completes, and where no branch was
ever named, no member has answered (R347). -/
def execStmcAckTimeout (id : Nat) (branch : Word) (s : State) : Out :=
  match s.fab.request? id with
  | none => .next s
  | some q =>
    if q.kind != .multicast || !q.injected || s.time < q.time + 7000 then .next s
    else if s.time < q.time + 8000 then
      .next (s.updRequest id fun r =>
        { r with failed := r.failed ||| (branch &&& r.local_), marked := r.marked || branch &&& r.local_ != 0 })
    else .next (s.endMulticast q (if !q.marked && branch &&& q.local_ = 0 then q.local_ else branch))

/-! ### The descriptor of a collective (R231) -/

def Collective.op (c : Collective) : Nat := field c.words[0] 0 4
def Collective.rop (c : Collective) : Nat := field c.words[0] 4 4
def Collective.type (c : Collective) : Nat := field c.words[0] 8 4
def Collective.lossy (c : Collective) : Bool := bitAt c.words[0] 12
def Collective.root (c : Collective) : Nat := field c.words[0] 16 6
def Collective.src (c : Collective) : Word := addr53 (c.words[1].setWidth 53)
def Collective.dst (c : Collective) : Word := addr53 (c.words[2].setWidth 53)
def Collective.bytes (c : Collective) : Nat := field c.words[3] 0 32
def Collective.maskAddr (c : Collective) : Word := addr53 (c.words[4].setWidth 53)
def Collective.cntAddr (c : Collective) : Word := addr53 (c.words[5].setWidth 53)
def Collective.blocks (c : Collective) : Nat := c.bytes / 256

/-- The members of the record as it was at the `coll`'s commit (R274), and this module's index there. -/
def Collective.members (c : Collective) : Nat := c.desc.members
def Collective.index (c : Collective) (self : BitVec 11) : Nat := (c.desc.index? self.toNat).getD 0

/-- The bytes of an element of a collective's type. -/
def collWidth (type : Nat) : Nat :=
  match type with
  | 3 => 8
  | 4 => 2
  | _ => 4

/-- Whether a descriptor breaks the table of R231 or the sizes of R232, for a group of n members. -/
def collBroken (w : Vector Word 8) (n : Nat) : Bool :=
  let op := field w[0] 0 4
  let rop := field w[0] 4 4
  let type := field w[0] 8 4
  let lossy := bitAt w[0] 12
  let root := field w[0] 16 6
  let bytes := field w[3] 0 32
  let unit := if op = 1 then n * collWidth type else collWidth type
  3 < op || 2 < rop || (2 ≤ op && rop != 0) || type < 2 || 5 < type || !zeroAt w[0] 13 3 || !zeroAt w[0] 22 10 || !zeroAt w[0] 44 20
    || (if op = 3 then n ≤ root else root != 0)
    || !zeroAt w[1] 53 11 || !zeroAt w[2] 53 11 || !zeroAt w[3] 32 32 || unit = 0 || bytes % unit != 0
    || (if lossy then
          op != 0 || rop != 0 || type != 5 || bytes % 256 != 0 || 16384 < bytes || !zeroAt w[4] 53 11 || field w[4] 0 3 != 0
            || !zeroAt w[5] 53 11 || field w[5] 0 2 != 0
        else w[4] != 0 || w[5] != 0)
    || w[6] != 0 || w[7] != 0

/-- The bytes a collective writes to DST (R232). -/
def Collective.dstBytes (c : Collective) (n : Nat) : Nat :=
  match c.op with
  | 1 => c.bytes / n
  | 2 => n * c.bytes
  | _ => c.bytes

/-! ### Elements and legs (R232, R275, R357) -/

/-- The elements of a list of bytes. -/
def elementsOf (w : Nat) : (n : Nat) → List Byte → List Nat
  | 0, _ => []
  | n + 1, bs => leNat (bs.take w) :: elementsOf w n (bs.drop w)

/-- One combination of two elements, the left from the lower members (R232, R275). -/
def combineElem (type rop a b : Nat) : Nat :=
  let w := 8 * collWidth type
  if type < 4 then
    let x := BitVec.ofNat w a
    let y := BitVec.ofNat w b
    (match rop with
      | 0 => x + y
      | 1 => maxS x y
      | _ => minS x y).toNat
  else
    let f := if type = 4 then bf16 else fp32
    match rop with
    | 0 => (f.addV 0 (f.value a) (f.value b)).1
    | 1 => (f.pick false a b).1
    | _ => (f.pick true a b).1

/-- The identity with which padding enters (R275). -/
def identityElem (type rop : Nat) : Nat :=
  let w := 8 * collWidth type
  if type < 4 then
    match rop with
    | 0 => 0
    | 1 => 2^(w - 1)
    | _ => 2^(w - 1) - 1
  else
    let f := if type = 4 then bf16 else fp32
    match rop with
    | 0 => f.signed true 0
    | 1 => f.signed true f.infCode
    | _ => f.signed false f.infCode

/-- The bytes of two operands combined element by element. -/
def combineData (type rop n : Nat) (a b : List Byte) : List Byte :=
  let w := collWidth type
  ((elementsOf w (n / w) a).zip (elementsOf w (n / w) b)).flatMap fun q => leBytes w (combineElem type rop q.1 q.2)

/-- Counts added block by block. -/
def addCounts (n : Nat) (a b : List Nat) : List Nat := (List.range n).map fun k => a.getD k 0 + b.getD k 0

/-- The data of a lossy leg with zeros for every block of count 0. -/
def zeroLost (counts : List Nat) (data : List Byte) : (blk n : Nat) → List Byte
  | _, 0 => []
  | k, n + 1 =>
    (if counts.getD k 0 = 0 then List.replicate 256 0 else (data.drop (256 * k)).take 256) ++ zeroLost counts data (k + 1) n

/-- A padding leg, and a leg that is lost whole. -/
def Collective.padding (c : Collective) (first level : Nat) : Leg :=
  { first := first, level := level, time := c.time, counts := List.replicate c.blocks 0
    data := (List.replicate (c.bytes / collWidth c.type) (leBytes (collWidth c.type) (identityElem c.type c.rop))).flatten }

def Collective.lostLeg (c : Collective) (first level : Nat) : Leg :=
  { first := first, level := level, time := c.time, counts := List.replicate c.blocks 0, data := List.replicate c.bytes 0 }

/-- The combination of two legs, formed now. -/
def Collective.combineLegs (c : Collective) (now : Nat) (a b : Leg) : Leg :=
  { first := a.first, level := a.level + 1, time := now, data := combineData c.type c.rop c.bytes a.data b.data
    counts := addCounts c.blocks a.counts b.counts }

/-- The members below a leg. -/
def legMembers (first level : Nat) : List Nat := (List.range (2^level)).map fun k => first + k

/-- The depth of the tree: log2 of the least power of two that is n or more (R275). -/
def treeDepth (n : Nat) : Nat := ((List.range 7).find? fun d => n ≤ 2^d).getD 6

def Collective.leg? (c : Collective) (first level : Nat) : Option Leg :=
  c.legs.find? fun l => l.first == first && l.level == level

/-- Whether a leg's cutoff has passed, so that its partner is no longer awaited (R357). -/
def Collective.closed (c : Collective) (now : Nat) : Option Leg → Bool
  | none => false
  | some l => c.lossy && l.time + 1500 ≤ now

/-- The first member of the leg that a leg is combined with. -/
def partnerOf (first level : Nat) : Nat := if first / 2^level % 2 = 0 then first + 2^level else first - 2^level

/-- A leg as it is taken in: a lossy block of count 0 is zeros, and a lossy leg is lost whole after its own cutoff, or where it begins to arrive
after its partner's (R357). -/
def Collective.takeLeg (c : Collective) (now : Nat) (l : LegIn) : Leg :=
  let late := l.time + 1500 ≤ now || c.closed now (c.leg? (partnerOf l.first l.level) l.level)
  let counts := if late then List.replicate c.blocks 0 else l.counts
  if c.lossy then
    { first := l.first, level := l.level, time := l.time, counts := counts, data := zeroLost counts l.data 0 c.blocks }
  else { first := l.first, level := l.level, time := l.time, counts := [], data := l.data }

/-- Whether a leg shares a member with one in hand. -/
def Collective.overlaps (c : Collective) (first level : Nat) : Bool :=
  c.legs.any fun l => first < l.first + 2^l.level && l.first < first + 2^level

/-- The legs in hand with an arriving one, if the tree has room for it. -/
def Collective.withLeg (now n : Nat) (c : Collective) (l : LegIn) : Collective :=
  if l.level ≤ 6 && l.first % 2^l.level == 0 && l.first < n && !c.overlaps l.first l.level then
    { c with legs := c.legs ++ [c.takeLeg now l] }
  else c

/-- The legs in hand with the arriving ones. -/
def Collective.withLegs (c : Collective) (now n : Nat) (legs : List LegIn) : Collective := legs.foldl (Collective.withLeg now n) c

/-- Whether every block of a leg has been received or lost: none of a lossy leg is lacking, or its cutoff has passed (R357). A block that counts
nobody is awaited as one that is lacking. [DEDUCED log 101] -/
def Collective.whole (c : Collective) (now : Nat) (l : Leg) : Bool := !c.lossy || l.counts.all (fun k => k != 0) || c.closed now (some l)

/-- The two inputs of combination j of a level, where both are here whole, are padding, or are lost. -/
def Collective.inputs (c : Collective) (now n level j : Nat) : Option (Leg × Leg) :=
  let f := j * 2^(level + 1)
  let g := f + 2^level
  match c.leg? f level, c.leg? g level with
  | some a, some b => if c.whole now a && c.whole now b then some (a, b) else none
  | some a, none =>
    if n ≤ g then (if c.whole now a then some (a, c.padding g level) else none)
    else if c.closed now (some a) then some (a, c.lostLeg g level) else none
  | none, some b => if c.closed now (some b) then some (c.lostLeg f level, b) else none
  | none, none => none

/-- The legs after a combination of the tree, if its inputs are there. -/
def Collective.combined (c : Collective) (now n level j : Nat) : Collective :=
  match c.inputs now n level j with
  | none => c
  | some (a, b) =>
    { c with legs := (c.legs.filter fun l => !(l.level == level && (l.first == a.first || l.first == b.first)))
        ++ [c.combineLegs now a b] }

/-! ### State of collectives -/

def Fabric.coll? (f : Fabric) (id : Nat) : Option Collective := f.colls.find? fun c => c.id == id

def State.updColl (s : State) (id : Nat) (f : Collective → Collective) : State :=
  { s with fab := { s.fab with colls := updFirst (fun c => c.id == id) f s.fab.colls } }

/-- The parts of a range that lie on one 8 KiB page each. -/
def rangeParts (va : Word) : (fuel n : Nat) → List (Word × Nat)
  | 0, _ => []
  | fuel + 1, n =>
    if n = 0 then []
    else
      let k := Nat.min n (8192 - va.toNat % 8192)
      (va, k) :: rangeParts (va + wd k) fuel (n - k)

def partsOf (va : Word) (n : Nat) : List (Word × Nat) := rangeParts va (n / 8192 + 2) n

/-- Whether a collective can reach every part of a range, or the trouble; memory off this module serves none (reason 3),
and a read waits for every pending update to its lines (R126). [DEDUCED log 102] -/
def State.collReach (s : State) (owner : Nat) (acc : Access) : List (Word × Nat) → Option Trouble
  | [] => none
  | (va, n) :: r =>
    match s.site owner acc (.mem va) with
    | .ok (.here pa repl) => if repl && !acc.writes && s.ms.pendingAt pa n then some .later else s.collReach owner acc r
    | .ok (.tile _) | .ok (.host _) | .ok (.remote ..) | .error (.noHost ..) => some (.bad 3 va)
    | .error e => some e

/-- An element of a leg. -/
def Leg.elem (l : Leg) (w k : Nat) : List Byte := (l.data.drop (w * k)).take w

/-- An element of a reduction over some of the legs in hand, if any. [DESIGN CHOICE log 100] -/
def Collective.partElem (c : Collective) (tick w at_ : Nat) : Option (List Byte) :=
  match c.legs.filter fun l => Config.faultedSubset tick l.first with
  | [] => none
  | l :: r => some (leBytes w (r.foldl (fun a m => combineElem c.type c.rop a (leNat (m.elem w at_))) (leNat (l.elem w at_))))

/-- Element k of DST where all that a fault may leave there is in this module: the result's, where that is here; an all-gather's, where its
member's leg is; else a reduction over some of the legs, where every member's is here. None where data is elsewhere. [DESIGN CHOICE log 100] -/
def Collective.elemHere (c : Collective) (tick i k : Nat) : Option (Option (List Byte)) :=
  let w := collWidth c.type
  let at_ := if c.op = 1 then i * (c.bytes / c.members) / w + k else k
  match c.result with
  | some l => some (some (l.elem w at_))
  | none =>
    if c.op = 2 then (c.leg? (w * k / c.bytes) 0).map fun l => some (l.elem w (k - w * k / c.bytes * (c.bytes / w)))
    else if c.op = 3 then (c.leg? c.root 0).map fun l => some (l.elem w at_)
    else if (List.range c.members).all fun m => c.overlaps m 0 then some (c.partElem tick w at_)
    else none

/-- Element k of DST after a fault (R348), as a choice that is left open: its old value (none); what this module has for it; a reduction over some
of the legs in hand; or, where data of other members enters, a free value. [DESIGN CHOICE log 100] -/
def Collective.faultedElem (c : Collective) (tick i k : Nat) : Option (List Byte) :=
  let w := collWidth c.type
  if Config.faultedChoice tick k = 0 then none
  else
    match c.elemHere tick i k with
    | some e => e
    | none =>
      if Config.faultedChoice tick k = 1 && c.op ≤ 1 then c.partElem tick w (if c.op = 1 then i * (c.bytes / c.members) / w + k else k)
      else some (leBytes w (Config.faultedElement tick k))

/-- DST after a fault, element by element, where its page serves (R348). [DESIGN CHOICE log 100] -/
def State.faultedDst (s : State) (c : Collective) : State :=
  let r := s.rankOf c.key c.run
  let w := collWidth c.type
  if r.id.dual && c.run == 1 then s
  else
    (List.range (c.dstBytes c.members / w)).foldl (fun t k =>
      match c.faultedElem t.tick (c.index t.node) k with
      | none => t
      | some bs =>
        let parts := partsOf (c.dst + wd (w * k)) w
        if (t.collReach c.owner .engineWrite parts).isNone then t.writeParts c.owner 4 bs parts else t) s

/-- A collective faults (R348): bit 23, STATE 3, COLLFAULT. -/
def State.collFault (s : State) (c : Collective) (reason : Nat) (missing : Word) : State :=
  let t := { s with
    fab := { s.fab with colls := s.fab.colls.filter fun d => d.id != c.id }
    disp := { s.disp with records := dropWaiters (fun _ w => w == Waiter.coll c.id) s.disp.records } }
  let t := t.faultedDst c
  let t := t.updRank c.key c.run fun r => (r.updTicket .coll 0 c.seq fun t => { t with state := 3 }).faulted 2
  t.report { errRec Err.collFault c.owner (ticketWord 0 c.seq) missing (wd (c.group + 2^16 * reason)) with
    core := (s.rankOf c.key c.run).core, ctx := c.ctx }

/-- What a collective does about a trouble with its own translation: a fault record it waits on, fault-lock of its context, or its
fault with reason 2 or 3 (R306, R309, R348). [DEDUCED log 36, DEDUCED log 102] -/
def State.collTrouble (s : State) (c : Collective) : Trouble → State
  | .later | .noHost .. => s
  | .bad reason _ => s.collFault c reason 0
  | .replay va cause acc pin =>
    if pin then s.inContext c.key c.run c.ctx fun t => t.faultLock cause va
    else
      let r := s.rankOf c.key c.run
      let words := faultWords acc cause 4 va 0 c.owner r.core c.ctx c.key.rank s.time (ticketWord 0 c.seq)
      match s.postFault c.ring (some (c.key, c.run, c.ctx)) (.coll c.id) c.owner va cause words with
      | .held => s
      | .done t num => t.updColl c.id fun c => { c with record := some num, ring := none }
      | .ringFull =>
        match c.ring with
        | none => s.updColl c.id fun c => { c with ring := some ⟨s.time, va, cause, acc, s.tick⟩ }
        | some w =>
          if w.since + 1000000 ≤ s.time && !s.haltedRank c.key c.run then
            (s.report { errRec Err.faultDeny c.owner va 0 0 with core := (s.rankOf c.key c.run).core, ctx := c.ctx }).collFault c 2 0
          else s
      | .badQueue => s.inContext c.key c.run c.ctx fun t => t.faultLock cause (addr53 (s.own.ownerOr c.owner).faultq)

/-- The bytes of a range read on the CL path, from home. -/
def State.collRead (s : State) (owner : Nat) (parts : List (Word × Nat)) : State × List Byte :=
  parts.foldl (fun q p =>
    let t := q.1.markSpot owner .engineRead (.mem p.1)
    match t.placeAt owner .engineRead p.1 with
    | none => (t, q.2 ++ List.replicate p.2 0)
    | some (pa, _) =>
      let t := { t with ms := t.ms.recallRange pa p.2 }
      (t.logAccess 4 owner 4 pa, q.2 ++ readBytes t.ms.mem (t.ms.homeAddr pa) p.2)) (s, [])

/-! ### Legs sent (R264, R275, R276, R357) -/

/-- One packet of a leg: its bytes from an offset on, or a block of a lossy transfer. [DEDUCED log 101] -/
def State.legPacket (s : State) (c : Collective) (result : Bool) (dest off : Nat) (bs : List Byte) (block : Option (Nat × Nat × Nat)) : State :=
  let t := s.sendTo (.leg c.id) (.leg result) dest ((s.rankOf c.key c.run).core * 16 + 15) c.keyid (wd off) 0 bs.length 0
    (s.time + 20000) c.owner
  let t := if block.isSome then { t with fab := { t.fab with pseqs := s.fab.pseqs } } else t
  t.updRequest s.fab.nextId fun q => { q with payload := bs, block := block }

/-- A leg sent to a module: a lossy transfer, or exact packets of up to 4 KiB (R264, R276). [DEDUCED log 101] -/
def State.sendLeg (s : State) (c : Collective) (result : Bool) (l : Leg) (dest : Nat) : State :=
  if c.lossy then
    let x := s.fab.nextXfer
    (List.range c.blocks).foldl
      (fun t k => t.legPacket c result dest (256 * k) ((l.data.drop (256 * k)).take 256) (some (x % 2^16, k, c.blocks)))
      { s with fab := { s.fab with nextXfer := x + 1 } }
  else
    (List.range (Nat.max 1 ((l.data.length + 4095) / 4096))).foldl
      (fun t k => t.legPacket c result dest (4096 * k) ((l.data.drop (4096 * k)).take 4096) none) s

/-- Whether the routers may open the payloads of a key ID, and so combine legs on their way (R271, R275). -/
def Fabric.opens (f : Fabric) (keyid : BitVec 10) : Bool := ((f.key? keyid.toNat).map FabricKey.open_).getD false

/-- The legs that a member other than 0 has in hand travel to member 0's module, unless a router that may open them holds them for a
partner (R275, R357). [DEDUCED log 101] -/
def State.forwardLegs (s : State) (id : Nat) : State :=
  match s.fab.coll? id with
  | none => s
  | some c =>
    if c.op = 3 || c.index s.node = 0 || (s.fab.opens c.keyid && Config.legHeld s.tick id) then s
    else (c.legs.foldl (fun t l => t.sendLeg c false l (c.desc.node 0)) s).updColl id fun c => { c with legs := [] }

/-- A collective's contribution made: its SRC read once (R232). The members of a broadcast other than its root have none. [DEDUCED log 101] -/
def State.contribute (s : State) (c : Collective) : State :=
  let i := c.index s.node
  if c.sent || c.record.isSome then s
  else if c.op = 3 && c.root != i then s.updColl c.id fun c => { c with sent := true, time := s.time }
  else
    let parts := partsOf c.src c.bytes
    match c.ring.map RingWait.trouble <|> s.collReach c.owner .engineRead parts with
    | some e => s.collTrouble c e
    | none =>
      let q := s.collRead c.owner parts
      let leg : Leg := { first := i, level := 0, time := s.time, data := q.2, counts := List.replicate c.blocks 1 }
      (q.1.updColl c.id fun c => { c with sent := true, time := s.time, legs := c.legs ++ [leg] }).forwardLegs c.id

/-! ### The end of a collective (R232, R233, R357) -/

/-- What is written: DST, and for a lossy collective CNT and MASK. -/
def Collective.writes (c : Collective) (n i : Nat) (l : Leg) : List (Word × List Byte) :=
  let k := c.bytes / n
  if c.lossy then
    let b := c.blocks
    let mask := (((List.range b).filter fun j => l.counts.getD j 0 != 0).map fun j => 2^j).sum
    let cnts := (List.range b).flatMap fun j => leBytes 4 (convFromInt32 0 (l.counts.getD j 0)).1
    [(c.dst, zeroLost l.counts l.data 0 b), (c.cntAddr, cnts), (c.maskAddr, leBytes 8 mask)]
  else
    match c.op with
    | 1 => [(c.dst, (l.data.drop (i * k)).take k)]
    | _ => [(c.dst, l.data.take (c.dstBytes n))]

/-- The bytes written part by part; run 1 of a dual run signs them alone (R257, R258). -/
def State.collWrite (s : State) (c : Collective) (va : Word) (bs : List Byte) : State :=
  let r := s.rankOf c.key c.run
  let t := if r.id.dual then
      s.updRank c.key c.run fun r => { r with sig := r.sig + signWrite (addressed (va.toNat % 2^64) bs) }
    else s
  if r.id.dual && c.run == 1 then t else t.writeParts c.owner 4 bs (partsOf va bs.length)

/-- A collective whose result is here writes it, and ends with STATE 2. -/
def State.finishColl (s : State) (id : Nat) : State :=
  match s.fab.coll? id with
  | none => s
  | some c =>
    match c.result with
    | none => s
    | some l =>
      if c.record.isSome then s
      else
        let ws := c.writes c.members (c.index s.node) l
        match c.ring.map RingWait.trouble <|> s.collReach c.owner .engineWrite (ws.flatMap fun w => partsOf w.1 w.2.length) with
        | some e => s.collTrouble c e
        | none =>
          let t := ws.foldl (fun t w => t.collWrite c w.1 w.2) s
          let t := { t with fab := { t.fab with colls := t.fab.colls.filter fun d => d.id != id } }
          let n := c.dstBytes c.members
          t.updRank c.key c.run fun r => r.updTicket .coll 0 c.seq fun t => { t with state := 2, done := n, total := n }

/-- A collective has its result leg. -/
def State.giveResult (s : State) (id : Nat) (l : Leg) : State :=
  (s.updColl id fun c => { c with result := some l }).finishColl id

/-- When a lossy collective closes without its result (R358). -/
def Collective.closes (c : Collective) : Nat := c.time + (treeDepth c.members + 1) * 1500

/-- A lossy collective closes with every block lost (R358). -/
def State.loseResult (s : State) (c : Collective) : State := s.giveResult c.id (c.lostLeg 0 (treeDepth c.members))

/-- The root has the result: it is sent to every other module of the group, and written here, unless it comes too late here (R275, R357, R358). -/
def State.rootResult (s : State) (c : Collective) (l : Leg) : State :=
  let t := ((distinct c.desc.nodes).filter fun d => d != s.node.toNat).foldl (fun t d => t.sendLeg c true l d) s
  if c.lossy && c.closes ≤ s.time then t.loseResult c else t.giveResult c.id l

/-- The members of a leg, in a bitmap (R348). -/
def Collective.legBits (c : Collective) (first level : Nat) : Word :=
  memberBits ((legMembers first level).filter fun i => i < c.members)

/-- A result that has come for a collective: an exact one whose status is not OK faults it (R348). -/
def State.resultHere (s : State) (c : Collective) (good : Bool) (l : Leg) : State :=
  if !c.lossy && !good then s.collFault c 0 (c.legBits l.first l.level) else s.giveResult c.id l

/-- A result held for a collective that has just committed is taken up; where it is past its TIME + 1.5 µs, every block is lost (R358).
[DEDUCED log 101] -/
def State.takeHeld (s : State) (id : Nat) : State :=
  match s.fab.coll? id with
  | none => s
  | some c =>
    match s.fab.results.find? fun h => h.group == c.group && h.count == c.count with
    | none => s
    | some h =>
      let t := ({ s with fab := { s.fab with
          results := s.fab.results.filter fun x => !(x.group == c.group && x.count == c.count) } } : State)
      if c.lossy && h.time + 1500 ≤ s.time then t.loseResult c else t.resultHere c h.good h.leg

/-- The legs that came before their collective committed are taken in, each as it stood when it came (R357). [DEDUCED log 101] -/
def State.takeEarly (s : State) (id : Nat) : State :=
  let mine := s.fab.earlyLegs.filter fun e => e.1 == id
  let t := { s with fab := { s.fab with earlyLegs := s.fab.earlyLegs.filter fun e => id < e.1 } }
  match t.fab.coll? id with
  | none => t
  | some c =>
    match (if c.lossy then none else mine.find? fun e => !e.2.2.good) with
    | some e => t.collFault c 0 (c.legBits e.2.2.first e.2.2.level)
    | none => t.updColl id fun c => mine.foldl (fun c e => Collective.withLeg e.2.1 c.members c e.2.2) c

/-! ### `coll` and `collwait` (R231 to R233) -/

/-- A `coll` commits: it takes the group's next count and a ticket, and makes its contribution. -/
def State.postColl (s : State) (grp : Nat) (w : Vector Word 8) : State :=
  let g := s.fab.group grp
  let id := s.fab.nextId
  let c : Collective :=
    { id := id, key := s.rk.key, run := s.rk.run, ctx := s.cx.num, seq := s.rk.nextSeq .coll 0, group := grp, count := g.count,
      desc := g, words := w, owner := s.owner, keyid := s.cx.cr.keyid, time := s.time, sent := false, legs := [], result := none, failed := [],
      record := none, ring := none }
  let f := s.fab.setGroup { g with count := g.count + 1 }
  let t := { s with fab := { f with colls := f.colls ++ [c], nextId := id + 1 } }
  let t := t.updRank s.rk.key s.rk.run fun r => r.issue .coll 0 1 (c.dstBytes g.members)
  ((t.contribute c).takeEarly id).takeHeld id

/-- `coll` (R231): its descriptor is read once, at commit. [DEDUCED log 102] -/
def execColl (d a : Reg) (_la : Fin 16) (s : State) : Out :=
  let va := s.x a
  if misaligned va 64 then .next (s.trap Cause.misalign va)
  else
    let s := s.keepAnswer
    match s.lineFrom s.owner .load (dieOf s.co.num) va s.cx.lanes with
    | .error e => .next (s.graphTrouble .load e)
    | .ok (ws, _) =>
      let s := s.markWords s.owner 4 (dieOf s.co.num) .load va 8
      let w : Vector Word 8 := Vector.ofFn fun i => ws.getD i.val 0
      let grp := field w[0] 32 12
      let g := s.fab.group grp
      if collBroken w g.members || (g.index? s.node.toNat).isNone then .next (s.trap Cause.operand va)
      else if s.own.holder 0x08 grp != s.owner then .next (s.trap Cause.resource (descriptor 0x08 grp))
      else
        let t := s.postColl grp w
        .next (t.setX d (ticketWord 0 (s.rk.nextSeq .coll 0))).advance

/-- `collwait` (R233). -/
def execCollwait (d a : Reg) (_la : Fin 16) (s : State) : Out :=
  let w := s.x a
  if !zeroAt w 35 29 then .next (s.trap Cause.operand w)
  else
    match (if bitAt w 34 && zeroAt w 32 2 then findTicket .coll 0 (field w 0 32) s.rk.tickets else none) with
    | none => s.result d 0
    | some (t, later) =>
      if t.outstanding then .next (s.waitFor .collwait)
      else
        let u := s.updRank s.rk.key s.rk.run fun r =>
          { r with tickets := r.tickets.map fun q => if q.isAt .coll 0 t.seq then { q with taken := true } else q }
        u.result d (statusWord (recentAged later) t.state t.done)

/-! ### Events of a collective (R348, R357, R358) -/

/-- The collective that an event works on, its contribution made first if that is still to do. -/
def State.collReady (s : State) (id : Nat) : State × Option Collective :=
  match s.fab.coll? id with
  | none => (s, none)
  | some c =>
    let t := s.contribute c
    (t, t.fab.coll? id)

/-- Legs arrive at member 0's module, or at a router that may open them, and combination j of a level is formed where its inputs allow it; an
exact leg whose status is not OK faults the collective (R275, R348, R357). Legs of a collective that is yet to commit are held. [DEDUCED log 101] -/
def execCollCombine (id level j : Nat) (legs : List LegIn) (s : State) : Out :=
  match s.collReady id with
  | (t, none) =>
    if t.fab.nextId ≤ id then
      .next { t with fab := { t.fab with earlyLegs := t.fab.earlyLegs ++ legs.map fun l => (id, t.time, l) } }
    else .next t
  | (t, some c) =>
    if c.op = 3 || !(c.index t.node == 0 || (t.fab.opens c.keyid && c.op ≤ 1)) then .next (t.forwardLegs id)
    else
      match (if c.lossy then none else legs.find? fun l => !l.good) with
      | some l => .next (t.collFault c 0 (c.legBits l.first l.level))
      | none =>
        let d := c.withLegs t.time c.members legs
        let d := if c.op ≤ 1 then d.combined t.time c.members level j else d
        .next ((t.updColl id fun _ => d).forwardLegs id)

/-- The contributions of an all-gather, one after the other, once all of them are at member 0. [DEDUCED log 101] -/
def Collective.joined (c : Collective) (n : Nat) : Option Leg :=
  let l := (List.range n).filterMap fun k => c.leg? k 0
  if l.length < n then none
  else some { first := 0, level := treeDepth n, time := c.time, data := l.flatMap Leg.data, counts := [] }

/-- The result that this module itself has: member 0's, of a reduction or an all-gather, or the root's data in a broadcast. -/
def Collective.ownResult (c : Collective) (n i : Nat) : Option Leg :=
  match c.op with
  | 0 | 1 => if i = 0 then c.leg? 0 (treeDepth n) else none
  | 2 => if i = 0 then c.joined n else none
  | _ => if c.root = i then c.leg? i 0 else none

/-- The collective of a group and count, where it has committed here. -/
def Fabric.matching (f : Fabric) (group count : Nat) : Option Collective :=
  f.colls.find? fun c => c.group == group && c.count == count

/-- A result arrives, or this module's own is complete; one that is early for its `coll` is held (R357, R358). -/
def execCollResult (group count : Nat) (leg : Option LegIn) (s : State) : Out :=
  match s.fab.matching group count with
  | none =>
    match leg with
    | none => .next s
    | some l =>
      let early := (s.fab.group group).count ≤ count
        && !s.fab.results.any fun h => h.group == group && h.count == count
      if early then
        let h : HeldResult :=
          { group := group, count := count, time := l.time, good := l.good
            leg := { first := l.first, level := l.level, time := l.time, data := l.data, counts := l.counts } }
        .next { s with fab := { s.fab with results := s.fab.results ++ [h] } }
      else .next s
  | some c =>
    match s.collReady c.id with
    | (t, none) => .next t
    | (t, some c) =>
      if !c.sent || c.result.isSome then .next (t.finishColl c.id)
      else
        match leg with
        | none =>
          match c.ownResult c.members (c.index t.node) with
          | none => .next t
          | some l => .next (t.rootResult c l)
        | some l =>
          if c.lossy && c.closes ≤ t.time then .next (t.loseResult c) else .next (t.resultHere c l.good (c.takeLeg t.time l))

/-- The members whose legs are missing: the root of a broadcast; those that member 0 lacks; at another member those that the event names, and
where it names none a free value (R348). [DEDUCED log 101] -/
def Collective.missing (c : Collective) (n i tick : Nat) (named : Word) : Word :=
  if c.op = 3 then wd (2^c.root)
  else if i = 0 then memberBits ((List.range n).filter fun k => !c.overlaps k 0)
  else (if named = 0 then Config.missingMembers tick c.id else named) &&& wd (2^n - 1)

/-- An exact collective one of whose legs was answered with another status than OK faults, and so does one without its legs 20 µs after this
module's contribution (R348). [DEDUCED log 101] -/
def execCollFaultTimeout (id : Nat) (missing : Word) (s : State) : Out :=
  match s.fab.coll? id with
  | none => .next s
  | some c =>
    if !c.lossy && !c.failed.isEmpty then
      .next (s.collFault c 0 (memberBits ((List.range c.members).filter fun i => c.failed.contains (c.desc.node i))))
    else if c.lossy || !c.sent || c.result.isSome || s.time < c.time + 20000 then .next s
    else .next (s.collFault c 0 (c.missing c.members (c.index s.node) s.tick missing))

/-- A held result of a lossy collective is discarded at its TIME + 1.5 µs: only that it was lost is kept, for its late `coll` (R358).
[DEDUCED log 101] -/
def execCollHeldDiscard (group count : Nat) (s : State) : Out :=
  .next { s with fab := { s.fab with
    results := s.fab.results.map fun (h : HeldResult) =>
      if h.group == group && h.count == count && !h.leg.counts.isEmpty && decide (h.time + 1500 ≤ s.time) then
        { h with leg := { h.leg with data := [], counts := h.leg.counts.map fun _ => 0 } }
      else h } }

/-- A lossy collective whose result has not come by its contribution's TIME + (D + 1) × 1.5 µs ends with every block lost
(R358). -/
def execCollCloseTimeout (id : Nat) (s : State) : Out :=
  match s.fab.coll? id with
  | none => .next s
  | some c =>
    if !c.lossy || !c.sent || c.result.isSome || s.time < c.closes then .next s else .next (s.loseResult c)

end Sys2Proof.Machine
end

