-- ==== Sys2Proof/Machine/Flow.lean ====
section
/-! DEFINITION. Branches and jumps (08 R156 to R158). -/

namespace Sys2Proof.Machine

open Sys2Proof

/-- Pc plus a signed number of words. -/
def State.target {n : Nat} (s : State) (off : BitVec n) : Word := s.insnPc + off.signExtend 64 * 4

/-- A branch: to its target where the condition holds, else to the next instruction (R156). -/
def State.branch {n : Nat} (s : State) (c : Bool) (off : BitVec n) : Out :=
  .next (if c then s.goTo (s.target off) else s.advance)

/-- `beq` (R156). -/
def execBeq (a b : Reg) (off : BitVec 13) (s : State) : Out := s.branch (s.x a == s.x b) off

/-- `bne` (R156). -/
def execBne (a b : Reg) (off : BitVec 13) (s : State) : Out := s.branch (s.x a != s.x b) off

/-- `blt` (R156): less, signed. -/
def execBlt (a b : Reg) (off : BitVec 13) (s : State) : Out := s.branch ((s.x a).slt (s.x b)) off

/-- `bge` (R156): greater or equal, signed. -/
def execBge (a b : Reg) (off : BitVec 13) (s : State) : Out := s.branch ((s.x b).sle (s.x a)) off

/-- `bltu` (R156): less, unsigned. -/
def execBltu (a b : Reg) (off : BitVec 13) (s : State) : Out := s.branch ((s.x a).ult (s.x b)) off

/-- `bgeu` (R156): greater or equal, unsigned. -/
def execBgeu (a b : Reg) (off : BitVec 13) (s : State) : Out := s.branch ((s.x b).ule (s.x a)) off

/-- `jal` (R157): X[1] := Pc + 4, then the jump. -/
def execJal (off : BitVec 26) (s : State) : Out := .next ((s.setX 1 (s.insnPc + 4)).goTo (s.target off))

/-- `j` (R157). -/
def execJ (off : BitVec 26) (s : State) : Out := .next (s.goTo (s.target off))

/-- `jalr` (R157): a target that is no multiple of 4 is a MISALIGN trap at the `jalr`, X[D] unchanged (R321). -/
def execJalr (d a : Reg) (imm : BitVec 16) (s : State) : Out :=
  let t := s.x a + immW imm
  if field t 0 2 != 0 then .next (s.trap Cause.misalign t)
  else .next ((s.setX d (s.insnPc + 4)).goTo t)

/-- `bes` (R158): a branch on one bit of cr.est, sampled once. -/
def execBes (bit : Fin 64) (sense : Bool) (off : BitVec 19) (s : State) : Out :=
  s.branch (bitAt s.est bit.val == sense) off

end Sys2Proof.Machine
end

