-- ==== Sys2Proof/Machine/Reply.lean ====
section
/-! DEFINITION. How a waiting access ends: the replies to fault records and their time limit (17 R306, R309; 19 R327 to R329), the limit of
a full/empty wait (19 R332), an access to host space without a lease (20 R349), and the delivery of MXOVF (18 R325). -/

namespace Sys2Proof.Machine

open Sys2Proof

/-! ### MXOVF (R325) -/

/-- Whether the context in focus stands at an instruction boundary: nothing of its next instruction has begun. -/
def State.atBoundary (s : State) : Bool :=
  s.cx.run == .running && s.cx.wait == .none && s.cx.answer.isNone && s.cx.lanes.isEmpty && !s.cx.pair

/-- Whether the instruction in focus is to be issued, or issued again from its beginning: an event that is pending goes first (R318, R325). -/
def State.betweenIssues (s : State) : Bool :=
  s.atBoundary || (s.cx.run == .running && match s.cx.wait with
    | .held | .fetch _ => true
    | _ => false)

/-- The context in focus issues the instruction that waited on its records again, and waits on none of them any more: it joins again those whose
pages still fault (R327). [DEDUCED log 35] -/
def State.leaveRecords (s : State) : State :=
  match s.cx.wait with
  | .held =>
    let me := Waiter.context s.rk.key s.rk.run s.cx.num
    { s with disp := { s.disp with records := dropWaiters (fun _ w => w == me) s.disp.records } }
  | _ => s

/-- A pending MXOVF is taken at a boundary of its context; while HF is set it stays pending (R303, R325). -/
def execMxovf (s : State) : Out :=
  .next (if s.betweenIssues && s.cx.mx.pending && !s.cx.hf && !s.co.halted then s.leaveRecords.takeMxovf else s)

/-! ### Fault records (R306) -/

/-- A record that is no longer outstanding. [DEDUCED log 33] -/
def State.closeRecord (s : State) (f : FaultRec) : State :=
  { s with disp := { s.disp with records := s.disp.records.filter fun g => g.num != f.num } }

/-- A context that waits on a fault record is to issue its instruction again, which translates afresh. -/
def Context.retried (c : Context) : Context :=
  match c.wait with
  | .record _ => { c with wait := .held, toPost := [] }
  | _ => c

/-- REPLY 1: a waiter of the record tries its access again. Until its instruction issues again, its other records still deny it (R327). -/
def State.retryWaiter (f : FaultRec) (s : State) : Waiter → State
  | .context k run n =>
    s.updCtx k run n Context.retried
  | .channel _ =>
    { s with eng := { s.eng with
        copies := s.eng.copies.map fun c => if c.record == some f.num then { c with record := none } else c } }
  | .dispatcher q =>
    match s.queue? q with
    | none => s
    | some x =>
      let reads := x.record == some f.num
      let t := if x.progRec = some f.num then (s.updQueue q fun x => { x with progRec := none }).writeProgress q else s
      if reads then (t.updQueue q fun x => { x with record := none }).readNext q else t
  | .child n => s.readChild n
  | .coll id =>
    let t := s.updColl id fun c => { c with record := none }
    match t.fab.coll? id with
    | none => t
    | some c => if c.sent then t.finishColl id else t.contribute c

/-- REPLY 1: the accesses that wait on the record are tried again. [DEDUCED log 32] -/
def State.retryRecord (s : State) (f : FaultRec) : State :=
  f.waiters.foldl (fun t w => t.retryWaiter f w.1) (s.closeRecord f)

/-- The faulting address of the context in focus in a record posted before another, the earliest there is. [DEDUCED log 35] -/
def State.earlierFault (s : State) (f : FaultRec) : Option Word :=
  (s.disp.records.filter fun g => g.num < f.num).findSome? (FaultRec.vaOf (.context s.rk.key s.rk.run s.cx.num))

/-- A record of the context in focus is denied: its access, where the instruction still waits on its records, or has yet to be issued again
after the reply to one of them. -/
def State.denyHere (s : State) (f : FaultRec) (va : Word) : State :=
  match s.cx.wait with
  | .record _ | .recordRing _ => s.denied f.cause va
  | .held => s.denied f.cause ((s.earlierFault f).getD va)
  | .none | .retry .. | .reoffer .. | .mrcv .. | .tgwait | .wfe | .lwait | .collwait | .hjoin | .barrier .. | .soloPost _
  | .remote _ | .fetch _ | .host .. | .acceptance | .inboxSlot | .replica | .stores | .rowFill | .tileReads | .launchRead _
  | .exiting => s

/-- REPLY 2 or 3: the access of a waiter of the record is denied. -/
def State.denyWaiter (f : FaultRec) (s : State) (w : Waiter × Word) : State :=
  match w.1 with
  | .context k run n => s.inContext k run n fun t => t.denyHere f w.2
  | .channel ch =>
    match s.eng.copies.find? fun c => c.record == some f.num && c.chan == ch with
    | none => s
    | some c => s.faultCopy c 2 w.2
  | .dispatcher q =>
    match s.queue? q with
    | none => s
    | some x =>
      let t := if x.record = some f.num then s.badNext q x f.owner x.recordAddr 0x80 (f.num % 2^32) else s
      if x.progRec = some f.num then t.progressFails q else t
  | .child n =>
    match s.launch? n with
    | none => s
    | some l => s.launchBad l 0x80 (f.num % 2^32)
  | .coll id =>
    match s.fab.coll? id with
    | none => s
    | some c => s.collFault c 2 0

/-- REPLY 2 or 3: the accesses that wait on the record are denied. [DEDUCED log 32] -/
def State.denyRecord (s : State) (f : FaultRec) : State :=
  f.waiters.foldl (State.denyWaiter f) (s.closeRecord f)

/-- The hub die reads REPLY at home (R306): 0 leaves the access waiting, 1 retries it, 2 and 3 deny it. It waits while the page of the record is
moved, and for the pending updates of a replicated one (R126, R331). -/
def execFaultReplyPoll (n : Nat) (s : State) : Out :=
  match s.disp.records.find? fun f => f.num == n with
  | none => .next s
  | some f =>
    match f.slot with
    | none => .next s
    | some pa =>
      let reply := readLE s.ms.mem (s.ms.homeAddr (pa + 0x38)) 8 % 4
      .next (if s.ms.movingAt (pa + 0x38) || s.ms.pendingAt (pa + 0x38) 8 then s else if reply = 0 then s else if reply = 1 then s.retryRecord f else s.denyRecord f)

/-- Whether the core of a record's context stands halted: its time then does not count (R57). [DEDUCED log 37] -/
def State.recordHalted (s : State) (f : FaultRec) : Bool :=
  match f.who with
  | some (k, run, _) => match s.rank? k run with
    | none => false
    | some r => (s.coreAt r.core).halted
  | none => false

/-- A record unanswered for 1 ms: FAULTDENY is written, then it is denied (R306). [DEDUCED log 33, DESIGN CHOICE log 34] -/
def execFaultRecordTimeout (n : Nat) (s : State) : Out :=
  match s.disp.records.find? fun f => f.num == n with
  | none => .next s
  | some f =>
    if s.time < f.posted + 1000000 || s.recordHalted f then .next s
    else
      let at_ := f.who.bind fun w => (s.rank? w.1 w.2.1).map fun r => (r.core, w.2.2)
      let e : ErrRec := { errRec Err.faultDeny f.owner f.va (wd (f.num % 2^32)) 0 with
        core := (at_.map Prod.fst).getD 0, ctx := (at_.map Prod.snd).getD 0 }
      .next ((s.report e).denyRecord f)

/-! ### Limits (R332, R349) -/

/-- The limit and the word of a full/empty wait. -/
def feWait (w : Wait) : Option (Nat × Word) :=
  match w with
  | .retry l va | .reoffer l va => some (l, va)
  | _ => none

/-- The word whose wait has run out, of a context that has no answer yet and whose entry is not held for a move. A pass in the
nanosecond in which the limit is reached goes first (R332). -/
def State.feOver (s : State) (k : RankKey) (run : Nat) (c : Context) : Option Word :=
  match feWait c.wait with
  | none => none
  | some (l, va) =>
    if l < s.time && c.answer.isNone && !s.ms.retry.any fun e => e.who == some (k, run, c.num) && e.moved then some va else none

/-- A full/empty wait reaches cr.fewait: the entry is withdrawn, and the access takes FEWAIT with its word address (R332). The limit of
a halted core's context stands still (R57). -/
def execFewaitTimeout (k : RankKey) (ctx : Nat) (s : State) : Out :=
  let above := fun (r : Rank) => r.ctxs.any fun c => c.num == ctx && (s.feOver k r.run c).isSome
  match s.runWhere k fun r => above r && !(s.coreAt r.core).halted with
  | none => .next s
  | some r =>
    match (s.ctx? k r.run ctx).bind (s.feOver k r.run) with
    | none => .next s
    | some va =>
      let t := { s with ms := { s.ms with retry := withdrawRetry s.ms.retry fun w => w == (k, r.run, ctx) } }
      .next (t.inContext k r.run ctx fun t => t.trap Cause.feWait va)

/-- Whether a context has waited for a lease for 1 ms. -/
def State.hostOver (s : State) (c : Context) : Bool :=
  match c.wait with
  | .host _ _ since => !s.host.leased && decide (since + 1000000 ≤ s.time)
  | _ => false

/-- The waiting access of the context in focus fails with FABRIC and HOSTACCESS reason 4. [DEDUCED log 29] -/
def State.hostUnleased (s : State) : State :=
  match s.cx.wait with
  | .host pa va _ =>
    if s.eventFirst then s.takeMxovf
    else (s.report (errRec Err.hostAccess s.owner (wd pa) 4 (wd (s.lowestVf s.owner)))).trap Cause.fabric va
  | _ => s

/-- An access to host space still waits 1 ms after the lease expired (R349). -/
def execHostAccessLeaseTimeout (k : RankKey) (ctx : Nat) (s : State) : Out :=
  let above := fun (r : Rank) => r.ctxs.any fun c => c.num == ctx && s.hostOver c
  match s.runWhere k fun r => above r && !(s.coreAt r.core).halted with
  | none => .next s
  | some r => .next (s.inContext k r.run ctx State.hostUnleased)

end Sys2Proof.Machine
end

