-- ==== Sys2Proof/Machine/Moves.lean ====
section
/-! DEFINITION. Memory's own events: the commit of replicated updates (06 R126), translation flushes (05 R105), and page moves
(19 R330, R331). -/

namespace Sys2Proof.Machine

open Sys2Proof

/-! ### Replicated pages (R126) -/

/-- The oldest pending update is held by all four copies, and takes effect. -/
def execReplicaCommit (s : State) : Out :=
  match s.ms.pending with
  | [] => .next s
  | u :: r =>
    let ms := { s.ms with pending := r }
    .next { s with
      ms := ms.putCopies u.pa u.data
      scr := (copiesOf u.pa).foldl (fun c a => c.invalidateRange a u.data.length) s.scr }

/-! ### HOSTWRITE (R342, R350) -/

/-- A register write that is ignored and reported. [DEDUCED log 71] -/
def State.hostWrite (s : State) (owner off reason : Nat) (v : Word) (queue : Nat) : State :=
  s.report { errRec Err.hostWrite owner (wd off) (wd reason) v with queue := queue }

/-! ### Flushes (R105, R288) -/

/-- A translation that the owner's tables no longer hold is named by a flush. [DEDUCED log 22] -/
def MemSystem.nameKept (ms : MemSystem) (o : OwnerRec) (k : Kept) : Kept :=
  let same := match leafOf ms o (wd (k.page * 2^13)) with
    | none => false
    | some l => l.entry ||| 0x60 == k.entry ||| 0x60
  if k.owner == o.num && !same then { k with named := true } else k

/-- A flush requested for an owner names the superseded translations. [DEDUCED log 22] -/
def State.startFlush (s : State) (owner : Nat) : State :=
  let o := s.own.ownerOr owner
  { s with ms := { s.ms with kept := s.ms.kept.map (s.ms.nameKept o), flushes := setAdd owner s.ms.flushes } }

/-- Whether a page's owner may write the configuration registers: it is CFGOWN's sponsor (R288). -/
def Ownership.mayConfigure (o : Ownership) (page : Nat) : Bool :=
  let c := (o.ownerOr page).cfgown
  o.isLive c && (o.ownerOr c).sponsor == page && page != 0

/-- A write of a configuration register through a page: done for CFGOWN, or ignored with HOSTWRITE reason 6; `f` names the owner. -/
def State.configure (s : State) (page off : Nat) (v : Word) (f : State → Nat → State) : State :=
  if !s.host.ready || 4096 ≤ page then s
  else if !s.own.mayConfigure page then s.hostWrite page off 6 v 0
  else f s (s.own.ownerOr page).cfgown

/-- A FLUSH through a page (R288). -/
def execFlush (page : Nat) (s : State) : Out := .next (s.configure page 0xB8 1 State.startFlush)

/-- A flush completes: no agent of the partition uses an entry it named any more. -/
def execFlushComplete (owner : Nat) (s : State) : Out :=
  if s.ms.flushes.contains owner then
    .next { s with ms := { s.ms with
      kept := s.ms.kept.filter fun k => !(k.owner == owner && k.named)
      flushes := setRemove owner s.ms.flushes } }
  else .next s

/-! ### Page moves (R330, R331) -/

/-- The plots of a page of a move. -/
def movePlots (pa : Nat) (large : Bool) : List Nat :=
  if large then (List.range 4).map fun i => plotOf pa + i else [plotOf pa]

/-- Whether a table, or one below it, holds a replicated leaf whose four copies reach one of the plots (R110). -/
def tableReplicates (m : Memory) (plots : List Nat) : (level : Nat) → (table : Nat) → Bool
  | 0, table =>
    (List.range 1024).any fun i =>
      let e := wd (readLE m (table + 8 * i) 8)
      pteV e && !malformed e 0 && !isPointer e && pteRepl e && plots.any fun p => p / 4 == plotOf (ptePpn e * 2^13) / 4
  | level + 1, table =>
    (List.range 1024).any fun i =>
      let e := wd (readLE m (table + 8 * i) 8)
      pteV e && !malformed e (level + 1) && isPointer e && tableReplicates m plots level (ptePpn e * 2^13)

/-- Whether one of the plots is replicated in a live owner's space. [DEDUCED log 72] -/
def State.replicated (s : State) (plots : List Nat) : Bool :=
  s.own.owners.any fun o => o.live && tableReplicates s.ms.mem plots 3 o.troot

/-- Why a START is ignored: the reason of MOVEBAD (R334), the first of R330's list that holds. [DEDUCED log 72] -/
def State.moveBad (s : State) : Option Nat :=
  let v := s.ms.move
  let a := movePlots v.mvsrc v.size
  let b := movePlots v.mvdst v.size
  let like := fun (p q : Nat) =>
    plotBacked p && plotBacked q && s.own.holder 0x03 p == s.own.holder 0x03 q
      && (s.own.entry 0x03 p).mkey == (s.own.entry 0x03 q).mkey
  if v.busy || v.done then some 1
  else if !a.all (fun p => b.all fun q => like p q) then some 2
  else if v.size && (v.mvsrc % 2^23 != 0 || v.mvdst % 2^23 != 0) then some 3
  else if s.replicated (a ++ b) then some 4
  else if v.mvsrc == v.mvdst then some 5
  else none

/-- START: the move is busy, and the retry-list entries of the source page are held for it; or MOVEBAD. [DEDUCED log 72] -/
def State.startMove (s : State) : State :=
  let v := s.ms.move
  match s.moveBad with
  | some reason => s.report (errRec Err.moveBad 1 (wd v.mvsrc) (wd reason) (wd v.mvdst))
  | none =>
    let w := { v with src := v.mvsrc, dst := v.mvdst, large := v.size, busy := true, start := s.time }
    { s with ms := { s.ms with
      move := w, retry := s.ms.retry.map fun e => if w.covers e.pa then { e with moved := true } else e } }

/-- A write of MVCTL on page 1 (R330): SIZE is stored, a 1 in DONE clears it, and a 1 in START begins the move. [DEDUCED log 72] -/
def State.writeMvctl (s : State) (page : Nat) (v : Word) : State :=
  if page != 1 || !s.host.ready || !s.own.isLive page then s
  else
    let t := { s with ms := { s.ms with move := { s.ms.move with size := bitAt v 1 } } }
    let t := if bitAt v 0 then t.startMove else t
    if bitAt v 9 then { t with ms := { t.ms with move := { t.ms.move with done := false } } } else t

/-- MVCTL written with START (R330). -/
def execMoveStart (page : Nat) (v : Word) (s : State) : Out := .next (s.writeMvctl page (v ||| 1))

/-- MVCTL written with 1 in DONE (R330). -/
def execMoveDoneClear (page : Nat) (v : Word) (s : State) : Out := .next (s.writeMvctl page (v ||| 0x200))

/-- Memory after the n bytes at src, with their full/empty bits, are copied to dst. Where no plot's key has changed, only listed bytes
differ from zero. -/
def moveBytes (m : Memory) (src dst n : Nat) : Memory :=
  let m' := if m.keyed.isEmpty then
      (m.bytes.filter fun c => src ≤ c.1 && c.1 < src + n).foldl (fun k c => writeByte k (c.1 - src + dst) c.2)
        { m with bytes := m.bytes.filter fun c => !(dst ≤ c.1 && c.1 < dst + n) }
    else writeBytes m dst (readBytes m src n)
  let kept := m'.full.filter fun w => !(dst ≤ w && w < dst + n)
  let full := (m.full.filter fun w => src ≤ w && w < src + n).foldl (fun l w => setAdd (w - src + dst) l) kept
  { m' with full := full }

/-- A full/empty wait that was held for a move resumes its count (R331). -/
def Context.resumed (held : Nat) (c : Context) : Context :=
  { c with wait := match c.wait with
      | .retry l va => .retry (l + held) va
      | w => w }

/-- The stores that wait in a buffer for a page that has moved: from now on they are to its new home, as every access that the old home
forwards (R331). -/
def Core.forwardStores (ms : MemSystem) (c : Core) : Core :=
  { c with stores := c.stores.map fun (e : Buffered) => { e with pa := ms.homeAddr e.pa } }

/-- The copy ends: DONE is set, and the held entries take their places at the new home, in their order; stores in the buffers and the places
of fault records move with the page (R331). [DEDUCED log 73] -/
def State.endMove (s : State) : State :=
  let v := s.ms.move
  let n := if v.large then 2^23 else 2^13
  let held := s.time - v.start
  let ms := (s.ms.recallRange v.src n).recallRange v.dst n
  let t : State := { s with
    scr := (s.scr.invalidateRange v.src n).invalidateRange v.dst n
    ms := { ms with
      mem := moveBytes ms.mem v.src v.dst n
      move := { v with busy := false, done := true }
      retry := ms.retry.map fun e =>
        if e.moved then
          { e with pa := e.pa - v.src + v.dst, ctl := homeCtl (e.pa - v.src + v.dst), limit := e.limit + held, moved := false }
        else e } }
  let t : State := { t with
    co := t.co.forwardStores t.ms
    cores := t.cores.map (Core.forwardStores t.ms)
    disp := { t.disp with records := t.disp.records.map fun f => { f with slot := f.slot.map t.ms.homeAddr } } }
  (s.ms.retry.filter RetryEntry.moved).foldl (fun u e =>
    match e.who with
    | none => u
    | some (k, run, c) => u.updCtx k run c (Context.resumed held)) t

/-- The copy of the move that is busy ends. [DEDUCED log 73] -/
def execMoveCopyDone (s : State) : Out := .next (if s.ms.move.busy then s.endMove else s)

end Sys2Proof.Machine
end

