-- ==== Sys2Proof/Machine/Sm3.lean ====
section
/-! DEFINITION. The SM3 digest, of which receipts (14 R292), measurements (14 R295) and the log chain (14 R294) are made: the spec names
the standard and does not give it. -/

namespace Sys2Proof.Machine

open Sys2Proof

/-- Four bytes, the first the most significant. -/
def beWord (bs : List Byte) : BitVec 32 := BitVec.ofNat 32 (bs.foldl (fun n b => 256 * n + b.toNat) 0)

/-- The four bytes of a word, the most significant first. -/
def beBytes (w : BitVec 32) : List Byte := [w.extractLsb' 24 8, w.extractLsb' 16 8, w.extractLsb' 8 8, w.extractLsb' 0 8]

/-- The n words of a block. -/
def sm3Words : (n : Nat) → List Byte → List (BitVec 32)
  | 0, _ => []
  | n + 1, bs => beWord (bs.take 4) :: sm3Words n (bs.drop 4)

def sm3P0 (x : BitVec 32) : BitVec 32 := x ^^^ x.rotateLeft 9 ^^^ x.rotateLeft 17
def sm3P1 (x : BitVec 32) : BitVec 32 := x ^^^ x.rotateLeft 15 ^^^ x.rotateLeft 23

/-- The words of the message schedule after the sixteen in hand, and those. -/
def sm3Schedule : (n : Nat) → List (BitVec 32) → List (BitVec 32)
  | 0, w => w
  | n + 1, w =>
    let at_ := fun k => w.getD k 0
    let new := sm3P1 (at_ 0 ^^^ at_ 7 ^^^ (at_ 13).rotateLeft 15) ^^^ (at_ 3).rotateLeft 7 ^^^ at_ 10
    at_ 0 :: sm3Schedule n (w.drop 1 ++ [new])

/-- The eight registers A to H. -/
structure Sm3Regs where
  a : BitVec 32
  b : BitVec 32
  c : BitVec 32
  d : BitVec 32
  e : BitVec 32
  f : BitVec 32
  g : BitVec 32
  h : BitVec 32
  deriving DecidableEq, Repr

def sm3Initial : Sm3Regs :=
  ⟨0x7380166F, 0x4914B2B9, 0x172442D7, 0xDA8A0600, 0xA96F30BC, 0x163138AA, 0xE38DEE4D, 0xB0FB0E4E⟩

/-- Round j of the compression, with W_j and W_(j+4). -/
def sm3Round (j : Nat) (r : Sm3Regs) (w w4 : BitVec 32) : Sm3Regs :=
  let t : BitVec 32 := if j < 16 then 0x79CC4519 else 0x7A879D8A
  let ss1 := (r.a.rotateLeft 12 + r.e + t.rotateLeft (j % 32)).rotateLeft 7
  let ss2 := ss1 ^^^ r.a.rotateLeft 12
  let ff := if j < 16 then r.a ^^^ r.b ^^^ r.c else (r.a &&& r.b) ||| (r.a &&& r.c) ||| (r.b &&& r.c)
  let gg := if j < 16 then r.e ^^^ r.f ^^^ r.g else (r.e &&& r.f) ||| (~~~r.e &&& r.g)
  let tt1 := ff + r.d + ss2 + (w ^^^ w4)
  let tt2 := gg + r.h + ss1 + w
  ⟨tt1, r.a, r.b.rotateLeft 9, r.c, sm3P0 tt2, r.e, r.f.rotateLeft 19, r.g⟩

/-- The rounds over the schedule. -/
def sm3Rounds : (n j : Nat) → Sm3Regs → List (BitVec 32) → Sm3Regs
  | 0, _, r, _ => r
  | n + 1, j, r, ws => sm3Rounds n (j + 1) (sm3Round j r (ws.getD 0 0) (ws.getD 4 0)) (ws.drop 1)

/-- One block taken in. -/
def sm3Block (r : Sm3Regs) (block : List Byte) : Sm3Regs :=
  let q := sm3Rounds 64 0 r (sm3Schedule 52 (sm3Words 16 block))
  ⟨r.a ^^^ q.a, r.b ^^^ q.b, r.c ^^^ q.c, r.d ^^^ q.d, r.e ^^^ q.e, r.f ^^^ q.f, r.g ^^^ q.g, r.h ^^^ q.h⟩

def sm3Blocks : (n : Nat) → Sm3Regs → List Byte → Sm3Regs
  | 0, r, _ => r
  | n + 1, r, bs => sm3Blocks n (sm3Block r (bs.take 64)) (bs.drop 64)

/-- A message with its padding: a set bit, zeros, and its length in bits. -/
def sm3Padded (m : List Byte) : List Byte :=
  m ++ 0x80 :: List.replicate ((119 - m.length % 64) % 64) 0
    ++ beBytes (BitVec.ofNat 32 (8 * m.length / 2^32)) ++ beBytes (BitVec.ofNat 32 (8 * m.length))

/-- SM3 of a message: 32 bytes. [PRESUMED log 63] -/
def sm3 (m : List Byte) : List Byte :=
  let r := sm3Blocks ((m.length + 72) / 64) sm3Initial (sm3Padded m)
  [r.a, r.b, r.c, r.d, r.e, r.f, r.g, r.h].flatMap beBytes

end Sys2Proof.Machine
end

