-- ==== Sys2Proof/Machine/Rungs.lean ====
section
/-! DEFINITION. The reset ladder (17 R313 to R316; 19 R335): the five rungs, the end of a rung and its record, the escalation of one
that times out, and bring-up (14 R295, R297). -/

namespace Sys2Proof.Machine

open Sys2Proof

/-! ### The end of stopped launches (R314, R315) -/

/-- Whether a launch that a rung stopped has no context that runs, and no engine command, collective or `stmc` outstanding. -/
def State.launchIdle (s : State) (l : Nat) : Bool :=
  let mine := s.liveRanks.filter fun r => r.key.launch == l
  (mine.all fun r => r.ctxs.all (fun c => c.run != .running) && !r.mx.busy)
    && !s.eng.copies.any (fun c => c.key.launch == l)
    && !s.fab.colls.any (fun c => c.key.launch == l)
    && !s.fab.requests.any fun q => match q.issuer with
      | .multicast k _ _ => k.launch == l
      | .load .. | .fullEmpty .. | .store .. | .copy .. | .leg _ => false

/-- Every store of a core's buffer performed, those to a page that moves at its old home (R315, R331). -/
def State.emptyBuffer (s : State) (core : Nat) : State :=
  let go := (s.coreAt core).stores
  go.foldl (fun t e => t.perform core e) (s.updCore core fun c => { c with stores := [] })

/-- A core scrubbed: its caches are emptied, its halt network registers zero (R286, R314). -/
def scrubCore (c : Core) : Core :=
  { c with member := 0, signal := 0, halted := false, dcache := [], icache := [], stores := [] }

/-- The ranks of a launch gone, the one in focus among them. -/
def State.removeRanks (s : State) (l : Nat) : State :=
  let t := if s.rk.key.launch = l && s.rk.state != .ended then { s with rk := s.rk.over, cx := Context.reset } else s
  { t with ranks := t.ranks.filter fun r => r.key.launch != l }

/-- The cores that hold ranks of a launch. -/
def State.coresOf (s : State) (l : Nat) : List Nat :=
  ((s.liveRanks.filter fun r => r.key.launch == l && r.state != .saved).map Rank.core).foldl (fun q c => setAdd c q) []

/-- A launch whose work has stopped ends without completing, its cores scrubbed and their stores performed first. -/
def State.finishStop (s : State) (l : Nat) : State :=
  let cores := s.coresOf l
  let t := cores.foldl State.emptyBuffer s
  let t := t.commitAll
  let t := (t.removeRanks l)
  let t := cores.foldl (fun t c => (t.endHalt c).updCore c scrubCore) t
  let t := { t with eng := { t.eng with flights := t.eng.flights.filter fun f => f.launch != l } }
  match t.launch? l with
  | none => t
  | some x => if x.state == .running then t.endLaunch x false else t

/-! ### The record of a rung (R312, R314) -/

/-- The control context's core of a launch's lowest rank. -/
def State.controlCore (s : State) (l : Nat) : Nat :=
  let mine := s.liveRanks.filter fun r => r.key.launch == l
  let low := (mine.map fun r => r.key.rank).foldl Nat.min (2^17)
  ((mine.find? fun r => r.key.rank == low).map Rank.core).getD 0

/-- ADDR, OWNER, CORE and CTX of a RUNGRAN record. -/
def State.rungNames (s : State) : RungTarget → Word × Nat × Nat × Nat
  | .queue q => (descriptor 0x04 q, s.own.holder 0x04 q, 0, 0)
  | .launch l => (descriptor 0x01 (s.controlCore l), ((s.launch? l).map Launch.owner).getD 0, s.controlCore l, 0)
  | .helper k run n =>
    let r := s.rankOf k run
    (descriptor 0x01 r.core, r.id.owner.toNat, r.core, n)
  | .channel ch => (descriptor 0x05 ch, s.own.holder 0x05 ch, 0, 0)
  | .matrix c => (descriptor 0x01 c + wd (2^48), s.own.holder 0x01 c, c, 0)
  | .walker c => (descriptor 0x01 c + wd (2 * 2^48), s.own.holder 0x01 c, c, 0)
  | .netif c => (descriptor 0x01 c + wd (3 * 2^48), s.own.holder 0x01 c, c, 0)
  | .owner o => (descriptor 0x0C o, o, 0, 0)
  | .device => (descriptor 0x0D 0, 0, 0, 0)

/-- A RUNGRAN record: when the rung ends, or times out (R314). [DEDUCED log 105] -/
def State.rungRecord (s : State) (r : RungRun) (names : Word × Nat × Nat × Nat) : State :=
  let q := match r.target with
    | .queue q => q
    | .launch _ | .helper .. | .channel _ | .matrix _ | .walker _ | .netif _ | .owner _ | .device => 0
  s.report { errRec Err.rungRan names.2.1 names.1 (wd r.start) (wd s.time) with
    rung := r.level, core := names.2.2.1, ctx := names.2.2.2, queue := q }

/-! ### Engine resets (R313, R335) -/

/-- A channel reset: every command it holds is abandoned, with reason 4. [DEDUCED log 48] -/
def State.resetChannel (s : State) (ch : Nat) : (fuel : Nat) → State
  | 0 => s
  | fuel + 1 =>
    match s.copyHead ch with
    | none => s
    | some c => (s.faultCopy c 4 0).resetChannel ch fuel

/-- The drain target of a matrix unit that is reset becomes EMPTY. -/
def State.emptyTarget (s : State) (r : Rank) : State :=
  match r.mx.drain with
  | none => s
  | some (o, _) => s.updTile r.key r.run (clusterOf r.core) o.tileA Tile.empties

/-- A matrix unit reset for one rank that has operations in it: they are abandoned, its fault bit is set, the nodes fault. [DEDUCED log 54] -/
def State.resetMatrix (s : State) (r : Rank) : State :=
  let ops := r.mx.ops
  if ops.isEmpty then s
  else
    let t := ops.foldl (fun t o => t.endReads r o) (s.emptyTarget r)
    let t := t.updRank r.key r.run fun r => { r with mx := .reset }.faulted 0
    ops.foldl (fun t o => match o.node with
      | none => t
      | some (slot, n) => t.nodeFault r.key r.run slot n 4 (some 0)) t

/-- The engine of a node's type, for its fault bit: copies 1, else the matrix unit's (R335). -/
def nodeBit (d : Node) : Fin 3 := if d.type < 3 then 1 else 0

/-- The work that a graph handed to engines belongs to it no more. -/
def State.orphan (s : State) (k : RankKey) (run slot : Nat) : State :=
  let t := { s with
    eng := { s.eng with copies := s.eng.copies.map fun (c : CopyCmd) =>
      match c.node with
      | some (g, n) => if c.key == k && c.run == run && g == slot then { c with node := some (4, n) } else c
      | none => c }
    disp := { s.disp with launches := s.disp.launches.map fun (l : Launch) =>
      match l.origin with
      | .node p q g n => if p == k && q == run && g == slot then { l with origin := .node p q 4 n } else l
      | .queue _ | .program .. => l } }
  let f := fun (o : MatrixOp) => match o.node with
    | some (g, n) => if g == slot then { o with node := some (4, n) } else o
    | none => o
  t.updMx k run fun m =>
    { m with queue := m.queue.map f, stream := m.stream.map fun q => (f q.1, q.2), tails := m.tails.map f, drain := m.drain.map fun q => (f q.1, q.2) }

/-- A graph abandoned by the reset of its walker: STATE 3, GRAPHFAULT with reason 4 at its first unfinished node, the fault bits of
its unfinished nodes. [DEDUCED log 87] -/
def State.dropGraph (s : State) (r : Rank) (g : Graph) : State :=
  let left := g.nodes.filter fun d => d.state != .finished
  let n := (g.nodes.findIdx? fun d => d.state != .finished).getD 0
  let t := s.orphan r.key r.run g.slot
  let t := t.updRank r.key r.run fun r =>
    let r := left.foldl (fun r d => r.faulted (nodeBit d)) r
    { r.updTicket .graph 0 g.seq (fun t => { t with state := 3 }) with graphs := r.graphs.filter fun h => h.slot != g.slot }
  t.report { errRec Err.graphFault r.id.owner.toNat (g.addr + wd (64 * n)) (wd n) 4 with core := r.core, ctx := g.ctx }

/-- A walker reset: every graph it holds. [DEDUCED log 87] -/
def State.resetWalker (s : State) (core : Nat) : State :=
  (s.liveRanks.filter (Rank.onCore core)).foldl (fun t r => r.graphs.foldl (fun t g => t.dropGraph r g) t) s

/-- A collective abandoned by its network interface: STATE 3 and bit 23 (R335). -/
def State.dropColl (s : State) (c : Collective) : State :=
  let t := { s with
    fab := { s.fab with colls := s.fab.colls.filter fun d => d.id != c.id }
    disp := { s.disp with records := dropWaiters (fun _ w => w == Waiter.coll c.id) s.disp.records } }
  (t.faultedDst c).updRank c.key c.run fun r =>
    (r.updTicket .coll 0 c.seq fun t => { t with state := 3 }).faulted 2

/-- The collectives and `stmc` of the ranks that p accepts abandoned, with bit 23 (R335). -/
def State.abandonNet (s : State) (p : RankKey → Nat → Bool) : State :=
  let t := (s.fab.colls.filter fun c => p c.key c.run).foldl State.dropColl s
  let casts := t.fab.requests.filter fun q => match q.issuer with
    | .multicast k run _ => p k run
    | .load .. | .fullEmpty .. | .store .. | .copy .. | .leg _ => false
  casts.foldl (fun t q =>
    (t.endMulticast q q.local_).updRanks (fun r => match q.issuer.context? with
      | some (k, run, _) => r.is k run
      | none => false) fun r => r.faulted 2) t

/-- A network interface reset: its collectives and `stmc` are abandoned, messages accepted and not yet placed are discarded. -/
def State.resetNetif (s : State) (core : Nat) : State :=
  let mine := s.liveRanks.filter (Rank.onCore core)
  let of_ := fun (k : RankKey) (run : Nat) => mine.any fun r => r.is k run
  let t := s.abandonNet of_
  { t with eng := { t.eng with flights := t.eng.flights.filter fun f => !of_ ⟨f.launch, f.src⟩ f.run } }

/-- The matrix unit of a core reset, for every rank the core holds. [DEDUCED log 54] -/
def State.resetMatrixOf (s : State) (core : Nat) : State :=
  (s.liveRanks.filter (Rank.onCore core)).foldl State.resetMatrix s

/-- Where an engine reset is told to act. -/
def engineTarget : EngineTarget → RungTarget
  | .channel ch => .channel ch
  | .matrix c => .matrix c
  | .walker c => .walker c
  | .netif c => .netif c

/-- The reset of an engine; a halted core whose engine it is runs again (R314). -/
def State.resetEngine (s : State) : EngineTarget → State
  | .channel ch => s.resetChannel ch s.eng.copies.length
  | .matrix c => (s.endHalt c).resetMatrixOf c
  | .walker c => (s.endHalt c).resetWalker c
  | .netif c => (s.endHalt c).resetNetif c

/-! ### The partition rung (R313, R316) -/

/-- The lines of an owner's plots gone from every core data cache and cluster cache; exclusive ones are recalled first. -/
def State.dropPlotLines (s : State) (owner : Nat) : State :=
  let mine := fun (a : Nat) => s.own.holder 0x03 (plotOf a) == owner
  let f := fun (c : Core) => { c with dcache := c.dcache.filter fun l => !mine l.addr }
  { s with
    co := f s.co
    cores := s.cores.map f
    ms := { s.ms with
      excl := s.ms.excl.filter fun e => !mine e.1
      ccache := s.ms.ccache.filter fun e => !mine e.2.addr } }

/-- A queue made ready for replay: from the record after its last completed fence (R316). -/
def Queue.replayed (q : Queue) : Queue :=
  let q := q.asShown
  let n := match q.fenceRec with
    | none => 0
    | some f => (f + 1) % 2^32
  { q with head := n, doneNum := n, state := .idle, ended := [], record := none, progRec := none, ring := none, progRing := none, tell := false, held := false,
           seenFence := q.lastFence }

/-- Every queue that an owner holds: idle, without a bind record, ready for replay. -/
def State.replayQueues (s : State) (owner : Nat) : State :=
  let mine := (s.disp.queues.filter fun q => s.own.holder 0x04 q.num == owner).map Queue.num
  let gone := fun (w : Waiter) => match w with
    | .dispatcher q => mine.contains q
    | .context .. | .channel _ | .child _ | .coll _ => false
  let t := { s with disp := { s.disp with
    slots := s.disp.slots.filter fun e => !mine.contains e.1
    deferred := s.disp.deferred.filter fun e => !mine.contains e.1
    orders := s.disp.orders.filter fun o => !mine.contains o.1
    restores := s.disp.restores.filter fun o => !mine.contains o.1
    launches := s.disp.launches.map fun (l : Launch) =>
      if mine.contains l.queue && (l.state == .ready || l.state == .reading) then { l with state := .ended } else l
    records := dropWaiters (fun _ w => gone w) s.disp.records } }
  mine.foldl (fun t q => (t.updQueue q Queue.replayed).writeProgress q) t

/-- The cores that an owner holds. -/
def State.ownedCores (s : State) (owner : Nat) : List Nat := (List.range 1536).filter fun c => s.own.holder 0x01 c == owner

/-- The partition rung's action on an owner: its launches end, its engines are reset, its cores are scrubbed, the lines of its plots
leave the caches, its queues are made ready for replay. Memory plots and loans stay. -/
def State.resetPartition (s : State) (owner : Nat) : State :=
  let mine := s.disp.launches.filter fun l =>
    l.state == .running && (l.owner == owner || s.own.holder 0x04 l.queue == owner)
  let t := mine.foldl (fun t l => t.rungStop l.num) s
  let chans := (List.range 384).filter fun c => s.own.holder 0x05 c == owner
  let cores := s.ownedCores owner
  let t := chans.foldl (fun t c => t.resetEngine (.channel c)) t
  let t := cores.foldl (fun t c => ((t.resetWalker c).resetMatrixOf c).resetNetif c) t
  let t := { t with eng := { t.eng with copies := t.eng.copies.filter fun c => !mine.any fun l => l.num == c.key.launch } }
  let t := mine.foldl (fun t l => t.finishStop l.num) t
  let t := cores.foldl State.emptyBuffer t
  let t := cores.foldl (fun t c => (t.endHalt c).updCore c scrubCore) t
  (t.dropPlotLines owner).replayQueues owner

/-- The partition rung begun: its record is written once it ends (R313, R314). -/
def State.startPartition (s : State) (owner : Nat) : State := (s.resetPartition owner).startRung 4 (.owner owner)

/-- The partition rung run whole, with its record, as an operation that waits for its end has it (R236, R313). [DEDUCED log 105] -/
def State.partitionRung (s : State) (owner : Nat) : State :=
  let t := s.resetPartition owner
  let r : RungRun := { num := t.disp.nextRung, level := 4, target := .owner owner, start := s.time }
  { t with disp := { t.disp with nextRung := t.disp.nextRung + 1 } }.rungRecord r (t.rungNames (.owner owner))

/-! ### The device rung, cold reset and bring-up (R295, R297, R313) -/

/-- The module returned to where so many steps of bring-up are done: everything as reset leaves it but device time, the node number, what
firmware measured up to that step, the error records already written, and the model's own agenda and counters. [DEDUCED log 106] -/
def State.restart (s : State) (stage : Nat) (measured : Vector (BitVec 256) 8) : State :=
  { State.reset with
    time := s.time
    node := s.node
    agenda := s.agenda
    tick := s.tick
    mgmt := { Management.reset with
      stage := stage, measured := measured, verified := s.mgmt.verified, identity := if stage = 0 then [] else s.mgmt.identity }
    disp := { Dispatch.reset with errors := s.disp.errors, errNum := s.disp.errNum, nextRung := s.disp.nextRung
                                  nextNum := s.disp.nextNum } }

/-- The device rung (R313): every owner's work is stopped, held copies of records and the rungs under way with it, and bring-up goes on from its step 2.
[DEDUCED log 106, DEDUCED log 122] -/
def State.deviceRung (s : State) : State :=
  let t := s.disp.heldCopies.foldl (fun t q => t.markDropped q.2.num) s
  let t := s.disp.rungs.foldl (fun t r => t.rungRecord r (s.rungNames r.target)) t
  (t.restart 1 (Management.reset.measured.set 0 s.mgmt.measured[0])).startRung 5 .device

/-- A register as the 32 bytes of a digest, and back. -/
def registerBytes (m : BitVec 256) : List Byte := leBytes 32 m.toNat
def bytesRegister (bs : List Byte) : BitVec 256 := BitVec.ofNat 256 (leNat bs)

/-- A measurement register extended with a digest: M := SM3(M ‖ digest) (R295). -/
def extendMeasure (m : BitVec 256) (digest : List Byte) : BitVec 256 := bytesRegister (sm3 (registerBytes m ++ digest))

/-- The register of the hypervisor stage: one of the later seven. [DESIGN CHOICE log 64] -/
def hvRegister : Nat := 1 + Config.hypervisorStage % 7

/-- The stages that a step of bring-up measures and verifies: the first-stage firmware, the later ones, the hypervisor (R295, R297).
[DESIGN CHOICE log 64] -/
def stagesOf (step : Nat) : List Nat :=
  match step with
  | 1 => [0]
  | 2 => (List.range 8).filter fun i => i != 0 && i != hvRegister
  | 4 => [hvRegister]
  | _ => []

/-- Stages measured and verified one after another, each extending its own register, up to the first whose signature fails; and whether
all of them verify (R295). [DESIGN CHOICE log 64] -/
def measureStages (verified : Vector Bool 8) : Vector (BitVec 256) 8 → List Nat → Vector (BitVec 256) 8 × Bool
  | m, [] => (m, true)
  | m, i :: r =>
    if verified.toList.getD i false then
      measureStages verified (m.setIfInBounds i (extendMeasure (m.toList.getD i 0) (Config.stageDigest i))) r
    else (m, false)

/-- What a step of bring-up does beside measuring (R297). [DEDUCED log 5] -/
def State.bringUpStep (s : State) (step : Nat) : State :=
  match step with
  | 1 => { s with mgmt := { s.mgmt with identity := Config.identityKey } }
  | 3 => { s with
      ms := MemSystem.reset
      own := { Ownership.reset with endowed := true, owners := [OwnerRec.fresh 1 0] } }
  | 4 => { s with scr := { s.scr with hypervisor := true } }
  | 5 => { s with host := { s.host with
      ready := true
      leased := true
      ports := s.host.ports.map fun p => { p with leaseExp := s.time + 1000000000 } } }
  | _ => s

/-- The next step of bring-up (R295, R297). A stage whose signature fails is not started: bring-up stops there, with READY 0.
[DEDUCED log 5, DESIGN CHOICE log 7] -/
def execBringUp (s : State) : Out :=
  if s.host.ready || s.mgmt.stopped then .next s
  else
    let step := s.mgmt.stage + 1
    let q := measureStages s.mgmt.verified s.mgmt.measured (stagesOf step)
    if q.2 then .next ({ s with mgmt := { s.mgmt with measured := q.1, stage := step } }.bringUpStep step)
    else .next { s with mgmt := { s.mgmt with measured := q.1, stopped := true } }

/-! ### The rungs as firmware starts them -/

/-- Firmware runs the queue rung (R313). -/
def execQueueRung (q : Nat) (s : State) : Out :=
  if 4096 ≤ q then .next s
  else
    let t := (s.ensureQueue q).queueRung q
    .next (if ((s.queue? q).map Queue.state).getD .idle == .idle then t else t.writeProgressOr (fun u => u.dropProgress q) q)

/-- Firmware runs the context rung on a launch or a helper (R313, R314). -/
def execContextRung (t : ContextTarget) (s : State) : Out :=
  match t with
  | .launch l => .next ((s.rungStop l).startRung 2 (.launch l))
  | .helper k run n =>
    match s.ctx? k run n with
    | none => .next s
    | some _ =>
      if n = 0 then .next ((s.rungStop k.launch).startRung 2 (.launch k.launch))
      else .next ((s.stopHelper k run n).startRung 2 (.helper k run n))

/-- Firmware runs the engine rung (R313). -/
def execEngineRung (t : EngineTarget) (s : State) : Out := .next ((s.resetEngine t).startRung 3 (engineTarget t))

/-- Firmware runs the partition rung (R313). -/
def execPartitionRung (owner : Nat) (s : State) : Out := .next (if s.own.isLive owner then s.startPartition owner else s)

/-- Firmware runs the device rung (R313). -/
def execDeviceRung (s : State) : Out := .next s.deviceRung

/-! ### The end and the timeout of a rung (R313, R314) -/

/-- The running launches that a rung's stop has left without a context that runs. -/
def State.stoppedOf (s : State) (q : Nat) : List Launch :=
  s.disp.launches.filter fun l => l.queue == q && l.state == .running &&
    s.liveRanks.all fun r => r.key.launch != l.num || r.ctxs.all fun c => c.run != .running

/-- Whether a helper that a rung stopped has no collective and no `stmc` in flight (R314). -/
def State.helperIdle (s : State) (k : RankKey) (run n : Nat) : Bool :=
  !s.fab.colls.any (fun c => c.key == k && c.run == run && c.ctx == n)
    && !s.fab.requests.any fun q => q.issuer == .multicast k run n

/-- Whether a rung's target has nothing left that runs or is outstanding; when the reset of an engine, a partition or the device ends is
left open. [DESIGN CHOICE log 111] -/
def State.rungOver (s : State) (r : RungRun) : Bool :=
  match r.target with
  | .queue q => (s.stoppedOf q).all fun l => s.launchIdle l.num
  | .launch l => s.launchIdle l
  | .helper k run n => s.helperIdle k run n
  | .channel _ | .matrix _ | .walker _ | .netif _ | .owner _ | .device => Config.rungEnds s.tick r.num

/-- A helper that the context rung ended leaves its rank, once its core's committed stores are performed: `hjoin` then returns its number
(R314, R315). -/
def State.removeHelper (s : State) (k : RankKey) (run n : Nat) : State :=
  let t := match s.rank? k run with
    | some r => if r.onCore r.core then s.emptyBuffer r.core else s
    | none => s
  if n = 0 then t
  else if t.rk.is k run && t.rk.state != .ended && t.cx.num = n then (if t.cx.run = .running then t else t.endHelper)
  else if (t.rankOf k run).ctxs.any fun c => c.num == n && c.run != .running then
    (t.updRank k run fun r => { r with ctxs := r.ctxs.filter fun c => c.num != n }).forgetHelper k run n
  else t

/-- A rung whose target is quiet ends: the launches it stopped end, then its record is written. [DEDUCED log 105] -/
def State.endRung (s : State) (r : RungRun) : State :=
  if !s.rungOver r then s
  else
    let names := s.rungNames r.target
    let s := { s with disp := { s.disp with rungs := s.disp.rungs.filter fun x => x.num != r.num } }
    let t := match r.target with
      | .queue q => (s.stoppedOf q).foldl (fun (t : State) (l : Launch) => t.finishStop l.num) s
      | .launch l => s.finishStop l
      | .helper k run n => s.removeHelper k run n
      | .channel _ | .matrix _ | .walker _ | .netif _ | .owner _ | .device => s
    t.rungRecord r names

/-- A launch that a reclaim stopped ends, once nothing of it runs any more (R363). -/
def State.endStopped (s : State) (l : Nat) : State :=
  if s.launchIdle l then ({ s with disp := { s.disp with ending := setRemove l s.disp.ending } } : State).finishStop l else s

/-- Every rung that is over ends, in the order they started, and every launch that a reclaim stopped. -/
def State.endRungs (s : State) : State :=
  let t := s.disp.rungs.foldl State.endRung s
  t.disp.ending.foldl State.endStopped t

/-- The timeout of a rung's level, in ns. -/
def rungLimit (level : Nat) : Nat :=
  match level with
  | 1 => 200000
  | 2 => 2000000
  | 3 => 5000000
  | 4 => 50000000
  | _ => 500000000

/-- The engines that hold commands of a launch. -/
def State.enginesOf (s : State) (l : Nat) : List EngineTarget :=
  let mine := s.liveRanks.filter fun r => r.key.launch == l
  let chans := ((s.eng.copies.filter fun c => c.key.launch == l && c.chan < 384).map CopyCmd.chan).foldl (fun q c => setAdd c q) []
  chans.map EngineTarget.channel
    ++ (mine.filter fun r => r.mx.busy).map (fun r => EngineTarget.matrix r.core)
    ++ (mine.filter fun r => !r.graphs.isEmpty).map (fun r => EngineTarget.walker r.core)
    ++ (mine.filter fun r => s.fab.colls.any (fun c => c.key == r.key) || s.fab.requests.any fun q => match q.issuer with
        | .multicast k _ _ => k == r.key
        | .load .. | .fullEmpty .. | .store .. | .copy .. | .leg _ => false).map fun r => EngineTarget.netif r.core

/-- The engine rung on some engines, begun (R313). -/
def State.startEngines (s : State) (es : List EngineTarget) : State :=
  es.foldl (fun t e => (t.resetEngine e).startRung 3 (engineTarget e)) s

/-- The next rung of the ladder on a target that did not come to rest (R313). What a launch or a helper still had outstanding is abandoned
with the engines that hold it, and it ends. -/
def State.escalate (s : State) (r : RungRun) : State :=
  let owner := (s.rungNames r.target).2.1
  match r.target with
  | .queue q => (s.stoppedOf q).foldl (fun t l => (t.rungStop l.num).startRung 2 (.launch l.num)) s
  | .launch l => ((s.startEngines (s.enginesOf l)).abandonNet fun k _ => k.launch == l).finishStop l
  | .helper k run n => (((s.startEngines [.netif (s.rankOf k run).core])).abandonNet fun p q => p == k && q == run).removeHelper k run n
  | .channel _ | .matrix _ | .walker _ | .netif _ => s.startPartition owner
  | .owner _ => s.deviceRung
  | .device => s.restart 0 Management.reset.measured

/-- A rung that has not ended by its timeout: its record is written, and the next rung acts on its target (R313, R314). -/
def execRungTimeout (n : Nat) (s : State) : Out :=
  match s.disp.rungs.find? fun r => r.num == n with
  | none => .next s
  | some r =>
    if s.time < r.start + rungLimit r.level then .next s
    else
      let names := s.rungNames r.target
      let t := { s with disp := { s.disp with rungs := s.disp.rungs.filter fun x => x.num != n } }
      .next ((t.rungRecord r names).escalate r)

end Sys2Proof.Machine
end

