-- ==== Sys2Proof/Machine/Ownership.lean ====
section
/-! DEFINITION. The ownership map's operations (11 R234 to R237; 14 R283 to R287, R292; 20 R355; 22 R362, R363): give, accept, lend,
reclaim, ownq, omake and evict, as instructions and through the ownership port, with scrubs and receipts. -/

namespace Sys2Proof.Machine

open Sys2Proof

/-! ### Status words and descriptors (R235) -/

/-- A status word. -/
def ownStatus (code value : Nat) : Word := wd (code * 2^60 + value % 2^48)

def OwnSt.done : Nat := 0
def OwnSt.offered : Nat := 1
def OwnSt.term : Nat := 2
def OwnSt.notHeld : Nat := 3
def OwnSt.noOffer : Nat := 4
def OwnSt.noOwner : Nat := 5
def OwnSt.busy : Nat := 6
def OwnSt.badRes : Nat := 7
def OwnSt.badArg : Nat := 8

def descClass (w : Word) : Nat := field w 56 8
def descIndex (w : Word) : Nat := field w 0 48

/-- Whether a descriptor names a resource (R235, R283). -/
def descOk (w : Word) : Bool := zeroAt w 48 8 && resourceExists (descClass w) (descIndex w)

/-- The outcome of an operation: the state and its status word, or none while a page it needs is held. -/
abbrev OwnOut := Option (State × Word)

def State.ownAnswer (s : State) (code value : Nat) : OwnOut := some (s, ownStatus code value)

/-! ### A core that leaves its holder (R82, R237, R250) -/

/-- A core's bit cleared in the slots of an owner; the launches that lose it get their order (R46, R250, R255).
[DEDUCED log 48, DESIGN CHOICE log 120] -/
def State.clearCore (s : State) (owner core : Nat) : State :=
  let mine := s.disp.slots.filter fun e => e.2.owner == owner && e.2.cores.contains core
  mine.foldl (fun t e =>
    let b : BindRec := { e.2 with cores := e.2.cores.filter (fun c => c != core) }
    let gone := (t.withdrawn e.1 b.cores).filter fun c => !t.disp.orders.any fun o => o.2 == c
    { t with disp := { t.disp with
      slots := putAt e.1 b t.disp.slots
      orders := t.disp.orders ++ gone.map (fun c => (e.1, c)) } }) s

/-- Whether a counted read of a cluster tile with a bank on a core has not ended: by an operation of a rank that runs, on that core only where
`all` says so, or by a copy (R85, R192). [DESIGN CHOICE log 114] -/
def State.readsStand (s : State) (core : Nat) (all : Bool) : Bool :=
  s.eng.tiles.any fun t => t.cores.contains core &&
    (s.liveRanks.any (fun r => r.hasCore && (all || r.core != core) && r.key.launch == t.launch && r.run == t.run
        && r.mx.ops.any fun o => o.cluster == t.cluster && o.reads.contains t.handle)
      || s.eng.copies.any fun c => c.counted && c.chan < 384 && (!c.started || c.done < c.bytes) && c.key.launch == t.launch
        && c.run == t.run && c.chan / 4 == t.cluster && c.handle == t.handle)

/-- Every cluster tile with a bank on a core freed (R82). -/
def State.freeTilesOn (s : State) (core : Nat) : State :=
  { s with eng := { s.eng with tiles := s.eng.tiles.filter fun t => !t.cores.contains core } }

/-- The plots of a memory key ID (R284). -/
def State.plotsOf (s : State) (k : Nat) : List Nat :=
  if k = 0 then (List.range 655360).filter fun p => plotBacked p && (s.own.entry 0x03 p).mkey == 0
  else ((s.own.entries.filter fun e => e.cls == 0x03 && e.mkey == k).map MapEntry.idx).foldl (fun l i => setAdd i l) []

/-- The lines that p accepts gone from every cache: core, cluster and scriptorium. -/
def State.dropCached (s : State) (p : Nat → Bool) : State :=
  let f := fun (c : Core) =>
    { c with dcache := c.dcache.filter fun l => !p l.addr, icache := c.icache.filter fun l => !p l.addr }
  { s with
    co := f s.co
    cores := s.cores.map f
    ms := { s.ms with excl := s.ms.excl.filter fun e => !p e.1, ccache := s.ms.ccache.filter fun e => !p e.2.addr }
    scr := { s.scr with
      lines := s.scr.lines.filter fun a => !p a
      dirty := s.scr.dirty.filter fun d => !p d.1
      reserved := s.scr.reserved.filter fun r => !p r.2 } }

/-- The memory key of a key ID is another from now on: what its plots hold reads as other values, in memory and in every cache (R286,
R289, R290). [DEDUCED log 26] -/
def State.setKeyGen (s : State) (k gen : Nat) : State :=
  let ps := s.plotsOf k
  let t := if ps.isEmpty then s else s.dropCached fun a => ps.contains (plotOf a)
  let old := t.ms.memKey k
  let ms := { t.ms with keyGens := putAt k gen t.ms.keyGens }
  { t with ms := { ms with mem := ps.foldl (fun m p => rekeyPlot m p old (ms.memKey k)) ms.mem } }

/-- The MKEY of a plot set: what it holds reads as other values under another key, in memory and in every cache (R289). [DEDUCED log 26] -/
def State.setMkey (s : State) (p k : Nat) : State :=
  let e := s.own.entry 0x03 p
  if e.mkey = k then s
  else
    let t := s.dropCached fun a => plotOf a == p
    { t with
      own := t.own.setEntry { e with mkey := k }
      ms := { t.ms with mem := rekeyPlot t.ms.mem p (t.ms.memKey e.mkey) (t.ms.memKey k) } }

/-- The memory key of a key ID drawn, as it is first given after bring-up or its destruction (R290). [DEDUCED log 26] -/
def State.drawKey (s : State) (k : Nat) : State :=
  if s.ms.keyGen k % 2 = 1 then s else s.setKeyGen k (s.ms.keyGen k + 1)

/-- A resource passes to a holder: the loan and the offer on it end; a core leaves its former holder. -/
def State.passTo (s : State) (cls idx dest : Nat) : State :=
  let e := s.own.entry cls idx
  let f := { e with holder := dest, lender := 0, offerTo := 0, lendOffer := false, offerTerm := 0, lentAt := 0, expiry := 0 }
  let t := { s with own := s.own.setEntry f }
  if cls = 0x01 then
    let t := t.updCore idx fun c => { c with lender := 0, image := 0 }
    if e.holder = dest then t else (t.clearCore e.holder idx).freeTilesOn idx
  else t

/-- A resource given: it passes, and a key ID that has no memory key gets one (R290). A resource taken back is not given. [DEDUCED log 26] -/
def State.giveTo (s : State) (cls idx dest : Nat) : State :=
  let t := s.passTo cls idx dest
  if cls = 0x06 then t.drawKey idx else t

/-! ### `give`, `lend`, `accept` (R236) -/

/-- A standing offer of the holder withdrawn. -/
def State.withdrawOffer (s : State) (cls idx : Nat) : State :=
  let e := s.own.entry cls idx
  { s with own := s.own.setEntry { e with offerTo := 0, lendOffer := false, offerTerm := 0 } }

/-- An offer recorded. -/
def State.offer (s : State) (cls idx dest : Nat) (lend : Bool) (term : Nat) : State :=
  let e := s.own.entry cls idx
  { s with own := s.own.setEntry { e with offerTo := dest, lendOffer := lend, offerTerm := term } }

/-- `give` and `lend` at their place in the map's order: BADRES, NOTHELD, BADARG, then what R236 and R284 say of the holder.
[DESIGN CHOICE log 60] -/
def State.giveOp (s : State) (caller : Nat) (lend : Bool) (a b : Word) : OwnOut :=
  let cls := descClass a
  let idx := descIndex a
  let dest := field b 0 12
  let e := s.own.entry cls idx
  if !descOk a then s.ownAnswer OwnSt.badRes 0
  else if e.holder != caller then s.ownAnswer OwnSt.notHeld 0
  else if (if lend then !zeroAt b 12 4 else !zeroAt b 12 52) then s.ownAnswer OwnSt.badArg 0
  else if dest = caller then (s.withdrawOffer cls idx).ownAnswer OwnSt.done 0
  else if e.lender != 0 then
    if !lend && dest = e.lender then
      if cls = 0x01 && s.readsStand idx true then none else (s.giveTo cls idx dest).ownAnswer OwnSt.done 0 else s.ownAnswer OwnSt.busy 0
  else if e.offerTo != 0 then s.ownAnswer OwnSt.busy 0
  else if !s.own.isLive dest then s.ownAnswer OwnSt.noOwner 0
  else (s.offer cls idx dest lend (if lend then field b 16 48 else 0)).ownAnswer OwnSt.offered 0

/-- `accept`: the caller becomes holder; a loan's term starts now, a lent core keeps lender and image region (R149, R236, R285). A
core passes once no counted read of a cluster tile on it remains (R82, R85). [DESIGN CHOICE log 60] -/
def State.acceptOp (s : State) (caller : Nat) (a b : Word) : OwnOut :=
  let cls := descClass a
  let idx := descIndex a
  let e := s.own.entry cls idx
  let lentCore := e.lendOffer && cls == 0x01
  if !descOk a then s.ownAnswer OwnSt.badRes 0
  else if e.offerTo != caller then s.ownAnswer OwnSt.noOffer 0
  else if (if lentCore then field b 0 6 != 0 || !canonical b else b != 0) then s.ownAnswer OwnSt.badArg 0
  else if cls = 0x01 && s.readsStand idx true then none
  else
    let t := s.giveTo cls idx caller
    if !e.lendOffer then t.ownAnswer OwnSt.done 0
    else
      let n := t.own.entry cls idx
      let t := { t with own := t.own.setEntry { n with lender := e.holder, lentAt := t.time, expiry := t.time + e.offerTerm } }
      let t := if lentCore then
          t.updCore idx fun c => { c with lender := BitVec.ofNat 12 e.holder, image := b.setWidth 53 }
        else t
      t.ownAnswer OwnSt.done 0

/-! ### Receipts (R292, R236) -/

/-- What a receipt buffer meets: the 1 KiB translates and has W in the caller's space, or not; or a page of it is held. A page of host space or a
REMOTE page is no buffer either. [DEDUCED log 69] -/
def State.bufferPlace (s : State) (caller : Nat) (b : Word) : Arrival :=
  if field b 0 6 != 0 then .fails 3
  else
    Arrival.first ((pageParts b 1024).map fun p => s.remotePlace caller .store false p.1 p.2)

/-- n bytes of a list, with zeros after it where it is shorter. -/
def padBytes (n : Nat) (bs : List Byte) : List Byte := (bs ++ List.replicate n 0).take n

/-- Ascending descriptors as ranges: the first of each, and how many follow one another (R292). -/
def rangesOf : List (Nat × Nat) → List ((Nat × Nat) × Nat)
  | [] => []
  | d :: r =>
    match rangesOf r with
    | [] => [(d, 1)]
    | (e, n) :: q => if e.1 = d.1 && e.2 = d.2 + 1 then (d, n + 1) :: q else (d, 1) :: (e, n) :: q

/-- The measurement of the hypervisor stage, from which the attestation key is derived (R291). [DESIGN CHOICE log 64] -/
def State.hvMeasure (s : State) : List Byte := registerBytes (s.mgmt.measured.toList.getD hvRegister 0)

/-- The 1,024 bytes of a scrub receipt (R292). [DEDUCED log 68] -/
def State.receipt (s : State) (src dst tstart tend method : Nat) (descs : List (Nat × Nat)) : List Byte :=
  let ranges := rangesOf descs
  let full := ranges.flatMap fun q => leBytes 8 (descriptor q.1.1 q.1.2).toNat ++ leBytes 8 q.2
  let body := leBytes 8 (1 + 2^32 * src + 2^48 * dst) ++ leBytes 8 tstart ++ leBytes 8 tend ++ leBytes 8 method
    ++ leBytes 8 (ranges.length % 2^16) ++ padBytes 32 (sm3 full) ++ padBytes (0x3C0 - 0x48) (full.take 880)
  body ++ padBytes 64 (Config.sm2Sign s.hvMeasure body)

/-- METHOD bits of a class (R292). [DEDUCED log 69] -/
def methodOf (cls : Nat) (imaged : Bool) : Nat :=
  match cls with
  | 0x01 => 7 + 32 * boolNat (!imaged)
  | 0x03 => 12
  | 0x06 => 16
  | 0x0B => 5
  | _ => 1

/-- A receipt written into a buffer of an owner that was checked. [DEDUCED log 69] -/
def State.writeReceipt (s : State) (owner : Nat) (va : Word) (bytes : List Byte) : State :=
  s.writeParts owner Config.trustAgent bytes (pageParts va 1024)

/-! ### Scrubs (R286) -/

/-- The lines of an owner's plots gone from a cluster's cache, recalled where held exclusively. -/
def MemSystem.dropOwnerLines (ms : MemSystem) (mine : Nat → Bool) (cluster : Nat) : MemSystem :=
  { ms with
    excl := ms.excl.filter fun e => !(e.2 == cluster && mine e.1)
    ccache := ms.ccache.filter fun e => !(e.1 == cluster && mine e.2.addr) }

/-- A core scrubbed after its last holder: its stores are performed, registers, scratch and that holder's lines cleared. -/
def State.scrubCoreOf (s : State) (core holder : Nat) : State :=
  let t := s.emptyBuffer core
  let t := t.commitAll
  let t := { t with ms := t.ms.dropOwnerLines (fun a => t.own.holder 0x03 (plotOf a) == holder) (clusterOf core) }
  ((t.freeTilesOn core).endHalt core).updCore core scrubCore

/-- A plot scrubbed: zeros, bits EMPTY, its lines gone everywhere, its MKEY that of the owner who gets it. -/
def State.scrubPlotFor (s : State) (p dest : Nat) : State :=
  let mine := fun (a : Nat) => plotOf a == p
  let f := fun (c : Core) => { c with stores := c.stores.filter fun e => !mine e.pa }
  let t := s.dropCached mine
  ({ t with
    co := f t.co
    cores := t.cores.map f
    ms := { t.ms with mem := scrubPlot t.ms.mem p, pending := t.ms.pending.filter fun u => !mine u.pa } } : State).setMkey p
      (s.own.ownerOr dest).mkeyid.toNat

/-- A queue scrubbed: its record out of force, its launches saved as for the withdrawal of every core, its descriptor zero. -/
def State.scrubQueue (s : State) (q : Nat) : State :=
  let t := s.applyBind q { valid := false, owner := 0, band := 0, weight := 0, cores := [] }
  t.updQueue q fun _ => Queue.fresh q

/-- A key ID destroyed in the router key table and the memory engines: what plots hold under it reads as other values, and the key ID has no
memory key until it is given again (R286, R289, R290). [DEDUCED log 26, DEDUCED log 89] -/
def State.destroyKey (s : State) (k : Nat) : State :=
  let t := { s with fab := { s.fab with keys := s.fab.keys.filter fun x => x.keyid != k } }
  if s.ms.keyGen k % 2 = 0 then t else t.setKeyGen k (s.ms.keyGen k + 1)

/-- A helper slot cleared for another holder: a helper that runs in it ends (R286). [DEDUCED log 89] -/
def State.scrubSlot (s : State) (idx : Nat) : State :=
  match s.liveRanks.find? fun r => r.onCore (idx / 10) && r.ctxs.any fun c => c.num == idx % 10 + 1 with
  | none => s
  | some r =>
    let t := s.stopHelper r.key r.run (idx % 10 + 1)
    t.removeHelper r.key r.run (idx % 10 + 1)

/-- A barrier channel's record zero: no launch holds it any more (R286). [DEDUCED log 89] -/
def State.scrubBarrier (s : State) (ch : Nat) : State :=
  { s with disp := { s.disp with
      launches := s.disp.launches.map fun (l : Launch) => { l with channels := l.channels.filter fun c => c != ch } } }

/-- A resource scrubbed before another holder has it; `holder` held it last, `to` gets it. [DEDUCED log 89] -/
def State.scrub (s : State) (cls idx holder dest : Nat) : State :=
  match cls with
  | 0x01 => s.scrubCoreOf idx holder
  | 0x02 => s.scrubSlot idx
  | 0x03 => s.scrubPlotFor idx dest
  | 0x04 => s.scrubQueue idx
  | 0x05 => s.resetChannel idx s.eng.copies.length
  | 0x06 => s.destroyKey idx
  | 0x07 => s.scrubBarrier idx
  | 0x08 => { s with fab := { s.fab with groups := s.fab.groups.filter fun g => g.num != idx } }
  | 0x09 => { s with host := { s.host with vfs := s.host.vfs.filter fun v => v.num != idx } }
  | 0x0A => { s with log := { s.log with watches := s.log.watches.filter fun w => w.num != idx } }
  | 0x0B =>
    let mine := fun (a : Nat) => s.own.holder 0x03 (plotOf a) == holder
    { s with scr := { s.scr with
      lines := s.scr.lines.filter (fun a => !mine a), dirty := s.scr.dirty.filter (fun d => !mine d.1), reserved := dropAt idx s.scr.reserved } }
  | _ => s

/-! ### `reclaim` (R285, R286, R362, R363) -/

/-- The reclaim image of a core, of the rank that runs there or of none: the state, and whether an image was written; none while a
page is held. -/
def State.reclaimImage (s : State) (core holder : Nat) (r : Option Rank) : Option (State × Bool) :=
  let region := (s.coreAt core).image
  if region = 0 then some (s, false)
  else
    let sections := match r with
      | some q => s.image q 2 true
      | none => s.emptyImage core holder
    let a : ImageAgent := (r.map Rank.imageAgent).getD ⟨⟨2^64, 0⟩, 0, core, holder, 0⟩
    match s.writeImage { a with owner := holder } (addr53 region) 0x3C000 sections with
    | .error .later => none
    | .error (.fails _) => some (s, false)
    | .ok t => some (t, true)

/-- The LOANRET record of a core that a reclaim stopped, to the borrower and to the lender (R363). -/
def State.loanReturned (s : State) (core borrower lender : Nat) : State :=
  let e := { errRec Err.loanRet borrower (descriptor 0x01 core) (wd borrower) 0 with core := core }
  let t := s.report e
  t.copyTo lender { e with time := s.time, num := t.disp.errNum }

/-- The retry-list entries of a core's contexts withdrawn (R362). [DEDUCED log 67] -/
def State.withdrawCore (s : State) (core : Nat) : State :=
  let mine := fun (w : RankKey × Nat × Nat) => s.liveRanks.any fun r => r.is w.1 w.2.1 && r.onCore core
  { s with ms := { s.ms with retry := withdrawRetry s.ms.retry mine } }

/-- The ranks of a launch that a reclaimed core holds ended, and the rest of the launch stopped as the context rung stops it: it ends once its
engine commands have come to their boundaries (R313, R363). [DEDUCED log 67] -/
def State.stopReclaimed (s : State) (core l : Nat) : State :=
  let t := s.rungStop l
  let t := (t.ranksOn core).foldl (fun t r => t.removeRank r.key r.run) t
  { t with disp := { t.disp with ending := setAdd l t.disp.ending } }

/-- Whether a rung that still runs acts on a core: on an engine of it, or on work that has ranks there (R355). -/
def State.rungOn (s : State) (core : Nat) : Bool :=
  let works := (s.ranksOn core).any
  s.disp.rungs.any fun r => match r.target with
    | .matrix c | .walker c | .netif c => c == core
    | .helper k run _ => works fun q => q.is k run
    | .launch l => works fun q => q.key.launch == l
    | .queue n => works fun q => s.queueOf q.key == n
    | .owner o => works fun q => q.id.owner.toNat == o
    | .channel _ | .device => false

/-- A lent core taken from its borrower (R362): matrix operations and copy chunks in flight end, waits are withdrawn, stores performed, the
image written; the borrower's launch that ran there ends without completing (R363). A rank of another that is yet to be vacated goes
first (R46), and a rung that runs on the core ends its action first (R355). Answers whether an image was written. [DEDUCED log 67] -/
def State.takeCore (s : State) (core borrower lender : Nat) : Option (State × Bool) :=
  let held := s.ranksOn core
  let mine := fun (r : Rank) => r.id.owner.toNat == borrower
  let run := held.find? fun r => r.state == .running && mine r
  if held.any (fun r => !mine r) || held.any s.inChunk || s.readsStand core false || s.rungOn core then none
  else
    let t := match run with
      | some r => s.quiet r
      | none => s
    let t := (t.emptyBuffer core).commitAll
    match t.reclaimImage core borrower (run.bind fun r => t.rank? r.key r.run) with
    | none => none
    | some (t, imaged) =>
      let t := t.withdrawCore core
      match t.ranksOn core with
      | [] => some (t, imaged)
      | r :: _ => some ((t.loanReturned core borrower lender).stopReclaimed core r.key.launch, imaged)

/-- A lent resource taken back for an owner: the state, and whether a core's image was written. [DEDUCED log 67] -/
def State.takeBack (s : State) (cls idx dest : Nat) : Option (State × Bool) :=
  let e := s.own.entry cls idx
  match (if cls = 0x01 then s.takeCore idx e.holder e.lender else some (s, false)) with
  | none => none
  | some (t, imaged) => some ((t.scrub cls idx e.holder dest).passTo cls idx dest, imaged)

/-- When a loan can be reclaimed: its term, moved on while the resource's core stands halted (R285). -/
def State.loanExpiry (s : State) (cls idx : Nat) : Nat :=
  let e := s.own.entry cls idx
  let c := s.coreAt (if cls = 0x02 then idx / 10 else idx)
  if (cls = 0x01 || cls = 0x02) && c.halted then e.expiry + e.haltedPart c.haltedAt s.time else e.expiry

/-- `reclaim`: BADRES, NOTHELD, TERM, then the buffer (R236). [DEDUCED log 67] -/
def State.reclaimOp (s : State) (caller : Nat) (a b : Word) : OwnOut :=
  let cls := descClass a
  let idx := descIndex a
  let e := s.own.entry cls idx
  if !descOk a then s.ownAnswer OwnSt.badRes 0
  else if e.lender != caller then s.ownAnswer OwnSt.notHeld 0
  else if s.time < s.loanExpiry cls idx then s.ownAnswer OwnSt.term (s.loanExpiry cls idx - s.time)
  else
    match s.bufferPlace caller b with
    | .held => none
    | .fails _ => s.ownAnswer OwnSt.badArg 0
    | .ok =>
      match s.takeBack cls idx caller with
      | none => none
      | some (t, imaged) =>
        let bytes := t.receipt e.holder caller s.time t.time (methodOf cls imaged) [(cls, idx)]
        (t.writeReceipt caller b bytes).ownAnswer OwnSt.done 0

/-! ### `ownq` and `omake` (R236) -/

/-- The entry as `ownq` gives it; a caller with no part in it sees STATUS 3 alone. -/
def State.ownqOp (s : State) (caller : Nat) (a : Word) : OwnOut :=
  let e := s.own.entry (descClass a) (descIndex a)
  if !descOk a then s.ownAnswer OwnSt.badRes 0
  else if e.holder = caller || e.lender = caller || e.offerTo = caller then
    some (s, wd (2^36 * boolNat e.lendOffer + 2^24 * e.offerTo + 2^12 * e.lender + e.holder))
  else s.ownAnswer OwnSt.notHeld 0

/-- `omake`: the lowest free owner number becomes an owner that holds nothing, the caller its sponsor; the registers of its page are as at reset.
[DESIGN CHOICE log 125] -/
def State.omakeOp (s : State) (caller : Nat) : OwnOut :=
  match ((List.range 4094).map (· + 2)).find? fun n => !s.own.isLive n with
  | none => s.ownAnswer OwnSt.noOwner 0
  | some n =>
    let own := { s.own with owners := (s.own.owners.filter fun r => r.num != n) ++ [OwnerRec.fresh n caller] }
    { s with own := own }.ownAnswer OwnSt.done n

/-! ### `evict` (R287, R355) -/

/-- An owner and those it sponsors, depth first, in ascending number, the owner last. -/
def Ownership.doomed (o : Ownership) : (fuel : Nat) → (owner : Nat) → List Nat
  | 0, owner => [owner]
  | fuel + 1, owner =>
    let kids := (List.range 4096).filter fun n => o.isLive n && n != owner && (o.ownerOr n).sponsor == owner
    kids.flatMap (fun n => o.doomed fuel n) ++ [owner]

/-- The map's entries that differ from the default. -/
def Ownership.listed (o : Ownership) (p : MapEntry → Bool) : List (Nat × Nat) :=
  ((List.range 12).flatMap fun cls =>
    ((o.entries.filter fun e => e.cls == cls && p e).map MapEntry.idx).foldl (fun l i => setAdd i l) [] |>.map fun i => (cls, i))

/-- Every offer by or to an owner withdrawn; givers keep what they offered. -/
def Ownership.dropOffers (o : Ownership) (owner : Nat) : Ownership :=
  { o with entries := o.entries.map fun e =>
      if e.offerTo == owner || (e.offerTo != 0 && e.holder == owner) then
        { e with offerTo := 0, lendOffer := false, offerTerm := 0 } else e }

/-- Resources scrubbed and given on, without images (R287 step 5, R352 step 3). -/
def State.passAll (s : State) (owner dest : Nat) : List (Nat × Nat) → State
  | [] => s
  | (cls, idx) :: r => ((s.scrub cls idx owner dest).giveTo cls idx dest).passAll owner dest r

/-- The loans that an owner holds go back to their lenders, scrubbed, with a LOANRET record to each (R287 step 4). [DEDUCED log 68] -/
def State.returnLoans (s : State) (owner : Nat) : List (Nat × Nat) → State
  | [] => s
  | (cls, idx) :: r =>
    let lender := (s.own.entry cls idx).lender
    let t := (s.scrub cls idx owner lender).passTo cls idx lender
    (t.report (errRec Err.loanRet lender (descriptor cls idx) (wd owner) 0)).returnLoans owner r

/-- What an owner lent, taken back at once with reclaim images, for the evicting sponsor (R355); none while a page is held. The
METHOD bits gathered. -/
def State.takeLoans (s : State) (dest : Nat) : (method : Nat) → List (Nat × Nat) → Option (State × Nat)
  | m, [] => some (s, m)
  | m, (cls, idx) :: r =>
    match s.takeBack cls idx dest with
    | none => none
    | some (t, imaged) => t.takeLoans dest (m ||| methodOf cls imaged) r

/-- Eviction of one owner (R287 steps 2 to 6): what passes to the caller, and the METHOD bits. [DEDUCED log 68] -/
def State.evictOne (s : State) (owner dest : Nat) : Option (State × List (Nat × Nat) × Nat) :=
  let t := s.partitionRung owner
  let t := { t with own := t.own.dropOffers owner }
  let t := t.returnLoans owner (t.own.listed fun e => e.holder == owner && e.lender != 0)
  let lent := t.own.listed fun e => e.lender == owner
  match t.takeLoans dest 0 lent with
  | none => none
  | some (t, m) =>
    let held := t.own.listed fun e => e.holder == owner
    let m := held.foldl (fun m q => m ||| methodOf q.1 false) m
    let t := t.passAll owner dest held
    some ({ t with own := t.own.updOwner owner fun r => { r with live := false } }, lent ++ held, m)

/-- Eviction of a list of owners. -/
def State.evictAll (s : State) (dest : Nat) : List Nat → Option (State × List (Nat × Nat) × Nat)
  | [] => some (s, [], 0)
  | o :: r =>
    match s.evictOne o dest with
    | none => none
    | some (t, ds, m) =>
      match t.evictAll dest r with
      | none => none
      | some (u, es, n) => some (u, ds ++ es, m ||| n)

/-- Descriptors in ascending order, each once. -/
def ascending (l : List (Nat × Nat)) : List (Nat × Nat) :=
  ((l.map fun q => q.1 * 2^48 + q.2).foldl (fun k n => setAdd n k) []).map fun n => (n / 2^48, n % 2^48)

/-- `evict`: NOOWNER, NOTHELD, then the buffer (R236, R287). [DEDUCED log 68] -/
def State.evictOp (s : State) (caller : Nat) (a b : Word) : OwnOut :=
  let o := field a 0 12
  if !zeroAt a 12 52 || !s.own.isLive o then s.ownAnswer OwnSt.noOwner 0
  else if (s.own.ownerOr o).sponsor != caller then s.ownAnswer OwnSt.notHeld 0
  else
    match s.bufferPlace caller b with
    | .held => none
    | .fails _ => s.ownAnswer OwnSt.badArg 0
    | .ok =>
      match s.evictAll caller (s.own.doomed 4096 o) with
      | none => none
      | some (t, ds, m) =>
        let bytes := t.receipt o caller s.time t.time m (ascending ds)
        (t.writeReceipt caller b bytes).ownAnswer OwnSt.done 0

/-! ### The operations by their F codes (R234, R237) -/

/-- The seven operations. -/
inductive OwnF where
  | give | accept | lend | reclaim | ownq | omake | evict
  deriving DecidableEq, Repr

/-- An operation decided on the map as it stands; an owner that does not live may call none (R287). -/
def State.mapOp (s : State) (caller : Nat) (f : OwnF) (a b : Word) : OwnOut :=
  if !s.own.isLive caller then s.ownAnswer OwnSt.noOwner 0
  else
    match f with
    | .give => s.giveOp caller false a b
    | .accept => s.acceptOp caller a b
    | .lend => s.giveOp caller true a b
    | .reclaim => s.reclaimOp caller a b
    | .ownq => s.ownqOp caller a
    | .omake => s.omakeOp caller
    | .evict => s.evictOp caller a b

/-- Whether an operation that took cores back has yet to return: images that it wrote are under way (R339). -/
def State.imagesPend (s : State) (f : OwnF) : Bool := (f == .reclaim || f == .evict) && s.imagesAway

/-- An ownership instruction. Where its operation takes the core it runs on, or its own launch, nothing is left to complete. One whose images
are under way has its status in `lanes` until they are performed. -/
def State.ownInsn (s : State) (f : OwnF) (d : Reg) (a b : Word) : Out :=
  match s.cx.lanes with
  | w :: _ => if s.imagesPend f then .next s else s.result d (wd w)
  | [] =>
    match s.mapOp s.owner f a b with
    | none => .next (s.waitFor .held)
    | some (t, w) =>
      if t.rk.is s.rk.key s.rk.run && t.rk.state != .ended && t.cx.num == s.cx.num && t.cx.run == .running then
        if t.imagesPend f then .next ({ t with cx := { t.cx with lanes := [w.toNat] } }.waitFor .acceptance) else t.result d w
      else .next t

/-- `give` (R236): a release at device scope first. -/
def execGive (d a b : Reg) (_la : Fin 16) (s : State) : Out :=
  match s.releaseReady .dev with
  | .error t => .next t
  | .ok t => t.ownInsn .give d (t.x a) (t.x b)

/-- `accept` (R236): an acquire at device scope. -/
def execAccept (d a b : Reg) (_la : Fin 16) (s : State) : Out :=
  match s.ownInsn .accept d (s.x a) (s.x b) with
  | .next t => .next (if t.cx.wait = .held then t else t.acquire .dev)
  | r => r

/-- `lend` (R236): a release at device scope first. -/
def execLend (d a b : Reg) (_la : Fin 16) (s : State) : Out :=
  match s.releaseReady .dev with
  | .error t => .next t
  | .ok t => t.ownInsn .lend d (t.x a) (t.x b)

/-- `reclaim` (R236, R286). -/
def execReclaim (d a b : Reg) (_la : Fin 16) (s : State) : Out := s.ownInsn .reclaim d (s.x a) (s.x b)

/-- `ownq` (R236). -/
def execOwnq (d a : Reg) (_la : Fin 16) (s : State) : Out := s.ownInsn .ownq d (s.x a) 0

/-- `omake` (R236). -/
def execOmake (d : Reg) (_la : Fin 16) (s : State) : Out := s.ownInsn .omake d 0 0

/-- `evict` (R287). -/
def execEvict (d a b : Reg) (_la : Fin 16) (s : State) : Out := s.ownInsn .evict d (s.x a) (s.x b)

/-! ### The ownership port (R282, R288) -/

/-- The F code of an operation (R234). -/
def OwnF.code : OwnF → Nat
  | .give => 0 | .accept => 1 | .lend => 2 | .reclaim => 3 | .ownq => 4 | .omake => 5 | .evict => 6

/-- The F code of an operation that has been carried out, and whose images are under way. -/
def pendingF : Nat := 7

/-- An operation of a page, which ends with OPRES, or goes on with OPBUSY set while a page it needs is held, or images of it are under way
(R282, R339). [DEDUCED log 67] -/
def State.pageOp (s : State) (page : Nat) (f : OwnF) : State :=
  let r := s.own.ownerOr page
  match s.mapOp page f r.opA r.opB with
  | none => { s with own := s.own.updOwner page fun r => { r with opBusy := true, opF := f.code } }
  | some (t, w) =>
    { t with own := t.own.updOwner page fun r =>
        { r with opRes := w, opBusy := t.imagesPend f, opF := if t.imagesPend f then pendingF else r.opF } }

/-- An operation started by a write of OPCMD on a page; one while OPBUSY is set is ignored (R282), and one for an owner that does not live ends
with NOOWNER (R287). -/
def State.portOp (s : State) (page : Nat) (f : OwnF) : Out :=
  .next (if !s.host.ready || 4096 ≤ page || (s.own.ownerOr page).opBusy then s else s.pageOp page f)

/-- F code 0 through a page. -/
def execPortGive (page : Nat) (s : State) : Out := s.portOp page .give

/-- F code 1 through a page. -/
def execPortAccept (page : Nat) (s : State) : Out := s.portOp page .accept

/-- F code 2 through a page. -/
def execPortLend (page : Nat) (s : State) : Out := s.portOp page .lend

/-- F code 3 through a page. -/
def execPortReclaim (page : Nat) (s : State) : Out := s.portOp page .reclaim

/-- F code 4 through a page. -/
def execPortOwnq (page : Nat) (s : State) : Out := s.portOp page .ownq

/-- F code 5 through a page. -/
def execPortOmake (page : Nat) (s : State) : Out := s.portOp page .omake

/-- F code 6 through a page. -/
def execPortEvict (page : Nat) (s : State) : Out := s.portOp page .evict

end Sys2Proof.Machine
end

