-- ==== Sys2Proof/Machine/Port.lean ====
section
/-! DEFINITION. The registers of the host ports and of the ownership port (13 R280 to R282; 14 R288, R293; 20 R349 to R353), doorbells
and queue descriptors (12 R244, R245), and the accesses of CXL.mem (13 R280). -/

namespace Sys2Proof.Machine

open Sys2Proof

/-- A register's value with bits [hi:lo] kept. [DEDUCED log 70] -/
def bitsKept (v : Word) (lo hi : Nat) : Nat := field v lo (hi + 1 - lo) * 2^lo

/-! ### Queue descriptors (R244, R351) -/

/-- The three descriptor words of a queue. -/
def Queue.word (q : Queue) : Fin 3 → Word
  | 0 => q.base.setWidth 64
  | 1 => wd (q.log2 + 2^16 * q.qkey.toNat + 2^31 * boolNat q.enable)
  | 2 => q.prog.setWidth 64

/-- A queue reconfigured: its counts are 0 (R244). -/
def Queue.restarted (q : Queue) : Queue :=
  { q with head := 0, doneNum := 0, tail := 0, lastFence := 0, seenFence := 0, fenceRec := none, shownFence := 0, shownRec := none, ended := [], record := none,
           progRec := none, ring := none, progRing := none, tell := false, held := false, arrivals := [] }

/-- A queue with one descriptor word written. [DESIGN CHOICE log 119] -/
def Queue.configured (q : Queue) (ix : Fin 3) (v : Word) : Queue :=
  match ix with
  | 0 => { q with base := v.setWidth 53 }
  | 1 => { q with log2 := field v 0 5, qkey := BitVec.ofNat 10 (field v 16 10), enable := bitAt v 31 }
  | 2 => { q with prog := v.setWidth 53 }

/-- The records of a queue's dispatcher gone, and the launch it read and has not placed. -/
def Dispatch.forget (d : Dispatch) (q : Nat) : Dispatch :=
  { d with
    records := dropWaiters (fun _ w => w == Waiter.dispatcher q) d.records
    launches := d.launches.map fun (l : Launch) =>
      let mine := l.queue == q && l.state == .ready && match l.origin with
        | .queue _ => true
        | .program .. | .node .. => false
      if mine then { l with state := .ended } else l }

/-- A descriptor word takes effect on an idle queue: a new BASE or LOG2SIZE restarts the counts, and a new PROG moves the progress
record. -/
def State.writeDescriptor (s : State) (q : Nat) (ix : Fin 3) (v : Word) : State :=
  let t := s.ensureQueue q
  match t.queue? q with
  | none => t
  | some x =>
    let y := x.configured ix v
    if y.base != x.base || y.log2 != x.log2 then
      let u := { t with disp := t.disp.forget q }
      (u.updQueue q fun _ => y.restarted).writeProgress q
    else if y.prog != x.prog then (t.updQueue q fun _ => y).writeProgress q
    else t.updQueue q fun _ => y

/-- A descriptor write that acts for an owner: for a queue it holds and that is idle; otherwise ignored and reported. -/
def State.descriptorWrite (s : State) (owner q : Nat) (ix : Fin 3) (v : Word) : State :=
  let off := 0x48 + 8 * ix.val
  let st := ((s.queue? q).map Queue.state).getD .idle
  if 4096 ≤ q then s
  else if s.own.holder 0x04 q != owner then s.hostWrite owner off 3 v q
  else if st != .idle then s.hostWrite owner off 5 v q
  else s.writeDescriptor q ix v

/-- The holder writes a word of a queue's descriptor, from its page or a VF's BAR0 (R244, R282). -/
def execQueueDescriptorWrite (owner q : Nat) (ix : Fin 3) (v : Word) (s : State) : Out :=
  .next (if s.host.ready && owner < 4096 then s.descriptorWrite owner q ix v else s)

/-! ### Doorbells and the lease (R245, R349, R351) -/

def portNum : HostPort → Fin 2
  | .portA => 0
  | .portB => 1

/-- Whether a port is the active one. -/
def State.isActive (s : State) (p : HostPort) : Bool := s.host.active == (portNum p == 1)

/-- LEASEEXP as both ports give it. [DEDUCED log 74] -/
def State.setLease (s : State) (t : Nat) : State :=
  { s with host := { s.host with ports := s.host.ports.map fun p => { p with leaseExp := t } } }

/-- Accesses held for want of a lease go on. -/
def State.leaseBack (s : State) : State :=
  let t := s.updCtxs (fun _ => true) fun c => match c.wait with
    | .host .. => { c with wait := .none }
    | _ => c
  { t with eng := { t.eng with copies := t.eng.copies.map fun (c : CopyCmd) => { c with lease := none } } }

/-- The takeover by the port of the first doorbell after expiry, which arrived at a time (R349): held interrupts fire once, held records go
to its ring, a LEASE record is written. [DEDUCED log 74] -/
def State.takeover (s : State) (p : HostPort) (time : Nat) : State :=
  let old := s.host.ports[if s.host.active then (1 : Fin 2) else 0].leaseExp
  let t := { s with host := { s.host with active := portNum p == 1, leased := true } }.setLease (time + 1000000000)
  let once := t.host.heldMsix.foldl (fun l m => if l.contains m then l else l ++ [m]) []
  let held := t.host.heldErrs
  let t := { t with host := { t.host with msix := t.host.msix ++ once, heldMsix := [], heldErrs := [] } }
  let t := held.foldl State.hostCopy t
  (t.report (errRec Err.lease 0 (wd (portNum p).val) (wd old) (wd time))).leaseBack

/-- A doorbell taken by the active port for an owner with a live VF: TAIL is set, or the write is ignored and reported. [DEDUCED log 75] -/
def State.ring (s : State) (owner q tail : Nat) : State :=
  let off := 0x1000 + 8 * q
  let tail := tail % 2^32
  let bad := fun (reason : Nat) => s.hostWrite owner off reason (wd tail) q
  match s.queue? q with
  | none => if s.own.holder 0x04 q != owner then bad 3 else bad 2
  | some x =>
    if s.own.holder 0x04 q != owner then bad 3
    else if !x.enable then bad 2
    else if 2^x.log2 < (tail + 2^32 - x.head) % 2^32 then bad 1
    else
      let n := (tail + 2^32 - x.tail) % 2^32
      s.updQueue q fun x =>
        { x with tail := tail, arrivals := if n ≤ 2^x.log2 then x.arrivals ++ [(x.tail, n, s.time)] else x.arrivals }

/-- A doorbell write on a port while a lease holds: on the standby port it is ignored and reported (R280, R282, R349); for an owner with no live VF it
is dropped without a record (R352). [DEDUCED log 74] -/
def State.bellOn (s : State) (port : HostPort) (owner q tail : Nat) : State :=
  if !s.isActive port then s.hostWrite owner (0x1000 + 8 * q) 4 (wd (tail % 2^32)) q
  else if (s.liveVfs owner).isEmpty then s
  else s.ring owner q tail

/-- A doorbell write that arrives on a port (R245): taken at once where a lease holds; else once its nanosecond is over, since one on port A
in the same nanosecond goes first (R349). -/
def State.doorbell (s : State) (port : HostPort) (owner q tail : Nat) : State :=
  if s.host.leased then s.bellOn port owner q tail
  else { s with host := { s.host with bells := s.host.bells ++ [⟨portNum port == 1, owner, q, tail, s.time⟩] } }

/-- The doorbells that arrived while no lease held, in a nanosecond that is over: port A's first; the first takes the lease over.
[DEDUCED log 74] -/
def State.ringBells (s : State) : State :=
  let old := fun (b : Bell) => decide (b.time < s.time)
  let due := s.host.bells.filter old
  let t := { s with host := { s.host with bells := s.host.bells.filter fun b => !old b } }
  (due.filter (fun b => !b.portB) ++ due.filter Bell.portB).foldl (fun t b =>
    let p := if b.portB then HostPort.portB else .portA
    (if t.host.leased then t else t.takeover p b.time).bellOn p b.owner b.queue b.tail) t

/-- A doorbell write on a port (R245). [DEDUCED log 74] -/
def execDoorbell (port : HostPort) (owner q tail : Nat) (s : State) : Out :=
  .next (if !s.host.ready || 4096 ≤ q then s else s.doorbell port owner q tail)

/-- Device time passes LEASEEXP (R349). -/
def execLeaseExpire (s : State) : Out :=
  let p := s.host.ports[if s.host.active then (1 : Fin 2) else 0]
  if s.host.ready && s.host.leased && p.leaseExp < s.time then .next { s with host := { s.host with leased := false } } else .next s

/-- A write of LEASEEXP: of the active port alone, and no later than 10^9 ns from now (R281, R349). -/
def State.writeLease (s : State) (p : HostPort) (v : Word) : State :=
  if !s.host.ready then s
  else if !s.isActive p then s.hostWrite 0 0x18 4 v 0
  else s.setLease (Nat.min v.toNat (s.time + 1000000000))

/-- LEASEEXP written on a port. -/
def execLeaseexpWrite (port : HostPort) (v : Word) (s : State) : Out := .next (s.writeLease port v)

/-! ### Configuration through an ownership page (R288) -/

/-- TROOT: it must lie in a plot that CFGOWN holds. -/
def State.writeTroot (s : State) (v : Word) (owner : Nat) (page : Nat) : State :=
  let a := bitsKept v 13 47
  if plotBacked (plotOf a) && s.own.holder 0x03 (plotOf a) == owner then
    { s with own := s.own.updOwner owner fun r => { r with troot := a } }
  else s.hostWrite page 0x88 3 v 0

/-- MKEYID: a key ID that CFGOWN holds. -/
def State.writeMkeyid (s : State) (v : Word) (owner : Nat) (page : Nat) : State :=
  if s.own.holder 0x06 (field v 0 10) == owner then
    { s with own := s.own.updOwner owner fun r => { r with mkeyid := BitVec.ofNat 10 (field v 0 10) } }
  else s.hostWrite page 0xA8 3 v 0

/-- A VF of the list, or one as it is at reset (R281: WEIGHT 1). -/
def Host_.vf (h : Host_) (n : Nat) : VFunc :=
  (h.vfs.find? fun v => v.num == n).getD
    { num := n, owner := 0, keyid := 0, weight := 1, opA := 0, opB := 0, opRes := 0, opBusy := false, opF := 0, qsel := 0, fired := none }

def State.setVf (s : State) (v : VFunc) : State :=
  { s with host := { s.host with vfs := v :: s.host.vfs.filter fun w => w.num != v.num } }

/-- VFSET: VFCFG of a VF that CFGOWN holds, with a key ID it holds. [DEDUCED log 70] -/
def State.writeVfset (s : State) (v : Word) (owner : Nat) (page : Nat) : State :=
  let n := field v 0 8
  if s.own.holder 0x09 n == owner && s.own.holder 0x06 (field v 12 10) == owner then
    s.setVf { s.host.vf n with
      owner := owner, keyid := BitVec.ofNat 10 (field v 12 10), weight := BitVec.ofNat 5 (field v 24 5) }
  else s.hostWrite page 0xB0 3 v 0

/-- ENROL: the fabric key of a key ID that CFGOWN holds is loaded, with RATE and OPEN (R271). [DESIGN CHOICE log 78] -/
def State.writeEnrol (s : State) (v : Word) (owner : Nat) (page : Nat) : State :=
  let k := field v 0 10
  if s.own.holder 0x06 k == owner then
    let old := s.fab.keys.find? fun q => q.keyid == k
    let row : FabricKey := { keyid := k, loaded := true, rate := field v 16 32, open_ := bitAt v 63,
                             tokens := (old.map fun q => (q.refilled s.time).tokens).getD 65536, filled := s.time,
                             ivc := (old.map FabricKey.ivc).getD 0, lateAt := (old.map FabricKey.lateAt).getD 0 }
    { s with fab := { s.fab with keys := row :: s.fab.keys.filter fun q => q.keyid != k } }
  else s.hostWrite page 0xC0 3 v 0

/-- PLOTKEY: the MKEY of a plot that CFGOWN holds; a changed one makes what the plot held unreadable (R289). [DEDUCED log 70] -/
def State.writePlotkey (s : State) (v : Word) (owner : Nat) (page : Nat) : State :=
  let p := field v 21 27
  let k := field v 48 10
  if resourceExists 0x03 p && s.own.holder 0x03 p == owner && s.own.holder 0x06 k == owner then
    s.setMkey p k
  else s.hostWrite page 0xC8 3 v 0

/-- TROOT through a page. -/
def execTrootWrite (page : Nat) (v : Word) (s : State) : Out :=
  .next (s.configure page 0x88 v fun t o => t.writeTroot v o page)

/-- MKEYID through a page. -/
def execMkeyidWrite (page : Nat) (v : Word) (s : State) : Out :=
  .next (s.configure page 0xA8 v fun t o => t.writeMkeyid v o page)

/-- VFSET through a page. -/
def execVfset (page : Nat) (v : Word) (s : State) : Out := .next (s.configure page 0xB0 v fun t o => t.writeVfset v o page)

/-- ENROL through a page. -/
def execEnrol (page : Nat) (v : Word) (s : State) : Out := .next (s.configure page 0xC0 v fun t o => t.writeEnrol v o page)

/-- PLOTKEY through a page. -/
def execPlotkey (page : Nat) (v : Word) (s : State) : Out := .next (s.configure page 0xC8 v fun t o => t.writePlotkey v o page)

/-! ### Attestation (R291) -/

/-- The report body at an address of owner 1 signed: TIME and HVMEAS written, then SIG over bytes 0x000 to 0x0BF. On a replicated page the bytes
read are those of every update before (R126). [PRESUMED log 63] -/
def State.signReport (s : State) (va : Word) : State :=
  let t := s.writeHome 1 Config.trustAgent (va + 0x10) (leBytes 8 s.time)
  let t := (t.writeHome 1 Config.trustAgent (va + 0x78) (padBytes 32 s.hvMeasure)).commitAll
  let q := t.readHome 1 Config.trustAgent va 0xC0
  q.1.writeHome 1 Config.trustAgent (va + 0xC0) (padBytes 64 (Config.sm2Sign s.hvMeasure q.2))

/-- ATTEST: a body in a plot that owner 1 holds is signed, once its page is not held for a move (R331). [PRESUMED log 63] -/
def State.writeAttest (s : State) (v : Word) : State :=
  let va := addr53 (BitVec.ofNat 53 (bitsKept v 8 52))
  match s.remotePlace 1 .store false va 8, s.placeAt 1 .load va with
  | .ok, some (pa, _) => if s.own.holder 0x03 (plotOf pa) == 1 then s.signReport va else s
  | .held, _ => { s with mgmt := { s.mgmt with attests := s.mgmt.attests ++ [v] } }
  | _, _ => s

/-- The bodies whose page was held, in their order. -/
def State.retryAttests (s : State) : State :=
  s.mgmt.attests.foldl State.writeAttest { s with mgmt := { s.mgmt with attests := [] } }

/-- ATTEST on page 1; on any other page the write is ignored. [PRESUMED log 63] -/
def execAttest (page : Nat) (v : Word) (s : State) : Out :=
  .next (if page != 1 || !s.host.ready || !s.own.isLive 1 then s else s.writeAttest v)

/-! ### Multicast records (R274, R288) -/

/-- The named bits of a group record's word (R274). -/
def mcrecBits (off : Nat) : Nat :=
  if off = 0 then 7 else if off = 8 then 53 else if 0x410 ≤ off then 0 else if off % 16 = 0 then 11 else 53

/-- A word of the record of group MCSEL, which the page's owner must hold. [DEDUCED log 71] -/
def State.writeMcrec (s : State) (page off : Nat) (v : Word) : State :=
  let g := (s.own.ownerOr page).mcsel
  let at_ := off % 0x800 / 8 * 8
  if s.own.holder 0x08 g != page then s.hostWrite page off 3 v 0
  else
    let r := s.fab.group g
    { s with fab := s.fab.setGroup { r with words := putAt (at_ / 8) (wd (field v 0 (mcrecBits at_))) r.words } }

/-- A write in 0x0800 to 0x0FFF of a page. -/
def execMcrecWrite (page off : Nat) (v : Word) (s : State) : Out :=
  .next (if s.host.ready && page < 4096 && 0x800 ≤ off && off < 0x1000 then s.writeMcrec page off v else s)

/-! ### Registers without a behaviour of their own (R281, R282, R288) -/

/-- The F code of OPCMD (R234). -/
def ownF : Nat → Option OwnF
  | 0 => some .give | 1 => some .accept | 2 => some .lend | 3 => some .reclaim | 4 => some .ownq | 5 => some .omake
  | 6 => some .evict
  | _ => none

/-- OPCMD through a page: ignored while OPBUSY. -/
def State.pageCommand (s : State) (page : Nat) (v : Word) : State :=
  match ownF (field v 0 3) with
  | none => s
  | some f =>
    if (s.own.ownerOr page).opBusy then s else s.pageOp page f

/-- The range-watch slot that WSEL addresses, changed (R293). -/
def LogState.setWatch (l : LogState) (f : Watch → Watch) : LogState :=
  let w := (l.watches.find? fun w => w.num == l.wsel).getD { num := l.wsel, cfg := 0, ops := 0 }
  { l with watches := f w :: l.watches.filter fun w => w.num != l.wsel }

def State.updLog (s : State) (f : LogState → LogState) : State := { s with log := f s.log }

def State.updOwn (s : State) (page : Nat) (f : OwnerRec → OwnerRec) : State := { s with own := s.own.updOwner page f }

/-- The registers of page 1 alone (R293, R294, R330). [DEDUCED log 70] -/
def State.writePageOne (s : State) (off : Nat) (v : Word) : State :=
  match off with
  | 0xD0 => s.writeAttest v
  | 0xE0 => s.updLog fun l => { l with wsel := field v 0 12 }
  | 0xE8 => s.updLog fun l => l.setWatch fun w => { w with cfg := v &&& 0x8000FFFFFFFFFFFF }
  | 0xF0 => s.updLog fun l => l.setWatch fun w => { w with ops := BitVec.ofNat 5 (field v 0 5) }
  | 0xF8 => s.updLog fun l => { l with base := BitVec.ofNat 53 (bitsKept v 6 52) }
  | 0x180 => { s with ms := { s.ms with move := { s.ms.move with mvsrc := bitsKept v 13 47 } } }
  | 0x188 => { s with ms := { s.ms with move := { s.ms.move with mvdst := bitsKept v 13 47 } } }
  | 0x190 => s.writeMvctl 1 v
  | _ => s

/-- A write to an ownership page (R288). Offsets that R288 does not list are ignored. -/
def State.writePage (s : State) (page off : Nat) (v : Word) : State :=
  match off with
  | 0x10 => s.updOwn page fun r => { r with opA := v }
  | 0x18 => s.updOwn page fun r => { r with opB := v }
  | 0x20 => s.pageCommand page v
  | 0x40 => s.updOwn page fun r => { r with qsel := field v 0 12 }
  | 0x48 => s.descriptorWrite page (s.own.ownerOr page).qsel 0 v
  | 0x50 => s.descriptorWrite page (s.own.ownerOr page).qsel 1 v
  | 0x58 => s.descriptorWrite page (s.own.ownerOr page).qsel 2 v
  | 0x80 => s.updOwn page fun r => { r with cfgown := field v 0 12 }
  | 0x88 => s.configure page 0x88 v fun t o => t.writeTroot v o page
  | 0x90 => s.configure page 0x90 v fun t o => t.updOwn o fun r => { r with faultq := BitVec.ofNat 53 (bitsKept v 6 52) }
  | 0x98 => s.configure page 0x98 v fun t o => t.updOwn o fun r => { r with saveArea := BitVec.ofNat 53 (bitsKept v 6 52) }
  | 0xA0 => s.configure page 0xA0 v fun t o => t.updOwn o fun r => { r with rwtab := bitsKept v 17 47 }
  | 0xA8 => s.configure page 0xA8 v fun t o => t.writeMkeyid v o page
  | 0xB0 => s.configure page 0xB0 v fun t o => t.writeVfset v o page
  | 0xB8 => s.configure page 0xB8 v fun t o => if bitAt v 0 then t.startFlush o else t
  | 0xC0 => s.configure page 0xC0 v fun t o => t.writeEnrol v o page
  | 0xC8 => s.configure page 0xC8 v fun t o => t.writePlotkey v o page
  | 0xD8 => s.updOwn page fun r => { r with rcptbuf := BitVec.ofNat 53 (bitsKept v 10 52) }
  | 0x100 => s.updOwn page fun r => { r with mcsel := field v 0 12 }
  | _ =>
    if 0x800 ≤ off && off < 0x1000 then s.writeMcrec page off v
    else if page = 1 then s.writePageOne off v
    else s

/-- A write to a PF's BAR0 (R281): the standby port takes none but a LEASEEXP write, which it reports. -/
def State.writePf (s : State) (p : HostPort) (off : Nat) (v : Word) : State :=
  let k := portNum p
  let upd := fun (f : PortRegs → PortRegs) => { s with host := { s.host with ports := s.host.ports.set k (f s.host.ports[k]) } }
  match off with
  | 0x18 => s.writeLease p v
  | 0x20 => if s.isActive p then upd fun r => { r with errBase := v &&& ~~~0x3F } else s
  | 0x28 => if s.isActive p then upd fun r => { r with errCtl := v.setWidth 32 &&& 0x8000000F } else s
  | 0x38 => if s.isActive p then upd fun r => { r with errTail := v.setWidth 32 } else s
  | _ => s

/-- An operation of a VF, for its owner, as a page's. -/
def State.vfOp (s : State) (f : VFunc) (op : OwnF) : State :=
  match s.mapOp f.owner op f.opA f.opB with
  | none => s.setVf { f with opBusy := true, opF := op.code }
  | some (t, w) =>
    let f := t.host.vf f.num
    t.setVf { f with opRes := w, opBusy := t.imagesPend op, opF := if t.imagesPend op then pendingF else f.opF }

/-- OPCMD through a VF, for the VF's owner: ignored while OPBUSY (R282). -/
def State.vfCommand (s : State) (f : VFunc) (v : Word) : State :=
  match ownF (field v 0 3) with
  | none => s
  | some op => if f.opBusy then s else s.vfOp f op

/-- The operations in progress go on (R282). -/
def State.retryOps (s : State) : State :=
  let t := (s.own.owners.filter OwnerRec.opBusy).foldl (fun t r => match ownF r.opF with
    | none => if t.imagesAway then t else { t with own := t.own.updOwner r.num fun r => { r with opBusy := false } }
    | some f => t.pageOp r.num f) s
  (t.host.vfs.filter VFunc.opBusy).foldl (fun t f => match ownF f.opF with
    | none => if t.imagesAway then t else t.setVf { f with opBusy := false }
    | some op => t.vfOp f op) t

/-- A write to a VF's BAR0 through the active port (R282); one to a VF that is not live is dropped without a record (R352). -/
def State.writeVf (s : State) (n off : Nat) (v : Word) : State :=
  let f := s.host.vf n
  if !(s.liveVfs f.owner).any fun w => w.num == n then s
  else
    match off with
    | 0x10 => s.setVf { f with opA := v }
    | 0x18 => s.setVf { f with opB := v }
    | 0x20 => s.vfCommand f v
    | 0x40 => s.setVf { f with qsel := field v 0 12 }
    | 0x48 => s.descriptorWrite f.owner f.qsel 0 v
    | 0x50 => s.descriptorWrite f.owner f.qsel 1 v
    | 0x58 => s.descriptorWrite f.owner f.qsel 2 v
    | _ =>
      if 0x1000 ≤ off && off < 0x9000 then
        s.doorbell (if s.host.active then .portB else .portA) f.owner ((off - 0x1000) / 8) (field v 0 32)
      else s

/-- A write to a register (R281, R282, R288): until READY it is ignored (R297). A page has its registers whether or not its owner lives.
[DESIGN CHOICE log 13] -/
def execRegisterWrite (sp : RegSpace) (off : Nat) (v : Word) (s : State) : Out :=
  if !s.host.ready then .next s
  else
    match sp with
    | .page o => .next (if o < 4096 then s.writePage o off v else s)
    | .pf p => .next (s.writePf p off v)
    | .vf n => .next (s.writeVf n off v)

/-! ### VF Enable (R281, R352) -/

def State.setVfEnable (s : State) (p : HostPort) (on : Bool) : State :=
  let k := portNum p
  { s with host := { s.host with ports := s.host.ports.set k { s.host.ports[k] with vfEnable := on } } }

/-- SR-IOV VF Enable set in a PF: its VFs with an owner are live. -/
def execVfEnableSet (port : HostPort) (s : State) : Out := .next (s.setVfEnable port true)

/-- The launches that run in the queues of an owner. -/
def State.runningFor (s : State) (owner : Nat) : List Launch :=
  s.disp.launches.filter fun l => l.state == .running && s.own.holder 0x04 l.queue == owner

/-- The first steps of R352 for an owner that loses its last live VF: the running launches of its queues are to end at the context rung,
without an image, and its queues take ENABLE 0. -/
def State.loseVfs (s : State) (owner count : Nat) : State :=
  let t := (s.runningFor owner).foldl (fun t l => (t.rungStop l.num).startRung 2 (.launch l.num)) s
  { t with
    disp := { t.disp with
      queues := t.disp.queues.map fun (q : Queue) =>
        if t.own.holder 0x04 q.num == owner then { q with enable := false } else q }
    host := { t.host with losing := putAt owner count t.host.losing } }

/-- What an owner holds of the classes that R352 step 3 names. -/
def State.disableList (s : State) (owner : Nat) : List (Nat × Nat) :=
  [0x01, 0x02, 0x04, 0x05, 0x07].flatMap fun cls =>
    ((List.range (classCount cls)).filter fun i => s.own.holder cls i == owner).map fun i => (cls, i)

/-- Where the receipt of R352 step 4 goes: the buffer that RCPTBUF of the sponsor's page names, if it serves (R353). [DEDUCED log 76] -/
def State.receiptPlace (s : State) (dest : Nat) : Arrival :=
  let b := (s.own.ownerOr dest).rcptbuf
  if b = 0 then .fails 3 else s.bufferPlace dest (addr53 b)

/-- The last steps of R352, once its launches have ended: what the owner holds of the classes named is scrubbed and passed on, and the
receipt and the VFDISABLE record are written. A record with no receipt tells METHOD in VALUE2 (R353). [DEDUCED log 76, DESIGN CHOICE log 112] -/
def State.disableOwner (s : State) (owner count : Nat) : State :=
  let dest := if owner = 1 then 1 else (s.own.ownerOr owner).sponsor
  let place := s.receiptPlace dest
  let ds := s.disableList owner
  let lent := ds.filter fun q => (s.own.entry q.1 q.2).lender != 0
  let rest := ds.filter fun q => (s.own.entry q.1 q.2).lender == 0
  let m := rest.foldl (fun m q => m ||| methodOf q.1 false) 0
  let t := (s.returnLoans owner lent).passAll owner dest rest
  let rec_ := fun (v : Nat) => errRec Err.vfDisable owner (wd owner) (wd count) (wd v)
  match place with
  | .ok =>
    (t.writeReceipt dest (addr53 (s.own.ownerOr dest).rcptbuf) (t.receipt owner dest s.time t.time m (ascending rest))).report
      (rec_ t.time)
  | .held | .fails _ => t.report (rec_ m)

/-- The owners that have lost their last live VF, each done with once its launches have ended and its receipt's page is not held (R352). -/
def State.endLosing (s : State) : State :=
  s.host.losing.foldl (fun t q =>
    let dest := if q.1 = 1 then 1 else (t.own.ownerOr q.1).sponsor
    if !(t.runningFor q.1).isEmpty || decide (t.receiptPlace dest = .held) then t
    else ({ t with host := { t.host with losing := dropAt q.1 t.host.losing } } : State).disableOwner q.1 q.2) s

/-- The active port's PF clears VF Enable: every VF stops being live, and each owner that loses its last one is handled (R352). -/
def execVfEnableClear (port : HostPort) (s : State) : Out :=
  let live := if s.isActive port then s.host.vfs.filter fun v => v.owner != 0 && (s.liveVfs v.owner).any fun w => w.num == v.num else []
  let owners := live.foldl (fun l v => setAdd v.owner l) []
  let t := s.setVfEnable port false
  .next (owners.foldl (fun u o => u.loseVfs o (live.filter fun v => v.owner == o).length) t)

/-! ### Register reads (R6, R281, R282, R288, R330) -/

/-- A descriptor word of queue q as its holder reads it; 0 for another. -/
def State.readDescriptor (s : State) (owner q : Nat) (ix : Fin 3) : Word :=
  if s.own.holder 0x04 q != owner then 0
  else match s.queue? q with
    | none => 0
    | some x => x.word ix

/-- VFCFG of a VF as the host reads it (R281). -/
def State.vfConfig (s : State) (n : Nat) : Word :=
  let f := s.host.vf n
  let live := (s.liveVfs f.owner).any fun w => w.num == n
  wd (f.owner % 2^12 + 2^12 * f.keyid.toNat + 2^24 * f.weight.toNat + 2^32 * boolNat live)

/-- A read of a PF's BAR0 (R281): until READY only ID and STATUS hold values (R297); the standby port answers the identity, status and lease
registers alone (R280). -/
def State.readPf (s : State) (p : HostPort) (off : Nat) : Option Word :=
  let r := s.host.ports[portNum p]
  let a := s.host.ports[if s.host.active then (1 : Fin 2) else 0]
  let err := a.errHead != a.errTail
  match off with
  | 0x00 => some (wd (0x0C09 + 2^16 * Config.revision.toNat + 2^32 * s.node.toNat))
  | 0x08 => some (wd (boolNat s.host.ready + 2 * boolNat s.host.leased + 4 * boolNat err))
  | _ =>
    if !s.host.ready then some 0
    else
      match off with
      | 0x10 => some (wd (boolNat s.host.active))
      | 0x18 => some (wd r.leaseExp)
      | _ =>
        if !s.isActive p then none
        else
          match off with
          | 0x20 => some r.errBase
          | 0x28 => some (r.errCtl.setWidth 64)
          | 0x30 => some (r.errHead.setWidth 64)
          | 0x38 => some (r.errTail.setWidth 64)
          | 0x40 => some (r.errLost.setWidth 64)
          | _ => some (if 0x100 ≤ off && off < 0x900 && off % 8 == 0 then s.vfConfig ((off - 0x100) / 8) else 0)

/-- A read of a VF's BAR0 through the active port (R282); a write-only register reads 0 (R6). -/
def State.readVf (s : State) (n off : Nat) : Word :=
  let f := s.host.vf n
  if !s.host.ready then 0
  else
    match off with
    | 0x00 => wd (n % 2^8)
    | 0x08 => wd (f.owner % 2^12)
    | 0x10 => f.opA
    | 0x18 => f.opB
    | 0x28 => f.opRes
    | 0x30 => wd (boolNat f.opBusy)
    | 0x40 => wd f.qsel
    | 0x48 => s.readDescriptor f.owner f.qsel 0
    | 0x50 => s.readDescriptor f.owner f.qsel 1
    | 0x58 => s.readDescriptor f.owner f.qsel 2
    | _ => 0

/-- The registers of page 1 alone, as read (R288, R293, R330). -/
def State.readPageOne (s : State) (off : Nat) : Word :=
  let w := (s.log.watches.find? fun w => w.num == s.log.wsel).getD { num := s.log.wsel, cfg := 0, ops := 0 }
  let v := s.ms.move
  match off with
  | 0xE0 => wd s.log.wsel
  | 0xE8 => w.cfg
  | 0xF0 => w.ops.setWidth 64
  | 0xF8 => s.log.base.setWidth 64
  | 0x180 => wd v.mvsrc
  | 0x188 => wd v.mvdst
  | 0x190 => wd (2 * boolNat v.size + 2^8 * boolNat v.busy + 2^9 * boolNat v.done)
  | _ => 0

/-- A read of an ownership page (R288): write-only registers, those of page 1 on another page, and offsets that R288 does not list read 0. -/
def State.readPage (s : State) (page off : Nat) : Word :=
  let r := s.own.ownerOr page
  let c := s.own.ownerOr r.cfgown
  match off with
  | 0x00 => wd (page % 2^12)
  | 0x10 => r.opA
  | 0x18 => r.opB
  | 0x28 => r.opRes
  | 0x30 => wd (boolNat r.opBusy)
  | 0x40 => wd r.qsel
  | 0x48 => s.readDescriptor page r.qsel 0
  | 0x50 => s.readDescriptor page r.qsel 1
  | 0x58 => s.readDescriptor page r.qsel 2
  | 0x80 => wd r.cfgown
  | 0x88 => wd c.troot
  | 0x90 => c.faultq.setWidth 64
  | 0x98 => c.saveArea.setWidth 64
  | 0xA0 => wd c.rwtab
  | 0xA8 => c.mkeyid.setWidth 64
  | 0xD8 => r.rcptbuf.setWidth 64
  | 0x100 => wd r.mcsel
  | _ =>
    if 0x800 ≤ off && off < 0x1000 then (s.fab.group r.mcsel).word (off - 0x800)
    else if page = 1 then s.readPageOne off
    else 0

/-- A read of a register (R281, R282, R288); none where no port answers it. -/
def State.readRegister (s : State) (sp : RegSpace) (off : Nat) : Option Word :=
  match sp with
  | .page o => some (if s.host.ready then s.readPage o off else 0)
  | .pf p => s.readPf p off
  | .vf n => some (s.readVf n off)

/-! ### CXL.mem (R280, R350) -/

/-- What an access of window vf meets: the owner it acts for, or the reason of a HOSTACCESS record; none while it is held. [DESIGN CHOICE log 61] -/
def State.cxlPlace (s : State) (n : Nat) (acc : Access) (addr : Word) : Option (Except Nat Nat) :=
  let f := s.host.vf n
  if !(s.liveVfs f.owner).any fun w => w.num == n then some (.error 1)
  else if 2^36 ≤ addr.toNat then some (.error 2)
  else
    match s.remotePlace f.owner acc false addr 8 with
    | .ok => some (.ok f.owner)
    | .held => none
    | .fails 4 => some (.error 3)
    | .fails _ => some (.error 2)

/-- A HOSTACCESS record of a window, at most one for each VF in a ms (R350). -/
def State.cxlRecord (s : State) (n reason : Nat) (addr : Word) : State :=
  let due := match s.host.accessAt.find? fun e => e.1 == n with
    | none => true
    | some e => decide (e.2 + 1000000 ≤ s.time)
  if due then
    let t := { s with host := { s.host with accessAt := putAt n s.time s.host.accessAt } }
    t.report (errRec Err.hostAccess (s.host.vf n).owner addr (wd reason) (wd n))
  else s

/-- A read of the aligned word at an address of window vf, which returns all ones where it cannot be translated; none while its page is held.
[DESIGN CHOICE log 61] -/
def State.cxlRead (s : State) (vf : Nat) (addr : Word) : Option State :=
  let give := fun (t : State) (w : Word) => { t with host := { t.host with reads := t.host.reads ++ [w] } }
  let a := addr &&& ~~~7
  match s.cxlPlace vf .load a with
  | none => none
  | some (.error reason) => some (give (s.cxlRecord vf reason addr) (BitVec.allOnes 64))
  | some (.ok o) =>
    let q := s.readHome o 7 a 8
    some (give q.1 (wd (leNat q.2)))

/-- A write of the aligned word at an address of window vf, dropped where it cannot be translated; none while its page is held. The store is
performed as it completes, for a SYSTEM page over CXL.cache (R130). -/
def State.cxlWrite (s : State) (vf : Nat) (addr v : Word) : Option State :=
  let a := addr &&& ~~~7
  match s.cxlPlace vf .store a with
  | none => none
  | some (.error reason) => some (s.cxlRecord vf reason addr)
  | some (.ok o) => some (s.writeHome o 7 a (leBytes 8 v.toNat))

/-- An access of a window: a write of its data, or a read. -/
def State.cxlAccess (s : State) (vf : Nat) (addr : Word) : Option Word → Option State
  | none => s.cxlRead vf addr
  | some v => s.cxlWrite vf addr v

/-- An access of a window comes in: it is served at once where nothing waits at the active port, and else waits there with the weight of its VF
(R253, R254, R280). [DESIGN CHOICE log 103] -/
def State.cxlArrive (s : State) (vf : Nat) (addr : Word) (data : Option Word) : Out :=
  let arb := hostArbiter s.host.active
  if !s.host.ready then .next s
  else if s.fab.claims.any fun c => c.arb == arb then
    .next { s with fab := s.fab.claim arb 1 (s.vfWeight vf) (.window vf addr data) [] }
  else .next ((s.cxlAccess vf addr data).getD s)

/-- A host reads the word at an address of window vf (R280, R350). [DESIGN CHOICE log 61] -/
def execCxlMemRead (vf : Nat) (addr : Word) (s : State) : Out := s.cxlArrive vf addr none

/-- A host writes the word at an address of window vf (R280, R350). [DESIGN CHOICE log 61] -/
def execCxlMemWrite (vf : Nat) (addr v : Word) (s : State) : Out := s.cxlArrive vf addr (some v)

end Sys2Proof.Machine
end

