-- ==== Sys2Proof/Machine/Trust.lean ====
section
/-! DEFINITION. The hub die beside the compute cores: power (02 R31), arbiters (12 R253, R254), the access log (14
R293, R294), SPDM (14 R296), the scriptorium (02 R24, 06 R130, 20 R354), and the bounds of firmware (02 R30, 20 R356). -/

namespace Sys2Proof.Machine

open Sys2Proof

/-! ### Power (R31, R356) -/

/-- Firmware writes a limit: a value above the ceiling is stored as the ceiling. [DESIGN CHOICE log 14] -/
def execPowerLimitWrite (which : PowerLimit) (v : Nat) (s : State) : Out :=
  match which with
  | .draw => .next { s with mgmt := { s.mgmt with drawLimit := Nat.min v 3200 } }
  | .temperature => .next { s with mgmt := { s.mgmt with tempLimit := Nat.min v Config.temperatureCeiling } }

/-- The limiter measures: while a limit is exceeded it takes away 1/16 of duty, never below half; else it gives 1/16 back. [DESIGN CHOICE log 14] -/
def execPowerMeasure (draw temp : Nat) (s : State) : Out :=
  let above := s.mgmt.drawLimit < draw || s.mgmt.tempLimit < temp
  .next { s with mgmt := { s.mgmt with
    draw := draw, temp := temp, duty := if above then Nat.max 8 (s.mgmt.duty - 1) else Nat.min 16 (s.mgmt.duty + 1) } }

/-! ### Arbiters (R253) -/

/-- The age of a waiting request: its weight for each multiple of 8 since the cycle it arrived in, saturating. -/
def Claim.age (c : Claim) (clock : Nat) : Nat := Nat.min (2^32 - 1) (c.weight * (clock / 8 - c.arrived / 8))

/-- The request that a granting cycle serves: the oldest, the lower port index on ties. [DESIGN CHOICE log 103] -/
def oldestClaim (clock : Nat) : List Claim → Option Claim
  | [] => none
  | c :: r =>
    match oldestClaim clock r with
    | none => some c
    | some d =>
      if c.age clock < d.age clock || (c.age clock == d.age clock && d.port < c.port) then some d else some c

/-- What a granted request does as it leaves: a lossy block is gone for good, and an access of a window is made; none while that is held. -/
def State.depart (s : State) : Cargo → Option State
  | .packet id =>
    match s.fab.request? id with
    | none => some s
    | some q =>
      some (if q.block.isSome then s.loseBlock id else s)
  | .answer .. | .host _ => some s
  | .window vf addr data => s.cxlAccess vf addr data

/-- The port of a router's arbiter takes the flits of a grant, where its replay buffer has room for them; a host port has none.
[DESIGN CHOICE log 95] -/
def Fabric.takeFlits (f : Fabric) (c : Claim) : Option Fabric :=
  if 36 ≤ c.arb then some f
  else if (f.port c.arb).holds c.flits then some (f.setPort ((f.port c.arb).send c.flits)) else none

/-- The oldest request of an arbiter leaves. -/
def State.grant (s : State) (c : Claim) : Option State :=
  match s.fab.takeFlits c with
  | none => none
  | some f =>
    { s with fab := { f with
      claims := removeFirst (fun d => d == c) f.claims, grants := putAt c.arb c.port f.grants } }.depart c.cargo

/-- An arbiter grants, once the blocks that waited too long are gone (R272); a router's port that replays sends its next flit of those first
(R343). [DESIGN CHOICE log 103] -/
def execArbiterGrant (arb : Nat) (s : State) : Out :=
  let s := s.dropLate arb
  let p := s.fab.port arb
  if arb < 36 && !p.again.isEmpty then .next { s with fab := s.fab.setPort { p with again := p.again.drop 1 } }
  else
    match oldestClaim s.fab.clock (s.fab.claims.filter fun c => c.arb == arb) with
    | none => .next s
    | some c => .next ((s.grant c).getD s)

/-! ### The access log (R293, R294) -/

/-- Where the next entry of the ring goes, if the ring has room and its place lies in plots that owner 1 holds (R294). [DESIGN CHOICE log 62] -/
def State.logPlace (s : State) (n : Nat) : Option Word :=
  let va := addr53 s.log.base + wd (Config.logOffset s.log.put)
  let mine := fun (p : Word × Nat) => s.remotePlace 1 .store false p.1 p.2 == .ok && match s.placeAt 1 .store p.1 with
    | some (pa, _) => s.own.holder 0x03 (plotOf pa) == 1
    | none => false
  if !Config.logFull s.tick s.log.put && (pageParts va n).all mine then some va else none

/-- An entry written to the ring. -/
def State.appendLog (s : State) (va : Word) (bytes : List Byte) : State :=
  (s.writeParts 1 Config.trustAgent bytes (pageParts va bytes.length)).updLog fun l => { l with put := l.put + 1 }

/-- A record put into the ring at LOGBASE, or dropped and counted where there is no place for it. [DESIGN CHOICE log 62] -/
def State.putLog (s : State) (bytes : List Byte) : State :=
  match s.logPlace bytes.length with
  | none => s.updLog fun l => { l with dropped := l.dropped + 1 }
  | some va => (s.appendLog va bytes).updLog fun l => { l with records := l.records ++ [bytes] }

/-- The end of logging intervals: one record of 32 bytes for each tuple of an interval that is over. [DESIGN CHOICE log 62] -/
def execAccessLogInterval (s : State) : Out :=
  let over_ := fun (q : LogTuple) => decide (q.start + 1000 ≤ s.time)
  let gone := s.log.tuples.filter over_
  if gone.isEmpty then .next s
  else
    let t := gone.foldl (fun t q =>
      t.putLog (padBytes 32 (Config.logRecord q.start q.slot q.granule q.agent q.owner q.op q.count))) s
    .next (t.updLog fun l => { l with tuples := l.tuples.filter fun q => !over_ q })

/-- Once each ms the root of trust seals the records since the last seal: their chain value, the count dropped, a signature. The chain value is
the last seal's, none at first, taken on record by record through SM3 of both; the attestation key signs it with the count. A seal is not dropped:
where there is no place for it, it waits. [DESIGN CHOICE log 62] -/
def execLogSeal (s : State) : Out :=
  let l := s.log
  let chain := l.records.foldl (fun c r => sm3 (c ++ r)) l.chain
  let entry := Config.logSeal chain (Config.sm2Sign s.hvMeasure (chain ++ leBytes 8 l.dropped)) l.dropped
  match (if s.time < l.sealAt + 1000000 then none else s.logPlace entry.length) with
  | none => .next s
  | some va => .next ((s.appendLog va entry).updLog fun l =>
      { l with records := [], chain := chain, dropped := 0, sealAt := s.time / 1000000 * 1000000 })

/-! ### SPDM (R296) -/

/-- A response of the management core, which answers once bring-up has reached its step 2 (R297). [DESIGN CHOICE log 62] -/
def State.spdmAnswer (s : State) (bytes : List Byte) : Out :=
  if 1 ≤ s.mgmt.stage then .next { s with mgmt := { s.mgmt with spdm := s.mgmt.spdm ++ [bytes] } } else .next s

/-- GET_VERSION. -/
def execGetVersion (s : State) : Out := s.spdmAnswer (Config.spdmBody 0x84 0)

/-- GET_CAPABILITIES. -/
def execGetCapabilities (s : State) : Out := s.spdmAnswer (Config.spdmBody 0xE1 0)

/-- NEGOTIATE_ALGORITHMS: SM2_P256 and SM3_256 alone can be agreed on. -/
def execNegotiateAlgorithms (s : State) : Out :=
  let m := if 1 ≤ s.mgmt.stage then { s.mgmt with agreed := some (.sm2P256, .sm3_256) } else s.mgmt
  { s with mgmt := m }.spdmAnswer (Config.spdmBody 0xE3 0)

/-- GET_DIGESTS. -/
def execGetDigests (s : State) : Out := s.spdmAnswer (Config.spdmBody 0x81 0)

/-- GET_CERTIFICATE. -/
def execGetCertificate (slot : Nat) (s : State) : Out := s.spdmAnswer (Config.spdmBody 0x82 slot)

/-- CHALLENGE, answered with a signature under the attestation key over the nonce's 8 bytes alone. [DESIGN CHOICE log 62] -/
def execChallenge (nonce : Word) (s : State) : Out :=
  s.spdmAnswer (Config.spdmBody 0x83 0 ++ Config.sm2Sign s.hvMeasure (leBytes 8 nonce.toNat))

/-- GET_MEASUREMENTS: blocks 0 to 7 are the registers of R295. -/
def execGetMeasurements (ix : Nat) (s : State) : Out :=
  s.spdmAnswer (Config.spdmBody 0xE0 ix ++ ((s.mgmt.measured.toList[ix]?).elim [] registerBytes))

/-! ### The scriptorium (R24, R130, R354) -/

/-- Whether an owner holds a scriptorium core that runs. -/
def State.scriptRuns (s : State) (owner : Nat) : Bool :=
  (List.range 16).any fun i => s.own.holder 0x0B i == owner && !s.scr.stopped.contains i && (i != 0 || s.scr.hypervisor)

/-- A line held in a scriptorium cache. -/
def Scriptorium.hold (c : Scriptorium) (line : Nat) : Scriptorium := { c with lines := setAdd line c.lines }

/-- A store of a scriptorium core: its line is dirty until it is written back; home holds what stood there before. -/
def State.scriptStore (s : State) (owner : Nat) (va : Word) (bs : List Byte) : State :=
  match s.placeAt owner .store va with
  | none => s
  | some (pa, _) =>
    let line := lineOf pa
    let old := match s.scr.dirty.find? fun d => d.1 == line with
      | some d => d.2
      | none => readBytes s.ms.mem (s.ms.homeAddr line) 64
    let t := s.writeHome owner 6 va bs
    { t with scr := { (t.scr.hold line) with dirty := putAt line old t.scr.dirty } }

/-- What the rl bit or a FENCE waits for: every earlier access performed at device scope (R130). The scriptorium's stores are performed as
they are made, but for updates of replicated pages; its caches are coherent, so that the aq bit finds nothing to drop. -/
def State.scriptRelease (s : State) (rl : Bool) : State := if rl then s.commitAll else s

/-- A load of a scriptorium core, and the line it leaves in the caches. -/
def State.scriptLoad (s : State) (owner : Nat) (va : Word) (bytes : Nat) : State :=
  let q := s.readHome owner 6 va bytes
  let line := ((s.placeAt owner .load va).map fun p => lineOf p.1).getD 0
  { q.1 with scr := { (q.1.scr.hold line) with loads := q.1.scr.loads ++ [wd (leNat q.2)] } }

/-- An access of a scriptorium core for an owner's guest (R130): coherent with every other one, at device scope. LR reserves its line; an SC
stores and gives 0 while its core's reservation stands, and else gives 1. One that does not translate, or whose page is held, does nothing here.
[DESIGN CHOICE log 79] -/
def State.scriptAccess (s : State) (a : ScrAccess) : State :=
  match a with
  | .load o va n =>
    match s.remotePlace o .load false va n with
    | .ok => s.scriptLoad o va n
    | .held | .fails _ => s
  | .store o va n data =>
    match s.remotePlace o .store false va n with
    | .ok => s.scriptStore o va (leBytes n data.toNat)
    | .held | .fails _ => s
  | .amo o va n op data cmp _ rl =>
    match s.remotePlace o .atomic false va n with
    | .ok =>
      let q := (s.scriptRelease rl).amoHome o 6 va n (amoOf op) data.toNat cmp.toNat
      { q.1 with scr := { q.1.scr with loads := q.1.scr.loads ++ [wd q.2] } }
    | .held | .fails _ => s
  | .lr k o va n _ rl =>
    match s.remotePlace o .load false va n with
    | .ok =>
      let t := (s.scriptRelease rl).scriptLoad o va n
      match s.placeAt o .load va with
      | some (pa, _) => { t with scr := { t.scr with reserved := putAt k (lineOf pa) t.scr.reserved } }
      | none => t
    | .held | .fails _ => s
  | .sc k o va n data _ rl =>
    match s.remotePlace o .store false va n with
    | .ok =>
      let u := s.scriptRelease rl
      let mine := match s.placeAt o .store va with
        | some (pa, _) => u.scr.reserved.contains (k, lineOf pa)
        | none => false
      let t := if mine then u.scriptStore o va (leBytes n data.toNat) else u
      { t with scr := { t.scr with reserved := dropAt k t.scr.reserved, loads := t.scr.loads ++ [if mine then 0 else 1] } }
    | .held | .fails _ => s
  | .fence => s.scriptRelease true

/-- Whom an access acts for; a fence names nobody. -/
def scrOwner : ScrAccess → Option Nat
  | .load o .. | .store o .. | .amo o .. | .lr _ o .. | .sc _ o .. => some o
  | .fence => none

/-- An access of at most 8 bytes, naturally aligned. -/
def scrAligned : ScrAccess → Bool
  | .load _ va n | .store _ va n _ | .amo _ va n .. | .lr _ _ va n .. | .sc _ _ va n .. => (n == 1 || n == 2 || n == 4 || n == 8) && va.toNat % n == 0
  | .fence => true

/-- A scriptorium core accesses device memory. [DESIGN CHOICE log 79, DESIGN CHOICE log 13] -/
def execScriptoriumAccess (a : ScrAccess) (s : State) : Out :=
  let runs := match scrOwner a with
    | none => true
    | some o => s.scriptRuns o
  .next (if runs && scrAligned a && s.host.ready then s.scriptAccess a else s)

/-- A SCRCACHE record (R342). [DEDUCED log 80] -/
def State.scrRecord (s : State) (dest line reason owner : Nat) : State :=
  s.report (errRec Err.scrCache dest (wd line) (wd reason) (wd owner))

/-- The contents that home has of a dirty line that is lost. [DEDUCED log 80] -/
def State.loseLine (s : State) (line : Nat) : State :=
  match s.scr.dirty.find? fun d => d.1 == line with
  | none => s
  | some d => { s with
      ms := { s.ms with mem := writeBytes s.ms.mem (s.ms.homeAddr line) d.2 }
      scr := s.scr.invalidate line }

/-- An uncorrectable error in a scriptorium cache line (R354): a clean line is refetched; a dirty one of owner p ≠ 1 ends p's partition;
one of owner 1, or outside device memory, ends the device. [DEDUCED log 80] -/
def execScrcache (line : Nat) (dirty : Bool) (s : State) : Out :=
  let a := lineOf line
  let p := if backed a then s.own.holder 0x03 (plotOf a) else 1
  if !s.host.ready then .next s
  else if !dirty then .next ({ s with scr := s.scr.invalidate a }.scrRecord p a 1 p)
  else if p = 1 then .next (s.deviceRung.scrRecord 0 a 3 p)
  else
    let mine := (List.range 16).filter fun i => s.own.holder 0x0B i == p
    let t := s.loseLine a
    let t := { t with scr := { t.scr with stopped := mine.foldl (fun l i => setAdd i l) t.scr.stopped } }
    .next ((t.startPartition p).scrRecord 1 a 2 p)

/-! ### Firmware (R30, R356) -/

/-- Whether the memory port of the management core passes an access: the firmware region, the slot table, the error-record rings, and reads of
the ownership map (R30). -/
def fwPasses (write : Bool) (addr : Nat) : Bool :=
  Config.inFirmwareRegion addr || Config.inFirmwareTables addr || (!write && Config.inMapView addr)

/-- A management packet leaves by a port, which its limiter then closes until 1% of 112 GB/s has carried its flits of 72 bytes (R30).
[DEDUCED log 77] -/
def Port.sendFirmware (p : Port) (time bytes : Nat) : Port :=
  let fs := packetFlits 0 0 2 bytes
  { p.send fs with fwFree := Nat.max p.fwFree (100 * time) + 72 * fs.length * 10000 / 112 }

/-- Whether a management packet can leave by a port at all: its link is in service, and its replay buffer has room. -/
def Port.takesPacket (p : Port) : Bool := !p.dead && p.replay.length ≤ 447

/-- Whether a port sends the next management packet: its limiter lets it go. -/
def Port.limiterOpen (p : Port) (time : Nat) : Bool := p.takesPacket && p.fwFree ≤ 100 * time

/-- Whether traffic of firmware is above 1% of a port: the limiter holds it, or what came before it (R356). [DEDUCED log 77] -/
def Port.overLimit (p : Port) (time : Nat) : Bool := decide (100 * time < p.fwFree) || (!p.fwHeld.isEmpty && p.takesPacket)

/-- The packets that a limiter holds, sent once it lets them go; none is dropped (R356). -/
def Port.releaseHeld (p : Port) (time : Nat) : Port :=
  match p.fwHeld with
  | [] => p
  | b :: r => if p.limiterOpen time then { p with fwHeld := r }.sendFirmware time b else p

/-- Firmware attempts to pass a bound (R356). An access that its bound admits is no such attempt. [DEDUCED log 77] -/
def execFwbound (a : FwAttempt) (s : State) : Out :=
  match a with
  | .memory write addr =>
    let t := if write then s else { s with mgmt := { s.mgmt with fwReads := s.mgmt.fwReads ++ [0] } }
    .next (if fwPasses write addr then s else t.fwRecord (wd addr) 1)
  | .classTraffic port bytes =>
    let p := s.fab.port port
    if !s.fab.portActive port then .next s
    else if p.fwHeld.isEmpty && p.limiterOpen s.time then .next { s with fab := s.fab.setPort (p.sendFirmware s.time bytes) }
    else
      let t := { s with fab := s.fab.setPort { p with fwHeld := p.fwHeld ++ [bytes] } }
      .next (if p.overLimit s.time then t.fwRecord (wd port) 3 else t)
  | .hostDma addr => if Config.inFirmwareWindow addr then .next s else .next (s.fwRecord (wd addr) 4)
  | .bind slot b => if slot < 4096 && !s.bindOk slot b then .next (s.writeBind slot b) else .next s

end Sys2Proof.Machine
end

