-- ==== Sys2Proof/Machine/Vector.lean ====
section
/-! DEFINITION. The vector instructions without a memory operand (09 R169 to R180, 04 R77): integer, floating point,
conversions and packs, permutes, reductions, predicates. Each is a lane function in the frame of Operands.vector. -/

namespace Sys2Proof.Machine

open Sys2Proof

/-! ### Shared operations -/

/-- The lanes of VD where the predicate allows become those of v (R168). -/
def State.putLanes (s : State) (d : VField) (pg : Fin 8) (w : Nat) (v : List Nat) : State :=
  s.writeV d (laneMask w (activeLanes w (s.mask pg))) (joinLanes w v)

/-- Every byte of VD becomes that of v. -/
def State.putAll (s : State) (d : VField) (v : VReg) : State := s.writeV d (BitVec.allOnes 128) v

/-- A two-source integer operation on the active lanes (R169). -/
def State.vecInt (s : State) (i : Instr) (d a b : VField) (pg : Fin 8) (t : ElemType)
    (f : (w : Nat) → BitVec w → BitVec w → BitVec w) : Out :=
  let w := elemWidth t
  s.vector i [a, b] (some d) false fun vs =>
    s.putLanes d pg w (((lanesOf w (vs.getD 0 0)).zip (lanesOf w (vs.getD 1 0))).map fun q =>
      (f w (BitVec.ofNat w q.1) (BitVec.ofNat w q.2)).toNat)

/-- The mask of d: the active lanes whose condition holds (R167, R170). -/
def State.putCompare (s : State) (d pg : Fin 8) (w : Nat) (cs : List Bool) : State :=
  s.setMask d (laneMask w ((activeLanes w (s.mask pg)).zipWith (fun x y => x && y) cs))

/-- An integer compare (R170). -/
def State.vecCmp (s : State) (i : Instr) (d : Fin 8) (a b : VField) (pg : Fin 8) (t : ElemType)
    (f : (w : Nat) → BitVec w → BitVec w → Bool) : Out :=
  let w := elemWidth t
  s.vector i [a, b] none false fun vs =>
    s.putCompare d pg w (((lanesOf w (vs.getD 0 0)).zip (lanesOf w (vs.getD 1 0))).map fun q =>
      f w (BitVec.ofNat w q.1) (BitVec.ofNat w q.2))

/-- The rounding mode of cr.frm (R64). -/
def State.rm (s : State) : Nat := s.cx.cr.frm.toNat

/-- The format of an FP element type. -/
def fpOf (t : ElemType) : FpFmt := if t = .bf16 then bf16 else fp32

/-- The flags of the active lanes of a result, raised once (R168). -/
def activeFlags : List Bool → List FpRes → BitVec 5
  | b :: bs, r :: rs => flagIf b r.2 ||| activeFlags bs rs
  | _, _ => 0

/-- A floating-point operation on the active lanes: f of the lanes of VA, VB and the old VD (R171). -/
def State.vecFp (s : State) (i : Instr) (srcs : List VField) (d : VField) (old : Bool) (pg : Fin 8) (t : ElemType)
    (f : FpFmt → (rm x y z : Nat) → FpRes) : Out :=
  let w := elemWidth t
  s.vector i srcs (some d) old fun vs =>
    let rs := ((lanesOf w (vs.getD 0 0)).zip ((lanesOf w (vs.getD 1 0)).zip (lanesOf w (s.v d)))).map fun q =>
      f (fpOf t) s.rm q.1 q.2.1 q.2.2
    (s.putLanes d pg w (rs.map (·.1))).raise (activeFlags (activeLanes w (s.mask pg)) rs)

/-- A floating-point compare: f answers the condition and the flags (R172). -/
def State.vecFpCmp (s : State) (i : Instr) (d : Fin 8) (a b : VField) (pg : Fin 8) (t : ElemType)
    (f : Fp → Fp → Bool × BitVec 5) : Out :=
  let w := elemWidth t
  s.vector i [a, b] none false fun vs =>
    let rs := ((lanesOf w (vs.getD 0 0)).zip (lanesOf w (vs.getD 1 0))).map fun q =>
      f ((fpOf t).value q.1) ((fpOf t).value q.2)
    (s.putCompare d pg w (rs.map (·.1))).raise (activeFlags (activeLanes w (s.mask pg)) (rs.map fun r => (0, r.2)))

/-- A conversion of every lane, with the flags of all of them (R174). -/
def State.vecConv (s : State) (i : Instr) (srcs : List VField) (d : VField) (old : Bool)
    (f : List VReg → VReg × BitVec 5) : Out :=
  s.vector i srcs (some d) old fun vs => (s.putAll d (f vs).1).raise (f vs).2

/-- The OR of the flags of some results. -/
def allFlags (rs : List FpRes) : BitVec 5 := rs.foldl (fun x r => x ||| r.2) 0

/-- Results as lanes of w bits, and their flags. -/
def joinRes (w : Nat) (rs : List FpRes) : VReg × BitVec 5 := (joinLanes w (rs.map (·.1)), allFlags rs)

/-- The packs of R175: the old bytes 64 to 127 move down, the 64 new bytes stand above. -/
def packHigh (old : VReg) (w : Nat) (new : List Nat) : VReg := (old >>> 512) ||| (joinLanes w new <<< 512)

/-! ### Opcode 0x21: integer (R169, R170) -/

/-- `vadd` (R169): a + b. -/
def execVadd (d a b : Reg) (pg : Fin 8) (t : ElemType) (s : State) : Out :=
  s.vecInt (.vadd d a b pg t) d a b pg t fun _ a b => a + b

/-- `vsub` (R169): a - b. -/
def execVsub (d a b : Reg) (pg : Fin 8) (t : ElemType) (s : State) : Out :=
  s.vecInt (.vsub d a b pg t) d a b pg t fun _ a b => a - b

/-- `vmul` (R169): bits [w-1:0] of a × b. -/
def execVmul (d a b : Reg) (pg : Fin 8) (t : ElemType) (s : State) : Out :=
  s.vecInt (.vmul d a b pg t) d a b pg t fun _ a b => a * b

/-- `vmulh` (R169): bits [2w-1:w] of a × b, both signed. -/
def execVmulh (d a b : Reg) (pg : Fin 8) (t : ElemType) (s : State) : Out :=
  s.vecInt (.vmulh d a b pg t) d a b pg t fun w a b => mulHigh w (a.toInt * b.toInt)

/-- `vmulhu` (R169): bits [2w-1:w] of a × b, both unsigned. -/
def execVmulhu (d a b : Reg) (pg : Fin 8) (t : ElemType) (s : State) : Out :=
  s.vecInt (.vmulhu d a b pg t) d a b pg t fun w a b => mulHigh w (a.toNat * b.toNat)

/-- `vmin` (R169): the smaller, signed. -/
def execVmin (d a b : Reg) (pg : Fin 8) (t : ElemType) (s : State) : Out :=
  s.vecInt (.vmin d a b pg t) d a b pg t fun _ a b => minS a b

/-- `vmax` (R169): the larger, signed. -/
def execVmax (d a b : Reg) (pg : Fin 8) (t : ElemType) (s : State) : Out :=
  s.vecInt (.vmax d a b pg t) d a b pg t fun _ a b => maxS a b

/-- `vminu` (R169): the smaller, unsigned. -/
def execVminu (d a b : Reg) (pg : Fin 8) (t : ElemType) (s : State) : Out :=
  s.vecInt (.vminu d a b pg t) d a b pg t fun _ a b => minU a b

/-- `vmaxu` (R169): the larger, unsigned. -/
def execVmaxu (d a b : Reg) (pg : Fin 8) (t : ElemType) (s : State) : Out :=
  s.vecInt (.vmaxu d a b pg t) d a b pg t fun _ a b => maxU a b

/-- `vand` (R169): a AND b. -/
def execVand (d a b : Reg) (pg : Fin 8) (t : ElemType) (s : State) : Out :=
  s.vecInt (.vand d a b pg t) d a b pg t fun _ a b => a &&& b

/-- `vor` (R169): a OR b. -/
def execVor (d a b : Reg) (pg : Fin 8) (t : ElemType) (s : State) : Out :=
  s.vecInt (.vor d a b pg t) d a b pg t fun _ a b => a ||| b

/-- `vxor` (R169): a XOR b. -/
def execVxor (d a b : Reg) (pg : Fin 8) (t : ElemType) (s : State) : Out :=
  s.vecInt (.vxor d a b pg t) d a b pg t fun _ a b => a ^^^ b

/-- `vsll` (R169): a shifted left by the low log2(w) bits of b. -/
def execVsll (d a b : Reg) (pg : Fin 8) (t : ElemType) (s : State) : Out :=
  s.vecInt (.vsll d a b pg t) d a b pg t fun w a b => a <<< (b.toNat % w)

/-- `vsrl` (R169): a shifted right by those bits, zeros entering. -/
def execVsrl (d a b : Reg) (pg : Fin 8) (t : ElemType) (s : State) : Out :=
  s.vecInt (.vsrl d a b pg t) d a b pg t fun w a b => a >>> (b.toNat % w)

/-- `vsra` (R169): a shifted right by those bits, copies of the top bit entering. -/
def execVsra (d a b : Reg) (pg : Fin 8) (t : ElemType) (s : State) : Out :=
  s.vecInt (.vsra d a b pg t) d a b pg t fun w a b => a.sshiftRight (b.toNat % w)

/-- `vabs` (R169): the most negative value gives itself. -/
def execVabs (d a : Reg) (pg : Fin 8) (t : ElemType) (s : State) : Out :=
  let w := elemWidth t
  s.vector (.vabs d a pg t) [a] (some d) false fun vs =>
    s.putLanes d pg w ((lanesOf w (vs.getD 0 0)).map fun x =>
      let b := BitVec.ofNat w x
      (if b.msb then -b else b).toNat)

/-- `vcmpeq` (R170): a = b. -/
def execVcmpeq (d : Fin 8) (a b : Reg) (pg : Fin 8) (t : ElemType) (s : State) : Out :=
  s.vecCmp (.vcmpeq d a b pg t) d a b pg t fun _ a b => a == b

/-- `vcmplt` (R170): a < b, signed. -/
def execVcmplt (d : Fin 8) (a b : Reg) (pg : Fin 8) (t : ElemType) (s : State) : Out :=
  s.vecCmp (.vcmplt d a b pg t) d a b pg t fun _ a b => a.slt b

/-- `vcmpltu` (R170): a < b, unsigned. -/
def execVcmpltu (d : Fin 8) (a b : Reg) (pg : Fin 8) (t : ElemType) (s : State) : Out :=
  s.vecCmp (.vcmpltu d a b pg t) d a b pg t fun _ a b => a.ult b

/-! ### Opcode 0x22: floating point (R171 to R173) -/

/-- `vfadd` (R171): a + b. -/
def execVfadd (d a b : Reg) (pg : Fin 8) (t : ElemType) (s : State) : Out :=
  s.vecFp (.vfadd d a b pg t) [a, b] d false pg t fun f rm x y _ => f.addV rm (f.value x) (f.value y)

/-- `vfsub` (R171): a - b. -/
def execVfsub (d a b : Reg) (pg : Fin 8) (t : ElemType) (s : State) : Out :=
  s.vecFp (.vfsub d a b pg t) [a, b] d false pg t fun f rm x y _ => f.addV rm (f.value x) (f.value y).negate

/-- `vfmul` (R171): a × b. -/
def execVfmul (d a b : Reg) (pg : Fin 8) (t : ElemType) (s : State) : Out :=
  s.vecFp (.vfmul d a b pg t) [a, b] d false pg t fun f rm x y _ => f.mulV rm (f.value x) (f.value y)

/-- `vfma` (R171): a × b + d with one rounding. -/
def execVfma (d a b : Reg) (pg : Fin 8) (t : ElemType) (s : State) : Out :=
  s.vecFp (.vfma d a b pg t) [a, b] d true pg t fun f rm x y z => f.fmaV rm (f.value x) (f.value y) (f.value z)

/-- `vfms` (R171): a × b - d with one rounding. -/
def execVfms (d a b : Reg) (pg : Fin 8) (t : ElemType) (s : State) : Out :=
  s.vecFp (.vfms d a b pg t) [a, b] d true pg t fun f rm x y z => f.fmaV rm (f.value x) (f.value y) (f.value z).negate

/-- `vfnma` (R171): d - a × b with one rounding. -/
def execVfnma (d a b : Reg) (pg : Fin 8) (t : ElemType) (s : State) : Out :=
  s.vecFp (.vfnma d a b pg t) [a, b] d true pg t fun f rm x y z => f.fmaV rm (f.value x).negate (f.value y) (f.value z)

/-- `vfmin` (R172): the smaller. -/
def execVfmin (d a b : Reg) (pg : Fin 8) (t : ElemType) (s : State) : Out :=
  s.vecFp (.vfmin d a b pg t) [a, b] d false pg t fun f _ x y _ => f.pick true x y

/-- `vfmax` (R172): the larger. -/
def execVfmax (d a b : Reg) (pg : Fin 8) (t : ElemType) (s : State) : Out :=
  s.vecFp (.vfmax d a b pg t) [a, b] d false pg t fun f _ x y _ => f.pick false x y

/-- `vfdiv` (R171): a ÷ b. -/
def execVfdiv (d a b : Reg) (pg : Fin 8) (t : ElemType) (s : State) : Out :=
  s.vecFp (.vfdiv d a b pg t) [a, b] d false pg t fun f rm x y _ => f.divV rm (f.value x) (f.value y)

/-- `vfsqrt` (R171): √a. -/
def execVfsqrt (d a : Reg) (pg : Fin 8) (t : ElemType) (s : State) : Out :=
  s.vecFp (.vfsqrt d a pg t) [a] d false pg t fun f rm x _ _ => f.sqrtV rm (f.value x)

/-- `vfrcp` (R171): 1 ÷ a. -/
def execVfrcp (d a : Reg) (pg : Fin 8) (t : ElemType) (s : State) : Out :=
  s.vecFp (.vfrcp d a pg t) [a] d false pg t fun f rm x _ _ => f.rcpV rm (f.value x)

/-- `vfrsq` (R171): 1 ÷ √a. -/
def execVfrsq (d a : Reg) (pg : Fin 8) (t : ElemType) (s : State) : Out :=
  s.vecFp (.vfrsq d a pg t) [a] d false pg t fun f rm x _ _ => f.rsqV rm (f.value x)

/-- `vfexp2` (R171): 2^a. -/
def execVfexp2 (d a : Reg) (pg : Fin 8) (t : ElemType) (s : State) : Out :=
  s.vecFp (.vfexp2 d a pg t) [a] d false pg t fun f rm x _ _ => f.exp2V rm (f.value x)

/-- `vflog2` (R171): log2 a. -/
def execVflog2 (d a : Reg) (pg : Fin 8) (t : ElemType) (s : State) : Out :=
  s.vecFp (.vflog2 d a pg t) [a] d false pg t fun f rm x _ _ => f.log2V rm (f.value x)

/-- `vfabs` (R171, R172): a with its sign bit cleared. -/
def execVfabs (d a : Reg) (pg : Fin 8) (t : ElemType) (s : State) : Out :=
  s.vecFp (.vfabs d a pg t) [a] d false pg t fun f _ x _ _ => f.resign true x

/-- `vfneg` (R171, R172): a with its sign bit inverted. -/
def execVfneg (d a : Reg) (pg : Fin 8) (t : ElemType) (s : State) : Out :=
  s.vecFp (.vfneg d a pg t) [a] d false pg t fun f _ x _ _ => f.resign false x

/-- `vfcmpeq` (R172): a = b; NV for a signalling NaN only. -/
def execVfcmpeq (d : Fin 8) (a b : Reg) (pg : Fin 8) (t : ElemType) (s : State) : Out :=
  s.vecFpCmp (.vfcmpeq d a b pg t) d a b pg t fun x y => (x.eq y, flagIf (x.signals || y.signals) Flag.nv)

/-- `vfcmplt` (R172): a < b; NV for any NaN. -/
def execVfcmplt (d : Fin 8) (a b : Reg) (pg : Fin 8) (t : ElemType) (s : State) : Out :=
  s.vecFpCmp (.vfcmplt d a b pg t) d a b pg t fun x y => (x.lt false y, flagIf (x.isNan || y.isNan) Flag.nv)

/-- `vfcmple` (R172): a ≤ b; NV for any NaN. -/
def execVfcmple (d : Fin 8) (a b : Reg) (pg : Fin 8) (t : ElemType) (s : State) : Out :=
  s.vecFpCmp (.vfcmple d a b pg t) d a b pg t fun x y => (x.lt false y || x.eq y, flagIf (x.isNan || y.isNan) Flag.nv)

/-- `vfcmpun` (R172): either is a NaN; NV for a signalling NaN only. -/
def execVfcmpun (d : Fin 8) (a b : Reg) (pg : Fin 8) (t : ElemType) (s : State) : Out :=
  s.vecFpCmp (.vfcmpun d a b pg t) d a b pg t fun x y => (x.isNan || y.isNan, flagIf (x.signals || y.signals) Flag.nv)

/-- `vresc` (R173): a × d ÷ b with one rounding. -/
def execVresc (d a b : Reg) (pg : Fin 8) (t : ElemType) (s : State) : Out :=
  s.vecFp (.vresc d a b pg t) [a, b] d true pg t fun f rm x y z => f.rescV rm (f.value x) (f.value z) (f.value y)

/-! ### Opcode 0x23: conversions and packs (R174, R175) -/

/-- `vcvt.f32.i32` (R174): INT32 lanes to FP32. -/
def execVcvtF32I32 (d a : Reg) (s : State) : Out :=
  s.vecConv (.vcvtF32I32 d a) [a] d false fun vs =>
    joinRes 32 ((lanesOf 32 (vs.getD 0 0)).map (convFromInt32 s.rm))

/-- `vcvt.i32.f32` (R174): FP32 lanes to INT32. -/
def execVcvtI32F32 (d a : Reg) (s : State) : Out :=
  s.vecConv (.vcvtI32F32 d a) [a] d false fun vs => joinRes 32 ((lanesOf 32 (vs.getD 0 0)).map (convInt32 s.rm))

/-- `vcvt.bf16.f32` (R174): BF16 lanes 0-31 from VA, 32-63 from VB. -/
def execVcvtBf16F32 (d a b : Reg) (s : State) : Out :=
  s.vecConv (.vcvtBf16F32 d a b) [a, b] d false fun vs =>
    joinRes 16 ((lanesOf 32 (vs.getD 0 0) ++ lanesOf 32 (vs.getD 1 0)).map (convTo fp32 bf16 s.rm))

/-- `vcvt.f32.bf16` (R174): FP32 lanes from BF16 lanes 32h to 32h + 31. -/
def execVcvtF32Bf16 (d a : Reg) (h : Fin 2) (s : State) : Out :=
  s.vecConv (.vcvtF32Bf16 d a h) [a] d false fun vs =>
    joinRes 32 ((((lanesOf 16 (vs.getD 0 0)).drop (32 * h.val)).take 32).map (convTo bf16 fp32 s.rm))

/-- Four FP32 lanes at a time, encoded to LB4 words (R74). -/
def encodeQuads : List Nat → List FpRes
  | a :: b :: c :: d :: r => encodeLb4 (fp32.value a) (fp32.value b) (fp32.value c) (fp32.value d) :: encodeQuads r
  | _ => []

/-- `vpack.lb4` (R175). -/
def execVpackLb4 (d a b : Reg) (s : State) : Out :=
  s.vecConv (.vpackLb4 d a b) [a, b] d true fun vs =>
    let rs := encodeQuads (lanesOf 32 (vs.getD 0 0) ++ lanesOf 32 (vs.getD 1 0))
    (packHigh (s.v d) 32 (rs.map (·.1)), allFlags rs)

/-- `vunpk.lb4` (R175): the quarter h of VA, decoded (R69). -/
def execVunpkLb4 (d a : Reg) (h : Fin 4) (s : State) : Out :=
  s.vecConv (.vunpkLb4 d a h) [a] d false fun vs =>
    (joinLanes 32 ((((lanesOf 32 (vs.getD 0 0)).drop (8 * h.val)).take 8).flatMap fun w => [0, 1, 2, 3].map (decodeLb4 w)), 0)

/-- `vpack.e4m3` (R175). -/
def execVpackE4m3 (d a b : Reg) (s : State) : Out :=
  s.vecConv (.vpackE4m3 d a b) [a, b] d true fun vs =>
    let rs := (lanesOf 32 (vs.getD 0 0) ++ lanesOf 32 (vs.getD 1 0)).map (convE4m3 s.rm)
    (packHigh (s.v d) 8 (rs.map (·.1)), allFlags rs)

/-- `vpack.e5m2` (R175). -/
def execVpackE5m2 (d a b : Reg) (s : State) : Out :=
  s.vecConv (.vpackE5m2 d a b) [a, b] d true fun vs =>
    let rs := (lanesOf 32 (vs.getD 0 0) ++ lanesOf 32 (vs.getD 1 0)).map (convTo fp32 e5m2 s.rm)
    (packHigh (s.v d) 8 (rs.map (·.1)), allFlags rs)

/-- `vunpk.e4m3` (R175): the quarter h of VA, decoded from E4M3. -/
def execVunpkE4m3 (d a : Reg) (h : Fin 4) (s : State) : Out :=
  s.vecConv (.vunpkE4m3 d a h) [a] d false fun vs =>
    joinRes 32 ((((lanesOf 8 (vs.getD 0 0)).drop (32 * h.val)).take 32).map (convTo e4m3 fp32 s.rm))

/-- `vunpk.e5m2` (R175): as `vunpk.e4m3`, from E5M2. -/
def execVunpkE5m2 (d a : Reg) (h : Fin 4) (s : State) : Out :=
  s.vecConv (.vunpkE5m2 d a h) [a] d false fun vs =>
    joinRes 32 ((((lanesOf 8 (vs.getD 0 0)).drop (32 * h.val)).take 32).map (convTo e5m2 fp32 s.rm))

/-! ### Opcode 0x24: permutes (R176) -/

/-- A permute of one or two sources: f of the lane count, the lanes of VA and VB, and a lane number. -/
def State.vecPerm (s : State) (i : Instr) (srcs : List VField) (d : VField) (pg : Fin 8) (t : ElemType)
    (f : (n : Nat) → (a b : List Nat) → Nat → Nat) : Out :=
  let w := elemWidth t
  let n := laneCount t
  s.vector i srcs (some d) false fun vs =>
    s.putLanes d pg w ((List.range n).map (f n (lanesOf w (vs.getD 0 0)) (lanesOf w (vs.getD 1 0))))

/-- `vbcast` (R176): X[A] in every active lane. -/
def execVbcast (d a : Reg) (pg : Fin 8) (t : ElemType) (s : State) : Out :=
  s.vecPerm (.vbcast d a pg t) [] d pg t fun _ _ _ _ => (s.x a).toNat

/-- `vext` (R176): X[D] := lane X[B] mod N of VA. -/
def execVext (d a b : Reg) (t : ElemType) (s : State) : Out :=
  s.vector (.vext d a b t) [a] none false fun vs =>
    s.setX d (wd ((lanesOf (elemWidth t) (vs.getD 0 0)).getD ((s.x b).toNat % laneCount t) 0))

/-- `vins` (R176): lane X[B] mod N of VD := X[A]; the other lanes are unchanged. -/
def execVins (d a b : Reg) (t : ElemType) (s : State) : Out :=
  let w := elemWidth t
  s.vector (.vins d a b t) [] (some d) true fun _ =>
    s.putAll d (joinLanes w ((lanesOf w (s.v d)).set ((s.x b).toNat % laneCount t) (s.x a).toNat))

/-- `vperm` (R176): lane b[i] mod N of VA. -/
def execVperm (d a b : Reg) (pg : Fin 8) (t : ElemType) (s : State) : Out :=
  s.vecPerm (.vperm d a b pg t) [a, b] d pg t fun n a b i => a.getD (b.getD i 0 % n) 0

/-- `vslup` (R176): lane i - X[B] of VA, or 0. -/
def execVslup (d a b : Reg) (pg : Fin 8) (t : ElemType) (s : State) : Out :=
  s.vecPerm (.vslup d a b pg t) [a] d pg t fun _ a _ i => if (s.x b).toNat ≤ i then a.getD (i - (s.x b).toNat) 0 else 0

/-- `vsldn` (R176): lane i + X[B] of VA, or 0. -/
def execVsldn (d a b : Reg) (pg : Fin 8) (t : ElemType) (s : State) : Out :=
  s.vecPerm (.vsldn d a b pg t) [a] d pg t fun n a _ i => if i + (s.x b).toNat < n then a.getD (i + (s.x b).toNat) 0 else 0

/-- `vzip` (R176): lane i/2 of VA for even i, of VB for odd i. -/
def execVzip (d a b : Reg) (pg : Fin 8) (t : ElemType) (s : State) : Out :=
  s.vecPerm (.vzip d a b pg t) [a, b] d pg t fun _ a b i => if i % 2 = 0 then a.getD (i / 2) 0 else b.getD (i / 2) 0

/-- `vunzip` (R176): the even lanes of VA, then the odd ones. -/
def execVunzip (d a : Reg) (pg : Fin 8) (t : ElemType) (s : State) : Out :=
  s.vecPerm (.vunzip d a pg t) [a] d pg t fun n a _ i =>
    if i < n / 2 then a.getD (2 * i) 0 else a.getD (2 * (i - n / 2) + 1) 0

/-- `vrev` (R176): lane N - 1 - i. -/
def execVrev (d a : Reg) (pg : Fin 8) (t : ElemType) (s : State) : Out :=
  s.vecPerm (.vrev d a pg t) [a] d pg t fun n a _ i => a.getD (n - 1 - i) 0

/-- `vsel` (R176): every lane is written, from VA where active, else from VB. -/
def execVsel (d a b : Reg) (pg : Fin 8) (t : ElemType) (s : State) : Out :=
  let w := elemWidth t
  s.vector (.vsel d a b pg t) [a, b] (some d) false fun vs =>
    s.putAll d (mergeBytes (laneMask w (activeLanes w (s.mask pg))) (vs.getD 0 0) (vs.getD 1 0))

/-- `vmov` (R176). -/
def execVmov (d a : Reg) (pg : Fin 8) (t : ElemType) (s : State) : Out :=
  s.vecPerm (.vmov d a pg t) [a] d pg t fun _ a _ i => a.getD i 0

/-! ### Opcode 0x26: reductions (R77, R177) -/

/-- One level of the tree: lane i with lane i + h, the lower lane on the left. -/
def treeLevel {α : Type} (op : α → α → α) (xs : List α) : List α :=
  let h := xs.length / 2
  (xs.take h).zipWith op (xs.drop h)

/-- TreeReduce of R77; `fuel` bounds the levels. -/
def treeReduce {α : Type} (op : α → α → α) (z : α) : (fuel : Nat) → List α → α
  | 0, xs => xs.headD z
  | fuel + 1, xs => if xs.length ≤ 1 then xs.headD z else treeReduce op z fuel (treeLevel op xs)

/-- The lanes of a source, inactive ones as the identity. -/
def State.entering (s : State) (pg : Fin 8) (w : Nat) (v : VReg) (identity : Nat) : List Nat :=
  (activeLanes w (s.mask pg)).zipWith (fun b x => if b then x else identity) (lanesOf w v)

/-- An integer reduction (R177). -/
def State.reduceInt (s : State) (i : Instr) (d : Reg) (a : VField) (pg : Fin 8) (t : ElemType)
    (identity : (w : Nat) → BitVec w) (op : (w : Nat) → BitVec w → BitVec w → BitVec w) : Out :=
  let w := elemWidth t
  s.vector i [a] none false fun vs =>
    let r := treeReduce (op w) (identity w) 7 ((s.entering pg w (vs.getD 0 0) (identity w).toNat).map (BitVec.ofNat w))
    s.setX d (r.signExtend 64)

/-- An FP reduction: each step's flags are gathered (R177). -/
def State.reduceFp (s : State) (i : Instr) (d : Reg) (a : VField) (pg : Fin 8) (t : ElemType) (identity : Nat)
    (op : Nat → Nat → FpRes) : Out :=
  let w := elemWidth t
  s.vector i [a] none false fun vs =>
    let r := treeReduce (fun (x y : FpRes) => ((op x.1 y.1).1, x.2 ||| y.2 ||| (op x.1 y.1).2)) (identity, 0) 7
      ((s.entering pg w (vs.getD 0 0) identity).map fun x => (x, 0))
    (s.setX d (wd r.1)).raise r.2

/-- `vredadd` (R177). -/
def execVredadd (d a : Reg) (pg : Fin 8) (t : ElemType) (s : State) : Out :=
  s.reduceInt (.vredadd d a pg t) d a pg t (fun _ => 0) fun _ x y => x + y

/-- `vredmax` (R177): the identity is the smallest value. -/
def execVredmax (d a : Reg) (pg : Fin 8) (t : ElemType) (s : State) : Out :=
  s.reduceInt (.vredmax d a pg t) d a pg t (fun w => BitVec.intMin w) fun _ x y => maxS x y

/-- `vredmin` (R177): the identity is the largest value. -/
def execVredmin (d a : Reg) (pg : Fin 8) (t : ElemType) (s : State) : Out :=
  s.reduceInt (.vredmin d a pg t) d a pg t (fun w => BitVec.intMax w) fun _ x y => minS x y

/-- `vfredadd` (R177): the identity is -0.0. -/
def execVfredadd (d a : Reg) (pg : Fin 8) (t : ElemType) (s : State) : Out :=
  let f := fpOf t
  s.reduceFp (.vfredadd d a pg t) d a pg t (f.signed true 0) fun x y => f.addV s.rm (f.value x) (f.value y)

/-- `vfredmax` (R177): the identity is -∞. -/
def execVfredmax (d a : Reg) (pg : Fin 8) (t : ElemType) (s : State) : Out :=
  let f := fpOf t
  s.reduceFp (.vfredmax d a pg t) d a pg t (f.signed true f.infCode) fun x y => f.pick false x y

/-! ### Opcode 0x25: predicates (R178 to R180) -/

/-- A mask operation: the mask of d becomes m. -/
def State.putMask (s : State) (d : Fin 8) (m : Mask) : Out := .next (s.setMask d m).advance

/-- `pand` (R178): AND of whole masks. -/
def execPand (d a b : Fin 8) (s : State) : Out := s.putMask d (s.mask a &&& s.mask b)

/-- `por` (R178): OR of whole masks. -/
def execPor (d a b : Fin 8) (s : State) : Out := s.putMask d (s.mask a ||| s.mask b)

/-- `pxor` (R178): XOR of whole masks. -/
def execPxor (d a b : Fin 8) (s : State) : Out := s.putMask d (s.mask a ^^^ s.mask b)

/-- `pandn` (R178): AND NOT of whole masks. -/
def execPandn (d a b : Fin 8) (s : State) : Out := s.putMask d (s.mask a &&& ~~~(s.mask b))

/-- `pnot` (R178). -/
def execPnot (d a : Fin 8) (s : State) : Out := s.putMask d (~~~(s.mask a))

/-- `pset` (R178): lanes below min(X[A], N). -/
def execPset (d : Fin 8) (a : Reg) (t : ElemType) (s : State) : Out :=
  s.putMask d (laneMask (elemWidth t) ((List.range (laneCount t)).map fun i => decide (i < (s.x a).toNat)))

/-- `pcnt` (R178): the number of active lanes. -/
def execPcnt (d : Reg) (a : Fin 8) (t : ElemType) (s : State) : Out :=
  s.result d (wd ((activeLanes (elemWidth t) (s.mask a)).filter id).length)

/-- `pfirst` (R178): the lowest active lane, or N. -/
def execPfirst (d : Reg) (a : Fin 8) (t : ElemType) (s : State) : Out :=
  s.result d (wd (((activeLanes (elemWidth t) (s.mask a)).findIdx? id).getD (laneCount t)))

/-- `pldm` (R179): lane i follows bit k of X[A], where k numbers the 256-byte block that holds byte X[B] + i × w/8. -/
def execPldm (d : Fin 8) (a b : Reg) (t : ElemType) (s : State) : Out :=
  let w := elemWidth t
  s.putMask d (laneMask w ((List.range (laneCount t)).map fun i =>
    let k := ((s.x b).toNat + i * (w / 8)) / 256
    decide (k < 64) && bitAt (s.x a) k))

/-- `pmovx` (R180): bit i of X[D] is Active(a, i), for the lanes below 64. -/
def execPmovx (d : Reg) (a : Fin 8) (t : ElemType) (s : State) : Out :=
  s.result d (wd (joinNat 1 (((activeLanes (elemWidth t) (s.mask a)).take 64).map boolNat)))

/-- `pmovp` (R180): lane i from bit i of X[A], for the lanes below 64; the others are clear. -/
def execPmovp (d : Fin 8) (a : Reg) (t : ElemType) (s : State) : Out :=
  s.putMask d (laneMask (elemWidth t) ((List.range (laneCount t)).map fun i => decide (i < 64) && bitAt (s.x a) i))

end Sys2Proof.Machine
end

