-- ==== Sys2Proof/Machine/Dispatch.lean ====
section
/-! DEFINITION. The one dispatch: each constructor of Instr to its meaning. -/

namespace Sys2Proof.Machine

open Sys2Proof

/-- What an instruction, or a step of the machine or of an outside party, does to the state. -/
def exec (i : Instr) (s : State) : Host.Outcome State Fault Refusal :=
  match i with
  | .add d a b => Sys2Proof.Machine.execAdd d a b s
  | .sub d a b => Sys2Proof.Machine.execSub d a b s
  | .and d a b => Sys2Proof.Machine.execAnd d a b s
  | .or d a b => Sys2Proof.Machine.execOr d a b s
  | .xor d a b => Sys2Proof.Machine.execXor d a b s
  | .andn d a b => Sys2Proof.Machine.execAndn d a b s
  | .orn d a b => Sys2Proof.Machine.execOrn d a b s
  | .sll d a b => Sys2Proof.Machine.execSll d a b s
  | .srl d a b => Sys2Proof.Machine.execSrl d a b s
  | .sra d a b => Sys2Proof.Machine.execSra d a b s
  | .rol d a b => Sys2Proof.Machine.execRol d a b s
  | .ror d a b => Sys2Proof.Machine.execRor d a b s
  | .slt d a b => Sys2Proof.Machine.execSlt d a b s
  | .sltu d a b => Sys2Proof.Machine.execSltu d a b s
  | .min d a b => Sys2Proof.Machine.execMin d a b s
  | .max d a b => Sys2Proof.Machine.execMax d a b s
  | .minu d a b => Sys2Proof.Machine.execMinu d a b s
  | .maxu d a b => Sys2Proof.Machine.execMaxu d a b s
  | .mul d a b => Sys2Proof.Machine.execMul d a b s
  | .mulh d a b => Sys2Proof.Machine.execMulh d a b s
  | .mulhu d a b => Sys2Proof.Machine.execMulhu d a b s
  | .mulhsu d a b => Sys2Proof.Machine.execMulhsu d a b s
  | .div d a b la => Sys2Proof.Machine.execDiv d a b la s
  | .divu d a b la => Sys2Proof.Machine.execDivu d a b la s
  | .rem d a b la => Sys2Proof.Machine.execRem d a b la s
  | .remu d a b la => Sys2Proof.Machine.execRemu d a b la s
  | .clz d a => Sys2Proof.Machine.execClz d a s
  | .ctz d a => Sys2Proof.Machine.execCtz d a s
  | .popc d a => Sys2Proof.Machine.execPopc d a s
  | .sextb d a => Sys2Proof.Machine.execSextb d a s
  | .sexth d a => Sys2Proof.Machine.execSexth d a s
  | .sextw d a => Sys2Proof.Machine.execSextw d a s
  | .zextw d a => Sys2Proof.Machine.execZextw d a s
  | .bswap d a => Sys2Proof.Machine.execBswap d a s
  | .csel d a b => Sys2Proof.Machine.execCsel d a b s
  | .addw d a b => Sys2Proof.Machine.execAddw d a b s
  | .subw d a b => Sys2Proof.Machine.execSubw d a b s
  | .sllw d a b => Sys2Proof.Machine.execSllw d a b s
  | .srlw d a b => Sys2Proof.Machine.execSrlw d a b s
  | .sraw d a b => Sys2Proof.Machine.execSraw d a b s
  | .mulw d a b => Sys2Proof.Machine.execMulw d a b s
  | .divw d a b la => Sys2Proof.Machine.execDivw d a b la s
  | .divuw d a b la => Sys2Proof.Machine.execDivuw d a b la s
  | .remw d a b la => Sys2Proof.Machine.execRemw d a b la s
  | .remuw d a b la => Sys2Proof.Machine.execRemuw d a b la s
  | .addi d a imm => Sys2Proof.Machine.execAddi d a imm s
  | .andi d a imm => Sys2Proof.Machine.execAndi d a imm s
  | .ori d a imm => Sys2Proof.Machine.execOri d a imm s
  | .xori d a imm => Sys2Proof.Machine.execXori d a imm s
  | .slti d a imm => Sys2Proof.Machine.execSlti d a imm s
  | .sltiu d a imm => Sys2Proof.Machine.execSltiu d a imm s
  | .slli d a sh => Sys2Proof.Machine.execSlli d a sh s
  | .srli d a sh => Sys2Proof.Machine.execSrli d a sh s
  | .srai d a sh => Sys2Proof.Machine.execSrai d a sh s
  | .rori d a sh => Sys2Proof.Machine.execRori d a sh s
  | .lhi d imm => Sys2Proof.Machine.execLhi d imm s
  | .lsh d imm => Sys2Proof.Machine.execLsh d imm s
  | .adr d imm => Sys2Proof.Machine.execAdr d imm s
  | .beq a b off => Sys2Proof.Machine.execBeq a b off s
  | .bne a b off => Sys2Proof.Machine.execBne a b off s
  | .blt a b off => Sys2Proof.Machine.execBlt a b off s
  | .bge a b off => Sys2Proof.Machine.execBge a b off s
  | .bltu a b off => Sys2Proof.Machine.execBltu a b off s
  | .bgeu a b off => Sys2Proof.Machine.execBgeu a b off s
  | .jal off => Sys2Proof.Machine.execJal off s
  | .j off => Sys2Proof.Machine.execJ off s
  | .jalr d a imm => Sys2Proof.Machine.execJalr d a imm s
  | .bes bit sense off => Sys2Proof.Machine.execBes bit sense off s
  | .ldB d a imm => Sys2Proof.Machine.execLdB d a imm s
  | .ldH d a imm => Sys2Proof.Machine.execLdH d a imm s
  | .ldW d a imm => Sys2Proof.Machine.execLdW d a imm s
  | .ldD d a imm => Sys2Proof.Machine.execLdD d a imm s
  | .ldBu d a imm => Sys2Proof.Machine.execLdBu d a imm s
  | .ldHu d a imm => Sys2Proof.Machine.execLdHu d a imm s
  | .ldWu d a imm => Sys2Proof.Machine.execLdWu d a imm s
  | .stB d a imm => Sys2Proof.Machine.execStB d a imm s
  | .stH d a imm => Sys2Proof.Machine.execStH d a imm s
  | .stW d a imm => Sys2Proof.Machine.execStW d a imm s
  | .stD d a imm => Sys2Proof.Machine.execStD d a imm s
  | .ldo d a la sc ord sz fe inv => Sys2Proof.Machine.execLdo d a la sc ord sz fe inv s
  | .sto d a la sc ord sz fe => Sys2Proof.Machine.execSto d a la sc ord sz fe s
  | .amoSwap d a b sc ord dbl => Sys2Proof.Machine.execAmoSwap d a b sc ord dbl s
  | .amoAdd d a b sc ord dbl => Sys2Proof.Machine.execAmoAdd d a b sc ord dbl s
  | .amoAnd d a b sc ord dbl => Sys2Proof.Machine.execAmoAnd d a b sc ord dbl s
  | .amoOr d a b sc ord dbl => Sys2Proof.Machine.execAmoOr d a b sc ord dbl s
  | .amoXor d a b sc ord dbl => Sys2Proof.Machine.execAmoXor d a b sc ord dbl s
  | .amoMin d a b sc ord dbl => Sys2Proof.Machine.execAmoMin d a b sc ord dbl s
  | .amoMax d a b sc ord dbl => Sys2Proof.Machine.execAmoMax d a b sc ord dbl s
  | .amoMinu d a b sc ord dbl => Sys2Proof.Machine.execAmoMinu d a b sc ord dbl s
  | .amoMaxu d a b sc ord dbl => Sys2Proof.Machine.execAmoMaxu d a b sc ord dbl s
  | .amoCas d a b sc ord dbl => Sys2Proof.Machine.execAmoCas d a b sc ord dbl s
  | .amoFadd d a b sc ord => Sys2Proof.Machine.execAmoFadd d a b sc ord s
  | .fence sc => Sys2Proof.Machine.execFence sc s
  | .xfence pred succ sc => Sys2Proof.Machine.execXfence pred succ sc s
  | .ifence => Sys2Proof.Machine.execIfence s
  | .vadd d a b pg t => Sys2Proof.Machine.execVadd d a b pg t s
  | .vsub d a b pg t => Sys2Proof.Machine.execVsub d a b pg t s
  | .vmul d a b pg t => Sys2Proof.Machine.execVmul d a b pg t s
  | .vmulh d a b pg t => Sys2Proof.Machine.execVmulh d a b pg t s
  | .vmulhu d a b pg t => Sys2Proof.Machine.execVmulhu d a b pg t s
  | .vmin d a b pg t => Sys2Proof.Machine.execVmin d a b pg t s
  | .vmax d a b pg t => Sys2Proof.Machine.execVmax d a b pg t s
  | .vminu d a b pg t => Sys2Proof.Machine.execVminu d a b pg t s
  | .vmaxu d a b pg t => Sys2Proof.Machine.execVmaxu d a b pg t s
  | .vand d a b pg t => Sys2Proof.Machine.execVand d a b pg t s
  | .vor d a b pg t => Sys2Proof.Machine.execVor d a b pg t s
  | .vxor d a b pg t => Sys2Proof.Machine.execVxor d a b pg t s
  | .vsll d a b pg t => Sys2Proof.Machine.execVsll d a b pg t s
  | .vsrl d a b pg t => Sys2Proof.Machine.execVsrl d a b pg t s
  | .vsra d a b pg t => Sys2Proof.Machine.execVsra d a b pg t s
  | .vabs d a pg t => Sys2Proof.Machine.execVabs d a pg t s
  | .vcmpeq d a b pg t => Sys2Proof.Machine.execVcmpeq d a b pg t s
  | .vcmplt d a b pg t => Sys2Proof.Machine.execVcmplt d a b pg t s
  | .vcmpltu d a b pg t => Sys2Proof.Machine.execVcmpltu d a b pg t s
  | .vfadd d a b pg t => Sys2Proof.Machine.execVfadd d a b pg t s
  | .vfsub d a b pg t => Sys2Proof.Machine.execVfsub d a b pg t s
  | .vfmul d a b pg t => Sys2Proof.Machine.execVfmul d a b pg t s
  | .vfma d a b pg t => Sys2Proof.Machine.execVfma d a b pg t s
  | .vfms d a b pg t => Sys2Proof.Machine.execVfms d a b pg t s
  | .vfnma d a b pg t => Sys2Proof.Machine.execVfnma d a b pg t s
  | .vfmin d a b pg t => Sys2Proof.Machine.execVfmin d a b pg t s
  | .vfmax d a b pg t => Sys2Proof.Machine.execVfmax d a b pg t s
  | .vfdiv d a b pg t => Sys2Proof.Machine.execVfdiv d a b pg t s
  | .vfsqrt d a pg t => Sys2Proof.Machine.execVfsqrt d a pg t s
  | .vfrcp d a pg t => Sys2Proof.Machine.execVfrcp d a pg t s
  | .vfrsq d a pg t => Sys2Proof.Machine.execVfrsq d a pg t s
  | .vfexp2 d a pg t => Sys2Proof.Machine.execVfexp2 d a pg t s
  | .vflog2 d a pg t => Sys2Proof.Machine.execVflog2 d a pg t s
  | .vfabs d a pg t => Sys2Proof.Machine.execVfabs d a pg t s
  | .vfneg d a pg t => Sys2Proof.Machine.execVfneg d a pg t s
  | .vfcmpeq d a b pg t => Sys2Proof.Machine.execVfcmpeq d a b pg t s
  | .vfcmplt d a b pg t => Sys2Proof.Machine.execVfcmplt d a b pg t s
  | .vfcmple d a b pg t => Sys2Proof.Machine.execVfcmple d a b pg t s
  | .vfcmpun d a b pg t => Sys2Proof.Machine.execVfcmpun d a b pg t s
  | .vresc d a b pg t => Sys2Proof.Machine.execVresc d a b pg t s
  | .vcvtF32I32 d a => Sys2Proof.Machine.execVcvtF32I32 d a s
  | .vcvtI32F32 d a => Sys2Proof.Machine.execVcvtI32F32 d a s
  | .vcvtBf16F32 d a b => Sys2Proof.Machine.execVcvtBf16F32 d a b s
  | .vcvtF32Bf16 d a h => Sys2Proof.Machine.execVcvtF32Bf16 d a h s
  | .vpackLb4 d a b => Sys2Proof.Machine.execVpackLb4 d a b s
  | .vunpkLb4 d a h => Sys2Proof.Machine.execVunpkLb4 d a h s
  | .vpackE4m3 d a b => Sys2Proof.Machine.execVpackE4m3 d a b s
  | .vpackE5m2 d a b => Sys2Proof.Machine.execVpackE5m2 d a b s
  | .vunpkE4m3 d a h => Sys2Proof.Machine.execVunpkE4m3 d a h s
  | .vunpkE5m2 d a h => Sys2Proof.Machine.execVunpkE5m2 d a h s
  | .vbcast d a pg t => Sys2Proof.Machine.execVbcast d a pg t s
  | .vext d a b t => Sys2Proof.Machine.execVext d a b t s
  | .vins d a b t => Sys2Proof.Machine.execVins d a b t s
  | .vperm d a b pg t => Sys2Proof.Machine.execVperm d a b pg t s
  | .vslup d a b pg t => Sys2Proof.Machine.execVslup d a b pg t s
  | .vsldn d a b pg t => Sys2Proof.Machine.execVsldn d a b pg t s
  | .vzip d a b pg t => Sys2Proof.Machine.execVzip d a b pg t s
  | .vunzip d a pg t => Sys2Proof.Machine.execVunzip d a pg t s
  | .vrev d a pg t => Sys2Proof.Machine.execVrev d a pg t s
  | .vsel d a b pg t => Sys2Proof.Machine.execVsel d a b pg t s
  | .vmov d a pg t => Sys2Proof.Machine.execVmov d a pg t s
  | .pand d a b => Sys2Proof.Machine.execPand d a b s
  | .por d a b => Sys2Proof.Machine.execPor d a b s
  | .pxor d a b => Sys2Proof.Machine.execPxor d a b s
  | .pandn d a b => Sys2Proof.Machine.execPandn d a b s
  | .pnot d a => Sys2Proof.Machine.execPnot d a s
  | .pset d a t => Sys2Proof.Machine.execPset d a t s
  | .pcnt d a t => Sys2Proof.Machine.execPcnt d a t s
  | .pfirst d a t => Sys2Proof.Machine.execPfirst d a t s
  | .pldm d a b t => Sys2Proof.Machine.execPldm d a b t s
  | .pmovx d a t => Sys2Proof.Machine.execPmovx d a t s
  | .pmovp d a t => Sys2Proof.Machine.execPmovp d a t s
  | .vredadd d a pg t => Sys2Proof.Machine.execVredadd d a pg t s
  | .vredmax d a pg t => Sys2Proof.Machine.execVredmax d a pg t s
  | .vredmin d a pg t => Sys2Proof.Machine.execVredmin d a pg t s
  | .vfredadd d a pg t => Sys2Proof.Machine.execVfredadd d a pg t s
  | .vfredmax d a pg t => Sys2Proof.Machine.execVfredmax d a pg t s
  | .vld d a b pg t => Sys2Proof.Machine.execVld d a b pg t s
  | .vst d a b pg t => Sys2Proof.Machine.execVst d a b pg t s
  | .vldt d a b pg t => Sys2Proof.Machine.execVldt d a b pg t s
  | .vstt d a b pg t => Sys2Proof.Machine.execVstt d a b pg t s
  | .vgather d a b pg t => Sys2Proof.Machine.execVgather d a b pg t s
  | .vscatter d a b pg t => Sys2Proof.Machine.execVscatter d a b pg t s
  | .sbind k a b la => Sys2Proof.Machine.execSbind k a b la s
  | .sunbind k la => Sys2Proof.Machine.execSunbind k la s
  | .sstat d k la => Sys2Proof.Machine.execSstat d k la s
  | .tal d a b la => Sys2Proof.Machine.execTal d a b la s
  | .tfree d a la => Sys2Proof.Machine.execTfree d a la s
  | .tseal d a la => Sys2Proof.Machine.execTseal d a la s
  | .trel d a la => Sys2Proof.Machine.execTrel d a la s
  | .tstat d a la => Sys2Proof.Machine.execTstat d a la s
  | .cpin d a b la => Sys2Proof.Machine.execCpin d a b la s
  | .cpout d a b la => Sys2Proof.Machine.execCpout d a b la s
  | .cpg d a b la => Sys2Proof.Machine.execCpg d a b la s
  | .cpx d a b la => Sys2Proof.Machine.execCpx d a b la s
  | .cpstat d a la => Sys2Proof.Machine.execCpstat d a la s
  | .tgpost d a la => Sys2Proof.Machine.execTgpost d a la s
  | .tgwait d a la => Sys2Proof.Machine.execTgwait d a la s
  | .tgstat d a la => Sys2Proof.Machine.execTgstat d a la s
  | .mxg k a la => Sys2Proof.Machine.execMxg k a la s
  | .mxr d k la => Sys2Proof.Machine.execMxr d k la s
  | .mwld a b la => Sys2Proof.Machine.execMwld a b la s
  | .mwswap la => Sys2Proof.Machine.execMwswap la s
  | .mmul nc z a b la => Sys2Proof.Machine.execMmul nc z a b la s
  | .mzero z la => Sys2Proof.Machine.execMzero z la s
  | .mzdrn z a f la => Sys2Proof.Machine.execMzdrn z a f la s
  | .mstat d la => Sys2Proof.Machine.execMstat d la s
  | .msnd d a b la => Sys2Proof.Machine.execMsnd d a b la s
  | .msnds d a b la => Sys2Proof.Machine.execMsnds d a b la s
  | .mrcv d a la => Sys2Proof.Machine.execMrcv d a la s
  | .mpeek d a la => Sys2Proof.Machine.execMpeek d a la s
  | .mcommit d la => Sys2Proof.Machine.execMcommit d la s
  | .mabort d la => Sys2Proof.Machine.execMabort d la s
  | .barArrive g => Sys2Proof.Machine.execBarArrive g s
  | .barWait g => Sys2Proof.Machine.execBarWait g s
  | .barVote d a g => Sys2Proof.Machine.execBarVote d a g s
  | .hstart d a b => Sys2Proof.Machine.execHstart d a b s
  | .hjoin d a la => Sys2Proof.Machine.execHjoin d a la s
  | .hexit => Sys2Proof.Machine.execHexit s
  | .hstat d => Sys2Proof.Machine.execHstat d s
  | .lnch d a la => Sys2Proof.Machine.execLnch d a la s
  | .lwait d a la => Sys2Proof.Machine.execLwait d a la s
  | .stmc d a b la => Sys2Proof.Machine.execStmc d a b la s
  | .coll d a la => Sys2Proof.Machine.execColl d a la s
  | .collwait d a la => Sys2Proof.Machine.execCollwait d a la s
  | .give d a b la => Sys2Proof.Machine.execGive d a b la s
  | .accept d a b la => Sys2Proof.Machine.execAccept d a b la s
  | .lend d a b la => Sys2Proof.Machine.execLend d a b la s
  | .reclaim d a b la => Sys2Proof.Machine.execReclaim d a b la s
  | .ownq d a la => Sys2Proof.Machine.execOwnq d a la s
  | .omake d la => Sys2Proof.Machine.execOmake d la s
  | .evict d a b la => Sys2Proof.Machine.execEvict d a b la s
  | .crr d ix => Sys2Proof.Machine.execCrr d ix s
  | .crw d a ix => Sys2Proof.Machine.execCrw d a ix s
  | .crs d a ix => Sys2Proof.Machine.execCrs d a ix s
  | .crc d a ix => Sys2Proof.Machine.execCrc d a ix s
  | .trap a => Sys2Proof.Machine.execTrap a s
  | .tret => Sys2Proof.Machine.execTret s
  | .brk => Sys2Proof.Machine.execBrk s
  | .halt => Sys2Proof.Machine.execHalt s
  | .wfe a => Sys2Proof.Machine.execWfe a s
  | .nop => Sys2Proof.Machine.execNop s
  | .solo => Sys2Proof.Machine.execSolo s
  | .mxovf => Sys2Proof.Machine.execMxovf s
  | .launchPlace src => Sys2Proof.Machine.execLaunchPlace src s
  | .rankEnd k => Sys2Proof.Machine.execRankEnd k s
  | .launchComplete l => Sys2Proof.Machine.execLaunchComplete l s
  | .deadlinePassed l => Sys2Proof.Machine.execDeadlinePassed l s
  | .doorbell port owner q tail => Sys2Proof.Machine.execDoorbell port owner q tail s
  | .queueDescriptorWrite owner q ix v => Sys2Proof.Machine.execQueueDescriptorWrite owner q ix v s
  | .bindRecordWrite slot rec => Sys2Proof.Machine.execBindRecordWrite slot rec s
  | .bindRecordDeferred slot => Sys2Proof.Machine.execBindRecordDeferred slot s
  | .coreVacate core => Sys2Proof.Machine.execCoreVacate core s
  | .rankResume core => Sys2Proof.Machine.execRankResume core s
  | .arrivalCounted k g => Sys2Proof.Machine.execArrivalCounted k g s
  | .barrierRelease launch group => Sys2Proof.Machine.execBarrierRelease launch group s
  | .haltGroupStop h => Sys2Proof.Machine.execHaltGroupStop h s
  | .debugStop core => Sys2Proof.Machine.execDebugStop core s
  | .debugResume core => Sys2Proof.Machine.execDebugResume core s
  | .powerLimitWrite which v => Sys2Proof.Machine.execPowerLimitWrite which v s
  | .powerMeasure draw temp => Sys2Proof.Machine.execPowerMeasure draw temp s
  | .fewaitTimeout k ctx => Sys2Proof.Machine.execFewaitTimeout k ctx s
  | .faultReplyPoll n => Sys2Proof.Machine.execFaultReplyPoll n s
  | .faultRecordTimeout n => Sys2Proof.Machine.execFaultRecordTimeout n s
  | .replicaCommit => Sys2Proof.Machine.execReplicaCommit s
  | .flush page => Sys2Proof.Machine.execFlush page s
  | .flushComplete owner => Sys2Proof.Machine.execFlushComplete owner s
  | .moveStart page v => Sys2Proof.Machine.execMoveStart page v s
  | .moveCopyDone => Sys2Proof.Machine.execMoveCopyDone s
  | .moveDoneClear page v => Sys2Proof.Machine.execMoveDoneClear page v s
  | .tileClearEnd k h => Sys2Proof.Machine.execTileClearEnd k h s
  | .tileReadsEnd k h => Sys2Proof.Machine.execTileReadsEnd k h s
  | .clusterTileEndFree launch => Sys2Proof.Machine.execClusterTileEndFree launch s
  | .copyStart ch => Sys2Proof.Machine.execCopyStart ch s
  | .copyChunkEnd ch => Sys2Proof.Machine.execCopyChunkEnd ch s
  | .matrixOpStart k => Sys2Proof.Machine.execMatrixOpStart k s
  | .pairCycle k => Sys2Proof.Machine.execPairCycle k s
  | .matrixOpEnd k => Sys2Proof.Machine.execMatrixOpEnd k s
  | .drainEnd k => Sys2Proof.Machine.execDrainEnd k s
  | .graphNodeStart k slot node => Sys2Proof.Machine.execGraphNodeStart k slot node s
  | .graphNodeFinish k slot node => Sys2Proof.Machine.execGraphNodeFinish k slot node s
  | .messageDeliver n => Sys2Proof.Machine.execMessageDeliver n s
  | .queueRung q => Sys2Proof.Machine.execQueueRung q s
  | .contextRung t => Sys2Proof.Machine.execContextRung t s
  | .engineRung t => Sys2Proof.Machine.execEngineRung t s
  | .partitionRung owner => Sys2Proof.Machine.execPartitionRung owner s
  | .deviceRung => Sys2Proof.Machine.execDeviceRung s
  | .rungTimeout n => Sys2Proof.Machine.execRungTimeout n s
  | .bringUp => Sys2Proof.Machine.execBringUp s
  | .portGive page => Sys2Proof.Machine.execPortGive page s
  | .portAccept page => Sys2Proof.Machine.execPortAccept page s
  | .portLend page => Sys2Proof.Machine.execPortLend page s
  | .portReclaim page => Sys2Proof.Machine.execPortReclaim page s
  | .portOwnq page => Sys2Proof.Machine.execPortOwnq page s
  | .portOmake page => Sys2Proof.Machine.execPortOmake page s
  | .portEvict page => Sys2Proof.Machine.execPortEvict page s
  | .trootWrite page v => Sys2Proof.Machine.execTrootWrite page v s
  | .mkeyidWrite page v => Sys2Proof.Machine.execMkeyidWrite page v s
  | .vfset page v => Sys2Proof.Machine.execVfset page v s
  | .enrol page v => Sys2Proof.Machine.execEnrol page v s
  | .plotkey page v => Sys2Proof.Machine.execPlotkey page v s
  | .attest page v => Sys2Proof.Machine.execAttest page v s
  | .mcrecWrite page off v => Sys2Proof.Machine.execMcrecWrite page off v s
  | .registerWrite sp off v => Sys2Proof.Machine.execRegisterWrite sp off v s
  | .leaseexpWrite port v => Sys2Proof.Machine.execLeaseexpWrite port v s
  | .leaseExpire => Sys2Proof.Machine.execLeaseExpire s
  | .vfEnableClear port => Sys2Proof.Machine.execVfEnableClear port s
  | .cxlMemRead vf addr => Sys2Proof.Machine.execCxlMemRead vf addr s
  | .cxlMemWrite vf addr v => Sys2Proof.Machine.execCxlMemWrite vf addr v s
  | .getVersion => Sys2Proof.Machine.execGetVersion s
  | .getCapabilities => Sys2Proof.Machine.execGetCapabilities s
  | .negotiateAlgorithms => Sys2Proof.Machine.execNegotiateAlgorithms s
  | .getDigests => Sys2Proof.Machine.execGetDigests s
  | .getCertificate slot => Sys2Proof.Machine.execGetCertificate slot s
  | .challenge nonce => Sys2Proof.Machine.execChallenge nonce s
  | .getMeasurements ix => Sys2Proof.Machine.execGetMeasurements ix s
  | .accessLogInterval => Sys2Proof.Machine.execAccessLogInterval s
  | .logSeal => Sys2Proof.Machine.execLogSeal s
  | .flitReceive port f => Sys2Proof.Machine.execFlitReceive port f s
  | .replayRequest port lseq => Sys2Proof.Machine.execReplayRequest port lseq s
  | .linkOutOfService port => Sys2Proof.Machine.execLinkOutOfService port s
  | .spareRetrain => Sys2Proof.Machine.execSpareRetrain s
  | .packetInject id => Sys2Proof.Machine.execPacketInject id s
  | .packetResend id => Sys2Proof.Machine.execPacketResend id s
  | .packetDeliver sagent pseq r => Sys2Proof.Machine.execPacketDeliver sagent pseq r s
  | .lossyBlockArrive b => Sys2Proof.Machine.execLossyBlockArrive b s
  | .lossyClose src xfer => Sys2Proof.Machine.execLossyClose src xfer s
  | .remoteRequest r => Sys2Proof.Machine.execRemoteRequest r s
  | .remoteCompletion id status data => Sys2Proof.Machine.execRemoteCompletion id status data s
  | .remoteDeadline id => Sys2Proof.Machine.execRemoteDeadline id s
  | .stmcReply id failed => Sys2Proof.Machine.execStmcReply id failed s
  | .stmcAckTimeout id branch => Sys2Proof.Machine.execStmcAckTimeout id branch s
  | .collCombine id level j legs => Sys2Proof.Machine.execCollCombine id level j legs s
  | .collResult group count leg => Sys2Proof.Machine.execCollResult group count leg s
  | .collFaultTimeout id missing => Sys2Proof.Machine.execCollFaultTimeout id missing s
  | .collHeldDiscard group count => Sys2Proof.Machine.execCollHeldDiscard group count s
  | .collCloseTimeout id => Sys2Proof.Machine.execCollCloseTimeout id s
  | .atomicMerge k j => Sys2Proof.Machine.execAtomicMerge k j s
  | .atomicMergeTimeout k => Sys2Proof.Machine.execAtomicMergeTimeout k s
  | .timeFlit ref => Sys2Proof.Machine.execTimeFlit ref s
  | .scrcache line dirty => Sys2Proof.Machine.execScrcache line dirty s
  | .fwbound a => Sys2Proof.Machine.execFwbound a s
  | .scriptoriumAccess a => Sys2Proof.Machine.execScriptoriumAccess a s
  | .vfEnableSet port => Sys2Proof.Machine.execVfEnableSet port s
  | .hostAccessLeaseTimeout k ctx => Sys2Proof.Machine.execHostAccessLeaseTimeout k ctx s
  | .arbiterGrant arb => Sys2Proof.Machine.execArbiterGrant arb s

end Sys2Proof.Machine
end

