-- ==== Sys2Proof/Machine/Schedule.lean ====
section
/-! DEFINITION. What the machine does next: the issue of one instruction with its lookahead windows (03 R50, R51), the environment's
choices, and the default order in which the machine's own steps and its contexts take turns (03 R58). -/

namespace Sys2Proof.Machine

open Sys2Proof

/-! ### Lookahead windows (R50, R51) -/

/-- The scalar registers that an instruction names. -/
def Instr.scalars : Instr → List Reg
  | .add d a b | .sub d a b | .and d a b | .or d a b | .xor d a b | .andn d a b | .orn d a b | .sll d a b
  | .srl d a b | .sra d a b | .rol d a b | .ror d a b | .slt d a b | .sltu d a b | .min d a b | .max d a b
  | .minu d a b | .maxu d a b | .mul d a b | .mulh d a b | .mulhu d a b | .mulhsu d a b | .div d a b _
  | .divu d a b _ | .rem d a b _ | .remu d a b _ | .csel d a b | .addw d a b | .subw d a b | .sllw d a b
  | .srlw d a b | .sraw d a b | .mulw d a b | .divw d a b _ | .divuw d a b _ | .remw d a b _ | .remuw d a b _
  | .amoSwap d a b _ _ _ | .amoAdd d a b _ _ _ | .amoAnd d a b _ _ _ | .amoOr d a b _ _ _ | .amoXor d a b _ _ _
  | .amoMin d a b _ _ _ | .amoMax d a b _ _ _ | .amoMinu d a b _ _ _ | .amoMaxu d a b _ _ _ | .amoCas d a b _ _ _
  | .amoFadd d a b _ _ | .tal d a b _ | .cpin d a b _ | .cpout d a b _ | .cpg d a b _ | .cpx d a b _ | .hstart d a b
  | .stmc d a b _ | .give d a b _ | .accept d a b _ | .lend d a b _ | .reclaim d a b _ | .evict d a b _ => [d, a, b]
  | .clz d a | .ctz d a | .popc d a | .sextb d a | .sexth d a | .sextw d a | .zextw d a | .bswap d a | .addi d a _
  | .andi d a _ | .ori d a _ | .xori d a _ | .slti d a _ | .sltiu d a _ | .slli d a _ | .srli d a _ | .srai d a _
  | .rori d a _ | .jalr d a _ | .ldB d a _ | .ldH d a _ | .ldW d a _ | .ldD d a _ | .ldBu d a _ | .ldHu d a _
  | .ldWu d a _ | .stB d a _ | .stH d a _ | .stW d a _ | .stD d a _ | .ldo d a _ _ _ _ _ _ | .sto d a _ _ _ _ _
  | .tfree d a _ | .tseal d a _ | .trel d a _ | .tstat d a _ | .cpstat d a _ | .tgpost d a _ | .tgwait d a _
  | .tgstat d a _ | .mpeek d a _ | .barVote d a _ | .hjoin d a _ | .lnch d a _ | .lwait d a _ | .coll d a _
  | .collwait d a _ | .ownq d a _ | .crw d a _ | .crs d a _ | .crc d a _ => [d, a]
  | .lhi d _ | .lsh d _ | .adr d _ | .pcnt d _ _ | .pfirst d _ _ | .pmovx d _ _ | .vredadd d _ _ _ | .vredmax d _ _ _
  | .vredmin d _ _ _ | .vfredadd d _ _ _ | .vfredmax d _ _ _ | .sstat d _ _ | .mxr d _ _ | .mstat d _ | .mcommit d _
  | .mabort d _ | .hstat d | .omake d _ | .crr d _ => [d]
  | .beq a b _ | .bne a b _ | .blt a b _ | .bge a b _ | .bltu a b _ | .bgeu a b _ | .vins _ a b _ | .pldm _ a b _
  | .vld _ a b _ _ | .vst _ a b _ _ | .vldt _ a b _ _ | .vstt _ a b _ _ | .sbind _ a b _ | .mwld a b _
  | .mmul _ _ a b _ | .msnd _ a b _ | .msnds _ a b _ => [a, b]
  | .vbcast _ a _ _ | .pset _ a _ | .pmovp _ a _ | .vgather _ a _ _ _ | .vscatter _ a _ _ _ | .mxg _ a _
  | .mzdrn _ a _ _ | .mrcv _ a _ | .trap a | .wfe a => [a]
  | .vext d _ b _ => [d, b]
  | .vslup _ _ b _ _ | .vsldn _ _ b _ _ => [b]
  | .jal _ => [1]
  | _ => []

/-- The instructions that never issue within a window (R50). -/
def Instr.waitsOut : Instr → Bool
  | .fence _ | .xfence .. | .ifence | .barArrive _ | .barWait _ | .barVote .. | .hexit | .solo | .trap _ | .brk | .halt => true
  | _ => false

/-- The accesses that are performed, or take effect outside the core, only once every earlier load has its value: releases, atomics,
full/empty accesses, and the starts of a helper or a launch (R120, R223, R227, R381). -/
def Instr.settles : Instr → Bool
  | .sto _ _ _ _ ord _ fe => ord == .rel || ord == .acqrel || fe != .none
  | .ldo _ _ _ _ _ _ fe _ => fe != .none
  | .amoSwap .. | .amoAdd .. | .amoAnd .. | .amoOr .. | .amoXor .. | .amoMin .. | .amoMax .. | .amoMinu .. | .amoMaxu ..
  | .amoCas .. | .amoFadd .. | .hstart .. | .lnch .. => true
  | _ => false

/-- A load whose window is open may still see a newer value of its bytes (R51): it then writes that, and no copy in its caches is older
(R117). Nothing newer is seen while the page moves or a replicated line has a pending update. [DEDUCED log 15] -/
def State.renew (s : State) (w : Window) : State :=
  if s.ms.movingAt w.pa || s.ms.pendingAt (w.pa - dieOf s.co.num * 2^21) w.size then s
  else
    let t := { s with ms := s.ms.recallFrom (clusterOf s.co.num) w.pa }
    let bs := readBytes t.ms.mem (t.ms.homeAddr w.pa) w.size
    let v := extend true w.size (leNat (t.overlay w.pa bs))
    if v != w.old && Config.windowNew s.tick then (t.dropOlder w.pa bs true).setX w.d v else s

/-- The windows as an instruction issues: each load may be renewed; those that end, or whose register it names, are closed, and all of
them where the instruction waits for earlier accesses. [DEDUCED log 15] -/
def State.windowsAt (s : State) (i : Instr) : State :=
  match s.cx.windows with
  | [] => s
  | ws =>
    let t := ws.foldl State.renew s
    let stays := fun (w : Window) => w.left != 0 && !Instr.waitsOut i && !Instr.settles i && !(Instr.scalars i).contains w.d
    { t with cx := { t.cx with windows := (ws.filter stays).map fun (w : Window) => { w with left := w.left - 1 } } }

/-- The windows of the context's buffered stores, one instruction later. [DEDUCED log 15] -/
def State.storeWindows (s : State) (i : Instr) : State :=
  match s.co.stores with
  | [] => s
  | es =>
    let mine := fun (e : Buffered) => e.key == s.rk.key && e.ctx == s.cx.num && e.left != 0
    let next := fun (e : Buffered) => { e with left := if Instr.waitsOut i then 0 else e.left - 1 }
    { s with co := { s.co with stores := es.map fun e => if mine e then next e else e } }

/-! ### Issue -/

/-- The meaning of an instruction word fetched: its windows move on as it issues first, and a word that is no instruction traps
(R319). -/
def State.run (s : State) (w : Nat) : Out :=
  match decode w with
  | .error _ => .next (s.trap Cause.illegal (wd w))
  | .ok i => exec i (if s.atBoundary || s.cx.wait == .held then (s.windowsAt i).storeWindows i else s)

/-- The next instruction of the context in focus: a pending MXOVF goes first at a boundary (R318); a context that waits for an
event's answer stays. -/
def State.issue (s : State) : Out :=
  if s.awaiting then .next s.seekPlace
  else
    let s := s.leaveRecords
    if s.betweenIssues && s.cx.mx.pending && !s.cx.hf then .next s.takeMxovf
    else
      match State.fetch { s with cx := { s.cx with pair := false } } s.cx.pc with
      | .error t => .next t
      | .ok (t, w) => { t with cx := { t.cx with pair := s.cx.pair } }.run w

/-- Whether the context in focus issues: it runs, its rank runs on its core, and the core is not halted. -/
def State.mayIssue (s : State) : Bool := s.cx.run == .running && s.rk.state == .running && !s.co.halted

/-! ### Turns -/

/-- One turn: an event of the table, the issue of a context, a store leaving a store buffer, a row of a copy-in or of a drain, or nothing.
[DESIGN CHOICE log 2, DEDUCED log 6, DESIGN CHOICE log 13] -/
def State.act (s : State) : Turn → Out
  | .event i => if (encode i).isNone then exec i s else .next s
  | .issue k run n =>
    match s.focusOn k run n with
    | none => .next s
    | some t => if t.mayIssue then t.issue else .next s
  | .drain core k => .next (s.drainOne core k)
  | .row ch => .next (s.copyRow ch)
  | .shift k => .next (s.drainStep k)
  | .pass => .next s

/-- The contexts that could issue, in round-robin order: those of other ranks, then those of the rank in focus, the one in focus last.
[DESIGN CHOICE log 2] -/
def State.issuers (s : State) : List Turn :=
  let of_ := fun (r : Rank) =>
    if r.state == .running && !(s.coreAt r.core).halted then
      (r.ctxs.filter fun c => c.run == .running).map fun c => Turn.issue r.key r.run c.num
    else []
  s.ranks.flatMap of_ ++ (if s.rk.state == .ended then [] else of_ s.wholeRank)

/-- The machine's own steps that could be due. [DESIGN CHOICE log 2, DESIGN CHOICE log 62, DESIGN CHOICE log 11] -/
def State.due (s : State) : List (State → Out) :=
  let cores := s.co :: s.cores
  let ranks := s.liveRanks
  let tiles := ranks.flatMap fun r => (r.tiles.map fun t => (r.key, t)) ++ (s.eng.tiles.map fun t => (r.key, t))
  cores.filterMap (fun c => if c.stores.isEmpty then none else some fun t => .next (t.drainOne c.num 0))
    ++ (if s.ms.pending.isEmpty then [] else [execReplicaCommit])
    ++ s.ms.flushes.map execFlushComplete
    ++ (if s.ms.move.busy then [execMoveCopyDone] else [])
    ++ tiles.flatMap (fun q =>
        if h : q.2.handle < 128 then [execTileClearEnd q.1 ⟨q.2.handle, h⟩, execTileReadsEnd q.1 ⟨q.2.handle, h⟩] else [])
    ++ s.eng.copies.flatMap (fun c => [execCopyStart c.chan, execCopyChunkEnd c.chan, fun t => .next (t.copyRow c.chan)])
    ++ ranks.flatMap (fun r =>
        if r.mx.busy then [execMatrixOpStart r.key, execPairCycle r.key, execMatrixOpEnd r.key, execDrainEnd r.key, fun t => .next (t.drainStep r.key)] else [])
    ++ ranks.flatMap (fun r => r.graphs.flatMap fun g => (List.range g.nodes.length).flatMap fun n =>
        [execGraphNodeStart r.key g.slot n, execGraphNodeFinish r.key g.slot n])
    ++ (List.range s.eng.flights.length).map execMessageDeliver
    ++ ranks.flatMap (fun r => (List.finRange 4).map fun g => execArrivalCounted r.key g)
    ++ s.disp.launches.flatMap (fun l =>
        (List.range (l.groups.length + 1)).map (fun g => execBarrierRelease l.num g)
        ++ [execLaunchComplete l.num, execDeadlinePassed l.num, execLaunchPlace (.child l.num), execClusterTileEndFree l.num])
    ++ ranks.map (fun r => execRankEnd r.key)
    ++ s.disp.queues.map (fun q => execLaunchPlace (.queue q.num))
    ++ s.disp.orders.map (fun o => execCoreVacate o.2)
    ++ s.disp.deferred.map (fun o => execBindRecordDeferred o.1)
    ++ cores.map (fun c => execRankResume c.num)
    ++ (List.finRange 16).map execHaltGroupStop
    ++ s.disp.records.flatMap (fun f => [execFaultReplyPoll f.num, execFaultRecordTimeout f.num])
    ++ ranks.flatMap (fun r => r.ctxs.flatMap fun c =>
        [execFewaitTimeout r.key c.num, execHostAccessLeaseTimeout r.key c.num])
    ++ s.fab.requests.flatMap (fun q =>
        [execPacketInject q.id, execRemoteDeadline q.id, execPacketResend q.id] ++ (if q.kind = .multicast then [execStmcAckTimeout q.id 0] else []))
    ++ s.fab.lossy.map (fun x => execLossyClose x.src x.xfer)
    ++ s.fab.merging.map (fun m => execAtomicMergeTimeout m.num)
    ++ s.fab.results.map (fun h => execCollHeldDiscard h.group h.count)
    ++ s.fab.colls.flatMap (fun c =>
        let n := treeDepth c.members
        (List.range n).flatMap (fun l => (List.range (2^(n - 1 - l))).map fun j => execCollCombine c.id l j [])
        ++ [execCollResult c.group c.count none, execCollCloseTimeout c.id, execCollFaultTimeout c.id 0])
    ++ s.fab.claims.map (fun c => execArbiterGrant c.arb)
    ++ (s.fab.ports.filter fun p => !p.again.isEmpty).map (fun p => execArbiterGrant p.num)
    ++ s.disp.rungs.map (fun r => execRungTimeout r.num)
    ++ [execLeaseExpire] ++ (if s.log.tuples.isEmpty then [] else [execAccessLogInterval]) ++ (if s.log.watches.isEmpty && s.log.base = 0 then [] else [execLogSeal])

/-- The state after a step of the machine's own, where it changes anything. -/
def State.changed (s : State) (f : State → Out) : Option State :=
  match f s with
  | .next u => if u = s then none else some u
  | .fault _ | .refused _ => none

/-- The machine's own step whose turn it is, of those that change something. [DESIGN CHOICE log 2] -/
def State.ownStep (s : State) : Option State :=
  let l := s.due
  let n := s.tick / 2 % (l.length + 1)
  (l.drop n ++ l.take n).findSome? s.changed

/-- The turn that comes next once the environment has chosen none: contexts and the machine's own steps alternate; time passes where
neither has any. [DESIGN CHOICE log 2] -/
def State.turn (s : State) : Out :=
  if s.tick % 2 = 0 then
    match s.issuers with
    | t :: _ => s.act t
    | [] => .next (s.ownStep.getD s)
  else
    match s.ownStep with
    | some t => .next t
    | none => s.act (s.issuers.headD .pass)

/-- Whole ns that lie behind a count of core cycles, at 2.4 of them per ns (R26). -/
def nsAt (clock : Nat) : Nat := clock * 5 / 12

/-- A step's cycles have passed: the counts of cores and arbiters have moved on, and device time with them, steered by what the time flits have
left to steer (R26, R278). -/
def State.passTime (s : State) (c : Nat) : State :=
  let f := fun (x : Core) => { x with cycle := x.cycle + c }
  let d := steered s.fab.lag (nsAt s.fab.clock) (nsAt (s.fab.clock + c))
  { s with
    co := f s.co
    cores := s.cores.map f
    fab := { s.fab with clock := s.fab.clock + c, lag := d.2 }
    time := s.time + d.1
    tick := s.tick + 1 }

/-- What the links have done meanwhile: flits acknowledged, buffers emptied, management packets let go and time flits sent, entries marked dead
elsewhere, and the completions and packets that waited (R267 to R269, R278, R343, R344, R356). [DESIGN CHOICE log 104] -/
def State.passLinks (s : State) : State :=
  let f := { s.fab with ports := s.fab.ports.map fun (p : Port) => (p.pass s.tick).releaseHeld s.time }
  let t := { s with fab := { f.timeFlits s.host.ready s.time with broken := Config.brokenEntries s.tick } }
  t.sendAnswers.deliverKept

/-- The state once its step is over: time has passed, rungs that are over are closed (R313), and peers' waits at their limit are withdrawn
(R332), saved images, held copies of error records, held operations and signatures and doorbells are seen to.
[DESIGN CHOICE log 3, DESIGN CHOICE log 4, DESIGN CHOICE log 11] -/
def State.elapse (s : State) : State :=
  (s.passTime (Config.elapsedCycles s.tick)).passLinks.endRungs.withdrawPeers.syncImages.sendCopies.retryOps.retryAttests.endLosing.ringBells

/-- What a step does: the environment's next choice; else bring-up, while READY is 0; else the turn of the default order. A stage of
bring-up whose signature fails ends it (R295). [DESIGN CHOICE log 2, DESIGN CHOICE log 7] -/
def State.work (s : State) : Out :=
  match s.agenda with
  | t :: r => State.act { s with agenda := r } t
  | [] => if s.host.ready then s.turn else if s.mgmt.stopped then .fault .notStarted else execBringUp s

/-- The end of a step. -/
def finish : Out → Out
  | .next s => .next s.elapse
  | .fault r => .fault r
  | .refused r => .refused r

/-! ### A program in place (R10, R45) -/

/-- Memory with a table for owner 1 in plot 0: virtual addresses below 8 GiB are physical ones, with every permission (R100, R101).
[DEDUCED log 5] -/
def identityTable (m : Memory) : Memory := writeLE (writeLE m 0 8 0x2001) 0x2000 8 0x6F

/-- The module with READY set, owner 1 endowed, and the context in focus the only one there, about to issue the word at an address.
[DEDUCED log 5] -/
def State.placedAt (s : State) (pc w : Nat) : State :=
  { s with
    cx := { s.cx with pc := wd pc, run := .running, wait := .none, answer := none, lanes := [], fetched := [], toPost := [], pair := false, windows := [] }
    rk := { s.rk with state := .running, id := { s.rk.id with owner := 1 }, core := s.co.num, ctxs := [] }
    ranks := []
    co := { s.co with halted := false, icache := [], stores := [] }
    own := { s.own with endowed := true, owners := [OwnerRec.fresh 1 0] }
    host := { s.host with ready := true }
    ms := { s.ms with mem := writeLE (identityTable s.ms.mem) pc 4 w, kept := [], move := { s.ms.move with busy := false, done := false } }
    agenda := []
    tick := 0 }

end Sys2Proof.Machine
end

