-- ==== Sys2Proof/Machine/Step.lean ====
section
/-! DEFINITION. The step of the machine, and the placing of one instruction where the next step runs it. -/

namespace Sys2Proof.Machine

open Sys2Proof

/-- One step: an instruction of one context, one of the machine's own steps, or an act of an outside party. -/
def step (s : State) : Host.Outcome State Fault Refusal := finish s.work

/-- s with the instruction of a table word where the next step fetches. No program stands in memory after reset: a launch brings one
(R10, R45), and this stands for bring-up, a launch of owner 1 and its placement, up to its first instruction at 0x10000. [DEDUCED log 5] -/
def State.withFetchWord (s : State) (nbits w : Nat) : State := s.placedAt 0x10000 (w % 2^(Nat.min nbits 32))

end Sys2Proof.Machine
end

