-- ==== Sys2Proof/Safety.lean ====
section
/-! DEFINITION. What claims are stated in terms of: a run that does not stop, what an instruction leaves alone (frames), the
invariants that every step keeps, and results written with integers, apart from the machine's own arithmetic. -/

namespace Sys2Proof.Machine

open Sys2Proof

/-! ### Safe runs -/

/-- A step is safe where it neither faults nor refuses. -/
def safeStep (s : State) : Prop := ∃ t, step s = .next t

/-- The limits of power and temperature at or below their ceilings, and duty from half to full (R31). -/
def State.powerWithin (s : State) : Bool :=
  decide (s.mgmt.drawLimit ≤ 3200) && decide (s.mgmt.tempLimit ≤ Config.temperatureCeiling)
    && decide (8 ≤ s.mgmt.duty) && decide (s.mgmt.duty ≤ 16)

/-! ### Frames -/

/-- Every byte of memory reads in t as in s, and every full/empty bit. -/
def sameMemory (s t : State) : Prop :=
  (∀ pa, readByte t.ms.mem pa = readByte s.ms.mem pa) ∧ ∀ pa, isFull t.ms.mem pa = isFull s.ms.mem pa

/-- Every byte of memory outside the n bytes from pa on reads in t as in s. -/
def sameOutside (pa n : Nat) (s t : State) : Prop :=
  ∀ q, q < pa ∨ pa + n ≤ q → readByte t.ms.mem q = readByte s.ms.mem q

/-- Every part of the module but the context in focus and its rank's count of solo pairs is in t as in s. -/
def sameElsewhere (s t : State) : Prop :=
  t = { s with cx := t.cx, rk := { s.rk with solo := { s.rk.solo with count := t.rk.solo.count } } }

/-- What an instruction that writes X[d] alone leaves: the other scalar registers, the vector, predicate and matrix registers,
the control registers, HF, the pending MXOVF, memory, and all the rest of the module. -/
def onlyX (d : Reg) (s t : State) : Prop :=
  sameElsewhere s t ∧ sameMemory s t ∧ (∀ r, r ≠ d → t.x r = s.x r) ∧ t.cx.v = s.cx.v ∧ t.cx.p = s.cx.p ∧ t.cx.mg = s.cx.mg
    ∧ t.cx.cr = s.cx.cr ∧ t.cx.hf = s.cx.hf ∧ t.cx.mx = s.cx.mx ∧ t.cx.num = s.cx.num ∧ t.cx.run = s.cx.run

/-- The destination of an instruction of opcodes 0x01 to 0x0C (R151 to R155), which writes that register alone. -/
def integerDest : Instr → Option Reg
  | .add d _ _ | .sub d _ _ | .and d _ _ | .or d _ _ | .xor d _ _ | .andn d _ _ | .orn d _ _ | .sll d _ _ | .srl d _ _
  | .sra d _ _ | .rol d _ _ | .ror d _ _ | .slt d _ _ | .sltu d _ _ | .min d _ _ | .max d _ _ | .minu d _ _ | .maxu d _ _
  | .mul d _ _ | .mulh d _ _ | .mulhu d _ _ | .mulhsu d _ _ | .div d _ _ _ | .divu d _ _ _ | .rem d _ _ _ | .remu d _ _ _
  | .clz d _ | .ctz d _ | .popc d _ | .sextb d _ | .sexth d _ | .sextw d _ | .zextw d _ | .bswap d _ | .csel d _ _
  | .addw d _ _ | .subw d _ _ | .sllw d _ _ | .srlw d _ _ | .sraw d _ _ | .mulw d _ _ | .divw d _ _ _ | .divuw d _ _ _
  | .remw d _ _ _ | .remuw d _ _ _ | .addi d _ _ | .andi d _ _ | .ori d _ _ | .xori d _ _ | .slti d _ _ | .sltiu d _ _
  | .slli d _ _ | .srli d _ _ | .srai d _ _ | .rori d _ _ | .lhi d _ | .lsh d _ | .adr d _ => some d
  | _ => none

/-! ### Accesses to memory (R97 to R122) -/

/-- An access of the issuing context at va reaches pa in this module's device memory through the leaf l, at once: the address is
canonical, the leaf permits it and has its A and D bits set, no page move holds it, and no earlier answer is waited for. -/
def landsAt (s : State) (va : Word) (acc : Access) (pa : Nat) (l : Leaf) : Prop :=
  s.cx.answer = none ∧ s.awaiting = false ∧ canonical va = true
    ∧ translate s.ms s.tick (s.own.ownerOr s.owner) va acc = .at pa l ∧ hostSpace pa = false ∧ s.ms.movingAt pa = false
    ∧ l.entry ||| 0x20 ||| (if acc.writes then 0x40 else 0) = l.entry

/-- The address whose bytes the access sees: on a replicated page the copy of the core's die (R110). -/
def dataAddr (s : State) (pa : Nat) (l : Leaf) : Nat :=
  s.ms.homeAddr (if pteRepl l.entry then copyAddr s.co.num pa else pa)

/-- Nothing stands between the core and memory: no buffered store, no update of a replicated page on its way, no broken invariant
promise, no remote or host store without its completion. -/
def calm (s : State) : Prop :=
  s.co.stores = [] ∧ s.ms.pending = [] ∧ s.ms.broken = [] ∧ s.storesOut = false ∧ s.cx.lost = none

/-- Neither the core's nor the cluster's cache answers a load of the address (R98, R99). -/
def uncached (s : State) (pa : Nat) (l : Leaf) (inv : Bool) : Prop :=
  let a := if pteRepl l.entry then copyAddr s.co.num pa else pa
  findLine s.tick a s.co.dcache = none ∧ clusterLine s.ms s.tick (clusterOf s.co.num) s.co.mark a inv = none

/-- What a load leaves: memory, every register but X[d], the flags and the rest of the module but the caches it filled. -/
def loadFrame (d : Reg) (s t : State) : Prop :=
  sameMemory s t ∧ (∀ r, r ≠ d → t.x r = s.x r) ∧ t.cx.v = s.cx.v ∧ t.cx.p = s.cx.p ∧ t.cx.mg = s.cx.mg ∧ t.cx.cr = s.cx.cr
    ∧ t.cx.hf = s.cx.hf ∧ t.cx.mx = s.cx.mx ∧ t.ranks = s.ranks ∧ t.cores = s.cores ∧ t.disp = s.disp ∧ t.eng = s.eng
    ∧ t.fab = s.fab ∧ t.host = s.host ∧ t.co.stores = s.co.stores ∧ t.rk.tiles = s.rk.tiles ∧ t.rk.sig = s.rk.sig

/-- What a scalar store, an atomic or a fence leaves: every register but X[d], the control registers but cr.fflags, the other
ranks and cores, the engines. -/
def storeFrame (d : Reg) (s t : State) : Prop :=
  (∀ r, r ≠ d → t.x r = s.x r) ∧ t.cx.v = s.cx.v ∧ t.cx.p = s.cx.p ∧ t.cx.mg = s.cx.mg
    ∧ ({ t.cx.cr with fflags := 0 } : CtxRegs) = { s.cx.cr with fflags := 0 } ∧ t.cx.hf = s.cx.hf ∧ t.cx.mx = s.cx.mx
    ∧ t.ranks = s.ranks ∧ t.cores = s.cores ∧ t.disp = s.disp ∧ t.eng = s.eng ∧ t.rk.tiles = s.rk.tiles

/-- Memory of t is that of s with the bytes bs from pa on; every full/empty bit is as before. -/
def storesBytes (pa : Nat) (bs : List Byte) (s t : State) : Prop :=
  (∀ k, k < bs.length → some (readByte t.ms.mem (pa + k)) = bs[k]?) ∧ sameOutside pa bs.length s t
    ∧ ∀ q, isFull t.ms.mem q = isFull s.ms.mem q

/-- The program counter after an instruction that completes without a branch. -/
def movedOn (s t : State) : Prop := t.cx.pc = s.cx.pc + (if s.cx.pair then 8 else 4) ∧ t.cx.wait = .none

/-- The buffer of t is that of s with one store of the issuing context behind it: the n low bytes of v at pa. -/
def buffers (pa n : Nat) (v : Word) (s t : State) : Prop :=
  ∃ e, t.co.stores = s.co.stores ++ [e] ∧ e.key = s.rk.key ∧ e.ctx = s.cx.num ∧ e.pa = pa ∧ e.data.length = n
    ∧ ∀ k, k < n → e.data[k]? = some (v.extractLsb' (8 * k) 8)

/-! ### Results in integers -/

/-- The w-bit value congruent to an integer (R60: "the low bits of the exact result"). -/
def ofExact (w : Nat) (n : Int) : BitVec w := BitVec.ofInt w n

/-- Whether n counts the zero bits of a from bit 63 down, before the first one. -/
def leadsBy (a : Word) (n : Nat) : Prop :=
  n ≤ 64 ∧ (∀ k, k < n → bitAt a (63 - k) = false) ∧ (n < 64 → bitAt a (63 - n) = true)

/-- Whether n counts the zero bits of a from bit 0 up, before the first one. -/
def trailsBy (a : Word) (n : Nat) : Prop :=
  n ≤ 64 ∧ (∀ k, k < n → bitAt a k = false) ∧ (n < 64 → bitAt a n = true)

/-- How many bits of a are one. -/
def onesOf (a : Word) : Nat := ((List.range 64).filter fun k => a.getLsbD k).length

/-- The quotient of R61: truncated toward zero, all ones where the divisor is zero. -/
def quotientS (w : Nat) (a b : BitVec w) : BitVec w :=
  if b.toInt = 0 then ofExact w (-1) else ofExact w (a.toInt.tdiv b.toInt)

def quotientU (w : Nat) (a b : BitVec w) : BitVec w :=
  if b.toNat = 0 then ofExact w (-1) else ofExact w (a.toNat / b.toNat : Nat)

/-- The remainder of R61: of the dividend's sign, the dividend itself where the divisor is zero. -/
def remainderS (w : Nat) (a b : BitVec w) : BitVec w := if b.toInt = 0 then a else ofExact w (a.toInt.tmod b.toInt)

def remainderU (w : Nat) (a b : BitVec w) : BitVec w := if b.toNat = 0 then a else ofExact w (a.toNat % b.toNat : Nat)

/-! ### Floating-point values as rationals (R62, R172) -/

/-- ±m × 2^e as a rational. -/
def ratOf (neg : Bool) (m : Nat) (e : Int) : Rat :=
  (if neg then -1 else 1) * (m : Rat) * ((2^e.toNat : Nat) : Rat) / ((2^(-e).toNat : Nat) : Rat)

/-- a < b, false where either is a NaN. -/
def floatLt : Fp → Fp → Bool
  | .fin p m e, .fin q n k => decide (ratOf p m e < ratOf q n k)
  | .inf p, .inf q => p && !q
  | .inf p, .fin .. => p
  | .fin .., .inf q => !q
  | .nan _, _ | _, .nan _ => false

/-- a = b, with -0 equal to +0, false where either is a NaN. -/
def floatEq : Fp → Fp → Bool
  | .fin p m e, .fin q n k => decide (ratOf p m e = ratOf q n k)
  | .inf p, .inf q => p == q
  | .inf _, .fin .. | .fin .., .inf _ | .nan _, _ | _, .nan _ => false

/-! ### Lanes and masks, bit by bit (R137, R166, R167) -/

/-- Lane i of width w of a vector register: its bits from w × i on. -/
def laneAt (w : Nat) (v : VReg) (i : Nat) : BitVec w := v.extractLsb' (w * i) w

/-- Whether byte lane k lies in an active lane of width w: the bit of that lane's lowest byte. -/
def byteActive (w : Nat) (m : Mask) (k : Nat) : Bool := m.getLsbD (k / (w / 8) * (w / 8))

/-- Whether a vector instruction passes the stream checks of R318: every stream it names is bound in the right direction, steps
inside its tile, finds the tile in a legal state and its row filled; an instruction without streams passes in every state. -/
def vectorRuns (s : State) (i : Instr) (srcs : List VField) (dst : Option VField) (old : Bool) : Prop :=
  let us := srcs.map srcUse ++ (dst.map fun d => VUse.mk d true old).toList
  s.streamsLegal i us = .ok () ∧ s.streamsReady us = .ok ()

/-- The vector instruction i completes in t with each stream among its fields advanced once (R91). -/
def vectorEnds (i : Instr) (s : State) (fields : List VField) (t : State) : Prop :=
  exec i s = .next (t.stepStreams fields).advance

/-- i completes with lane j of VD at width w equal to r j where pg allows, its other bytes unwritten (R168), and flags raised. -/
def givesLanes (i : Instr) (s : State) (srcs : List VField) (d : VField) (pg : Fin 8) (w : Nat) (r : Nat → BitVec w) : Prop :=
  ∃ m v, (∀ k, k < 128 → m.getLsbD k = byteActive w (s.mask pg) k) ∧ (∀ j, j < 1024 / w → laneAt w v j = r j)
    ∧ vectorEnds i s (srcs ++ [d]) (s.writeV d m v)

/-- As givesLanes, with the OR of the flags of the active lanes in cr.fflags. -/
def givesFpLanes (i : Instr) (s : State) (srcs : List VField) (d : VField) (pg : Fin 8) (w : Nat) (r : Nat → FpRes) : Prop :=
  ∃ m v fl, (∀ k, k < 128 → m.getLsbD k = byteActive w (s.mask pg) k)
    ∧ (∀ j, j < 1024 / w → (laneAt w v j).toNat = (r j).1 % 2^w)
    ∧ (∀ b, b < 5 → (BitVec.getLsbD fl b = true ↔ ∃ j, j < 1024 / w ∧ (s.mask pg).getLsbD (j * (w / 8)) = true
        ∧ (r j).2.getLsbD b = true))
    ∧ vectorEnds i s (srcs ++ [d]) ((s.writeV d m v).raise fl)

/-- i completes with every byte of VD written from v. -/
def givesAll (i : Instr) (s : State) (srcs : List VField) (d : VField) (p : VReg → Prop) : Prop :=
  ∃ v, p v ∧ vectorEnds i s (srcs ++ [d]) (s.writeV d (BitVec.allOnes 128) v)

/-- A conversion completes: every byte of VD written from v, with the OR of the flags of all its results. -/
def givesConv (i : Instr) (s : State) (srcs : List VField) (d : VField) (n : Nat) (r : Nat → FpRes) (p : VReg → Prop) : Prop :=
  ∃ v fl, p v ∧ (∀ b, b < 5 → (BitVec.getLsbD fl b = true ↔ ∃ j, j < n ∧ (r j).2.getLsbD b = true))
    ∧ vectorEnds i s (srcs ++ [d]) ((s.writeV d (BitVec.allOnes 128) v).raise fl)

/-- A compare completes: byte k of the mask of d is set where its lane is active and the lane's condition holds (R167). -/
def givesMask (i : Instr) (s : State) (srcs : List VField) (d : Fin 8) (w : Nat) (m0 : Mask) (c : Nat → Bool) (u : State) : Prop :=
  ∃ m, (∀ k, k < 128 → BitVec.getLsbD m k = (byteActive w m0 k && c (k / (w / 8)))) ∧ vectorEnds i s srcs (u.setMask d m)

/-- A predicate instruction completes: byte k of the mask of d is f k. -/
def givesPred (i : Instr) (s : State) (d : Fin 8) (f : Nat → Bool) : Prop :=
  ∃ m, (∀ k, k < 128 → BitVec.getLsbD m k = f k) ∧ exec i s = .next (s.setMask d m).advance

/-- The lanes of a reduction's source as integers, those that pg leaves out replaced by z. -/
def entering (s : State) (pg : Fin 8) (w : Nat) (v : VReg) (z : Int) : List Int :=
  (List.range (1024 / w)).map fun j => if (s.mask pg).getLsbD (j * (w / 8)) then (laneAt w v j).toInt else z

/-! ### Lanes in memory, tiles (R79 to R91, R181 to R191) -/

/-- Whether lane k of width w is active under the predicate pg. -/
def laneActive (s : State) (pg : Fin 8) (w k : Nat) : Bool := (s.mask pg).getLsbD (k * (w / 8))

/-- Every active lane's address is aligned and lands in device memory; no answer, no part of an earlier issue is in hand. -/
def lanesLand (s : State) (acc : Access) (pg : Fin 8) (w : Nat) (addr : Nat → Word) (pa : Nat → Nat) (l : Nat → Leaf) : Prop :=
  (∀ k, k < 1024 / w → laneActive s pg w k = true → (addr k).toNat % (w / 8) = 0 ∧ landsAt s (addr k) acc (pa k) (l k))
    ∧ s.cx.answer = none ∧ s.cx.lanes = [] ∧ s.awaiting = false ∧ s.ms.move.done = false

/-- Byte off of a tile's contents. -/
def tileByte (t : Tile) (off : Nat) : Byte := (cellsFind off t.bytes).getD 0

/-- The issuing rank is live, on its core. -/
def State.live (s : State) : Prop := s.rk.state = .running

/-- Every part of the module but the issuing context and the two tables that hold its tiles is in t as in s. -/
def sameButTiles (s t : State) : Prop :=
  t = { s with
    cx := t.cx
    rk := { s.rk with tiles := t.rk.tiles, solo := { s.rk.solo with count := t.rk.solo.count } }
    eng := { s.eng with tiles := t.eng.tiles } }

/-- An access of an engine under an owner's translation reaches pa in this module's device memory at once, its leaf's A and D set. -/
def engineLands (s : State) (owner : Nat) (acc : Access) (va : Word) (pa : Nat) : Prop :=
  ∃ l, canonical va = true ∧ translate s.ms s.tick (s.own.ownerOr owner) va acc = .at pa l ∧ hostSpace pa = false
    ∧ s.ms.movingAt pa = false ∧ pteRepl l.entry = false ∧ l.entry ||| 0x20 ||| (if acc.writes then 0x40 else 0) = l.entry

/-- A command of the copyist stands at the head of its channel, with nothing that holds it, and belongs to the issuing rank. -/
def copyStands (s : State) (ch : Nat) (c : CopyCmd) : Prop :=
  s.copyHead ch = some c ∧ c.record = none ∧ c.ring = none ∧ c.moved = false ∧ c.node = none ∧ s.live ∧ c.key = s.rk.key ∧ c.run = s.rk.run
    ∧ s.copyAsks ch = false

/-! ### The matrix unit (R199 to R213) -/

/-- The true value of a pairing stage with the terms it still holds (R202). -/
def Cell.value (c : Cell) : Int := c.a + c.x * 2^24 + c.pos.sum + c.neg.sum

/-- What a matrix command leaves: all but the rank's queue and the counts of reads of its tiles, and the program counter. -/
def matrixQueued (s t : State) (o : MatrixOp) : Prop :=
  t.rk.mx = { s.rk.mx with queue := s.rk.mx.queue ++ [o] } ∧ movedOn s t ∧ t.cx.x = s.cx.x ∧ t.cx.v = s.cx.v ∧ t.cx.mg = s.cx.mg
    ∧ t.cx.cr = s.cx.cr ∧ t.ms = s.ms ∧ t.ranks = s.ranks ∧ t.disp = s.disp ∧ o.ctx = s.cx.num ∧ o.node = none ∧ o.tile = none
    ∧ o.snap = { mg := s.cx.mg, fmt := s.cx.cr.fmt, sclp := s.cx.cr.sclp, accexp := s.cx.cr.accexp, spar := s.cx.cr.spar,
                 keyid := s.cx.cr.keyid }
    ∧ ∀ h q, s.tile? h = some q → ∃ q', t.tile? h = some q' ∧ { q' with reads := q.reads } = q
        ∧ q'.reads = q.reads + (o.reads.filter fun j => j == h).length

/-- Bytes off to off + n - 1 of a row of a tile as a little-endian number, zeros past the row's end. -/
def rowNat (q : Tile) (row off n : Nat) : Nat := leNat (q.rowPart row off n)

/-! ### Exceptions that an event brings (R303, R306) -/

/-- The issuing context, running its program under a trap handler, with no event of its own pending and no other context of its rank under
its number. -/
def handles (s : State) : Prop :=
  s.live ∧ s.rk.core = s.co.num ∧ s.cx.run = .running ∧ s.cx.cr.trapvec ≠ 0 ∧ s.cx.hf = false ∧ s.cx.pair = false ∧ s.cx.mx.pending = false
    ∧ ∀ c ∈ s.rk.ctxs, c.num ≠ s.cx.num

/-- The issuing context of t has taken a precise trap that s was due: it stands at its handler with the cause and the value. -/
def tookTrap (s t : State) (cause : BitVec 8) (val : Word) : Prop :=
  t.cx.cr = { s.cx.cr with trapcause := cause.setWidth 9, trappc := s.cx.pc.setWidth 53, trapval := val }
    ∧ t.cx.hf = true ∧ t.cx.pc = s.cx.cr.trapvec.signExtend 64 ∧ t.cx.wait = .none ∧ t.cx.x = s.cx.x ∧ t.cx.v = s.cx.v

/-! ### Accesses from outside the cores (R280, R345) -/

/-- No byte of the n from pa on belongs to the tables that translate va for an owner. -/
def tablesApart (s : State) (owner : Nat) (va : Word) (pa n : Nat) : Prop :=
  ∀ ms : MemSystem, (∀ q, q < pa ∨ pa + n ≤ q → readByte ms.mem q = readByte s.ms.mem q) →
    leafOf ms (s.own.ownerOr owner) va = leafOf s.ms (s.own.ownerOr owner) va

/-- A record of a class stands behind the error records of s, and no other. -/
def records (s t : State) (cls : BitVec 8) (addr val1 : Word) : Prop :=
  ∃ e, t.disp.errors = s.disp.errors ++ [e] ∧ e.cls = cls ∧ e.addr = addr ∧ e.val1 = val1

end Sys2Proof.Machine
end

