-- ==== Sys2Proof/Certificates/Slice0/Obligations.lean ====
section
/-! DEFINITION. The statements for the provers, from the spec's numbered rules. Each docstring names its rules; where a clause
rests on a choice of the model, it names the log entry. -/

open Sys2Proof Sys2Proof.Machine

/-! ### Integers (04 R60, R61; 08 R150 to R158) -/

/-- R152, R60: every instruction of opcode 0x01 that computes with arithmetic, comparison or shifts completes, with X[D] as the
table gives it, written in integers.

R152: the instructions of opcode 0x01 that act on the bits of their operands complete, with X[D] as the table gives it, bit
by bit or counted.

R61, R154: the divides of both widths complete on every operand value, with the quotient and remainder of R61.

R153, R60: the word instructions of opcode 0x02 compute on bits [31:0] and write the result sign-extended. -/
def Obligations.IntegerResults : Prop :=
  (∀ (s : State) (d a b : Reg),
    let (x, y) := (s.x a, s.x b)
    let n := y.toNat % 64
    let gives := fun (i : Instr) (v : Word) => exec i s = .next (s.setX d v).advance
    gives (.add d a b) (ofExact 64 (x.toInt + y.toInt))
    ∧ gives (.sub d a b) (ofExact 64 (x.toInt - y.toInt))
    ∧ gives (.sll d a b) (ofExact 64 (x.toNat * 2^n : Nat))
    ∧ gives (.srl d a b) (ofExact 64 (x.toNat / 2^n : Nat))
    ∧ gives (.sra d a b) (ofExact 64 (x.toInt / 2^n))
    ∧ gives (.rol d a b) (ofExact 64 (x.toNat * 2^n + x.toNat / 2^(64 - n) : Nat))
    ∧ gives (.ror d a b) (ofExact 64 (x.toNat / 2^n + x.toNat * 2^(64 - n) : Nat))
    ∧ gives (.slt d a b) (if x.toInt < y.toInt then 1 else 0)
    ∧ gives (.sltu d a b) (if x.toNat < y.toNat then 1 else 0)
    ∧ gives (.min d a b) (ofExact 64 (min x.toInt y.toInt))
    ∧ gives (.max d a b) (ofExact 64 (max x.toInt y.toInt))
    ∧ gives (.minu d a b) (ofExact 64 (min x.toNat y.toNat : Nat))
    ∧ gives (.maxu d a b) (ofExact 64 (max x.toNat y.toNat : Nat))
    ∧ gives (.mul d a b) (ofExact 64 (x.toInt * y.toInt))
    ∧ gives (.mulh d a b) (ofExact 64 (x.toInt * y.toInt / 2^64))
    ∧ gives (.mulhu d a b) (ofExact 64 (x.toNat * y.toNat / 2^64 : Nat))
    ∧ gives (.mulhsu d a b) (ofExact 64 (x.toInt * y.toNat / 2^64))) ∧
  (∀ (s : State) (d a b : Reg),
    let (x, y) := (s.x a, s.x b)
    let gives := fun (i : Instr) (p : Word → Prop) => ∃ v, exec i s = .next (s.setX d v).advance ∧ p v
    let bitwise := fun (f : Bool → Bool → Bool) (v : Word) => ∀ k, k < 64 → v.getLsbD k = f (x.getLsbD k) (y.getLsbD k)
    gives (.and d a b) (bitwise fun p q => p && q)
    ∧ gives (.or d a b) (bitwise fun p q => p || q)
    ∧ gives (.xor d a b) (bitwise fun p q => p != q)
    ∧ gives (.andn d a b) (bitwise fun p q => p && !q)
    ∧ gives (.orn d a b) (bitwise fun p q => p || !q)
    ∧ gives (.clz d a) (fun v => leadsBy x v.toNat)
    ∧ gives (.ctz d a) (fun v => trailsBy x v.toNat)
    ∧ gives (.popc d a) (fun v => v.toNat = onesOf x)
    ∧ gives (.sextb d a) (fun v => v.toInt = (x.toNat : Int).bmod (2^8))
    ∧ gives (.sexth d a) (fun v => v.toInt = (x.toNat : Int).bmod (2^16))
    ∧ gives (.sextw d a) (fun v => v.toInt = (x.toNat : Int).bmod (2^32))
    ∧ gives (.zextw d a) (fun v => v.toNat = x.toNat % 2^32)
    ∧ gives (.bswap d a) (fun v => ∀ k, k < 8 → v.extractLsb' (8 * k) 8 = x.extractLsb' (8 * (7 - k)) 8)
    ∧ gives (.csel d a b) (fun v => v = if (s.x d).toNat ≠ 0 then x else y)) ∧
  (∀ (s : State) (d a b : Reg) (la : Fin 16),
    let (x, y) := (s.x a, s.x b)
    let (p, q) := (x.setWidth 32, y.setWidth 32)
    let gives := fun (i : Instr) (v : Word) => exec i s = .next (s.setX d v).advance
    gives (.div d a b la) (quotientS 64 x y) ∧ gives (.divu d a b la) (quotientU 64 x y)
    ∧ gives (.rem d a b la) (remainderS 64 x y) ∧ gives (.remu d a b la) (remainderU 64 x y)
    ∧ gives (.divw d a b la) ((quotientS 32 p q).signExtend 64) ∧ gives (.divuw d a b la) ((quotientU 32 p q).signExtend 64)
    ∧ gives (.remw d a b la) ((remainderS 32 p q).signExtend 64) ∧ gives (.remuw d a b la) ((remainderU 32 p q).signExtend 64)) ∧
  (∀ (s : State) (d a b : Reg),
    let (x, y) := ((s.x a).setWidth 32, (s.x b).setWidth 32)
    let n := y.toNat % 32
    let gives := fun (i : Instr) (v : BitVec 32) => exec i s = .next (s.setX d (v.signExtend 64)).advance
    gives (.addw d a b) (ofExact 32 (x.toInt + y.toInt)) ∧ gives (.subw d a b) (ofExact 32 (x.toInt - y.toInt))
    ∧ gives (.sllw d a b) (ofExact 32 (x.toNat * 2^n : Nat)) ∧ gives (.srlw d a b) (ofExact 32 (x.toNat / 2^n : Nat))
    ∧ gives (.sraw d a b) (ofExact 32 (x.toInt / 2^n)) ∧ gives (.mulw d a b) (ofExact 32 (x.toInt * y.toInt)))

/-- R155: the immediates and constants of opcodes 0x03 to 0x0C complete with X[D] as the table gives it; under a solo prefix the
Pc of `adr` is its own word's (R52, log 17). -/
def Obligations.ImmediateResults : Prop :=
  ∀ (s : State) (d a : Reg) (imm : BitVec 16) (sh : Fin 64),
    let x := s.x a
    let i := imm.toInt
    let gives := fun (j : Instr) (v : Word) => exec j s = .next (s.setX d v).advance
    gives (.addi d a imm) (ofExact 64 (x.toInt + i))
    ∧ gives (.andi d a imm) (x &&& ofExact 64 i)
    ∧ gives (.ori d a imm) (x ||| ofExact 64 i)
    ∧ gives (.xori d a imm) (x ^^^ ofExact 64 i)
    ∧ gives (.slti d a imm) (if x.toInt < i then 1 else 0)
    ∧ gives (.sltiu d a imm) (if x.toNat < (ofExact 64 i).toNat then 1 else 0)
    ∧ gives (.slli d a sh) (ofExact 64 (x.toNat * 2^sh.val : Nat))
    ∧ gives (.srli d a sh) (ofExact 64 (x.toNat / 2^sh.val : Nat))
    ∧ gives (.srai d a sh) (ofExact 64 (x.toInt / 2^sh.val))
    ∧ gives (.rori d a sh) (ofExact 64 (x.toNat / 2^sh.val + x.toNat * 2^(64 - sh.val) : Nat))
    ∧ gives (.lhi d imm) (ofExact 64 (i * 65536))
    ∧ gives (.lsh d imm) (ofExact 64 ((s.x d).toNat * 2^16 + imm.toNat : Nat))
    ∧ gives (.adr d imm) (ofExact 64 ((if s.cx.pair then s.cx.pc + 4 else s.cx.pc).toInt + i * 4))

/-- R139, R150: what an instruction that writes X[D] and moves on leaves behind: X[D] holds the value, x0 reads zero whatever is
written to it, the program counter names the next word (past both words of a solo pair, R52), and nothing else changes.

R60, R154: whatever the operands, an instruction of opcodes 0x01 to 0x0C changes X[D] and the program counter alone: no
other register, no flag of cr.fflags, no byte of memory. -/
def Obligations.RegisterWriteFrames : Prop :=
  (∀ (s : State) (d : Reg) (v : Word),
    let t := (s.setX d v).advance
    onlyX d s t ∧ t.x d = (if d = 0 then 0 else v) ∧ t.cx.pc = s.cx.pc + (if s.cx.pair then 8 else 4) ∧ t.cx.wait = .none) ∧
  (∀ (i : Instr) (d : Reg), integerDest i = some d → ∀ (s t : State), exec i s = .next t → onlyX d s t)

/-- R156: a branch goes to Pc + Sext(OFF) × 4 where its condition holds, else to the next word; nothing else changes.

R157, R321: `jal` and `j` go to Pc + Sext(OFF) × 4, `jalr` to X[A] + Sext(IMM), read before X[D] is written; a target of
`jalr` that is no multiple of 4 is a MISALIGN trap with the target in trapval, X[D] unchanged.

R158: `bes` branches on one bit of cr.est as it stands when the instruction issues. -/
def Obligations.BranchAndJumpResults : Prop :=
  (∀ (s : State) (a b : Reg) (off : BitVec 13),
    let (x, y) := (s.x a, s.x b)
    let taken := s.goTo ((if s.cx.pair then s.cx.pc + 4 else s.cx.pc) + ofExact 64 (off.toInt * 4))
    let goes := fun (i : Instr) (c : Prop) => (c → exec i s = .next taken) ∧ (¬c → exec i s = .next s.advance)
    goes (.beq a b off) (x.toNat = y.toNat) ∧ goes (.bne a b off) (x.toNat ≠ y.toNat)
    ∧ goes (.blt a b off) (x.toInt < y.toInt) ∧ goes (.bge a b off) (y.toInt ≤ x.toInt)
    ∧ goes (.bltu a b off) (x.toNat < y.toNat) ∧ goes (.bgeu a b off) (y.toNat ≤ x.toNat)) ∧
  (∀ (s : State) (d a : Reg) (imm : BitVec 16) (off : BitVec 26),
    let pc := if s.cx.pair then s.cx.pc + 4 else s.cx.pc
    let there := pc + ofExact 64 (off.toInt * 4)
    let t := s.x a + ofExact 64 imm.toInt
    exec (.j off) s = .next (s.goTo there) ∧ exec (.jal off) s = .next ((s.setX 1 (pc + 4)).goTo there)
    ∧ (t.toNat % 4 = 0 → exec (.jalr d a imm) s = .next ((s.setX d (pc + 4)).goTo t))
    ∧ (t.toNat % 4 ≠ 0 → exec (.jalr d a imm) s = .next (s.trap Cause.misalign t))) ∧
  (∀ (s : State) (bit : Fin 64) (sense : Bool) (off : BitVec 19),
    let pc := if s.cx.pair then s.cx.pc + 4 else s.cx.pc
    (s.est.getLsbD bit.val = sense → exec (.bes bit sense off) s = .next (s.goTo (pc + ofExact 64 (off.toInt * 4))))
    ∧ (s.est.getLsbD bit.val ≠ sense → exec (.bes bit sense off) s = .next s.advance))

/-! ### Vectors and predicates (09 R166 to R180) -/

/-- R169, R60: every integer vector instruction completes where its streams allow it, the active lanes of VD written as the
table gives them, in integers at the lane's width. -/
def Obligations.VectorIntegerResults : Prop :=
  ∀ (s : State) (d a b : Reg) (pg : Fin 8) (t : ElemType), t.isInt = true →
    let w := elemWidth t
    let x := fun j => laneAt w (s.source a) j
    let y := fun j => laneAt w (s.source b) j
    let gives := fun (i : Instr) (r : Nat → Int) =>
      vectorRuns s i [a, b] (some d) false → givesLanes i s [a, b] d pg w fun j => ofExact w (r j)
    let n := fun j => (y j).toNat % w
    gives (.vadd d a b pg t) (fun j => (x j).toInt + (y j).toInt)
    ∧ gives (.vsub d a b pg t) (fun j => (x j).toInt - (y j).toInt)
    ∧ gives (.vmul d a b pg t) (fun j => (x j).toInt * (y j).toInt)
    ∧ gives (.vmulh d a b pg t) (fun j => (x j).toInt * (y j).toInt / 2^w)
    ∧ gives (.vmulhu d a b pg t) (fun j => (x j).toNat * (y j).toNat / 2^w)
    ∧ gives (.vmin d a b pg t) (fun j => min (x j).toInt (y j).toInt)
    ∧ gives (.vmax d a b pg t) (fun j => max (x j).toInt (y j).toInt)
    ∧ gives (.vminu d a b pg t) (fun j => min ((x j).toNat : Int) (y j).toNat)
    ∧ gives (.vmaxu d a b pg t) (fun j => max ((x j).toNat : Int) (y j).toNat)
    ∧ gives (.vand d a b pg t) (fun j => (x j &&& y j).toInt)
    ∧ gives (.vor d a b pg t) (fun j => (x j ||| y j).toInt)
    ∧ gives (.vxor d a b pg t) (fun j => (x j ^^^ y j).toInt)
    ∧ gives (.vsll d a b pg t) (fun j => (x j).toNat * 2^n j)
    ∧ gives (.vsrl d a b pg t) (fun j => (x j).toNat / 2^n j)
    ∧ gives (.vsra d a b pg t) (fun j => (x j).toInt / 2^n j)
    ∧ (vectorRuns s (.vabs d a pg t) [a] (some d) false →
        givesLanes (.vabs d a pg t) s [a] d pg w fun j => ofExact w (x j).toInt.natAbs)

/-- R170, R167: the integer compares complete where their streams allow it; lane by lane the mask of d is set where the lane is
active and the comparison holds, and clear elsewhere.

R172: the floating-point compares complete where their streams allow it, with the conditions of the rule (−0 equals +0, a NaN
makes eq, lt and le false and un true) and NV for the NaN operands that the rule names. -/
def Obligations.CompareResults : Prop :=
  (∀ (s : State) (d : Fin 8) (a b : Reg) (pg : Fin 8) (t : ElemType), t.isInt = true →
    let w := elemWidth t
    let x := fun j => laneAt w (s.source a) j
    let y := fun j => laneAt w (s.source b) j
    let gives := fun (i : Instr) (c : Nat → Bool) =>
      vectorRuns s i [a, b] none false → givesMask i s [a, b] d w (s.mask pg) c s
    gives (.vcmpeq d a b pg t) (fun j => decide ((x j).toNat = (y j).toNat))
    ∧ gives (.vcmplt d a b pg t) (fun j => decide ((x j).toInt < (y j).toInt))
    ∧ gives (.vcmpltu d a b pg t) (fun j => decide ((x j).toNat < (y j).toNat))) ∧
  (∀ (s : State) (d : Fin 8) (a b : Reg) (pg : Fin 8) (t : ElemType), t.isFp = true →
    let w := elemWidth t
    let f := fpOf t
    let x := fun j => f.value (laneAt w (s.source a) j).toNat
    let y := fun j => f.value (laneAt w (s.source b) j).toNat
    let active := fun j => j < 1024 / w ∧ (s.mask pg).getLsbD (j * (w / 8)) = true
    let gives := fun (i : Instr) (c nv : Nat → Bool) =>
      vectorRuns s i [a, b] none false → ∃ m fl,
        (∀ k, k < 128 → BitVec.getLsbD m k = (byteActive w (s.mask pg) k && c (k / (w / 8))))
        ∧ ((∃ j, active j ∧ nv j = true) → fl = Flag.nv) ∧ ((∀ j, active j → nv j = false) → fl = 0)
        ∧ vectorEnds i s [a, b] ((s.setMask d m).raise fl)
    let quiet := fun j => (x j).isNan || (y j).isNan
    let signals := fun j => (x j).signals || (y j).signals
    gives (.vfcmpeq d a b pg t) (fun j => floatEq (x j) (y j)) signals
    ∧ gives (.vfcmplt d a b pg t) (fun j => floatLt (x j) (y j)) quiet
    ∧ gives (.vfcmple d a b pg t) (fun j => floatLt (x j) (y j) || floatEq (x j) (y j)) quiet
    ∧ gives (.vfcmpun d a b pg t) quiet signals)

/-- R171 to R173: every floating-point instruction completes where its streams allow it; its active lanes hold the result of
the model's own operation on their elements in the mode of cr.frm, and the flags of the active lanes reach cr.fflags. That an operation's
rounding of an exact value is the nearest one of its mode is stated in RoundingAndCellResults. -/
def Obligations.VectorFloatResults : Prop :=
  ∀ (s : State) (d a b : Reg) (pg : Fin 8) (t : ElemType), t.isFp = true →
    let w := elemWidth t
    let f := fpOf t
    let rm := s.cx.cr.frm.toNat
    let val := fun (v : VReg) j => f.value (laneAt w v j).toNat
    let x := val (s.source a)
    let y := val (s.source b)
    let z := val (s.v d)
    let two := fun (i : Instr) (r : Nat → FpRes) =>
      vectorRuns s i [a, b] (some d) false → givesFpLanes i s [a, b] d pg w r
    let three := fun (i : Instr) (r : Nat → FpRes) =>
      vectorRuns s i [a, b] (some d) true → givesFpLanes i s [a, b] d pg w r
    let one := fun (i : Instr) (r : Nat → FpRes) =>
      vectorRuns s i [a] (some d) false → givesFpLanes i s [a] d pg w r
    two (.vfadd d a b pg t) (fun j => f.addV rm (x j) (y j))
    ∧ two (.vfsub d a b pg t) (fun j => f.addV rm (x j) (y j).negate)
    ∧ two (.vfmul d a b pg t) (fun j => f.mulV rm (x j) (y j))
    ∧ three (.vfma d a b pg t) (fun j => f.fmaV rm (x j) (y j) (z j))
    ∧ three (.vfms d a b pg t) (fun j => f.fmaV rm (x j) (y j) (z j).negate)
    ∧ three (.vfnma d a b pg t) (fun j => f.fmaV rm (x j).negate (y j) (z j))
    ∧ two (.vfmin d a b pg t) (fun j => f.pick true (laneAt w (s.source a) j).toNat (laneAt w (s.source b) j).toNat)
    ∧ two (.vfmax d a b pg t) (fun j => f.pick false (laneAt w (s.source a) j).toNat (laneAt w (s.source b) j).toNat)
    ∧ two (.vfdiv d a b pg t) (fun j => f.divV rm (x j) (y j))
    ∧ one (.vfsqrt d a pg t) (fun j => f.sqrtV rm (x j))
    ∧ one (.vfrcp d a pg t) (fun j => f.rcpV rm (x j))
    ∧ one (.vfrsq d a pg t) (fun j => f.rsqV rm (x j))
    ∧ one (.vfexp2 d a pg t) (fun j => f.exp2V rm (x j))
    ∧ one (.vflog2 d a pg t) (fun j => f.log2V rm (x j))
    ∧ one (.vfabs d a pg t) (fun j => f.resign true (laneAt w (s.source a) j).toNat)
    ∧ one (.vfneg d a pg t) (fun j => f.resign false (laneAt w (s.source a) j).toNat)
    ∧ three (.vresc d a b pg t) (fun j => f.rescV rm (x j) (z j) (y j))

/-- R63, R64: an exact value ±m × 2^e rounded once to FP32 or BF16 keeps its sign, is no NaN, and raises NX exactly where it is not exact. A finite
result is, of all finite values, a nearest one in mode 0, of two equally near the one with an even code; the nearest not above x in size in mode 1;
the least not below x in mode 2; the greatest not above x in mode 3. It is infinite, with OF and NX, exactly where x lies half a unit or more past
the largest finite size in mode 0, beyond it on the positive side in mode 2, on the negative side in mode 3.

R202, R203: a cell that takes terms and then runs its residue pass without being poisoned holds their exact sum, in whatever order
they came, with its queues empty.

R202, R204, R71: the poison of a cell: a NaR term and a term beyond the range poison it at once, a poisoned cell discards every term,
and after any terms an element's value fits 24 bits and its excursion 3. -/
def Obligations.RoundingAndCellResults : Prop :=
  (∀ (f : FpFmt), (f = fp32 ∨ f = bf16) → ∀ (neg : Bool) (m : Nat) (e : Int) (rm : Nat), rm < 4 →
    let x := ratOf neg m e
    let r := f.round rm ⟨neg, m, e, false⟩
    let size := ratOf false m e
    let largest := ratOf false (2^(f.mb + 1) - 1) (f.bias - f.mb)
    let half := ratOf false (2^(f.mb + 2) - 1) (f.bias - f.mb - 1)
    (∀ n1 m1 e1, f.value r.1 = .fin n1 m1 e1 →
      let v := ratOf n1 m1 e1
      n1 = neg ∧ (r.2.getLsbD 0 = true ↔ v ≠ x) ∧
      ∀ c n2 m2 e2, c < 2^(1 + f.eb + f.mb) → f.value c = .fin n2 m2 e2 →
        let u := ratOf n2 m2 e2
        (rm = 0 → (v - x) * (v - x) ≤ (u - x) * (u - x) ∧ ((v - x) * (v - x) = (u - x) * (u - x) → u ≠ v → r.1 % 2 = 0))
        ∧ (rm = 1 → v * v ≤ x * x ∧ (u * u ≤ x * x → 0 ≤ u * x → u * u ≤ v * v))
        ∧ (rm = 2 → x ≤ v ∧ (x ≤ u → v ≤ u))
        ∧ (rm = 3 → v ≤ x ∧ (u ≤ x → u ≤ v)))
    ∧ (∀ n1, f.value r.1 = .inf n1 → n1 = neg ∧ r.2 = Flag.of ||| Flag.nx)
    ∧ ((∃ n1, f.value r.1 = .inf n1) ↔ (rm = 0 ∧ half ≤ size) ∨ (rm = 2 ∧ neg = false ∧ largest < size) ∨ (rm = 3 ∧ neg = true ∧ largest < size))
    ∧ (∀ q, f.value r.1 ≠ .nan q)) ∧
  (∀ (ts : List Int),
    let c := (ts.foldl (fun (c : Cell) t => c.cycle (some t)) Cell.zero).residue 9
    c.bad = false → c.a = ts.sum ∧ c.x = 0 ∧ c.pos = [] ∧ c.neg = []) ∧
  (∀ (c : Cell) (t : Option Int), -2^23 ≤ c.a → c.a ≤ 2^23 - 1 → -3 ≤ c.x → c.x ≤ 3 → c.pos.length ≤ 4 → c.neg.length ≤ 4 →
    (∀ v ∈ c.pos ++ c.neg, v.natAbs < 2^23) →
    let d := c.cycle t
    d.a ≤ 2^23 - 1 ∧ -2^23 ≤ d.a ∧ (∀ v ∈ d.pos ++ d.neg, v.natAbs < 2^23) ∧ -3 ≤ d.x ∧ d.x ≤ 3 ∧ d.pos.length ≤ 4 ∧ d.neg.length ≤ 4
    ∧ (c.bad = true → d = c) ∧ (c.bad = false → t = none → d.bad = true ∧ d.a = -2^23)
    ∧ (∀ v, c.bad = false → t = some v → 2^23 - 1 < v → d.bad = true ∧ d.a = 2^23 - 1)
    ∧ (∀ v, c.bad = false → t = some v → v < -(2^23 - 1) → d.bad = true ∧ d.a = -2^23)
    ∧ (∀ v, c.bad = false → t = some v → d.bad = false → d.value = c.value + v))

/-- R174, R175: the conversions, packs and unpacks complete where their streams allow it: each lane of VD is the conversion of the source lane that
the rules name (by the model's own conversion of one value), a pack shifts VD's high half down and writes the high half, and the flags are those of
all results. -/
def Obligations.ConversionResults : Prop :=
  ∀ (s : State) (d a b : Reg) (h : Fin 2) (q : Fin 4),
    let rm := s.cx.cr.frm.toNat
    let x := s.source a
    let y := s.source b
    let at_ := fun (w n : Nat) (j : Nat) => (if j < n then laneAt w x j else laneAt w y (j - n)).toNat
    let high := fun (w : Nat) (r : Nat → FpRes) (v : VReg) =>
      v.extractLsb' 0 512 = (s.v d).extractLsb' 512 512 ∧ ∀ j, j < 512 / w → (laneAt w v (512 / w + j)).toNat = (r j).1 % 2^w
    let whole := fun (w : Nat) (r : Nat → FpRes) (v : VReg) => ∀ j, j < 1024 / w → (laneAt w v j).toNat = (r j).1 % 2^w
    let quad := fun (j : Nat) => encodeLb4 (fp32.value (at_ 32 32 (4 * j))) (fp32.value (at_ 32 32 (4 * j + 1)))
      (fp32.value (at_ 32 32 (4 * j + 2))) (fp32.value (at_ 32 32 (4 * j + 3)))
    let one := fun (i : Instr) (w n : Nat) (r : Nat → FpRes) =>
      vectorRuns s i [a] (some d) false → givesConv i s [a] d n r (whole w r)
    one (.vcvtF32I32 d a) 32 32 (fun j => convFromInt32 rm (laneAt 32 x j).toNat)
    ∧ one (.vcvtI32F32 d a) 32 32 (fun j => convInt32 rm (laneAt 32 x j).toNat)
    ∧ (vectorRuns s (.vcvtBf16F32 d a b) [a, b] (some d) false →
        let r := fun j => convTo fp32 bf16 rm (at_ 32 32 j)
        givesConv (.vcvtBf16F32 d a b) s [a, b] d 64 r (whole 16 r))
    ∧ one (.vcvtF32Bf16 d a h) 32 32 (fun j => convTo bf16 fp32 rm (laneAt 16 x (32 * h.val + j)).toNat)
    ∧ (vectorRuns s (.vpackLb4 d a b) [a, b] (some d) true →
        givesConv (.vpackLb4 d a b) s [a, b] d 16 quad (high 32 quad))
    ∧ one (.vunpkLb4 d a q) 32 32 (fun j => (decodeLb4 (laneAt 32 x (8 * q.val + j / 4)).toNat (j % 4), 0))
    ∧ (vectorRuns s (.vpackE4m3 d a b) [a, b] (some d) true →
        let r := fun j => convE4m3 rm (at_ 32 32 j)
        givesConv (.vpackE4m3 d a b) s [a, b] d 64 r (high 8 r))
    ∧ (vectorRuns s (.vpackE5m2 d a b) [a, b] (some d) true →
        let r := fun j => convTo fp32 e5m2 rm (at_ 32 32 j)
        givesConv (.vpackE5m2 d a b) s [a, b] d 64 r (high 8 r))
    ∧ one (.vunpkE4m3 d a q) 32 32 (fun j => convTo e4m3 fp32 rm (laneAt 8 x (32 * q.val + j)).toNat)
    ∧ one (.vunpkE5m2 d a q) 32 32 (fun j => convTo e5m2 fp32 rm (laneAt 8 x (32 * q.val + j)).toNat)

/-- R176: the permutes complete where their streams allow it, with the lane that the table gives in each active lane of VD; `vext`
writes X[D], `vins` one lane of VD whatever the predicates, `vsel` every lane. -/
def Obligations.PermuteResults : Prop :=
  ∀ (s : State) (d a b : Reg) (pg : Fin 8) (t : ElemType),
    let w := elemWidth t
    let n := 1024 / w
    let x := fun j => laneAt w (s.source a) j
    let y := fun j => laneAt w (s.source b) j
    let k := (s.x b).toNat
    let gives := fun (i : Instr) (srcs : List VField) (r : Nat → BitVec w) =>
      vectorRuns s i srcs (some d) false → givesLanes i s srcs d pg w r
    gives (.vbcast d a pg t) [] (fun _ => (s.x a).setWidth w)
    ∧ gives (.vperm d a b pg t) [a, b] (fun j => x ((y j).toNat % n))
    ∧ gives (.vslup d a b pg t) [a] (fun j => if k ≤ j then x (j - k) else 0)
    ∧ gives (.vsldn d a b pg t) [a] (fun j => if j + k < n then x (j + k) else 0)
    ∧ gives (.vzip d a b pg t) [a, b] (fun j => if j % 2 = 0 then x (j / 2) else y ((j - 1) / 2))
    ∧ gives (.vunzip d a pg t) [a] (fun j => if j < n / 2 then x (2 * j) else x (2 * (j - n / 2) + 1))
    ∧ gives (.vrev d a pg t) [a] (fun j => x (n - 1 - j))
    ∧ gives (.vmov d a pg t) [a] x
    ∧ (vectorRuns s (.vsel d a b pg t) [a, b] (some d) false →
        givesAll (.vsel d a b pg t) s [a, b] d fun v =>
          ∀ j, j < n → laneAt w v j = if (s.mask pg).getLsbD (j * (w / 8)) then x j else y j)
    ∧ (vectorRuns s (.vext d a b t) [a] none false →
        vectorEnds (.vext d a b t) s [a] (s.setX d ((x (k % n)).setWidth 64)))
    ∧ (vectorRuns s (.vins d a b t) [] (some d) true →
        givesAll (.vins d a b t) s [] d fun v =>
          ∀ j, j < n → laneAt w v j = if j = k % n then (s.x a).setWidth w else laneAt w (s.v d) j)

/-- R177, R77: the integer reductions complete where their stream allows it, X[D] the sign-extended sum modulo 2^w, maximum or
minimum of the active lanes, or the identity where no lane is active; the floating-point ones run the tree of R77, lane i with
lane i + h, and gather the flags of every step.

R178 to R180: the predicate instructions complete in every state, byte lane by byte lane, or with the count or bits in X[D]. -/
def Obligations.ReductionAndPredicateResults : Prop :=
  (∀ (s : State) (d a : Reg) (pg : Fin 8) (t : ElemType),
    let w := elemWidth t
    let v := s.source a
    let f := fpOf t
    let lanes := fun (z : Nat) => (List.range (1024 / w)).map fun j =>
      if (s.mask pg).getLsbD (j * (w / 8)) then (laneAt w v j).toNat else z
    let tree := fun (z : Nat) (op : Nat → Nat → FpRes) =>
      treeReduce (fun (p q : FpRes) => ((op p.1 q.1).1, p.2 ||| q.2 ||| (op p.1 q.1).2)) (z, 0) 7
        ((lanes z).map fun c => (c, 0))
    let ends := fun (i : Instr) (u : State) => vectorRuns s i [a] none false → vectorEnds i s [a] u
    (t.isInt = true →
      ends (.vredadd d a pg t) (s.setX d ((ofExact w (entering s pg w v 0).sum).signExtend 64))
      ∧ ends (.vredmax d a pg t) (s.setX d ((ofExact w ((entering s pg w v (-(2^(w - 1)))).foldl max (-(2^(w - 1))))).signExtend 64))
      ∧ ends (.vredmin d a pg t) (s.setX d ((ofExact w ((entering s pg w v (2^(w - 1) - 1)).foldl min (2^(w - 1) - 1))).signExtend 64)))
    ∧ (t.isFp = true →
      let sum := tree (f.signed true 0) fun x y => f.addV s.cx.cr.frm.toNat (f.value x) (f.value y)
      let top := tree (f.signed true f.infCode) fun x y => f.pick false x y
      ends (.vfredadd d a pg t) ((s.setX d (wd sum.1)).raise sum.2)
      ∧ ends (.vfredmax d a pg t) ((s.setX d (wd top.1)).raise top.2))) ∧
  (∀ (s : State) (d a b : Fin 8) (xd xa xb : Reg) (t : ElemType),
    let w := elemWidth t
    let n := 1024 / w
    let p := s.mask a
    let q := s.mask b
    let on := fun j => p.getLsbD (j * (w / 8))
    let lane := fun k => k / (w / 8)
    givesPred (.pand d a b) s d (fun k => p.getLsbD k && q.getLsbD k)
    ∧ givesPred (.por d a b) s d (fun k => p.getLsbD k || q.getLsbD k)
    ∧ givesPred (.pxor d a b) s d (fun k => p.getLsbD k != q.getLsbD k)
    ∧ givesPred (.pandn d a b) s d (fun k => p.getLsbD k && !q.getLsbD k)
    ∧ givesPred (.pnot d a) s d (fun k => !p.getLsbD k)
    ∧ givesPred (.pset d xa t) s d (fun k => decide (lane k < min (s.x xa).toNat n))
    ∧ givesPred (.pldm d xa xb t) s d (fun k =>
        let c := ((s.x xb).toNat + lane k * (w / 8)) / 256
        decide (c < 64) && (s.x xa).getLsbD c)
    ∧ givesPred (.pmovp d xa t) s d (fun k => decide (lane k < min n 64) && (s.x xa).getLsbD (lane k))
    ∧ exec (.pcnt xd a t) s = .next (s.setX xd (wd ((List.range n).filter on).length)).advance
    ∧ (∃ v, exec (.pfirst xd a t) s = .next (s.setX xd (wd v)).advance ∧ v ≤ n ∧ (∀ j, j < v → on j = false)
        ∧ (v < n → on v = true))
    ∧ (∃ v, exec (.pmovx xd a t) s = .next (s.setX xd v).advance
        ∧ ∀ k, k < 64 → BitVec.getLsbD v k = (decide (k < min n 64) && on k)))

/-- R166 to R168, R180: what the write of a vector destination or a mask does. A register takes the bytes the mask sets and keeps
the others; a stream code leaves the registers; bits 0 to 63 of a mask go to P[d] and 64 to 127 to P[d XOR 4]; p0 is never
written, and its mask reads all ones.

R91, R168: a vector instruction without a memory operand changes registers, flags, its write stream's tile and the steps of
its streams: no byte of memory, no other agent. -/
def Obligations.VectorFrames : Prop :=
  (∀ (s : State) (d : Reg) (m : Mask) (v : VReg) (pd : Fin 8) (pm : Mask),
    let t := s.writeV d m v
    let u := s.setMask pd pm
    (d.val < 28 → (∀ k, k < 128 → laneAt 8 (t.v d) k = if m.getLsbD k then laneAt 8 v k else laneAt 8 (s.v d) k)
      ∧ t = { s with cx := { s.cx with v := t.cx.v } } ∧ ∀ r : VField, r ≠ d → t.v r = s.v r)
    ∧ (28 ≤ d.val → t.cx = s.cx ∧ t.ms = s.ms)
    ∧ (∀ g : Fin 8, g ≠ pd → g ≠ pd ^^^ 4 → u.p g = s.p g) ∧ u = { s with cx := { s.cx with p := u.cx.p } }
    ∧ (pd ≠ 0 → u.p pd = pm.extractLsb' 0 64 ∧ (pd ≠ 4 → u.p (pd ^^^ 4) = pm.extractLsb' 64 64))
    ∧ (pd = 0 → ∀ g, u.p g = s.p g) ∧ s.mask 0 = BitVec.allOnes 128) ∧
  (∀ (s : State) (i : Instr) (srcs : List VField) (dst : Option VField) (old : Bool) (k : List VReg → State) (t : State),
    vectorRuns s i srcs dst old → s.vector i srcs dst old k = .next t →
      ∃ u, u = k (srcs.map s.source) ∧ t.ms = u.ms ∧ t.cores = u.cores ∧ t.co = u.co ∧ t.own = u.own ∧ t.eng = u.eng
        ∧ t.cx.x = u.cx.x ∧ t.cx.v = u.cx.v ∧ t.cx.p = u.cx.p ∧ t.cx.cr = u.cx.cr ∧ t.ranks = u.ranks
        ∧ ∀ n : Fin 4, (∀ f ∈ srcs ++ dst.toList, streamNo f ≠ some n) → t.rk.streams[n] = u.rk.streams[n])

/-- R89, R185, R186: `sbind` binds a stream at step 0 of pass 0 where each row of its pattern lies in the tile, and traps OPERAND
where one does not; `sunbind` ends the binding; `sstat` reads it. In a helper none of them is an instruction.

R91, R90: one step of a stream: the inner index first, then the outer one, and past the last row the first again, with one pass
more, saturating at 2^24 - 1.

R168, R318 to R320: a stream operand that is unbound, bound in the wrong direction, or named as a destination whose old value is
read takes the OPERAND trap with its field code; in a helper a stream code is no instruction and takes ILLEGAL. Both come before
any effect. -/
def Obligations.StreamResults : Prop :=
  (∀ (s : State) (k : Fin 4) (d a b : Reg) (la : Fin 16) (q : Tile),
    let w0 := s.x a
    let w1 := s.x b
    let rowAt := fun (i j : Nat) => (field w0 8 12 : Int) + j * (w0.extractLsb' 48 13).toInt + i * (w0.extractLsb' 32 13).toInt
    let inside := (∀ i j, i < field w1 0 13 → j < field w1 16 13 → 0 ≤ rowAt i j ∧ rowAt i j < q.rows)
      ∧ field w0 20 6 < q.rowBytes / 64
    (s.isControl = false → exec (.sbind k a b la) s = .next (s.illegal (.sbind k a b la))
      ∧ exec (.sunbind k la) s = .next (s.illegal (.sunbind k la)) ∧ exec (.sstat d k la) s = .next (s.illegal (.sstat d k la)))
    ∧ (s.isControl = true → bindWord0 w0 = true → bindWord1 w1 = true → s.tile? (field w0 0 7) = some q →
        (inside → exec (.sbind k a b la) s
          = .next { s with rk := { s.rk with streams := s.rk.streams.set k (some ⟨w0, w1, 0, 0, 0⟩) } }.advance)
        ∧ (¬ inside → exec (.sbind k a b la) s = .next (s.trap Cause.operand w0)))
    ∧ (s.isControl = true → bindWord0 w0 = true → bindWord1 w1 = true → s.tile? (field w0 0 7) = none →
        exec (.sbind k a b la) s = .next (s.trap Cause.tileAlloc (wd (field w0 0 7))))
    ∧ (s.isControl = true → exec (.sunbind k la) s = .next { s with rk := { s.rk with streams := s.rk.streams.set k none } }.advance)
    ∧ (s.isControl = true → s.rk.streams[k] = none → exec (.sstat d k la) s = .next (s.setX d 0).advance)
    ∧ (s.isControl = true → ∀ r, s.rk.streams[k] = some r → r.i < 4096 → r.j < 4096 → r.pass < 2^24 → ∃ v,
        exec (.sstat d k la) s = .next (s.setX d v).advance ∧ field v 0 13 = r.i ∧ field v 13 3 = 0 ∧ field v 16 13 = r.j
          ∧ bitAt v 29 = bitAt r.w0 7 ∧ bitAt v 30 = true ∧ bitAt v 31 = false ∧ field v 32 7 = field r.w0 0 7 ∧ bitAt v 39 = false
          ∧ field v 40 24 = r.pass)) ∧
  (∀ (s : State) (k : Fin 4) (r : Stream), s.rk.streams[k] = some r →
    let c0 := field r.w1 0 13
    let c1 := field r.w1 16 13
    r.i < c0 → r.j < c1 → ∃ r', (s.stepStream k).rk.streams[k] = some r' ∧ r'.w0 = r.w0 ∧ r'.w1 = r.w1 ∧ r'.i < c0 ∧ r'.j < c1
      ∧ (r'.j * c0 + r'.i = (r.j * c0 + r.i + 1) % (c0 * c1))
      ∧ r'.pass = (if r.j * c0 + r.i + 1 = c0 * c1 then min (r.pass + 1) (2^24 - 1) else r.pass)
      ∧ ∀ j : Fin 4, j ≠ k → (s.stepStream k).rk.streams[j] = s.rk.streams[j]) ∧
  (∀ (s : State) (i : Instr) (srcs : List VField) (dst : Option VField) (old : Bool) (k : List VReg → State),
    let us := srcs.map srcUse ++ (dst.map fun d => VUse.mk d true old).toList
    (s.cx.num ≠ 0 → (∃ u ∈ us, 28 ≤ u.f.val) → s.vector i srcs dst old k = .next (s.illegal i))
    ∧ (s.cx.num = 0 → ∀ u, us.find? s.badUse = some u → s.vector i srcs dst old k = .next (s.trap Cause.operand (wd u.f.val))))

/-! ### Memory: loads, stores, atomics, fences (05 R97 to R112, 06 R117 to R122, 08 R159 to R165) -/

/-- R159, R321: a plain load of an aligned address reads the n bytes there, sign- or zero-extended, where no cache holds the line,
and changes X[D] alone; an unaligned address is a MISALIGN trap with the address in trapval.

R159, R119, R321: a plain store of an aligned address puts the n low bytes of X[D] (zeros for x0) into the core's store buffer,
behind the stores already there (on a replicated page under the address of its die's copy), and completes with memory as it was; an
unaligned address is a MISALIGN trap with the address in trapval. -/
def Obligations.PlainAccessResults : Prop :=
  (∀ (s : State) (d a : Reg) (imm : BitVec 16),
    let va := ofExact 64 ((s.x a).toInt + imm.toInt)
    let loads := fun (i : Instr) (n : Nat) (ext : Nat → Int) =>
      (va.toNat % n ≠ 0 → exec i s = .next (s.trap Cause.misalign va))
      ∧ (va.toNat % n = 0 → ∀ pa l, landsAt s va .load pa l → calm s → uncached s pa l false → ∃ t, exec i s = .next t
          ∧ t.x d = (if d = 0 then 0 else ofExact 64 (ext (readLE s.ms.mem (dataAddr s pa l) n)))
          ∧ movedOn s t ∧ loadFrame d s t)
    let signed := fun (n : Nat) (v : Nat) => (v : Int).bmod (2^(8 * n))
    loads (.ldB d a imm) 1 (signed 1) ∧ loads (.ldH d a imm) 2 (signed 2) ∧ loads (.ldW d a imm) 4 (signed 4)
    ∧ loads (.ldD d a imm) 8 (signed 8) ∧ loads (.ldBu d a imm) 1 (fun v => v) ∧ loads (.ldHu d a imm) 2 (fun v => v)
    ∧ loads (.ldWu d a imm) 4 (fun v => v)) ∧
  (∀ (s : State) (d a : Reg) (imm : BitVec 16),
    let va := ofExact 64 ((s.x a).toInt + imm.toInt)
    let stores := fun (i : Instr) (n : Nat) =>
      (va.toNat % n ≠ 0 → exec i s = .next (s.trap Cause.misalign va))
      ∧ (va.toNat % n = 0 → ∀ pa l, landsAt s va .store pa l → s.dry = false → ∃ t, exec i s = .next t
          ∧ buffers (l.coreAddr s.co.num pa) n (s.x d) s t ∧ movedOn s t ∧ sameMemory s t ∧ storeFrame 0 s t)
    stores (.stB d a imm) 1 ∧ stores (.stH d a imm) 2 ∧ stores (.stW d a imm) 4 ∧ stores (.stD d a imm) 8)

/-- R119, R120, R110: a buffered store that leaves the buffer is performed at home: its bytes stand there, every other byte and every
full/empty bit is as before; one to a replicated page joins the sequencer's order instead, and memory is as before. It leaves only where no
older store of the buffer touches a line of its own (R117) and no move holds its page.

R118, R120: a load sees the core's own buffered stores over what lies below them, the youngest last; log 15 for one whose window is
open.

R122, R127, R346: what holds a `fence` up, or stops it: a message on its way holds one above core scope, as a store at device scope; a
remote or host store without its completion holds one of system scope; and the latter takes the FABRIC trap, with the address in trapval, for
a store that failed, which it keeps for its next issue where an MXOVF that came while it waited goes first (R318). -/
def Obligations.StoreBufferResults : Prop :=
  (∀ (s : State) (core k : Nat) (e : Buffered), (s.coreAt core).stores[k]? = some e →
    let blocked := ((s.coreAt core).stores.take k).any (fun f => f.sameLine e) || s.ms.movingAt e.pa
    (blocked = true → s.drainOne core k = s)
    ∧ (blocked = false → e.place ≠ .sequencer → s.ms.mem.wf = true →
        storesBytes (s.ms.homeAddr e.pa) e.data s (s.drainOne core k)
        ∧ ((s.drainOne core k).coreAt core).stores = (s.coreAt core).stores.eraseIdx k)
    ∧ (blocked = false → e.place = .sequencer →
        (s.drainOne core k).ms.pending = s.ms.pending ++ [{ pa := e.pa - dieOf core * 2^21, data := e.data }]
        ∧ sameMemory s (s.drainOne core k)
        ∧ ((s.drainOne core k).coreAt core).stores = (s.coreAt core).stores.eraseIdx k)) ∧
  (∀ (s : State) (older : List Buffered) (e : Buffered) (pa : Nat) (below : List Byte),
    s.co.stores = older ++ [e] → e.left = 0 → s.ms.broken = [] → e.pa = pa → e.data.length = below.length →
      s.overlay pa below = e.data) ∧
  (∀ (s : State) (sc : Scope), s.ms.move.busy = false →
    (s.sendsOut = true → sc ≠ .core → exec (.fence sc) s = .next (s.waitFor .stores))
    ∧ (s.sendsOut = false → s.storesOut = true → ∃ t, exec (.fence .sys) s = .next t ∧ t.cx = { s.cx with wait := .stores })
    ∧ (s.sendsOut = false → s.storesOut = false → ∀ va, s.cx.lost = some va →
        ∃ t : State, exec (.fence .sys) s = .next (t.trap Cause.fabric va)
          ∧ t.cx = { s.cx with lost := if s.eventFirst then some va else none }))

/-- R161, R121: an `ldo` without a full/empty mode reads the n bytes, sign-extended, at every scope; an acquire then empties the data
cache from cluster scope on and raises the mark from die scope on.

R162, R119, R321: an unaligned `sto` is a MISALIGN trap. Where nothing the core stored earlier is outstanding, a relaxed `sto`, or a
release at core scope, enters the store buffer; a release from cluster scope on completes with its own bytes at home, or in all four copies
of a replicated page. -/
def Obligations.OrderedAccessResults : Prop :=
  (∀ (s : State) (d a : Reg) (la : Fin 16) (sc : Scope) (ord : MemOrd) (sz : Size) (inv : Bool),
    ldoAllowed ord sz .none inv = true →
    let n := 2^sz.code
    let va := s.x a
    let i := Instr.ldo d a la sc ord sz .none inv
    (va.toNat % n ≠ 0 → exec i s = .next (s.trap Cause.misalign va))
    ∧ (va.toNat % n = 0 → ∀ pa l, landsAt s va .load pa l → calm s → uncached s pa l inv → ∃ t, exec i s = .next t
        ∧ t.x d = (if d = 0 then 0 else ofExact 64 ((readLE s.ms.mem (dataAddr s pa l) n : Int).bmod (2^(8 * n))))
        ∧ movedOn s t ∧ loadFrame d s t
        ∧ (ord = .acq → 1 ≤ sc.code → t.co.dcache = []) ∧ (ord = .acq → 2 ≤ sc.code → t.co.mark = t.ms.fills))) ∧
  (∀ (s : State) (d a : Reg) (la : Fin 16) (sc : Scope) (ord : MemOrd) (sz : Size), stoAllowed d ord sz .none = true →
    let n := 2^sz.code
    let va := s.x a
    let i := Instr.sto d a la sc ord sz .none
    (va.toNat % n ≠ 0 → exec i s = .next (s.trap Cause.misalign va))
    ∧ (va.toNat % n = 0 → ∀ pa l, landsAt s va .store pa l → s.dry = false → calm s → s.sendsOut = false →
        s.ms.move.busy = false → s.ms.mem.wf = true →
        ∃ t, exec i s = .next t ∧ movedOn s t ∧ storeFrame 0 s t
          ∧ (ord = .relaxed ∨ sc = .core → buffers (l.coreAddr s.co.num pa) n (s.x d) s t ∧ sameMemory s t)
          ∧ (ord = .rel → sc ≠ .core → t.co.stores = []
            ∧ (pteRepl l.entry = false → storesBytes (s.ms.homeAddr pa) (leBytes n (s.x d).toNat) s t)
            ∧ (pteRepl l.entry = true → s.ms.move.done = false →
                ∀ j, j < 4 → readLE t.ms.mem (pa + j * 2^21) n = (s.x d).toNat % 256^n))))

/-- R107, R108: the full/empty modes of `ldo` and `sto` on a word whose bit lets them proceed: the word read or written and the bit after,
by the table; every other byte and every other word's bit stay. An acquiring one then takes the acquire action of its scope, a releasing one
first performs what the core stored (R121). One that cannot proceed takes an entry of the retry list, where the word's
controller has one free, and waits; on a replicated page each is a PERM trap. -/
def Obligations.FullEmptyResults : Prop :=
  ∀ (s : State) (d a : Reg) (la : Fin 16) (sc : Scope) (pa : Nat) (l : Leaf),
    let va := s.x a
    let w := s.ms.homeAddr pa
    let acts := fun (i : Instr) (ord : MemOrd) (acc : Access) (needs : Option Bool) (stored : Option Word) (bit : Bool) (loads : Bool) =>
      (va.toNat % 8 = 0 → landsAt s va acc pa l → pteRepl l.entry = true →
        ∃ t : State, exec i s = .next (t.trap Cause.perm va) ∧ t.cx = s.cx ∧ sameMemory s t)
      ∧ (va.toNat % 8 = 0 → landsAt s va acc pa l → calm s → (ord = .rel → s.sendsOut = false) → pteRepl l.entry = false → s.dry = false →
      s.ms.mem.wf = true → s.cx.wait.isReoffer = false → (s.ms.retry.all fun e => e.pa != w) = true →
        ((∀ b, needs = some b → isFull s.ms.mem w = b) → ∃ t, exec i s = .next t ∧ movedOn s t
          ∧ (loads = true → t.x d = (if d = 0 then 0 else wd (readLE s.ms.mem w 8))) ∧ (loads = false → t.x d = s.x d)
          ∧ (∀ v, stored = some v → readLE t.ms.mem w 8 = v.toNat) ∧ (stored = none → readLE t.ms.mem w 8 = readLE s.ms.mem w 8)
          ∧ isFull t.ms.mem w = bit ∧ sameOutside w 8 s t ∧ (∀ q, q / 8 ≠ w / 8 → isFull t.ms.mem q = isFull s.ms.mem q)
          ∧ (ord = .acq → 1 ≤ sc.code → t.co.dcache = []) ∧ (ord = .acq → 2 ≤ sc.code → t.co.mark = t.ms.fills)
          ∧ t.co.stores = [] ∧ storeFrame d s t)
        ∧ ((∃ b, needs = some b ∧ isFull s.ms.mem w ≠ b) → (s.ms.retry.filter fun e => e.ctl == homeCtl w).length < 256 →
          ∃ t, exec i s = .next t ∧ t.cx.pc = s.cx.pc ∧ (∃ r v, t.cx.wait = .retry r v) ∧ sameMemory s t
            ∧ t.ms.retry.length = s.ms.retry.length + 1 ∧ storeFrame 0 s t))
    (∀ ord, ord = .relaxed ∨ ord = .acq →
      acts (.ldo d a la sc ord .d .lwf false) ord .load (some true) none true true
      ∧ acts (.ldo d a la sc ord .d .lwt false) ord .load (some true) none false true)
    ∧ ∀ ord, ord = .relaxed ∨ ord = .rel →
      acts (.sto d a la sc ord .d .swe) ord .store (some false) (some (s.x d)) true false
      ∧ acts (.sto d a la sc ord .d .sf) ord .store none (some (s.x d)) true false
      ∧ acts (.sto 0 a la sc ord .d .se) ord .store none none false false

/-- R163, R164, R321: every atomic on an aligned word of a page that is not replicated reads the old value into X[D], sign-extended, and
stores what its operation gives; a `cas` stores only where the old value equals X[D], `fadd` the FP32 sum rounded to nearest even, its flags
merged into cr.fflags. An unaligned address is a MISALIGN trap.

R110, R164: an atomic on a replicated page is performed in all four copies, one for each die, and answers the copy of its own die. -/
def Obligations.AtomicResults : Prop :=
  (∀ (s : State) (d a b : Reg) (sc : Scope) (ord : MemOrd) (dbl : Bool) (pa : Nat) (l : Leaf),
    let va := s.x a
    let acts := fun (i : Instr) (n : Nat) (new : Nat → Nat → Option Nat) (fl : BitVec 5) =>
      let old := readLE s.ms.mem (s.ms.homeAddr pa) n
      let y := (s.x b).toNat % 2^(8 * n)
      (va.toNat % n ≠ 0 → exec i s = .next (s.trap Cause.misalign va))
      ∧ (va.toNat % n = 0 → landsAt s va .atomic pa l → calm s → s.sendsOut = false → pteRepl l.entry = false → s.dry = false →
        s.ms.mem.wf = true → ∃ t, exec i s = .next t ∧ movedOn s t ∧ storeFrame d s t
          ∧ t.x d = (if d = 0 then 0 else ofExact 64 ((old : Int).bmod (2^(8 * n))))
          ∧ (∀ v, new old y = some v → storesBytes (s.ms.homeAddr pa) (leBytes n v) s t)
          ∧ (new old y = none → sameMemory s t) ∧ t.cx.cr.fflags = s.cx.cr.fflags ||| fl)
    let n := if dbl then 8 else 4
    let int := fun (v : Nat) => (v : Int).bmod (2^(8 * n))
    acts (.amoSwap d a b sc ord dbl) n (fun _ y => some y) 0
    ∧ acts (.amoAdd d a b sc ord dbl) n (fun x y => some ((x + y) % 2^(8 * n))) 0
    ∧ acts (.amoAnd d a b sc ord dbl) n (fun x y => some (x &&& y)) 0
    ∧ acts (.amoOr d a b sc ord dbl) n (fun x y => some (x ||| y)) 0
    ∧ acts (.amoXor d a b sc ord dbl) n (fun x y => some (x ^^^ y)) 0
    ∧ acts (.amoMin d a b sc ord dbl) n (fun x y => some (if int x < int y then x else y)) 0
    ∧ acts (.amoMax d a b sc ord dbl) n (fun x y => some (if int x < int y then y else x)) 0
    ∧ acts (.amoMinu d a b sc ord dbl) n (fun x y => some (min x y)) 0
    ∧ acts (.amoMaxu d a b sc ord dbl) n (fun x y => some (max x y)) 0
    ∧ acts (.amoCas d a b sc ord dbl) n (fun x y => if x = (s.x d).toNat % 2^(8 * n) then some y else none) 0
    ∧ (let sum := fun (x y : Nat) => fp32.addV 0 (fp32.value x) (fp32.value y)
       acts (.amoFadd d a b sc ord) 4 (fun x y => some (sum x y).1)
         (sum (readLE s.ms.mem (s.ms.homeAddr pa) 4) ((s.x b).toNat % 2^32)).2)) ∧
  (∀ (ms : MemSystem) (cluster pa copy n : Nat) (l : Leaf) (op : AmoOp) (b cmp v : Nat), pteRepl l.entry = true → ms.mem.wf = true →
    n ≤ 8 → ms.move.done = false → (amoNew op n (readLE ms.mem copy n) b cmp).1 = some v →
      let r := amoAt ms cluster pa copy n l false op b cmp
      r.2 = readLE ms.mem copy n ∧ ∀ j, j < 4 → readLE r.1.mem (pa + j * 2^21) n = v % 256^n)

/-- R122, R165, R121: where no remote or host store, no message and no page move is under way, the fences complete: the program counter
moves on and no register changes. A `fence` above core scope leaves the core's store buffer and the sequencer's order empty, and takes the
acquire action of its scope; an `xfence` with LS among its predecessors empties both at a scope above core, one with LS among its successors
takes the acquire action of device scope; an `ifence` empties both, and the core's instruction cache. With nothing to drain, memory reads as
before. (That the whole core's buffer and every pending update are drained, not the context's alone, is log 20.) -/
def Obligations.FenceResults : Prop :=
  ∀ (s : State) (sc : Scope) (pred succ : BitVec 6),
    let drained := fun (t : State) => t.co.stores = [] ∧ t.ms.pending = []
    let acquired := fun (sc : Scope) (t : State) =>
      (1 ≤ sc.code → t.co.dcache = []) ∧ (2 ≤ sc.code → t.co.mark = t.ms.fills)
    s.ms.move.busy = false → s.storesOut = false → s.sendsOut = false → s.cx.lost = none →
      (∃ t, exec (.fence sc) s = .next t ∧ movedOn s t ∧ storeFrame 0 s t ∧ (sc ≠ .core → drained t) ∧ acquired sc t
        ∧ (calm s → sameMemory s t))
      ∧ ((∀ c, 1 ≤ c → c ≤ 5 → pred.getLsbD c = true → s.classBusy c = false) →
        ∃ t, exec (.xfence pred succ sc) s = .next t ∧ movedOn s t ∧ storeFrame 0 s t
          ∧ (pred.getLsbD 0 = true → sc ≠ .core → drained t) ∧ (succ.getLsbD 0 = true → acquired .dev t)
          ∧ (calm s → sameMemory s t))
      ∧ (∃ t, exec .ifence s = .next t ∧ movedOn s t ∧ storeFrame 0 s t ∧ drained t ∧ t.co.icache = []
        ∧ (calm s → sameMemory s t))

/-- R100 to R102: a walk of four levels whose entries are valid pointers down to a leaf that permits the access finds the page's
address with the offset of the virtual address; no entry, no permission or an unbacked page is a case of its own.

R102: the first read through a leaf sets its A bit and the first write A and D, in the entry at its home; nothing else in memory
changes and neither bit is ever cleared. -/
def Obligations.TranslationResults : Prop :=
  (∀ (ms : MemSystem) (tick : Nat) (o : OwnerRec) (va : Word) (acc : Access) (e3 e2 e1 e0 : Word),
    let at_ := fun (table level : Nat) => table + va.toNat / 2^(13 + 10 * level) % 2^10 * 8
    let points := fun (e : Word) (level : Nat) => pteV e = true ∧ isPointer e = true ∧ malformed e level = false
    (ms.kept.all fun k => !(k.owner == o.num && k.page == va.toNat % 2^53 / 2^13)) = true →
    e3 = wd (readLE ms.mem (at_ o.troot 3) 8) → e2 = wd (readLE ms.mem (at_ (ptePpn e3 * 2^13) 2) 8) →
    e1 = wd (readLE ms.mem (at_ (ptePpn e2 * 2^13) 1) 8) → e0 = wd (readLE ms.mem (at_ (ptePpn e1 * 2^13) 0) 8) →
    points e3 3 → points e2 2 → points e1 1 →
      (pteV e0 = false → translate ms tick o va acc = .page)
      ∧ (pteV e0 = true → malformed e0 0 = false → pteRemote e0 = false → pteMig e0 = false →
        let pa := ptePpn e0 * 2^13 + va.toNat % 2^13
        (permits e0 acc = false → ∃ l, translate ms tick o va acc = .perm l)
        ∧ (permits e0 acc = true → (backed pa || hostSpace pa) = false → translate ms tick o va acc = .unbacked)
        ∧ (permits e0 acc = true → (backed pa || hostSpace pa) = true →
            translate ms tick o va acc = .at pa ⟨e0, some (at_ (ptePpn e1 * 2^13) 0), 0⟩))) ∧
  (∀ (ms : MemSystem) (o : OwnerRec) (va : Word) (acc : Access) (l : Leaf) (a : Nat), ms.mem.wf = true → l.loc = some a →
    l.entry = wd (readLE ms.mem a 8) →
      let m := (markUsed ms o va acc l).mem
      let e := wd (readLE m a 8)
      pteA e = true ∧ pteD e = (acc.writes || pteD l.entry) ∧ (∀ k, k < 64 → k ≠ 5 → k ≠ 6 → e.getLsbD k = l.entry.getLsbD k)
      ∧ (∀ q, q < a ∨ a + 8 ≤ q → readByte m q = readByte ms.mem q) ∧ m.full = ms.mem.full)

/-! ### Vector memory, streams, tiles (05 R79 to R91, 09 R181 to R187, 10 R191) -/

/-- R181, R183: a vector load reads every active lane's w/8 bytes at its address where no cache holds them, and writes those lanes
of VD, a register or a write stream; inactive lanes are neither translated nor accessed. A misaligned lane traps. Memory stays.

R181, R183: a vector store puts one store for each active lane behind the core's buffer, in ascending lane order, so that the
highest of coinciding lanes remains; no register changes, and memory changes only as the stores leave the buffer. -/
def Obligations.VectorAccessResults : Prop :=
  (∀ (s : State) (d a b : Reg) (pg : Fin 8) (ty : ElemType) (pa : Nat → Nat) (l : Nat → Leaf),
    let w := elemWidth ty
    let act := fun (k : Nat) => k < 1024 / w ∧ laneActive s pg w k = true
    let loads := fun (i : Instr) (srcs : List VField) (addr : Nat → Word) =>
      (s.isControl = true → ∀ k, act k → (addr k).toNat % (w / 8) ≠ 0 → (∀ j, j < k → act j → (addr j).toNat % (w / 8) = 0) →
        exec i s = .next (s.trap Cause.misalign (addr k)))
      ∧ (lanesLand s .load pg w addr pa l → calm s → vectorRuns s i srcs (some d) false →
        (∀ k, act k → uncached s (pa k) (l k) false) → ∃ t m v, exec i s = .next t
          ∧ (∀ k, k < 128 → BitVec.getLsbD m k = byteActive w (s.mask pg) k)
          ∧ (∀ k, act k → (laneAt w v k).toNat = readLE s.ms.mem (dataAddr s (pa k) (l k)) (w / 8))
          ∧ (let u := ((s.writeV d m v).stepStreams (srcs ++ [d])).advance
             t.cx.v = u.cx.v ∧ t.rk = u.rk ∧ t.eng = u.eng ∧ t.cx.x = s.cx.x ∧ t.cx.p = s.cx.p ∧ t.cx.cr = s.cx.cr)
          ∧ movedOn s t ∧ sameMemory s t)
    loads (.vld d a b pg ty) [] (fun k => ofExact 64 (s.x a + s.x b).toNat + ofExact 64 (k * (w / 8) : Nat))
    ∧ loads (.vgather d a b pg ty) [b]
        (fun k => ofExact 64 ((s.x a).toInt + (laneAt w (s.source b) k).toInt * (w / 8 : Nat)))) ∧
  (∀ (s : State) (d a b : Reg) (pg : Fin 8) (ty : ElemType) (pa : Nat → Nat) (l : Nat → Leaf),
    let w := elemWidth ty
    let act := fun (k : Nat) => k < 1024 / w ∧ laneActive s pg w k = true
    let stores := fun (i : Instr) (srcs : List VField) (addr : Nat → Word) =>
      (s.isControl = true → ∀ k, act k → (addr k).toNat % (w / 8) ≠ 0 → (∀ j, j < k → act j → (addr j).toNat % (w / 8) = 0) →
        exec i s = .next (s.trap Cause.misalign (addr k)))
      ∧ (lanesLand s .store pg w addr pa l → s.dry = false → vectorRuns s i (srcs ++ [d]) none false → ∃ t es, exec i s = .next t
          ∧ t.co.stores = s.co.stores ++ es
          ∧ es.map (fun e => (e.pa, e.data)) = ((List.range (1024 / w)).filter (laneActive s pg w)).map
              (fun k => ((l k).coreAddr s.co.num (pa k), leBytes (w / 8) (laneAt w (s.source d) k).toNat))
          ∧ t.cx.v = s.cx.v ∧ t.cx.x = s.cx.x ∧ t.cx.p = s.cx.p ∧ t.cx.cr = s.cx.cr
          ∧ t.rk.streams = (s.stepStreams (srcs ++ [d])).rk.streams ∧ t.rk.tiles = s.rk.tiles ∧ t.eng = s.eng
          ∧ movedOn s t ∧ sameMemory s t)
    stores (.vst d a b pg ty) [] (fun k => ofExact 64 (s.x a + s.x b).toNat + ofExact 64 (k * (w / 8) : Nat))
    ∧ stores (.vscatter d a b pg ty) [b]
        (fun k => ofExact 64 ((s.x a).toInt + (laneAt w (s.source b) k).toInt * (w / 8 : Nat))))

/-- R182, R83: `vldt` reads 128 bytes of a row of a FULL tile into the active lanes of VD, zeros past the row's end; `vstt` writes the
active lanes' bytes inside the row of an EMPTY or FILLING tile, which is then FILLING; in another state each traps TILESTATE. -/
def Obligations.TileRowResults : Prop :=
  ∀ (s : State) (d a b : Reg) (pg : Fin 8) (ty : ElemType) (q : Tile),
    let w := elemWidth ty
    let row := field (s.x b) 0 12
    let col := field (s.x b) 16 6 * 64
    let load := Instr.vldt d a b pg ty
    let store := Instr.vstt d a b pg ty
    (s.x a).toNat < 128 → zeroAt (s.x b) 12 4 = true → (s.x b).toNat < 2^22 → s.tile? (s.x a).toNat = some q →
      s.streamsLegal load [⟨d, true, false⟩] = .ok () ∨ s.streamsLegal store [srcUse d] = .ok () →
      (q.rows ≤ row ∨ q.rowBytes / 64 ≤ col / 64 → (s.streamsLegal load [⟨d, true, false⟩] = .ok () →
          exec load s = .next (s.trap Cause.operand (s.x b)))
        ∧ (s.streamsLegal store [srcUse d] = .ok () → exec store s = .next (s.trap Cause.operand (s.x b))))
      ∧ (row < q.rows → col / 64 < q.rowBytes / 64 →
        (q.state ≠ .full → s.streamsLegal load [⟨d, true, false⟩] = .ok () →
          exec load s = .next (s.trap Cause.tileState (stateVal q.handle q.state)))
        ∧ (q.state = .full → vectorRuns s load [] (some d) false → ∃ m v,
          (∀ k, k < 128 → BitVec.getLsbD m k = byteActive w (s.mask pg) k)
          ∧ (∀ k, k < 128 → laneAt 8 v k = if col + k < q.rowBytes then tileByte q (row * q.rowBytes + col + k) else 0)
          ∧ vectorEnds load s [d] (s.writeV d m v))
        ∧ (q.state = .full ∨ q.state = .draining → s.streamsLegal store [srcUse d] = .ok () →
          exec store s = .next (s.trap Cause.tileState (stateVal q.handle q.state)))
        ∧ (q.state = .empty ∨ q.state = .filling → s.live → vectorRuns s store [d] none false → cellsRise none q.bytes = true →
          ∃ q', { q' with bytes := q.bytes, state := q.state } = q ∧ q'.state = .filling
          ∧ (∀ off, tileByte q' off =
              let k := off - (row * q.rowBytes + col)
              if row * q.rowBytes + col ≤ off ∧ k < 128 ∧ col + k < q.rowBytes ∧ byteActive w (s.mask pg) k = true
              then laneAt 8 (s.source d) k else tileByte q off)
          ∧ vectorEnds store s [d] (s.setTile q.handle fun _ => q')))

/-- R191, R192, R81, R83 to R87: each tile instruction in a tile state that R83 lists changes the tile as R83 and R84 give and answers the
status word after it; a counted read makes `tfree` and `trel` wait, in any state; else another state traps TILESTATE, a free handle TILEALLOC.
`tal` traps TILEALLOC with code 1 for an allocated handle, 2 for want of banks, 3 past 256 cluster tiles; of 2 and 3 together it gives 2 (log 40).

R82 to R85, R191: the end of the last counted read of a tile whose copy-out has moved every byte leaves it EMPTY; that copy-out then
leaves its channel with STATE 2, and before that nothing happens; the clearing of a new tile ends; the cluster tiles of a launch that has
completed are freed once no copy and no rank of it is left. -/
def Obligations.TileResults : Prop :=
  (∀ (s : State) (d a b : Reg) (la : Fin 16), s.live → (s.x a).toNat < 128 →
    let h := (s.x a).toNat
    let word := fun (filled st : Nat) (shape : BitVec 36) =>
      wd (filled * 2^40 + 2^39 + (if 64 ≤ h then 2^38 else 0) + st * 2^36 + shape.toNat)
    let ends := fun (i : Instr) (w : Word) (t : Option Tile) => ∃ u, exec i s = .next u ∧ movedOn s u ∧ sameButTiles s u
      ∧ u.cx.x = (s.setX d w).cx.x ∧ u.tile? h = t ∧ (∀ j, j < 128 → j ≠ h → u.tile? j = s.tile? j)
    (s.tile? h = none →
      let few := (s.eng.tiles.filter fun q => q.cluster == clusterOf s.co.num).length < 256
      (shapeOk (s.x b) = true → s.banksFree (s.freshTile h (s.x b)) = true → h < 64 ∨ few →
        ends (.tal d a b la) (word 0 0 ((s.x b).setWidth 36)) (some (s.freshTile h (s.x b))))
      ∧ (shapeOk (s.x b) = true → s.banksFree (s.freshTile h (s.x b)) = false →
        exec (.tal d a b la) s = .next (s.trap Cause.tileAlloc (wd (h + 2 * 256))))
      ∧ (shapeOk (s.x b) = true → s.banksFree (s.freshTile h (s.x b)) = true → 64 ≤ h → ¬ few →
        exec (.tal d a b la) s = .next (s.trap Cause.tileAlloc (wd (h + 3 * 256))))
      ∧ ends (.tstat d a la) 0 none
      ∧ ∀ i ∈ [Instr.tfree d a la, .tseal d a la, .trel d a la], exec i s = .next (s.trap Cause.tileAlloc (wd h)))
    ∧ (shapeOk (s.x b) = false → exec (.tal d a b la) s = .next (s.trap Cause.operand (s.x b)))
    ∧ (∀ q, s.tile? h = some q →
      (shapeOk (s.x b) = true → exec (.tal d a b la) s = .next (s.trap Cause.tileAlloc (wd (h + 256))))
      ∧ (∃ u, exec (.tstat d a la) s = .next u ∧ u = (s.setX d (word q.filled q.state.code q.shape)).advance)
      ∧ (q.state = .empty ∨ q.state = .filling →
        ends (.tseal d a la) (word q.rows 2 q.shape) (some { q with state := .full, filled := q.rows }))
      ∧ (q.state = .full ∨ q.state = .draining → exec (.tseal d a la) s = .next (s.trap Cause.tileState (wd (h + 256 * q.state.code))))
      ∧ (q.state = .full → q.reads = 0 → ends (.trel d a la) (word 0 0 q.shape) (some { q with state := .empty, filled := 0 }))
      ∧ (q.state ≠ .full → q.reads = 0 → exec (.trel d a la) s = .next (s.trap Cause.tileState (wd (h + 256 * q.state.code))))
      ∧ (q.state = .empty ∨ q.state = .full → q.reads = 0 → (h < 64 → (s.rk.tiles.map Tile.handle).Nodup) →
        (64 ≤ h → (s.eng.tiles.filter fun t => t.isCluster s.rk.key.launch s.rk.run (clusterOf s.co.num) h).length = 1) →
        ends (.tfree d a la) 0 none)
      ∧ (q.reads ≠ 0 → exec (.tfree d a la) s = .next (s.waitFor .tileReads)
        ∧ exec (.trel d a la) s = .next (s.waitFor .tileReads))
      ∧ (q.state = .filling ∨ q.state = .draining → q.reads = 0 →
        exec (.tfree d a la) s = .next (s.trap Cause.tileState (wd (h + 256 * q.state.code)))))) ∧
  (∀ (s : State) (h : Fin 128) (q : Tile), s.live → s.rk.core = s.co.num → s.tile? h.val = some q →
    (q.emptying = true → q.reads = 1 → q.readEnds = { q with reads := 0, state := .empty, filled := 0, emptying := false })
    ∧ (∀ ch c, copyStands s ch c → (s.eng.copies.find? fun e => e.key == s.rk.key && e.kind == .copyOut && e.handle == h.val && e.started
        && decide (e.bytes ≤ e.done)) = some c → s.copyTile c = some q →
        (q.emptying = true → exec (.tileReadsEnd s.rk.key h) s = .next s)
        ∧ (q.emptying = false → ∃ t, exec (.tileReadsEnd s.rk.key h) s = .next t ∧ sameMemory s t ∧ t.copyTile c = some q
          ∧ t.eng.copies = removeFirst (fun e => e.chan == c.chan) s.eng.copies
          ∧ t.rk.tickets = (s.rk.updTicket .copy (ch % 4) c.seq fun k =>
              { k with state := 2, done := c.bytes, total := c.bytes }).tickets))
    ∧ (q.clearing = true → ∃ t, exec (.tileClearEnd s.rk.key h) s = .next t ∧ sameButTiles s t ∧ t.cx = s.cx
        ∧ t.tile? h.val = some { q with clearing := false } ∧ ∀ j, j < 128 → j ≠ h.val → t.tile? j = s.tile? j)
    ∧ (∀ l, s.disp.launches.find? (fun x => x.num == l) ≠ none → (∀ x ∈ s.disp.launches, x.num = l → x.state = .complete) →
        s.rk.key.launch ≠ l → (∀ r ∈ s.ranks, r.key.launch ≠ l) → (∀ e ∈ s.eng.copies, e.key.launch ≠ l) →
        exec (.clusterTileEndFree l) s
          = .next { s with eng := { s.eng with tiles := s.eng.tiles.filter fun t => t.launch != l } }))

/-! ### The copyist (05 R96, 10 R193 to R197) and what ends in tiles (R82, R85, R191) -/

/-- R193, R194, R196: a copy command whose operands are in order is queued on its channel with the sender's key ID, a ticket of state 0
numbered from 1 goes to X[D], and the read of a copy-out counts from then; a channel the owner does not hold traps RESOURCE, a
seventeenth command on one waits.

R197, R198: the status instructions read a ticket: 0 for one never issued, OPERAND for a word with unnamed bits set, else its
state and counts while fewer than sixteen later ones have passed it, and AGED after that.

R96, R83, R84, R193, R195: a command at the head of its channel starts; a copy-in takes its EMPTY tile to FILLING from ROW0 on, a
copy-out its FULL one to DRAINING, where its address is a multiple of 64. The one chunk of a copy within device memory, between places that
share no byte, moves each byte from the source to the destination, changes no other byte, and the command, whose bytes have then all moved,
leaves the channel with STATE 2. -/
def Obligations.CopyistResults : Prop :=
  (∀ (s : State) (d a b : Reg) (la : Fin 16), s.live →
    let accepts := fun (i : Instr) (kind : CopyKind) (chan : Nat) (mem src control : Word) (pitch bytes : Nat) =>
      let seq := s.rk.issued.toList.getD chan 0 % (2^32 - 1) + 1
      let ch := 4 * clusterOf s.co.num + chan
      (s.own.holder 0x05 ch ≠ s.owner → exec i s = .next (s.trap Cause.resource (wd (0x05 * 2^56 + ch))))
      ∧ (s.own.holder 0x05 ch = s.owner → s.rk.channelFull chan = true → exec i s = .next (s.waitFor .acceptance))
      ∧ (s.own.holder 0x05 ch = s.owner → s.rk.channelFull chan = false → ∃ t c, exec i s = .next t ∧ movedOn s t
        ∧ t.eng.copies = s.eng.copies ++ [(c : CopyCmd)] ∧ c.chan = ch ∧ c.key = s.rk.key ∧ c.run = s.rk.run ∧ c.kind = kind ∧ c.mem = mem
        ∧ c.src = src ∧ c.control = control ∧ c.pitch = pitch ∧ c.bytes = bytes ∧ c.seq = seq ∧ c.started = false ∧ c.done = 0
        ∧ c.keyid = s.cx.cr.keyid ∧ t.rk.tickets = s.rk.tickets ++ [⟨.copy, chan, seq, 0, 0, bytes, false⟩]
        ∧ t.cx.x = (s.setX d (wd (2^34 + chan * 2^32 + seq))).cx.x ∧ t.cx.v = s.cx.v ∧ t.cx.cr = s.cx.cr ∧ sameMemory s t
        ∧ (kind ≠ .copyOut → t.rk.tiles = s.rk.tiles ∧ t.eng.tiles = s.eng.tiles)
        ∧ (kind = .copyOut → ∀ q, s.tile? (field control 0 7) = some q →
            t.tile? (field control 0 7) = some { q with reads := q.reads + 1 }))
    let w := s.x b
    let tileWordOk := zeroAt w 7 1 && zeroAt w 10 6 && zeroAt w 28 4 && decide (1 ≤ field w 32 13) && decide (field w 32 13 ≤ 4096)
    let onTile := fun (i : Instr) (kind : CopyKind) =>
      ((s.x a).toNat % 64 ≠ 0 → exec i s = .next (s.trap Cause.operand (s.x a)))
      ∧ ((s.x a).toNat % 64 = 0 → tileWordOk = false → exec i s = .next (s.trap Cause.operand w))
      ∧ ((s.x a).toNat % 64 = 0 → tileWordOk = true → s.tile? (field w 0 7) = none →
          exec i s = .next (s.trap Cause.tileAlloc (wd (field w 0 7))))
      ∧ ((s.x a).toNat % 64 = 0 → tileWordOk = true → s.tile? (field w 0 7) ≠ none →
          accepts i kind (field w 8 2) (s.x a) 0 w (field w 45 19 * 64) 0)
    let n := field (s.x d) 0 32
    let chan := field (s.x d) 32 2
    onTile (.cpin d a b la) .copyIn ∧ onTile (.cpout d a b la) .copyOut
    ∧ ((s.x d).toNat / 2^34 = 0 → n ≠ 0 → accepts (.cpg d a b la) .copy chan (s.x a) (s.x b) 0 0 n)
    ∧ (field (s.x d) 34 30 = 0 → n ≠ 0 → accepts (.cpx d a b la) .remoteExact chan (s.x a) (s.x b) 0 0 n)
    ∧ (field (s.x d) 34 30 = 64 → n ≠ 0 → n % 256 = 0 → n ≤ 16384 → (s.x a).toNat % 256 = 0 → (s.x b).toNat % 256 = 0 →
        accepts (.cpx d a b la) .remoteLossy chan (s.x a) (s.x b) 0 0 n)
    ∧ (field (s.x d) 34 30 = 64 → (s.x a).toNat % 256 ≠ 0 → exec (.cpx d a b la) s = .next (s.trap Cause.operand (s.x a)))) ∧
  (∀ (s : State) (d a : Reg) (la : Fin 16),
    let w := s.x a
    let reads := fun (i : Instr) (kind : TicketKind) (past : List Ticket → Nat) (low : Ticket → Nat) =>
      (2^35 ≤ w.toNat → exec i s = .next (s.trap Cause.operand w))
      ∧ (w.toNat < 2^34 → exec i s = .next (s.setX d 0).advance)
      ∧ (2^34 ≤ w.toNat → w.toNat < 2^35 →
        ((∀ t ∈ s.rk.tickets, ¬ (t.kind = kind ∧ t.chan = field w 32 2 ∧ t.seq = field w 0 32)) →
          exec i s = .next (s.setX d 0).advance)
        ∧ (∀ old new t, s.rk.tickets = old ++ t :: new → t.kind = kind → t.chan = field w 32 2 → t.seq = field w 0 32 →
            (∀ u ∈ new, ¬ (u.kind = kind ∧ u.chan = field w 32 2 ∧ u.seq = field w 0 32)) →
            let later := new.filter fun u => u.kind == kind && u.chan == t.chan
            (16 ≤ past later → exec i s = .next (s.setX d (wd (2^35 + 2^34 + 2 * 2^32))).advance)
            ∧ (past later < 16 → exec i s = .next (s.setX d (wd (2^34 + t.state * 2^32 + low t))).advance)))
    reads (.cpstat d a la) .copy (fun l => (l.filter fun t => decide (2 ≤ t.state)).length) (fun t => t.done)
    ∧ reads (.tgstat d a la) .graph List.length (fun t => t.total * 2^16 + t.done)) ∧
  (∀ (s : State) (ch : Nat) (c : CopyCmd), copyStands s ch c →
    (c.started = false → c.kind = .copy → ∃ t, exec (.copyStart ch) s = .next t ∧ t.copyHead ch = some { c with started := true }
      ∧ sameMemory s t ∧ t.rk.tickets = (s.rk.updTicket .copy (ch % 4) c.seq fun k => { k with state := 1 }).tickets)
    ∧ (∀ q, s.copyTile c = some q → c.started = false → 0 < q.rowBytes → c.row0 + c.nrows ≤ q.rows → c.mem.toNat % 64 = 0 →
      (c.kind = .copyIn ∧ q.state = .empty → ∃ t, exec (.copyStart ch) s = .next t ∧ sameMemory s t
        ∧ t.copyHead ch = some { c with started := true, bytes := c.nrows * q.rowBytes }
        ∧ t.copyTile c = some { q with state := .filling, filled := c.row0 })
      ∧ (c.kind = .copyOut ∧ q.state = .full → ∃ t, exec (.copyStart ch) s = .next t ∧ sameMemory s t
        ∧ t.copyHead ch = some { c with started := true, bytes := c.nrows * q.rowBytes }
        ∧ t.copyTile c = some { q with state := .draining }))
    ∧ (c.started = true → c.kind = .copy → c.done = 0 → 0 < c.bytes → c.mem.toNat % 65536 + c.bytes ≤ 65536 →
      s.copyDry c = false → s.stopping c.key.launch = false → s.ms.move.done = false → s.ms.mem.wf = true →
      ∀ from_ to_ : Nat → Nat,
        (∀ k, k < c.bytes → engineLands s c.owner .engineRead (c.src + wd k) (from_ k)
          ∧ engineLands s c.owner .engineWrite (c.mem + wd k) (to_ k)) →
        (∀ j k, j < c.bytes → k < c.bytes → from_ j ≠ to_ k ∧ (j ≠ k → to_ j ≠ to_ k)) →
        ∃ t, exec (.copyChunkEnd ch) s = .next t
          ∧ (∀ k, k < c.bytes → readByte t.ms.mem (to_ k) = readByte s.ms.mem (from_ k))
          ∧ (∀ q, (∀ k, k < c.bytes → q ≠ to_ k) → readByte t.ms.mem q = readByte s.ms.mem q)
          ∧ (∀ q, isFull t.ms.mem q = isFull s.ms.mem q)
          ∧ t.eng.copies = removeFirst (fun e => e.chan == ch) s.eng.copies
          ∧ t.rk.tickets = (s.rk.updTicket .copy (ch % 4) c.seq fun k => { k with state := 2, done := c.bytes, total := c.bytes }).tickets))

/-! ### Task graphs (05 R92 to R95, 10 R198) -/

/-- R198, R94, R321: `tgpost` of an aligned graph reads its records up to the one with LAST set and takes the lowest free slot of the four,
waiting while none is; a malformed record traps OPERAND with its address, a misaligned graph MISALIGN. X[D] receives the ticket.

R198, R95: `tgwait` with mask 0 ends at once; else it waits for a wake bit under its mask or a fault bit of the matrix unit or the
copyist, answers the bits with a fault in bit 63, and clears the wake bits that ended it.

R94: the walker starts the lowest node whose count is 0: a wake node raises its bit of cr.wake, a copy node joins its channel, a
matrix node the unit's queue. A node that finishes takes one from each successor's count, which stays 0 where it is 0 (log 115); the last of a
graph completes it, with STATE 2. -/
def Obligations.GraphResults : Prop :=
  (∀ (s : State) (d a : Reg) (la : Fin 16),
    let va := s.x a
    let i := Instr.tgpost d a la
    (va.toNat % 64 ≠ 0 → exec i s = .next (s.trap Cause.misalign va))
    ∧ (va.toNat % 64 = 0 → s.cx.answer = none → (∀ k, k < 4 → ∃ r ∈ s.liveRanks, r.onCore s.co.num = true ∧ ∃ g ∈ r.graphs, g.slot = k) →
        exec i s = .next (s.waitFor .acceptance))
    ∧ (va.toNat % 64 = 0 → s.cx.answer = none → s.live → ∀ slot (pa : Nat → Nat) (ds : List Node), s.freeSlot s.co.num = some slot → 0 < ds.length →
        ds.length ≤ 256 →
        (∀ k, k < ds.length → engineLands s s.owner .walker (va + wd (64 * k)) (pa k)) →
        (∀ k n, ds[k]? = some n → n.state = .waiting ∧ n.count = field n.words[0] 16 8 ∧ (n.last = true ↔ k + 1 = ds.length)
          ∧ ∀ j : Fin 8, n.words[j] = wd (readLE s.ms.mem (s.ms.homeAddr (pa k) + 8 * j.val) 8)) →
        (∀ k n, ds[k]? = some n → n.malformed ds.length = true → (∀ j m, j < k → ds[j]? = some m → m.malformed ds.length = false) →
          ∃ t : State, exec i s = .next (t.trap Cause.operand (va + wd (64 * k))) ∧ t.cx = s.cx ∧ t.rk = s.rk ∧ t.eng = s.eng
            ∧ sameMemory s t)
        ∧ ((∀ n ∈ ds, n.malformed ds.length = false) →
          (∀ n ∈ ds, n.type < 3 → s.own.holder 0x05 (4 * clusterOf s.co.num + n.chan) = s.owner) →
          let seq := s.rk.issued.toList.getD 4 0 % (2^32 - 1) + 1
          ∃ t g, exec i s = .next t ∧ movedOn s t ∧ sameMemory s t ∧ t.rk.graphs = s.rk.graphs ++ [(g : Graph)] ∧ g.slot = slot ∧ g.addr = va
            ∧ g.seq = seq ∧ g.nodes = ds ∧ g.faulted = false ∧ g.snap.keyid = s.cx.cr.keyid ∧ g.snap.mg = s.cx.mg
            ∧ t.rk.tickets = s.rk.tickets ++ [⟨.graph, 0, seq, 1, 0, ds.length, false⟩]
            ∧ t.cx.x = (s.setX d (wd (2^34 + seq))).cx.x ∧ t.cx.cr = s.cx.cr ∧ t.eng = s.eng))) ∧
  (∀ (s : State) (d a : Reg) (la : Fin 16),
    let m := s.x a
    let hit := s.rk.wake &&& m.setWidth 16
    let fault := s.rk.faults[0] || s.rk.faults[1]
    let i := Instr.tgwait d a la
    (2^16 ≤ m.toNat → exec i s = .next (s.trap Cause.operand m))
    ∧ (m.toNat = 0 → exec i s = .next (s.setX d 0).advance)
    ∧ (0 < m.toNat → m.toNat < 2^16 → hit = 0 → fault = false → exec i s = .next (s.waitFor .tgwait))
    ∧ (0 < m.toNat → m.toNat < 2^16 → hit ≠ 0 ∨ fault = true →
        exec i s = .next ({ s with rk := { s.rk with wake := s.rk.wake &&& ~~~hit } }.setX d
          (wd (hit.toNat + (if fault then 2^63 else 0)))).advance)) ∧
  (∀ (s : State) (slot n : Nat) (g : Graph) (q : Node), s.live → s.rk.graph? slot = some g → g.nodes[n]? = some q →
    let after := fun (t : State) (f : Graph) => t.rk.graph? slot = some f
    (g.startsNext n = true → s.rk.mx.queue.length < 16 → q.type < 6 →
      ∃ t, exec (.graphNodeStart s.rk.key slot n) s = .next t ∧ after t (g.setNode n .running)
        ∧ t.rk.wake = (if q.type = 5 then s.rk.wake ||| BitVec.ofNat 16 (2^(field q.words[2] 0 4)) else s.rk.wake)
        ∧ (q.type < 3 → ∃ c, t.eng.copies = s.eng.copies ++ [(c : CopyCmd)] ∧ c.chan = channelOf s.rk.core q.chan ∧ c.node = some (slot, n)
          ∧ c.started = false ∧ c.keyid = g.snap.keyid)
        ∧ (q.type = 3 ∨ q.type = 4 → ∃ o, t.rk.mx.queue = s.rk.mx.queue ++ [(o : MatrixOp)] ∧ o.node = some (slot, n) ∧ o.snap = g.snap
          ∧ o.kind = (if q.type = 3 then .mmul else .mzdrn))
        ∧ (q.type = 5 → t.eng = s.eng ∧ t.rk.mx = s.rk.mx) ∧ sameMemory s t)
    ∧ (q.state = .running → q.type = 5 → g.faulted = false → ∃ t, exec (.graphNodeFinish s.rk.key slot n) s = .next t ∧ sameMemory s t
      ∧ ((∃ k e, k ≠ n ∧ g.nodes[k]? = some e ∧ e.state ≠ .finished) → ∃ f, after t f ∧ f.nodes.length = g.nodes.length
        ∧ ∀ k e, g.nodes[k]? = some e → ∃ e', f.nodes[k]? = some e' ∧ e'.words = e.words
          ∧ e'.count = e.count - (q.succs.filter fun j => j == k).length
          ∧ e'.state = (if k = n then .finished else e.state))
      ∧ ((∀ k e, k ≠ n → g.nodes[k]? = some e → e.state = .finished) → t.rk.graph? slot = none
        ∧ ∀ x ∈ t.rk.tickets, x.kind = .graph → x.chan = 0 → x.seq = g.seq →
            (∀ y ∈ s.rk.tickets, y.kind = .graph → y.chan = 0 → y.seq = g.seq → y.state = 1) →
            (s.rk.tickets.filter fun y => y.isAt .graph 0 g.seq).length = 1 → x.state = 2)))

/-! ### The matrix unit (10 R199 to R213, 18 R322 to R325) -/

/-- R199, R212: `mxg` writes a geometry register and nothing else, `mxr` reads one, `mstat` answers the unit's status by the bits of
R212; SWAP stands while an mwswap is queued, and while an operation it has passed still has rows in the array.

R189, R200, R322, R323: a matrix command whose formats the core has, whose words are in order and whose tiles are allocated joins the
queue of 16, keeping the registers as they stand and starting the counted reads; a full queue makes it wait, and the reasons of
R322 and R323 trap. -/
def Obligations.MatrixInstructionResults : Prop :=
  (∀ (s : State) (d a : Reg) (k la : Fin 16),
    exec (.mxg k a la) s = .next { s with cx := { s.cx with mg := s.cx.mg.set k (s.x a) } }.advance
    ∧ exec (.mxr d k la) s = .next (s.setX d s.cx.mg[k]).advance
    ∧ (s.rk.mx.queue.length ≤ 16 → ∃ w, exec (.mstat d la) s = .next (s.setX d w).advance ∧ w.toNat < 2^21
      ∧ (∀ z : Fin 4, bitAt w z = s.rk.mx.ops.any fun o => o.onPlane z) ∧ bitAt w 4 = (s.rk.mx.stream.isSome || !s.rk.mx.tails.isEmpty)
      ∧ bitAt w 5 = s.rk.mx.drain.isSome ∧ bitAt w 6 = s.rk.mx.loaded ∧ bitAt w 7 = ((s.rk.mx.queue.any fun o => o.kind == .mwswap)
        || (s.rk.mx.stream.any fun q => q.1.passed) || s.rk.mx.tails.any MatrixOp.passed)
      ∧ field w 8 4 = (if isFCore s.co.num then s.rk.mx.freeTiles.length else 0)
      ∧ (∀ z : Fin 4, bitAt w (12 + z) = (!isFCore s.co.num && s.rk.mx.planes[z].cells.any fun q => q.2.bad))
      ∧ field w 16 5 = s.rk.mx.queue.length)) ∧
  (∀ (s : State) (z : Fin 4) (a b : Reg) (nc : Bool) (f : DrainFmt) (la : Fin 16), s.live → s.rk.core = s.co.num →
    let fc := isFCore s.co.num
    let p := s.snapshot
    let joins := fun (i : Instr) (kind : MxKind) (plane : Option (Fin 4)) (reads named : List Nat) (A B : Word) =>
      (∀ h ∈ named, (s.tile? h).isSome = true) →
        (16 ≤ s.rk.mx.queue.length → exec i s = .next (s.waitFor .acceptance))
        ∧ (s.rk.mx.queue.length < 16 → ∃ t o, exec i s = .next t ∧ matrixQueued s t o ∧ o.kind = kind ∧ o.opA = A ∧ o.opB = B
            ∧ (plane = none ∨ plane = some o.z) ∧ o.reads = reads ∧ (kind = .mmul → o.nc = nc)
            ∧ (kind = .mzdrn → o.fmt = (match f with | .lb4 => 1 | .f32 => 2 | .bf16 => 3)))
    let handle := fun (w : Word) => w.toNat < 128
    let row := fun (w : Word) => zeroAt w 7 9 = true ∧ w.toNat < 2^28
    let mm := Instr.mmul nc z a b la
    let usesB := p.fp8 || p.mode == 1
    joins (.mzero z la) .mzero (some z) [] [] 0 0
    ∧ (handle (s.x a) → joins (.mzdrn z a f la) .mzdrn (some z) [] [(s.x a).toNat] (s.x a) 0)
    ∧ (fc = true → joins (.mwswap la) .mwswap none [] [] 0 0)
    ∧ (fc = false → ∃ v, exec (.mwswap la) s = .next (s.trap Cause.mxCombo v) ∧ field v 0 8 = 8)
    ∧ (fc = true → b ≠ 0 → exec mm s = .next (s.illegal mm))
    ∧ ((fc = true → b = 0) → comboReason fc .mmul p ≠ 0 →
        ∃ v, exec mm s = .next (s.trap Cause.mxCombo v) ∧ field v 0 8 = comboReason fc .mmul p ∧ field v 8 4 = p.fmt.toNat
          ∧ field v 16 2 = p.spar.toNat)
    ∧ (fc = false → comboReason fc .mmul p = 0 → handle (s.x a) → handle (s.x b) →
        joins mm .mmul (some z) [(s.x a).toNat, (s.x b).toNat] [(s.x a).toNat, (s.x b).toNat] (s.x a) (s.x b))
    ∧ (fc = true → b = 0 → comboReason fc .mmul p = 0 → handle (s.x a) →
        let ts := (s.x a).toNat :: (if p.fp8 then [p.scaleTile] else [])
        joins mm .mmul (some z) ts ts (s.x a) 0)
    ∧ (comboReason fc .mwld p = 0 → row (s.x a) → (usesB = true → row (s.x b)) →
        let ts := field (s.x a) 0 7 :: (if usesB then [field (s.x b) 0 7] else [])
        joins (.mwld a b la) .mwld none ts ts (s.x a) (s.x b))
    ∧ (∀ h, handle (s.x a) → h = (s.x a).toNat → s.tile? h = none →
        exec (.mzdrn z a f la) s = .next (s.trap Cause.tileAlloc (wd h)))
    ∧ (¬ handle (s.x a) → exec (.mzdrn z a f la) s = .next (s.trap Cause.operand (s.x a))))

/-- R200 to R210, R324: the first operation of the queue, where it may start, does so: `mzero` empties an L-core plane, `mmul` enters the array
(the one before it, whose words are all in, ends later), `mzdrn` takes its EMPTY tile to FILLING from row 0, `mwswap` exchanges the planes, a
dense BF16 `mwld` reads w[k][n] from row w0 + k; one whose tile fails a check leaves the queue with the fault bit set and an MXSTART record.
The first operation alone starts: where it may not, none does. A word position gives every cell of rows 0 to M - 1 its BlockTerm.

R203 to R205, R208 to R210: the `mmul` longest in the array ends: on an L-core each cell of its rows runs the residue pass, on an F-core
each element of its rows becomes the F-pass of its factors, with the weights it read before a later swap. A drain ends with its tile FULL,
FILLED 64, the rows not yet shifted out in it (on an L-core to FP32, as A24 values), and an L-core plane zero. -/
def Obligations.MatrixOperationResults : Prop :=
  (∀ (s : State) (o : MatrixOp) (later : List MatrixOp), s.live → s.rk.core = s.co.num → o.node = none →
    let fc := isFCore s.co.num
    let start := Instr.matrixOpStart s.rk.key
    (s.rk.mx.queue = o :: later → s.rk.mx.ready fc o = false → (∀ r ∈ s.ranks, r.key ≠ s.rk.key) → exec start s = .next s)
    ∧ (s.rk.mx.queue = o :: later → s.rk.mx.ready fc o = true →
      (∀ h v, s.needFails s.rk.key s.rk.run (clusterOf s.co.num) (o.needs fc) = some (h, v) → ∃ t e, exec start s = .next t
        ∧ t.rk.faults = s.rk.faults ||| 1 ∧ t.rk.mx = { s.rk.mx with queue := later }
        ∧ t.disp.errors = s.disp.errors ++ [(e : ErrRec)] ∧ e.cls = Err.mxStart ∧ e.addr = wd h ∧ e.val1 = wd v)
      ∧ (s.needFails s.rk.key s.rk.run (clusterOf s.co.num) (o.needs fc) = none → ∃ t, exec start s = .next t
        ∧ t.ms = s.ms ∧ t.cx = s.cx
        ∧ (o.kind = .mzero → fc = false → t.rk.mx = { s.rk.mx with queue := later, planes := s.rk.mx.planes.set o.z .zero })
        ∧ (o.kind = .mmul → t.rk.mx.stream = some (o, 0)
            ∧ t.rk.mx.tails.length = s.rk.mx.tails.length + s.rk.mx.stream.toList.length)
        ∧ (o.kind = .mmul → fc = false → o.nc = true → t.rk.mx.planes[o.z] = { exp := some o.snap.accexp, cells := [] })
        ∧ (o.kind = .mzdrn → t.rk.mx.drain = some (o, 0) ∧ ∃ q, t.tile? (field o.opA 0 7) = some q ∧ q.state = .filling ∧ q.filled = 0
            ∧ q.shape.toNat / 2^32 = o.fmt % 16)
        ∧ (o.kind = .mwswap → t.rk.mx.weights[0] = s.rk.mx.weights[1] ∧ t.rk.mx.weights[1] = s.rk.mx.weights[0]
            ∧ t.rk.mx.scales[0] = s.rk.mx.scales[1] ∧ t.rk.mx.loaded = false)
        ∧ (o.kind = .mwld → o.snap.fmt = 1 → o.snap.spar = 0 → ∀ q, s.tile? (field o.opA 0 7) = some q → t.rk.mx.loaded = true
            ∧ ∀ k n, k < 64 → n < 64 → (getAt (0 : BitVec 16) (64 * k + n) t.rk.mx.weights[1]).toNat = rowNat q (field o.opA 16 12 + k) (2 * n) 2)))
    ∧ (∀ j qa qb, s.rk.mx.stream = some (o, j) → fc = false → j < o.snap.lenK / 4 → s.tile? (field o.opA 0 7) = some qa →
      s.tile? (field o.opB 0 7) = some qb → (s.rk.mx.planes[o.z].cells.map (·.1)).Nodup → ∃ t,
        exec (.pairCycle s.rk.key) s = .next t ∧ t.cx = s.cx ∧ t.ms = s.ms ∧ t.rk.mx.stream = some (o, j + 1)
        ∧ (∀ y : Fin 4, y ≠ o.z → t.rk.mx.planes[y] = s.rk.mx.planes[y])
        ∧ ∀ m n, m < 64 → n < 64 → t.rk.mx.planes[o.z].cell (64 * m + n) =
            (let c := s.rk.mx.planes[o.z].cell (64 * m + n)
             if m < o.snap.rowsM then c.cycle (blockTerm
               (rowNat qa (field o.snap.mg[2] 0 12 + m) (field o.snap.mg[4] 0 12 + 4 * j) 4)
               (rowNat qb (field o.snap.mg[3] 0 12 + n) (field o.snap.mg[4] 0 12 + 4 * j) 4)
               (s.rk.mx.planes[o.z].exp.getD 0).toInt)
             else c))) ∧
  (∀ (s : State) (o : MatrixOp) (j : Nat), s.live → s.rk.core = s.co.num →
    let fc := isFCore s.co.num
    let plane : Fin 2 := if o.flip then 1 else 0
    ((s.rk.mx.tails = [] ∧ s.rk.mx.stream = some (o, j)) ∨ (∃ r, s.rk.mx.tails = o :: r ∧ j = o.snap.lenK / 4) → o.snap.rowsM ≤ 64 →
      ∃ t, exec (.matrixOpEnd s.rk.key) s = .next t ∧ t.ms = s.ms ∧ t.rk.mx.queue = s.rk.mx.queue
      ∧ (s.rk.mx.tails = [] → t.rk.mx.stream = none ∧ t.rk.mx.tails = [])
      ∧ (∀ r, s.rk.mx.tails = o :: r → t.rk.mx.stream = s.rk.mx.stream ∧ t.rk.mx.tails = r)
      ∧ (fc = false → o.snap.lenK / 4 ≤ j → (s.rk.mx.planes[o.z].cells.map (·.1)).Nodup → ∀ m n, m < 64 → n < 64 →
          t.rk.mx.planes[o.z].cell (64 * m + n) =
            { (let c := s.rk.mx.planes[o.z].cell (64 * m + n); if m < o.snap.rowsM then c.residue 9 else c) with case := 0 })
      ∧ (fc = true → ∀ y, y = s.rk.mx.tileFor o → (s.rk.mx.phys[y].map (·.1)).Nodup → ∀ m n, m < 64 → n < 64 →
          (getAt (0 : BitVec 32) (64 * m + n) t.rk.mx.phys[y]).toNat =
            (let acc := (getAt (0 : BitVec 32) (64 * m + n) s.rk.mx.phys[y]).toNat
             if m < o.snap.rowsM then (fPass (fp32.value acc) (fFactors o (s.opTile s.rk o.tileA) (s.opTile s.rk o.snap.scaleTile)
               s.rk.mx.weights[plane] s.rk.mx.scales[plane] m n)).1 % 2^32 else acc)))
    ∧ (∀ q, s.rk.mx.drain = some (o, j) → s.tile? (field o.opA 0 7) = some q → ∃ t q', exec (.drainEnd s.rk.key) s = .next t
      ∧ t.ms = s.ms ∧ t.rk.mx.drain = none ∧ t.tile? (field o.opA 0 7) = some q' ∧ q'.state = .full ∧ q'.filled = 64
      ∧ q'.shape = q.shape ∧ (fc = false → t.rk.mx.planes[o.z] = Plane.zero) ∧ (fc = true → t.rk.mx.planes = s.rk.mx.planes)
      ∧ (fc = false → o.fmt = 2 → 256 ≤ q.rowBytes → cellsRise none q.bytes = true → ∀ m n, j ≤ m → m < 64 → n < 64 →
          (let c := s.rk.mx.planes[o.z].cell (64 * m + n)
           rowNat q' m (4 * n) 4 = (if c.bad then 0x7FC00000
             else (a24To fp32 c.a (s.rk.mx.planes[o.z].exp.getD 0).toInt).1) % 2^32))))

/-! ### Messages, barriers, helpers (03 R39 to R44, 11 R214 to R226) -/

/-- R215 to R219: `msnd` is accepted once a slot of the receiver's 64 is free and waits until then; `msnds` holds its message in one of
32 entries; `mcommit` sends the context's held messages, oldest first, `mabort` discards them; `mrcv` takes the oldest matching message
into VD and its envelope into X[A], or waits; the message that the one earlier receive of the rank waits for is not taken by a later one;
`mpeek` reports the oldest and takes nothing. A word that breaks its layout traps OPERAND. An accepted message reaches the inbox behind those
accepted before it from the same sender. -/
def Obligations.MessageResults : Prop :=
  ∀ (s : State) (d a b : Reg) (la : Fin 16),
    let dest := (s.x a).toNat
    let tag := (s.x b).setWidth 16
    let i := Instr.msnd d a b la
    let h := Instr.msnds d a b la
    let badDest := s.rk.id.span.toNat ≤ dest ∨ 2^17 ≤ dest
    let mine := s.rk.blotter.filter fun q => q.ctx == s.cx.num
    let flight := fun (dest : Nat) (tag : BitVec 16) (v : VReg) => Flight.mk s.rk.key.launch s.rk.run s.rk.key.rank dest tag v false
    let fitsW := fun (w : Word) (m : Message) => (m.tag ^^^ w.setWidth 16) &&& w.extractLsb' 16 16 = 0
      ∧ (bitAt w 49 = true ∨ m.src = field w 32 17)
    let fits := fitsW (s.x a)
    let noneWaits := ∀ c ∈ s.rk.ctxs, ∀ n w, c.wait ≠ .mrcv n w
    let env := fun (m : Message) => wd (2^63 + m.tag.toNat * 2^32 + m.src)
    (badDest → exec i s = .next (s.trap Cause.operand (s.x a)) ∧ exec h s = .next (s.trap Cause.operand (s.x a)))
    ∧ (¬ badDest → 2^16 ≤ (s.x b).toNat → exec i s = .next (s.trap Cause.operand (s.x b)) ∧ exec h s = .next (s.trap Cause.operand (s.x b)))
    ∧ (¬ badDest → (s.x b).toNat < 2^16 → d.val < 28 →
      (s.inboxHasRoom dest = true → exec i s
        = .next { s with eng := { s.eng with flights := s.eng.flights ++ [flight dest tag s.cx.v[d.val]!] } }.advance)
      ∧ (s.inboxHasRoom dest = false → exec i s = .next (s.waitFor .inboxSlot))
      ∧ (mine.length < 32 → s.rk.blotter.length < 32 → exec h s
        = .next { s with rk := { s.rk with blotter := s.rk.blotter ++ [Held.mk s.cx.num dest tag s.cx.v[d.val]!] } }.advance)
      ∧ (mine.length < 32 → 32 ≤ s.rk.blotter.length → exec h s = .next (s.waitFor .acceptance))
      ∧ (32 ≤ mine.length → ∃ v, exec h s = .next (s.trap Cause.limit v)))
    ∧ (s.live → s.cx.lanes = [] → (∀ r ∈ s.liveRanks, r.key.launch = s.rk.key.launch → r.run = s.rk.run →
        s.inboxTaken r + mine.length ≤ 64) → ∃ t, exec (.mcommit d la) s = .next t ∧ movedOn s t
        ∧ t.cx.x = (s.setX d (wd mine.length)).cx.x
        ∧ t.eng.flights = s.eng.flights ++ mine.map (fun q => flight q.dest q.tag q.data)
        ∧ t.rk.blotter = (s.rk.blotter.filter fun q => q.ctx != s.cx.num) ∧ t.rk.inbox = s.rk.inbox ∧ t.ranks = s.ranks
        ∧ sameMemory s t)
    ∧ exec (.mabort d la) s = .next ({ s with rk := { s.rk with blotter := s.rk.blotter.filter fun q => q.ctx != s.cx.num } }.setX d
        (wd mine.length)).advance
    ∧ (2^50 ≤ (s.x a).toNat → exec (.mrcv d a la) s = .next (s.trap Cause.operand (s.x a))
        ∧ exec (.mpeek d a la) s = .next (s.trap Cause.operand (s.x a)))
    ∧ ((s.x a).toNat < 2^50 → (∀ m ∈ s.rk.inbox, ¬ fits m) →
        (∃ n, exec (.mrcv d a la) s = .next (s.waitFor (.mrcv n (s.x a))) ∧ (s.cx.wait = .none → n = s.fab.clock))
        ∧ exec (.mpeek d a la) s = .next (s.setX d 0).advance)
    ∧ ((s.x a).toNat < 2^50 → ∀ old m new, s.rk.inbox = old ++ m :: new → (∀ q ∈ old, ¬ fits q) → fits m → m.src < 2^17 →
        exec (.mpeek d a la) s = .next (s.setX d (env m)).advance
        ∧ (d.val < 28 → noneWaits → ∃ t, exec (.mrcv d a la) s = .next t ∧ movedOn s t ∧ t.rk.inbox = old ++ new ∧ t.cx.v[d.val]! = m.data
          ∧ (∀ j, j < 28 → j ≠ d.val → t.cx.v[j]! = s.cx.v[j]!) ∧ t.cx.x = (s.setX a (env m)).cx.x ∧ t.eng = s.eng
          ∧ sameMemory s t))
    ∧ (∀ c n w m, (s.x a).toNat < 2^50 → s.rk.ctxs = [c] → c.wait = .mrcv n w → n < s.fab.clock → s.cx.wait = .none →
        s.rk.inbox = [m] → fitsW w m → exec (.mrcv d a la) s = .next (s.waitFor (.mrcv s.fab.clock (s.x a))))
    ∧ (∀ n f, s.eng.flights[n]? = some f →
        ((∃ g ∈ s.eng.flights.take n, g.launch = f.launch ∧ g.run = f.run ∧ g.src = f.src ∧ g.dest = f.dest) →
          exec (.messageDeliver n) s = .next s)
        ∧ ((∀ g ∈ s.eng.flights.take n, ¬ (g.launch = f.launch ∧ g.run = f.run ∧ g.src = f.src ∧ g.dest = f.dest)) → s.live →
          s.rk.key = ⟨f.launch, f.dest⟩ → s.rk.run = f.run → exec (.messageDeliver n) s
            = .next { s with
                eng := { s.eng with flights := s.eng.flights.eraseIdx n }
                rk := { s.rk with inbox := s.rk.inbox ++ [Message.mk f.src f.tag f.data] } }))

/-- R39 to R41, R14, R221: a barrier instruction is none in a helper and traps OPERAND on a slot without a group. `bar.arrive` arrives
with a neutral vote, waiting while an earlier arrival is unreleased; `bar.wait` and `bar.vote` arrive where they have not, wait for the
release, and are then acquires at device scope that clear ARRIVED; the vote's AND and OR go to X[D] and cr.vote. A wait that begins once every
member has arrived completes at once and is no switch point (R48; log 90); another is one, and a rank that was released before its folded core
could go on with another rank yields then. An arrival counts
once the rank's stores are at home; a phase whose members have all been counted releases with the AND and OR of their votes. -/
def Obligations.BarrierResults : Prop :=
  ∀ (s : State) (d a : Reg) (g : Fin 4),
    let b := s.rk.bar[g]
    let alone := s.live ∧ s.rk.core = s.co.num ∧ ∀ r ∈ s.ranks, r.onCore s.co.num = false
    let arrived : State → Bool → Bool → Bool → Prop := fun t byVote vote orBit =>
      t.rk.bar = s.rk.bar.set g ⟨true, byVote, false, false, vote, false, orBit⟩
        ∧ t.eng.flights.length = s.eng.flights.length
        ∧ (∀ (n : Nat) (f : Flight), s.eng.flights[n]? = some f → t.eng.flights[n]? = some
            { f with gate := f.gate || (f.launch == s.rk.key.launch && f.run == s.rk.run && f.src == s.rk.key.rank) })
    let released := fun (t : State) => t.rk.bar = s.rk.bar.set g ⟨false, false, false, false, true, false, false⟩
        ∧ t.co.dcache = [] ∧ t.co.mark = s.ms.fills ∧ movedOn s t ∧ t.ms = s.ms ∧ t.eng = s.eng
    let waits := fun (t : State) (point : Bool) => t.cx.pc = s.cx.pc ∧ t.cx.wait = .barrier g.val point ∧ t.cx.x = s.cx.x
    let all := fun (P : Instr → Prop) => P (.barArrive g) ∧ P (.barWait g) ∧ P (.barVote d a g)
    (s.isControl = false → all fun i => exec i s = .next (s.illegal i))
    ∧ (s.isControl = true → bitAt s.rk.grp[g] 15 = false → all fun i => exec i s = .next (s.trap Cause.operand (wd g.val)))
    ∧ (s.isControl = true → bitAt s.rk.grp[g] 15 = true →
      (b.arrived = true → b.released = false → ∃ t, exec (.barArrive g) s = .next t ∧ waits t false ∧ t.rk = s.rk)
      ∧ (b.arrived = false ∨ b.released = true → ∃ t, exec (.barArrive g) s = .next t ∧ movedOn s t ∧ arrived t false true false
          ∧ t.cx.x = s.cx.x ∧ t.ms = s.ms)
      ∧ (b.arrived = true → b.released = true → s.yields = false → ∃ t, exec (.barWait g) s = .next t ∧ released t ∧ t.cx.x = s.cx.x)
      ∧ (b.arrived = true → b.released = true → s.yields = true → exec (.barWait g) s = .next (s.switchAt s.co.num)
          ∧ (b.byVote = true → exec (.barVote d a g) s = .next (s.switchAt s.co.num)))
      ∧ (b.arrived = true → b.released = false →
        (s.pointHere g = false → ∃ t, exec (.barWait g) s = .next t ∧ exec (.barVote d a g) s = .next t ∧ waits t false ∧ t.rk = s.rk)
        ∧ (alone → s.pointHere g = true → ∃ t, exec (.barWait g) s = .next t ∧ exec (.barVote d a g) s = .next t ∧ waits t true
          ∧ t.rk = s.rk))
      ∧ (b.arrived = false → (s.arrive g false true false).allArrived g = true →
          ∃ t, exec (.barWait g) s = .next t ∧ waits t false ∧ arrived t false true false)
      ∧ (alone → b.arrived = false → (s.arrive g false true false).allArrived g = false →
          ∃ t, exec (.barWait g) s = .next t ∧ waits t true ∧ arrived t false true false)
      ∧ (b.arrived = true → b.byVote = true → b.released = true → s.yields = false → ∃ t, exec (.barVote d a g) s = .next t ∧ released t
          ∧ t.rk.vote.toNat = (if b.andBit then 1 else 0) + (if b.orBit then 2 else 0) + 4 * g.val
          ∧ t.cx.x = (s.setX d (wd ((if b.andBit then 1 else 0) + (if b.orBit then 2 else 0)))).cx.x)
      ∧ (b.arrived = false ∨ (b.byVote = false ∧ b.released = true) →
          let u := s.arrive g true (bitAt (s.x a) 0) (bitAt (s.x a) 0)
          (u.allArrived g = true → ∃ t, exec (.barVote d a g) s = .next t ∧ waits t false ∧ arrived t true (bitAt (s.x a) 0) (bitAt (s.x a) 0))
          ∧ (alone → u.allArrived g = false → ∃ t, exec (.barVote d a g) s = .next t ∧ waits t true
            ∧ arrived t true (bitAt (s.x a) 0) (bitAt (s.x a) 0))))
    ∧ (s.live → s.rk.core = s.co.num → b.arrived = true → b.counted = false → s.ms.move.busy = false →
        (∀ f ∈ s.eng.flights, ¬ (f.gate = true ∧ f.launch = s.rk.key.launch ∧ f.run = s.rk.run ∧ f.src = s.rk.key.rank)) →
        ∃ t, exec (.arrivalCounted s.rk.key g) s = .next t ∧ t.cx = s.cx ∧ t.co.stores = [] ∧ t.ms.pending = []
          ∧ t.rk.bar = s.rk.bar.set g ({ s.rk.bar[g] with counted := true } : BarSlot))
    ∧ (∀ l group, s.live → s.disp.launches.find? (fun x => x.num == s.rk.key.launch) = some l → s.rk.run = 0 →
        (l.members group).length ≠ 0 → (s.phaseParts s.rk.key.launch 0 group).length = (l.members group).length →
        s.rk.inPhase group = some b → s.rk.slotOf group = some g → ∃ t, exec (.barrierRelease s.rk.key.launch group) s = .next t
          ∧ t.cx = s.cx ∧ t.ms = s.ms ∧ t.rk.bar = s.rk.bar.set g ({ s.rk.bar[g] with
              released := true
              andBit := (s.phaseParts s.rk.key.launch 0 group).all BarSlot.vote
              orBit := (s.phaseParts s.rk.key.launch 0 group).any BarSlot.orBit } : BarSlot)
          ∧ (group = 0 → t.rk.solo.count = 0 ∧ t.rk.solo.posted = []) ∧ (group ≠ 0 → t.rk.solo = s.rk.solo))

/-- R42 to R44, R223 to R226: `hstart` starts the lowest free helper whose slot the owner holds, at X[A], with X[3] = X[B] and the control
context's registers of R42, or answers 0 at the launch's limit; `hjoin` waits while its helper lives; a helper's `hexit` ends it and its
held messages, what it left in the matrix unit merging into no context (R326), the control context's waits for the rank's end; `hstat` reports. `hstart` and `hjoin` are no instructions of a helper. -/
def Obligations.HelperResults : Prop :=
  ∀ (s : State) (d a b : Reg) (la : Fin 16),
    let start := Instr.hstart d a b
    let live := (s.cx :: s.rk.ctxs).map Context.num
    let helpers := live.filter fun n => n != 0
    (s.isControl = false → exec start s = .next (s.illegal start) ∧ exec (.hjoin d a la) s = .next (s.illegal (.hjoin d a la)))
    ∧ (s.isControl = true → (s.x a).toNat % 4 ≠ 0 → exec start s = .next (s.trap Cause.misalign (s.x a)))
    ∧ (s.isControl = true → (s.x a).toNat % 4 = 0 →
      (s.rk.id.hmax ≤ helpers.length → exec start s = .next (s.setX d 0).advance)
      ∧ (∀ h, 1 ≤ h → h ≤ 10 → helpers.length < s.rk.id.hmax → h ∉ live → s.own.holder 0x02 (10 * s.co.num + h - 1) = s.owner →
          (∀ j, 1 ≤ j → j < h → j ∈ live ∨ s.own.holder 0x02 (10 * s.co.num + j - 1) ≠ s.owner) → ∃ t c, exec start s = .next t
          ∧ movedOn s t ∧ t.cx.x = (s.setX d (wd h)).cx.x ∧ t.rk.ctxs = s.rk.ctxs ++ [(c : Context)] ∧ t.ms = s.ms ∧ t.ranks = s.ranks
          ∧ c.num = h ∧ c.pc = s.x a ∧ (∀ r : Fin 32, c.x[r] = if r = 3 then s.x b else 0) ∧ c.run = .running ∧ c.wait = .none
          ∧ c.hf = false ∧ c.v = Vector.replicate 28 0 ∧ c.cr.keyid = s.rk.id.keyid ∧ c.cr.frm = s.cx.cr.frm ∧ c.cr.fewait = s.cx.cr.fewait
          ∧ c.cr.fmt = s.cx.cr.fmt ∧ c.cr.sclp = s.cx.cr.sclp ∧ c.cr.accexp = s.cx.cr.accexp ∧ c.cr.spar = s.cx.cr.spar
          ∧ c.cr.mxtrap = s.cx.cr.mxtrap ∧ c.cr.trapvec = 0 ∧ c.cr.fflags = 0))
    ∧ (s.isControl = true → 16 ≤ (s.x a).toNat → exec (.hjoin d a la) s = .next (s.trap Cause.operand (s.x a)))
    ∧ (s.isControl = true → (s.x a).toNat < 16 →
      ((s.x a).toNat ∈ helpers → exec (.hjoin d a la) s = .next (s.waitFor .hjoin))
      ∧ ((s.x a).toNat ∉ helpers → exec (.hjoin d a la) s = .next (s.setX d (if s.cx.wait = .hjoin then s.x a else 0)).advance))
    ∧ (s.isControl = true → exec .hexit s = .next (s.waitFor .exiting))
    ∧ (s.isControl = false → s.live → ∀ c r, s.rk.ctxs = c :: r → ∃ t, exec .hexit s = .next t ∧ t.cx = c ∧ t.rk.ctxs = r
        ∧ t.rk.blotter = (s.rk.blotter.filter fun q => q.ctx != s.cx.num) ∧ t.rk.inbox = s.rk.inbox ∧ t.rk.tiles = s.rk.tiles
        ∧ t.ms = s.ms ∧ t.ranks = s.ranks ∧ t.co = s.co ∧ t.eng = s.eng ∧ t.disp = s.disp
        ∧ (∀ o ∈ t.rk.mx.ops, o.ctx = s.cx.num → o.gone = true))
    ∧ ((∀ h ∈ helpers, h ≤ 10) → helpers.Nodup → s.rk.id.hmax ≤ 10 → ∃ w, exec (.hstat d) s = .next (s.setX d w).advance
        ∧ w.toNat < 2^20 ∧ bitAt w 0 = false ∧ (∀ h, 1 ≤ h → h ≤ 10 → (bitAt w h = true ↔ h ∈ helpers)) ∧ bitAt w 11 = false
        ∧ field w 12 4 = helpers.length ∧ field w 16 4 = s.rk.id.hmax)

/-! ### Control registers, exceptions, system instructions (08 R143 to R149, 11 R238 to R243, 17 R303 to R305, R309) -/

/-- R142 to R149, R238: `crr` answers the register that its index names and changes nothing else; an index that R142 does not list is
ILLEGAL for each of the four; `crw`, `crs` and `crc` answer the old value and write the register's writable bits with X[A], the old
value OR X[A], the old value AND NOT X[A]; the fault bits of cr.est clear where a one is written to them. -/
def Obligations.ControlRegisterResults : Prop :=
  ∀ (s : State) (d a : Reg) (ix : BitVec 12),
    let c := s.cx.cr
    let t0 : List (BitVec 12 × Word × (Word → State)) :=
      [(0x000, wd s.co.cycle, fun _ => s), (0x001, wd s.time, fun _ => s),
       (0x002, wd (s.rk.key.rank % 2^17), fun _ => s), (0x003, s.rk.id.span.setWidth 64, fun _ => s),
       (0x004, wd (s.cx.num % 16), fun _ => s), (0x005, wd (s.co.num % 2^11 + 2^16 * (s.co.num / 384)), fun _ => s),
       (0x006, if isFCore s.co.num then 1 else 0, fun _ => s), (0x007, s.node.setWidth 64, fun _ => s)]
    let t1 : List (BitVec 12 × Word × (Word → State)) :=
      [(0x008, s.rk.id.owner.setWidth 64, fun _ => s), (0x009, s.co.lender.setWidth 64, fun _ => s),
       (0x00A, c.keyid.setWidth 64, fun _ => s), (0x00B, s.rk.id.lb.setWidth 64, fun _ => s),
       (0x011, s.rk.wake.setWidth 64, fun w => { s with rk := { s.rk with wake := w.setWidth 16 } }),
       (0x020, c.frm.setWidth 64, fun w => s.setCr fun c => { c with frm := w.setWidth 2 }),
       (0x021, c.fflags.setWidth 64, fun w => s.setCr fun c => { c with fflags := w.setWidth 5 }),
       (0x022, c.mxcnt.setWidth 64, fun w => s.setCr fun c => { c with mxcnt := w.setWidth 48 })]
    let t2 : List (BitVec 12 × Word × (Word → State)) :=
      [(0x023, c.fmt.setWidth 64, fun w => s.setCr fun c => { c with fmt := w.setWidth 4 }),
       (0x024, c.sclp.setWidth 64, fun w => s.setCr fun c => { c with sclp := w.setWidth 20 &&& 0xFFF7F }),
       (0x025, c.accexp.setWidth 64, fun w => s.setCr fun c => { c with accexp := w.setWidth 8 }),
       (0x026, c.spar.setWidth 64, fun w => s.setCr fun c => { c with spar := w.setWidth 2 }),
       (0x027, c.mxtrap.setWidth 64, fun w => s.setCr fun c => { c with mxtrap := w.setWidth 3 }),
       (0x030, s.rk.grp[0], fun _ => s), (0x031, s.rk.grp[1], fun _ => s), (0x032, s.rk.grp[2], fun _ => s)]
    let t3 : List (BitVec 12 × Word × (Word → State)) :=
      [(0x033, s.rk.grp[3], fun _ => s), (0x034, s.rk.vote.setWidth 64, fun _ => s),
       (0x038, wd (s.co.member.toNat + 2^16 * s.co.signal.toNat + (if s.co.halted then 2^32 else 0)), fun w => { s with co := { s.co with member := w.setWidth 16, signal := w.extractLsb' 16 16 } }),
       (0x040, c.trapvec.setWidth 64, fun w => s.setCr fun c => { c with trapvec := w.setWidth 53 &&& ~~~3 }),
       (0x041, c.trapcause.setWidth 64, fun w => s.setCr fun c => { c with trapcause := w.setWidth 9 }),
       (0x042, c.trappc.setWidth 64, fun w => s.setCr fun c => { c with trappc := w.setWidth 53 }),
       (0x043, c.trapval, fun w => s.setCr fun c => { c with trapval := w }),
       (0x044, c.trapsave, fun w => s.setCr fun c => { c with trapsave := w })]
    let t4 : List (BitVec 12 × Word × (Word → State)) :=
      [(0x048, c.fewait.setWidth 64, fun w => s.setCr fun c => { c with fewait := w.setWidth 32 }),
       (0x049, (s.own.ownerOr s.rk.id.owner.toNat).faultq.setWidth 64, fun _ => s),
       (0x04A, s.co.image.setWidth 64, fun _ => s), (0x050, s.rk.id.deadline, fun _ => s)]
    let table := t0 ++ t1 ++ t2 ++ t3 ++ t4
    let x := s.x a
    (∀ r ∈ table, exec (.crr d r.1) s = .next (s.setX d r.2.1).advance
      ∧ exec (.crw d a r.1) s = .next ((r.2.2 x).setX d r.2.1).advance
      ∧ exec (.crs d a r.1) s = .next ((r.2.2 (r.2.1 ||| x)).setX d r.2.1).advance
      ∧ exec (.crc d a r.1) s = .next ((r.2.2 (r.2.1 &&& ~~~x)).setX d r.2.1).advance)
    ∧ (ix ≠ 0x010 → (∀ r ∈ table, r.1 ≠ ix) → ∀ i ∈ [Instr.crr d ix, .crw d a ix, .crs d a ix, .crc d a ix],
        exec i s = .next (s.illegal i))
    ∧ (∃ est t, exec (.crr d 0x010) s = .next (s.setX d est).advance ∧ est.toNat < 2^25 ∧ est.setWidth 16 = s.rk.wake
      ∧ bitAt est 17 = s.rk.faults[0] ∧ bitAt est 19 = s.rk.faults[1] ∧ bitAt est 23 = s.rk.faults[2]
      ∧ bitAt est 16 = (!s.rk.mx.ops.isEmpty)
      ∧ bitAt est 18 = (s.rk.tickets.any fun k => k.kind == .copy && k.state < 2)
      ∧ bitAt est 22 = (s.rk.tickets.any fun k => k.kind == .coll && 2 ≤ k.state && !k.taken)
      ∧ bitAt est 20 = (!s.rk.inbox.isEmpty) ∧ bitAt est 21 = (!s.rk.blotter.isEmpty)
      ∧ bitAt est 24 = ((s.cx :: s.rk.ctxs).any fun k => k.num != 0)
      ∧ (∀ i ∈ [Instr.crw d a 0x010, .crc d a 0x010], exec i s = .next ((t : State).setX d est).advance)
      ∧ exec (.crs d a 0x010) s = .next (s.setX d est).advance
      ∧ t = { s with rk := { s.rk with faults := t.rk.faults } } ∧ t.rk.faults[0] = (s.rk.faults[0] && !bitAt x 17)
      ∧ t.rk.faults[1] = (s.rk.faults[1] && !bitAt x 19) ∧ t.rk.faults[2] = (s.rk.faults[2] && !bitAt x 23))

/-- R303, R318, R317: taking a trap where a handler is set and none runs: cr.trapcause, cr.trappc and cr.trapval receive the cause, the address of
the instruction and the value, HF is set, the program counter becomes cr.trapvec (sign-extended from its 53 bits, log 8), what the instruction waited for is dropped, and nothing
else of the module changes. An MXOVF that became pending while the instruction waited is taken in its place, at the same address.

R305, R309, R314: a trap with no handler stops the context, and one inside a handler is the NESTED case, which locks it: an error record
with the cause is written and a rung is started, on the whole launch for a control context, else on the helper alone; the context issues
nothing more. -/
def Obligations.TrapEntryResults : Prop :=
  (∀ (s : State) (cause : BitVec 8) (val : Word), s.cx.cr.trapvec ≠ 0 → s.cx.hf = false → s.cx.pair = false →
    (s.cx.wait ≠ .none → s.cx.mx.pending = true → (s.trap cause val).cx.cr.trapcause.toNat = 0x10C
      ∧ (s.trap cause val).cx.cr.trappc = s.cx.pc.setWidth 53 ∧ (s.trap cause val).cx.hf = true
      ∧ (s.trap cause val).cx.mx.pending = false)
    ∧ (s.cx.wait = .none ∨ s.cx.mx.pending = false → s.trap cause val = { s with cx := { s.cx with
      cr := { s.cx.cr with trapcause := cause.setWidth 9, trappc := s.cx.pc.setWidth 53, trapval := val }
      hf := true
      pc := s.cx.cr.trapvec.signExtend 64
      wait := .none
      remain := none
      answer := none
      lanes := []
      fetched := []
      toPost := []
      windows := [] } })) ∧
  (∀ (s : State) (cause : BitVec 8) (val : Word), s.live → s.cx.pair = false → s.cx.wait = .none ∨ s.cx.mx.pending = false →
    let ends := fun (t : State) (cls : BitVec 8) (v1 v2 : Word) => t.cx.run = .stopped ∧ t.cx.x = s.cx.x ∧ t.cx.v = s.cx.v
      ∧ t.cx.cr = s.cx.cr ∧ t.cx.pc = s.cx.pc
      ∧ (∃ e, t.disp.errors = s.disp.errors ++ [(e : ErrRec)] ∧ e.cls = cls ∧ e.addr = s.cx.pc ∧ e.val1 = v1 ∧ e.val2 = v2 ∧ e.owner = s.owner
          ∧ e.core = s.co.num ∧ e.ctx = s.cx.num ∧ e.time = s.time)
      ∧ ∃ r, t.disp.rungs = s.disp.rungs ++ [(r : RungRun)] ∧ r.level = 2
          ∧ r.target = (if s.isControl then .launch s.rk.key.launch else .helper s.rk.key s.rk.run s.cx.num)
    (s.cx.hf = false → s.cx.cr.trapvec = 0 → ends (s.trap cause val) Err.noHandler (cause.setWidth 64) val)
    ∧ (s.cx.hf = true → ends (s.trap cause val) Err.faultLock (Cause.nested.setWidth 64) 0))

/-- R240, R241, R304, R56, R303, R325: `nop` only moves on; `trap` and, with no debugger, `brk` trap; `halt`, and `brk` with one, stop the
core at the next instruction and signal its halt groups; `tret` returns to cr.trappc with HF clear, and outside a handler is ILLEGAL; an MXOVF is taken at a boundary. -/
def Obligations.SystemResults : Prop :=
  ∀ (s : State) (a : Reg),
    let stops := fun (t : State) => ∃ u, u = s.advance ∧ (s.co.halted = false → t = { u with
      co := { u.co with halted := true, haltedAt := s.time }, signals := s.signals ||| s.co.signal }) ∧ (s.co.halted = true → t = u)
    exec .nop s = .next s.advance
    ∧ exec (.trap a) s = .next (s.trap 0x10 (s.x a))
    ∧ (s.owner ∉ s.scr.debugOwners → exec .brk s = .next (s.trap 0x0F 0))
    ∧ (s.owner ∈ s.scr.debugOwners → ∃ t, exec .brk s = .next t ∧ stops t)
    ∧ (∃ t, exec .halt s = .next t ∧ stops t)
    ∧ (s.cx.hf = false → exec .tret s = .next (s.trap Cause.illegal (wd ((encode .tret).getD 0))))
    ∧ (s.cx.hf = true → ∃ t, exec .tret s = .next t ∧ t.cx.pc = (s.cx.cr.trappc &&& ~~~3).signExtend 64 ∧ t.cx.hf = false
        ∧ t.cx.wait = .none ∧ t.cx.x = s.cx.x ∧ t.cx.v = s.cx.v ∧ t.cx.p = s.cx.p ∧ t.cx.cr = s.cx.cr
        ∧ t = { s with cx := t.cx })
    ∧ (s.cx.run = .running → s.cx.wait = .none → s.cx.answer = none → s.cx.lanes = [] → s.cx.pair = false → s.co.halted = false →
        s.cx.hf = false → s.cx.mx.pending = true → s.cx.cr.trapvec ≠ 0 → ∃ t, exec .mxovf s = .next t
        ∧ t.cx.cr.trapcause.toNat = 0x10C ∧ t.cx.cr.trappc = s.cx.pc.setWidth 53 ∧ t.cx.hf = true ∧ t.cx.pc = s.cx.cr.trapvec.signExtend 64
        ∧ t.cx.cr.trapval.toNat = s.cx.mx.ovf.toNat + 2^16 * s.cx.mx.xsat.toNat + 2^32 * s.cx.mx.range.toNat + 2^48 * s.cx.mx.planes.toNat
        ∧ t.cx.mx = ⟨false, 0, 0, 0, 0⟩ ∧ t.cx.x = s.cx.x ∧ t = { s with cx := t.cx })

/-- R242: `wfe` traps OPERAND where an unnamed bit of its mask is set; it completes at once on mask 0, on a set bit of cr.est under its mask
and on a pending MXOVF, and changes nothing; else it waits, and every context that could issue still can. -/
def Obligations.WfeResults : Prop :=
  ∀ (s : State) (a : Reg),
    let m := s.x a
    let i := Instr.wfe a
    (2^25 ≤ m.toNat → exec i s = .next (s.trap Cause.operand m))
    ∧ (m.toNat < 2^25 → m = 0 ∨ s.est &&& m ≠ 0 ∨ s.cx.mx.pending = true → exec i s = .next s.advance)
    ∧ (m.toNat < 2^25 → m ≠ 0 → s.est &&& m = 0 → s.cx.mx.pending = false → ∃ t, exec i s = .next t
        ∧ t = { s with cx := { s.cx with wait := .wfe } } ∧ t.issuers = s.issuers)

/-- R52, R53, R243: a solo prefix before an instruction that R52 allows performs the pair in the elected rank, the lowest of its
participants, once, counts it, and posts its result to every other participant that has not executed it (to none where the rank had arrived
at the phase before it, R54); a participant that the value was posted to takes it without performing, another waits for it or takes the SOLO
trap of a pair that failed; in a helper, and before another word, it is ILLEGAL. -/
def Obligations.SoloResults : Prop :=
  (∀ (s : State), s.cx.pair = false → s.isControl = false → exec .solo s = .next (s.illegal .solo)) ∧
  ∀ (s t : State) (w : Nat), s.live → s.cx.pair = false → s.isControl = true → s.fetch (s.cx.pc + 4) = .ok (t, w) →
    let k := s.rk.solo.count + 1
    let lowest := ∀ r ∈ s.participants, s.rk.key.rank ≤ r.key.rank
    let room := ∀ r ∈ s.participants, r.solo.posted.length < 16
    let unmarked := t.updRanks t.soloPeer fun r => { r with solo := { r.solo with failed := dropAt k r.solo.failed } }
    (∀ e, decode w = .error e → exec .solo s = .next (t.trap Cause.illegal (wd w)))
    ∧ (∀ i, decode w = .ok i → soloBody i = none → exec .solo s = .next (t.trap Cause.illegal (wd w)))
    ∧ (∀ i d, decode w = .ok i → integerDest i = some d → (∀ q ∈ s.rk.solo.posted, q.1 ≠ k) → lowest → room → ∃ u v,
          exec i { t with cx := { t.cx with pair := true } } = .next u ∧ exec .solo s = .next v ∧ v.cx = { u.cx with windows := [] } ∧ v.cx.pc = s.cx.pc + 8
          ∧ v.rk.solo.count = k ∧ v.rk.solo.performed = k ∧ v.ms = t.ms)
    ∧ (∀ i d body u, decode w = .ok i → soloBody i = some (d, body) → (∀ q ∈ s.rk.solo.posted, q.1 ≠ k) → lowest →
      (room → exec i { unmarked with cx := { t.cx with pair := true } } = .next u →
        (u.rk.solo.count ≠ k → exec .solo s = .next u)
        ∧ (u.rk.solo.count = k → ∃ v, exec .solo s = .next v ∧ v.cx = { u.cx with windows := [] } ∧ v.ms = u.ms
          ∧ v.rk = { u.rk with solo := { u.rk.solo with performed := k } }
          ∧ v.ranks = u.ranks.map fun r =>
              if u.rk.tooFew k = false ∧ u.soloPeer r = true ∧ r.is u.rk.key u.rk.run = false ∧ r.solo.count < k then
                { r with solo := { r.solo with posted := putAt k (u.x d) r.solo.posted } }
              else r))
      ∧ (¬ room → exec .solo s = .next (t.waitFor (.soloPost k))))
    ∧ (∀ i d body, decode w = .ok i → soloBody i = some (d, body) → (∀ q ∈ s.rk.solo.posted, q.1 ≠ k) → ¬ lowest →
      (∀ q, s.rk.solo.failed.find? (fun q => q.1 == k) = some q → exec .solo s
        = .next (t.trap Cause.solo (wd (k % 2^16 + q.2.toNat * 2^48 + 2^63))))
      ∧ ((∀ q ∈ s.rk.solo.failed, q.1 ≠ k) → s.electedRank.tooFew k = true → exec .solo s
        = .next (t.trap Cause.solo (wd (k % 2^16 + 2^62))))
      ∧ ((∀ q ∈ s.rk.solo.failed, q.1 ≠ k) → s.electedRank.tooFew k = false → exec .solo s = .next (t.waitFor (.soloPost k))))
    ∧ (∀ i d val, decode w = .ok i → integerDest i = some d → (k, val) ∈ s.rk.solo.posted →
        (∀ q ∈ s.rk.solo.posted, q.1 = k → q.2 = val) → ∃ v, exec .solo s = .next v ∧ v.x d = (if d = 0 then 0 else val)
          ∧ (∀ r, r ≠ d → v.x r = s.x r) ∧ v.cx.pc = s.cx.pc + 8 ∧ v.rk.solo.count = k ∧ v.ms = t.ms)

/-! ### Launches and dispatch (03 R33 to R48, R56 to R59; 11 R225, R227, R228; 12 R244 to R258) -/

/-- R227, R228: `lnch` of a record that R33 allows hands it over: a launch of the rank's queue that is ready to be placed, a ticket of state
1 numbered from 1, X[D]; a record that breaks R33 ends in LAUNCHBAD and STATE 3. It is none in a helper, and traps MISALIGN on a record
not aligned to 128. `lwait` traps OPERAND on a word with a bit that the ticket does not name, answers 0 for a ticket never issued, waits while
the launch runs, and acquires at device scope after one that completed, whether or not its status is still kept. -/
def Obligations.LaunchInstructionResults : Prop :=
  ∀ (s : State) (d a : Reg) (la : Fin 16),
    let i := Instr.lnch d a la
    let w := s.x a
    let seq := s.rk.issued.toList.getD 5 0 % (2^32 - 1) + 1
    let mine := fun (t : Ticket) => t.kind = .launch ∧ t.chan = 0 ∧ t.seq = field w 0 32
    (s.isControl = false → exec i s = .next (s.illegal i))
    ∧ (s.isControl = true → s.cx.wait = .none → w.toNat % 128 ≠ 0 → exec i s = .next (s.trap Cause.misalign w))
    ∧ (s.isControl = true → s.cx.wait = .none → w.toNat % 128 = 0 → s.live → calm s → s.sendsOut = false → s.ms.move.busy = false →
        (∀ l ∈ s.disp.launches, l.num < s.disp.nextNum) → (∀ f ∈ s.disp.records, ∀ w ∈ f.waiters, w.1 ≠ .child s.disp.nextNum) →
        (∀ words gs, s.readRecord s.owner w none = .ok (words, gs) → ∃ t l, exec i s = .next t ∧ movedOn s t
          ∧ t.disp.launches = s.disp.launches ++ [(l : Launch)] ∧ l.num = s.disp.nextNum ∧ l.origin = .program s.rk.key s.rk.run seq
          ∧ l.owner = s.owner ∧ l.addr = w ∧ l.words = words ∧ l.groups = gs ∧ l.state = .ready
          ∧ t.rk.tickets = s.rk.tickets ++ [⟨.launch, 0, seq, 1, 0, 0, false⟩] ∧ t.cx.x = (s.setX d (wd (2^34 + seq))).cx.x
          ∧ t.disp.nextNum = s.disp.nextNum + 1)
        ∧ (∀ v, s.readRecord s.owner w none = .error (.broken v) → (∀ t ∈ s.rk.tickets, ¬ (t.kind = .launch ∧ t.seq = seq)) →
          ∃ t e, exec i s = .next t ∧ movedOn s t
          ∧ t.rk.tickets = s.rk.tickets ++ [⟨.launch, 0, seq, 3, 0, 0, false⟩] ∧ t.cx.x = (s.setX d (wd (2^34 + seq))).cx.x
          ∧ t.disp.errors = s.disp.errors ++ [(e : ErrRec)] ∧ e.cls = Err.launchBad ∧ e.addr = w ∧ e.val1 = wd v ∧ e.val2 = 0))
    ∧ (2^35 ≤ w.toNat ∨ field w 32 2 ≠ 0 → exec (.lwait d a la) s = .next (s.trap Cause.operand w))
    ∧ (w.toNat < 2^35 → field w 32 2 = 0 → w.toNat < 2^34 ∨ (∀ t ∈ s.rk.tickets, ¬ mine t) →
        exec (.lwait d a la) s = .next (s.setX d 0).advance)
    ∧ (w.toNat / 2^32 = 4 → ∀ old new t, s.rk.tickets = old ++ t :: new → mine t → (∀ u ∈ new, ¬ mine u) →
        let later := (new.filter fun u => u.kind == .launch && u.chan == 0).length
        (t.state < 2 → exec (.lwait d a la) s = .next (s.waitFor .lwait))
        ∧ (2 ≤ t.state → ∃ u, exec (.lwait d a la) s = .next u ∧ movedOn s u ∧ u.ms = s.ms
          ∧ u.cx.x = (s.setX d (if 16 ≤ later then wd (2^35 + 2^34 + 2 * 2^32) else wd (2^34 + t.state * 2^32))).cx.x
          ∧ (t.state = 2 → u.co.dcache = [] ∧ u.co.mark = s.ms.fills)))

/-- R10, R35, R45, R11, R59, R258, R252: a launch placed starts its ranks on the cores of its placement, each control context at ENTRY with
X[3] = LBLK and every other register zero; a control context that waits in `hexit` ends its rank, whose signature joins its run's;
a launch whose ranks have ended completes; a launch late for its deadline is reported once. -/
def Obligations.LaunchRunResults : Prop :=
  ∀ (s : State) (l : Launch),
    (∀ q cores, ((s.retryProgress q).resumeSaved q).readNext q = s → s.candidate (.queue q) = some l → s.launch? l.num = some l →
        s.placeable l = true → s.outranked l = false → s.placement l = some [cores] → ∃ t, exec (.launchPlace (.queue q)) s = .next t
        ∧ t.ranks.length = s.ranks.length + cores.length ∧ t.ms = s.ms ∧ t.cx = s.cx
        ∧ (∃ m, t.launch? l.num = some m ∧ m.state = .running ∧ m.channels.length = l.groups.length * (if l.dual then 2 else 1)
              + (if l.dual then 2 else 1))
        ∧ ∀ k c, cores[k]? = some c → ∃ r x, t.ranks[s.ranks.length + k]? = some r ∧ r.key = ⟨l.num, k⟩ ∧ r.run = 0 ∧ r.core = c
          ∧ r.state = (if c ∈ cores.take k then .folded else .running) ∧ r.id.owner = BitVec.ofNat 12 l.owner
          ∧ r.id.span.toNat = field l.words[2] 0 17 ∧ r.tiles = [] ∧ r.wake = 0 ∧ r.ctxs = [x] ∧ x.num = 0
          ∧ x.pc = (l.words[0].setWidth 53).signExtend 64
          ∧ (∀ j : Fin 32, x.x[j] = if j = 3 then (l.words[1].setWidth 53).setWidth 64 else 0) ∧ x.v = Vector.replicate 28 0
          ∧ x.cr.keyid = l.words[2].extractLsb' 48 10 ∧ x.hf = false)
    ∧ (s.live → s.mayEnd s.wholeRank = true → s.launch? s.rk.key.launch = some l → l.dual = false →
        (∀ r ∈ s.ranks, r.core ≠ s.rk.core) → ∃ t m, exec (.rankEnd s.rk.key) s = .next t ∧ t.rk.state = .ended ∧ t.rk.tiles = []
        ∧ t.ranks = s.ranks ∧ t.ms.pending = [] ∧ t.launch? l.num = some m
        ∧ m = (if s.rk.run = 1 then { l with sig1 := some (l.sig1.getD 0 + s.rk.sig) }
               else { l with sig0 := some (l.sig0.getD 0 + s.rk.sig) }))
    ∧ (∀ p run seq, s.launch? l.num = some l → l.origin = .program p run seq → s.retryProgress l.queue = s → l.state = .running →
        s.allEnded l.num = true → s.stopping l.num = false → ∃ t, exec (.launchComplete l.num) s = .next t ∧ t.ms = s.ms
        ∧ t.launch? l.num = some { l with state := .complete }
        ∧ (s.live → p = s.rk.key → run = s.rk.run →
            t.rk.tickets = (s.rk.updTicket .launch 0 seq fun k => { k with state := 2 }).tickets))
    ∧ (s.launch? l.num = some l → l.state = .running → l.late = false → l.deadline ≠ 0 → l.deadline.toNat < s.time → ∃ t e,
        exec (.deadlinePassed l.num) s = .next t ∧ t.launch? l.num = some { l with late := true }
        ∧ t.disp.errors = s.disp.errors ++ [(e : ErrRec)] ∧ e.cls = Err.deadline ∧ e.addr = l.addr ∧ e.val1 = l.deadline ∧ e.val2 = wd s.time)
    ∧ (s.launch? l.num = some l → l.late = true → exec (.deadlinePassed l.num) s = .next s)

/-- R244 to R250, R255, R46, R48, R129: a doorbell on the active port sets TAIL of an enabled queue of its owner; the holder of an idle
queue writes its descriptor, a new BASE setting the counts to 0; a bind record that R250 accepts is in force and admits its queue, another
is refused with BINDREFUSED (and, where it names cores that its owner does not hold, FWBOUND, R356), and one written during an order waits for
the order's end, the last one alone; one with VALID = 0 is always accepted, and returns its queue to idle, the cores of its running launches
withdrawn; an ordered core with no rank is released; a core resumes the rank it holds, its data cache emptied. -/
def Obligations.DispatchResults : Prop :=
  ∀ (s : State) (q : Nat) (x : Queue), s.queue? q = some x → q < 4096 →
    (∀ port owner tail, s.host.ready = true → s.host.leased = true → s.host.active = (port == .portB) → s.liveVfs owner ≠ [] →
        s.own.holder 0x04 q = owner → x.enable = true → (tail % 2^32 + 2^32 - x.head) % 2^32 ≤ 2^x.log2 → ∃ t y,
        exec (.doorbell port owner q tail) s = .next t ∧ t.ms = s.ms ∧ t.queue? q = some y ∧ y.tail = tail % 2^32 ∧ y.head = x.head
        ∧ y.state = x.state)
    ∧ (∀ port owner tail, s.host.ready = false → exec (.doorbell port owner q tail) s = .next s)
    ∧ (∀ owner v, s.host.ready = true → owner < 4096 → s.own.holder 0x04 q = owner → x.state = .idle →
        (∃ t y, exec (.queueDescriptorWrite owner q 0 v) s = .next t ∧ t.queue? q = some y ∧ y.base = v.setWidth 53
          ∧ (v.setWidth 53 ≠ x.base → y.head = 0 ∧ y.tail = 0 ∧ y.doneNum = 0) ∧ y.log2 = x.log2 ∧ y.enable = x.enable)
        ∧ (field v 0 5 = x.log2 → exec (.queueDescriptorWrite owner q 1 v) s = .next (s.updQueue q fun z =>
            { x with qkey := v.extractLsb' 16 10, enable := bitAt v 31, num := z.num })))
    ∧ (∀ b : BindRec, (s.disp.orders.any fun o => o.1 == q) = true → exec (.bindRecordWrite q b) s
        = .next { s with disp := { s.disp with deferred := putAt q b s.disp.deferred } })
    ∧ (∀ b : BindRec, (s.disp.orders.any fun o => o.1 == q) = false →
        (b.valid = true → b.owner = 0 ∨ s.own.holder 0x04 q ≠ b.owner ∨ (∃ c ∈ b.cores, s.own.holder 0x01 c ≠ b.owner) →
          ∃ t e more, exec (.bindRecordWrite q b) s = .next t ∧ t.disp.errors = s.disp.errors ++ (e : ErrRec) :: more
          ∧ e.cls = Err.bindRefused ∧ e.addr = wd q ∧ e.val1 = wd b.owner ∧ t.disp.slots = s.disp.slots
          ∧ ((∀ c ∈ b.cores, s.own.holder 0x01 c = b.owner ∧ c < 1536) → more = [])
          ∧ ((∃ c ∈ b.cores, s.own.holder 0x01 c ≠ b.owner) → ∃ f, more = [(f : ErrRec)] ∧ f.cls = Err.fwBound ∧ f.addr = wd q ∧ f.val1 = 2))
        ∧ (∀ pa, b.valid = false → engineLands s (s.own.holder 0x04 q) .engineWrite (addr53 x.prog) pa → x.progRing = none → ∃ t y,
          exec (.bindRecordWrite q b) s = .next t ∧ t.bindRec q = none ∧ t.queue? q = some y ∧ y.state = .idle ∧ y.head = x.head
          ∧ ((∀ l ∈ s.disp.launches, l.queue = q → l.state ≠ .running) → t.disp.orders = s.disp.orders ∧ t.disp.errors = s.disp.errors)
          ∧ (s.live → s.rk.run = 0 ∨ s.rk.run = 1 →
            (∃ l ∈ s.disp.launches, l.num = s.rk.key.launch ∧ l.queue = q ∧ l.state = .running) → (q, s.rk.core) ∈ t.disp.orders))
        ∧ (∀ pa, b.valid = true → b.owner ≠ 0 → s.own.holder 0x04 q = b.owner → (∀ c ∈ b.cores, s.own.holder 0x01 c = b.owner ∧ c < 1536) →
          1 ≤ b.weight → b.weight ≤ 16 → (∀ l ∈ s.disp.launches, l.queue = q → l.state ≠ .running) →
          engineLands s b.owner .engineWrite (addr53 x.prog) pa → x.progRing = none → ∃ t y, exec (.bindRecordWrite q b) s = .next t ∧ t.bindRec q = some b
          ∧ t.queue? q = some y ∧ y.state = (if b.cores = [] then .switchedOut else .admitted) ∧ y.head = x.head
          ∧ t.disp.orders = s.disp.orders)
        ∧ ((s.disp.deferred.find? fun e => e.1 == q) = some (q, b) → exec (.bindRecordDeferred q) s
          = exec (.bindRecordWrite q b) s))
    ∧ (∀ core, (s.disp.orders.find? fun o => o.2 == core) = some (q, core) → (∀ r ∈ s.liveRanks, r.onCore core = false) →
        (∃ o ∈ s.disp.orders, o.1 = q ∧ o.2 ≠ core) → exec (.coreVacate core) s
          = .next { s with disp := { s.disp with orders := s.disp.orders.filter fun o => !(o.1 == q && o.2 == core) } })
    ∧ (∀ r : Rank, s.rk.state = .ended → s.ranks = [r] → r.state = .folded → r.spilled = false → r.canResume = true → r.core < 1536 →
        (∀ u ∈ s.fab.requests, u.issuer ≠ .store r.key r.run noContext) → ∃ t,
        exec (.rankResume r.core) s = .next t ∧ t.ranks = [{ r with state := .running, imaged := false, behind := false }]
        ∧ (t.coreAt r.core).dcache = [] ∧ (t.coreAt r.core).mark = s.ms.fills ∧ (t.coreAt r.core).last = some r.key ∧ t.ms = s.ms
        ∧ t.cx = s.cx)

/-- R56, R57: a signalled halt group stops each member core that runs, without a further signal; a debugger stops a core and signals its
groups, and resumes it, each limit of its contexts and the term of its loan moved on by the time it stood halted, of which a rank counts what
followed its arrival on the core. -/
def Obligations.DebugResults : Prop :=
  ∀ (s : State) (h : Fin 16) (core : Nat),
    (s.signals.toNat.testBit h.val = false → exec (.haltGroupStop h) s = .next s)
    ∧ (s.signals.toNat.testBit h.val = true → ∃ t, exec (.haltGroupStop h) s = .next t ∧ t.cx = s.cx ∧ t.ms = s.ms
      ∧ t.signals.toNat.testBit h.val = false ∧ (∀ j : Fin 16, j ≠ h → t.signals.toNat.testBit j.val = s.signals.toNat.testBit j.val)
      ∧ (∀ c ∈ t.co :: t.cores, c.member.toNat.testBit h.val = true → c.halted = true)
      ∧ (s.co.member.toNat.testBit h.val = false → t.co = s.co)
      ∧ (s.co.member.toNat.testBit h.val = true → s.co.halted = false → t.co = { s.co with halted := true, haltedAt := s.time }))
    ∧ (core < 1536 → (s.coreAt core).halted = false → ∃ t, exec (.debugStop core) s = .next t
        ∧ t.coreAt core = { s.coreAt core with halted := true, haltedAt := s.time } ∧ t.signals = s.signals ||| (s.coreAt core).signal
        ∧ t.cx = s.cx ∧ t.ms = s.ms ∧ t.ranks = s.ranks)
    ∧ ((s.coreAt core).halted = true → exec (.debugStop core) s = .next s)
    ∧ ((s.coreAt core).halted = false → exec (.debugResume core) s = .next s)
    ∧ (core = s.co.num → s.co.halted = true → s.live → s.rk.core = core → (∀ r ∈ s.ranks, r.is s.rk.key s.rk.run = false) →
      let from_ := Nat.max s.co.haltedAt s.rk.since
      ∃ t, exec (.debugResume core) s = .next t
        ∧ t.co = { s.co with halted := false } ∧ t.ms = s.ms ∧ t.cx = { s.cx with wait := t.cx.wait, toPost := t.cx.toPost }
        ∧ (∀ l va, s.cx.wait = .retry l va → t.cx.wait = .retry (l + (s.time - from_)) va)
        ∧ (∀ q ∈ s.fab.requests, q.issuer = .load s.rk.key s.rk.run s.cx.num →
            { q with deadline := q.deadline + (s.time - Nat.max from_ q.time) } ∈ t.fab.requests)
        ∧ (s.cx.wait = .none → t.cx.wait = .none) ∧ (s.cx.toPost = [] → t.cx.toPost = [])
        ∧ ((s.own.entry 0x01 core).lender ≠ 0 → (t.own.entry 0x01 core).expiry
            = (s.own.entry 0x01 core).expiry + (s.time - Nat.max s.co.haltedAt (s.own.entry 0x01 core).lentAt)))

/-! ### Replies, memory events, rungs (05 R104, R105, 06 R126, 17 R306, R309, R313 to R316, 19 R327 to R332, 14 R295, R297) -/

/-- R306, R331, R332, R349, R57: the reply at a fault record's place, read once no move holds it and no update of it is on its way: 0 leaves its
access waiting, 1 lets it try again, 2 and 3 deny it with the record's cause at its address, as 1 ms without a reply does, with FAULTDENY; a full/empty wait at its limit leaves the retry list and
takes FEWAIT, a wait of 1 ms for a host lease FABRIC with HOSTACCESS reason 4; the limits of a halted core stand still. -/
def Obligations.WaitEndResults : Prop :=
  ∀ (s : State), handles s →
    let me := (s.rk.key, s.rk.run, s.cx.num)
    (∀ f pa, (s.disp.records.find? fun g => g.num == f.num) = some f → f.waiters = [(.context s.rk.key s.rk.run s.cx.num, f.va)] →
        f.who = some me → s.cx.wait = .record f.num → f.slot = some pa →
        let reply := readLE s.ms.mem (s.ms.homeAddr (pa + 0x38)) 8 % 4
        let poll := Instr.faultReplyPoll f.num
        let there := s.ms.movingAt (pa + 0x38) = false ∧ s.ms.pendingAt (pa + 0x38) 8 = false
        (reply = 0 ∨ ¬ there → exec poll s = .next s)
        ∧ (there → reply = 1 → ∃ t, exec poll s = .next t ∧ t.cx = { s.cx with wait := .held, toPost := [] } ∧ t.ms = s.ms
          ∧ ∀ g ∈ t.disp.records, g.num ≠ f.num)
        ∧ (there → 2 ≤ reply → ∃ t, exec poll s = .next t ∧ tookTrap s t f.cause f.va ∧ t.ms = s.ms ∧ ∀ g ∈ t.disp.records, g.num ≠ f.num)
        ∧ (s.time < f.posted + 1000000 ∨ s.co.halted = true → exec (.faultRecordTimeout f.num) s = .next s)
        ∧ (f.posted + 1000000 ≤ s.time → s.co.halted = false → ∃ t e, exec (.faultRecordTimeout f.num) s = .next t
          ∧ tookTrap s t f.cause f.va ∧ t.disp.errors = s.disp.errors ++ [(e : ErrRec)] ∧ e.cls = Err.faultDeny ∧ e.owner = f.owner ∧ e.addr = f.va
          ∧ e.core = s.co.num ∧ e.ctx = s.cx.num))
    ∧ (∀ l va, s.cx.wait = .retry l va → s.cx.answer = none → (∀ e ∈ s.ms.retry, e.who = some me → e.moved = false) →
        (s.time ≤ l → exec (.fewaitTimeout s.rk.key s.cx.num) s = .next s ∨ ∃ r ∈ s.ranks, r.key = s.rk.key)
        ∧ (l < s.time → s.co.halted = false → ∃ t, exec (.fewaitTimeout s.rk.key s.cx.num) s = .next t ∧ tookTrap s t Cause.feWait va
          ∧ t.ms.retry = (s.ms.retry.filter fun e => e.who != some me) ∧ t.ms.mem = s.ms.mem))
    ∧ (∀ pa va since, s.cx.wait = .host pa va since → s.host.leased = false → since + 1000000 ≤ s.time → s.co.halted = false →
        ∃ t e, exec (.hostAccessLeaseTimeout s.rk.key s.cx.num) s = .next t ∧ tookTrap s t Cause.fabric va
          ∧ t.disp.errors = s.disp.errors ++ [(e : ErrRec)] ∧ e.cls = Err.hostAccess ∧ e.addr = wd pa ∧ e.val1 = 4)

/-- R126, R105, R288, R330, R331: a replicated update commits in all four copies at once; a flush by the owner's sponsor is pending until
it completes and then drops the superseded translations it named, another's is HOSTWRITE; a page move that R330 allows holds the source
page, its end copies each byte and each full/empty bit, takes the buffered stores to the page to its new home and holds DONE until it is
cleared; one that it does not is MOVEBAD, its reason the first of R330's list that holds (log 72). -/
def Obligations.MemoryEventResults : Prop :=
  ∀ (s : State),
    (∀ u r, s.ms.pending = u :: r → s.ms.move.done = false → u.data.length ≤ 2^21 → s.ms.mem.wf = true →
        ∃ t, exec .replicaCommit s = .next t ∧ t.cx = s.cx ∧ t.ms.pending = r
          ∧ (∀ j k, j < 4 → k < u.data.length → some (readByte t.ms.mem (u.pa + j * 2^21 + k)) = u.data[k]?)
          ∧ ∀ q, (∀ j, j < 4 → q < u.pa + j * 2^21 ∨ u.pa + j * 2^21 + u.data.length ≤ q) → readByte t.ms.mem q = readByte s.ms.mem q)
    ∧ (∀ page, s.host.ready = true → page < 4096 →
        let o := (s.own.ownerOr page).cfgown
        (s.own.isLive o = true → (s.own.ownerOr o).sponsor = page → page ≠ 0 → ∃ t, exec (.flush page) s = .next t
          ∧ o ∈ t.ms.flushes ∧ (∀ f ∈ s.ms.flushes, f ∈ t.ms.flushes) ∧ t.ms.mem = s.ms.mem ∧ t.cx = s.cx
          ∧ t.ms.kept.length = s.ms.kept.length)
        ∧ (s.own.isLive o = false ∨ (s.own.ownerOr o).sponsor ≠ page ∨ page = 0 → ∃ t e, exec (.flush page) s = .next t
          ∧ t.disp.errors = s.disp.errors ++ [(e : ErrRec)] ∧ e.cls = Err.hostWrite ∧ e.addr = 0xB8 ∧ e.val1 = 6 ∧ t.ms.flushes = s.ms.flushes))
    ∧ (∀ o, o ∈ s.ms.flushes → ∃ t, exec (.flushComplete o) s = .next t ∧ t.cx = s.cx ∧ t.ms.mem = s.ms.mem ∧ o ∉ t.ms.flushes
        ∧ (∀ k ∈ t.ms.kept, ¬ (k.owner = o ∧ k.named = true))
        ∧ ∀ k ∈ s.ms.kept, ¬ (k.owner = o ∧ k.named = true) → k ∈ t.ms.kept)
    ∧ (∀ v, s.host.ready = true → s.own.isLive 1 = true → bitAt v 9 = false →
        let u := { s with ms := { s.ms with move := { s.ms.move with size := bitAt v 1 } } }
        (u.moveBad = none → ∃ t, exec (.moveStart 1 v) s = .next t ∧ t.ms.move = { u.ms.move with
            src := s.ms.move.mvsrc, dst := s.ms.move.mvdst, large := bitAt v 1, busy := true, start := s.time } ∧ t.ms.mem = s.ms.mem)
        ∧ (let (src, dst) := (s.ms.move.mvsrc, s.ms.move.mvdst)
           let bad := fun (reason : Word) => ∃ t e, exec (.moveStart 1 v) s = .next t ∧ t.ms.move = u.ms.move
             ∧ t.disp.errors = s.disp.errors ++ [(e : ErrRec)] ∧ e.cls = Err.moveBad ∧ e.addr = wd src ∧ e.val1 = reason ∧ e.val2 = wd dst
           let plots := fun (pa : Nat) => if bitAt v 1 then [plotOf pa, plotOf pa + 1, plotOf pa + 2, plotOf pa + 3] else [plotOf pa]
           let alike := ∀ p ∈ plots src, ∀ q ∈ plots dst, plotBacked p = true ∧ plotBacked q = true ∧ s.own.holder 3 p = s.own.holder 3 q
             ∧ (s.own.entry 3 p).mkey = (s.own.entry 3 q).mkey
           let idle := s.ms.move.busy = false ∧ s.ms.move.done = false
           let aligned := bitAt v 1 = true → src % 2^23 = 0 ∧ dst % 2^23 = 0
           (¬ idle → bad 1) ∧ (idle → ¬ alike → bad 2) ∧ (idle → alike → ¬ aligned → bad 3)
           ∧ (idle → alike → aligned → s.replicated (plots src ++ plots dst) = true → bad 4)
           ∧ (idle → alike → aligned → s.replicated (plots src ++ plots dst) = false → src = dst → bad 5)))
    ∧ (∀ v, s.host.ready = true → s.own.isLive 1 = true → bitAt v 0 = false → exec (.moveDoneClear 1 v) s
        = .next { s with ms := { s.ms with move := { s.ms.move with size := bitAt v 1, done := false } } })
    ∧ (let v := s.ms.move
       let n := if v.large then 2^23 else 2^13
       v.busy = true → v.src % 2^13 = 0 → v.dst % 2^13 = 0 → v.src + n ≤ v.dst ∨ v.dst + n ≤ v.src → s.ms.mem.wf = true →
        ∃ t, exec .moveCopyDone s = .next t ∧ t.ms.move = { v with busy := false, done := true }
          ∧ t.co.stores = s.co.stores.map (fun e => if v.src ≤ e.pa ∧ e.pa < v.src + n then { e with pa := e.pa - v.src + v.dst } else e)
          ∧ (∀ k, k < n → readByte t.ms.mem (v.dst + k) = readByte s.ms.mem (v.src + k)
              ∧ isFull t.ms.mem (v.dst + k) = isFull s.ms.mem (v.src + k))
          ∧ (∀ q, q < v.dst ∨ v.dst + n ≤ q → readByte t.ms.mem q = readByte s.ms.mem q ∧ isFull t.ms.mem q = isFull s.ms.mem q)
          ∧ ∀ q, v.src ≤ q → q < v.src + n → t.ms.homeAddr q = q - v.src + v.dst)

/-- R313 to R316, R248, R335: each rung starts with its level, its target and the time: the queue rung leaves its queue idle with no bind record, the context rung stops a launch, discards its held
messages and unstarted work; an engine rung abandons what a channel, a matrix unit, a walker or a network interface holds; the partition
rung ends its owner's launches, the device rung returns the module to step 2 of bring-up with memory scrubbed. A helper's rung that has
nothing outstanding ends, its core's stores performed, with a RUNGRAN record; one past its limit is recorded too, and the next rung acts, the
device rung's being a cold reset. That the device rung keeps device time, the node's number and the error records is log 106, that a matrix unit
is as at reset once its rung has acted log 54. -/
def Obligations.RungResults : Prop :=
  ∀ (s : State), s.live →
    let starts := fun (t : State) (level : Nat) (target : RungTarget) =>
      t.disp.rungs = s.disp.rungs ++ [⟨s.disp.nextRung, level, target, s.time⟩] ∧ t.disp.nextRung = s.disp.nextRung + 1
    let stopped := fun (t : State) => t.cx.run = .stopped ∧ t.cx.wait = .none ∧ (∀ c ∈ t.rk.ctxs, c.run = .stopped)
      ∧ t.rk.blotter = [] ∧ t.rk.graphs = [] ∧ t.rk.mx.queue = [] ∧ t.cx.x = s.cx.x
    (∀ q, q < 4096 → (s.disp.slots.map (·.1)).Nodup → ∃ t y, exec (.queueRung q) s = .next t ∧ t.queue? q = some y ∧ y.state = .idle
        ∧ t.bindRec q = none ∧ starts t 1 (.queue q)
        ∧ ((∃ l ∈ s.disp.launches, l.num = s.rk.key.launch ∧ l.queue = q ∧ l.state = .running) → stopped t))
    ∧ (∃ t, exec (.contextRung (.launch s.rk.key.launch)) s = .next t ∧ stopped t ∧ starts t 2 (.launch s.rk.key.launch)
        ∧ t.ms.mem = s.ms.mem ∧ (s.rk.core = s.co.num → t.co.halted = false))
    ∧ (s.cx.num ≠ 0 → (∀ c ∈ s.rk.ctxs, c.num ≠ s.cx.num) → ∃ t, exec (.contextRung (.helper s.rk.key s.rk.run s.cx.num)) s = .next t
        ∧ t.cx.run = .stopped ∧ starts t 2 (.helper s.rk.key s.rk.run s.cx.num) ∧ (s.rk.core = s.co.num → t.co.halted = false)
        ∧ ((s.coreAt s.rk.core).halted = false → t.rk.ctxs = s.rk.ctxs) ∧ ∀ h ∈ t.rk.blotter, h.ctx ≠ s.cx.num)
    ∧ (∀ ch, ch < 384 → ∃ t, exec (.engineRung (.channel ch)) s = .next t ∧ (∀ c ∈ t.eng.copies, c.chan ≠ ch)
        ∧ starts t 3 (.channel ch))
    ∧ (s.rk.mx.ops ≠ [] → ∃ t, exec (.engineRung (.matrix s.rk.core)) s = .next t ∧ t.rk.mx = MatrixUnit.reset
        ∧ t.rk.faults[0] = true ∧ starts t 3 (.matrix s.rk.core))
    ∧ (∃ t, exec (.engineRung (.walker s.rk.core)) s = .next t ∧ t.rk.graphs = [] ∧ starts t 3 (.walker s.rk.core))
    ∧ (∃ t, exec (.engineRung (.netif s.rk.core)) s = .next t ∧ starts t 3 (.netif s.rk.core)
        ∧ ∀ c ∈ t.fab.colls, ¬ (c.key = s.rk.key ∧ c.run = s.rk.run))
    ∧ (∀ o, s.own.isLive o = false → exec (.partitionRung o) s = .next s)
    ∧ (∀ o, s.own.isLive o = true → (∃ l ∈ s.disp.launches, l.num = s.rk.key.launch ∧ l.owner = o ∧ l.state = .running) →
        ∃ t n, exec (.partitionRung o) s = .next t ∧ t.rk.state = .ended ∧ t.disp.rungs.getLast? = some ⟨n, 4, .owner o, s.time⟩)
    ∧ (∃ t, exec .deviceRung s = .next t ∧ t.host.ready = false ∧ t.rk.state = .ended ∧ t.ranks = [] ∧ t.ms = MemSystem.reset
        ∧ t.own.endowed = false ∧ t.time = s.time ∧ t.node = s.node ∧ t.mgmt.stage = 1 ∧ t.mgmt.measured[0] = s.mgmt.measured[0]
        ∧ t.disp.rungs = [⟨s.disp.nextRung, 5, .device, s.time⟩] ∧ (s.disp.rungs = [] → s.disp.heldCopies = [] → t.disp.errors = s.disp.errors))
    ∧ (∀ r, (s.disp.rungs.find? fun x => x.num == r.num) = some r →
        let limit := if r.level = 1 then 200000 else if r.level = 2 then 2000000 else if r.level = 3 then 5000000
          else if r.level = 4 then 50000000 else 500000000
        (s.time < r.start + limit → exec (.rungTimeout r.num) s = .next s)
        ∧ (r.start + limit ≤ s.time → r.target = .device → ∃ t, exec (.rungTimeout r.num) s = .next t ∧ t.host.ready = false
          ∧ t.ranks = [] ∧ t.ms = MemSystem.reset ∧ t.mgmt.stage = 0 ∧ t.mgmt.measured = Vector.replicate 8 0 ∧ t.disp.rungs = [])
        ∧ (∀ k run n, r.start + limit ≤ s.time → r.target = .helper k run n → r.num < s.disp.nextRung → ∃ t e later,
          exec (.rungTimeout r.num) s = .next t ∧ t.disp.errors = s.disp.errors ++ (e : ErrRec) :: later ∧ e.cls = Err.rungRan ∧ e.rung = r.level ∧ e.val1 = wd r.start ∧ e.val2 = wd s.time
          ∧ ∀ x ∈ t.disp.rungs, x.num ≠ r.num))
    ∧ (∀ r ∈ s.disp.rungs, r.target = .helper s.rk.key s.rk.run s.cx.num → s.disp.rungs = [r] → s.disp.ending = [] → s.cx.run = .stopped →
        s.cx.num ≠ 0 →
        (s.helperIdle s.rk.key s.rk.run s.cx.num = false → s.endRungs = s)
        ∧ (s.helperIdle s.rk.key s.rk.run s.cx.num = true → ∃ e, s.endRungs.disp.errors = s.disp.errors ++ [(e : ErrRec)]
          ∧ e.cls = Err.rungRan ∧ e.rung = r.level ∧ e.val1 = wd r.start ∧ e.val2 = wd s.time ∧ s.endRungs.disp.rungs = []
          ∧ (s.rk.core = s.co.num → s.endRungs.co.stores = [])))

/-- R297, R281, R284, R31, R100: after reset READY is 0, no owner lives and nobody holds anything, memory lists nothing, no launch and no
copy is there, the limiter is within its limits; the first five steps are those of bring-up: after the first the device identity is derived and
READY is 0, after the fifth READY is 1 and owner 1 lives and holds every resource, with memory zero and EMPTY. (That the registers read zero
after reset is the model's choice, log 1; so are the order of the steps while nothing is on the agenda, log 2, that the stages verify, log 7, and
what the boot registers hold, log 64.)

R295, R297: bring-up goes step by step while READY is 0: its first measures the first-stage firmware and derives the device identity, its
third leaves memory zero and EMPTY and endows owner 1 with every resource, its fifth sets READY with a lease of 10^9 ns. A step with a stage
whose signature fails ends bring-up, and nothing more is done then or once READY is 1. (Steps log 2, verification log 7, boot registers log 64.) -/
def Obligations.ResetAndBringUp : Prop :=
  (let s := State.reset
  s.host.ready = false ∧ (∀ n, s.own.isLive n = false) ∧ (∀ cls idx, s.own.holder cls idx = 0) ∧ s.ms.mem.wf = true
    ∧ s.ms.mem.bytes = [] ∧ s.disp.launches = [] ∧ s.ranks = [] ∧ s.eng.copies = [] ∧ s.powerWithin = true
    ∧ (∀ r : Reg, s.x r = 0) ∧ s.p 0 = BitVec.allOnes 64 ∧ s.cx.cr.fewait = 100000
    ∧ ∃ a b c d t, step s = .next a ∧ step a = .next b ∧ step b = .next c ∧ step c = .next d ∧ step d = .next t
      ∧ a.mgmt.identity = Config.identityKey ∧ a.host.ready = false ∧ d.host.ready = false ∧ t.host.ready = true ∧ t.own.isLive 1 = true
      ∧ (∀ cls idx, t.own.holder cls idx = 1) ∧ ∀ pa, readByte t.ms.mem pa = 0 ∧ isFull t.ms.mem pa = false) ∧
  (∀ (s : State),
    (s.host.ready = true ∨ s.mgmt.stopped = true → exec .bringUp s = .next s)
    ∧ (s.host.ready = false → s.mgmt.stopped = false →
        (∀ i ∈ stagesOf (s.mgmt.stage + 1), s.mgmt.verified.toList.getD i false = true) → ∃ t, exec .bringUp s = .next t
        ∧ t.mgmt.stage = s.mgmt.stage + 1 ∧ t.mgmt.stopped = false ∧ t.cx = s.cx
        ∧ (∀ j : Fin 8, t.mgmt.measured[j] = if j.val ∈ stagesOf (s.mgmt.stage + 1) then
            extendMeasure s.mgmt.measured[j] (Config.stageDigest j.val) else s.mgmt.measured[j])
        ∧ (s.mgmt.stage = 0 → t.mgmt.identity = Config.identityKey) ∧ (s.mgmt.stage ≠ 4 → t.host.ready = false)
        ∧ (s.mgmt.stage = 2 → (∀ cls ix, t.own.holder cls ix = 1) ∧ t.own.isLive 1 = true
            ∧ ∀ pa, readByte t.ms.mem pa = 0 ∧ isFull t.ms.mem pa = false)
        ∧ (s.mgmt.stage ≠ 2 → t.ms = s.ms ∧ t.own = s.own)
        ∧ (s.mgmt.stage = 4 → t.host.ready = true ∧ t.host.leased = true
            ∧ ∀ p : Fin 2, t.host.ports[p].leaseExp = s.time + 1000000000))
    ∧ (s.host.ready = false → s.mgmt.stopped = false →
        (∃ i ∈ stagesOf (s.mgmt.stage + 1), s.mgmt.verified.toList.getD i false = false) → ∃ t, exec .bringUp s = .next t
        ∧ t.mgmt.stopped = true ∧ t.mgmt.stage = s.mgmt.stage ∧ t.host = s.host ∧ t.ms = s.ms ∧ t.own = s.own))

/-! ### Ownership (11 R234 to R237; 14 R283 to R287) -/

/-- R234 to R237, R283 to R285: `give`, `lend`, `accept`, `reclaim`, `ownq`, `omake` and `evict` answer in X[D] the status word of R235 and
change the map as R236 says: BADRES for what is no resource, NOTHELD for a caller without the part it needs, BADARG for a B operand that
breaks its layout; an offer is recorded or withdrawn, an early return ends a loan (a core's once no counted read of a cluster tile on it remains), an accept makes the caller holder and starts the term,
a reclaim before its term answers what remains of it, one after it takes the resource back, scrubbed. `evict` ends an owner and all that it
sponsors: loans they hold go back to their lenders, all else they held or lent to the caller; where a core or a page that it needs is busy it
waits, and nothing has changed yet. An operation that answers no change leaves the map. `give` and `lend` are releases,
`accept` an acquire, at device scope. The order of the checks of `give` and `lend` after BADRES and NOTHELD, and NOOFFER before BADARG, are the model's (log 60), as is that
`omake` takes the lowest free number (log 125); that `evict` of a number above 4,095 answers NOOWNER is log 68. -/
def Obligations.OwnershipResults : Prop :=
  ∀ (s : State) (d a b : Reg) (la : Fin 16), s.live → s.cx.run = .running → calm s → s.sendsOut = false → s.own.isLive s.owner = true →
      s.cx.lanes = [] → s.imagesAway = false →
    let A := s.x a
    let B := s.x b
    let me := s.owner
    let cls := field A 56 8
    let idx := field A 0 48
    let e := s.own.entry cls idx
    let known := field A 48 8 = 0 ∧ resourceExists cls idx = true
    let status := fun (code v : Nat) => wd (code * 2^60 + v)
    let keeps := fun (i : Instr) (w : Word) => ∃ t, exec i s = .next t ∧ movedOn s t ∧ t.cx.x = (s.setX d w).cx.x ∧ t.own = s.own
      ∧ sameMemory s t ∧ storeFrame d s t
    let makes := fun (i : Instr) (f : MapEntry) (w : Word) => ∃ t, exec i s = .next t ∧ movedOn s t ∧ t.cx.x = (s.setX d w).cx.x
      ∧ t.own.entry cls idx = f ∧ (∀ c k, ¬ (c = cls ∧ k = idx) → t.own.entry c k = s.own.entry c k) ∧ t.own.owners = s.own.owners
      ∧ ((cls = 6 → s.ms.keyGen idx % 2 = 1) → t.ms.mem = s.ms.mem) ∧ t.ranks = s.ranks ∧ t.disp.launches = s.disp.launches
    let noOffer : MapEntry := { e with offerTo := 0, lendOffer := false, offerTerm := 0 }
    let free := cls = 1 → s.readsStand idx true = false
    let give := Instr.give d a b la
    let lend := Instr.lend d a b la
    let accept := Instr.accept d a b la
    let reclaim := Instr.reclaim d a b la
    let ownq := Instr.ownq d a la
    let evict := Instr.evict d a b la
    let dest := field B 0 12
    (¬ known → keeps give (status 7 0) ∧ keeps lend (status 7 0) ∧ keeps accept (status 7 0) ∧ keeps reclaim (status 7 0)
      ∧ keeps ownq (status 7 0))
    ∧ (known →
      (e.holder ≠ me → keeps give (status 3 0) ∧ keeps lend (status 3 0))
      ∧ (e.holder = me →
        (4096 ≤ B.toNat → keeps give (status 8 0)) ∧ (field B 12 4 ≠ 0 → keeps lend (status 8 0))
        ∧ (B.toNat < 4096 →
          (dest = me → makes give noOffer (status 0 0))
          ∧ (dest ≠ me → e.lender ≠ 0 → dest = e.lender → free →
            makes give { noOffer with holder := e.lender, lender := 0, lentAt := 0, expiry := 0 } (status 0 0))
          ∧ (dest ≠ me → e.lender ≠ 0 → dest ≠ e.lender → keeps give (status 6 0))
          ∧ (dest ≠ me → e.lender = 0 → e.offerTo ≠ 0 → keeps give (status 6 0))
          ∧ (dest ≠ me → e.lender = 0 → e.offerTo = 0 → s.own.isLive dest = false → keeps give (status 5 0))
          ∧ (dest ≠ me → e.lender = 0 → e.offerTo = 0 → s.own.isLive dest = true →
            makes give { e with offerTo := dest, lendOffer := false, offerTerm := 0 } (status 1 0)))
        ∧ (field B 12 4 = 0 →
          (dest = me → makes lend noOffer (status 0 0))
          ∧ (dest ≠ me → e.lender ≠ 0 ∨ e.offerTo ≠ 0 → keeps lend (status 6 0))
          ∧ (dest ≠ me → e.lender = 0 → e.offerTo = 0 → s.own.isLive dest = false → keeps lend (status 5 0))
          ∧ (dest ≠ me → e.lender = 0 → e.offerTo = 0 → s.own.isLive dest = true →
            makes lend { e with offerTo := dest, lendOffer := true, offerTerm := B.toNat / 2^16 } (status 1 0))))
      ∧ (e.offerTo ≠ me → keeps accept (status 4 0))
      ∧ (e.offerTo = me →
        (B ≠ 0 → e.lendOffer = false ∨ cls ≠ 1 → keeps accept (status 8 0))
        ∧ (e.lendOffer = true → cls = 1 → B.toNat % 64 ≠ 0 ∨ canonical B = false → keeps accept (status 8 0))
        ∧ (B = 0 → e.lendOffer = false → free →
          makes accept { noOffer with holder := me, lender := 0, lentAt := 0, expiry := 0 } (status 0 0))
        ∧ (B = 0 → e.lendOffer = true → cls ≠ 1 →
          makes accept { noOffer with holder := me, lender := e.holder, lentAt := s.time, expiry := s.time + e.offerTerm } (status 0 0))
        ∧ (e.lendOffer = true → cls = 1 → B.toNat % 64 = 0 → canonical B = true → free → ∃ t, exec accept s = .next t ∧ movedOn s t
          ∧ t.own.entry 1 idx = { noOffer with holder := me, lender := e.holder, lentAt := s.time, expiry := s.time + e.offerTerm }
          ∧ (t.coreAt idx).lender = BitVec.ofNat 12 e.holder ∧ (t.coreAt idx).image = B.setWidth 53 ∧ t.co.dcache = []
          ∧ t.co.mark = s.ms.fills))
      ∧ (e.lender ≠ me → keeps reclaim (status 3 0))
      ∧ (e.lender = me → s.time < s.loanExpiry cls idx → keeps reclaim (status 2 ((s.loanExpiry cls idx - s.time) % 2^48)))
      ∧ (e.lender = me → s.loanExpiry cls idx ≤ s.time → B.toNat % 64 ≠ 0 ∨ canonical B = false ∨ (∃ n, s.bufferPlace me B = .fails n) →
          keeps reclaim (status 8 0))
      ∧ (e.lender = me → s.loanExpiry cls idx ≤ s.time → s.bufferPlace me B = .ok → cls = 2 ∨ cls = 3 ∨ 7 ≤ cls →
          (cls = 2 → ∀ r ∈ s.liveRanks, r.onCore (idx / 10) = true → ∀ c ∈ r.ctxs, c.num ≠ idx % 10 + 1) → ∃ t,
          exec reclaim s = .next t ∧ movedOn s t ∧ t.cx.x = (s.setX d (status 0 0)).cx.x ∧ t.own.holder cls idx = me
          ∧ (t.own.entry cls idx).lender = 0 ∧ (cls = 3 → (t.own.entry cls idx).mkey = (s.own.ownerOr me).mkeyid.toNat))
      ∧ (e.lender = me → s.loanExpiry cls idx ≤ s.time → s.bufferPlace me B = .ok →
        let back := fun (P : State → Prop) => ∃ t, exec reclaim s = .next t ∧ movedOn s t ∧ t.cx.x = (s.setX d (status 0 0)).cx.x
          ∧ t.own.holder cls idx = me ∧ (t.own.entry cls idx).lender = 0 ∧ P t
        (cls = 1 → (∀ r ∈ s.liveRanks, r.onCore idx = false) → s.readsStand idx false = false → s.rungOn idx = false →
          (s.coreAt idx).image = 0 → back fun t => (t.coreAt idx).lender = 0 ∧ (t.coreAt idx).image = 0 ∧ (t.coreAt idx).dcache = []
            ∧ (t.coreAt idx).icache = [] ∧ (t.coreAt idx).stores = [] ∧ (t.coreAt idx).member = 0 ∧ (t.coreAt idx).signal = 0)
        ∧ (cls = 4 → (∀ l ∈ s.disp.launches, l.queue = idx → l.state ≠ .running) → (∀ x, s.queue? idx = some x → x.log2 = 0 ∨
            (x.progRing = none ∧ ∃ pa, engineLands s e.holder .engineWrite (addr53 x.prog) pa)) →
          back fun t => t.bindRec idx = none ∧ t.queue? idx = some (Queue.fresh idx))
        ∧ (cls = 5 → back fun t => ∀ c ∈ t.eng.copies, c.chan ≠ idx)
        ∧ (cls = 6 → back fun t => t.fab.key? idx = none ∧ t.ms.keyGen idx % 2 = 0 ∧ s.ms.keyGen idx ≤ t.ms.keyGen idx))
      ∧ ((e.holder = me ∨ e.lender = me ∨ e.offerTo = me) → keeps ownq
          (wd ((if e.lendOffer then 2^36 else 0) + e.offerTo * 2^24 + e.lender * 2^12 + e.holder)))
      ∧ (e.holder ≠ me → e.lender ≠ me → e.offerTo ≠ me → keeps ownq (status 3 0)))
    ∧ (∀ n, 2 ≤ n → n < 4096 → s.own.isLive n = false → (∀ m, 2 ≤ m → m < n → s.own.isLive m = true) → ∃ t,
        exec (.omake d la) s = .next t ∧ movedOn s t ∧ t.cx.x = (s.setX d (status 0 n)).cx.x ∧ t.ms = s.ms
        ∧ t.own.ownerOr n = OwnerRec.fresh n me ∧ (∀ m, m ≠ n → t.own.ownerOr m = s.own.ownerOr m) ∧ t.own.entries = s.own.entries)
    ∧ ((∀ m, 2 ≤ m → m < 4096 → s.own.isLive m = true) → keeps (.omake d la) (status 5 0))
    ∧ (4096 ≤ A.toNat ∨ s.own.isLive (field A 0 12) = false → keeps evict (status 5 0))
    ∧ (A.toNat < 4096 → s.own.isLive A.toNat = true →
        ((s.own.ownerOr A.toNat).sponsor ≠ me → keeps evict (status 3 0))
        ∧ ((s.own.ownerOr A.toNat).sponsor = me → B.toNat % 64 ≠ 0 → keeps evict (status 8 0))
        ∧ ((s.own.ownerOr A.toNat).sponsor = me → s.bufferPlace me B = .ok → 2 ≤ A.toNat →
            (s.own.entries.map fun e => (e.cls, e.idx)).Nodup →
            (∀ n, n ≠ A.toNat → s.own.isLive n = true → (s.own.ownerOr n).sponsor ≠ A.toNat) →
            (∀ e ∈ s.own.entries, e.lender ≠ A.toNat ∧ (e.holder = A.toNat → e.cls ≠ 1 ∧ e.cls ≠ 2)) →
            (∀ l ∈ s.disp.launches, l.owner ≠ A.toNat ∧ s.own.holder 4 l.queue ≠ A.toNat) → ∃ t, exec evict s = .next t ∧ movedOn s t
            ∧ t.cx.x = (s.setX d (status 0 0)).cx.x ∧ t.own.isLive A.toNat = false
            ∧ (∀ m, m ≠ A.toNat → t.own.isLive m = s.own.isLive m)
            ∧ ∀ c k, c < 12 → t.own.holder c k = (if s.own.holder c k ≠ A.toNat then s.own.holder c k
                else if (s.own.entry c k).lender = 0 then me else (s.own.entry c k).lender))
        ∧ (let doomed := s.own.doomed 4096 A.toNat
           (s.own.ownerOr A.toNat).sponsor = me → s.bufferPlace me B = .ok → (∀ n ∈ doomed, 2 ≤ n) →
            (s.own.entries.map fun e => (e.cls, e.idx)).Nodup → ∃ t, exec evict s = .next t ∧ (t = s.waitFor .held ∨
            (A.toNat ∈ doomed ∧ (∀ n ∈ doomed, t.own.isLive n = false) ∧ (∀ m, m ∉ doomed → t.own.isLive m = s.own.isLive m)
            ∧ ∀ c k, c < 12 →
              let (h, l) := (s.own.holder c k, (s.own.entry c k).lender)
              t.own.holder c k = (if h ∉ doomed ∧ l ∉ doomed then h else if h ∈ doomed ∧ l ≠ 0 ∧ l ∉ doomed then l else me)))))

/-- R234, R237, R282, R286: a page of the ownership port performs the same seven operations for its owner, from OPA and OPB, and answers in
OPRES, with OPBUSY set while it has to wait, for a page that is held or an image that is under way (log 67); one for an owner that does not
live answers NOOWNER (R287); until READY and while OPBUSY is set, it does nothing. A scrubbed
plot is EMPTY, and reads zero where its MKEY stays; a scrubbed core has no cached line and no member or signal group; a scrubbed channel
record, key, VF, group and watch slot are unset, and a scrubbed scriptorium core keeps no line of its last holder's plots and no reservation.
What a scrub of a barrier channel and of a scriptorium core clears is log 89. -/
def Obligations.OwnershipPortResults : Prop :=
  ∀ (s : State) (page : Nat),
    let r := s.own.ownerOr page
    let gives := fun (i : Instr) (f : OwnF) =>
      (s.host.ready = false ∨ 4096 ≤ page ∨ r.opBusy = true → exec i s = .next s)
      ∧ (s.host.ready = true → page < 4096 → r.opBusy = false →
        (r.live = false → ∃ t, exec i s = .next t ∧ (t.own.ownerOr page).opRes = wd (5 * 2^60) ∧ (t.own.ownerOr page).live = false
            ∧ t.ms = s.ms ∧ t.cx = s.cx ∧ t.own.entries = s.own.entries)
        ∧ (s.mapOp page f r.opA r.opB = none → ∃ t, exec i s = .next t ∧ (t.own.ownerOr page).opBusy = true
            ∧ (t.own.ownerOr page).opF = f.code ∧ t.ms = s.ms ∧ t.cx = s.cx)
        ∧ (∀ u w, s.mapOp page f r.opA r.opB = some (u, w) → ∃ t, exec i s = .next t ∧ (t.own.ownerOr page).opRes = w
          ∧ (t.own.ownerOr page).opBusy = ((f == .reclaim || f == .evict) && u.imagesAway) ∧ t.ms = u.ms ∧ t.cx = u.cx ∧ t.own.entries = u.own.entries))
    gives (.portGive page) .give ∧ gives (.portAccept page) .accept ∧ gives (.portLend page) .lend
    ∧ gives (.portReclaim page) .reclaim ∧ gives (.portOwnq page) .ownq ∧ gives (.portOmake page) .omake
    ∧ gives (.portEvict page) .evict
    ∧ (∀ p holder dest pa, (s.ms.mem.keyed.map (·.1)).Nodup → plotOf pa = p → isFull (s.scrub 3 p holder dest).ms.mem pa = false
        ∧ ((s.own.ownerOr dest).mkeyid.toNat = (s.own.entry 3 p).mkey → readByte (s.scrub 3 p holder dest).ms.mem pa = 0)
        ∧ ((s.scrub 3 p holder dest).own.entry 3 p).mkey = (s.own.ownerOr dest).mkeyid.toNat
        ∧ ∀ r ∈ (s.scrub 3 p holder dest).scr.reserved, plotOf r.2 ≠ p)
    ∧ (∀ holder dest, let t := s.scrub 1 s.co.num holder dest
        t.co.dcache = [] ∧ t.co.icache = [] ∧ t.co.stores = [] ∧ t.co.member = 0 ∧ t.co.signal = 0
          ∧ t.ms.pending = [])
    ∧ (∀ n holder dest, (∀ v ∈ (s.scrub 9 n holder dest).host.vfs, v.num ≠ n) ∧ (∀ g ∈ (s.scrub 8 n holder dest).fab.groups, g.num ≠ n)
        ∧ (∀ w ∈ (s.scrub 10 n holder dest).log.watches, w.num ≠ n) ∧ (∀ k ∈ (s.scrub 6 n holder dest).fab.keys, k.keyid ≠ n)
        ∧ (∀ l ∈ (s.scrub 7 n holder dest).disp.launches, n ∉ l.channels)
        ∧ (∀ a ∈ (s.scrub 11 n holder dest).scr.lines, s.own.holder 3 (plotOf a) ≠ holder)
        ∧ ((s.scr.reserved.map (·.1)).Nodup → ∀ r ∈ (s.scrub 11 n holder dest).scr.reserved, r.1 ≠ n))

/-! ### Host ports, CXL.mem and the ownership port's registers (13 R279 to R282; 14 R288; 20 R349 to R352) -/

/-- R288, R350, R271, R274: a configuration register written through a page, whether or not its owner lives, acts for CFGOWN where the page's owner sponsors CFGOWN, and
is HOSTWRITE reason 6 otherwise; TROOT, MKEYID, VFSET, ENROL and PLOTKEY each need what they name held by CFGOWN, else HOSTWRITE reason 3.
A new plot key leaves every other plot, and every full/empty bit, as it was. A word of a group record is written by the group's holder, its named bits alone. That the page alone, and no sponsor of its owner,
sets CFGOWN is log 70.

R281, R282, R288, R297, R349: a register write is ignored until READY. A page's OPA, OPB, QSEL, CFGOWN, RCPTBUF and MCSEL, CFGOWN's
FAULTQ, SAVEAREA and RWTAB take their named bits; the registers with a step of their own do what that step does; offsets not listed are
ignored. LEASEEXP is at most 10^9 ns away, of the active port alone, the standby's being HOSTWRITE reason 4; past it the lease ends.
VF Enable is a port's own.

R6, R281, R282, R288, R297, R330: what a read of a register gives: zero until READY but for ID and STATUS; then a page's OPA, OPB, QSEL,
CFGOWN, RCPTBUF and MCSEL give the named bits last written, PAGEOWN the page's owner, OPCMD and offsets that are not listed zero, MVCTL its
SIZE, BUSY and DONE on page 1; the registers of page 1 give zero on another. A queue's descriptor reads as zero for who does not hold it.
The standby port gives nothing but ID, STATUS, LEASEPORT and LEASEEXP. -/
def Obligations.PageRegisterResults : Prop :=
  (∀ (s : State) (page : Nat) (v : Word),
    let o := (s.own.ownerOr page).cfgown
    let all := fun (P : Instr → Word → Prop) => P (.trootWrite page v) 0x88 ∧ P (.mkeyidWrite page v) 0xA8 ∧ P (.vfset page v) 0xB0
      ∧ P (.enrol page v) 0xC0 ∧ P (.plotkey page v) 0xC8
    let refused := fun (i : Instr) (off reason : Word) => ∃ t, exec i s = .next t ∧ records s t Err.hostWrite off reason
      ∧ t.own = s.own ∧ t.fab = s.fab ∧ t.cx = s.cx
    let held := fun (cls : Nat) (idx : Nat) => s.own.holder cls idx = o
    let k := field v 0 10
    (s.host.ready = false ∨ 4096 ≤ page → all fun i _ => exec i s = .next s)
    ∧ (s.host.ready = true → page < 4096 →
      (s.own.isLive o = false ∨ (s.own.ownerOr o).sponsor ≠ page ∨ page = 0 → all fun i off => refused i off 6)
      ∧ (s.own.isLive o = true → (s.own.ownerOr o).sponsor = page → page ≠ 0 →
        let root := v.toNat % 2^48 / 2^13 * 2^13
        (plotBacked (plotOf root) = true → held 3 (plotOf root) → ∃ t, exec (.trootWrite page v) s = .next t
          ∧ t.own.ownerOr o = { s.own.ownerOr o with troot := root } ∧ (∀ m, m ≠ o → t.own.ownerOr m = s.own.ownerOr m)
          ∧ t.own.entries = s.own.entries ∧ t.ms = s.ms ∧ t.cx = s.cx)
        ∧ (¬ held 3 (plotOf root) → refused (.trootWrite page v) 0x88 3)
        ∧ (held 6 k → ∃ t, exec (.mkeyidWrite page v) s = .next t ∧ t.own.ownerOr o = { s.own.ownerOr o with mkeyid := v.setWidth 10 }
          ∧ (∀ m, m ≠ o → t.own.ownerOr m = s.own.ownerOr m) ∧ t.own.entries = s.own.entries ∧ t.ms = s.ms ∧ t.cx = s.cx)
        ∧ (¬ held 6 k → refused (.mkeyidWrite page v) 0xA8 3 ∧ refused (.enrol page v) 0xC0 3)
        ∧ (held 9 (field v 0 8) → held 6 (field v 12 10) → ∃ t, exec (.vfset page v) s = .next t ∧ t.own = s.own ∧ t.ms = s.ms
          ∧ t.host.vf (field v 0 8) = { s.host.vf (field v 0 8) with
              owner := o, keyid := v.extractLsb' 12 10, weight := v.extractLsb' 24 5 }
          ∧ ∀ m, m ≠ field v 0 8 → t.host.vf m = s.host.vf m)
        ∧ (¬ held 9 (field v 0 8) → refused (.vfset page v) 0xB0 3)
        ∧ (held 6 k → ∃ t r, exec (.enrol page v) s = .next t ∧ t.fab.key? k = some r ∧ r.rate = field v 16 32 ∧ r.open_ = bitAt v 63
          ∧ (∀ m, m ≠ k → t.fab.key? m = s.fab.key? m) ∧ t.own = s.own ∧ t.ms = s.ms)
        ∧ (let p := field v 21 27
           let q := field v 48 10
           let e := s.own.entry 3 p
           (resourceExists 3 p = true → held 3 p → held 6 q → s.ms.mem.wf = true → ∃ t, exec (.plotkey page v) s = .next t
            ∧ t.own.entry 3 p = { e with mkey := q } ∧ (∀ j, j ≠ p → t.own.entry 3 j = s.own.entry 3 j)
            ∧ (∀ a, plotOf a ≠ p → readByte t.ms.mem a = readByte s.ms.mem a) ∧ (∀ a, isFull t.ms.mem a = isFull s.ms.mem a)
            ∧ (e.mkey = q → t.ms = s.ms))
           ∧ (¬ held 3 p → refused (.plotkey page v) 0xC8 3))))
    ∧ (∀ off, s.host.ready = true → page < 4096 → 0x800 ≤ off → off < 0x1000 →
        let g := (s.own.ownerOr page).mcsel
        let write := Instr.mcrecWrite page off v
        (s.own.holder 8 g ≠ page → refused write (wd off) 3)
        ∧ (s.own.holder 8 g = page → ∃ t, exec write s = .next t ∧ t.own = s.own ∧ t.ms = s.ms ∧ t.cx = s.cx
          ∧ (off = 0x800 → (t.fab.group g).word 0 = wd (v.toNat % 2^7)) ∧ (off = 0x808 → (t.fab.group g).word 8 = wd (v.toNat % 2^53))
          ∧ (∀ i, i < 64 → off = 0x810 + 16 * i → (t.fab.group g).node i = v.toNat % 2^11)
          ∧ (∀ i, i < 64 → off = 0x818 + 16 * i → (t.fab.group g).base i = (v.setWidth 53).signExtend 64)
          ∧ (∀ j, j % 8 = 0 → j ≠ (off - 0x800) / 8 * 8 → (t.fab.group g).word j = (s.fab.group g).word j)
          ∧ ∀ m, m ≠ g → t.fab.group m = s.fab.group m))) ∧
  (∀ (s : State) (page : Nat) (v : Word) (port : HostPort),
    let r := s.own.ownerOr page
    let o := r.cfgown
    let write := fun (off : Nat) => exec (.registerWrite (.page page) off v) s
    let sets := fun (off n : Nat) (x : OwnerRec) => ∃ t, write off = .next t ∧ t.own.ownerOr n = x
      ∧ (∀ m, m ≠ n → t.own.ownerOr m = s.own.ownerOr m) ∧ t.own.entries = s.own.entries ∧ t.ms = s.ms ∧ t.cx = s.cx ∧ t.host = s.host
    let active := s.host.active = (port == .portB)
    let pn : Fin 2 := if port = .portB then 1 else 0
    (s.host.ready = false → (∀ off, write off = .next s ∧ exec (.registerWrite (.pf port) off v) s = .next s)
      ∧ (∀ n off, exec (.registerWrite (.vf n) off v) s = .next s) ∧ exec (.leaseexpWrite port v) s = .next s)
    ∧ (s.host.ready = true → page < 4096 →
      sets 0x10 page { r with opA := v } ∧ sets 0x18 page { r with opB := v } ∧ sets 0x40 page { r with qsel := v.toNat % 2^12 }
      ∧ sets 0x80 page { r with cfgown := v.toNat % 2^12 } ∧ sets 0x100 page { r with mcsel := v.toNat % 2^12 }
      ∧ sets 0xD8 page { r with rcptbuf := BitVec.ofNat 53 (v.toNat % 2^53 / 2^10 * 2^10) }
      ∧ (s.own.isLive o = true → (s.own.ownerOr o).sponsor = page → page ≠ 0 →
          let q := s.own.ownerOr o
          sets 0x90 o { q with faultq := BitVec.ofNat 53 (v.toNat % 2^53 / 2^6 * 2^6) }
          ∧ sets 0x98 o { q with saveArea := BitVec.ofNat 53 (v.toNat % 2^53 / 2^6 * 2^6) }
          ∧ sets 0xA0 o { q with rwtab := v.toNat % 2^48 / 2^17 * 2^17 })
      ∧ write 0x88 = exec (.trootWrite page v) s ∧ write 0xA8 = exec (.mkeyidWrite page v) s ∧ write 0xB0 = exec (.vfset page v) s
      ∧ write 0xC0 = exec (.enrol page v) s ∧ write 0xC8 = exec (.plotkey page v) s
      ∧ write 0x48 = exec (.queueDescriptorWrite page r.qsel 0 v) s
      ∧ write 0x08 = .next s ∧ write 0x28 = .next s ∧ write 0x30 = .next s)
    ∧ (s.host.ready = true →
      (active → ∃ t, exec (.leaseexpWrite port v) s = .next t ∧ t.ms = s.ms ∧ t.own = s.own ∧ t.cx = s.cx
        ∧ ∀ p : Fin 2, t.host.ports[p] = { s.host.ports[p] with
            leaseExp := if v.toNat ≤ s.time + 1000000000 then v.toNat else s.time + 1000000000 })
      ∧ (¬ active → ∃ t, exec (.leaseexpWrite port v) s = .next t ∧ records s t Err.hostWrite 0x18 4
        ∧ ∀ p : Fin 2, t.host.ports[p].leaseExp = s.host.ports[p].leaseExp)
      ∧ (s.host.leased = true → s.host.ports[if s.host.active then (1 : Fin 2) else 0].leaseExp < s.time →
          exec .leaseExpire s = .next { s with host := { s.host with leased := false } })
      ∧ (s.time ≤ s.host.ports[if s.host.active then (1 : Fin 2) else 0].leaseExp → exec .leaseExpire s = .next s)
)
    ∧ (∃ t, exec (.vfEnableSet port) s = .next t ∧ t.host.ports[pn] = { s.host.ports[pn] with vfEnable := true } ∧ t.ms = s.ms
        ∧ t.own = s.own ∧ t.cx = s.cx ∧ t.host.vfs = s.host.vfs ∧ ∀ p : Fin 2, p ≠ pn → t.host.ports[p] = s.host.ports[p])
    ∧ (¬ active → ∃ t, exec (.vfEnableClear port) s = .next t ∧ t.host.ports[pn] = { s.host.ports[pn] with vfEnable := false }
        ∧ t.ms = s.ms ∧ t.own = s.own ∧ t.disp = s.disp)) ∧
  (∀ (s : State) (page n : Nat) (v : Word) (port : HostPort),
    let read := fun (t : State) (off : Nat) => t.readRegister (.page page) off
    let keeps := fun (off : Nat) (w : Word) => ∃ t, exec (.registerWrite (.page page) off v) s = .next t ∧ read t off = some w
    let idOf := wd (0x0C09 + 2^16 * Config.revision.toNat + 2^32 * s.node.toNat)
    let q := (s.own.ownerOr page).qsel
    (s.readRegister (.pf port) 0 = some idOf)
    ∧ (∀ w, s.readRegister (.pf port) 8 = some w → bitAt w 0 = s.host.ready ∧ bitAt w 1 = s.host.leased ∧ zeroAt w 3 61 = true)
    ∧ (s.host.ready = false → ∀ off, read s off = some 0 ∧ s.readRegister (.vf n) off = some 0
        ∧ (off ≠ 0 → off ≠ 8 → s.readRegister (.pf port) off = some 0))
    ∧ (s.host.ready = true → page < 4096 →
        keeps 0x10 v ∧ keeps 0x18 v ∧ keeps 0x40 (wd (v.toNat % 2^12)) ∧ keeps 0x80 (wd (v.toNat % 2^12))
        ∧ keeps 0x100 (wd (v.toNat % 2^12)) ∧ keeps 0xD8 (wd (v.toNat % 2^53 / 2^10 * 2^10)))
    ∧ (s.host.ready = true → read s 0x00 = some (wd (page % 2^12)) ∧ read s 0x28 = some (s.own.ownerOr page).opRes
        ∧ read s 0x30 = some (wd (boolNat (s.own.ownerOr page).opBusy))
        ∧ (∀ off ∈ [0x08, 0x20, 0x38, 0xB0, 0xB8, 0xC0, 0xC8, 0xD0, 0x198], read s off = some 0)
        ∧ (page ≠ 1 → ∀ off ∈ [0xE0, 0xE8, 0xF0, 0xF8, 0x180, 0x188, 0x190], read s off = some 0)
        ∧ (page = 1 → read s 0x180 = some (wd s.ms.move.mvsrc) ∧ read s 0x188 = some (wd s.ms.move.mvdst)
          ∧ read s 0x190 = some (wd ((if s.ms.move.size then 2 else 0) + (if s.ms.move.busy then 256 else 0)
              + if s.ms.move.done then 512 else 0)))
        ∧ (s.own.holder 4 q ≠ page → read s 0x48 = some 0 ∧ read s 0x50 = some 0 ∧ read s 0x58 = some 0)
        ∧ (∀ x, s.queue? q = some x → s.own.holder 4 q = page → read s 0x48 = some (x.base.setWidth 64)
          ∧ read s 0x58 = some (x.prog.setWidth 64))
        ∧ (∀ off, s.host.active ≠ (port == .portB) → off ∉ [0x00, 0x08, 0x10, 0x18] → s.readRegister (.pf port) off = none)))

/-- R280, R350, R291: an access of a live VF's CXL.mem window reads and writes the aligned word of its owner's space; through a VF that is not
live a read gives all ones and HOSTACCESS reason 1, a write is dropped, with at most one record a ms. Where other requests wait at the active port the access waits behind them, with its VF's weight. ATTEST on page 1 writes the time, the
hypervisor's measurement and the signature into a report body in a plot of owner 1, once no move holds its page; other pages ignore it. The word as the unit of a
window access, and that one is served at once where nothing waits, are the model's choice (log 61, log 103).

R349, R245: a doorbell that arrives while no lease holds waits until its nanosecond is over; then one on port A goes first, and the first
takes the lease over for its port: LEASEEXP 10^9 ns after it arrived, held interrupts and records delivered, a LEASE record.
That any doorbell counts, and that each stands until its nanosecond is over, is log 74.

R352, R353, R280: where the active port's VF Enable is cleared and with it an owner's last live VF, the running launches of its queues stop
at the context rung and its queues take ENABLE 0; once they have ended, and no move holds the receipt buffer, the owner is reported by
VFDISABLE, with the count of its VFs. That VALUE2 is METHOD where there is no receipt is the model's choice (log 112).
That owner 1's own page names its receipt, and that a buffer whose page is held is waited for, is log 76. -/
def Obligations.HostResults : Prop :=
  (∀ (s : State) (n : Nat) (addr v : Word),
    let f := s.host.vf n
    let a := addr &&& ~~~7
    let live := (s.liveVfs f.owner).any fun w => w.num == n
    let quiet := ∀ c ∈ s.fab.claims, c.arb ≠ hostArbiter s.host.active
    let body := (BitVec.ofNat 53 (v.toNat % 2^53 / 2^8 * 2^8)).signExtend 64
    (s.host.ready = false → exec (.cxlMemRead n addr) s = .next s ∧ exec (.cxlMemWrite n addr v) s = .next s
      ∧ ∀ page, exec (.attest page v) s = .next s)
    ∧ (s.host.ready = true → ¬ quiet → ∃ t c, exec (.cxlMemRead n addr) s = .next t ∧ t.fab.claims = s.fab.claims ++ [(c : Claim)]
        ∧ c.cargo = .window n addr none ∧ c.weight = s.vfWeight n ∧ c.arrived = s.fab.clock ∧ t.ms = s.ms ∧ t.host = s.host)
    ∧ (s.host.ready = true → quiet → live = true → a.toNat < 2^36 → s.ms.move.done = false → ∀ pa,
      (engineLands s f.owner .load a pa → ∃ t, exec (.cxlMemRead n addr) s = .next t ∧ t.ms.mem = s.ms.mem ∧ t.cx = s.cx
        ∧ t.host = { s.host with reads := s.host.reads ++ [wd (readLE s.ms.mem pa 8)] })
      ∧ (engineLands s f.owner .store a pa → s.ms.mem.wf = true → ∃ t, exec (.cxlMemWrite n addr v) s = .next t
        ∧ storesBytes pa (leBytes 8 v.toNat) s t ∧ t.cx = s.cx ∧ t.host = s.host))
    ∧ (s.host.ready = true → quiet → live = false →
      (∃ t, exec (.cxlMemRead n addr) s = .next t ∧ t.host.reads = s.host.reads ++ [BitVec.allOnes 64] ∧ t.cx = s.cx
        ∧ ((s.host.accessAt.find? fun e => e.1 == n) = none → records s t Err.hostAccess addr 1))
      ∧ (∀ e, (s.host.accessAt.find? fun e => e.1 == n) = some e → s.time < e.2 + 1000000 → exec (.cxlMemWrite n addr v) s = .next s))
    ∧ (∀ page, page ≠ 1 → exec (.attest page v) s = .next s)
    ∧ (∀ pa l, s.host.ready = true → s.own.isLive 1 = true → translate s.ms s.tick (s.own.ownerOr 1) body .store = .at pa l →
        hostSpace pa = false → pteRepl l.entry = false → s.ms.movingAt pa = true →
        exec (.attest 1 v) s = .next { s with mgmt := { s.mgmt with attests := s.mgmt.attests ++ [v] } })
    ∧ (∀ pa, s.host.ready = true → s.own.isLive 1 = true → s.ms.move.done = false → s.ms.mem.wf = true → s.ms.pending = [] →
        engineLands s 1 .store body pa → engineLands s 1 .load body pa → tablesApart s 1 body pa 256 →
        (s.own.holder 3 (plotOf pa) ≠ 1 → exec (.attest 1 v) s = .next s)
        ∧ (s.own.holder 3 (plotOf pa) = 1 → ∃ t, exec (.attest 1 v) s = .next t ∧ t.cx = s.cx ∧ sameOutside pa 256 s t
          ∧ readLE t.ms.mem (pa + 0x10) 8 = s.time % 2^64 ∧ readBytes t.ms.mem (pa + 0x78) 32 = padBytes 32 s.hvMeasure
          ∧ readBytes t.ms.mem (pa + 0xC0) 64 = padBytes 64 (Config.sm2Sign s.hvMeasure (readBytes t.ms.mem pa 0xC0))))) ∧
  (∀ (s : State), s.host.leased = false →
    (∀ port owner q tail, s.host.ready = true → q < 4096 → exec (.doorbell port owner q tail) s = .next { s with
        host := { s.host with bells := s.host.bells ++ [⟨port == .portB, owner, q, tail, s.time⟩] } })
    ∧ ((∀ b ∈ s.host.bells, s.time ≤ b.time) → s.ringBells = s)
    ∧ (∀ b, s.host.bells = [b] → b.time < s.time → let t := s.ringBells
        t.host.leased = true ∧ t.host.active = b.portB ∧ (∀ p : Fin 2, t.host.ports[p].leaseExp = b.time + 1000000000)
        ∧ t.host.bells = [] ∧ t.host.heldMsix = [] ∧ t.host.heldErrs = []
        ∧ ∃ e l, t.disp.errors = s.disp.errors ++ (e : ErrRec) :: l ∧ e.cls = Err.lease ∧ e.addr = wd (boolNat b.portB) ∧ e.val2 = wd b.time)
    ∧ ((∀ b ∈ s.host.bells, b.time < s.time) → (∃ b ∈ s.host.bells, b.portB = false) → s.ringBells.host.active = false)) ∧
  (∀ (s : State),
    (∀ f port, s.host.active = (port == .portB) → s.host.vfs = [f] → f.owner ≠ 0 →
      s.host.ports[if port = .portB then (1 : Fin 2) else 0].vfEnable = true → s.live →
        ∃ t, exec (.vfEnableClear port) s = .next t ∧ t.host.ports[if port = .portB then (1 : Fin 2) else 0].vfEnable = false
        ∧ (f.owner, 1) ∈ t.host.losing ∧ (∀ q ∈ t.disp.queues, s.own.holder 4 q.num = f.owner → q.enable = false)
        ∧ ((∃ l ∈ s.disp.launches, l.num = s.rk.key.launch ∧ l.state = .running ∧ s.own.holder 4 l.queue = f.owner) → t.cx.run = .stopped))
    ∧ (∀ o n, s.host.losing = [(o, n)] → o ≠ 0 →
        let dest := if o = 1 then 1 else (s.own.ownerOr o).sponsor
        ((∃ l ∈ s.disp.launches, l.state = .running ∧ s.own.holder 4 l.queue = o) ∨ s.receiptPlace dest = .held → s.endLosing = s)
        ∧ ((∀ l ∈ s.disp.launches, ¬ (l.state = .running ∧ s.own.holder 4 l.queue = o)) → s.receiptPlace dest ≠ .held →
          (∀ cls idx, s.own.holder cls idx ≠ o) → s.endLosing.host.losing = []
          ∧ ∃ e, s.endLosing.disp.errors = s.disp.errors ++ [(e : ErrRec)] ∧ e.cls = Err.vfDisable ∧ e.owner = o ∧ e.addr = wd o
            ∧ e.val1 = wd n ∧ e.val2 = (if s.receiptPlace dest = .ok then wd s.time else 0))))

/-! ### Power, trust and the scriptorium (02 R24, R30, R31; 12 R253; 14 R293 to R296; 20 R354, R356) -/

/-- R31, R253, R30, R356: a limit above its ceiling is stored as the ceiling; the limiter takes 1/16 of duty away while a limit is exceeded,
never below half, and gives it back otherwise (log 14); an arbiter serves the oldest request, the lowest port on ties, whose flits take its
port's numbers and replay buffer, once that port has no flit to replay, and the blocks that have waited past TIME + 1.5 µs are gone (R272); an
attempt of firmware past a bound has no effect but its FWBOUND record, a read of memory answering zero; its packets go one after another, each
of their flits of 72 bytes at 1% of a port, and one that the limiter holds, or that comes behind one that it holds, is held and recorded. That a
packet is held without a record for a dead link or a full replay buffer, and that a refused bind record which names cores of another has a
FWBOUND record beside BINDREFUSED, is log 77. -/
def Obligations.ManagementResults : Prop :=
  ∀ (s : State) (v draw temp : Nat),
    let above := s.mgmt.drawLimit < draw ∨ s.mgmt.tempLimit < temp
    (exec (.powerLimitWrite .draw v) s = .next { s with mgmt := { s.mgmt with drawLimit := if v ≤ 3200 then v else 3200 } })
    ∧ (v ≤ Config.temperatureCeiling → exec (.powerLimitWrite .temperature v) s = .next { s with mgmt := { s.mgmt with tempLimit := v } })
    ∧ (Config.temperatureCeiling ≤ v → exec (.powerLimitWrite .temperature v) s
        = .next { s with mgmt := { s.mgmt with tempLimit := Config.temperatureCeiling } })
    ∧ (8 ≤ s.mgmt.duty → s.mgmt.duty ≤ 16 → ∃ t, exec (.powerMeasure draw temp) s = .next t
        ∧ t = { s with mgmt := { s.mgmt with draw := draw, temp := temp, duty := t.mgmt.duty } }
        ∧ (above → s.mgmt.duty = 8 → t.mgmt.duty = 8) ∧ (above → 8 < s.mgmt.duty → t.mgmt.duty + 1 = s.mgmt.duty)
        ∧ (¬ above → s.mgmt.duty < 16 → t.mgmt.duty = s.mgmt.duty + 1) ∧ (¬ above → s.mgmt.duty = 16 → t.mgmt.duty = 16))
    ∧ (∀ arb q, q ∈ s.fab.requests → q.block ≠ none → q.time + 1500 < s.time → (∃ c ∈ s.fab.claims, c.arb = arb ∧ c.cargo = .packet q.id) →
        (s.fab.requests.map Request.id).Nodup → q.id < s.fab.nextId →
        ∃ t, exec (.arbiterGrant arb) s = .next t ∧ ∀ r ∈ t.fab.requests, r.id ≠ q.id)
    ∧ (∀ arb, (∀ q ∈ s.fab.requests, q.block ≠ none → q.time + 1500 < s.time → ∀ c ∈ s.fab.claims, c.arb = arb → c.cargo ≠ .packet q.id) →
        let mine := s.fab.claims.filter fun c => c.arb == arb
        let p := s.fab.port arb
        (arb < 36 → p.again ≠ [] → exec (.arbiterGrant arb) s = .next { s with fab := s.fab.setPort { p with again := p.again.drop 1 } })
        ∧ (36 ≤ arb ∨ p.again = [] →
          (mine = [] → exec (.arbiterGrant arb) s = .next s)
          ∧ (mine ≠ [] → ∃ c ∈ mine,
            (∀ d ∈ mine, d.age s.fab.clock < c.age s.fab.clock ∨ (d.age s.fab.clock = c.age s.fab.clock ∧ c.port ≤ d.port))
            ∧ (arb < 36 → p.holds c.flits = false → exec (.arbiterGrant arb) s = .next s)
            ∧ (36 ≤ arb ∨ p.holds c.flits = true → (∀ vf addr data, c.cargo ≠ .window vf addr data) →
              (∀ id q, c.cargo = .packet id → s.fab.request? id = some q → q.block = none) →
              ∃ t, exec (.arbiterGrant arb) s = .next t ∧ t.ms = s.ms ∧ t.cx = s.cx ∧ getAt 0 arb t.fab.grants = c.port
              ∧ (∃ l r, s.fab.claims = l ++ c :: r ∧ t.fab.claims = l ++ r)
              ∧ (arb < 36 → (t.fab.port arb).replay.length = p.replay.length + (c.flits.filter fun f => f.cls != 1).length)))))
    ∧ (∀ write addr, (fwPasses write addr = true → exec (.fwbound (.memory write addr)) s = .next s)
        ∧ (fwPasses write addr = false → ∃ t, exec (.fwbound (.memory write addr)) s = .next t
          ∧ records s t Err.fwBound (wd addr) 1 ∧ t.mgmt.fwReads = s.mgmt.fwReads ++ (if write then [] else [0]) ∧ t.ms = s.ms))
    ∧ (∀ port bytes, let p := s.fab.port port
        let takes := p.dead = false ∧ p.replay.length ≤ 447
        let due := takes ∧ p.fwFree ≤ 100 * s.time ∧ p.fwHeld = []
        let excess := 100 * s.time < p.fwFree ∨ (p.fwHeld ≠ [] ∧ takes)
        (s.fab.portActive port = false → exec (.fwbound (.classTraffic port bytes)) s = .next s)
        ∧ (s.fab.portActive port = true → due → ∃ t, exec (.fwbound (.classTraffic port bytes)) s = .next t
          ∧ (t.fab.port port).fwFree = 100 * s.time + 72 * (1 + Nat.max 1 ((bytes + 63) / 64)) * 10000 / 112 ∧ (t.fab.port port).fwHeld = [] ∧ t.disp = s.disp)
        ∧ (s.fab.portActive port = true → ¬ due → ∃ t, exec (.fwbound (.classTraffic port bytes)) s = .next t
          ∧ (t.fab.port port).fwHeld = p.fwHeld ++ [bytes] ∧ t.fab.requests = s.fab.requests ∧ t.ms = s.ms
          ∧ (excess → records s t Err.fwBound (wd port) 3) ∧ (¬ excess → t.disp = s.disp)))
    ∧ (∀ addr, Config.inFirmwareWindow addr = true → exec (.fwbound (.hostDma addr)) s = .next s)
    ∧ (∀ addr, Config.inFirmwareWindow addr = false → ∃ t, exec (.fwbound (.hostDma addr)) s = .next t
        ∧ records s t Err.fwBound (wd addr) 4 ∧ t.ms = s.ms)
    ∧ (∀ slot b, slot < 4096 → s.bindOk slot b = false → ∃ t e more, exec (.fwbound (.bind slot b)) s = .next t
        ∧ t.disp.errors = s.disp.errors ++ (e : ErrRec) :: more ∧ e.cls = Err.bindRefused ∧ t.disp.slots = s.disp.slots
        ∧ ((∃ c ∈ b.cores, s.own.holder 0x01 c ≠ b.owner) → ∃ f, more = [(f : ErrRec)] ∧ f.cls = Err.fwBound ∧ f.addr = wd slot ∧ f.val1 = 2)
        ∧ ((∀ c ∈ b.cores, s.own.holder 0x01 c = b.owner ∧ c < 1536) → more = []))

/-- R293, R294, R296: a logging interval of 1 µs ends in one record of 32 bytes for each tuple, each put into the ring or counted as dropped; a
seal, once a ms, chains the records since the last one and starts the count of dropped ones again; SPDM answers once bring-up has reached its
step 2, and agrees on SM2_P256 and SM3_256 alone. The layouts, and where in the ring an entry lies, are free values (log 62). -/
def Obligations.TrustResults : Prop :=
  ∀ (s : State),
    let l := s.log
    let answers := fun (i : Instr) (b : List Byte) =>
      (s.mgmt.stage = 0 → exec i s = .next s)
      ∧ (1 ≤ s.mgmt.stage → exec i s = .next { s with mgmt := { s.mgmt with spdm := s.mgmt.spdm ++ [b] } })
    let over_ := l.tuples.filter fun q => decide (q.start + 1000 ≤ s.time)
    let chain := l.records.foldl (fun c r => sm3 (c ++ r)) l.chain
    let entry := Config.logSeal chain (Config.sm2Sign s.hvMeasure (chain ++ leBytes 8 l.dropped)) l.dropped
    (over_ = [] → exec .accessLogInterval s = .next s)
    ∧ (over_ ≠ [] → ∃ t, exec .accessLogInterval s = .next t ∧ t.cx = s.cx ∧ (∀ q ∈ t.log.tuples, s.time < q.start + 1000)
        ∧ t.own = s.own ∧ t.log.records.length + t.log.dropped = l.records.length + l.dropped + over_.length
        ∧ l.records = t.log.records.take l.records.length ∧ ∀ r ∈ t.log.records.drop l.records.length, r.length = 32)
    ∧ (s.time < l.sealAt + 1000000 ∨ s.logPlace entry.length = none → exec .logSeal s = .next s)
    ∧ (l.sealAt + 1000000 ≤ s.time → s.logPlace entry.length ≠ none → ∃ t, exec .logSeal s = .next t ∧ t.cx = s.cx ∧ t.log.records = []
        ∧ t.log.chain = chain ∧ t.log.dropped = 0 ∧ t.log.put = l.put + 1 ∧ t.log.sealAt = s.time / 1000000 * 1000000)
    ∧ answers .getVersion (Config.spdmBody 0x84 0) ∧ answers .getCapabilities (Config.spdmBody 0xE1 0)
    ∧ (1 ≤ s.mgmt.stage → exec .negotiateAlgorithms s = .next { s with mgmt := { s.mgmt with
        agreed := some (.sm2P256, .sm3_256), spdm := s.mgmt.spdm ++ [Config.spdmBody 0xE3 0] } })
    ∧ (s.mgmt.stage = 0 → exec .negotiateAlgorithms s = .next s) ∧ answers .getDigests (Config.spdmBody 0x81 0)
    ∧ (∀ slot, answers (.getCertificate slot) (Config.spdmBody 0x82 slot))
    ∧ (∀ nonce : Word, answers (.challenge nonce)
        (Config.spdmBody 0x83 0 ++ Config.sm2Sign s.hvMeasure (leBytes 8 nonce.toNat)))
    ∧ (∀ ix : Fin 8, answers (.getMeasurements ix.val) (Config.spdmBody 0xE0 ix.val ++ registerBytes s.mgmt.measured[ix]))

/-- R24, R130, R354: an access of a scriptorium core of an owner with one that runs acts at once on device memory: a load, a store, an
atomic, an LR, which reserves its line, an SC, which stores and gives 0 while its core's reservation stands and else gives 1, a fence. A clean line lost is refetched, with SCRCACHE reason 1; a dirty one of owner p ≠ 1 stops p's scriptorium cores (reason 2);
one of owner 1 or outside device memory ends the device (reason 3). The translation is that of the owner's
tables, each access is performed at once, and the reservation is of a line, by log 79. -/
def Obligations.ScriptoriumResults : Prop :=
  ∀ (s : State) (o : Nat) (va data cmp : Word) (n op pa line k : Nat) (aq rl : Bool),
    let access := fun (a : ScrAccess) => exec (.scriptoriumAccess a) s
    let runs := s.scriptRuns o = true ∧ s.host.ready = true
    let sized := (n = 1 ∨ n = 2 ∨ n = 4 ∨ n = 8) ∧ va.toNat % n = 0
    let a := lineOf line
    let p := if backed a then s.own.holder 3 (plotOf a) else 1
    ((s.scriptRuns o = false ∨ s.host.ready = false) → access (.load o va n) = .next s ∧ access (.store o va n data) = .next s
        ∧ access (.amo o va n op data cmp aq rl) = .next s
        ∧ access (.lr k o va n aq rl) = .next s ∧ access (.sc k o va n data aq rl) = .next s)
    ∧ (runs → sized → s.ms.move.done = false → s.ms.mem.wf = true → s.ms.pending = [] →
      (engineLands s o .load va pa → ∃ t, access (.load o va n) = .next t ∧ t.ms.mem = s.ms.mem ∧ t.cx = s.cx
        ∧ t.scr.loads = s.scr.loads ++ [wd (readLE s.ms.mem pa n)])
      ∧ (engineLands s o .store va pa → ∃ t, access (.store o va n data) = .next t ∧ storesBytes pa (leBytes n data.toNat) s t ∧ t.cx = s.cx
        ∧ t.scr.loads = s.scr.loads ∧ ∃ d ∈ t.scr.dirty, d.1 = lineOf pa)
      ∧ (engineLands s o .atomic va pa → (op = 0 ∨ op = 1 ∨ op = 9) → ∃ t, access (.amo o va n op data cmp aq rl) = .next t ∧ t.cx = s.cx
        ∧ (let old := readLE s.ms.mem pa n
           t.scr.loads = s.scr.loads ++ [wd old] ∧ sameOutside pa n s t
           ∧ readLE t.ms.mem pa n = (if op = 0 then data.toNat % 256^n else if op = 1 then (old + data.toNat) % 256^n
              else if old = cmp.toNat % 256^n then data.toNat % 256^n else old)))
      ∧ (engineLands s o .load va pa → ∃ t, access (.lr k o va n aq rl) = .next t ∧ t.ms.mem = s.ms.mem ∧ t.cx = s.cx
        ∧ t.scr.loads = s.scr.loads ++ [wd (readLE s.ms.mem pa n)] ∧ (k, lineOf pa) ∈ t.scr.reserved)
      ∧ (engineLands s o .store va pa →
        ((k, lineOf pa) ∈ s.scr.reserved → ∃ t, access (.sc k o va n data aq rl) = .next t ∧ storesBytes pa (leBytes n data.toNat) s t
          ∧ t.cx = s.cx ∧ t.scr.loads = s.scr.loads ++ [0])
        ∧ ((k, lineOf pa) ∉ s.scr.reserved → ∃ t, access (.sc k o va n data aq rl) = .next t ∧ t.ms = s.ms ∧ t.cx = s.cx
          ∧ t.scr.loads = s.scr.loads ++ [1])))
    ∧ (s.host.ready = true → ∃ t, access .fence = .next t ∧ t.ms.pending = [] ∧ t.cx = s.cx ∧ (s.ms.pending = [] → t = s))
    ∧ (s.host.ready = false → ∀ d, exec (.scrcache line d) s = .next s)
    ∧ (s.host.ready = true →
      (∃ t, exec (.scrcache line false) s = .next t ∧ records s t Err.scrCache (wd a) 1 ∧ t.cx = s.cx ∧ a ∉ t.scr.lines)
      ∧ (p = 1 → ∃ t e, exec (.scrcache line true) s = .next t ∧ t.host.ready = false ∧ t.disp.errors.getLast? = some e
        ∧ e.cls = Err.scrCache ∧ e.addr = wd a ∧ e.val1 = 3)
      ∧ (p ≠ 1 → (∀ l ∈ s.disp.launches, l.state ≠ .running) → (∀ cls ix, cls ≠ 3 → cls ≠ 11 → s.own.holder cls ix ≠ p) →
        ∃ t e, exec (.scrcache line true) s = .next t ∧ t.disp.errors.getLast? = some e ∧ e.cls = Err.scrCache ∧ e.addr = wd a
        ∧ e.val1 = 2 ∧ e.val2 = wd p ∧ ∀ i, i < 16 → s.own.holder 11 i = p → i ∈ t.scr.stopped))

/-! ### The fabric (13 R261 to R278; 20 R343 to R348; 21 R357, R358; 11 R229 to R233) -/

/-- R230, R347: `stmc` traps OPERAND on an offset not aligned to 8 or past the group's size and on a group word of more than 12 bits, RESOURCE
where the owner does not hold the group. A group of this module alone is stored at once, with 0 in X[D]; the members of other modules are sent
a packet, and the failure bitmap of the reply comes to X[D]. The request has a copy for each member, with the member's module and address; as it enters the
fabric each copy has an encryption counter of its own. From TIME + 7 µs on a router may mark a branch; from TIME + 8 µs on the wait ends, with
every member failed where no branch was ever named. -/
def Obligations.MulticastResults : Prop :=
  ∀ (s : State) (d a b : Reg) (la : Fin 16),
    let off := s.x a
    let grp := field (s.x b) 0 12
    let g := s.fab.group grp
    let i := Instr.stmc d a b la
    let fresh := s.cx.answer = none ∧ s.awaiting = false
    let sound := off.toNat % 8 = 0 ∧ (s.x b).toNat < 4096 ∧ off.toNat + 8 ≤ g.size ∧ s.own.holder 8 grp = s.owner
    (fresh → off.toNat % 8 ≠ 0 → exec i s = .next (s.trap Cause.operand off))
    ∧ (fresh → off.toNat % 8 = 0 → 4096 ≤ (s.x b).toNat → exec i s = .next (s.trap Cause.operand (s.x b)))
    ∧ (fresh → off.toNat % 8 = 0 → (s.x b).toNat < 4096 → g.size < off.toNat + 8 → exec i s = .next (s.trap Cause.operand off))
    ∧ (fresh → off.toNat % 8 = 0 → (s.x b).toNat < 4096 → off.toNat + 8 ≤ g.size → s.own.holder 8 grp ≠ s.owner →
        exec i s = .next (s.trap Cause.resource (wd (8 * 2^56 + grp))))
    ∧ (∀ pa, fresh → sound → s.rk.id.dual = false → g.members = 1 → g.node 0 = s.node.toNat → s.ms.move.done = false →
        s.ms.mem.wf = true → engineLands s (s.keyOwner s.cx.cr.keyid.toNat) .store (g.base 0 + off) pa → pa % 8 = 0 → ∃ t,
        exec i s = .next t ∧ movedOn s t ∧ t.cx.x = (s.setX d 0).cx.x ∧ storesBytes pa (leBytes 8 (s.x d).toNat) s t
        ∧ t.fab.requests = s.fab.requests)
    ∧ (fresh → sound → s.rk.id.dual = false → 0 < g.members → (∀ k, k < g.members → g.node k ≠ s.node.toNat) →
        (∀ q ∈ s.fab.requests, q.id < s.fab.nextId) → ∃ t q, exec i s = .next t
        ∧ t.cx = { s.cx with wait := .remote s.fab.nextId } ∧ t.ms = s.ms ∧ t.fab.requests = s.fab.requests ++ [(q : Request)] ∧ q.kind = .multicast
        ∧ q.dest = grp ∧ q.addr = off ∧ q.data = s.x d ∧ q.local_ = wd (2^g.members - 1) ∧ q.keyid = s.cx.cr.keyid ∧ q.injected = false
        ∧ q.failed = 0 ∧ q.nodes = (List.range g.members).map g.node
        ∧ q.copies.map (fun c => (c.member, c.node, c.addr)) = (List.range g.members).map fun k => (k, g.node k, g.base k + off))
    ∧ (∀ v, s.cx.answer = some v → exec i s = .next (s.setX d v).advance)
    ∧ (∀ id q, s.fab.request? id = some q → q.kind = .multicast →
      (q.injected = false → ∀ w, exec (.stmcReply id w) s = .next s ∧ exec (.stmcAckTimeout id w) s = .next s)
      ∧ (s.fab.left q = false → ∀ w, exec (.stmcReply id w) s = .next s)
      ∧ (∀ k : FabricKey, q.injected = false → s.fab.keyBusy q = false → (∀ m, bitAt q.local_ m = true → s.fab.reachable (q.nodes.getD m 0) = true) →
        s.fab.key? q.keyid.toNat = some k → 8 ≤ (k.refilled s.time).tokens → ∃ t r, exec (.packetInject id) s = .next t ∧ t.cx = s.cx ∧ t.ms = s.ms
        ∧ t.fab.request? id = some (r : Request) ∧ r.injected = true ∧ r.time = s.time ∧ r.failed = q.failed ||| 0
        ∧ r.copies.map (fun c => (c.member, c.node, c.addr, c.pseq)) = q.copies.map (fun c => (c.member, c.node, c.addr, c.pseq))
        ∧ (∀ n c, r.copies[n]? = some c → c.ivc = k.ivc + n + 1)
        ∧ t.fab.key? q.keyid.toNat = some { k.refilled s.time with
          tokens := (k.refilled s.time).tokens - 8, ivc := k.ivc + q.copies.length })
      ∧ (q.injected = true → s.live → q.issuer = .multicast s.rk.key s.rk.run s.cx.num → s.cx.wait = .remote id → ∀ w,
        let ended := fun (i : Instr) (bad : Word) => ∃ t, exec i s = .next t ∧ t.cx = { s.cx with answer := some (q.failed ||| bad) }
          ∧ t.ms = s.ms ∧ ∀ r ∈ t.fab.requests, r.id ≠ id
        (s.fab.left q = true → ended (.stmcReply id w) (w &&& q.local_))
        ∧ (s.time < q.time + 7000 → exec (.stmcAckTimeout id w) s = .next s)
        ∧ (q.time + 7000 ≤ s.time → s.time < q.time + 8000 → ∃ t, exec (.stmcAckTimeout id w) s = .next t ∧ t.cx = s.cx
          ∧ t.fab.request? id = some { q with
            failed := q.failed ||| (w &&& q.local_), marked := q.marked || w &&& q.local_ != 0 })
        ∧ (q.time + 8000 ≤ s.time → q.marked = true ∨ w &&& q.local_ ≠ 0 → ended (.stmcAckTimeout id w) (w &&& q.local_))
        ∧ (q.time + 8000 ≤ s.time → q.marked = false → w &&& q.local_ = 0 → ended (.stmcAckTimeout id w) q.local_)))

/-- R253, R264, R266, R267, R269, R272, R344 to R346: an exact packet enters on the entry R266 chooses once its rate and order allow, with its
TIME, and waits at that entry's port; one whose destination has no live path is answered UNREACH. A lossy transfer enters whole, with one TIME
for all of its blocks. A completion that comes once the packet has left answers the load or the full/empty access that waits for it; a failed
one, or none by the deadline on a core that is not halted, makes a load trap FABRIC with a REMOTE record, a full/empty access FEWAIT (FABRIC
where its status is neither TOOLATE nor NOANSWER), and is kept as the context's lost store where it was a store's. A packet without a
completion after 5 µs goes again, once, by the lowest other live entry, under a new counter (log 126: which entry, and once); status 2 is the
FEWAIT of a full/empty access by log 99. -/
def Obligations.RequestResults : Prop :=
  ∀ (s : State) (id : Nat) (q : Request), s.fab.request? id = some q →
    let queued := fun (e : Nat) => s.fab.queuedAt (outPort q.dest e)
    let waitsAt := fun (t : State) (e : Nat) => ∃ fl, t.fab.claims = s.fab.claims ++ [⟨outPort q.dest e, Config.localPort, s.weightOf q, s.fab.clock,
      .packet id, fl⟩] ∧ fl.length = 1 + Nat.max 1 ((q.bytes + 63) / 64) ∧ ∀ f ∈ fl, f.keyid = q.keyid.toNat ∧ f.cls = 0 ∧ f.weight = s.weightOf q
    let live := s.fab.entryLive q.dest
    let gone := fun (t : State) => ∀ r ∈ t.fab.requests, r.id ≠ id
    let waits := handles s ∧ s.cx.wait = .remote id
    let isLoad := q.issuer = .load s.rk.key s.rk.run s.cx.num
    let isFe := q.issuer = .fullEmpty s.rk.key s.rk.run s.cx.num
    let isStore := q.issuer = .store s.rk.key s.rk.run s.cx.num
    let failed := fun (i : Instr) (status : Nat) (cause : BitVec 8) => ∃ t e, exec i s = .next t ∧ tookTrap s t cause q.local_
      ∧ gone t ∧ t.disp.errors = s.disp.errors ++ [(e : ErrRec)] ∧ e.cls = Err.remote ∧ e.addr = q.local_ ∧ e.val1 = wd status ∧ e.val2 = wd q.dest
    (q.injected = true → exec (.packetInject id) s = .next s)
    ∧ (q.injected = false → q.kind ≠ .multicast → q.block = none →
      (s.fab.keyBusy q = true → exec (.packetInject id) s = .next s)
      ∧ (∀ k, s.fab.keyBusy q = false → s.fab.reachable q.dest = true → s.fab.key? q.keyid.toNat = some k →
        q.bytes ≤ (k.refilled s.time).tokens → ∃ e t, exec (.packetInject id) s = .next t ∧ t.cx = s.cx ∧ t.ms = s.ms ∧ e < 5
        ∧ live e = true ∧ (e = 0 → ∀ j, 1 ≤ j → j < 5 → live j = true → queued 0 ≤ 2 * queued j)
        ∧ (e ≠ 0 → (∀ j, 1 ≤ j → j < 5 → live j = true → queued e ≤ queued j ∧ (queued e = queued j → e ≤ j))
          ∧ (live 0 = true → 2 * queued e < queued 0))
        ∧ waitsAt t e
        ∧ t.fab.request? id = some { q with injected := true, entry := e, via := viaNode q.dest e, time := s.time
                                            deadline := q.deadline + (s.time - q.time), ivc := k.ivc + 1, weight := s.weightOf q }
        ∧ t.fab.key? q.keyid.toNat = some { k.refilled s.time with tokens := (k.refilled s.time).tokens - q.bytes, ivc := k.ivc + 1 })
      ∧ ((∀ e, e < 5 → live e = false) → s.fab.keyBusy q = false → waits → isLoad → failed (.packetInject id) 1 Cause.fabric))
    ∧ (∀ xfer blk nblk, q.injected = false → q.kind ≠ .multicast → q.block = some (xfer, blk, nblk) →
      let mine := s.fab.requests.filter (Request.inTransfer xfer)
      (mine.length < nblk → exec (.packetInject id) s = .next s)
      ∧ (∀ k, nblk ≤ mine.length → s.fab.key? q.keyid.toNat = some k → (mine.map Request.bytes).sum ≤ (k.refilled s.time).tokens →
        (∃ e, e < 5 ∧ live e = true) → ∃ t, exec (.packetInject id) s = .next t ∧ t.cx = s.cx ∧ t.ms = s.ms
        ∧ (t.fab.requests.filter (Request.inTransfer xfer)).length = mine.length
        ∧ ∀ r ∈ t.fab.requests, r.inTransfer xfer = true → r.injected = true ∧ r.time = s.time ∧ live r.entry = true
          ∧ ∀ j, j < r.entry → live j = false))
    ∧ (q.injected = false → ∀ st v, exec (.remoteCompletion id st v) s = .next s ∧ exec (.remoteDeadline id) s = .next s
        ∧ exec (.packetResend id) s = .next s)
    ∧ (s.fab.left q = false → ∀ st v, exec (.remoteCompletion id st v) s = .next s)
    ∧ (s.fab.left q = true →
      (∀ v, waits → isLoad ∨ isFe → ∃ t, exec (.remoteCompletion id 0 v) s = .next t ∧ t.cx = { s.cx with answer := some v } ∧ gone t
        ∧ t.ms = s.ms)
      ∧ (∀ v st, waits → 0 < st → st < 7 → (isLoad → failed (.remoteCompletion id st v) st Cause.fabric)
        ∧ (isFe → failed (.remoteCompletion id st v) st (if st = 2 then Cause.feWait else Cause.fabric)))
      ∧ (∀ v, isStore → ∃ t, exec (.remoteCompletion id 0 v) s = .next t ∧ t.cx = s.cx ∧ gone t ∧ t.ms = s.ms)
      ∧ (∀ v st, s.live → isStore → 0 < st → st < 7 → ∃ t, exec (.remoteCompletion id st v) s = .next t ∧ gone t
        ∧ t.cx = { s.cx with lost := some (s.cx.lost.getD q.local_) }))
    ∧ (q.injected = true →
      (s.time < q.deadline → exec (.remoteDeadline id) s = .next s)
      ∧ (waits → s.co.halted = true → isLoad ∨ isFe → exec (.remoteDeadline id) s = .next s)
      ∧ (q.deadline ≤ s.time → waits → s.co.halted = false → (isLoad → failed (.remoteDeadline id) 7 Cause.fabric)
        ∧ (isFe → failed (.remoteDeadline id) 7 Cause.feWait))
      ∧ (∀ k : FabricKey, q.host = false → q.block = none → q.resent = false → q.time + 5000 ≤ s.time → s.fab.key? q.keyid.toNat = some k →
        (∀ c, q.kind = .multicast → q.copies = [c] → ∀ e, s.fab.otherEntry c.node c.entry = some e → ∃ t r, exec (.packetResend id) s = .next t
          ∧ t.cx = s.cx ∧ t.ms = s.ms ∧ t.fab.request? id = some (r : Request) ∧ r.resent = true ∧ r.time = q.time
          ∧ r.copies = [{ c with entry := e, via := viaNode c.node e, ivc := k.ivc + 1 }]
          ∧ t.fab.key? q.keyid.toNat = some { k.refilled s.time with ivc := k.ivc + 1 }
          ∧ ∀ x ∈ t.fab.claims, x.cargo = .packet id → x.arb = outPort c.node e)
        ∧ (q.kind ≠ .multicast → (∀ e, e < 5 → e ≠ q.entry → live e = false) → exec (.packetResend id) s = .next s)
        ∧ ∀ e, q.kind ≠ .multicast → e < 5 → e ≠ q.entry →
        live e = true → (∀ j, j < e → j = q.entry ∨ live j = false) → ∃ t, exec (.packetResend id) s = .next t ∧ t.cx = s.cx ∧ t.ms = s.ms
        ∧ t.fab.request? id = some { q with entry := e, via := viaNode q.dest e, ivc := k.ivc + 1, resent := true }
        ∧ t.fab.key? q.keyid.toNat = some { k.refilled s.time with ivc := k.ivc + 1 }
        ∧ (∃ c ∈ t.fab.claims, c.cargo = .packet id) ∧ ∀ c ∈ t.fab.claims, c.cargo = .packet id → c.arb = outPort q.dest e)
      ∧ (s.time < q.time + 5000 ∨ q.resent = true ∨ q.host = true ∨ q.block ≠ none ∨ s.fab.key? q.keyid.toNat = none →
        exec (.packetResend id) s = .next s))

/-- R345, R346, R267, R344, R278: a peer's request is answered TOOLATE, BADKEY, or with what its translation under the key's owner meets;
one that serves reads, writes or performs its atomic at home; a leg is taken by the router. Packets of one ordering key are delivered in turn,
early ones are kept, old ones discarded, and so is an early one that finds the reorder store full (log 129); none passes an atomic of its key
that a router holds for a partner. A time flit sets the time of a module whose first launch has not started, and says afterwards how far
its time is to be steered. An answer with data needs its bytes in the bucket of its key. -/
def Obligations.PeerResults : Prop :=
  ∀ (s : State) (r : RemoteReq) (pa : Nat),
    let o := s.keyOwner r.keyid
    let va := (r.addr.setWidth 53).signExtend 64
    let run := exec (.remoteRequest r) s
    let answers := fun (t : State) (status : Nat) (data : List Byte) => ∃ a, t.fab.sent = s.fab.sent ++ [(a : Sent)] ∧ a.peer = peerOf r
      ∧ a.status = status ∧ a.data = data
    let paid := ∀ k, s.fab.key? r.keyid = some k → r.bytes ≤ (k.refilled s.time).tokens
    let knows := (∃ k, s.fab.key? r.keyid = some k) ∧ r.good = true
    let inTime := s.time ≤ r.time + (if r.kind = .multicast then 6000 else 10000)
    let replies := fun (status : Nat) => ∃ t, run = .next t ∧ answers t status [] ∧ t.ms = s.ms ∧ t.cx = s.cx
    let sound := inTime ∧ knows ∧ s.ms.move.done = false ∧ s.ms.mem.wf = true ∧ va.toNat % 8192 + r.bytes ≤ 8192
    let turn := exec (.packetDeliver r.sagent r.pseq r) s
    (∀ a n, exec (.packetDeliver a n r) s = exec (.packetDeliver a n { r with sagent := a, pseq := n }) s)
    ∧ (¬ inTime → replies 2)
    ∧ (inTime → ¬ knows → replies 5)
    ∧ (∀ b, inTime → knows → r.kind = .leg b → replies 0)
    ∧ (inTime → knows → canonical va = true → r.bytes ≤ 8 → va.toNat % 8192 + r.bytes ≤ 8192 →
        let found := translate s.ms s.tick (s.own.ownerOr o) va (if r.kind = .read then .load else .store)
        r.kind = .read ∨ r.kind = .write →
        (found = .page → replies 3) ∧ (∀ l, found = .perm l → replies 4) ∧ (found = .unbacked → replies 6) ∧ (found = .held → run = .next s))
    ∧ (sound → paid → r.kind = .read → engineLands s o .load va pa → ∃ t, run = .next t ∧ answers t 0 (readBytes s.ms.mem pa r.bytes)
        ∧ t.ms.mem = s.ms.mem ∧ t.cx = s.cx)
    ∧ (sound → r.kind = .write → r.data.length = r.bytes → engineLands s o .store va pa → ∃ t, run = .next t ∧ answers t 0 []
        ∧ storesBytes pa r.data s t ∧ t.cx = s.cx)
    ∧ (∀ cmp, sound → paid → r.kind = .atomic 0 cmp → r.bytes = 8 → r.data.length = 8 → engineLands s o .atomic va pa → ∃ t, run = .next t
        ∧ answers t 0 (readBytes s.ms.mem pa 8) ∧ storesBytes pa r.data s t ∧ t.cx = s.cx)
    ∧ (∀ limit, sound → r.kind = .fe .lwt limit → r.bytes = 8 → engineLands s o .load va pa → pa % 8 = 0 → s.ms.retry = [] →
        (isFull s.ms.mem pa = true → paid → ∃ t, run = .next t ∧ answers t 0 (readBytes s.ms.mem pa 8) ∧ isFull t.ms.mem pa = false
          ∧ ∀ a, readByte t.ms.mem a = readByte s.ms.mem a)
        ∧ (isFull s.ms.mem pa = false → ∃ t e, run = .next t ∧ t.ms.retry = [e] ∧ e.peer = peerOf r ∧ e.limit = s.time + limit
          ∧ e.who = none ∧ t.fab.sent = s.fab.sent ∧ t.ms.mem = s.ms.mem))
    ∧ (let k := s.fab.order? r.src r.sagent
       let ahead := (r.pseq + 2^16 - k.next) % 2^16
       k.next < 2^16 → r.pseq < 2^16 →
        (2^15 ≤ ahead → (∀ e ∈ k.early, e.1 ≠ k.next) → turn = .next s)
        ∧ (0 < ahead → ahead < 2^15 → (∀ e ∈ k.early, e.1 ≠ r.pseq ∧ e.1 ≠ k.next) → s.fab.storeLoad < 4096 → ∃ t, turn = .next t
          ∧ t.ms = s.ms ∧ t.fab.sent = s.fab.sent ∧ (t.fab.order? r.src r.sagent).early = k.early ++ [(r.pseq, r)]
          ∧ (t.fab.order? r.src r.sagent).next = k.next)
        ∧ (0 < ahead → ahead < 2^15 → (∀ e ∈ k.early, e.1 ≠ k.next) → 4096 ≤ s.fab.storeLoad → turn = .next s)
        ∧ (r.pseq = k.next → k.early = [] → s.fab.atomicHeld r.src r.sagent = true → ∃ t, turn = .next t ∧ t.ms = s.ms ∧ t.fab.sent = s.fab.sent
          ∧ (t.fab.order? r.src r.sagent).early = [(r.pseq, r)] ∧ (t.fab.order? r.src r.sagent).next = k.next)
        ∧ (r.pseq = k.next → k.early = [] → s.fab.atomicHeld r.src r.sagent = false → s.time ≤ r.time + 3000 → r.kind = .read → sound → paid →
          engineLands s o .load va pa → ∃ t, turn = .next t ∧ answers t 0 (readBytes s.ms.mem pa r.bytes)
          ∧ (t.fab.order? r.src r.sagent).next = (k.next + 1) % 2^16))
    ∧ (∀ ref : Nat, let behind : Int := ref - s.time
        (s.disp.begun = false → exec (.timeFlit ref) s = .next { s with time := if ref ≤ s.time then s.time else ref })
        ∧ (s.disp.begun = true →
          (40 < behind.natAbs → exec (.timeFlit ref) s = .next s)
          ∧ (behind.natAbs ≤ 40 → exec (.timeFlit ref) s = .next { s with fab := { s.fab with lag := behind } })))

/-- R277, R272, R273: a router merges two waiting atomics of one operation, address, size and key, in ascending order of their input ports and,
of one port, of their arrival, while none has waited for more than 32 ns; then at the latest one addition of the combined operands is performed,
each issuer receiving the old value its place in the order gives (log 98). A lossy block is written as it arrives before the
cutoff; the last closes its transfer, as the cutoff does, with zeros for what is lacking and the mask stored FULL behind them (log 97); a block that comes
after its transfer was closed is dropped. -/
def Obligations.MergeAndLossResults : Prop :=
  ∀ (s : State) (i j pa f g : Nat) (m n : Merging) (p q : RemoteReq) (b : LossyBlock),
    let one := (s.fab.merging.find? fun x => x.num == i) = some m
    let both := one ∧ (s.fab.merging.find? fun x => x.num == j) = some n
    let o := s.keyOwner p.keyid
    let va := (p.addr.setWidth 53).signExtend 64
    (both → i ≠ j → m.reqs = [(f, p)] → n.reqs = [(g, q)] → sameAtomic p q = true → q.port < p.port ∨ (q.port = p.port ∧ g < f) →
      s.time ≤ m.since + 32 → s.time ≤ n.since + 32 → ∃ t,
      exec (.atomicMerge i j) s = .next t ∧ t.ms = s.ms ∧ t.cx = s.cx
      ∧ (∃ x ∈ t.fab.merging, x.num = i ∧ x.reqs = [(g, q), (f, p)] ∧ x.since = Nat.min m.since n.since) ∧ ∀ x ∈ t.fab.merging, x.num ≠ j)
    ∧ (both → m.since + 32 < s.time ∨ n.since + 32 < s.time → exec (.atomicMerge i j) s = .next s)
    ∧ (both → m.reqs = [(f, p)] → n.reqs = [(g, q)] → sameAtomic p q = false → exec (.atomicMerge i j) s = .next s)
    ∧ (one → m.reqs = [(f, p), (g, q)] → s.time < m.since + 32 → Config.atomicForwarded s.tick i = false → exec (.atomicMergeTimeout i) s = .next s)
    ∧ (∀ cmp, one → m.reqs = [(f, p), (g, q)] → m.since + 32 ≤ s.time ∨ Config.atomicForwarded s.tick i = true → p.kind = .atomic 1 cmp → sameAtomic p q = true → p.bytes = 8 →
        p.data.length = 8 → q.data.length = 8 → s.time ≤ p.time + 10000 →
        (∃ k, s.fab.key? p.keyid = some k ∧ 16 ≤ (k.refilled s.time).tokens) → p.good = true →
        s.ms.move.done = false → s.ms.mem.wf = true → engineLands s o .atomic va pa → va.toNat % 8 = 0 → ∃ t,
        exec (.atomicMergeTimeout i) s = .next t ∧ t.cx = s.cx ∧ (∀ x ∈ t.fab.merging, x.num ≠ i)
        ∧ readLE t.ms.mem pa 8 = (readLE s.ms.mem pa 8 + leNat p.data + leNat q.data) % 2^64 ∧ sameOutside pa 8 s t
        ∧ ∃ x y, t.fab.sent = s.fab.sent ++ [(x : Sent), (y : Sent)] ∧ x.peer = peerOf p ∧ x.status = 0
          ∧ x.data = leBytes 8 (readLE s.ms.mem pa 8) ∧ y.peer = peerOf q ∧ y.status = 0
          ∧ y.data = leBytes 8 ((readLE s.ms.mem pa 8 + leNat p.data) % 2^64))
    ∧ (let own := s.keyOwner b.keyid
       let start := ((b.addr - wd (256 * b.blk)).setWidth 53).signExtend 64
       let here := start + wd (256 * b.blk)
       let fits := b.data.length = 256 ∧ b.good = true ∧ (∃ k, s.fab.key? b.keyid = some k) ∧ s.ms.move.done = false ∧ s.ms.mem.wf = true
         ∧ start.toNat % 256 = 0 ∧ s.ms.pending = [] ∧ s.ms.retry = [] ∧ pa % 256 = 0
       let open_ := (b.src, b.xfer, b.time) ∉ s.fab.shut
       let arrive := Instr.lossyBlockArrive b
       (b.time + 1500 ≤ s.time ∨ ¬ open_ → s.fab.lossy? b.src b.xfer = none → exec arrive s = .next s)
       ∧ (s.time < b.time + 1500 → s.fab.lossy? b.src b.xfer = none → open_ → b.blk < b.nblk → 2 ≤ b.nblk → b.nblk ≤ 64 → fits →
          engineLands s own .store here pa → ∃ t x, exec arrive s = .next t ∧ t.cx = s.cx ∧ storesBytes pa b.data s t
          ∧ t.fab.lossy? b.src b.xfer = some x ∧ x.blocks = [b] ∧ x.nblk = b.nblk ∧ x.time = b.time ∧ t.fab.sent = s.fab.sent)
       ∧ (s.time < b.time + 1500 → s.fab.lossy? b.src b.xfer = none → open_ → b.blk = 0 → b.nblk = 1 → fits → here.toNat % 8192 < 7936 →
          engineLands s own .store here pa → tablesApart s own here pa 264 → ∃ t, exec arrive s = .next t ∧ t.cx = s.cx
          ∧ t.fab.lossy? b.src b.xfer = none ∧ (b.src, b.xfer, b.time) ∈ t.fab.shut ∧ readBytes t.ms.mem pa 256 = b.data ∧ readLE t.ms.mem (pa + 256) 8 = 1
          ∧ isFull t.ms.mem (pa + 256) = true ∧ sameOutside pa 264 s t)
       ∧ (∀ x, s.fab.lossy? b.src b.xfer = some x →
          (s.time < x.time + 1500 → (∃ k, k < x.nblk ∧ ∀ c ∈ x.blocks, c.blk ≠ k) → exec (.lossyClose b.src b.xfer) s = .next s)
          ∧ ((∃ c ∈ x.blocks, c.blk = b.blk) → exec arrive s = .next s)
          ∧ (x.time + 1500 ≤ s.time → x.nblk = 1 → x.blocks = [] → x.keyid = b.keyid → x.addr = b.addr → x.src = b.src →
            x.xfer = b.xfer → b.blk = 0 → fits →
            here.toNat % 8192 < 7936 → engineLands s own .store here pa → tablesApart s own here pa 264 → ∃ t,
            exec (.lossyClose b.src b.xfer) s = .next t ∧ t.cx = s.cx ∧ t.fab.lossy? b.src b.xfer = none
            ∧ (∀ k, k < 256 → readByte t.ms.mem (pa + k) = 0) ∧ readLE t.ms.mem (pa + 256) 8 = 0 ∧ isFull t.ms.mem (pa + 256) = true
            ∧ sameOutside pa 264 s t)))

/-- R268, R343, R344: a flit of the exact or management class with the LSEQ awaited and a good CRC takes an input buffer of its key ID's reserve
of 8, or management's of 16, or of the shared pool of 256, and moves the LSEQ on; it waits where none is free; another is discarded and a replay is
asked for. A lossy one is taken or dropped. A peer's request for a replay sends again what stands behind the LSEQ it names, the flits before it
being acknowledged; the same LSEQ asked for again is a failed replay, and lossy flits bear no LSEQ (log 95). Eight failed replays in
a row, or 64 in a ms, take the link out of service with LINKDOWN; the spare link takes a dead one's place. -/
def Obligations.LinkResults : Prop :=
  ∀ (s : State) (port lseq : Nat) (f : Flit),
    let p := s.fab.port port
    let recent := p.replays.filter fun t => s.time < t + 1000000
    let flit := exec (.flitReceive port f) s
    let kept := f.cls = 0 ∨ f.cls = 2
    let key := if f.cls = 2 then 1024 else f.keyid
    let reserve := (p.bufs.filter fun b => b.1 = key ∧ b.2 = false).length < (if f.cls = 2 then 16 else 8)
    let shared := (p.bufs.filter fun b => b.2 = true).length < 256
    let quietPort := ∀ c ∈ s.fab.claims, c.arb = port → ∀ id q, c.cargo = .packet id → s.fab.request? id = some q → q.block = none
    (f.keyid < 1024 → s.fab.portActive port = true →
      (kept → f.good = true → f.lseq = p.expect → reserve ∨ shared → ∃ t, flit = .next t ∧ (t.fab.port port).expect = (p.expect + 1) % 1024
        ∧ (t.fab.port port).asked = none ∧ (reserve → (t.fab.port port).bufs = p.bufs ++ [(key, false)])
        ∧ (¬ reserve → (t.fab.port port).bufs = p.bufs ++ [(key, true)]) ∧ t.ms = s.ms ∧ t.cx = s.cx
        ∧ ∀ k, k ≠ port → t.fab.port k = s.fab.port k)
      ∧ (kept → f.good = true → f.lseq = p.expect → ¬ reserve → ¬ shared → flit = .next s)
      ∧ (kept → f.good = false ∨ f.lseq ≠ p.expect → ∃ t, flit = .next t ∧ (t.fab.port port).expect = p.expect
        ∧ (t.fab.port port).asked = some p.expect ∧ (t.fab.port port).bufs = p.bufs ∧ t.ms = s.ms ∧ t.cx = s.cx)
      ∧ (f.cls = 1 → f.good = true → reserve ∨ shared → ∃ t, flit = .next t ∧ (t.fab.port port).expect = p.expect
        ∧ (t.fab.port port).asked = p.asked ∧ (t.fab.port port).bufs.length = p.bufs.length + 1 ∧ t.ms = s.ms ∧ t.cx = s.cx)
      ∧ (f.cls = 1 → f.good = false → flit = .next s)
      ∧ (∃ t acked rest, exec (.replayRequest port lseq) s = .next t ∧ p.replay = acked ++ rest ∧ (∀ g ∈ acked, g.lseq ≠ lseq)
        ∧ (rest = [] ∨ ∃ g more, rest = g :: more ∧ g.lseq = lseq) ∧ (t.fab.port port).replay = rest ∧ (t.fab.port port).again = rest
        ∧ (t.fab.port port).replays = recent ++ [s.time]
        ∧ (t.fab.port port).failures = (if p.lastReq = some lseq then p.failures + 1 else 0) ∧ t.ms = s.ms ∧ t.cx = s.cx)
      ∧ (p.dead = true ∨ (p.failures < 8 ∧ recent.length < 64) → exec (.linkOutOfService port) s = .next s)
      ∧ (p.dead = false → 8 ≤ p.failures ∨ 64 ≤ recent.length → quietPort → ∃ t, exec (.linkOutOfService port) s = .next t
        ∧ t.fab.port port = { p with dead := true, replay := [], again := [] } ∧ records s t Err.linkDown (wd port) (wd (Config.portPeer port))
        ∧ t.cx = s.cx ∧ (∀ c ∈ t.fab.claims, c.arb ≠ port) ∧ ∀ dest e, outPort dest e = port → t.fab.entryLive dest e = false))
    ∧ (s.fab.portActive port = false → flit = .next s ∧ exec (.replayRequest port lseq) s = .next s
        ∧ exec (.linkOutOfService port) s = .next s)
    ∧ (3 ≤ f.cls → flit = .next s)
    ∧ ((s.fab.port spareLink).dead = true → (s.fab.port 35).spareOf = none → ∃ t, exec .spareRetrain s = .next t
        ∧ (t.fab.port spareLink).dead = false ∧ (t.fab.port spareLink).failures = 0 ∧ (t.fab.port 35).spareOf = some spareLink
        ∧ t.fab.portActive 35 = true ∧ t.ms = s.ms ∧ t.cx = s.cx)

/-- R231 to R233, R274, R275, R348, R357, R358: `coll` traps MISALIGN, OPERAND on a descriptor that breaks its table, RESOURCE where the owner does
not hold the group; it commits with the group's next count, the group's record as it stands, a ticket in X[D], and its SRC read once; at a member other
than 0 its leg leaves for member 0's module. `collwait` answers the ticket's status when it is over. Two legs combine element by element at member 0;
its result is sent to the other modules; a result is written to DST and ends the ticket with STATE 2; an exact collective faults with STATE 3, bit 23
and COLLFAULT where a leg's status is not OK, where a leg it sent was answered so, or without its legs for 20 µs; a lossy one without its result in
time is given one in which every block is lost; a held lossy result loses its data in time. Legs and results that come before their `coll` are held.
(What legs and results bear, what is held, and the members that a COLLFAULT names are log 101; reasons and the reading of the descriptor log 102.) -/
def Obligations.CollectiveResults : Prop :=
  ∀ (s : State) (d a : Reg) (la : Fin 16),
    let va := s.x a
    let i := Instr.coll d a la
    let seq := s.rk.issued.toList.getD 6 0 % (2^32 - 1) + 1
    let mine := fun (t : Ticket) => t.kind = .coll ∧ t.chan = 0 ∧ t.seq = field va 0 32
    (va.toNat % 64 ≠ 0 → exec i s = .next (s.trap Cause.misalign va))
    ∧ (∀ pa (w : Vector Word 8), va.toNat % 64 = 0 → s.cx.answer = none → s.live → engineLands s s.owner .load va pa → s.ms.move.done = false →
        (∀ j : Fin 8, w[j] = wd (readLE s.ms.mem (pa + 8 * j.val) 8)) →
        let grp := field w[0] 32 12
        let g := s.fab.group grp
        let src := (w[1].setWidth 53).signExtend 64
        let n := field w[3] 0 32
        let bad := collBroken w g.members = true ∨ g.index? s.node.toNat = none
        let stops := fun (cause : BitVec 8) (val : Word) => ∃ t : State, exec i s = .next (t.trap cause val) ∧ t.cx = s.cx ∧ t.rk = s.rk ∧ t.fab = s.fab
          ∧ sameMemory s t
        (bad → stops Cause.operand va)
        ∧ (¬ bad → s.own.holder 8 grp ≠ s.owner → stops Cause.resource (wd (8 * 2^56 + grp)))
        ∧ (∀ ps, ¬ bad → s.own.holder 8 grp = s.owner → s.fab.results = [] → s.fab.earlyLegs = [] → field w[0] 0 4 < 3 → 0 < n → src.toNat % 8192 + n ≤ 8192 →
          engineLands s s.owner .engineRead src ps → (∀ c ∈ s.fab.colls, c.id < s.fab.nextId) → (∀ q ∈ s.fab.requests, q.id < s.fab.nextId) → ∃ t c,
          exec i s = .next t ∧ movedOn s t ∧ t.cx.x = (s.setX d (wd (2^34 + seq))).cx.x ∧ t.ms.mem = s.ms.mem
          ∧ t.fab.colls = s.fab.colls ++ [(c : Collective)] ∧ c.words = w ∧ c.group = grp ∧ c.desc = g
          ∧ c.count = g.count ∧ c.seq = seq ∧ c.sent = true ∧ c.result = none ∧ (t.fab.group grp).count = g.count + 1
          ∧ (g.index? s.node.toNat = some 0 → t.fab.requests = s.fab.requests
            ∧ ∃ l, c.legs = [l] ∧ l.first = 0 ∧ l.level = 0 ∧ l.data = readBytes s.ms.mem ps n)
          ∧ (g.index? s.node.toNat ≠ some 0 → s.fab.opens s.cx.cr.keyid = false → bitAt w[0] 12 = false → n ≤ 4096 → c.legs = []
            ∧ ∃ q, t.fab.requests = s.fab.requests ++ [(q : Request)] ∧ q.issuer = .leg c.id ∧ q.kind = .leg false ∧ q.dest = g.node 0
              ∧ q.keyid = s.cx.cr.keyid ∧ q.payload = readBytes s.ms.mem ps n ∧ q.block = none ∧ q.injected = false)
          ∧ ∃ tk, t.rk.tickets = s.rk.tickets ++ [(tk : Ticket)] ∧ tk.kind = .coll ∧ tk.chan = 0 ∧ tk.seq = seq ∧ tk.state = 1))
    ∧ (2^35 ≤ va.toNat → exec (.collwait d a la) s = .next (s.trap Cause.operand va))
    ∧ (va.toNat < 2^35 → va.toNat < 2^34 ∨ field va 32 2 ≠ 0 ∨ (∀ t ∈ s.rk.tickets, ¬ mine t) →
        exec (.collwait d a la) s = .next (s.setX d 0).advance)
    ∧ (va.toNat / 2^32 = 4 → s.live → ∀ old new t, s.rk.tickets = old ++ t :: new → mine t → (∀ u ∈ old ++ new, ¬ mine u) →
        let aged := 16 ≤ (new.filter fun u => u.kind == .coll && u.chan == 0).length
        let answers := fun (v : Word) => ∃ u, exec (.collwait d a la) s = .next u ∧ movedOn s u ∧ u.cx.x = (s.setX d v).cx.x ∧ u.ms = s.ms
          ∧ u.rk.tickets = old ++ { t with taken := true } :: new
        (t.state < 2 → exec (.collwait d a la) s = .next (s.waitFor .collwait))
        ∧ (¬ aged → 2 ≤ t.state → answers (wd (2^34 + t.state * 2^32 + t.done)))
        ∧ (aged → 2 ≤ t.state → answers (wd (2^35 + 2^34 + 2 * 2^32))))
    ∧ (∀ id c, s.fab.coll? id = some c → s.live → c.key = s.rk.key → c.run = s.rk.run → c.record = none → c.ring = none → c.sent = true →
        let ends := fun (t : State) (state : Nat) => t.fab.coll? id = none
          ∧ t.rk.tickets.map Ticket.state = (s.rk.updTicket .coll 0 c.seq fun k => { k with state := state }).tickets.map Ticket.state
        let faults := fun (i : Instr) (missing : Word) => ∃ t e, exec i s = .next t ∧ ends t 3 ∧ t.rk.faults[2] = true
          ∧ t.disp.errors = s.disp.errors ++ [(e : ErrRec)] ∧ e.cls = Err.collFault ∧ e.owner = c.owner ∧ e.addr = wd (2^34 + c.seq)
          ∧ e.val1 = missing
        let reduces := c.op = 0 ∧ c.lossy = false
        let index := c.index s.node
        let shuts := c.time + (treeDepth c.members + 1) * 1500
        let lacking := fun (w : Word) => if c.op = 3 then wd (2^c.root) else if index = 0
          then wd (((List.range c.members).filter fun k => !c.overlaps k 0).map fun k => 2^k).sum
          else (if w = 0 then Config.missingMembers s.tick c.id else w) &&& wd (2^c.members - 1)
        (∀ l x, c.legs = [l] → l.first = 0 → l.level = 0 → x.first = 1 → x.level = 0 → x.good = true → c.members = 2 → index = 0 → reduces →
          c.type = 2 → c.rop = 0 → c.bytes = 4 → l.data.length = 4 → x.data.length = 4 → ∃ t y z, exec (.collCombine id 0 0 [x]) s = .next t
          ∧ t.fab.coll? id = some y ∧ y.legs = [z] ∧ z.first = 0 ∧ z.level = 1 ∧ z.data = leBytes 4 ((leNat l.data + leNat x.data) % 2^32)
          ∧ t.ms = s.ms ∧ t.cx = s.cx)
        ∧ (∀ x, x.good = false → x.level = 0 → x.first < c.members → index = 0 → c.op < 3 → c.lossy = false →
          faults (.collCombine id 0 0 [x]) (wd (2^x.first)))
        ∧ (∀ z pd, s.fab.matching c.group c.count = some c → c.result = none → reduces → c.members = 2 → index = 0 →
          c.leg? 0 1 = some z → z.data.length = c.bytes → 0 < c.bytes → c.bytes ≤ 4096 → c.desc.node 0 = s.node.toNat → c.desc.node 1 ≠ s.node.toNat →
          c.dst.toNat % 8192 + c.bytes ≤ 8192 → s.rk.id.dual = false → s.ms.move.done = false → s.ms.mem.wf = true →
          engineLands s c.owner .engineWrite c.dst pd → engineLands s c.owner .store c.dst pd → (∀ q ∈ s.fab.requests, q.id < s.fab.nextId) → ∃ t q,
          exec (.collResult c.group c.count none) s = .next t ∧ ends t 2 ∧ storesBytes pd z.data s t ∧ t.cx = s.cx
          ∧ t.fab.requests = s.fab.requests ++ [(q : Request)] ∧ q.kind = .leg true ∧ q.dest = c.desc.node 1 ∧ q.payload = z.data)
        ∧ (∀ x pd, s.fab.matching c.group c.count = some c → c.result = none → reduces → x.good = true →
          x.data.length = c.bytes → 0 < c.bytes → c.dst.toNat % 8192 + c.bytes ≤ 8192 → s.rk.id.dual = false → s.ms.move.done = false →
          s.ms.mem.wf = true → engineLands s c.owner .engineWrite c.dst pd → engineLands s c.owner .store c.dst pd → ∃ t,
          exec (.collResult c.group c.count (some x)) s = .next t ∧ ends t 2 ∧ storesBytes pd x.data s t ∧ t.cx = s.cx)
        ∧ (∀ x, s.fab.matching c.group c.count = some c → c.result = none → c.lossy = false → x.good = false → x.level = 0 → x.first < c.members →
          faults (.collResult c.group c.count (some x)) (wd (2^x.first)))
        ∧ (∀ w, c.lossy = true ∨ (c.failed = [] ∧ (c.result ≠ none ∨ s.time < c.time + 20000)) → exec (.collFaultTimeout id w) s = .next s)
        ∧ (∀ w, c.lossy = false → c.failed = [] → c.result = none → c.time + 20000 ≤ s.time → faults (.collFaultTimeout id w) (lacking w))
        ∧ (∀ w k, c.lossy = false → c.failed = [c.desc.node k] → k < c.members → (∀ j, j < c.members → c.desc.node j = c.desc.node k → j = k) →
          faults (.collFaultTimeout id w) (wd (2^k)))
        ∧ (c.lossy = false ∨ c.result ≠ none ∨ s.time < shuts → exec (.collCloseTimeout id) s = .next s)
        ∧ (c.lossy = true → c.result = none → shuts ≤ s.time → ∃ l : Leg, (∀ n ∈ l.counts, n = 0) ∧ l.data = List.replicate c.bytes 0
          ∧ exec (.collCloseTimeout id) s = .next (s.giveResult id l)
          ∧ ∀ x, s.fab.matching c.group c.count = some c → exec (.collResult c.group c.count (some x)) s = .next (s.giveResult id l))
        ∧ (∀ pd pc pm, c.lossy = true → c.result = none → shuts ≤ s.time → c.bytes = 256 →
          c.dst.toNat % 8192 + 256 ≤ 8192 → engineLands s c.owner .engineWrite c.dst pd → engineLands s c.owner .engineWrite c.cntAddr pc →
          engineLands s c.owner .engineWrite c.maskAddr pm → c.cntAddr.toNat % 4 = 0 → c.maskAddr.toNat % 8 = 0 → ∃ t,
          exec (.collCloseTimeout id) s = .next t ∧ ends t 2 ∧ t.cx = s.cx))
    ∧ (∀ group count, ∃ t, exec (.collHeldDiscard group count) s = .next t ∧ t.cx = s.cx ∧ t.ms = s.ms
        ∧ t.fab.results.length = s.fab.results.length ∧ ∀ (k : Nat) (h : HeldResult), s.fab.results[k]? = some h →
          let late := h.group = group ∧ h.count = count ∧ h.leg.counts ≠ [] ∧ h.time + 1500 ≤ s.time
          ∃ u : HeldResult, t.fab.results[k]? = some u ∧ u.group = h.group ∧ u.count = h.count ∧ u.time = h.time ∧ (¬ late → u = h)
          ∧ (late → u.leg.data = [] ∧ u.leg.counts ≠ [] ∧ ∀ n ∈ u.leg.counts, n = 0))
    ∧ (∀ id level j legs, s.fab.coll? id = none → s.fab.nextId ≤ id → ∃ t, exec (.collCombine id level j legs) s = .next t ∧ t.cx = s.cx
        ∧ t.ms = s.ms ∧ t.fab.earlyLegs = s.fab.earlyLegs ++ legs.map fun l => (id, s.time, l))
    ∧ (∀ group count x, s.fab.matching group count = none → (s.fab.group group).count ≤ count →
        (∀ h ∈ s.fab.results, ¬ (h.group = group ∧ h.count = count)) → ∃ t h, exec (.collResult group count (some x)) s = .next t
        ∧ t.fab.results = s.fab.results ++ [(h : HeldResult)] ∧ h.group = group ∧ h.count = count ∧ h.leg.data = x.data ∧ h.good = x.good
        ∧ t.cx = s.cx ∧ t.ms = s.ms)

/-! ### The step, the encoding, the invariants -/

/-- R10, R52, R102, R122, R319: where a context that may issue comes next, the word at its program counter is fetched through an executable leaf,
or is the one that a request has brought from host space or another module (log 124);
the step is the meaning of the instruction it decodes to, in a state where only the instruction cache, the kept translations, the line's place
among the clusters, the access log and the fault records that the context has left have changed, and the end of the step around it; a word that decodes to nothing traps ILLEGAL with itself as the value. An event of the
table that comes next runs its own meaning. -/
def Obligations.StepRunsDecodedInstruction : Prop :=
  ∀ (s : State) (rest : List Turn),
    (∀ i, encode i = none → s.agenda = .event i :: rest → step s = finish (exec i { s with agenda := rest }))
    ∧ (s.agenda = .issue s.rk.key s.rk.run s.cx.num :: rest → s.live → s.cx.run = .running → s.co.halted = false →
      s.awaiting = false → s.cx.mx.pending = false ∨ s.cx.hf = true → s.cx.windows = [] → (∀ e ∈ s.co.stores, e.left = 0) →
      let runs := fun (w : Nat) (like : State → Prop) => (∀ i, decode w = .ok i → ∃ u, like u ∧ step s = finish (exec i u))
        ∧ ∀ e, decode w = .error e → ∃ u, like u ∧ step s = finish (.next (u.trap Cause.illegal (wd w)))
      let had := s.cx.fetched.find? fun q => q.1 == s.cx.pc
      (∀ pc w, had = some (pc, w) →
        runs w fun u => u = { s with agenda := rest, disp := { s.disp with records := u.disp.records } })
      ∧ (∀ id v, had = none → s.cx.wait = .fetch id → s.cx.answer = some v → runs (v.toNat % 2^32) fun u => u = { s with
        agenda := rest
        cx := { s.cx with wait := .none, answer := none, fetched := s.cx.fetched ++ [(s.cx.pc, v.toNat % 2^32)] } })
      ∧ ∀ pa l, had = none → (∀ id, s.cx.wait ≠ .fetch id) → canonical s.cx.pc = true →
        translate s.ms s.tick (s.own.ownerOr s.owner) s.cx.pc .fetch = .at pa l →
        let a := s.ms.homeAddr pa
        hostSpace a = false → s.ms.movingAt a = false → pteRepl l.entry = false → l.entry ||| 0x20 = l.entry →
        findLine s.tick a s.co.icache = none → s.cx.pc.toNat % 4 = 0 → runs (readLE s.ms.mem (s.ms.homeAddr a) 4) fun u => u = { s with
          agenda := rest
          co := { s.co with icache := u.co.icache }
          ms := { s.ms with kept := u.ms.kept, excl := u.ms.excl, ccache := u.ms.ccache }
          disp := { s.disp with records := u.disp.records }
          log := u.log })

/-- R132 to R141 and the encodings of chapters 08 to 11: words written out in the spec decode to the instructions they stand for. -/
def Obligations.DecodedWords : Prop :=
  decode 0x054B6196 = .ok (.div 10 11 12 3) ∧ decode 0x04A63822 = .ok (.csel 5 6 7) ∧ decode 0x2CA0BCDE = .ok (.lsh 5 0xBCDE)
  ∧ decode 0x4507FFFD = .ok (.bes 16 false 0x7FFFD) ∧ decode 0x80000002 = .ok .ifence
  ∧ decode 0xC8800002 = .ok (.crr 4 0x002) ∧ decode 0xC8194023 = .ok (.crw 0 25 0x023) ∧ decode 0xC8C7C010 = .ok (.crc 6 7 0x010)
  ∧ decode 0xA0E20002 = .ok (.sstat 7 2 0)

/-- R132 to R141: every well-formed instruction decodes from its own word: no bit of its encoding is dropped.

R132 to R134, R319: a word that decodes to an instruction is that instruction's own word, and the instruction is well-formed: a set
bit of a field that an instruction does not use decodes to nothing. -/
def Obligations.EncodingRoundTrip : Prop :=
  (∀ (i : Instr) (w : Nat), i.wf = true → encode i = some w → w < 2^32 ∧ decode w = .ok i) ∧
  (∀ (w : Nat) (i : Instr), w < 2^32 → decode w = .ok i → i.wf = true ∧ encode i = some w)

/-- R31: no step raises a limit of the power limiter above its ceiling or takes duty out of half to full; R297: nor do reset and bring-up. -/
def Obligations.PowerStaysWithinLimits : Prop :=
  ∀ (s t : State), s.powerWithin = true → step s = .next t → t.powerWithin = true
end

