-- ==== Sys2Proof/Laws/State.lean ====
section
/-! SUPPORT. One small lemma for each field under each named update of the state, so that no proof unfolds a record update. -/

namespace Sys2Proof.Machine

open Sys2Proof

/-! ### Context.settled -/

@[simp] theorem Context.settled_num (c : Context) (pc : Word) : (c.settled pc).num = c.num := rfl
@[simp] theorem Context.settled_pc (c : Context) (pc : Word) : (c.settled pc).pc = pc := rfl
@[simp] theorem Context.settled_x (c : Context) (pc : Word) : (c.settled pc).x = c.x := rfl
@[simp] theorem Context.settled_v (c : Context) (pc : Word) : (c.settled pc).v = c.v := rfl
@[simp] theorem Context.settled_p (c : Context) (pc : Word) : (c.settled pc).p = c.p := rfl
@[simp] theorem Context.settled_mg (c : Context) (pc : Word) : (c.settled pc).mg = c.mg := rfl
@[simp] theorem Context.settled_cr (c : Context) (pc : Word) : (c.settled pc).cr = c.cr := rfl
@[simp] theorem Context.settled_hf (c : Context) (pc : Word) : (c.settled pc).hf = c.hf := rfl
@[simp] theorem Context.settled_mx (c : Context) (pc : Word) : (c.settled pc).mx = c.mx := rfl
@[simp] theorem Context.settled_wait (c : Context) (pc : Word) : (c.settled pc).wait = .none := rfl
@[simp] theorem Context.settled_remain (c : Context) (pc : Word) : (c.settled pc).remain = none := rfl
@[simp] theorem Context.settled_pair (c : Context) (pc : Word) : (c.settled pc).pair = false := rfl
@[simp] theorem Context.settled_run (c : Context) (pc : Word) : (c.settled pc).run = c.run := rfl
@[simp] theorem Context.settled_windows (c : Context) (pc : Word) : (c.settled pc).windows = c.windows := rfl
@[simp] theorem Context.settled_answer (c : Context) (pc : Word) : (c.settled pc).answer = none := rfl
@[simp] theorem Context.settled_lanes (c : Context) (pc : Word) : (c.settled pc).lanes = [] := rfl
@[simp] theorem Context.settled_fetched (c : Context) (pc : Word) : (c.settled pc).fetched = [] := rfl
@[simp] theorem Context.settled_toPost (c : Context) (pc : Word) : (c.settled pc).toPost = [] := rfl
@[simp] theorem Context.settled_lost (c : Context) (pc : Word) : (c.settled pc).lost = c.lost := rfl

/-! ### State.goTo -/

@[simp] theorem State.goTo_rk (s : State) (pc : Word) : (s.goTo pc).rk = s.rk := rfl
@[simp] theorem State.goTo_co (s : State) (pc : Word) : (s.goTo pc).co = s.co := rfl
@[simp] theorem State.goTo_ranks (s : State) (pc : Word) : (s.goTo pc).ranks = s.ranks := rfl
@[simp] theorem State.goTo_cores (s : State) (pc : Word) : (s.goTo pc).cores = s.cores := rfl
@[simp] theorem State.goTo_ms (s : State) (pc : Word) : (s.goTo pc).ms = s.ms := rfl
@[simp] theorem State.goTo_own (s : State) (pc : Word) : (s.goTo pc).own = s.own := rfl
@[simp] theorem State.goTo_log (s : State) (pc : Word) : (s.goTo pc).log = s.log := rfl
@[simp] theorem State.goTo_disp (s : State) (pc : Word) : (s.goTo pc).disp = s.disp := rfl
@[simp] theorem State.goTo_eng (s : State) (pc : Word) : (s.goTo pc).eng = s.eng := rfl
@[simp] theorem State.goTo_fab (s : State) (pc : Word) : (s.goTo pc).fab = s.fab := rfl
@[simp] theorem State.goTo_host (s : State) (pc : Word) : (s.goTo pc).host = s.host := rfl
@[simp] theorem State.goTo_mgmt (s : State) (pc : Word) : (s.goTo pc).mgmt = s.mgmt := rfl
@[simp] theorem State.goTo_scr (s : State) (pc : Word) : (s.goTo pc).scr = s.scr := rfl
@[simp] theorem State.goTo_time (s : State) (pc : Word) : (s.goTo pc).time = s.time := rfl
@[simp] theorem State.goTo_node (s : State) (pc : Word) : (s.goTo pc).node = s.node := rfl
@[simp] theorem State.goTo_signals (s : State) (pc : Word) : (s.goTo pc).signals = s.signals := rfl
@[simp] theorem State.goTo_agenda (s : State) (pc : Word) : (s.goTo pc).agenda = s.agenda := rfl
@[simp] theorem State.goTo_tick (s : State) (pc : Word) : (s.goTo pc).tick = s.tick := rfl
@[simp] theorem State.goTo_cx (s : State) (pc : Word) : (s.goTo pc).cx = s.cx.settled pc := rfl

/-! ### State.waitFor -/

@[simp] theorem State.waitFor_rk (s : State) (w : Wait) : (s.waitFor w).rk = s.rk := rfl
@[simp] theorem State.waitFor_co (s : State) (w : Wait) : (s.waitFor w).co = s.co := rfl
@[simp] theorem State.waitFor_ranks (s : State) (w : Wait) : (s.waitFor w).ranks = s.ranks := rfl
@[simp] theorem State.waitFor_cores (s : State) (w : Wait) : (s.waitFor w).cores = s.cores := rfl
@[simp] theorem State.waitFor_ms (s : State) (w : Wait) : (s.waitFor w).ms = s.ms := rfl
@[simp] theorem State.waitFor_own (s : State) (w : Wait) : (s.waitFor w).own = s.own := rfl
@[simp] theorem State.waitFor_log (s : State) (w : Wait) : (s.waitFor w).log = s.log := rfl
@[simp] theorem State.waitFor_disp (s : State) (w : Wait) : (s.waitFor w).disp = s.disp := rfl
@[simp] theorem State.waitFor_eng (s : State) (w : Wait) : (s.waitFor w).eng = s.eng := rfl
@[simp] theorem State.waitFor_fab (s : State) (w : Wait) : (s.waitFor w).fab = s.fab := rfl
@[simp] theorem State.waitFor_host (s : State) (w : Wait) : (s.waitFor w).host = s.host := rfl
@[simp] theorem State.waitFor_mgmt (s : State) (w : Wait) : (s.waitFor w).mgmt = s.mgmt := rfl
@[simp] theorem State.waitFor_scr (s : State) (w : Wait) : (s.waitFor w).scr = s.scr := rfl
@[simp] theorem State.waitFor_time (s : State) (w : Wait) : (s.waitFor w).time = s.time := rfl
@[simp] theorem State.waitFor_node (s : State) (w : Wait) : (s.waitFor w).node = s.node := rfl
@[simp] theorem State.waitFor_signals (s : State) (w : Wait) : (s.waitFor w).signals = s.signals := rfl
@[simp] theorem State.waitFor_agenda (s : State) (w : Wait) : (s.waitFor w).agenda = s.agenda := rfl
@[simp] theorem State.waitFor_tick (s : State) (w : Wait) : (s.waitFor w).tick = s.tick := rfl
@[simp] theorem State.waitFor_cx_num (s : State) (w : Wait) : (s.waitFor w).cx.num = s.cx.num := rfl
@[simp] theorem State.waitFor_cx_pc (s : State) (w : Wait) : (s.waitFor w).cx.pc = s.cx.pc := rfl
@[simp] theorem State.waitFor_cx_x (s : State) (w : Wait) : (s.waitFor w).cx.x = s.cx.x := rfl
@[simp] theorem State.waitFor_cx_v (s : State) (w : Wait) : (s.waitFor w).cx.v = s.cx.v := rfl
@[simp] theorem State.waitFor_cx_p (s : State) (w : Wait) : (s.waitFor w).cx.p = s.cx.p := rfl
@[simp] theorem State.waitFor_cx_mg (s : State) (w : Wait) : (s.waitFor w).cx.mg = s.cx.mg := rfl
@[simp] theorem State.waitFor_cx_cr (s : State) (w : Wait) : (s.waitFor w).cx.cr = s.cx.cr := rfl
@[simp] theorem State.waitFor_cx_hf (s : State) (w : Wait) : (s.waitFor w).cx.hf = s.cx.hf := rfl
@[simp] theorem State.waitFor_cx_mx (s : State) (w : Wait) : (s.waitFor w).cx.mx = s.cx.mx := rfl
@[simp] theorem State.waitFor_cx_wait (s : State) (w : Wait) : (s.waitFor w).cx.wait = w := rfl
@[simp] theorem State.waitFor_cx_remain (s : State) (w : Wait) : (s.waitFor w).cx.remain = s.cx.remain := rfl
@[simp] theorem State.waitFor_cx_pair (s : State) (w : Wait) : (s.waitFor w).cx.pair = s.cx.pair := rfl
@[simp] theorem State.waitFor_cx_run (s : State) (w : Wait) : (s.waitFor w).cx.run = s.cx.run := rfl
@[simp] theorem State.waitFor_cx_windows (s : State) (w : Wait) : (s.waitFor w).cx.windows = s.cx.windows := rfl
@[simp] theorem State.waitFor_cx_answer (s : State) (w : Wait) : (s.waitFor w).cx.answer = s.cx.answer := rfl
@[simp] theorem State.waitFor_cx_lanes (s : State) (w : Wait) : (s.waitFor w).cx.lanes = s.cx.lanes := rfl
@[simp] theorem State.waitFor_cx_fetched (s : State) (w : Wait) : (s.waitFor w).cx.fetched = s.cx.fetched := rfl
@[simp] theorem State.waitFor_cx_toPost (s : State) (w : Wait) : (s.waitFor w).cx.toPost = s.cx.toPost := rfl
@[simp] theorem State.waitFor_cx_lost (s : State) (w : Wait) : (s.waitFor w).cx.lost = s.cx.lost := rfl

/-! ### State.setCr -/

@[simp] theorem State.setCr_rk (s : State) (f : CtxRegs → CtxRegs) : (s.setCr f).rk = s.rk := rfl
@[simp] theorem State.setCr_co (s : State) (f : CtxRegs → CtxRegs) : (s.setCr f).co = s.co := rfl
@[simp] theorem State.setCr_ranks (s : State) (f : CtxRegs → CtxRegs) : (s.setCr f).ranks = s.ranks := rfl
@[simp] theorem State.setCr_cores (s : State) (f : CtxRegs → CtxRegs) : (s.setCr f).cores = s.cores := rfl
@[simp] theorem State.setCr_ms (s : State) (f : CtxRegs → CtxRegs) : (s.setCr f).ms = s.ms := rfl
@[simp] theorem State.setCr_own (s : State) (f : CtxRegs → CtxRegs) : (s.setCr f).own = s.own := rfl
@[simp] theorem State.setCr_log (s : State) (f : CtxRegs → CtxRegs) : (s.setCr f).log = s.log := rfl
@[simp] theorem State.setCr_disp (s : State) (f : CtxRegs → CtxRegs) : (s.setCr f).disp = s.disp := rfl
@[simp] theorem State.setCr_eng (s : State) (f : CtxRegs → CtxRegs) : (s.setCr f).eng = s.eng := rfl
@[simp] theorem State.setCr_fab (s : State) (f : CtxRegs → CtxRegs) : (s.setCr f).fab = s.fab := rfl
@[simp] theorem State.setCr_host (s : State) (f : CtxRegs → CtxRegs) : (s.setCr f).host = s.host := rfl
@[simp] theorem State.setCr_mgmt (s : State) (f : CtxRegs → CtxRegs) : (s.setCr f).mgmt = s.mgmt := rfl
@[simp] theorem State.setCr_scr (s : State) (f : CtxRegs → CtxRegs) : (s.setCr f).scr = s.scr := rfl
@[simp] theorem State.setCr_time (s : State) (f : CtxRegs → CtxRegs) : (s.setCr f).time = s.time := rfl
@[simp] theorem State.setCr_node (s : State) (f : CtxRegs → CtxRegs) : (s.setCr f).node = s.node := rfl
@[simp] theorem State.setCr_signals (s : State) (f : CtxRegs → CtxRegs) : (s.setCr f).signals = s.signals := rfl
@[simp] theorem State.setCr_agenda (s : State) (f : CtxRegs → CtxRegs) : (s.setCr f).agenda = s.agenda := rfl
@[simp] theorem State.setCr_tick (s : State) (f : CtxRegs → CtxRegs) : (s.setCr f).tick = s.tick := rfl
@[simp] theorem State.setCr_cx_num (s : State) (f : CtxRegs → CtxRegs) : (s.setCr f).cx.num = s.cx.num := rfl
@[simp] theorem State.setCr_cx_pc (s : State) (f : CtxRegs → CtxRegs) : (s.setCr f).cx.pc = s.cx.pc := rfl
@[simp] theorem State.setCr_cx_x (s : State) (f : CtxRegs → CtxRegs) : (s.setCr f).cx.x = s.cx.x := rfl
@[simp] theorem State.setCr_cx_v (s : State) (f : CtxRegs → CtxRegs) : (s.setCr f).cx.v = s.cx.v := rfl
@[simp] theorem State.setCr_cx_p (s : State) (f : CtxRegs → CtxRegs) : (s.setCr f).cx.p = s.cx.p := rfl
@[simp] theorem State.setCr_cx_mg (s : State) (f : CtxRegs → CtxRegs) : (s.setCr f).cx.mg = s.cx.mg := rfl
@[simp] theorem State.setCr_cx_cr (s : State) (f : CtxRegs → CtxRegs) : (s.setCr f).cx.cr = f s.cx.cr := rfl
@[simp] theorem State.setCr_cx_hf (s : State) (f : CtxRegs → CtxRegs) : (s.setCr f).cx.hf = s.cx.hf := rfl
@[simp] theorem State.setCr_cx_mx (s : State) (f : CtxRegs → CtxRegs) : (s.setCr f).cx.mx = s.cx.mx := rfl
@[simp] theorem State.setCr_cx_wait (s : State) (f : CtxRegs → CtxRegs) : (s.setCr f).cx.wait = s.cx.wait := rfl
@[simp] theorem State.setCr_cx_remain (s : State) (f : CtxRegs → CtxRegs) : (s.setCr f).cx.remain = s.cx.remain := rfl
@[simp] theorem State.setCr_cx_pair (s : State) (f : CtxRegs → CtxRegs) : (s.setCr f).cx.pair = s.cx.pair := rfl
@[simp] theorem State.setCr_cx_run (s : State) (f : CtxRegs → CtxRegs) : (s.setCr f).cx.run = s.cx.run := rfl
@[simp] theorem State.setCr_cx_windows (s : State) (f : CtxRegs → CtxRegs) : (s.setCr f).cx.windows = s.cx.windows := rfl
@[simp] theorem State.setCr_cx_answer (s : State) (f : CtxRegs → CtxRegs) : (s.setCr f).cx.answer = s.cx.answer := rfl
@[simp] theorem State.setCr_cx_lanes (s : State) (f : CtxRegs → CtxRegs) : (s.setCr f).cx.lanes = s.cx.lanes := rfl
@[simp] theorem State.setCr_cx_fetched (s : State) (f : CtxRegs → CtxRegs) : (s.setCr f).cx.fetched = s.cx.fetched := rfl
@[simp] theorem State.setCr_cx_toPost (s : State) (f : CtxRegs → CtxRegs) : (s.setCr f).cx.toPost = s.cx.toPost := rfl
@[simp] theorem State.setCr_cx_lost (s : State) (f : CtxRegs → CtxRegs) : (s.setCr f).cx.lost = s.cx.lost := rfl

/-! ### State.setX and State.setP: a write to x0 or p0 changes nothing -/

@[simp] theorem State.setX_rk (s : State) (d : Reg) (w : Word) : (s.setX d w).rk = s.rk := by unfold State.setX; split <;> rfl
@[simp] theorem State.setX_co (s : State) (d : Reg) (w : Word) : (s.setX d w).co = s.co := by unfold State.setX; split <;> rfl
@[simp] theorem State.setX_ranks (s : State) (d : Reg) (w : Word) : (s.setX d w).ranks = s.ranks := by unfold State.setX; split <;> rfl
@[simp] theorem State.setX_cores (s : State) (d : Reg) (w : Word) : (s.setX d w).cores = s.cores := by unfold State.setX; split <;> rfl
@[simp] theorem State.setX_ms (s : State) (d : Reg) (w : Word) : (s.setX d w).ms = s.ms := by unfold State.setX; split <;> rfl
@[simp] theorem State.setX_own (s : State) (d : Reg) (w : Word) : (s.setX d w).own = s.own := by unfold State.setX; split <;> rfl
@[simp] theorem State.setX_log (s : State) (d : Reg) (w : Word) : (s.setX d w).log = s.log := by unfold State.setX; split <;> rfl
@[simp] theorem State.setX_disp (s : State) (d : Reg) (w : Word) : (s.setX d w).disp = s.disp := by unfold State.setX; split <;> rfl
@[simp] theorem State.setX_eng (s : State) (d : Reg) (w : Word) : (s.setX d w).eng = s.eng := by unfold State.setX; split <;> rfl
@[simp] theorem State.setX_fab (s : State) (d : Reg) (w : Word) : (s.setX d w).fab = s.fab := by unfold State.setX; split <;> rfl
@[simp] theorem State.setX_host (s : State) (d : Reg) (w : Word) : (s.setX d w).host = s.host := by unfold State.setX; split <;> rfl
@[simp] theorem State.setX_mgmt (s : State) (d : Reg) (w : Word) : (s.setX d w).mgmt = s.mgmt := by unfold State.setX; split <;> rfl
@[simp] theorem State.setX_scr (s : State) (d : Reg) (w : Word) : (s.setX d w).scr = s.scr := by unfold State.setX; split <;> rfl
@[simp] theorem State.setX_time (s : State) (d : Reg) (w : Word) : (s.setX d w).time = s.time := by unfold State.setX; split <;> rfl
@[simp] theorem State.setX_node (s : State) (d : Reg) (w : Word) : (s.setX d w).node = s.node := by unfold State.setX; split <;> rfl
@[simp] theorem State.setX_signals (s : State) (d : Reg) (w : Word) : (s.setX d w).signals = s.signals := by unfold State.setX; split <;> rfl
@[simp] theorem State.setX_agenda (s : State) (d : Reg) (w : Word) : (s.setX d w).agenda = s.agenda := by unfold State.setX; split <;> rfl
@[simp] theorem State.setX_tick (s : State) (d : Reg) (w : Word) : (s.setX d w).tick = s.tick := by unfold State.setX; split <;> rfl
@[simp] theorem State.setX_cx_num (s : State) (d : Reg) (w : Word) : (s.setX d w).cx.num = s.cx.num := by
  unfold State.setX; split <;> rfl
@[simp] theorem State.setX_cx_pc (s : State) (d : Reg) (w : Word) : (s.setX d w).cx.pc = s.cx.pc := by
  unfold State.setX; split <;> rfl
@[simp] theorem State.setX_cx_v (s : State) (d : Reg) (w : Word) : (s.setX d w).cx.v = s.cx.v := by
  unfold State.setX; split <;> rfl
@[simp] theorem State.setX_cx_p (s : State) (d : Reg) (w : Word) : (s.setX d w).cx.p = s.cx.p := by
  unfold State.setX; split <;> rfl
@[simp] theorem State.setX_cx_mg (s : State) (d : Reg) (w : Word) : (s.setX d w).cx.mg = s.cx.mg := by
  unfold State.setX; split <;> rfl
@[simp] theorem State.setX_cx_cr (s : State) (d : Reg) (w : Word) : (s.setX d w).cx.cr = s.cx.cr := by
  unfold State.setX; split <;> rfl
@[simp] theorem State.setX_cx_hf (s : State) (d : Reg) (w : Word) : (s.setX d w).cx.hf = s.cx.hf := by
  unfold State.setX; split <;> rfl
@[simp] theorem State.setX_cx_mx (s : State) (d : Reg) (w : Word) : (s.setX d w).cx.mx = s.cx.mx := by
  unfold State.setX; split <;> rfl
@[simp] theorem State.setX_cx_wait (s : State) (d : Reg) (w : Word) : (s.setX d w).cx.wait = s.cx.wait := by
  unfold State.setX; split <;> rfl
@[simp] theorem State.setX_cx_remain (s : State) (d : Reg) (w : Word) : (s.setX d w).cx.remain = s.cx.remain := by
  unfold State.setX; split <;> rfl
@[simp] theorem State.setX_cx_pair (s : State) (d : Reg) (w : Word) : (s.setX d w).cx.pair = s.cx.pair := by
  unfold State.setX; split <;> rfl
@[simp] theorem State.setX_cx_run (s : State) (d : Reg) (w : Word) : (s.setX d w).cx.run = s.cx.run := by
  unfold State.setX; split <;> rfl
@[simp] theorem State.setX_cx_windows (s : State) (d : Reg) (w : Word) : (s.setX d w).cx.windows = s.cx.windows := by
  unfold State.setX; split <;> rfl
@[simp] theorem State.setX_cx_answer (s : State) (d : Reg) (w : Word) : (s.setX d w).cx.answer = s.cx.answer := by
  unfold State.setX; split <;> rfl
@[simp] theorem State.setX_cx_lanes (s : State) (d : Reg) (w : Word) : (s.setX d w).cx.lanes = s.cx.lanes := by
  unfold State.setX; split <;> rfl
@[simp] theorem State.setX_cx_fetched (s : State) (d : Reg) (w : Word) : (s.setX d w).cx.fetched = s.cx.fetched := by
  unfold State.setX; split <;> rfl
@[simp] theorem State.setX_cx_toPost (s : State) (d : Reg) (w : Word) : (s.setX d w).cx.toPost = s.cx.toPost := by
  unfold State.setX; split <;> rfl
@[simp] theorem State.setX_cx_lost (s : State) (d : Reg) (w : Word) : (s.setX d w).cx.lost = s.cx.lost := by
  unfold State.setX; split <;> rfl

@[simp] theorem State.setP_rk (s : State) (d : Fin 8) (w : PReg) : (s.setP d w).rk = s.rk := by unfold State.setP; split <;> rfl
@[simp] theorem State.setP_co (s : State) (d : Fin 8) (w : PReg) : (s.setP d w).co = s.co := by unfold State.setP; split <;> rfl
@[simp] theorem State.setP_ranks (s : State) (d : Fin 8) (w : PReg) : (s.setP d w).ranks = s.ranks := by unfold State.setP; split <;> rfl
@[simp] theorem State.setP_cores (s : State) (d : Fin 8) (w : PReg) : (s.setP d w).cores = s.cores := by unfold State.setP; split <;> rfl
@[simp] theorem State.setP_ms (s : State) (d : Fin 8) (w : PReg) : (s.setP d w).ms = s.ms := by unfold State.setP; split <;> rfl
@[simp] theorem State.setP_own (s : State) (d : Fin 8) (w : PReg) : (s.setP d w).own = s.own := by unfold State.setP; split <;> rfl
@[simp] theorem State.setP_log (s : State) (d : Fin 8) (w : PReg) : (s.setP d w).log = s.log := by unfold State.setP; split <;> rfl
@[simp] theorem State.setP_disp (s : State) (d : Fin 8) (w : PReg) : (s.setP d w).disp = s.disp := by unfold State.setP; split <;> rfl
@[simp] theorem State.setP_eng (s : State) (d : Fin 8) (w : PReg) : (s.setP d w).eng = s.eng := by unfold State.setP; split <;> rfl
@[simp] theorem State.setP_fab (s : State) (d : Fin 8) (w : PReg) : (s.setP d w).fab = s.fab := by unfold State.setP; split <;> rfl
@[simp] theorem State.setP_host (s : State) (d : Fin 8) (w : PReg) : (s.setP d w).host = s.host := by unfold State.setP; split <;> rfl
@[simp] theorem State.setP_mgmt (s : State) (d : Fin 8) (w : PReg) : (s.setP d w).mgmt = s.mgmt := by unfold State.setP; split <;> rfl
@[simp] theorem State.setP_scr (s : State) (d : Fin 8) (w : PReg) : (s.setP d w).scr = s.scr := by unfold State.setP; split <;> rfl
@[simp] theorem State.setP_time (s : State) (d : Fin 8) (w : PReg) : (s.setP d w).time = s.time := by unfold State.setP; split <;> rfl
@[simp] theorem State.setP_node (s : State) (d : Fin 8) (w : PReg) : (s.setP d w).node = s.node := by unfold State.setP; split <;> rfl
@[simp] theorem State.setP_signals (s : State) (d : Fin 8) (w : PReg) : (s.setP d w).signals = s.signals := by unfold State.setP; split <;> rfl
@[simp] theorem State.setP_agenda (s : State) (d : Fin 8) (w : PReg) : (s.setP d w).agenda = s.agenda := by unfold State.setP; split <;> rfl
@[simp] theorem State.setP_tick (s : State) (d : Fin 8) (w : PReg) : (s.setP d w).tick = s.tick := by unfold State.setP; split <;> rfl
@[simp] theorem State.setP_cx_num (s : State) (d : Fin 8) (w : PReg) : (s.setP d w).cx.num = s.cx.num := by
  unfold State.setP; split <;> rfl
@[simp] theorem State.setP_cx_pc (s : State) (d : Fin 8) (w : PReg) : (s.setP d w).cx.pc = s.cx.pc := by
  unfold State.setP; split <;> rfl
@[simp] theorem State.setP_cx_x (s : State) (d : Fin 8) (w : PReg) : (s.setP d w).cx.x = s.cx.x := by
  unfold State.setP; split <;> rfl
@[simp] theorem State.setP_cx_v (s : State) (d : Fin 8) (w : PReg) : (s.setP d w).cx.v = s.cx.v := by
  unfold State.setP; split <;> rfl
@[simp] theorem State.setP_cx_mg (s : State) (d : Fin 8) (w : PReg) : (s.setP d w).cx.mg = s.cx.mg := by
  unfold State.setP; split <;> rfl
@[simp] theorem State.setP_cx_cr (s : State) (d : Fin 8) (w : PReg) : (s.setP d w).cx.cr = s.cx.cr := by
  unfold State.setP; split <;> rfl
@[simp] theorem State.setP_cx_hf (s : State) (d : Fin 8) (w : PReg) : (s.setP d w).cx.hf = s.cx.hf := by
  unfold State.setP; split <;> rfl
@[simp] theorem State.setP_cx_mx (s : State) (d : Fin 8) (w : PReg) : (s.setP d w).cx.mx = s.cx.mx := by
  unfold State.setP; split <;> rfl
@[simp] theorem State.setP_cx_wait (s : State) (d : Fin 8) (w : PReg) : (s.setP d w).cx.wait = s.cx.wait := by
  unfold State.setP; split <;> rfl
@[simp] theorem State.setP_cx_remain (s : State) (d : Fin 8) (w : PReg) : (s.setP d w).cx.remain = s.cx.remain := by
  unfold State.setP; split <;> rfl
@[simp] theorem State.setP_cx_pair (s : State) (d : Fin 8) (w : PReg) : (s.setP d w).cx.pair = s.cx.pair := by
  unfold State.setP; split <;> rfl
@[simp] theorem State.setP_cx_run (s : State) (d : Fin 8) (w : PReg) : (s.setP d w).cx.run = s.cx.run := by
  unfold State.setP; split <;> rfl
@[simp] theorem State.setP_cx_windows (s : State) (d : Fin 8) (w : PReg) : (s.setP d w).cx.windows = s.cx.windows := by
  unfold State.setP; split <;> rfl
@[simp] theorem State.setP_cx_answer (s : State) (d : Fin 8) (w : PReg) : (s.setP d w).cx.answer = s.cx.answer := by
  unfold State.setP; split <;> rfl
@[simp] theorem State.setP_cx_lanes (s : State) (d : Fin 8) (w : PReg) : (s.setP d w).cx.lanes = s.cx.lanes := by
  unfold State.setP; split <;> rfl
@[simp] theorem State.setP_cx_fetched (s : State) (d : Fin 8) (w : PReg) : (s.setP d w).cx.fetched = s.cx.fetched := by
  unfold State.setP; split <;> rfl
@[simp] theorem State.setP_cx_toPost (s : State) (d : Fin 8) (w : PReg) : (s.setP d w).cx.toPost = s.cx.toPost := by
  unfold State.setP; split <;> rfl
@[simp] theorem State.setP_cx_lost (s : State) (d : Fin 8) (w : PReg) : (s.setP d w).cx.lost = s.cx.lost := by
  unfold State.setP; split <;> rfl

/-! ### State.advance -/

@[simp] theorem State.advance_co (s : State) : s.advance.co = s.co := by unfold State.advance; split <;> rfl
@[simp] theorem State.advance_ranks (s : State) : s.advance.ranks = s.ranks := by unfold State.advance; split <;> rfl
@[simp] theorem State.advance_cores (s : State) : s.advance.cores = s.cores := by unfold State.advance; split <;> rfl
@[simp] theorem State.advance_ms (s : State) : s.advance.ms = s.ms := by unfold State.advance; split <;> rfl
@[simp] theorem State.advance_own (s : State) : s.advance.own = s.own := by unfold State.advance; split <;> rfl
@[simp] theorem State.advance_log (s : State) : s.advance.log = s.log := by unfold State.advance; split <;> rfl
@[simp] theorem State.advance_disp (s : State) : s.advance.disp = s.disp := by unfold State.advance; split <;> rfl
@[simp] theorem State.advance_eng (s : State) : s.advance.eng = s.eng := by unfold State.advance; split <;> rfl
@[simp] theorem State.advance_fab (s : State) : s.advance.fab = s.fab := by unfold State.advance; split <;> rfl
@[simp] theorem State.advance_host (s : State) : s.advance.host = s.host := by unfold State.advance; split <;> rfl
@[simp] theorem State.advance_mgmt (s : State) : s.advance.mgmt = s.mgmt := by unfold State.advance; split <;> rfl
@[simp] theorem State.advance_scr (s : State) : s.advance.scr = s.scr := by unfold State.advance; split <;> rfl
@[simp] theorem State.advance_time (s : State) : s.advance.time = s.time := by unfold State.advance; split <;> rfl
@[simp] theorem State.advance_node (s : State) : s.advance.node = s.node := by unfold State.advance; split <;> rfl
@[simp] theorem State.advance_signals (s : State) : s.advance.signals = s.signals := by unfold State.advance; split <;> rfl
@[simp] theorem State.advance_agenda (s : State) : s.advance.agenda = s.agenda := by unfold State.advance; split <;> rfl
@[simp] theorem State.advance_tick (s : State) : s.advance.tick = s.tick := by unfold State.advance; split <;> rfl
@[simp] theorem State.advance_cx_num (s : State) : s.advance.cx.num = s.cx.num := by unfold State.advance; split <;> rfl
@[simp] theorem State.advance_cx_x (s : State) : s.advance.cx.x = s.cx.x := by unfold State.advance; split <;> rfl
@[simp] theorem State.advance_cx_v (s : State) : s.advance.cx.v = s.cx.v := by unfold State.advance; split <;> rfl
@[simp] theorem State.advance_cx_p (s : State) : s.advance.cx.p = s.cx.p := by unfold State.advance; split <;> rfl
@[simp] theorem State.advance_cx_mg (s : State) : s.advance.cx.mg = s.cx.mg := by unfold State.advance; split <;> rfl
@[simp] theorem State.advance_cx_cr (s : State) : s.advance.cx.cr = s.cx.cr := by unfold State.advance; split <;> rfl
@[simp] theorem State.advance_cx_hf (s : State) : s.advance.cx.hf = s.cx.hf := by unfold State.advance; split <;> rfl
@[simp] theorem State.advance_cx_mx (s : State) : s.advance.cx.mx = s.cx.mx := by unfold State.advance; split <;> rfl
@[simp] theorem State.advance_cx_wait (s : State) : s.advance.cx.wait = .none := by unfold State.advance; split <;> rfl
@[simp] theorem State.advance_cx_remain (s : State) : s.advance.cx.remain = none := by unfold State.advance; split <;> rfl
@[simp] theorem State.advance_cx_pair (s : State) : s.advance.cx.pair = false := by unfold State.advance; split <;> rfl
@[simp] theorem State.advance_cx_run (s : State) : s.advance.cx.run = s.cx.run := by unfold State.advance; split <;> rfl
@[simp] theorem State.advance_cx_windows (s : State) : s.advance.cx.windows = s.cx.windows := by unfold State.advance; split <;> rfl
@[simp] theorem State.advance_cx_answer (s : State) : s.advance.cx.answer = none := by unfold State.advance; split <;> rfl
@[simp] theorem State.advance_cx_lanes (s : State) : s.advance.cx.lanes = [] := by unfold State.advance; split <;> rfl
@[simp] theorem State.advance_cx_fetched (s : State) : s.advance.cx.fetched = [] := by unfold State.advance; split <;> rfl
@[simp] theorem State.advance_cx_toPost (s : State) : s.advance.cx.toPost = [] := by unfold State.advance; split <;> rfl
@[simp] theorem State.advance_cx_lost (s : State) : s.advance.cx.lost = s.cx.lost := by unfold State.advance; split <;> rfl
@[simp] theorem State.advance_rk_key (s : State) : s.advance.rk.key = s.rk.key := by unfold State.advance; split <;> rfl
@[simp] theorem State.advance_rk_run (s : State) : s.advance.rk.run = s.rk.run := by unfold State.advance; split <;> rfl
@[simp] theorem State.advance_rk_core (s : State) : s.advance.rk.core = s.rk.core := by unfold State.advance; split <;> rfl
@[simp] theorem State.advance_rk_state (s : State) : s.advance.rk.state = s.rk.state := by unfold State.advance; split <;> rfl
@[simp] theorem State.advance_rk_id (s : State) : s.advance.rk.id = s.rk.id := by unfold State.advance; split <;> rfl
@[simp] theorem State.advance_rk_ctxs (s : State) : s.advance.rk.ctxs = s.rk.ctxs := by unfold State.advance; split <;> rfl
@[simp] theorem State.advance_rk_wake (s : State) : s.advance.rk.wake = s.rk.wake := by unfold State.advance; split <;> rfl
@[simp] theorem State.advance_rk_faults (s : State) : s.advance.rk.faults = s.rk.faults := by unfold State.advance; split <;> rfl
@[simp] theorem State.advance_rk_vote (s : State) : s.advance.rk.vote = s.rk.vote := by unfold State.advance; split <;> rfl
@[simp] theorem State.advance_rk_grp (s : State) : s.advance.rk.grp = s.rk.grp := by unfold State.advance; split <;> rfl
@[simp] theorem State.advance_rk_bar (s : State) : s.advance.rk.bar = s.rk.bar := by unfold State.advance; split <;> rfl
@[simp] theorem State.advance_rk_streams (s : State) : s.advance.rk.streams = s.rk.streams := by unfold State.advance; split <;> rfl
@[simp] theorem State.advance_rk_tiles (s : State) : s.advance.rk.tiles = s.rk.tiles := by unfold State.advance; split <;> rfl
@[simp] theorem State.advance_rk_inbox (s : State) : s.advance.rk.inbox = s.rk.inbox := by unfold State.advance; split <;> rfl
@[simp] theorem State.advance_rk_spilled (s : State) : s.advance.rk.spilled = s.rk.spilled := by unfold State.advance; split <;> rfl
@[simp] theorem State.advance_rk_imaged (s : State) : s.advance.rk.imaged = s.rk.imaged := by unfold State.advance; split <;> rfl
@[simp] theorem State.advance_rk_behind (s : State) : s.advance.rk.behind = s.rk.behind := by unfold State.advance; split <;> rfl
@[simp] theorem State.advance_rk_blotter (s : State) : s.advance.rk.blotter = s.rk.blotter := by unfold State.advance; split <;> rfl
@[simp] theorem State.advance_rk_tickets (s : State) : s.advance.rk.tickets = s.rk.tickets := by unfold State.advance; split <;> rfl
@[simp] theorem State.advance_rk_issued (s : State) : s.advance.rk.issued = s.rk.issued := by unfold State.advance; split <;> rfl
@[simp] theorem State.advance_rk_graphs (s : State) : s.advance.rk.graphs = s.rk.graphs := by unfold State.advance; split <;> rfl
@[simp] theorem State.advance_rk_mx (s : State) : s.advance.rk.mx = s.rk.mx := by unfold State.advance; split <;> rfl
@[simp] theorem State.advance_rk_sig (s : State) : s.advance.rk.sig = s.rk.sig := by unfold State.advance; split <;> rfl

/-- The program counter after an instruction that completes: past its one word, or past both of a solo pair (R52). -/
theorem State.advance_cx_pc (s : State) : s.advance.cx.pc = s.cx.pc + (if s.cx.pair then 8 else 4) := by
  unfold State.advance; split <;> simp_all

/-- Outside a solo pair, the next instruction is the next word and nothing but the context changes. -/
theorem State.advance_of_alone (s : State) (h : s.cx.pair = false) :
    s.advance = { s with cx := s.cx.settled (s.cx.pc + 4) } := by
  simp [State.advance, h]

/-! ### Registers read after a write -/

@[simp] theorem State.x_zero (s : State) : s.x 0 = 0 := rfl

@[simp] theorem State.setX_zero (s : State) (w : Word) : s.setX 0 w = s := rfl

@[simp] theorem State.p_zero (s : State) : s.p 0 = BitVec.allOnes 64 := rfl

@[simp] theorem State.setP_zero (s : State) (w : PReg) : s.setP 0 w = s := rfl

/-- X[D] reads what was written to it, D ≠ 0. -/
theorem State.x_setX_same (s : State) (d : Reg) (w : Word) (h : d ≠ 0) : (s.setX d w).x d = w := by
  simp [State.x, State.setX, h]

/-- Every other register reads as before. -/
theorem State.x_setX_other (s : State) (d r : Reg) (w : Word) (h : r ≠ d) : (s.setX d w).x r = s.x r := by
  unfold State.x State.setX
  by_cases h0 : d = 0
  · simp [h0]
  · have hv : (d : Nat) ≠ r := fun e => h (Fin.ext e.symm)
    simp [h0, Vector.getElem_set_ne, hv]

/-- P[D] reads what was written to it, D ≠ 0. -/
theorem State.p_setP_same (s : State) (d : Fin 8) (w : PReg) (h : d ≠ 0) : (s.setP d w).p d = w := by
  simp [State.p, State.setP, h]

theorem State.p_setP_other (s : State) (d r : Fin 8) (w : PReg) (h : r ≠ d) : (s.setP d w).p r = s.p r := by
  unfold State.p State.setP
  by_cases h0 : d = 0
  · simp [h0]
  · have hv : (d : Nat) ≠ r := fun e => h (Fin.ext e.symm)
    simp [h0, Vector.getElem_set_ne, hv]

@[simp] theorem State.x_advance (s : State) (r : Reg) : s.advance.x r = s.x r := by simp [State.x]

@[simp] theorem State.x_goTo (s : State) (pc : Word) (r : Reg) : (s.goTo pc).x r = s.x r := rfl

@[simp] theorem State.x_waitFor (s : State) (w : Wait) (r : Reg) : (s.waitFor w).x r = s.x r := rfl

@[simp] theorem State.p_advance (s : State) (r : Fin 8) : s.advance.p r = s.p r := by simp [State.p]

end Sys2Proof.Machine
end

