-- ==== Sys2Proof/Laws/Lanes.lean ====
section
/-! SUPPORT. The lanes of a vector register and of a mask, read one by one: what lanesOf, joinLanes, activeLanes and laneMask give at
a position, and the frame of every vector instruction without a memory operand. -/

namespace Sys2Proof.Machine

open Sys2Proof

/-! ### Lanes (R137, R166) -/

@[simp] theorem lanesFrom_length (w n v : Nat) : (lanesFrom w n v).length = n := by
  induction n generalizing v with
  | zero => rfl
  | succ n ih => simp [lanesFrom, ih]

/-- Lane j of the n lowest is the w bits from w × j on. -/
theorem lanesFrom_getElem? (w : Nat) {n j : Nat} (v : Nat) (h : j < n) :
    (lanesFrom w n v)[j]? = some (v / 2^(w * j) % 2^w) := by
  induction n generalizing v j with
  | zero => omega
  | succ n ih =>
    cases j with
    | zero => simp [lanesFrom]
    | succ j =>
      simp only [lanesFrom, List.getElem?_cons_succ]
      rw [ih _ (by omega), Nat.div_div_eq_div_mul, ← Nat.pow_add, Nat.mul_succ, Nat.add_comm w]

@[simp] theorem lanesOf_length (w : Nat) (v : VReg) : (lanesOf w v).length = 1024 / w := lanesFrom_length ..

/-- Lane j of a register is laneAt, as a number. -/
theorem lanesOf_getElem? (w : Nat) {j : Nat} (v : VReg) (h : j < 1024 / w) : (lanesOf w v)[j]? = some (laneAt w v j).toNat := by
  rw [lanesOf, lanesFrom_getElem? w _ h, laneAt, BitVec.extractLsb'_toNat, Nat.shiftRight_eq_div_pow]

theorem joinNat_lt (w : Nat) (xs : List Nat) : joinNat w xs < 2^(w * xs.length) := by
  induction xs with
  | nil => simp [joinNat]
  | cons x r ih =>
    have hx : x % 2^w < 2^w := Nat.mod_lt _ (by positivity)
    have he : 2^(w * (r.length + 1)) = 2^w * 2^(w * r.length) := by rw [Nat.mul_succ, Nat.add_comm, Nat.pow_add]
    simp only [joinNat, List.length_cons, he]
    have := Nat.mul_le_mul_left (2^w) (Nat.succ_le_of_lt ih)
    rw [Nat.mul_succ] at this
    omega

/-- Position j of the joined number. -/
theorem joinNat_at (w : Nat) {xs : List Nat} {j x : Nat} (h : xs[j]? = some x) : joinNat w xs / 2^(w * j) % 2^w = x % 2^w := by
  induction xs generalizing j with
  | nil => simp at h
  | cons y r ih =>
    cases j with
    | zero =>
      simp only [List.getElem?_cons_zero, Option.some.injEq] at h
      subst h
      simp [joinNat, Nat.add_mul_mod_self_left]
    | succ j =>
      simp only [List.getElem?_cons_succ] at h
      rw [← ih h, Nat.mul_succ, Nat.add_comm (w * j), Nat.pow_add, ← Nat.div_div_eq_div_mul]
      congr 2
      rw [joinNat, Nat.add_mul_div_left _ _ (by positivity), Nat.div_eq_of_lt (Nat.mod_lt _ (by positivity)), Nat.zero_add]

/-- Lane j of joined lanes is the j-th, cut to w bits. -/
theorem laneAt_joinLanes {w j x : Nat} {xs : List Nat} (hj : w * j + w ≤ 1024) (h : xs[j]? = some x) :
    laneAt w (joinLanes w xs) j = BitVec.ofNat w x := by
  apply BitVec.eq_of_toNat_eq
  rw [laneAt, BitVec.extractLsb'_toNat, joinLanes, BitVec.toNat_ofNat, BitVec.toNat_ofNat, Nat.shiftRight_eq_div_pow,
    ← joinNat_at w h]
  obtain ⟨r, hr⟩ := Nat.exists_eq_add_of_le hj
  rw [hr, Nat.pow_add, Nat.pow_add, Nat.mul_assoc, Nat.mod_mul_right_div_self, Nat.mod_mul_right_mod]

/-! ### Masks (R166, R167) -/

@[simp] theorem activeLanes_length (w : Nat) (m : Mask) : (activeLanes w m).length = 1024 / w := by simp [activeLanes]

/-- Lane j is active where the bit of its lowest byte is set. -/
theorem activeLanes_getElem? {w j : Nat} (hw : 8 ≤ w) (m : Mask) (h : j < 1024 / w) :
    (activeLanes w m)[j]? = some (m.getLsbD (w / 8 * j)) := by
  rw [activeLanes, List.getElem?_map, lanesFrom_getElem? _ _ h]
  simp only [Option.map_some, Option.some.injEq]
  have hd : (2:Nat) ∣ 2^(w / 8) := dvd_pow_self 2 (by omega)
  rw [Nat.mod_mod_of_dvd _ hd, BitVec.getLsbD, Nat.testBit_eq_decide_div_mod_eq]
  rfl

/-- Bit k of a lane mask is the lane that byte k lies in. -/
theorem laneMask_getLsbD {w k : Nat} {ls : List Bool} {b : Bool} (hw : 8 ≤ w) (hk : k < 128)
    (h : ls[k / (w / 8)]? = some b) : (laneMask w ls).getLsbD k = b := by
  have hc : 0 < w / 8 := by omega
  have hx : (ls.map fun b => if b then 2^(w / 8) - 1 else 0)[k / (w / 8)]? = some (if b then 2^(w / 8) - 1 else 0) := by
    simp [h]
  have hj := joinNat_at (w / 8) hx
  have hd := Nat.div_add_mod k (w / 8)
  have hm := Nat.mod_lt k hc
  unfold laneMask
  generalize joinNat (w / 8) (ls.map fun b => if b then 2^(w / 8) - 1 else 0) = n at hj
  rw [BitVec.getLsbD_ofNat, decide_eq_true hk, Bool.true_and]
  have hb := congrArg (fun z => z.testBit (k % (w / 8))) hj
  simp only [Nat.testBit_mod_two_pow, Nat.testBit_div_two_pow, decide_eq_true hm, Bool.true_and] at hb
  rw [Nat.add_comm, hd] at hb
  rw [hb]
  cases b <;> simp [Nat.testBit_two_pow_sub_one, hm]

/-- The mask that a vector instruction writes through: byte k of an active lane. -/
theorem laneMask_activeLanes {w k : Nat} (hw : w ∣ 1024) (h8 : 8 ∣ w) (m : Mask) (hk : k < 128) :
    (laneMask w (activeLanes w m)).getLsbD k = byteActive w m k := by
  obtain ⟨c, rfl⟩ := h8
  have hc : 0 < c := by
    rcases Nat.eq_zero_or_pos c with rfl | h
    · simp at hw
    · exact h
  obtain ⟨n, hn⟩ := hw
  have hcn : c * n = 128 := by
    have : 8 * (c * n) = 8 * 128 := by rw [← Nat.mul_assoc, ← hn]
    omega
  have hd : 8 * c / 8 = c := by omega
  have hl : k / c < 1024 / (8 * c) := by
    have h1 : 1024 / (8 * c) = n := by rw [hn]; exact Nat.mul_div_cancel_left n (by omega)
    rw [h1, Nat.div_lt_iff_lt_mul hc, Nat.mul_comm, hcn]
    exact hk
  rw [laneMask_getLsbD (b := m.getLsbD (8 * c / 8 * (k / c))) (by omega) hk (by rw [hd]; simpa [hd] using activeLanes_getElem? (by omega) m hl),
    byteActive, hd, Nat.mul_comm]

/-! ### The frame of a vector instruction (R91, R168, R318) -/

/-- Where the stream checks pass, a vector instruction has its effect, steps its streams and advances. -/
theorem State.vector_runs {s : State} {i : Instr} {srcs : List VField} {dst : Option VField} {old : Bool} (k : List VReg → State)
    (h : vectorRuns s i srcs dst old) :
    s.vector i srcs dst old k = .next ((k (srcs.map s.source)).stepStreams (srcs ++ dst.toList)).advance := by
  obtain ⟨h1, h2⟩ := h
  unfold State.vector
  simp only [h1, h2]

/-- A vector instruction always answers a next state. -/
theorem State.vector_next (s : State) (i : Instr) (srcs : List VField) (dst : Option VField) (old : Bool) (k : List VReg → State) :
    ∃ t, s.vector i srcs dst old k = .next t := by
  unfold State.vector
  simp only
  split
  · exact ⟨_, rfl⟩
  · split <;> exact ⟨_, rfl⟩

/-- An instruction that names registers alone passes the stream checks in every state. -/
theorem vectorRuns_registers {s : State} {i : Instr} {srcs : List VField} {dst : Option VField} {old : Bool}
    (hs : ∀ f ∈ srcs, f.val < 28) (hd : ∀ f ∈ dst, f.val < 28) : vectorRuns s i srcs dst old := by
  have hn : ∀ u ∈ srcs.map srcUse ++ (dst.map fun d => VUse.mk d true old).toList, streamNo u.f = none := by
    intro u hu
    rcases List.mem_append.mp hu with hu | hu
    · obtain ⟨f, hf, rfl⟩ := List.mem_map.mp hu
      simp [srcUse, streamNo, hs f hf]
    · obtain ⟨f, hf, rfl⟩ := Option.map_eq_some_iff.mp (Option.mem_toList.mp hu)
      simp [streamNo, hd f hf]
  unfold vectorRuns
  dsimp only
  generalize srcs.map srcUse ++ (dst.map fun d => VUse.mk d true old).toList = us at hn ⊢
  have h1 : (us.any fun u => (streamNo u.f).isSome) = false := by
    rw [List.any_eq_false]; intro u hu; simp [hn u hu]
  have h2 : us.find? s.badUse = none := by
    rw [List.find?_eq_none]; intro u hu; simp [State.badUse, hn u hu]
  have h3 : us.find? s.pastTile = none := by
    rw [List.find?_eq_none]; intro u hu; simp [State.pastTile, hn u hu]
  have h4 : us.findSome? s.badState = none := by
    rw [List.findSome?_eq_none_iff]; intro u hu; simp [State.badState, hn u hu]
  have h5 : us.any s.stalls = false := by
    rw [List.any_eq_false]; intro u hu; simp [State.stalls, hn u hu]
  exact ⟨by simp [State.streamsLegal, h1, h2, h3], by simp [State.streamsReady, h4, h5]⟩

end Sys2Proof.Machine
end

