-- ==== Sys2Proof/Laws/Memory.lean ====
section
/-! SUPPORT. The laws of memory: a read after a write, and that every operation on memory keeps its canonical form
(Memory.wf). The lemmas on cells come first, then one for each operation. -/

namespace Sys2Proof.Machine

open Sys2Proof

/-! ### Sorted lists of cells -/

/-- Whether every key of the list stands above lo. -/
def cellsAbove (lo : Option Nat) (l : List Host.Cell) : Prop := ∀ c ∈ l, ∀ k, lo = some k → k < c.1

theorem cellsRise_cons (lo : Option Nat) (k : Nat) (b : Byte) (r : List Host.Cell) :
    cellsRise lo ((k, b) :: r) = true ↔ (∀ l, lo = some l → l < k) ∧ cellsRise (some k) r = true := by
  cases lo <;> simp [cellsRise]

/-- A rising list above lo rises above anything below lo. -/
theorem cellsRise_weaken {l : List Host.Cell} {lo : Option Nat} {hi : Nat} (h : cellsRise (some hi) l = true)
    (hl : ∀ k, lo = some k → k ≤ hi) : cellsRise lo l = true := by
  cases l with
  | nil => simp [cellsRise]
  | cons c r =>
    obtain ⟨k, b⟩ := c
    rw [cellsRise_cons] at h ⊢
    exact ⟨fun j hj => Nat.lt_of_le_of_lt (hl j hj) (h.1 hi rfl), h.2⟩

/-- Every key of a rising list stands above its bound. -/
theorem cellsRise_above {l : List Host.Cell} {lo : Nat} (h : cellsRise (some lo) l = true) : ∀ c ∈ l, lo < c.1 := by
  induction l generalizing lo with
  | nil => simp
  | cons c r ih =>
    obtain ⟨k, b⟩ := c
    rw [cellsRise_cons] at h
    intro d hd
    rcases List.mem_cons.1 hd with rfl | hd
    · exact h.1 lo rfl
    · exact Nat.lt_trans (h.1 lo rfl) (ih h.2 d hd)

/-- Nothing is found at or below the bound of a rising list. -/
theorem cellsFind_below {l : List Host.Cell} {a lo : Nat} (h : cellsRise (some lo) l = true) (ha : a ≤ lo) :
    cellsFind a l = none := by
  cases l with
  | nil => rfl
  | cons c r =>
    obtain ⟨k, b⟩ := c
    rw [cellsRise_cons] at h
    have := h.1 lo rfl
    simp only [cellsFind]
    rw [if_neg (by omega), if_pos (by omega)]

theorem cellsFind_put_same (a : Nat) (b : Byte) (l : List Host.Cell) : cellsFind a (cellsPut a b l) = some b := by
  induction l with
  | nil => simp [cellsPut, cellsFind]
  | cons c r ih =>
    obtain ⟨k, v⟩ := c
    simp only [cellsPut]
    split
    · simp [cellsFind]
    · split
      · simp [cellsFind]
      · simp only [cellsFind]
        rw [if_neg (by omega), if_neg (by omega), ih]

theorem cellsFind_put_other {a c : Nat} (b : Byte) (l : List Host.Cell) (h : c ≠ a) (lo : Option Nat)
    (hr : cellsRise lo l = true) : cellsFind c (cellsPut a b l) = cellsFind c l := by
  induction l generalizing lo with
  | nil => simp [cellsPut, cellsFind, Ne.symm h]
  | cons d r ih =>
    obtain ⟨k, v⟩ := d
    rw [cellsRise_cons] at hr
    simp only [cellsPut]
    split
    · rename_i hak
      simp only [cellsFind]
      rw [if_neg (Ne.symm h)]
      split
      · rename_i hca
        rw [if_neg (by omega), if_pos (by omega)]
      · rfl
    · split
      · rename_i hak
        subst hak
        simp only [cellsFind]
        rw [if_neg (Ne.symm h), if_neg (Ne.symm h)]
      · simp only [cellsFind]
        rw [ih (some k) hr.2]

theorem cellsFind_erase_same {a : Nat} (l : List Host.Cell) (lo : Option Nat) (hr : cellsRise lo l = true) :
    cellsFind a (cellsErase a l) = none := by
  induction l generalizing lo with
  | nil => rfl
  | cons d r ih =>
    obtain ⟨k, v⟩ := d
    rw [cellsRise_cons] at hr
    simp only [cellsErase]
    split
    · rename_i hak
      subst hak
      exact cellsFind_below hr.2 (Nat.le_refl _)
    · split
      · simp only [cellsFind]
        rw [if_neg (by omega), if_pos (by omega)]
      · simp only [cellsFind]
        rw [if_neg (by omega), if_neg (by omega), ih (some k) hr.2]

theorem cellsFind_erase_other {a c : Nat} (l : List Host.Cell) (h : c ≠ a) (lo : Option Nat)
    (hr : cellsRise lo l = true) : cellsFind c (cellsErase a l) = cellsFind c l := by
  induction l generalizing lo with
  | nil => rfl
  | cons d r ih =>
    obtain ⟨k, v⟩ := d
    rw [cellsRise_cons] at hr
    simp only [cellsErase]
    split
    · rename_i hak
      subst hak
      simp only [cellsFind]
      rw [if_neg (Ne.symm h)]
      split
      · exact cellsFind_below hr.2 (by omega)
      · rfl
    · split
      · rfl
      · simp only [cellsFind]
        rw [ih (some k) hr.2]

theorem cellsRise_put {a : Nat} (b : Byte) (l : List Host.Cell) (lo : Option Nat) (hr : cellsRise lo l = true)
    (ha : ∀ k, lo = some k → k < a) : cellsRise lo (cellsPut a b l) = true := by
  induction l generalizing lo with
  | nil => simp only [cellsPut]; rw [cellsRise_cons]; exact ⟨ha, rfl⟩
  | cons d r ih =>
    obtain ⟨k, v⟩ := d
    rw [cellsRise_cons] at hr
    simp only [cellsPut]
    split
    · rename_i hak
      rw [cellsRise_cons, cellsRise_cons]
      exact ⟨ha, fun j hj => by cases hj; exact hak, hr.2⟩
    · split
      · rename_i hak
        subst hak
        rw [cellsRise_cons]
        exact ⟨ha, hr.2⟩
      · rw [cellsRise_cons]
        exact ⟨hr.1, ih (some k) hr.2 fun j hj => by cases hj; omega⟩

theorem cellsRise_erase {a : Nat} (l : List Host.Cell) (lo : Option Nat) (hr : cellsRise lo l = true) :
    cellsRise lo (cellsErase a l) = true := by
  induction l generalizing lo with
  | nil => rfl
  | cons d r ih =>
    obtain ⟨k, v⟩ := d
    have hr' := hr
    rw [cellsRise_cons] at hr
    simp only [cellsErase]
    split
    · exact cellsRise_weaken hr.2 fun j hj => Nat.le_of_lt (hr.1 j hj)
    · split
      · exact hr'
      · rw [cellsRise_cons]
        exact ⟨hr.1, ih (some k) hr.2⟩

theorem cellsRise_filter (p : Host.Cell → Bool) (l : List Host.Cell) (lo : Option Nat) (hr : cellsRise lo l = true) :
    cellsRise lo (l.filter p) = true := by
  induction l generalizing lo with
  | nil => rfl
  | cons d r ih =>
    obtain ⟨k, v⟩ := d
    rw [cellsRise_cons] at hr
    rw [List.filter_cons]
    split
    · rw [cellsRise_cons]
      exact ⟨hr.1, ih (some k) hr.2⟩
    · exact cellsRise_weaken (ih (some k) hr.2) fun j hj => Nat.le_of_lt (hr.1 j hj)

/-! ### What no entry may be -/

theorem cellsProper_iff (m : Memory) (l : List Host.Cell) :
    cellsProper m l = true ↔ ∀ c ∈ l, c.2 ≠ unlisted m c.1 := by
  induction l with
  | nil => simp [cellsProper]
  | cons d r ih =>
    obtain ⟨k, v⟩ := d
    simp [cellsProper, ih]

theorem mem_cellsPut {a : Nat} {b : Byte} {l : List Host.Cell} {c : Host.Cell} (h : c ∈ cellsPut a b l) :
    c = (a, b) ∨ c ∈ l := by
  induction l with
  | nil => simpa [cellsPut] using h
  | cons d r ih =>
    obtain ⟨k, v⟩ := d
    simp only [cellsPut] at h
    split at h
    · rcases List.mem_cons.1 h with h | h
      · exact .inl h
      · exact .inr h
    · split at h
      · rcases List.mem_cons.1 h with h | h
        · exact .inl h
        · exact .inr (List.mem_cons_of_mem _ h)
      · rcases List.mem_cons.1 h with h | h
        · exact .inr (h ▸ List.mem_cons_self)
        · rcases ih h with h | h
          · exact .inl h
          · exact .inr (List.mem_cons_of_mem _ h)

theorem mem_cellsErase {a : Nat} {l : List Host.Cell} {c : Host.Cell} (h : c ∈ cellsErase a l) : c ∈ l := by
  induction l with
  | nil => simp [cellsErase] at h
  | cons d r ih =>
    obtain ⟨k, v⟩ := d
    simp only [cellsErase] at h
    split at h
    · exact List.mem_cons_of_mem _ h
    · split at h
      · exact h
      · rcases List.mem_cons.1 h with h | h
        · exact h ▸ List.mem_cons_self
        · exact List.mem_cons_of_mem _ (ih h)

/-- The two halves of the canonical form. -/
theorem Memory.wf_iff (m : Memory) :
    m.wf = true ↔ cellsRise none m.bytes = true ∧ ∀ c ∈ m.bytes, c.2 ≠ unlisted m c.1 := by
  simp [Memory.wf, cellsProper_iff]

/-- What an unlisted byte reads as depends on the plots whose key changed alone. -/
theorem unlisted_congr {m n : Memory} (h : m.keyed = n.keyed) : unlisted m = unlisted n := by
  funext pa
  simp [unlisted, keyedOf, h]

/-! ### One byte -/

@[simp] theorem writeByte_keyed (m : Memory) (pa : Nat) (b : Byte) : (writeByte m pa b).keyed = m.keyed := rfl

@[simp] theorem writeByte_full (m : Memory) (pa : Nat) (b : Byte) : (writeByte m pa b).full = m.full := rfl

@[simp] theorem unlisted_writeByte (m : Memory) (pa : Nat) (b : Byte) : unlisted (writeByte m pa b) = unlisted m :=
  unlisted_congr rfl

/-- A byte reads as it was written. -/
theorem readByte_writeByte_same (m : Memory) (h : m.wf = true) (pa : Nat) (b : Byte) :
    readByte (writeByte m pa b) pa = b := by
  have hr := ((Memory.wf_iff m).1 h).1
  simp only [readByte, unlisted_writeByte]
  simp only [writeByte, cellsWrite]
  split
  · rename_i hb
    rw [cellsFind_erase_same _ none hr, hb]; rfl
  · rw [cellsFind_put_same]; rfl

/-- Every other byte reads as before. -/
theorem readByte_writeByte_other (m : Memory) (h : m.wf = true) (pa c : Nat) (b : Byte) (hc : c ≠ pa) :
    readByte (writeByte m pa b) c = readByte m c := by
  have hr := ((Memory.wf_iff m).1 h).1
  simp only [readByte, unlisted_writeByte]
  simp only [writeByte, cellsWrite]
  split
  · rw [cellsFind_erase_other _ hc none hr]
  · rw [cellsFind_put_other _ _ hc none hr]

theorem writeByte_wf (m : Memory) (h : m.wf = true) (pa : Nat) (b : Byte) : (writeByte m pa b).wf = true := by
  obtain ⟨hr, hp⟩ := (Memory.wf_iff m).1 h
  rw [Memory.wf_iff, unlisted_writeByte]
  simp only [writeByte, cellsWrite]
  split
  · exact ⟨cellsRise_erase _ none hr, fun c hc => hp c (mem_cellsErase hc)⟩
  · rename_i hb
    refine ⟨cellsRise_put b _ none hr (by simp), fun c hc => ?_⟩
    rcases mem_cellsPut hc with rfl | hc
    · exact hb
    · exact hp c hc

/-! ### Many bytes -/

theorem writeBytes_wf (bs : List Byte) (m : Memory) (h : m.wf = true) (pa : Nat) : (writeBytes m pa bs).wf = true := by
  induction bs generalizing m pa with
  | nil => exact h
  | cons b r ih => exact ih _ (writeByte_wf m h pa b) _

theorem writeLE_wf (m : Memory) (h : m.wf = true) (pa n v : Nat) : (writeLE m pa n v).wf = true :=
  writeBytes_wf _ m h pa

@[simp] theorem writeBytes_keyed (bs : List Byte) (m : Memory) (pa : Nat) : (writeBytes m pa bs).keyed = m.keyed := by
  induction bs generalizing m pa with
  | nil => rfl
  | cons b r ih => simp [writeBytes, ih]

@[simp] theorem writeBytes_full (bs : List Byte) (m : Memory) (pa : Nat) : (writeBytes m pa bs).full = m.full := by
  induction bs generalizing m pa with
  | nil => rfl
  | cons b r ih => simp [writeBytes, ih]

/-- A byte outside the stored ones reads as before. -/
theorem readByte_writeBytes_outside (bs : List Byte) (m : Memory) (h : m.wf = true) (pa c : Nat)
    (hc : c < pa ∨ pa + bs.length ≤ c) : readByte (writeBytes m pa bs) c = readByte m c := by
  induction bs generalizing m pa with
  | nil => rfl
  | cons b r ih =>
    simp only [writeBytes, List.length_cons] at hc ⊢
    rw [ih _ (writeByte_wf m h pa b) _ (by omega), readByte_writeByte_other m h _ _ _ (by omega)]

/-- The bytes stored read as they were written. -/
theorem readBytes_writeBytes (bs : List Byte) (m : Memory) (h : m.wf = true) (pa : Nat) :
    readBytes (writeBytes m pa bs) pa bs.length = bs := by
  induction bs generalizing m pa with
  | nil => rfl
  | cons b r ih =>
    simp only [writeBytes, List.length_cons, readBytes]
    rw [ih _ (writeByte_wf m h pa b), readByte_writeBytes_outside _ _ (writeByte_wf m h pa b) _ _ (by omega),
      readByte_writeByte_same m h]

@[simp] theorem leBytes_length (n v : Nat) : (leBytes n v).length = n := by
  induction n generalizing v with
  | zero => rfl
  | succ n ih => simp [leBytes, ih]

/-- The little-endian bytes of a value have it as their value, modulo 256 to their number. -/
theorem leNat_leBytes (n v : Nat) : leNat (leBytes n v) = v % 256 ^ n := by
  induction n generalizing v with
  | zero => simp [leBytes, leNat, Nat.mod_one]
  | succ n ih =>
    simp only [leBytes, leNat, ih, BitVec.toNat_ofNat]
    have p : (256 : Nat) ^ (n + 1) = 256 * 256 ^ n := Nat.pow_succ'
    rw [p]
    exact Nat.mod_mul.symm

/-- A little-endian value reads back as it was written. -/
theorem readLE_writeLE (m : Memory) (h : m.wf = true) (pa n v : Nat) : readLE (writeLE m pa n v) pa n = v % 256 ^ n := by
  have := readBytes_writeBytes (leBytes n v) m h pa
  rw [leBytes_length] at this
  simp only [readLE, writeLE, this, leNat_leBytes]

/-! ### Full/empty bits, scrubs and key changes -/

theorem setFull_wf (m : Memory) (h : m.wf = true) (pa : Nat) (b : Bool) : (setFull m pa b).wf = true := by
  rw [Memory.wf_iff] at *
  rw [unlisted_congr (m := setFull m pa b) (n := m) rfl]
  exact h

@[simp] theorem readByte_setFull (m : Memory) (pa c : Nat) (b : Bool) : readByte (setFull m pa b) c = readByte m c := rfl

theorem scrubRange_wf (m : Memory) (h : m.wf = true) (pa n : Nat) : (scrubRange m pa n).wf = true := by
  obtain ⟨hr, hp⟩ := (Memory.wf_iff m).1 h
  rw [Memory.wf_iff, unlisted_congr (m := scrubRange m pa n) (n := m) rfl]
  exact ⟨cellsRise_filter _ _ none hr, fun c hc => hp c (List.mem_filter.1 hc).1⟩

theorem getAt_find {α : Type} (l : List (Nat × α)) (k : Nat) :
    ((l.find? fun e => e.1 == k).map (·.2)) = getAt none k (l.map fun e => (e.1, some e.2)) := by
  induction l with
  | nil => rfl
  | cons d r ih =>
    obtain ⟨j, v⟩ := d
    simp only [List.find?_cons, List.map_cons, getAt]
    by_cases h : j = k
    · simp [h]
    · have : (j == k) = false := by simpa using h
      simp only [this, ih]
      rw [if_neg h]

theorem find_dropAt_other {α : Type} (l : List (Nat × α)) (k q : Nat) (h : q ≠ k) :
    ((dropAt k l).find? fun e => e.1 == q) = l.find? fun e => e.1 == q := by
  induction l with
  | nil => rfl
  | cons d r ih =>
    obtain ⟨j, v⟩ := d
    simp only [dropAt]
    split
    · rename_i hj
      have : (j == q) = false := by simp only [beq_eq_false_iff_ne]; omega
      simp [this]
    · simp only [List.find?_cons, ih]

theorem find_putAt_other {α : Type} (l : List (Nat × α)) (k q : Nat) (v : α) (h : q ≠ k) :
    ((putAt k v l).find? fun e => e.1 == q) = l.find? fun e => e.1 == q := by
  have hk : (k == q) = false := by simp only [beq_eq_false_iff_ne]; omega
  induction l with
  | nil => simp [putAt, hk]
  | cons d r ih =>
    obtain ⟨j, w⟩ := d
    simp only [putAt]
    split
    · simp [List.find?_cons, hk]
    · split
      · rename_i hj
        have : (j == q) = false := by simp only [beq_eq_false_iff_ne]; omega
        simp [hk, this]
      · simp only [List.find?_cons, ih]

/-- What an unlisted byte outside plot p reads as is the same before and after a change of p's key. -/
theorem unlisted_outside {m n : Memory} {p : Nat}
    (h : ∀ q, q ≠ p → (n.keyed.find? fun e => e.1 == q) = m.keyed.find? fun e => e.1 == q) (pa : Nat)
    (hpa : plotOf pa ≠ p) : unlisted n pa = unlisted m pa := by
  simp [unlisted, keyedOf, h _ hpa]

/-- Bytes written one by one keep the canonical form. -/
theorem writeCells_wf (cs : List Host.Cell) (m : Memory) (h : m.wf = true) :
    (cs.foldl (fun n c => writeByte n c.1 c.2) m).wf = true := by
  induction cs generalizing m with
  | nil => exact h
  | cons c r ih => exact ih _ (writeByte_wf m h c.1 c.2)

/-- Bytes written one by one leave every byte of another plot as it was. -/
theorem readByte_writeCells_outside (cs : List Host.Cell) (m : Memory) (h : m.wf = true) (pa : Nat) (hc : ∀ c ∈ cs, c.1 ≠ pa) :
    readByte (cs.foldl (fun n c => writeByte n c.1 c.2) m) pa = readByte m pa := by
  induction cs generalizing m with
  | nil => rfl
  | cons c r ih =>
    rw [List.foldl_cons, ih _ (writeByte_wf m h c.1 c.2) fun d hd => hc d (List.mem_cons_of_mem _ hd)]
    exact readByte_writeByte_other m h c.1 pa c.2 (Ne.symm (hc c List.mem_cons_self))

/-- A plot without its bytes, under another account of its key, is in canonical form. -/
theorem unkeyed_wf (m : Memory) (h : m.wf = true) (p : Nat) (l : List (Nat × KeyedPlot))
    (hl : ∀ q, q ≠ p → (l.find? fun e => e.1 == q) = m.keyed.find? fun e => e.1 == q) :
    Memory.wf { m with bytes := m.bytes.filter fun c => plotOf c.1 != p, keyed := l } = true := by
  obtain ⟨hr, hp⟩ := (Memory.wf_iff m).1 h
  rw [Memory.wf_iff]
  refine ⟨cellsRise_filter _ _ none hr, fun c hc => ?_⟩
  obtain ⟨hm, hne⟩ := List.mem_filter.1 hc
  rw [unlisted_outside (m := m) (p := p) hl c.1 (by simpa using hne)]
  exact hp c hm

/-- The account of another plot's key stays. -/
theorem keyed_other (m : Memory) (p : Nat) (k : KeyedPlot) (b : Bool) (q : Nat) (hq : q ≠ p) :
    ((if b then dropAt p m.keyed else putAt p k m.keyed).find? fun e => e.1 == q) = m.keyed.find? fun e => e.1 == q := by
  cases b
  · exact find_putAt_other _ _ _ _ hq
  · exact find_dropAt_other _ _ _ hq

theorem rekeyPlot_wf (m : Memory) (h : m.wf = true) (p old new : Nat) : (rekeyPlot m p old new).wf = true := by
  unfold rekeyPlot
  dsimp only
  split
  · exact h
  · exact writeCells_wf _ _ (unkeyed_wf m h p _ fun q hq => keyed_other m p _ _ q hq)

theorem cellsFind_filter {l : List Host.Cell} (q : Host.Cell → Bool) (a : Nat) (h : ∀ b, q (a, b) = true) (lo : Option Nat)
    (hr : cellsRise lo l = true) : cellsFind a (l.filter q) = cellsFind a l := by
  induction l generalizing lo with
  | nil => rfl
  | cons d r ih =>
    obtain ⟨k, v⟩ := d
    rw [cellsRise_cons] at hr
    rw [List.filter_cons]
    split
    · simp only [cellsFind]
      rw [ih (some k) hr.2]
    · rename_i hq
      have hka : k ≠ a := fun e => hq (e ▸ h v)
      rw [ih (some k) hr.2]
      simp only [cellsFind]
      rw [if_neg hka]
      split
      · exact cellsFind_below hr.2 (by omega)
      · rfl

/-- A change of a plot's key leaves every byte outside it as it was. -/
theorem readByte_rekeyPlot_outside (m : Memory) (h : m.wf = true) (p old new pa : Nat) (hpa : plotOf pa ≠ p) :
    readByte (rekeyPlot m p old new) pa = readByte m pa := by
  have hr := ((Memory.wf_iff m).1 h).1
  unfold rekeyPlot
  dsimp only
  split
  · rfl
  · rw [readByte_writeCells_outside _ _ (unkeyed_wf m h p _ fun q hq => keyed_other m p _ _ q hq) pa ?_]
    · simp only [readByte]
      rw [unlisted_outside (m := m) (p := p) (fun q hq => keyed_other m p _ _ q hq) pa hpa]
      rw [cellsFind_filter _ _ (by simpa using hpa) none hr]
    · intro c hc e
      have := (List.mem_filter.1 hc).2
      simp only [beq_iff_eq] at this
      exact hpa (e ▸ this)

theorem scrubPlot_wf (m : Memory) (h : m.wf = true) (p : Nat) : (scrubPlot m p).wf = true := by
  obtain ⟨hr, hp⟩ := (Memory.wf_iff m).1 h
  rw [Memory.wf_iff]
  refine ⟨cellsRise_filter _ _ none hr, fun c hc => ?_⟩
  obtain ⟨hm, hne⟩ := List.mem_filter.1 hc
  have hpl : plotOf c.1 ≠ p := by
    intro e
    simp only [plotOf] at e
    simp only [Bool.not_eq_true', Bool.and_eq_false_iff, decide_eq_false_iff_not] at hne
    omega
  rw [unlisted_outside (m := m) (p := p) (fun q hq => find_dropAt_other _ _ _ hq) c.1 hpl]
  exact hp c hm

/-! ### A and D bits, reset -/

/-- The update of A and D keeps the canonical form. -/
theorem markUsed_wf (ms : MemSystem) (h : ms.mem.wf = true) (o : OwnerRec) (va : Word) (acc : Access) (l : Leaf) :
    (markUsed ms o va acc l).mem.wf = true := by
  unfold markUsed
  dsimp only
  cases l.loc with
  | none => exact h
  | some a =>
    dsimp only
    generalize (l.entry ||| 0x20 ||| (if acc.writes then 0x40 else 0)) = e
    split
    · exact h
    · exact writeLE_wf _ h _ _ _

theorem State.reset_mem_wf : State.reset.ms.mem.wf = true := rfl

end Sys2Proof.Machine
end

