-- ==== Sys2Proof/Laws/Ops.lean ====
section
/-! SUPPORT. What each shared operation of Ops and Access can do, once, so that a proof cites it and does not unfold the operation. -/

namespace Sys2Proof.Machine

open Sys2Proof

/-! ### Taking an exception and returning from one (R303 to R305, R309) -/

/-- The state a precise trap starts from: a solo pair that its elected rank traps on is marked failed first (R54). -/
def State.trapFrom (s : State) (cause : BitVec 8) : State :=
  if s.cx.pair then s.soloFail (s.rk.solo.count + 1) cause else s

/-- Marking an instance failed changes the ranks' solo records and nothing else. -/
theorem State.soloFail_frame (s : State) (k : Nat) (cause : BitVec 8) :
    (s.soloFail k cause).cx = s.cx ∧ (s.soloFail k cause).co = s.co ∧ (s.soloFail k cause).ms = s.ms
      ∧ (s.soloFail k cause).disp = s.disp ∧ (s.soloFail k cause).own = s.own ∧ (s.soloFail k cause).eng = s.eng
      ∧ (s.soloFail k cause).fab = s.fab ∧ (s.soloFail k cause).host = s.host := ⟨rfl, rfl, rfl, rfl, rfl, rfl, rfl, rfl⟩

@[simp] theorem State.trapFrom_cx (s : State) (cause : BitVec 8) : (s.trapFrom cause).cx = s.cx := by
  unfold State.trapFrom; split <;> rfl

@[simp] theorem State.trapFrom_ms (s : State) (cause : BitVec 8) : (s.trapFrom cause).ms = s.ms := by
  unfold State.trapFrom; split <;> rfl

/-- Everything a precise trap can do once it is taken: fault-lock while HF is set, NOHANDLER without a handler, else entry into the
handler. -/
theorem State.takeTrap_cases (s : State) (cause : BitVec 8) (val : Word) :
    (s.cx.hf = true ∧ s.takeTrap cause val false = (s.trapFrom cause).faultLock Cause.nested s.cx.pc)
    ∨ (s.cx.hf = false ∧ s.cx.cr.trapvec = 0 ∧ s.takeTrap cause val false = (s.trapFrom cause).noHandler cause val)
    ∨ (s.cx.hf = false ∧ s.cx.cr.trapvec ≠ 0 ∧ ∃ c, s.takeTrap cause val false = { s.trapFrom cause with cx := c }
        ∧ c.hf = true ∧ c.pc = addr53 s.cx.cr.trapvec ∧ c.x = s.cx.x ∧ c.v = s.cx.v ∧ c.p = s.cx.p ∧ c.mg = s.cx.mg
        ∧ c.cr = { s.cx.cr with trapcause := BitVec.ofNat 9 cause.toNat, trappc := s.cx.pc.setWidth 53, trapval := val }) := by
  have hc := s.trapFrom_cx cause
  unfold State.takeTrap
  simp only [Bool.and_false, Bool.not_false, Bool.and_true, boolNat, Bool.false_eq_true, if_false]
  have he : (if s.cx.pair = true then s.soloFail (s.rk.solo.count + 1) cause else s) = s.trapFrom cause := rfl
  rw [he, hc]
  cases h : s.cx.hf with
  | true => exact .inl ⟨rfl, by simp⟩
  | false =>
    by_cases hv : s.cx.cr.trapvec = 0
    · exact .inr (.inl ⟨rfl, hv, by simp [hv]⟩)
    · refine .inr (.inr ⟨rfl, hv, ?_⟩)
      simp only [Bool.false_eq_true, if_false, hv]
      exact ⟨_, rfl, rfl, rfl, rfl, rfl, rfl, rfl, rfl⟩

/-- A precise trap is taken, unless an MXOVF became pending while its instruction waited, which then goes first (R318). -/
theorem State.trap_cases (s : State) (cause : BitVec 8) (val : Word) :
    (s.cx.wait ≠ .none ∧ s.cx.mx.pending = true ∧ s.cx.hf = false ∧ s.trap cause val = s.takeMxovf)
    ∨ s.trap cause val = s.takeTrap cause val false := by
  unfold State.trap State.eventFirst
  split
  · next h =>
    simp only [Bool.and_eq_true, bne_iff_ne, ne_eq, Bool.not_eq_true'] at h
    exact .inl ⟨h.1.1, h.1.2, h.2, rfl⟩
  · exact .inr rfl

/-- At an instruction boundary with nothing pending a trap is taken at once. -/
theorem State.trap_of_not_pending (s : State) (cause : BitVec 8) (val : Word) (h : s.cx.mx.pending = false) :
    s.trap cause val = s.takeTrap cause val false := by
  simp [State.trap, State.eventFirst, h]

theorem State.trap_of_not_waiting (s : State) (cause : BitVec 8) (val : Word) (h : s.cx.wait = .none) :
    s.trap cause val = s.takeTrap cause val false := by
  simp [State.trap, State.eventFirst, h]

@[simp] theorem State.returnFromTrap_hf (s : State) : s.returnFromTrap.cx.hf = false := rfl
@[simp] theorem State.returnFromTrap_pc (s : State) : s.returnFromTrap.cx.pc = addr53 (s.cx.cr.trappc &&& ~~~3) := rfl
@[simp] theorem State.returnFromTrap_x (s : State) : s.returnFromTrap.cx.x = s.cx.x := rfl
@[simp] theorem State.returnFromTrap_cr (s : State) : s.returnFromTrap.cx.cr = s.cx.cr := rfl
@[simp] theorem State.returnFromTrap_ms (s : State) : s.returnFromTrap.ms = s.ms := rfl

/-! ### The access log (R293) -/

/-- Logging an access changes the log alone. -/
theorem State.logAccess_log (s : State) (agent owner op pa : Nat) : ∃ g, s.logAccess agent owner op pa = { s with log := g } := by
  unfold State.logAccess
  split
  · exact ⟨_, rfl⟩
  · exact ⟨_, rfl⟩

/-- Steps that change the log alone, one after the other. -/
theorem State.only_log_trans {s t u : State} (h : ∃ g, t = { s with log := g }) (k : ∃ g, u = { t with log := g }) :
    ∃ g, u = { s with log := g } := by
  obtain ⟨g, rfl⟩ := h
  exact k

theorem State.only_log_foldl {α : Type} (f : State → α → State) (h : ∀ s a, ∃ g, f s a = { s with log := g }) (l : List α) (s : State) :
    ∃ g, l.foldl f s = { s with log := g } := by
  induction l generalizing s with
  | nil => exact ⟨_, rfl⟩
  | cons a r ih => exact State.only_log_trans (h s a) (ih (f s a))

/-- Logging the walk of a translation changes the log alone. -/
theorem State.logWalk_log (s : State) (o : OwnerRec) (acc : Access) (va : Word) : ∃ g, s.logWalk o acc va = { s with log := g } := by
  unfold State.logWalk
  split
  · exact ⟨_, rfl⟩
  · have h := State.only_log_foldl (fun (t : State) a => t.logAccess acc.agent o.num 0 a)
      (fun t a => t.logAccess_log acc.agent o.num 0 a) (walkReads s.ms.mem va 3 o.troot) s
    dsimp only
    repeat' split
    all_goals first | exact h | exact State.only_log_trans h (State.logAccess_log ..)

/-- Logging an access on every copy of a page changes the log alone. -/
theorem State.logCopies_log (s : State) (repl : Bool) (agent owner op pa : Nat) :
    ∃ g, s.logCopies repl agent owner op pa = { s with log := g } := by
  unfold State.logCopies
  split
  · exact State.only_log_foldl (fun (t : State) a => t.logAccess agent owner op a) (fun t a => t.logAccess_log agent owner op a) _ s
  · exact State.logAccess_log ..

/-- The hub die's write to a PIN page changes memory, the scriptorium's caches and the log alone. -/
theorem State.writePin_cases (s : State) (o : OwnerRec) (va : Word) (bs : List Byte) :
    ∃ m c g, s.writePin o va bs = { s with ms := m, scr := c, log := g } := by
  unfold State.writePin
  split
  · exact ⟨_, _, _, rfl⟩
  · exact ⟨_, _, _, rfl⟩
  · next pa repl _ =>
    cases repl with
    | true =>
      obtain ⟨g, hg⟩ := State.logCopies_log
        { s with ms := (markPin s.ms s.tick o va).putCopies pa bs, scr := s.scr.dropCopies pa bs.length } true Config.dispatcherAgent o.num 1 pa
      exact ⟨_, _, g, hg⟩
    | false =>
      obtain ⟨g, hg⟩ := State.logCopies_log
        { s with
          ms := ((markPin s.ms s.tick o va).recallRange pa bs.length).put pa bs
          scr := s.scr.invalidateRange pa bs.length } false Config.dispatcherAgent o.num 1 pa
      exact ⟨_, _, g, hg⟩

/-- A record written to an owner's queue, after the updates that the queue's page waits for, changes no more than that. -/
theorem State.putRecord_cases (s : State) (o : OwnerRec) (num : Nat) (va : Word) (words : List Nat) :
    ∃ m c g, (s.atQueue o).putRecord o num va words = { s with ms := m, scr := c, log := g } := by
  have ha : ∃ m c, s.atQueue o = { s with ms := m, scr := c } := by
    unfold State.atQueue
    split <;> exact ⟨_, _, rfl⟩
  obtain ⟨m, c, ha⟩ := ha
  unfold State.putRecord
  rw [ha]
  obtain ⟨m1, c1, g1, h1⟩ := State.writePin_cases { s with ms := m, scr := c } o va (words.flatMap fun w => leBytes 8 w)
  rw [h1]
  exact State.writePin_cases { s with ms := m1, scr := c1, log := g1 } o (addr53 o.faultq) (leBytes 4 (num % 2^32))

/-! ### Error records (R310, R311) -/

@[simp] theorem State.fireMsix_ms (s : State) (l : List VFunc) (v : Nat) : (s.fireMsix l v).ms = s.ms := by
  unfold State.fireMsix; split <;> rfl

@[simp] theorem State.fireMsix_disp (s : State) (l : List VFunc) (v : Nat) : (s.fireMsix l v).disp = s.disp := by
  unfold State.fireMsix; split <;> rfl

/-- A message to the host changes the host's side alone. -/
theorem State.fireMsix_frame (s : State) (l : List VFunc) (v : Nat) :
    (s.fireMsix l v).cx = s.cx ∧ (s.fireMsix l v).rk = s.rk ∧ (s.fireMsix l v).co = s.co ∧ (s.fireMsix l v).ranks = s.ranks
      ∧ (s.fireMsix l v).cores = s.cores ∧ (s.fireMsix l v).own = s.own ∧ (s.fireMsix l v).eng = s.eng
      ∧ (s.fireMsix l v).fab = s.fab ∧ (s.fireMsix l v).time = s.time := by
  unfold State.fireMsix; split <;> exact ⟨rfl, rfl, rfl, rfl, rfl, rfl, rfl, rfl, rfl⟩

/-- The host's copy of a record changes the host's side alone. -/
theorem State.hostCopy_cases (s : State) (e : ErrRec) : ∃ h, s.hostCopy e = { s with host := h } := by
  unfold State.hostCopy
  by_cases hl : (!s.host.leased) = true
  · rw [if_pos hl]; exact ⟨_, rfl⟩
  · rw [if_neg hl]
    by_cases ha : s.host.active = true
    · simp only [ha, if_true]
      split <;> exact ⟨_, rfl⟩
    · have hf : s.host.active = false := by simpa using ha
      simp only [hf, Bool.false_eq_true, if_false]
      split <;> exact ⟨_, rfl⟩

/-- The same, field by field. -/
theorem State.hostCopy_frame (s : State) (e : ErrRec) :
    (s.hostCopy e).cx = s.cx ∧ (s.hostCopy e).rk = s.rk ∧ (s.hostCopy e).co = s.co ∧ (s.hostCopy e).ranks = s.ranks
      ∧ (s.hostCopy e).cores = s.cores ∧ (s.hostCopy e).own = s.own ∧ (s.hostCopy e).eng = s.eng
      ∧ (s.hostCopy e).fab = s.fab ∧ (s.hostCopy e).disp = s.disp ∧ (s.hostCopy e).ms = s.ms ∧ (s.hostCopy e).time = s.time := by
  obtain ⟨h, hh⟩ := s.hostCopy_cases e
  rw [hh]
  exact ⟨rfl, rfl, rfl, rfl, rfl, rfl, rfl, rfl, rfl, rfl, rfl⟩

/-- The owner's copy of a record writes the owner's queue in memory and may send a message to the host, or is held: the dispatcher keeps its
error records. -/
theorem State.ownerCopy_frame (s : State) (o : Nat) (e : ErrRec) :
    let t := (s.ownerCopy o e).1
    t.cx = s.cx ∧ t.rk = s.rk ∧ t.co = s.co ∧ t.ranks = s.ranks ∧ t.cores = s.cores ∧ t.own = s.own ∧ t.eng = s.eng
      ∧ t.fab = s.fab ∧ t.disp.errors = s.disp.errors ∧ t.time = s.time := by
  unfold State.ownerCopy
  dsimp only
  split
  · exact ⟨rfl, rfl, rfl, rfl, rfl, rfl, rfl, rfl, rfl, rfl⟩
  · split
    · exact ⟨rfl, rfl, rfl, rfl, rfl, rfl, rfl, rfl, rfl, rfl⟩
    · exact ⟨rfl, rfl, rfl, rfl, rfl, rfl, rfl, rfl, rfl, rfl⟩
    · exact ⟨rfl, rfl, rfl, rfl, rfl, rfl, rfl, rfl, rfl, rfl⟩
    · next num va pa _ =>
      obtain ⟨m, c, g, hg⟩ := State.putRecord_cases s (s.own.ownerOr o) num va e.words
      rw [hg]
      obtain ⟨h1, h2, h3, h4, h5, h6, h7, h8, h9⟩ := State.fireMsix_frame
        { s with ms := m, scr := c, log := g } (State.liveVfs { s with ms := m, scr := c, log := g } o) 1
      exact ⟨h1, h2, h3, h4, h5, h6, h7, h8, by rw [State.fireMsix_disp], h9⟩

/-- An error record leaves the context, the rank, the cores, ownership, the engines and the fabric alone, and joins the management
ring with its class, owner, address and values. -/
theorem State.report_frame (s : State) (e : ErrRec) :
    let t := s.report e
    t.cx = s.cx ∧ t.rk = s.rk ∧ t.co = s.co ∧ t.ranks = s.ranks ∧ t.cores = s.cores ∧ t.own = s.own ∧ t.eng = s.eng ∧ t.fab = s.fab
      ∧ t.time = s.time
      ∧ ∃ d, t.disp.errors = s.disp.errors ++ [{ e with time := s.time, num := s.disp.errNum + 1, dropped := d }] := by
  unfold State.report
  by_cases h0 : e.owner = 0
  · simp only [h0, if_true]
    split
    · obtain ⟨h, hh⟩ := State.hostCopy_cases
        { s with disp := { s.disp with
            errors := s.disp.errors ++ [{ e with time := s.time, num := s.disp.errNum + 1, dropped := !true }]
            errNum := s.disp.errNum + 1 } } { e with time := s.time, num := s.disp.errNum + 1 }
      simp only [h0] at hh
      rw [hh]
      exact ⟨rfl, rfl, rfl, rfl, rfl, rfl, rfl, rfl, rfl, _, rfl⟩
    · exact ⟨rfl, rfl, rfl, rfl, rfl, rfl, rfl, rfl, rfl, _, rfl⟩
  · simp only [h0, if_false]
    obtain ⟨c1, c2, c3, c4, c5, c6, c7, c8, c9, c10⟩ :=
      State.ownerCopy_frame s e.owner { e with time := s.time, num := s.disp.errNum + 1 }
    generalize s.ownerCopy e.owner { e with time := s.time, num := s.disp.errNum + 1 } = q at c1 c2 c3 c4 c5 c6 c7 c8 c9 c10 ⊢
    obtain ⟨t, ok⟩ := q
    dsimp only at c1 c2 c3 c4 c5 c6 c7 c8 c9 c10 ⊢
    split
    · obtain ⟨h, hh⟩ := State.hostCopy_cases
        { t with disp := { t.disp with
            errors := t.disp.errors ++ [{ e with time := s.time, num := s.disp.errNum + 1, dropped := !ok }]
            errNum := s.disp.errNum + 1 } } { e with time := s.time, num := s.disp.errNum + 1 }
      rw [hh]
      exact ⟨c1, c2, c3, c4, c5, c6, c7, c8, c10, _, by rw [← c9]⟩
    · exact ⟨c1, c2, c3, c4, c5, c6, c7, c8, c10, _, by rw [← c9]⟩

/-! ### The translation of an access (R102, R318) -/

/-- Where `reach` answers, every address is canonical and translates, to the new home of a page that has moved; nothing is held or unbacked, and only memory changes, the A and D
bits of the leaves, and the log of the walks. -/
theorem State.reach_ok {s t : State} {vas : List Word} {acc : Access} {fs : List Found} (h : s.reach vas acc = .ok (t, fs)) :
    (∀ va ∈ vas, canonical va = true)
    ∧ fs = vas.map (fun va => (translate s.ms s.tick (s.own.ownerOr s.owner) va acc).homed s.ms)
    ∧ laneFaults (vas.zip fs) = [] ∧ (∀ f ∈ fs, f ≠ .held) ∧ (∀ q ∈ vas.zip fs, q.2 ≠ .unbacked)
    ∧ ∃ g, t = { s with ms := (vas.zip fs).foldl (markFound (s.own.ownerOr s.owner) acc) s.ms, log := g } := by
  unfold State.reach at h
  split at h
  · cases h
  · next hn =>
    simp only at h
    split at h
    · cases h
    · next hl =>
      split at h
      · cases h
      · next hh =>
        split at h
        · cases h
        · next hu =>
          injection h with h
          injection h with ht hf
          subst hf
          obtain ⟨g, hg⟩ := State.only_log_foldl (fun (t : State) va => t.logWalk (s.own.ownerOr s.owner) acc va)
            (fun t va => t.logWalk_log _ acc va) vas s
          refine ⟨fun va hv => ?_, rfl, hl, fun f hf he => ?_, fun q hq he => ?_, g, by rw [← ht, hg]⟩
          · have := List.find?_eq_none.mp hn va hv
            simpa using this
          · exact hh (List.any_eq_true.mpr ⟨f, hf, by simp [he]⟩)
          · have := List.find?_eq_none.mp hu q hq
            simp [he] at this

/-- Where one address lands, `reach` answers its place, and its walk is logged. -/
theorem State.reach_one {s : State} {va : Word} {acc : Access} {pa : Nat} {l : Leaf} (hc : canonical va = true)
    (ht : translate s.ms s.tick (s.own.ownerOr s.owner) va acc = .at pa l) :
    s.reach [va] acc = .ok
      ({ s.logWalk (s.own.ownerOr s.owner) acc va with ms := markUsed s.ms (s.own.ownerOr s.owner) va acc l }, [.at (s.ms.homeAddr pa) l]) := by
  have h1 : ([va].find? fun a => !canonical a) = none := by simp [hc]
  unfold State.reach
  rw [h1]
  simp only [List.map, List.zip, List.zipWith, ht, laneFaults, List.any, List.find?, List.foldl, markFound, Found.homed]
  simp [show (Found.at (s.ms.homeAddr pa) l == Found.held) = false from rfl,
    show (Found.at (s.ms.homeAddr pa) l == Found.unbacked) = false from rfl]

/-! ### Contexts (R22) -/

/-- The focus on the context in focus is the state itself. -/
theorem State.focusOn_self (s : State) (h : s.rk.state ≠ .ended) : s.focusOn s.rk.key s.rk.run s.cx.num = some s := by
  simp [State.focusOn, Rank.is, h]

theorem State.inContext_self (s : State) (f : State → State) (h : s.rk.state ≠ .ended) :
    s.inContext s.rk.key s.rk.run s.cx.num f = f s := by
  simp [State.inContext, Rank.is, h]

theorem State.updCtx_self (s : State) (f : Context → Context) (h : s.rk.state ≠ .ended) :
    s.updCtx s.rk.key s.rk.run s.cx.num f = { s with cx := f s.cx } := by
  simp [State.updCtx, Rank.is, h]

theorem State.updRank_self (s : State) (f : Rank → Rank) (h : s.rk.state ≠ .ended) :
    s.updRank s.rk.key s.rk.run f = { s with rk := f s.rk } := by
  simp [State.updRank, Rank.is, h]

end Sys2Proof.Machine
end

