-- ==== Sys2Proof/Laws/PerInstr.lean ====
section
/-! SUPPORT. Statements made for each instruction: RoundTrip says that the decoder reads an instruction back from the word
that the encoder gives it. Each lemma shows what the decoder finds in the word: the opcode, the function code, the zero
fields and the operands (07 R131 to R138). -/

namespace Sys2Proof.Laws

open Sys2Proof

theorem Scope.code_lt (c : Scope) : c.code < 5 := by cases c <;> decide
theorem MemOrd.code_lt (c : MemOrd) : c.code < 4 := by cases c <;> decide
theorem Size.code_lt (c : Size) : c.code < 4 := by cases c <;> decide
theorem FeMode.code_lt (c : FeMode) : c.code < 6 := by cases c <;> decide
theorem ElemType.code_lt (c : ElemType) : c.code < 8 := by cases c <;> decide
theorem DrainFmt.code_lt (c : DrainFmt) : c.code < 4 := by cases c <;> decide
theorem boolToNat_lt (b : Bool) : b.toNat < 2 := by cases b <;> decide

theorem Scope.ofCode?_of {n : Nat} {c : Scope} (h : n = c.code) : Scope.ofCode? n = some c := by subst h; cases c <;> rfl
theorem FeMode.ofCode?_of {n : Nat} {c : FeMode} (h : n = c.code) : FeMode.ofCode? n = some c := by subst h; cases c <;> rfl
theorem DrainFmt.ofCode?_of {n : Nat} {c : DrainFmt} (h : n = c.code) : DrainFmt.ofCode? n = some c := by
  subst h; cases c <;> rfl

theorem MemOrd.ofCode_of {n : Nat} {c : MemOrd} (h : n % 4 = c.code) : MemOrd.ofCode n = c := by
  unfold MemOrd.ofCode; rw [h]; cases c <;> rfl
theorem Size.ofCode_of {n : Nat} {c : Size} (h : n % 4 = c.code) : Size.ofCode n = c := by
  unfold Size.ofCode; rw [h]; cases c <;> rfl
theorem ElemType.ofCode_of {n : Nat} {c : ElemType} (h : n % 8 = c.code) : ElemType.ofCode n = c := by
  unfold ElemType.ofCode; rw [h]; cases c <;> rfl
theorem ofNat_of {k n : Nat} {b : BitVec k} (h : n % 2^k = b.toNat) : BitVec.ofNat k n = b :=
  BitVec.eq_of_toNat_eq (by rw [BitVec.toNat_ofNat, h])
theorem bitOf_of {w lo : Nat} {b : Bool} (h : w / 2^lo % 2 = b.toNat) : bitOf w lo = b := by
  unfold bitOf; rw [h]; cases b <;> rfl

/-- A word whose layout gives a well-formed instruction decodes to it (R131). -/
theorem decode_of {w : Nat} {i : Instr} (h : decodeRaw w = .ok i) (hwf : i.wf = true) : decode w = .ok i := by
  simp [decode, h, hwf]

namespace RoundTrip

/-- The word of a well-formed instruction decodes to that instruction. -/
def Statement (i : Instr) : Prop := i.wf = true → ∀ w, encode i = some w → decode w = .ok i

/-! What the decoder does at each opcode, and the fields of a packed word. -/

theorem decodeRaw_1 {w : Nat} (h : w / 2^26 % 64 = 1) : decodeRaw w = decodeInteger w := by
  unfold decodeRaw; rw [h]; rfl

theorem decodeRaw_2 {w : Nat} (h : w / 2^26 % 64 = 2) : decodeRaw w = decodeIntegerWord w := by
  unfold decodeRaw; rw [h]; rfl

theorem decodeRaw_3 {w : Nat} (h : w / 2^26 % 64 = 3) : decodeRaw w = (.ok (.addi (fieldD w) (fieldA w) (BitVec.ofNat 16 w))) := by
  unfold decodeRaw; rw [h]; rfl

theorem decodeRaw_4 {w : Nat} (h : w / 2^26 % 64 = 4) : decodeRaw w = (.ok (.andi (fieldD w) (fieldA w) (BitVec.ofNat 16 w))) := by
  unfold decodeRaw; rw [h]; rfl

theorem decodeRaw_5 {w : Nat} (h : w / 2^26 % 64 = 5) : decodeRaw w = (.ok (.ori (fieldD w) (fieldA w) (BitVec.ofNat 16 w))) := by
  unfold decodeRaw; rw [h]; rfl

theorem decodeRaw_6 {w : Nat} (h : w / 2^26 % 64 = 6) : decodeRaw w = (.ok (.xori (fieldD w) (fieldA w) (BitVec.ofNat 16 w))) := by
  unfold decodeRaw; rw [h]; rfl

theorem decodeRaw_7 {w : Nat} (h : w / 2^26 % 64 = 7) : decodeRaw w = (.ok (.slti (fieldD w) (fieldA w) (BitVec.ofNat 16 w))) := by
  unfold decodeRaw; rw [h]; rfl

theorem decodeRaw_8 {w : Nat} (h : w / 2^26 % 64 = 8) : decodeRaw w = (.ok (.sltiu (fieldD w) (fieldA w) (BitVec.ofNat 16 w))) := by
  unfold decodeRaw; rw [h]; rfl

theorem decodeRaw_9 {w : Nat} (h : w / 2^26 % 64 = 9) : decodeRaw w = decodeShiftImm w := by
  unfold decodeRaw; rw [h]; rfl

theorem decodeRaw_10 {w : Nat} (h : w / 2^26 % 64 = 10) : decodeRaw w = (if w / 2^16 % 2^5 = 0 then .ok (.lhi (fieldD w) (BitVec.ofNat 16 w)) else .error .field) := by
  unfold decodeRaw; rw [h]; rfl

theorem decodeRaw_11 {w : Nat} (h : w / 2^26 % 64 = 11) : decodeRaw w = (if w / 2^16 % 2^5 = 0 then .ok (.lsh (fieldD w) (BitVec.ofNat 16 w)) else .error .field) := by
  unfold decodeRaw; rw [h]; rfl

theorem decodeRaw_12 {w : Nat} (h : w / 2^26 % 64 = 12) : decodeRaw w = (if w / 2^16 % 2^5 = 0 then .ok (.adr (fieldD w) (BitVec.ofNat 16 w)) else .error .field) := by
  unfold decodeRaw; rw [h]; rfl

theorem decodeRaw_13 {w : Nat} (h : w / 2^26 % 64 = 13) : decodeRaw w = decodeBranch w := by
  unfold decodeRaw; rw [h]; rfl

theorem decodeRaw_14 {w : Nat} (h : w / 2^26 % 64 = 14) : decodeRaw w = (.ok (.jal (BitVec.ofNat 26 w))) := by
  unfold decodeRaw; rw [h]; rfl

theorem decodeRaw_15 {w : Nat} (h : w / 2^26 % 64 = 15) : decodeRaw w = (.ok (.j (BitVec.ofNat 26 w))) := by
  unfold decodeRaw; rw [h]; rfl

theorem decodeRaw_16 {w : Nat} (h : w / 2^26 % 64 = 16) : decodeRaw w = (.ok (.jalr (fieldD w) (fieldA w) (BitVec.ofNat 16 w))) := by
  unfold decodeRaw; rw [h]; rfl

theorem decodeRaw_17 {w : Nat} (h : w / 2^26 % 64 = 17) : decodeRaw w = (.ok (.bes (Fin.ofNat 64 (w / 2^20)) (bitOf w 19) (BitVec.ofNat 19 w))) := by
  unfold decodeRaw; rw [h]; rfl

theorem decodeRaw_18 {w : Nat} (h : w / 2^26 % 64 = 18) : decodeRaw w = (.ok (.ldB (fieldD w) (fieldA w) (BitVec.ofNat 16 w))) := by
  unfold decodeRaw; rw [h]; rfl

theorem decodeRaw_19 {w : Nat} (h : w / 2^26 % 64 = 19) : decodeRaw w = (.ok (.ldH (fieldD w) (fieldA w) (BitVec.ofNat 16 w))) := by
  unfold decodeRaw; rw [h]; rfl

theorem decodeRaw_20 {w : Nat} (h : w / 2^26 % 64 = 20) : decodeRaw w = (.ok (.ldW (fieldD w) (fieldA w) (BitVec.ofNat 16 w))) := by
  unfold decodeRaw; rw [h]; rfl

theorem decodeRaw_21 {w : Nat} (h : w / 2^26 % 64 = 21) : decodeRaw w = (.ok (.ldD (fieldD w) (fieldA w) (BitVec.ofNat 16 w))) := by
  unfold decodeRaw; rw [h]; rfl

theorem decodeRaw_22 {w : Nat} (h : w / 2^26 % 64 = 22) : decodeRaw w = (.ok (.ldBu (fieldD w) (fieldA w) (BitVec.ofNat 16 w))) := by
  unfold decodeRaw; rw [h]; rfl

theorem decodeRaw_23 {w : Nat} (h : w / 2^26 % 64 = 23) : decodeRaw w = (.ok (.ldHu (fieldD w) (fieldA w) (BitVec.ofNat 16 w))) := by
  unfold decodeRaw; rw [h]; rfl

theorem decodeRaw_24 {w : Nat} (h : w / 2^26 % 64 = 24) : decodeRaw w = (.ok (.ldWu (fieldD w) (fieldA w) (BitVec.ofNat 16 w))) := by
  unfold decodeRaw; rw [h]; rfl

theorem decodeRaw_25 {w : Nat} (h : w / 2^26 % 64 = 25) : decodeRaw w = (.ok (.stB (fieldD w) (fieldA w) (BitVec.ofNat 16 w))) := by
  unfold decodeRaw; rw [h]; rfl

theorem decodeRaw_26 {w : Nat} (h : w / 2^26 % 64 = 26) : decodeRaw w = (.ok (.stH (fieldD w) (fieldA w) (BitVec.ofNat 16 w))) := by
  unfold decodeRaw; rw [h]; rfl

theorem decodeRaw_27 {w : Nat} (h : w / 2^26 % 64 = 27) : decodeRaw w = (.ok (.stW (fieldD w) (fieldA w) (BitVec.ofNat 16 w))) := by
  unfold decodeRaw; rw [h]; rfl

theorem decodeRaw_28 {w : Nat} (h : w / 2^26 % 64 = 28) : decodeRaw w = (.ok (.stD (fieldD w) (fieldA w) (BitVec.ofNat 16 w))) := by
  unfold decodeRaw; rw [h]; rfl

theorem decodeRaw_29 {w : Nat} (h : w / 2^26 % 64 = 29) : decodeRaw w = (if w % 2^1 = 0 then (Scope.ofCode? (w / 2^9 % 8)).elim (.error .scope) fun sc => (FeMode.ofCode? (w / 2^2 % 8)).elim (.error .mode) fun fe => .ok (.ldo (fieldD w) (fieldA w) (Fin.ofNat 16 (w / 2^12)) sc (MemOrd.ofCode (w / 2^7)) (Size.ofCode (w / 2^5)) fe (bitOf w 1)) else .error .field) := by
  unfold decodeRaw; rw [h]; rfl

theorem decodeRaw_30 {w : Nat} (h : w / 2^26 % 64 = 30) : decodeRaw w = (if w % 2^2 = 0 then (Scope.ofCode? (w / 2^9 % 8)).elim (.error .scope) fun sc => (FeMode.ofCode? (w / 2^2 % 8)).elim (.error .mode) fun fe => .ok (.sto (fieldD w) (fieldA w) (Fin.ofNat 16 (w / 2^12)) sc (MemOrd.ofCode (w / 2^7)) (Size.ofCode (w / 2^5)) fe) else .error .field) := by
  unfold decodeRaw; rw [h]; rfl

theorem decodeRaw_31 {w : Nat} (h : w / 2^26 % 64 = 31) : decodeRaw w = decodeAmo w := by
  unfold decodeRaw; rw [h]; rfl

theorem decodeRaw_32 {w : Nat} (h : w / 2^26 % 64 = 32) : decodeRaw w = decodeFence w := by
  unfold decodeRaw; rw [h]; rfl

theorem decodeRaw_33 {w : Nat} (h : w / 2^26 % 64 = 33) : decodeRaw w = decodeVecInt w := by
  unfold decodeRaw; rw [h]; rfl

theorem decodeRaw_34 {w : Nat} (h : w / 2^26 % 64 = 34) : decodeRaw w = decodeVecFp w := by
  unfold decodeRaw; rw [h]; rfl

theorem decodeRaw_35 {w : Nat} (h : w / 2^26 % 64 = 35) : decodeRaw w = decodeVecConv w := by
  unfold decodeRaw; rw [h]; rfl

theorem decodeRaw_36 {w : Nat} (h : w / 2^26 % 64 = 36) : decodeRaw w = decodeVecPerm w := by
  unfold decodeRaw; rw [h]; rfl

theorem decodeRaw_37 {w : Nat} (h : w / 2^26 % 64 = 37) : decodeRaw w = decodePred w := by
  unfold decodeRaw; rw [h]; rfl

theorem decodeRaw_38 {w : Nat} (h : w / 2^26 % 64 = 38) : decodeRaw w = decodeVecRed w := by
  unfold decodeRaw; rw [h]; rfl

theorem decodeRaw_39 {w : Nat} (h : w / 2^26 % 64 = 39) : decodeRaw w = decodeVecMem w := by
  unfold decodeRaw; rw [h]; rfl

theorem decodeRaw_40 {w : Nat} (h : w / 2^26 % 64 = 40) : decodeRaw w = decodeStream w := by
  unfold decodeRaw; rw [h]; rfl

theorem decodeRaw_41 {w : Nat} (h : w / 2^26 % 64 = 41) : decodeRaw w = decodeTile w := by
  unfold decodeRaw; rw [h]; rfl

theorem decodeRaw_42 {w : Nat} (h : w / 2^26 % 64 = 42) : decodeRaw w = decodeCopyist w := by
  unfold decodeRaw; rw [h]; rfl

theorem decodeRaw_43 {w : Nat} (h : w / 2^26 % 64 = 43) : decodeRaw w = decodeGraph w := by
  unfold decodeRaw; rw [h]; rfl

theorem decodeRaw_44 {w : Nat} (h : w / 2^26 % 64 = 44) : decodeRaw w = decodeMatrix w := by
  unfold decodeRaw; rw [h]; rfl

theorem decodeRaw_45 {w : Nat} (h : w / 2^26 % 64 = 45) : decodeRaw w = decodeMessage w := by
  unfold decodeRaw; rw [h]; rfl

theorem decodeRaw_46 {w : Nat} (h : w / 2^26 % 64 = 46) : decodeRaw w = decodeBarrier w := by
  unfold decodeRaw; rw [h]; rfl

theorem decodeRaw_47 {w : Nat} (h : w / 2^26 % 64 = 47) : decodeRaw w = decodeHelper w := by
  unfold decodeRaw; rw [h]; rfl

theorem decodeRaw_48 {w : Nat} (h : w / 2^26 % 64 = 48) : decodeRaw w = decodeFabric w := by
  unfold decodeRaw; rw [h]; rfl

theorem decodeRaw_49 {w : Nat} (h : w / 2^26 % 64 = 49) : decodeRaw w = decodeOwn w := by
  unfold decodeRaw; rw [h]; rfl

theorem decodeRaw_50 {w : Nat} (h : w / 2^26 % 64 = 50) : decodeRaw w = decodeControl w := by
  unfold decodeRaw; rw [h]; rfl

theorem decodeRaw_51 {w : Nat} (h : w / 2^26 % 64 = 51) : decodeRaw w = decodeSystem w := by
  unfold decodeRaw; rw [h]; rfl

theorem decodeRaw_63 {w : Nat} (h : w / 2^26 % 64 = 63) : decodeRaw w = (if w % 2^26 = 0 then .ok .solo else .error .opcode) := by
  unfold decodeRaw; rw [h]; rfl

theorem fields1 (op k v0 v1 v2 w : Nat) (ho : op < 64) (hk : k < 128) (h0 : v0 < 32) (h1 : v1 < 32) (h2 : v2 < 32)
    (hw : pack21_16_11 (op * 2^26 + k) v0 v1 v2 = w) :
    w / 2^26 % 64 = op ∧ w % 128 = k ∧ w / 2^7 % 2^4 = 0 ∧ w / 2^21 % 32 = v0 ∧ w / 2^16 % 32 = v1 ∧ w / 2^11 % 32 = v2 := by
  simp only [pack21_16_11] at hw
  refine ⟨?_, ?_, ?_, ?_, ?_, ?_⟩ <;> omega

theorem fields2 (op k v0 v1 v2 v3 w : Nat) (ho : op < 64) (hk : k < 128) (h0 : v0 < 32) (h1 : v1 < 32) (h2 : v2 < 32) (h3 : v3 < 16)
    (hw : pack21_16_11_7 (op * 2^26 + k) v0 v1 v2 v3 = w) :
    w / 2^26 % 64 = op ∧ w % 128 = k ∧ w / 2^21 % 32 = v0 ∧ w / 2^16 % 32 = v1 ∧ w / 2^11 % 32 = v2 ∧ w / 2^7 % 16 = v3 := by
  simp only [pack21_16_11_7] at hw
  refine ⟨?_, ?_, ?_, ?_, ?_, ?_⟩ <;> omega

theorem fields3 (op k v0 v1 w : Nat) (ho : op < 64) (hk : k < 128) (h0 : v0 < 32) (h1 : v1 < 32)
    (hw : pack21_16 (op * 2^26 + k) v0 v1 = w) :
    w / 2^26 % 64 = op ∧ w % 128 = k ∧ w / 2^7 % 2^9 = 0 ∧ w / 2^21 % 32 = v0 ∧ w / 2^16 % 32 = v1 := by
  simp only [pack21_16] at hw
  refine ⟨?_, ?_, ?_, ?_, ?_⟩ <;> omega

theorem fields4 (op k v0 v1 v2 w : Nat) (ho : op < 64) (hk : k < 128) (h0 : v0 < 32) (h1 : v1 < 32) (h2 : v2 < 32)
    (hw : pack21_16_11 (op * 2^26 + k) v0 v1 v2 = w) :
    w / 2^26 % 64 = op ∧ w % 128 = k ∧ w / 2^7 % 2^4 = 0 ∧ w / 2^21 % 32 = v0 ∧ w / 2^16 % 32 = v1 ∧ w / 2^11 % 32 = v2 := by
  simp only [pack21_16_11] at hw
  refine ⟨?_, ?_, ?_, ?_, ?_, ?_⟩ <;> omega

theorem fields5 (op k v0 v1 v2 v3 w : Nat) (ho : op < 64) (hk : k < 128) (h0 : v0 < 32) (h1 : v1 < 32) (h2 : v2 < 32) (h3 : v3 < 16)
    (hw : pack21_16_11_7 (op * 2^26 + k) v0 v1 v2 v3 = w) :
    w / 2^26 % 64 = op ∧ w % 128 = k ∧ w / 2^21 % 32 = v0 ∧ w / 2^16 % 32 = v1 ∧ w / 2^11 % 32 = v2 ∧ w / 2^7 % 16 = v3 := by
  simp only [pack21_16_11_7] at hw
  refine ⟨?_, ?_, ?_, ?_, ?_, ?_⟩ <;> omega

theorem fields6 (op v0 v1 v2 w : Nat) (ho : op < 64) (h0 : v0 < 32) (h1 : v1 < 32) (h2 : v2 < 2^16)
    (hw : pack21_16_0 (op * 2^26) v0 v1 v2 = w) :
    w / 2^26 % 64 = op ∧ w / 2^21 % 32 = v0 ∧ w / 2^16 % 32 = v1 ∧ w % 2^16 = v2 := by
  simp only [pack21_16_0] at hw
  refine ⟨?_, ?_, ?_, ?_⟩ <;> omega

theorem fields7 (op k v0 v1 v2 w : Nat) (ho : op < 64) (hk : k < 4) (h0 : v0 < 32) (h1 : v1 < 32) (h2 : v2 < 64)
    (hw : pack21_16_0 (op * 2^26 + k * 2^6) v0 v1 v2 = w) :
    w / 2^26 % 64 = op ∧ w / 2^6 % 4 = k ∧ w / 2^8 % 2^8 = 0 ∧ w / 2^21 % 32 = v0 ∧ w / 2^16 % 32 = v1 ∧ w % 64 = v2 := by
  simp only [pack21_16_0] at hw
  refine ⟨?_, ?_, ?_, ?_, ?_, ?_⟩ <;> omega

theorem fields8 (op v0 v1 w : Nat) (ho : op < 64) (h0 : v0 < 32) (h1 : v1 < 2^16)
    (hw : pack21_0 (op * 2^26) v0 v1 = w) :
    w / 2^26 % 64 = op ∧ w / 2^16 % 2^5 = 0 ∧ w / 2^21 % 32 = v0 ∧ w % 2^16 = v1 := by
  simp only [pack21_0] at hw
  refine ⟨?_, ?_, ?_, ?_⟩ <;> omega

theorem fields9 (op k v0 v1 v2 w : Nat) (ho : op < 64) (hk : k < 8) (h0 : v0 < 32) (h1 : v1 < 32) (h2 : v2 < 2^13)
    (hw : pack21_16_0 (op * 2^26 + k * 2^13) v0 v1 v2 = w) :
    w / 2^26 % 64 = op ∧ w / 2^13 % 8 = k ∧ w / 2^21 % 32 = v0 ∧ w / 2^16 % 32 = v1 ∧ w % 2^13 = v2 := by
  simp only [pack21_16_0] at hw
  refine ⟨?_, ?_, ?_, ?_, ?_⟩ <;> omega

theorem fields10 (op v0 w : Nat) (ho : op < 64) (h0 : v0 < 2^26)
    (hw : pack0 (op * 2^26) v0 = w) :
    w / 2^26 % 64 = op ∧ w % 2^26 = v0 := by
  simp only [pack0] at hw
  refine ⟨?_, ?_⟩ <;> omega

theorem fields11 (op v0 v1 v2 w : Nat) (ho : op < 64) (h0 : v0 < 64) (h1 : v1 < 2) (h2 : v2 < 2^19)
    (hw : pack20_19_0 (op * 2^26) v0 v1 v2 = w) :
    w / 2^26 % 64 = op ∧ w / 2^20 % 64 = v0 ∧ w / 2^19 % 2 = v1 ∧ w % 2^19 = v2 := by
  simp only [pack20_19_0] at hw
  refine ⟨?_, ?_, ?_, ?_⟩ <;> omega

theorem fields12 (op v0 v1 v2 v3 v4 v5 v6 v7 w : Nat) (ho : op < 64) (h0 : v0 < 32) (h1 : v1 < 32) (h2 : v2 < 16) (h3 : v3 < 5) (h4 : v4 < 4) (h5 : v5 < 4) (h6 : v6 < 6) (h7 : v7 < 2)
    (hw : pack21_16_12_9_7_5_2_1 (op * 2^26) v0 v1 v2 v3 v4 v5 v6 v7 = w) :
    w / 2^26 % 64 = op ∧ w % 2^1 = 0 ∧ w / 2^21 % 32 = v0 ∧ w / 2^16 % 32 = v1 ∧ w / 2^12 % 16 = v2 ∧ w / 2^9 % 8 = v3 ∧ w / 2^7 % 4 = v4 ∧ w / 2^5 % 4 = v5 ∧ w / 2^2 % 8 = v6 ∧ w / 2^1 % 2 = v7 := by
  simp only [pack21_16_12_9_7_5_2_1] at hw
  refine ⟨?_, ?_, ?_, ?_, ?_, ?_, ?_, ?_, ?_, ?_⟩ <;> omega

theorem fields13 (op v0 v1 v2 v3 v4 v5 v6 w : Nat) (ho : op < 64) (h0 : v0 < 32) (h1 : v1 < 32) (h2 : v2 < 16) (h3 : v3 < 5) (h4 : v4 < 4) (h5 : v5 < 4) (h6 : v6 < 6)
    (hw : pack21_16_12_9_7_5_2 (op * 2^26) v0 v1 v2 v3 v4 v5 v6 = w) :
    w / 2^26 % 64 = op ∧ w % 2^2 = 0 ∧ w / 2^21 % 32 = v0 ∧ w / 2^16 % 32 = v1 ∧ w / 2^12 % 16 = v2 ∧ w / 2^9 % 8 = v3 ∧ w / 2^7 % 4 = v4 ∧ w / 2^5 % 4 = v5 ∧ w / 2^2 % 8 = v6 := by
  simp only [pack21_16_12_9_7_5_2] at hw
  refine ⟨?_, ?_, ?_, ?_, ?_, ?_, ?_, ?_, ?_⟩ <;> omega

theorem fields14 (op k v0 v1 v2 v3 v4 v5 w : Nat) (ho : op < 64) (hk : k < 32) (h0 : v0 < 32) (h1 : v1 < 32) (h2 : v2 < 32) (h3 : v3 < 5) (h4 : v4 < 4) (h5 : v5 < 2)
    (hw : pack21_16_11_8_6_5 (op * 2^26 + k) v0 v1 v2 v3 v4 v5 = w) :
    w / 2^26 % 64 = op ∧ w % 32 = k ∧ w / 2^21 % 32 = v0 ∧ w / 2^16 % 32 = v1 ∧ w / 2^11 % 32 = v2 ∧ w / 2^8 % 8 = v3 ∧ w / 2^6 % 4 = v4 ∧ w / 2^5 % 2 = v5 := by
  simp only [pack21_16_11_8_6_5] at hw
  refine ⟨?_, ?_, ?_, ?_, ?_, ?_, ?_, ?_⟩ <;> omega

theorem fields15 (op k v0 v1 v2 v3 v4 w : Nat) (ho : op < 64) (hk : k < 32) (h0 : v0 < 32) (h1 : v1 < 32) (h2 : v2 < 32) (h3 : v3 < 5) (h4 : v4 < 4)
    (hw : pack21_16_11_8_6 (op * 2^26 + k) v0 v1 v2 v3 v4 = w) :
    w / 2^26 % 64 = op ∧ w % 32 = k ∧ w / 2^5 % 2^1 = 0 ∧ w / 2^21 % 32 = v0 ∧ w / 2^16 % 32 = v1 ∧ w / 2^11 % 32 = v2 ∧ w / 2^8 % 8 = v3 ∧ w / 2^6 % 4 = v4 := by
  simp only [pack21_16_11_8_6] at hw
  refine ⟨?_, ?_, ?_, ?_, ?_, ?_, ?_, ?_⟩ <;> omega

theorem fields16 (op k v0 w : Nat) (ho : op < 64) (hk : k < 4) (h0 : v0 < 5)
    (hw : pack11 (op * 2^26 + k) v0 = w) :
    w / 2^26 % 64 = op ∧ w % 4 = k ∧ w / 2^2 % 2^9 = 0 ∧ w / 2^14 % 2^12 = 0 ∧ w / 2^11 % 8 = v0 := by
  simp only [pack11] at hw
  refine ⟨?_, ?_, ?_, ?_, ?_⟩ <;> omega

theorem fields17 (op k v0 v1 v2 w : Nat) (ho : op < 64) (hk : k < 4) (h0 : v0 < 2^6) (h1 : v1 < 2^6) (h2 : v2 < 5)
    (hw : pack20_14_11 (op * 2^26 + k) v0 v1 v2 = w) :
    w / 2^26 % 64 = op ∧ w % 4 = k ∧ w / 2^2 % 2^9 = 0 ∧ w / 2^20 % 2^6 = v0 ∧ w / 2^14 % 2^6 = v1 ∧ w / 2^11 % 8 = v2 := by
  simp only [pack20_14_11] at hw
  refine ⟨?_, ?_, ?_, ?_, ?_, ?_⟩ <;> omega

theorem fields18 (op k v0 v1 v2 v3 v4 w : Nat) (ho : op < 64) (hk : k < 32) (h0 : v0 < 32) (h1 : v1 < 32) (h2 : v2 < 32) (h3 : v3 < 8) (h4 : v4 < 8)
    (hw : pack21_16_11_8_5 (op * 2^26 + k) v0 v1 v2 v3 v4 = w) :
    w / 2^26 % 64 = op ∧ w % 32 = k ∧ w / 2^21 % 32 = v0 ∧ w / 2^16 % 32 = v1 ∧ w / 2^11 % 32 = v2 ∧ w / 2^8 % 8 = v3 ∧ w / 2^5 % 8 = v4 := by
  simp only [pack21_16_11_8_5] at hw
  refine ⟨?_, ?_, ?_, ?_, ?_, ?_, ?_⟩ <;> omega

theorem fields19 (op k v0 v1 v2 v3 w : Nat) (ho : op < 64) (hk : k < 32) (h0 : v0 < 32) (h1 : v1 < 32) (h2 : v2 < 8) (h3 : v3 < 8)
    (hw : pack21_16_8_5 (op * 2^26 + k) v0 v1 v2 v3 = w) :
    w / 2^26 % 64 = op ∧ w % 32 = k ∧ w / 2^11 % 2^5 = 0 ∧ w / 2^21 % 32 = v0 ∧ w / 2^16 % 32 = v1 ∧ w / 2^8 % 8 = v2 ∧ w / 2^5 % 8 = v3 := by
  simp only [pack21_16_8_5] at hw
  refine ⟨?_, ?_, ?_, ?_, ?_, ?_, ?_⟩ <;> omega

theorem fields20 (op k v0 v1 v2 v3 v4 w : Nat) (ho : op < 64) (hk : k < 32) (h0 : v0 < 8) (h1 : v1 < 32) (h2 : v2 < 32) (h3 : v3 < 8) (h4 : v4 < 8)
    (hw : pack21_16_11_8_5 (op * 2^26 + k) v0 v1 v2 v3 v4 = w) :
    w / 2^26 % 64 = op ∧ w % 32 = k ∧ w / 2^24 % 2^2 = 0 ∧ w / 2^21 % 8 = v0 ∧ w / 2^16 % 32 = v1 ∧ w / 2^11 % 32 = v2 ∧ w / 2^8 % 8 = v3 ∧ w / 2^5 % 8 = v4 := by
  simp only [pack21_16_11_8_5] at hw
  refine ⟨?_, ?_, ?_, ?_, ?_, ?_, ?_, ?_⟩ <;> omega

theorem fields21 (op k v0 v1 v2 v3 v4 w : Nat) (ho : op < 64) (hk : k < 32) (h0 : v0 < 32) (h1 : v1 < 32) (h2 : v2 < 32) (h3 : v3 < 8) (h4 : v4 < 8)
    (hw : pack21_16_11_8_5 (op * 2^26 + k) v0 v1 v2 v3 v4 = w) :
    w / 2^26 % 64 = op ∧ w % 32 = k ∧ w / 2^21 % 32 = v0 ∧ w / 2^16 % 32 = v1 ∧ w / 2^11 % 32 = v2 ∧ w / 2^8 % 8 = v3 ∧ w / 2^5 % 8 = v4 := by
  simp only [pack21_16_11_8_5] at hw
  refine ⟨?_, ?_, ?_, ?_, ?_, ?_, ?_⟩ <;> omega

theorem fields22 (op k v0 v1 v2 v3 w : Nat) (ho : op < 64) (hk : k < 32) (h0 : v0 < 32) (h1 : v1 < 32) (h2 : v2 < 8) (h3 : v3 < 8)
    (hw : pack21_16_8_5 (op * 2^26 + k) v0 v1 v2 v3 = w) :
    w / 2^26 % 64 = op ∧ w % 32 = k ∧ w / 2^11 % 2^5 = 0 ∧ w / 2^21 % 32 = v0 ∧ w / 2^16 % 32 = v1 ∧ w / 2^8 % 8 = v2 ∧ w / 2^5 % 8 = v3 := by
  simp only [pack21_16_8_5] at hw
  refine ⟨?_, ?_, ?_, ?_, ?_, ?_, ?_⟩ <;> omega

theorem fields23 (op k v0 v1 v2 v3 v4 w : Nat) (ho : op < 64) (hk : k < 32) (h0 : v0 < 8) (h1 : v1 < 32) (h2 : v2 < 32) (h3 : v3 < 8) (h4 : v4 < 8)
    (hw : pack21_16_11_8_5 (op * 2^26 + k) v0 v1 v2 v3 v4 = w) :
    w / 2^26 % 64 = op ∧ w % 32 = k ∧ w / 2^24 % 2^2 = 0 ∧ w / 2^21 % 8 = v0 ∧ w / 2^16 % 32 = v1 ∧ w / 2^11 % 32 = v2 ∧ w / 2^8 % 8 = v3 ∧ w / 2^5 % 8 = v4 := by
  simp only [pack21_16_11_8_5] at hw
  refine ⟨?_, ?_, ?_, ?_, ?_, ?_, ?_, ?_⟩ <;> omega

theorem fields24 (op k v0 v1 w : Nat) (ho : op < 64) (hk : k < 32) (h0 : v0 < 32) (h1 : v1 < 32)
    (hw : pack21_16 (op * 2^26 + k) v0 v1 = w) :
    w / 2^26 % 64 = op ∧ w % 32 = k ∧ w / 2^5 % 2^11 = 0 ∧ w / 2^21 % 32 = v0 ∧ w / 2^16 % 32 = v1 := by
  simp only [pack21_16] at hw
  refine ⟨?_, ?_, ?_, ?_, ?_⟩ <;> omega

theorem fields25 (op k v0 v1 v2 w : Nat) (ho : op < 64) (hk : k < 32) (h0 : v0 < 32) (h1 : v1 < 32) (h2 : v2 < 32)
    (hw : pack21_16_11 (op * 2^26 + k) v0 v1 v2 = w) :
    w / 2^26 % 64 = op ∧ w % 32 = k ∧ w / 2^5 % 2^6 = 0 ∧ w / 2^21 % 32 = v0 ∧ w / 2^16 % 32 = v1 ∧ w / 2^11 % 32 = v2 := by
  simp only [pack21_16_11] at hw
  refine ⟨?_, ?_, ?_, ?_, ?_, ?_⟩ <;> omega

theorem fields26 (op k v0 v1 v2 w : Nat) (ho : op < 64) (hk : k < 32) (h0 : v0 < 32) (h1 : v1 < 32) (h2 : v2 < 2)
    (hw : pack21_16_11 (op * 2^26 + k) v0 v1 v2 = w) :
    w / 2^26 % 64 = op ∧ w % 32 = k ∧ w / 2^5 % 2^6 = 0 ∧ w / 2^12 % 2^4 = 0 ∧ w / 2^21 % 32 = v0 ∧ w / 2^16 % 32 = v1 ∧ w / 2^11 % 2 = v2 := by
  simp only [pack21_16_11] at hw
  refine ⟨?_, ?_, ?_, ?_, ?_, ?_, ?_⟩ <;> omega

theorem fields27 (op k v0 v1 v2 w : Nat) (ho : op < 64) (hk : k < 32) (h0 : v0 < 32) (h1 : v1 < 32) (h2 : v2 < 4)
    (hw : pack21_16_11 (op * 2^26 + k) v0 v1 v2 = w) :
    w / 2^26 % 64 = op ∧ w % 32 = k ∧ w / 2^5 % 2^6 = 0 ∧ w / 2^13 % 2^3 = 0 ∧ w / 2^21 % 32 = v0 ∧ w / 2^16 % 32 = v1 ∧ w / 2^11 % 4 = v2 := by
  simp only [pack21_16_11] at hw
  refine ⟨?_, ?_, ?_, ?_, ?_, ?_, ?_⟩ <;> omega

theorem fields28 (op k v0 v1 v2 v3 w : Nat) (ho : op < 64) (hk : k < 32) (h0 : v0 < 32) (h1 : v1 < 32) (h2 : v2 < 8) (h3 : v3 < 8)
    (hw : pack21_16_8_5 (op * 2^26 + k) v0 v1 v2 v3 = w) :
    w / 2^26 % 64 = op ∧ w % 32 = k ∧ w / 2^11 % 2^5 = 0 ∧ w / 2^21 % 32 = v0 ∧ w / 2^16 % 32 = v1 ∧ w / 2^8 % 8 = v2 ∧ w / 2^5 % 8 = v3 := by
  simp only [pack21_16_8_5] at hw
  refine ⟨?_, ?_, ?_, ?_, ?_, ?_, ?_⟩ <;> omega

theorem fields29 (op k v0 v1 v2 v3 w : Nat) (ho : op < 64) (hk : k < 32) (h0 : v0 < 32) (h1 : v1 < 32) (h2 : v2 < 32) (h3 : v3 < 8)
    (hw : pack21_16_11_5 (op * 2^26 + k) v0 v1 v2 v3 = w) :
    w / 2^26 % 64 = op ∧ w % 32 = k ∧ w / 2^8 % 2^3 = 0 ∧ w / 2^21 % 32 = v0 ∧ w / 2^16 % 32 = v1 ∧ w / 2^11 % 32 = v2 ∧ w / 2^5 % 8 = v3 := by
  simp only [pack21_16_11_5] at hw
  refine ⟨?_, ?_, ?_, ?_, ?_, ?_, ?_⟩ <;> omega

theorem fields30 (op k v0 v1 v2 v3 v4 w : Nat) (ho : op < 64) (hk : k < 32) (h0 : v0 < 32) (h1 : v1 < 32) (h2 : v2 < 32) (h3 : v3 < 8) (h4 : v4 < 8)
    (hw : pack21_16_11_8_5 (op * 2^26 + k) v0 v1 v2 v3 v4 = w) :
    w / 2^26 % 64 = op ∧ w % 32 = k ∧ w / 2^21 % 32 = v0 ∧ w / 2^16 % 32 = v1 ∧ w / 2^11 % 32 = v2 ∧ w / 2^8 % 8 = v3 ∧ w / 2^5 % 8 = v4 := by
  simp only [pack21_16_11_8_5] at hw
  refine ⟨?_, ?_, ?_, ?_, ?_, ?_, ?_⟩ <;> omega

theorem fields31 (op k v0 v1 v2 w : Nat) (ho : op < 64) (hk : k < 32) (h0 : v0 < 8) (h1 : v1 < 8) (h2 : v2 < 8)
    (hw : pack21_16_11 (op * 2^26 + k) v0 v1 v2 = w) :
    w / 2^26 % 64 = op ∧ w % 32 = k ∧ w / 2^5 % 2^6 = 0 ∧ w / 2^14 % 2^2 = 0 ∧ w / 2^19 % 2^2 = 0 ∧ w / 2^24 % 2^2 = 0 ∧ w / 2^21 % 8 = v0 ∧ w / 2^16 % 8 = v1 ∧ w / 2^11 % 8 = v2 := by
  simp only [pack21_16_11] at hw
  refine ⟨?_, ?_, ?_, ?_, ?_, ?_, ?_, ?_, ?_⟩ <;> omega

theorem fields32 (op k v0 v1 w : Nat) (ho : op < 64) (hk : k < 32) (h0 : v0 < 8) (h1 : v1 < 8)
    (hw : pack21_16 (op * 2^26 + k) v0 v1 = w) :
    w / 2^26 % 64 = op ∧ w % 32 = k ∧ w / 2^5 % 2^11 = 0 ∧ w / 2^19 % 2^2 = 0 ∧ w / 2^24 % 2^2 = 0 ∧ w / 2^21 % 8 = v0 ∧ w / 2^16 % 8 = v1 := by
  simp only [pack21_16] at hw
  refine ⟨?_, ?_, ?_, ?_, ?_, ?_, ?_⟩ <;> omega

theorem fields33 (op k v0 v1 v2 w : Nat) (ho : op < 64) (hk : k < 32) (h0 : v0 < 8) (h1 : v1 < 32) (h2 : v2 < 8)
    (hw : pack21_16_5 (op * 2^26 + k) v0 v1 v2 = w) :
    w / 2^26 % 64 = op ∧ w % 32 = k ∧ w / 2^8 % 2^8 = 0 ∧ w / 2^24 % 2^2 = 0 ∧ w / 2^21 % 8 = v0 ∧ w / 2^16 % 32 = v1 ∧ w / 2^5 % 8 = v2 := by
  simp only [pack21_16_5] at hw
  refine ⟨?_, ?_, ?_, ?_, ?_, ?_, ?_⟩ <;> omega

theorem fields34 (op k v0 v1 v2 w : Nat) (ho : op < 64) (hk : k < 32) (h0 : v0 < 32) (h1 : v1 < 8) (h2 : v2 < 8)
    (hw : pack21_16_5 (op * 2^26 + k) v0 v1 v2 = w) :
    w / 2^26 % 64 = op ∧ w % 32 = k ∧ w / 2^8 % 2^8 = 0 ∧ w / 2^19 % 2^2 = 0 ∧ w / 2^21 % 32 = v0 ∧ w / 2^16 % 8 = v1 ∧ w / 2^5 % 8 = v2 := by
  simp only [pack21_16_5] at hw
  refine ⟨?_, ?_, ?_, ?_, ?_, ?_, ?_⟩ <;> omega

theorem fields35 (op k v0 v1 v2 v3 w : Nat) (ho : op < 64) (hk : k < 32) (h0 : v0 < 8) (h1 : v1 < 32) (h2 : v2 < 32) (h3 : v3 < 8)
    (hw : pack21_16_11_5 (op * 2^26 + k) v0 v1 v2 v3 = w) :
    w / 2^26 % 64 = op ∧ w % 32 = k ∧ w / 2^8 % 2^3 = 0 ∧ w / 2^24 % 2^2 = 0 ∧ w / 2^21 % 8 = v0 ∧ w / 2^16 % 32 = v1 ∧ w / 2^11 % 32 = v2 ∧ w / 2^5 % 8 = v3 := by
  simp only [pack21_16_11_5] at hw
  refine ⟨?_, ?_, ?_, ?_, ?_, ?_, ?_, ?_⟩ <;> omega

theorem fields36 (op k v0 v1 v2 v3 w : Nat) (ho : op < 64) (hk : k < 32) (h0 : v0 < 32) (h1 : v1 < 32) (h2 : v2 < 8) (h3 : v3 < 8)
    (hw : pack21_16_8_5 (op * 2^26 + k) v0 v1 v2 v3 = w) :
    w / 2^26 % 64 = op ∧ w % 32 = k ∧ w / 2^11 % 2^5 = 0 ∧ w / 2^21 % 32 = v0 ∧ w / 2^16 % 32 = v1 ∧ w / 2^8 % 8 = v2 ∧ w / 2^5 % 8 = v3 := by
  simp only [pack21_16_8_5] at hw
  refine ⟨?_, ?_, ?_, ?_, ?_, ?_, ?_⟩ <;> omega

theorem fields37 (op k v0 v1 v2 v3 v4 w : Nat) (ho : op < 64) (hk : k < 32) (h0 : v0 < 32) (h1 : v1 < 32) (h2 : v2 < 32) (h3 : v3 < 8) (h4 : v4 < 8)
    (hw : pack21_16_11_8_5 (op * 2^26 + k) v0 v1 v2 v3 v4 = w) :
    w / 2^26 % 64 = op ∧ w % 32 = k ∧ w / 2^21 % 32 = v0 ∧ w / 2^16 % 32 = v1 ∧ w / 2^11 % 32 = v2 ∧ w / 2^8 % 8 = v3 ∧ w / 2^5 % 8 = v4 := by
  simp only [pack21_16_11_8_5] at hw
  refine ⟨?_, ?_, ?_, ?_, ?_, ?_, ?_⟩ <;> omega

theorem fields38 (op k v0 v1 v2 v3 w : Nat) (ho : op < 64) (hk : k < 128) (h0 : v0 < 4) (h1 : v1 < 32) (h2 : v2 < 32) (h3 : v3 < 16)
    (hw : pack21_16_11_7 (op * 2^26 + k) v0 v1 v2 v3 = w) :
    w / 2^26 % 64 = op ∧ w % 128 = k ∧ w / 2^23 % 2^3 = 0 ∧ w / 2^21 % 4 = v0 ∧ w / 2^16 % 32 = v1 ∧ w / 2^11 % 32 = v2 ∧ w / 2^7 % 16 = v3 := by
  simp only [pack21_16_11_7] at hw
  refine ⟨?_, ?_, ?_, ?_, ?_, ?_, ?_⟩ <;> omega

theorem fields39 (op k v0 v1 w : Nat) (ho : op < 64) (hk : k < 128) (h0 : v0 < 4) (h1 : v1 < 16)
    (hw : pack21_7 (op * 2^26 + k) v0 v1 = w) :
    w / 2^26 % 64 = op ∧ w % 128 = k ∧ w / 2^11 % 2^10 = 0 ∧ w / 2^23 % 2^3 = 0 ∧ w / 2^21 % 4 = v0 ∧ w / 2^7 % 16 = v1 := by
  simp only [pack21_7] at hw
  refine ⟨?_, ?_, ?_, ?_, ?_, ?_⟩ <;> omega

theorem fields40 (op k v0 v1 v2 w : Nat) (ho : op < 64) (hk : k < 128) (h0 : v0 < 32) (h1 : v1 < 4) (h2 : v2 < 16)
    (hw : pack21_16_7 (op * 2^26 + k) v0 v1 v2 = w) :
    w / 2^26 % 64 = op ∧ w % 128 = k ∧ w / 2^11 % 2^5 = 0 ∧ w / 2^18 % 2^3 = 0 ∧ w / 2^21 % 32 = v0 ∧ w / 2^16 % 4 = v1 ∧ w / 2^7 % 16 = v2 := by
  simp only [pack21_16_7] at hw
  refine ⟨?_, ?_, ?_, ?_, ?_, ?_, ?_⟩ <;> omega

theorem fields41 (op k v0 v1 v2 v3 w : Nat) (ho : op < 64) (hk : k < 128) (h0 : v0 < 32) (h1 : v1 < 32) (h2 : v2 < 32) (h3 : v3 < 16)
    (hw : pack21_16_11_7 (op * 2^26 + k) v0 v1 v2 v3 = w) :
    w / 2^26 % 64 = op ∧ w % 128 = k ∧ w / 2^21 % 32 = v0 ∧ w / 2^16 % 32 = v1 ∧ w / 2^11 % 32 = v2 ∧ w / 2^7 % 16 = v3 := by
  simp only [pack21_16_11_7] at hw
  refine ⟨?_, ?_, ?_, ?_, ?_, ?_⟩ <;> omega

theorem fields42 (op k v0 v1 v2 w : Nat) (ho : op < 64) (hk : k < 128) (h0 : v0 < 32) (h1 : v1 < 32) (h2 : v2 < 16)
    (hw : pack21_16_7 (op * 2^26 + k) v0 v1 v2 = w) :
    w / 2^26 % 64 = op ∧ w % 128 = k ∧ w / 2^11 % 2^5 = 0 ∧ w / 2^21 % 32 = v0 ∧ w / 2^16 % 32 = v1 ∧ w / 2^7 % 16 = v2 := by
  simp only [pack21_16_7] at hw
  refine ⟨?_, ?_, ?_, ?_, ?_, ?_⟩ <;> omega

theorem fields43 (op k v0 v1 v2 v3 w : Nat) (ho : op < 64) (hk : k < 128) (h0 : v0 < 32) (h1 : v1 < 32) (h2 : v2 < 32) (h3 : v3 < 16)
    (hw : pack21_16_11_7 (op * 2^26 + k) v0 v1 v2 v3 = w) :
    w / 2^26 % 64 = op ∧ w % 128 = k ∧ w / 2^21 % 32 = v0 ∧ w / 2^16 % 32 = v1 ∧ w / 2^11 % 32 = v2 ∧ w / 2^7 % 16 = v3 := by
  simp only [pack21_16_11_7] at hw
  refine ⟨?_, ?_, ?_, ?_, ?_, ?_⟩ <;> omega

theorem fields44 (op k v0 v1 v2 w : Nat) (ho : op < 64) (hk : k < 128) (h0 : v0 < 32) (h1 : v1 < 32) (h2 : v2 < 16)
    (hw : pack21_16_7 (op * 2^26 + k) v0 v1 v2 = w) :
    w / 2^26 % 64 = op ∧ w % 128 = k ∧ w / 2^11 % 2^5 = 0 ∧ w / 2^21 % 32 = v0 ∧ w / 2^16 % 32 = v1 ∧ w / 2^7 % 16 = v2 := by
  simp only [pack21_16_7] at hw
  refine ⟨?_, ?_, ?_, ?_, ?_, ?_⟩ <;> omega

theorem fields45 (op k v0 v1 v2 w : Nat) (ho : op < 64) (hk : k < 128) (h0 : v0 < 32) (h1 : v1 < 32) (h2 : v2 < 16)
    (hw : pack21_16_7 (op * 2^26 + k) v0 v1 v2 = w) :
    w / 2^26 % 64 = op ∧ w % 128 = k ∧ w / 2^11 % 2^5 = 0 ∧ w / 2^21 % 32 = v0 ∧ w / 2^16 % 32 = v1 ∧ w / 2^7 % 16 = v2 := by
  simp only [pack21_16_7] at hw
  refine ⟨?_, ?_, ?_, ?_, ?_, ?_⟩ <;> omega

theorem fields46 (op k v0 v1 v2 w : Nat) (ho : op < 64) (hk : k < 128) (h0 : v0 < 16) (h1 : v1 < 32) (h2 : v2 < 16)
    (hw : pack21_16_7 (op * 2^26 + k) v0 v1 v2 = w) :
    w / 2^26 % 64 = op ∧ w % 128 = k ∧ w / 2^11 % 2^5 = 0 ∧ w / 2^25 % 2^1 = 0 ∧ w / 2^21 % 16 = v0 ∧ w / 2^16 % 32 = v1 ∧ w / 2^7 % 16 = v2 := by
  simp only [pack21_16_7] at hw
  refine ⟨?_, ?_, ?_, ?_, ?_, ?_, ?_⟩ <;> omega

theorem fields47 (op k v0 v1 v2 w : Nat) (ho : op < 64) (hk : k < 128) (h0 : v0 < 32) (h1 : v1 < 16) (h2 : v2 < 16)
    (hw : pack21_16_7 (op * 2^26 + k) v0 v1 v2 = w) :
    w / 2^26 % 64 = op ∧ w % 128 = k ∧ w / 2^11 % 2^5 = 0 ∧ w / 2^20 % 2^1 = 0 ∧ w / 2^21 % 32 = v0 ∧ w / 2^16 % 16 = v1 ∧ w / 2^7 % 16 = v2 := by
  simp only [pack21_16_7] at hw
  refine ⟨?_, ?_, ?_, ?_, ?_, ?_, ?_⟩ <;> omega

theorem fields48 (op k v0 v1 v2 w : Nat) (ho : op < 64) (hk : k < 128) (h0 : v0 < 32) (h1 : v1 < 32) (h2 : v2 < 16)
    (hw : pack16_11_7 (op * 2^26 + k) v0 v1 v2 = w) :
    w / 2^26 % 64 = op ∧ w % 128 = k ∧ w / 2^21 % 2^5 = 0 ∧ w / 2^16 % 32 = v0 ∧ w / 2^11 % 32 = v1 ∧ w / 2^7 % 16 = v2 := by
  simp only [pack16_11_7] at hw
  refine ⟨?_, ?_, ?_, ?_, ?_, ?_⟩ <;> omega

theorem fields49 (op k v0 w : Nat) (ho : op < 64) (hk : k < 128) (h0 : v0 < 16)
    (hw : pack7 (op * 2^26 + k) v0 = w) :
    w / 2^26 % 64 = op ∧ w % 128 = k ∧ w / 2^11 % 2^15 = 0 ∧ w / 2^7 % 16 = v0 := by
  simp only [pack7] at hw
  refine ⟨?_, ?_, ?_, ?_⟩ <;> omega

theorem fields50 (op k v0 v1 v2 v3 v4 w : Nat) (ho : op < 64) (hk : k < 128) (h0 : v0 < 2) (h1 : v1 < 4) (h2 : v2 < 32) (h3 : v3 < 32) (h4 : v4 < 16)
    (hw : pack23_21_16_11_7 (op * 2^26 + k) v0 v1 v2 v3 v4 = w) :
    w / 2^26 % 64 = op ∧ w % 128 = k ∧ w / 2^24 % 2^2 = 0 ∧ w / 2^23 % 2 = v0 ∧ w / 2^21 % 4 = v1 ∧ w / 2^16 % 32 = v2 ∧ w / 2^11 % 32 = v3 ∧ w / 2^7 % 16 = v4 := by
  simp only [pack23_21_16_11_7] at hw
  refine ⟨?_, ?_, ?_, ?_, ?_, ?_, ?_, ?_⟩ <;> omega

theorem fields51 (op k v0 v1 w : Nat) (ho : op < 64) (hk : k < 128) (h0 : v0 < 4) (h1 : v1 < 16)
    (hw : pack21_7 (op * 2^26 + k) v0 v1 = w) :
    w / 2^26 % 64 = op ∧ w % 128 = k ∧ w / 2^11 % 2^10 = 0 ∧ w / 2^23 % 2^3 = 0 ∧ w / 2^21 % 4 = v0 ∧ w / 2^7 % 16 = v1 := by
  simp only [pack21_7] at hw
  refine ⟨?_, ?_, ?_, ?_, ?_, ?_⟩ <;> omega

theorem fields52 (op k v0 v1 v2 v3 w : Nat) (ho : op < 64) (hk : k < 128) (h0 : v0 < 4) (h1 : v1 < 32) (h2 : v2 < 4) (h3 : v3 < 16)
    (hw : pack21_16_11_7 (op * 2^26 + k) v0 v1 v2 v3 = w) :
    w / 2^26 % 64 = op ∧ w % 128 = k ∧ w / 2^13 % 2^3 = 0 ∧ w / 2^23 % 2^3 = 0 ∧ w / 2^21 % 4 = v0 ∧ w / 2^16 % 32 = v1 ∧ w / 2^11 % 4 = v2 ∧ w / 2^7 % 16 = v3 := by
  simp only [pack21_16_11_7] at hw
  refine ⟨?_, ?_, ?_, ?_, ?_, ?_, ?_, ?_⟩ <;> omega

theorem fields53 (op k v0 v1 w : Nat) (ho : op < 64) (hk : k < 128) (h0 : v0 < 32) (h1 : v1 < 16)
    (hw : pack21_7 (op * 2^26 + k) v0 v1 = w) :
    w / 2^26 % 64 = op ∧ w % 128 = k ∧ w / 2^11 % 2^10 = 0 ∧ w / 2^21 % 32 = v0 ∧ w / 2^7 % 16 = v1 := by
  simp only [pack21_7] at hw
  refine ⟨?_, ?_, ?_, ?_, ?_⟩ <;> omega

theorem fields54 (op k v0 v1 v2 v3 w : Nat) (ho : op < 64) (hk : k < 128) (h0 : v0 < 32) (h1 : v1 < 32) (h2 : v2 < 32) (h3 : v3 < 16)
    (hw : pack21_16_11_7 (op * 2^26 + k) v0 v1 v2 v3 = w) :
    w / 2^26 % 64 = op ∧ w % 128 = k ∧ w / 2^21 % 32 = v0 ∧ w / 2^16 % 32 = v1 ∧ w / 2^11 % 32 = v2 ∧ w / 2^7 % 16 = v3 := by
  simp only [pack21_16_11_7] at hw
  refine ⟨?_, ?_, ?_, ?_, ?_, ?_⟩ <;> omega

theorem fields55 (op k v0 v1 v2 w : Nat) (ho : op < 64) (hk : k < 128) (h0 : v0 < 32) (h1 : v1 < 32) (h2 : v2 < 16)
    (hw : pack21_16_7 (op * 2^26 + k) v0 v1 v2 = w) :
    w / 2^26 % 64 = op ∧ w % 128 = k ∧ w / 2^11 % 2^5 = 0 ∧ w / 2^21 % 32 = v0 ∧ w / 2^16 % 32 = v1 ∧ w / 2^7 % 16 = v2 := by
  simp only [pack21_16_7] at hw
  refine ⟨?_, ?_, ?_, ?_, ?_, ?_⟩ <;> omega

theorem fields56 (op k v0 v1 w : Nat) (ho : op < 64) (hk : k < 128) (h0 : v0 < 32) (h1 : v1 < 16)
    (hw : pack21_7 (op * 2^26 + k) v0 v1 = w) :
    w / 2^26 % 64 = op ∧ w % 128 = k ∧ w / 2^11 % 2^10 = 0 ∧ w / 2^21 % 32 = v0 ∧ w / 2^7 % 16 = v1 := by
  simp only [pack21_7] at hw
  refine ⟨?_, ?_, ?_, ?_, ?_⟩ <;> omega

theorem fields57 (op k v0 w : Nat) (ho : op < 64) (hk : k < 128) (h0 : v0 < 4)
    (hw : pack11 (op * 2^26 + k) v0 = w) :
    w / 2^26 % 64 = op ∧ w % 128 = k ∧ w / 2^7 % 2^4 = 0 ∧ w / 2^13 % 2^13 = 0 ∧ w / 2^11 % 4 = v0 := by
  simp only [pack11] at hw
  refine ⟨?_, ?_, ?_, ?_, ?_⟩ <;> omega

theorem fields58 (op k v0 v1 v2 w : Nat) (ho : op < 64) (hk : k < 128) (h0 : v0 < 32) (h1 : v1 < 32) (h2 : v2 < 4)
    (hw : pack21_16_11 (op * 2^26 + k) v0 v1 v2 = w) :
    w / 2^26 % 64 = op ∧ w % 128 = k ∧ w / 2^7 % 2^4 = 0 ∧ w / 2^13 % 2^3 = 0 ∧ w / 2^21 % 32 = v0 ∧ w / 2^16 % 32 = v1 ∧ w / 2^11 % 4 = v2 := by
  simp only [pack21_16_11] at hw
  refine ⟨?_, ?_, ?_, ?_, ?_, ?_, ?_⟩ <;> omega

theorem fields59 (op k v0 v1 v2 w : Nat) (ho : op < 64) (hk : k < 128) (h0 : v0 < 32) (h1 : v1 < 32) (h2 : v2 < 32)
    (hw : pack21_16_11 (op * 2^26 + k) v0 v1 v2 = w) :
    w / 2^26 % 64 = op ∧ w % 128 = k ∧ w / 2^7 % 2^4 = 0 ∧ w / 2^21 % 32 = v0 ∧ w / 2^16 % 32 = v1 ∧ w / 2^11 % 32 = v2 := by
  simp only [pack21_16_11] at hw
  refine ⟨?_, ?_, ?_, ?_, ?_, ?_⟩ <;> omega

theorem fields60 (op k v0 v1 v2 w : Nat) (ho : op < 64) (hk : k < 128) (h0 : v0 < 32) (h1 : v1 < 32) (h2 : v2 < 16)
    (hw : pack21_16_7 (op * 2^26 + k) v0 v1 v2 = w) :
    w / 2^26 % 64 = op ∧ w % 128 = k ∧ w / 2^11 % 2^5 = 0 ∧ w / 2^21 % 32 = v0 ∧ w / 2^16 % 32 = v1 ∧ w / 2^7 % 16 = v2 := by
  simp only [pack21_16_7] at hw
  refine ⟨?_, ?_, ?_, ?_, ?_, ?_⟩ <;> omega

theorem fields61 (op k v0 w : Nat) (ho : op < 64) (hk : k < 128) (h0 : v0 < 32)
    (hw : pack21 (op * 2^26 + k) v0 = w) :
    w / 2^26 % 64 = op ∧ w % 128 = k ∧ w / 2^7 % 2^14 = 0 ∧ w / 2^21 % 32 = v0 := by
  simp only [pack21] at hw
  refine ⟨?_, ?_, ?_, ?_⟩ <;> omega

theorem fields62 (op k v0 v1 v2 v3 w : Nat) (ho : op < 64) (hk : k < 128) (h0 : v0 < 32) (h1 : v1 < 32) (h2 : v2 < 32) (h3 : v3 < 16)
    (hw : pack21_16_11_7 (op * 2^26 + k) v0 v1 v2 v3 = w) :
    w / 2^26 % 64 = op ∧ w % 128 = k ∧ w / 2^21 % 32 = v0 ∧ w / 2^16 % 32 = v1 ∧ w / 2^11 % 32 = v2 ∧ w / 2^7 % 16 = v3 := by
  simp only [pack21_16_11_7] at hw
  refine ⟨?_, ?_, ?_, ?_, ?_, ?_⟩ <;> omega

theorem fields63 (op k v0 v1 v2 w : Nat) (ho : op < 64) (hk : k < 128) (h0 : v0 < 32) (h1 : v1 < 32) (h2 : v2 < 16)
    (hw : pack21_16_7 (op * 2^26 + k) v0 v1 v2 = w) :
    w / 2^26 % 64 = op ∧ w % 128 = k ∧ w / 2^11 % 2^5 = 0 ∧ w / 2^21 % 32 = v0 ∧ w / 2^16 % 32 = v1 ∧ w / 2^7 % 16 = v2 := by
  simp only [pack21_16_7] at hw
  refine ⟨?_, ?_, ?_, ?_, ?_, ?_⟩ <;> omega

theorem fields64 (op k v0 v1 v2 v3 w : Nat) (ho : op < 64) (hk : k < 128) (h0 : v0 < 32) (h1 : v1 < 32) (h2 : v2 < 32) (h3 : v3 < 16)
    (hw : pack21_16_11_7 (op * 2^26 + k) v0 v1 v2 v3 = w) :
    w / 2^26 % 64 = op ∧ w % 128 = k ∧ w / 2^21 % 32 = v0 ∧ w / 2^16 % 32 = v1 ∧ w / 2^11 % 32 = v2 ∧ w / 2^7 % 16 = v3 := by
  simp only [pack21_16_11_7] at hw
  refine ⟨?_, ?_, ?_, ?_, ?_, ?_⟩ <;> omega

theorem fields65 (op k v0 v1 v2 w : Nat) (ho : op < 64) (hk : k < 128) (h0 : v0 < 32) (h1 : v1 < 32) (h2 : v2 < 16)
    (hw : pack21_16_7 (op * 2^26 + k) v0 v1 v2 = w) :
    w / 2^26 % 64 = op ∧ w % 128 = k ∧ w / 2^11 % 2^5 = 0 ∧ w / 2^21 % 32 = v0 ∧ w / 2^16 % 32 = v1 ∧ w / 2^7 % 16 = v2 := by
  simp only [pack21_16_7] at hw
  refine ⟨?_, ?_, ?_, ?_, ?_, ?_⟩ <;> omega

theorem fields66 (op k v0 v1 w : Nat) (ho : op < 64) (hk : k < 128) (h0 : v0 < 32) (h1 : v1 < 16)
    (hw : pack21_7 (op * 2^26 + k) v0 v1 = w) :
    w / 2^26 % 64 = op ∧ w % 128 = k ∧ w / 2^11 % 2^10 = 0 ∧ w / 2^21 % 32 = v0 ∧ w / 2^7 % 16 = v1 := by
  simp only [pack21_7] at hw
  refine ⟨?_, ?_, ?_, ?_, ?_⟩ <;> omega

theorem fields67 (op k v0 v1 w : Nat) (ho : op < 64) (hk : k < 4) (h0 : v0 < 32) (h1 : v1 < 2^12)
    (hw : pack21_0 (op * 2^26 + k * 2^14) v0 v1 = w) :
    w / 2^26 % 64 = op ∧ w / 2^14 % 4 = k ∧ w / 2^12 % 2^2 = 0 ∧ w / 2^16 % 2^5 = 0 ∧ w / 2^21 % 32 = v0 ∧ w % 2^12 = v1 := by
  simp only [pack21_0] at hw
  refine ⟨?_, ?_, ?_, ?_, ?_, ?_⟩ <;> omega

theorem fields68 (op k v0 v1 v2 w : Nat) (ho : op < 64) (hk : k < 4) (h0 : v0 < 32) (h1 : v1 < 32) (h2 : v2 < 2^12)
    (hw : pack21_16_0 (op * 2^26 + k * 2^14) v0 v1 v2 = w) :
    w / 2^26 % 64 = op ∧ w / 2^14 % 4 = k ∧ w / 2^12 % 2^2 = 0 ∧ w / 2^21 % 32 = v0 ∧ w / 2^16 % 32 = v1 ∧ w % 2^12 = v2 := by
  simp only [pack21_16_0] at hw
  refine ⟨?_, ?_, ?_, ?_, ?_, ?_⟩ <;> omega

theorem fields69 (op k v0 w : Nat) (ho : op < 64) (hk : k < 2048) (h0 : v0 < 32)
    (hw : pack16 (op * 2^26 + k) v0 = w) :
    w / 2^26 % 64 = op ∧ w % 2048 = k ∧ w / 2^11 % 2^5 = 0 ∧ w / 2^21 % 2^5 = 0 ∧ w / 2^16 % 32 = v0 := by
  simp only [pack16] at hw
  refine ⟨?_, ?_, ?_, ?_, ?_⟩ <;> omega

theorem add (d : Reg) (a : Reg) (b : Reg) : Statement (.add d a b) := by
  intro hwf w e
  obtain ⟨ho, hk, z0, f0, f1, f2⟩ := fields1 1 0 d.val a.val b.val w (by decide) (by decide) (d.isLt) (a.isLt) (b.isLt) (Option.some.inj e)
  refine decode_of ?_ hwf
  rw [decodeRaw_1 ho]
  unfold decodeInteger; rw [hk]
  refine (if_pos z0).trans (congrArg Except.ok ?_)
  show Instr.add (fieldD w) (fieldA w) (fieldB w) = Instr.add d a b
  rw [(show fieldD w = d from Fin.ext f0), (show fieldA w = a from Fin.ext f1), (show fieldB w = b from Fin.ext f2)]

theorem sub (d : Reg) (a : Reg) (b : Reg) : Statement (.sub d a b) := by
  intro hwf w e
  obtain ⟨ho, hk, z0, f0, f1, f2⟩ := fields1 1 1 d.val a.val b.val w (by decide) (by decide) (d.isLt) (a.isLt) (b.isLt) (Option.some.inj e)
  refine decode_of ?_ hwf
  rw [decodeRaw_1 ho]
  unfold decodeInteger; rw [hk]
  refine (if_pos z0).trans (congrArg Except.ok ?_)
  show Instr.sub (fieldD w) (fieldA w) (fieldB w) = Instr.sub d a b
  rw [(show fieldD w = d from Fin.ext f0), (show fieldA w = a from Fin.ext f1), (show fieldB w = b from Fin.ext f2)]

theorem and (d : Reg) (a : Reg) (b : Reg) : Statement (.and d a b) := by
  intro hwf w e
  obtain ⟨ho, hk, z0, f0, f1, f2⟩ := fields1 1 2 d.val a.val b.val w (by decide) (by decide) (d.isLt) (a.isLt) (b.isLt) (Option.some.inj e)
  refine decode_of ?_ hwf
  rw [decodeRaw_1 ho]
  unfold decodeInteger; rw [hk]
  refine (if_pos z0).trans (congrArg Except.ok ?_)
  show Instr.and (fieldD w) (fieldA w) (fieldB w) = Instr.and d a b
  rw [(show fieldD w = d from Fin.ext f0), (show fieldA w = a from Fin.ext f1), (show fieldB w = b from Fin.ext f2)]

theorem or (d : Reg) (a : Reg) (b : Reg) : Statement (.or d a b) := by
  intro hwf w e
  obtain ⟨ho, hk, z0, f0, f1, f2⟩ := fields1 1 3 d.val a.val b.val w (by decide) (by decide) (d.isLt) (a.isLt) (b.isLt) (Option.some.inj e)
  refine decode_of ?_ hwf
  rw [decodeRaw_1 ho]
  unfold decodeInteger; rw [hk]
  refine (if_pos z0).trans (congrArg Except.ok ?_)
  show Instr.or (fieldD w) (fieldA w) (fieldB w) = Instr.or d a b
  rw [(show fieldD w = d from Fin.ext f0), (show fieldA w = a from Fin.ext f1), (show fieldB w = b from Fin.ext f2)]

theorem xor (d : Reg) (a : Reg) (b : Reg) : Statement (.xor d a b) := by
  intro hwf w e
  obtain ⟨ho, hk, z0, f0, f1, f2⟩ := fields1 1 4 d.val a.val b.val w (by decide) (by decide) (d.isLt) (a.isLt) (b.isLt) (Option.some.inj e)
  refine decode_of ?_ hwf
  rw [decodeRaw_1 ho]
  unfold decodeInteger; rw [hk]
  refine (if_pos z0).trans (congrArg Except.ok ?_)
  show Instr.xor (fieldD w) (fieldA w) (fieldB w) = Instr.xor d a b
  rw [(show fieldD w = d from Fin.ext f0), (show fieldA w = a from Fin.ext f1), (show fieldB w = b from Fin.ext f2)]

theorem andn (d : Reg) (a : Reg) (b : Reg) : Statement (.andn d a b) := by
  intro hwf w e
  obtain ⟨ho, hk, z0, f0, f1, f2⟩ := fields1 1 5 d.val a.val b.val w (by decide) (by decide) (d.isLt) (a.isLt) (b.isLt) (Option.some.inj e)
  refine decode_of ?_ hwf
  rw [decodeRaw_1 ho]
  unfold decodeInteger; rw [hk]
  refine (if_pos z0).trans (congrArg Except.ok ?_)
  show Instr.andn (fieldD w) (fieldA w) (fieldB w) = Instr.andn d a b
  rw [(show fieldD w = d from Fin.ext f0), (show fieldA w = a from Fin.ext f1), (show fieldB w = b from Fin.ext f2)]

theorem orn (d : Reg) (a : Reg) (b : Reg) : Statement (.orn d a b) := by
  intro hwf w e
  obtain ⟨ho, hk, z0, f0, f1, f2⟩ := fields1 1 6 d.val a.val b.val w (by decide) (by decide) (d.isLt) (a.isLt) (b.isLt) (Option.some.inj e)
  refine decode_of ?_ hwf
  rw [decodeRaw_1 ho]
  unfold decodeInteger; rw [hk]
  refine (if_pos z0).trans (congrArg Except.ok ?_)
  show Instr.orn (fieldD w) (fieldA w) (fieldB w) = Instr.orn d a b
  rw [(show fieldD w = d from Fin.ext f0), (show fieldA w = a from Fin.ext f1), (show fieldB w = b from Fin.ext f2)]

theorem sll (d : Reg) (a : Reg) (b : Reg) : Statement (.sll d a b) := by
  intro hwf w e
  obtain ⟨ho, hk, z0, f0, f1, f2⟩ := fields1 1 7 d.val a.val b.val w (by decide) (by decide) (d.isLt) (a.isLt) (b.isLt) (Option.some.inj e)
  refine decode_of ?_ hwf
  rw [decodeRaw_1 ho]
  unfold decodeInteger; rw [hk]
  refine (if_pos z0).trans (congrArg Except.ok ?_)
  show Instr.sll (fieldD w) (fieldA w) (fieldB w) = Instr.sll d a b
  rw [(show fieldD w = d from Fin.ext f0), (show fieldA w = a from Fin.ext f1), (show fieldB w = b from Fin.ext f2)]

theorem srl (d : Reg) (a : Reg) (b : Reg) : Statement (.srl d a b) := by
  intro hwf w e
  obtain ⟨ho, hk, z0, f0, f1, f2⟩ := fields1 1 8 d.val a.val b.val w (by decide) (by decide) (d.isLt) (a.isLt) (b.isLt) (Option.some.inj e)
  refine decode_of ?_ hwf
  rw [decodeRaw_1 ho]
  unfold decodeInteger; rw [hk]
  refine (if_pos z0).trans (congrArg Except.ok ?_)
  show Instr.srl (fieldD w) (fieldA w) (fieldB w) = Instr.srl d a b
  rw [(show fieldD w = d from Fin.ext f0), (show fieldA w = a from Fin.ext f1), (show fieldB w = b from Fin.ext f2)]

theorem sra (d : Reg) (a : Reg) (b : Reg) : Statement (.sra d a b) := by
  intro hwf w e
  obtain ⟨ho, hk, z0, f0, f1, f2⟩ := fields1 1 9 d.val a.val b.val w (by decide) (by decide) (d.isLt) (a.isLt) (b.isLt) (Option.some.inj e)
  refine decode_of ?_ hwf
  rw [decodeRaw_1 ho]
  unfold decodeInteger; rw [hk]
  refine (if_pos z0).trans (congrArg Except.ok ?_)
  show Instr.sra (fieldD w) (fieldA w) (fieldB w) = Instr.sra d a b
  rw [(show fieldD w = d from Fin.ext f0), (show fieldA w = a from Fin.ext f1), (show fieldB w = b from Fin.ext f2)]

theorem rol (d : Reg) (a : Reg) (b : Reg) : Statement (.rol d a b) := by
  intro hwf w e
  obtain ⟨ho, hk, z0, f0, f1, f2⟩ := fields1 1 10 d.val a.val b.val w (by decide) (by decide) (d.isLt) (a.isLt) (b.isLt) (Option.some.inj e)
  refine decode_of ?_ hwf
  rw [decodeRaw_1 ho]
  unfold decodeInteger; rw [hk]
  refine (if_pos z0).trans (congrArg Except.ok ?_)
  show Instr.rol (fieldD w) (fieldA w) (fieldB w) = Instr.rol d a b
  rw [(show fieldD w = d from Fin.ext f0), (show fieldA w = a from Fin.ext f1), (show fieldB w = b from Fin.ext f2)]

theorem ror (d : Reg) (a : Reg) (b : Reg) : Statement (.ror d a b) := by
  intro hwf w e
  obtain ⟨ho, hk, z0, f0, f1, f2⟩ := fields1 1 11 d.val a.val b.val w (by decide) (by decide) (d.isLt) (a.isLt) (b.isLt) (Option.some.inj e)
  refine decode_of ?_ hwf
  rw [decodeRaw_1 ho]
  unfold decodeInteger; rw [hk]
  refine (if_pos z0).trans (congrArg Except.ok ?_)
  show Instr.ror (fieldD w) (fieldA w) (fieldB w) = Instr.ror d a b
  rw [(show fieldD w = d from Fin.ext f0), (show fieldA w = a from Fin.ext f1), (show fieldB w = b from Fin.ext f2)]

theorem slt (d : Reg) (a : Reg) (b : Reg) : Statement (.slt d a b) := by
  intro hwf w e
  obtain ⟨ho, hk, z0, f0, f1, f2⟩ := fields1 1 12 d.val a.val b.val w (by decide) (by decide) (d.isLt) (a.isLt) (b.isLt) (Option.some.inj e)
  refine decode_of ?_ hwf
  rw [decodeRaw_1 ho]
  unfold decodeInteger; rw [hk]
  refine (if_pos z0).trans (congrArg Except.ok ?_)
  show Instr.slt (fieldD w) (fieldA w) (fieldB w) = Instr.slt d a b
  rw [(show fieldD w = d from Fin.ext f0), (show fieldA w = a from Fin.ext f1), (show fieldB w = b from Fin.ext f2)]

theorem sltu (d : Reg) (a : Reg) (b : Reg) : Statement (.sltu d a b) := by
  intro hwf w e
  obtain ⟨ho, hk, z0, f0, f1, f2⟩ := fields1 1 13 d.val a.val b.val w (by decide) (by decide) (d.isLt) (a.isLt) (b.isLt) (Option.some.inj e)
  refine decode_of ?_ hwf
  rw [decodeRaw_1 ho]
  unfold decodeInteger; rw [hk]
  refine (if_pos z0).trans (congrArg Except.ok ?_)
  show Instr.sltu (fieldD w) (fieldA w) (fieldB w) = Instr.sltu d a b
  rw [(show fieldD w = d from Fin.ext f0), (show fieldA w = a from Fin.ext f1), (show fieldB w = b from Fin.ext f2)]

theorem min (d : Reg) (a : Reg) (b : Reg) : Statement (.min d a b) := by
  intro hwf w e
  obtain ⟨ho, hk, z0, f0, f1, f2⟩ := fields1 1 14 d.val a.val b.val w (by decide) (by decide) (d.isLt) (a.isLt) (b.isLt) (Option.some.inj e)
  refine decode_of ?_ hwf
  rw [decodeRaw_1 ho]
  unfold decodeInteger; rw [hk]
  refine (if_pos z0).trans (congrArg Except.ok ?_)
  show Instr.min (fieldD w) (fieldA w) (fieldB w) = Instr.min d a b
  rw [(show fieldD w = d from Fin.ext f0), (show fieldA w = a from Fin.ext f1), (show fieldB w = b from Fin.ext f2)]

theorem max (d : Reg) (a : Reg) (b : Reg) : Statement (.max d a b) := by
  intro hwf w e
  obtain ⟨ho, hk, z0, f0, f1, f2⟩ := fields1 1 15 d.val a.val b.val w (by decide) (by decide) (d.isLt) (a.isLt) (b.isLt) (Option.some.inj e)
  refine decode_of ?_ hwf
  rw [decodeRaw_1 ho]
  unfold decodeInteger; rw [hk]
  refine (if_pos z0).trans (congrArg Except.ok ?_)
  show Instr.max (fieldD w) (fieldA w) (fieldB w) = Instr.max d a b
  rw [(show fieldD w = d from Fin.ext f0), (show fieldA w = a from Fin.ext f1), (show fieldB w = b from Fin.ext f2)]

theorem minu (d : Reg) (a : Reg) (b : Reg) : Statement (.minu d a b) := by
  intro hwf w e
  obtain ⟨ho, hk, z0, f0, f1, f2⟩ := fields1 1 16 d.val a.val b.val w (by decide) (by decide) (d.isLt) (a.isLt) (b.isLt) (Option.some.inj e)
  refine decode_of ?_ hwf
  rw [decodeRaw_1 ho]
  unfold decodeInteger; rw [hk]
  refine (if_pos z0).trans (congrArg Except.ok ?_)
  show Instr.minu (fieldD w) (fieldA w) (fieldB w) = Instr.minu d a b
  rw [(show fieldD w = d from Fin.ext f0), (show fieldA w = a from Fin.ext f1), (show fieldB w = b from Fin.ext f2)]

theorem maxu (d : Reg) (a : Reg) (b : Reg) : Statement (.maxu d a b) := by
  intro hwf w e
  obtain ⟨ho, hk, z0, f0, f1, f2⟩ := fields1 1 17 d.val a.val b.val w (by decide) (by decide) (d.isLt) (a.isLt) (b.isLt) (Option.some.inj e)
  refine decode_of ?_ hwf
  rw [decodeRaw_1 ho]
  unfold decodeInteger; rw [hk]
  refine (if_pos z0).trans (congrArg Except.ok ?_)
  show Instr.maxu (fieldD w) (fieldA w) (fieldB w) = Instr.maxu d a b
  rw [(show fieldD w = d from Fin.ext f0), (show fieldA w = a from Fin.ext f1), (show fieldB w = b from Fin.ext f2)]

theorem mul (d : Reg) (a : Reg) (b : Reg) : Statement (.mul d a b) := by
  intro hwf w e
  obtain ⟨ho, hk, z0, f0, f1, f2⟩ := fields1 1 18 d.val a.val b.val w (by decide) (by decide) (d.isLt) (a.isLt) (b.isLt) (Option.some.inj e)
  refine decode_of ?_ hwf
  rw [decodeRaw_1 ho]
  unfold decodeInteger; rw [hk]
  refine (if_pos z0).trans (congrArg Except.ok ?_)
  show Instr.mul (fieldD w) (fieldA w) (fieldB w) = Instr.mul d a b
  rw [(show fieldD w = d from Fin.ext f0), (show fieldA w = a from Fin.ext f1), (show fieldB w = b from Fin.ext f2)]

theorem mulh (d : Reg) (a : Reg) (b : Reg) : Statement (.mulh d a b) := by
  intro hwf w e
  obtain ⟨ho, hk, z0, f0, f1, f2⟩ := fields1 1 19 d.val a.val b.val w (by decide) (by decide) (d.isLt) (a.isLt) (b.isLt) (Option.some.inj e)
  refine decode_of ?_ hwf
  rw [decodeRaw_1 ho]
  unfold decodeInteger; rw [hk]
  refine (if_pos z0).trans (congrArg Except.ok ?_)
  show Instr.mulh (fieldD w) (fieldA w) (fieldB w) = Instr.mulh d a b
  rw [(show fieldD w = d from Fin.ext f0), (show fieldA w = a from Fin.ext f1), (show fieldB w = b from Fin.ext f2)]

theorem mulhu (d : Reg) (a : Reg) (b : Reg) : Statement (.mulhu d a b) := by
  intro hwf w e
  obtain ⟨ho, hk, z0, f0, f1, f2⟩ := fields1 1 20 d.val a.val b.val w (by decide) (by decide) (d.isLt) (a.isLt) (b.isLt) (Option.some.inj e)
  refine decode_of ?_ hwf
  rw [decodeRaw_1 ho]
  unfold decodeInteger; rw [hk]
  refine (if_pos z0).trans (congrArg Except.ok ?_)
  show Instr.mulhu (fieldD w) (fieldA w) (fieldB w) = Instr.mulhu d a b
  rw [(show fieldD w = d from Fin.ext f0), (show fieldA w = a from Fin.ext f1), (show fieldB w = b from Fin.ext f2)]

theorem mulhsu (d : Reg) (a : Reg) (b : Reg) : Statement (.mulhsu d a b) := by
  intro hwf w e
  obtain ⟨ho, hk, z0, f0, f1, f2⟩ := fields1 1 21 d.val a.val b.val w (by decide) (by decide) (d.isLt) (a.isLt) (b.isLt) (Option.some.inj e)
  refine decode_of ?_ hwf
  rw [decodeRaw_1 ho]
  unfold decodeInteger; rw [hk]
  refine (if_pos z0).trans (congrArg Except.ok ?_)
  show Instr.mulhsu (fieldD w) (fieldA w) (fieldB w) = Instr.mulhsu d a b
  rw [(show fieldD w = d from Fin.ext f0), (show fieldA w = a from Fin.ext f1), (show fieldB w = b from Fin.ext f2)]

theorem div (d : Reg) (a : Reg) (b : Reg) (la : Fin 16) : Statement (.div d a b la) := by
  intro hwf w e
  obtain ⟨ho, hk, f0, f1, f2, f3⟩ := fields2 1 22 d.val a.val b.val la.val w (by decide) (by decide) (d.isLt) (a.isLt) (b.isLt) (la.isLt) (Option.some.inj e)
  refine decode_of ?_ hwf
  rw [decodeRaw_1 ho]
  unfold decodeInteger; rw [hk]
  refine congrArg Except.ok ?_
  show Instr.div (fieldD w) (fieldA w) (fieldB w) (Fin.ofNat 16 (w / 2^7)) = Instr.div d a b la
  rw [(show fieldD w = d from Fin.ext f0), (show fieldA w = a from Fin.ext f1), (show fieldB w = b from Fin.ext f2), (show Fin.ofNat 16 (w / 2^7) = la from Fin.ext f3)]

theorem divu (d : Reg) (a : Reg) (b : Reg) (la : Fin 16) : Statement (.divu d a b la) := by
  intro hwf w e
  obtain ⟨ho, hk, f0, f1, f2, f3⟩ := fields2 1 23 d.val a.val b.val la.val w (by decide) (by decide) (d.isLt) (a.isLt) (b.isLt) (la.isLt) (Option.some.inj e)
  refine decode_of ?_ hwf
  rw [decodeRaw_1 ho]
  unfold decodeInteger; rw [hk]
  refine congrArg Except.ok ?_
  show Instr.divu (fieldD w) (fieldA w) (fieldB w) (Fin.ofNat 16 (w / 2^7)) = Instr.divu d a b la
  rw [(show fieldD w = d from Fin.ext f0), (show fieldA w = a from Fin.ext f1), (show fieldB w = b from Fin.ext f2), (show Fin.ofNat 16 (w / 2^7) = la from Fin.ext f3)]

theorem rem (d : Reg) (a : Reg) (b : Reg) (la : Fin 16) : Statement (.rem d a b la) := by
  intro hwf w e
  obtain ⟨ho, hk, f0, f1, f2, f3⟩ := fields2 1 24 d.val a.val b.val la.val w (by decide) (by decide) (d.isLt) (a.isLt) (b.isLt) (la.isLt) (Option.some.inj e)
  refine decode_of ?_ hwf
  rw [decodeRaw_1 ho]
  unfold decodeInteger; rw [hk]
  refine congrArg Except.ok ?_
  show Instr.rem (fieldD w) (fieldA w) (fieldB w) (Fin.ofNat 16 (w / 2^7)) = Instr.rem d a b la
  rw [(show fieldD w = d from Fin.ext f0), (show fieldA w = a from Fin.ext f1), (show fieldB w = b from Fin.ext f2), (show Fin.ofNat 16 (w / 2^7) = la from Fin.ext f3)]

theorem remu (d : Reg) (a : Reg) (b : Reg) (la : Fin 16) : Statement (.remu d a b la) := by
  intro hwf w e
  obtain ⟨ho, hk, f0, f1, f2, f3⟩ := fields2 1 25 d.val a.val b.val la.val w (by decide) (by decide) (d.isLt) (a.isLt) (b.isLt) (la.isLt) (Option.some.inj e)
  refine decode_of ?_ hwf
  rw [decodeRaw_1 ho]
  unfold decodeInteger; rw [hk]
  refine congrArg Except.ok ?_
  show Instr.remu (fieldD w) (fieldA w) (fieldB w) (Fin.ofNat 16 (w / 2^7)) = Instr.remu d a b la
  rw [(show fieldD w = d from Fin.ext f0), (show fieldA w = a from Fin.ext f1), (show fieldB w = b from Fin.ext f2), (show Fin.ofNat 16 (w / 2^7) = la from Fin.ext f3)]

theorem clz (d : Reg) (a : Reg) : Statement (.clz d a) := by
  intro hwf w e
  obtain ⟨ho, hk, z0, f0, f1⟩ := fields3 1 26 d.val a.val w (by decide) (by decide) (d.isLt) (a.isLt) (Option.some.inj e)
  refine decode_of ?_ hwf
  rw [decodeRaw_1 ho]
  unfold decodeInteger; rw [hk]
  refine (if_pos z0).trans (congrArg Except.ok ?_)
  show Instr.clz (fieldD w) (fieldA w) = Instr.clz d a
  rw [(show fieldD w = d from Fin.ext f0), (show fieldA w = a from Fin.ext f1)]

theorem ctz (d : Reg) (a : Reg) : Statement (.ctz d a) := by
  intro hwf w e
  obtain ⟨ho, hk, z0, f0, f1⟩ := fields3 1 27 d.val a.val w (by decide) (by decide) (d.isLt) (a.isLt) (Option.some.inj e)
  refine decode_of ?_ hwf
  rw [decodeRaw_1 ho]
  unfold decodeInteger; rw [hk]
  refine (if_pos z0).trans (congrArg Except.ok ?_)
  show Instr.ctz (fieldD w) (fieldA w) = Instr.ctz d a
  rw [(show fieldD w = d from Fin.ext f0), (show fieldA w = a from Fin.ext f1)]

theorem popc (d : Reg) (a : Reg) : Statement (.popc d a) := by
  intro hwf w e
  obtain ⟨ho, hk, z0, f0, f1⟩ := fields3 1 28 d.val a.val w (by decide) (by decide) (d.isLt) (a.isLt) (Option.some.inj e)
  refine decode_of ?_ hwf
  rw [decodeRaw_1 ho]
  unfold decodeInteger; rw [hk]
  refine (if_pos z0).trans (congrArg Except.ok ?_)
  show Instr.popc (fieldD w) (fieldA w) = Instr.popc d a
  rw [(show fieldD w = d from Fin.ext f0), (show fieldA w = a from Fin.ext f1)]

theorem sextb (d : Reg) (a : Reg) : Statement (.sextb d a) := by
  intro hwf w e
  obtain ⟨ho, hk, z0, f0, f1⟩ := fields3 1 29 d.val a.val w (by decide) (by decide) (d.isLt) (a.isLt) (Option.some.inj e)
  refine decode_of ?_ hwf
  rw [decodeRaw_1 ho]
  unfold decodeInteger; rw [hk]
  refine (if_pos z0).trans (congrArg Except.ok ?_)
  show Instr.sextb (fieldD w) (fieldA w) = Instr.sextb d a
  rw [(show fieldD w = d from Fin.ext f0), (show fieldA w = a from Fin.ext f1)]

theorem sexth (d : Reg) (a : Reg) : Statement (.sexth d a) := by
  intro hwf w e
  obtain ⟨ho, hk, z0, f0, f1⟩ := fields3 1 30 d.val a.val w (by decide) (by decide) (d.isLt) (a.isLt) (Option.some.inj e)
  refine decode_of ?_ hwf
  rw [decodeRaw_1 ho]
  unfold decodeInteger; rw [hk]
  refine (if_pos z0).trans (congrArg Except.ok ?_)
  show Instr.sexth (fieldD w) (fieldA w) = Instr.sexth d a
  rw [(show fieldD w = d from Fin.ext f0), (show fieldA w = a from Fin.ext f1)]

theorem sextw (d : Reg) (a : Reg) : Statement (.sextw d a) := by
  intro hwf w e
  obtain ⟨ho, hk, z0, f0, f1⟩ := fields3 1 31 d.val a.val w (by decide) (by decide) (d.isLt) (a.isLt) (Option.some.inj e)
  refine decode_of ?_ hwf
  rw [decodeRaw_1 ho]
  unfold decodeInteger; rw [hk]
  refine (if_pos z0).trans (congrArg Except.ok ?_)
  show Instr.sextw (fieldD w) (fieldA w) = Instr.sextw d a
  rw [(show fieldD w = d from Fin.ext f0), (show fieldA w = a from Fin.ext f1)]

theorem zextw (d : Reg) (a : Reg) : Statement (.zextw d a) := by
  intro hwf w e
  obtain ⟨ho, hk, z0, f0, f1⟩ := fields3 1 32 d.val a.val w (by decide) (by decide) (d.isLt) (a.isLt) (Option.some.inj e)
  refine decode_of ?_ hwf
  rw [decodeRaw_1 ho]
  unfold decodeInteger; rw [hk]
  refine (if_pos z0).trans (congrArg Except.ok ?_)
  show Instr.zextw (fieldD w) (fieldA w) = Instr.zextw d a
  rw [(show fieldD w = d from Fin.ext f0), (show fieldA w = a from Fin.ext f1)]

theorem bswap (d : Reg) (a : Reg) : Statement (.bswap d a) := by
  intro hwf w e
  obtain ⟨ho, hk, z0, f0, f1⟩ := fields3 1 33 d.val a.val w (by decide) (by decide) (d.isLt) (a.isLt) (Option.some.inj e)
  refine decode_of ?_ hwf
  rw [decodeRaw_1 ho]
  unfold decodeInteger; rw [hk]
  refine (if_pos z0).trans (congrArg Except.ok ?_)
  show Instr.bswap (fieldD w) (fieldA w) = Instr.bswap d a
  rw [(show fieldD w = d from Fin.ext f0), (show fieldA w = a from Fin.ext f1)]

theorem csel (d : Reg) (a : Reg) (b : Reg) : Statement (.csel d a b) := by
  intro hwf w e
  obtain ⟨ho, hk, z0, f0, f1, f2⟩ := fields1 1 34 d.val a.val b.val w (by decide) (by decide) (d.isLt) (a.isLt) (b.isLt) (Option.some.inj e)
  refine decode_of ?_ hwf
  rw [decodeRaw_1 ho]
  unfold decodeInteger; rw [hk]
  refine (if_pos z0).trans (congrArg Except.ok ?_)
  show Instr.csel (fieldD w) (fieldA w) (fieldB w) = Instr.csel d a b
  rw [(show fieldD w = d from Fin.ext f0), (show fieldA w = a from Fin.ext f1), (show fieldB w = b from Fin.ext f2)]

theorem addw (d : Reg) (a : Reg) (b : Reg) : Statement (.addw d a b) := by
  intro hwf w e
  obtain ⟨ho, hk, z0, f0, f1, f2⟩ := fields4 2 0 d.val a.val b.val w (by decide) (by decide) (d.isLt) (a.isLt) (b.isLt) (Option.some.inj e)
  refine decode_of ?_ hwf
  rw [decodeRaw_2 ho]
  unfold decodeIntegerWord; rw [hk]
  refine (if_pos z0).trans (congrArg Except.ok ?_)
  show Instr.addw (fieldD w) (fieldA w) (fieldB w) = Instr.addw d a b
  rw [(show fieldD w = d from Fin.ext f0), (show fieldA w = a from Fin.ext f1), (show fieldB w = b from Fin.ext f2)]

theorem subw (d : Reg) (a : Reg) (b : Reg) : Statement (.subw d a b) := by
  intro hwf w e
  obtain ⟨ho, hk, z0, f0, f1, f2⟩ := fields4 2 1 d.val a.val b.val w (by decide) (by decide) (d.isLt) (a.isLt) (b.isLt) (Option.some.inj e)
  refine decode_of ?_ hwf
  rw [decodeRaw_2 ho]
  unfold decodeIntegerWord; rw [hk]
  refine (if_pos z0).trans (congrArg Except.ok ?_)
  show Instr.subw (fieldD w) (fieldA w) (fieldB w) = Instr.subw d a b
  rw [(show fieldD w = d from Fin.ext f0), (show fieldA w = a from Fin.ext f1), (show fieldB w = b from Fin.ext f2)]

theorem sllw (d : Reg) (a : Reg) (b : Reg) : Statement (.sllw d a b) := by
  intro hwf w e
  obtain ⟨ho, hk, z0, f0, f1, f2⟩ := fields4 2 2 d.val a.val b.val w (by decide) (by decide) (d.isLt) (a.isLt) (b.isLt) (Option.some.inj e)
  refine decode_of ?_ hwf
  rw [decodeRaw_2 ho]
  unfold decodeIntegerWord; rw [hk]
  refine (if_pos z0).trans (congrArg Except.ok ?_)
  show Instr.sllw (fieldD w) (fieldA w) (fieldB w) = Instr.sllw d a b
  rw [(show fieldD w = d from Fin.ext f0), (show fieldA w = a from Fin.ext f1), (show fieldB w = b from Fin.ext f2)]

theorem srlw (d : Reg) (a : Reg) (b : Reg) : Statement (.srlw d a b) := by
  intro hwf w e
  obtain ⟨ho, hk, z0, f0, f1, f2⟩ := fields4 2 3 d.val a.val b.val w (by decide) (by decide) (d.isLt) (a.isLt) (b.isLt) (Option.some.inj e)
  refine decode_of ?_ hwf
  rw [decodeRaw_2 ho]
  unfold decodeIntegerWord; rw [hk]
  refine (if_pos z0).trans (congrArg Except.ok ?_)
  show Instr.srlw (fieldD w) (fieldA w) (fieldB w) = Instr.srlw d a b
  rw [(show fieldD w = d from Fin.ext f0), (show fieldA w = a from Fin.ext f1), (show fieldB w = b from Fin.ext f2)]

theorem sraw (d : Reg) (a : Reg) (b : Reg) : Statement (.sraw d a b) := by
  intro hwf w e
  obtain ⟨ho, hk, z0, f0, f1, f2⟩ := fields4 2 4 d.val a.val b.val w (by decide) (by decide) (d.isLt) (a.isLt) (b.isLt) (Option.some.inj e)
  refine decode_of ?_ hwf
  rw [decodeRaw_2 ho]
  unfold decodeIntegerWord; rw [hk]
  refine (if_pos z0).trans (congrArg Except.ok ?_)
  show Instr.sraw (fieldD w) (fieldA w) (fieldB w) = Instr.sraw d a b
  rw [(show fieldD w = d from Fin.ext f0), (show fieldA w = a from Fin.ext f1), (show fieldB w = b from Fin.ext f2)]

theorem mulw (d : Reg) (a : Reg) (b : Reg) : Statement (.mulw d a b) := by
  intro hwf w e
  obtain ⟨ho, hk, z0, f0, f1, f2⟩ := fields4 2 5 d.val a.val b.val w (by decide) (by decide) (d.isLt) (a.isLt) (b.isLt) (Option.some.inj e)
  refine decode_of ?_ hwf
  rw [decodeRaw_2 ho]
  unfold decodeIntegerWord; rw [hk]
  refine (if_pos z0).trans (congrArg Except.ok ?_)
  show Instr.mulw (fieldD w) (fieldA w) (fieldB w) = Instr.mulw d a b
  rw [(show fieldD w = d from Fin.ext f0), (show fieldA w = a from Fin.ext f1), (show fieldB w = b from Fin.ext f2)]

theorem divw (d : Reg) (a : Reg) (b : Reg) (la : Fin 16) : Statement (.divw d a b la) := by
  intro hwf w e
  obtain ⟨ho, hk, f0, f1, f2, f3⟩ := fields5 2 6 d.val a.val b.val la.val w (by decide) (by decide) (d.isLt) (a.isLt) (b.isLt) (la.isLt) (Option.some.inj e)
  refine decode_of ?_ hwf
  rw [decodeRaw_2 ho]
  unfold decodeIntegerWord; rw [hk]
  refine congrArg Except.ok ?_
  show Instr.divw (fieldD w) (fieldA w) (fieldB w) (Fin.ofNat 16 (w / 2^7)) = Instr.divw d a b la
  rw [(show fieldD w = d from Fin.ext f0), (show fieldA w = a from Fin.ext f1), (show fieldB w = b from Fin.ext f2), (show Fin.ofNat 16 (w / 2^7) = la from Fin.ext f3)]

theorem divuw (d : Reg) (a : Reg) (b : Reg) (la : Fin 16) : Statement (.divuw d a b la) := by
  intro hwf w e
  obtain ⟨ho, hk, f0, f1, f2, f3⟩ := fields5 2 7 d.val a.val b.val la.val w (by decide) (by decide) (d.isLt) (a.isLt) (b.isLt) (la.isLt) (Option.some.inj e)
  refine decode_of ?_ hwf
  rw [decodeRaw_2 ho]
  unfold decodeIntegerWord; rw [hk]
  refine congrArg Except.ok ?_
  show Instr.divuw (fieldD w) (fieldA w) (fieldB w) (Fin.ofNat 16 (w / 2^7)) = Instr.divuw d a b la
  rw [(show fieldD w = d from Fin.ext f0), (show fieldA w = a from Fin.ext f1), (show fieldB w = b from Fin.ext f2), (show Fin.ofNat 16 (w / 2^7) = la from Fin.ext f3)]

theorem remw (d : Reg) (a : Reg) (b : Reg) (la : Fin 16) : Statement (.remw d a b la) := by
  intro hwf w e
  obtain ⟨ho, hk, f0, f1, f2, f3⟩ := fields5 2 8 d.val a.val b.val la.val w (by decide) (by decide) (d.isLt) (a.isLt) (b.isLt) (la.isLt) (Option.some.inj e)
  refine decode_of ?_ hwf
  rw [decodeRaw_2 ho]
  unfold decodeIntegerWord; rw [hk]
  refine congrArg Except.ok ?_
  show Instr.remw (fieldD w) (fieldA w) (fieldB w) (Fin.ofNat 16 (w / 2^7)) = Instr.remw d a b la
  rw [(show fieldD w = d from Fin.ext f0), (show fieldA w = a from Fin.ext f1), (show fieldB w = b from Fin.ext f2), (show Fin.ofNat 16 (w / 2^7) = la from Fin.ext f3)]

theorem remuw (d : Reg) (a : Reg) (b : Reg) (la : Fin 16) : Statement (.remuw d a b la) := by
  intro hwf w e
  obtain ⟨ho, hk, f0, f1, f2, f3⟩ := fields5 2 9 d.val a.val b.val la.val w (by decide) (by decide) (d.isLt) (a.isLt) (b.isLt) (la.isLt) (Option.some.inj e)
  refine decode_of ?_ hwf
  rw [decodeRaw_2 ho]
  unfold decodeIntegerWord; rw [hk]
  refine congrArg Except.ok ?_
  show Instr.remuw (fieldD w) (fieldA w) (fieldB w) (Fin.ofNat 16 (w / 2^7)) = Instr.remuw d a b la
  rw [(show fieldD w = d from Fin.ext f0), (show fieldA w = a from Fin.ext f1), (show fieldB w = b from Fin.ext f2), (show Fin.ofNat 16 (w / 2^7) = la from Fin.ext f3)]

theorem addi (d : Reg) (a : Reg) (imm : BitVec 16) : Statement (.addi d a imm) := by
  intro hwf w e
  obtain ⟨ho, f0, f1, f2⟩ := fields6 3 d.val a.val imm.toNat w (by decide) (d.isLt) (a.isLt) (imm.isLt) (Option.some.inj e)
  refine decode_of ?_ hwf
  rw [decodeRaw_3 ho]
  refine congrArg Except.ok ?_
  show Instr.addi (fieldD w) (fieldA w) (BitVec.ofNat 16 w) = Instr.addi d a imm
  rw [(show fieldD w = d from Fin.ext f0), (show fieldA w = a from Fin.ext f1), (show BitVec.ofNat 16 w = imm from ofNat_of f2)]

theorem andi (d : Reg) (a : Reg) (imm : BitVec 16) : Statement (.andi d a imm) := by
  intro hwf w e
  obtain ⟨ho, f0, f1, f2⟩ := fields6 4 d.val a.val imm.toNat w (by decide) (d.isLt) (a.isLt) (imm.isLt) (Option.some.inj e)
  refine decode_of ?_ hwf
  rw [decodeRaw_4 ho]
  refine congrArg Except.ok ?_
  show Instr.andi (fieldD w) (fieldA w) (BitVec.ofNat 16 w) = Instr.andi d a imm
  rw [(show fieldD w = d from Fin.ext f0), (show fieldA w = a from Fin.ext f1), (show BitVec.ofNat 16 w = imm from ofNat_of f2)]

theorem ori (d : Reg) (a : Reg) (imm : BitVec 16) : Statement (.ori d a imm) := by
  intro hwf w e
  obtain ⟨ho, f0, f1, f2⟩ := fields6 5 d.val a.val imm.toNat w (by decide) (d.isLt) (a.isLt) (imm.isLt) (Option.some.inj e)
  refine decode_of ?_ hwf
  rw [decodeRaw_5 ho]
  refine congrArg Except.ok ?_
  show Instr.ori (fieldD w) (fieldA w) (BitVec.ofNat 16 w) = Instr.ori d a imm
  rw [(show fieldD w = d from Fin.ext f0), (show fieldA w = a from Fin.ext f1), (show BitVec.ofNat 16 w = imm from ofNat_of f2)]

theorem xori (d : Reg) (a : Reg) (imm : BitVec 16) : Statement (.xori d a imm) := by
  intro hwf w e
  obtain ⟨ho, f0, f1, f2⟩ := fields6 6 d.val a.val imm.toNat w (by decide) (d.isLt) (a.isLt) (imm.isLt) (Option.some.inj e)
  refine decode_of ?_ hwf
  rw [decodeRaw_6 ho]
  refine congrArg Except.ok ?_
  show Instr.xori (fieldD w) (fieldA w) (BitVec.ofNat 16 w) = Instr.xori d a imm
  rw [(show fieldD w = d from Fin.ext f0), (show fieldA w = a from Fin.ext f1), (show BitVec.ofNat 16 w = imm from ofNat_of f2)]

theorem slti (d : Reg) (a : Reg) (imm : BitVec 16) : Statement (.slti d a imm) := by
  intro hwf w e
  obtain ⟨ho, f0, f1, f2⟩ := fields6 7 d.val a.val imm.toNat w (by decide) (d.isLt) (a.isLt) (imm.isLt) (Option.some.inj e)
  refine decode_of ?_ hwf
  rw [decodeRaw_7 ho]
  refine congrArg Except.ok ?_
  show Instr.slti (fieldD w) (fieldA w) (BitVec.ofNat 16 w) = Instr.slti d a imm
  rw [(show fieldD w = d from Fin.ext f0), (show fieldA w = a from Fin.ext f1), (show BitVec.ofNat 16 w = imm from ofNat_of f2)]

theorem sltiu (d : Reg) (a : Reg) (imm : BitVec 16) : Statement (.sltiu d a imm) := by
  intro hwf w e
  obtain ⟨ho, f0, f1, f2⟩ := fields6 8 d.val a.val imm.toNat w (by decide) (d.isLt) (a.isLt) (imm.isLt) (Option.some.inj e)
  refine decode_of ?_ hwf
  rw [decodeRaw_8 ho]
  refine congrArg Except.ok ?_
  show Instr.sltiu (fieldD w) (fieldA w) (BitVec.ofNat 16 w) = Instr.sltiu d a imm
  rw [(show fieldD w = d from Fin.ext f0), (show fieldA w = a from Fin.ext f1), (show BitVec.ofNat 16 w = imm from ofNat_of f2)]

theorem slli (d : Reg) (a : Reg) (sh : Fin 64) : Statement (.slli d a sh) := by
  intro hwf w e
  obtain ⟨ho, hk, z0, f0, f1, f2⟩ := fields7 9 0 d.val a.val sh.val w (by decide) (by decide) (d.isLt) (a.isLt) (sh.isLt) (Option.some.inj e)
  refine decode_of ?_ hwf
  rw [decodeRaw_9 ho]
  unfold decodeShiftImm; rw [hk]
  refine (if_pos z0).trans (congrArg Except.ok ?_)
  show Instr.slli (fieldD w) (fieldA w) (Fin.ofNat 64 w) = Instr.slli d a sh
  rw [(show fieldD w = d from Fin.ext f0), (show fieldA w = a from Fin.ext f1), (show Fin.ofNat 64 w = sh from Fin.ext f2)]

theorem srli (d : Reg) (a : Reg) (sh : Fin 64) : Statement (.srli d a sh) := by
  intro hwf w e
  obtain ⟨ho, hk, z0, f0, f1, f2⟩ := fields7 9 1 d.val a.val sh.val w (by decide) (by decide) (d.isLt) (a.isLt) (sh.isLt) (Option.some.inj e)
  refine decode_of ?_ hwf
  rw [decodeRaw_9 ho]
  unfold decodeShiftImm; rw [hk]
  refine (if_pos z0).trans (congrArg Except.ok ?_)
  show Instr.srli (fieldD w) (fieldA w) (Fin.ofNat 64 w) = Instr.srli d a sh
  rw [(show fieldD w = d from Fin.ext f0), (show fieldA w = a from Fin.ext f1), (show Fin.ofNat 64 w = sh from Fin.ext f2)]

theorem srai (d : Reg) (a : Reg) (sh : Fin 64) : Statement (.srai d a sh) := by
  intro hwf w e
  obtain ⟨ho, hk, z0, f0, f1, f2⟩ := fields7 9 2 d.val a.val sh.val w (by decide) (by decide) (d.isLt) (a.isLt) (sh.isLt) (Option.some.inj e)
  refine decode_of ?_ hwf
  rw [decodeRaw_9 ho]
  unfold decodeShiftImm; rw [hk]
  refine (if_pos z0).trans (congrArg Except.ok ?_)
  show Instr.srai (fieldD w) (fieldA w) (Fin.ofNat 64 w) = Instr.srai d a sh
  rw [(show fieldD w = d from Fin.ext f0), (show fieldA w = a from Fin.ext f1), (show Fin.ofNat 64 w = sh from Fin.ext f2)]

theorem rori (d : Reg) (a : Reg) (sh : Fin 64) : Statement (.rori d a sh) := by
  intro hwf w e
  obtain ⟨ho, hk, z0, f0, f1, f2⟩ := fields7 9 3 d.val a.val sh.val w (by decide) (by decide) (d.isLt) (a.isLt) (sh.isLt) (Option.some.inj e)
  refine decode_of ?_ hwf
  rw [decodeRaw_9 ho]
  unfold decodeShiftImm; rw [hk]
  refine (if_pos z0).trans (congrArg Except.ok ?_)
  show Instr.rori (fieldD w) (fieldA w) (Fin.ofNat 64 w) = Instr.rori d a sh
  rw [(show fieldD w = d from Fin.ext f0), (show fieldA w = a from Fin.ext f1), (show Fin.ofNat 64 w = sh from Fin.ext f2)]

theorem lhi (d : Reg) (imm : BitVec 16) : Statement (.lhi d imm) := by
  intro hwf w e
  obtain ⟨ho, z0, f0, f1⟩ := fields8 10 d.val imm.toNat w (by decide) (d.isLt) (imm.isLt) (Option.some.inj e)
  refine decode_of ?_ hwf
  rw [decodeRaw_10 ho]
  refine (if_pos z0).trans (congrArg Except.ok ?_)
  show Instr.lhi (fieldD w) (BitVec.ofNat 16 w) = Instr.lhi d imm
  rw [(show fieldD w = d from Fin.ext f0), (show BitVec.ofNat 16 w = imm from ofNat_of f1)]

theorem lsh (d : Reg) (imm : BitVec 16) : Statement (.lsh d imm) := by
  intro hwf w e
  obtain ⟨ho, z0, f0, f1⟩ := fields8 11 d.val imm.toNat w (by decide) (d.isLt) (imm.isLt) (Option.some.inj e)
  refine decode_of ?_ hwf
  rw [decodeRaw_11 ho]
  refine (if_pos z0).trans (congrArg Except.ok ?_)
  show Instr.lsh (fieldD w) (BitVec.ofNat 16 w) = Instr.lsh d imm
  rw [(show fieldD w = d from Fin.ext f0), (show BitVec.ofNat 16 w = imm from ofNat_of f1)]

theorem adr (d : Reg) (imm : BitVec 16) : Statement (.adr d imm) := by
  intro hwf w e
  obtain ⟨ho, z0, f0, f1⟩ := fields8 12 d.val imm.toNat w (by decide) (d.isLt) (imm.isLt) (Option.some.inj e)
  refine decode_of ?_ hwf
  rw [decodeRaw_12 ho]
  refine (if_pos z0).trans (congrArg Except.ok ?_)
  show Instr.adr (fieldD w) (BitVec.ofNat 16 w) = Instr.adr d imm
  rw [(show fieldD w = d from Fin.ext f0), (show BitVec.ofNat 16 w = imm from ofNat_of f1)]

theorem beq (a : Reg) (b : Reg) (off : BitVec 13) : Statement (.beq a b off) := by
  intro hwf w e
  obtain ⟨ho, hk, f0, f1, f2⟩ := fields9 13 0 a.val b.val off.toNat w (by decide) (by decide) (a.isLt) (b.isLt) (off.isLt) (Option.some.inj e)
  refine decode_of ?_ hwf
  rw [decodeRaw_13 ho]
  unfold decodeBranch; rw [hk]
  refine congrArg Except.ok ?_
  show Instr.beq (fieldD w) (fieldA w) (BitVec.ofNat 13 w) = Instr.beq a b off
  rw [(show fieldD w = a from Fin.ext f0), (show fieldA w = b from Fin.ext f1), (show BitVec.ofNat 13 w = off from ofNat_of f2)]

theorem bne (a : Reg) (b : Reg) (off : BitVec 13) : Statement (.bne a b off) := by
  intro hwf w e
  obtain ⟨ho, hk, f0, f1, f2⟩ := fields9 13 1 a.val b.val off.toNat w (by decide) (by decide) (a.isLt) (b.isLt) (off.isLt) (Option.some.inj e)
  refine decode_of ?_ hwf
  rw [decodeRaw_13 ho]
  unfold decodeBranch; rw [hk]
  refine congrArg Except.ok ?_
  show Instr.bne (fieldD w) (fieldA w) (BitVec.ofNat 13 w) = Instr.bne a b off
  rw [(show fieldD w = a from Fin.ext f0), (show fieldA w = b from Fin.ext f1), (show BitVec.ofNat 13 w = off from ofNat_of f2)]

theorem blt (a : Reg) (b : Reg) (off : BitVec 13) : Statement (.blt a b off) := by
  intro hwf w e
  obtain ⟨ho, hk, f0, f1, f2⟩ := fields9 13 2 a.val b.val off.toNat w (by decide) (by decide) (a.isLt) (b.isLt) (off.isLt) (Option.some.inj e)
  refine decode_of ?_ hwf
  rw [decodeRaw_13 ho]
  unfold decodeBranch; rw [hk]
  refine congrArg Except.ok ?_
  show Instr.blt (fieldD w) (fieldA w) (BitVec.ofNat 13 w) = Instr.blt a b off
  rw [(show fieldD w = a from Fin.ext f0), (show fieldA w = b from Fin.ext f1), (show BitVec.ofNat 13 w = off from ofNat_of f2)]

theorem bge (a : Reg) (b : Reg) (off : BitVec 13) : Statement (.bge a b off) := by
  intro hwf w e
  obtain ⟨ho, hk, f0, f1, f2⟩ := fields9 13 3 a.val b.val off.toNat w (by decide) (by decide) (a.isLt) (b.isLt) (off.isLt) (Option.some.inj e)
  refine decode_of ?_ hwf
  rw [decodeRaw_13 ho]
  unfold decodeBranch; rw [hk]
  refine congrArg Except.ok ?_
  show Instr.bge (fieldD w) (fieldA w) (BitVec.ofNat 13 w) = Instr.bge a b off
  rw [(show fieldD w = a from Fin.ext f0), (show fieldA w = b from Fin.ext f1), (show BitVec.ofNat 13 w = off from ofNat_of f2)]

theorem bltu (a : Reg) (b : Reg) (off : BitVec 13) : Statement (.bltu a b off) := by
  intro hwf w e
  obtain ⟨ho, hk, f0, f1, f2⟩ := fields9 13 4 a.val b.val off.toNat w (by decide) (by decide) (a.isLt) (b.isLt) (off.isLt) (Option.some.inj e)
  refine decode_of ?_ hwf
  rw [decodeRaw_13 ho]
  unfold decodeBranch; rw [hk]
  refine congrArg Except.ok ?_
  show Instr.bltu (fieldD w) (fieldA w) (BitVec.ofNat 13 w) = Instr.bltu a b off
  rw [(show fieldD w = a from Fin.ext f0), (show fieldA w = b from Fin.ext f1), (show BitVec.ofNat 13 w = off from ofNat_of f2)]

theorem bgeu (a : Reg) (b : Reg) (off : BitVec 13) : Statement (.bgeu a b off) := by
  intro hwf w e
  obtain ⟨ho, hk, f0, f1, f2⟩ := fields9 13 5 a.val b.val off.toNat w (by decide) (by decide) (a.isLt) (b.isLt) (off.isLt) (Option.some.inj e)
  refine decode_of ?_ hwf
  rw [decodeRaw_13 ho]
  unfold decodeBranch; rw [hk]
  refine congrArg Except.ok ?_
  show Instr.bgeu (fieldD w) (fieldA w) (BitVec.ofNat 13 w) = Instr.bgeu a b off
  rw [(show fieldD w = a from Fin.ext f0), (show fieldA w = b from Fin.ext f1), (show BitVec.ofNat 13 w = off from ofNat_of f2)]

theorem jal (off : BitVec 26) : Statement (.jal off) := by
  intro hwf w e
  obtain ⟨ho, f0⟩ := fields10 14 off.toNat w (by decide) (off.isLt) (Option.some.inj e)
  refine decode_of ?_ hwf
  rw [decodeRaw_14 ho]
  refine congrArg Except.ok ?_
  show Instr.jal (BitVec.ofNat 26 w) = Instr.jal off
  rw [(show BitVec.ofNat 26 w = off from ofNat_of f0)]

theorem j (off : BitVec 26) : Statement (.j off) := by
  intro hwf w e
  obtain ⟨ho, f0⟩ := fields10 15 off.toNat w (by decide) (off.isLt) (Option.some.inj e)
  refine decode_of ?_ hwf
  rw [decodeRaw_15 ho]
  refine congrArg Except.ok ?_
  show Instr.j (BitVec.ofNat 26 w) = Instr.j off
  rw [(show BitVec.ofNat 26 w = off from ofNat_of f0)]

theorem jalr (d : Reg) (a : Reg) (imm : BitVec 16) : Statement (.jalr d a imm) := by
  intro hwf w e
  obtain ⟨ho, f0, f1, f2⟩ := fields6 16 d.val a.val imm.toNat w (by decide) (d.isLt) (a.isLt) (imm.isLt) (Option.some.inj e)
  refine decode_of ?_ hwf
  rw [decodeRaw_16 ho]
  refine congrArg Except.ok ?_
  show Instr.jalr (fieldD w) (fieldA w) (BitVec.ofNat 16 w) = Instr.jalr d a imm
  rw [(show fieldD w = d from Fin.ext f0), (show fieldA w = a from Fin.ext f1), (show BitVec.ofNat 16 w = imm from ofNat_of f2)]

theorem bes (bit : Fin 64) (sense : Bool) (off : BitVec 19) : Statement (.bes bit sense off) := by
  intro hwf w e
  obtain ⟨ho, f0, f1, f2⟩ := fields11 17 bit.val sense.toNat off.toNat w (by decide) (bit.isLt) (boolToNat_lt sense) (off.isLt) (Option.some.inj e)
  refine decode_of ?_ hwf
  rw [decodeRaw_17 ho]
  refine congrArg Except.ok ?_
  show Instr.bes (Fin.ofNat 64 (w / 2^20)) (bitOf w 19) (BitVec.ofNat 19 w) = Instr.bes bit sense off
  rw [(show Fin.ofNat 64 (w / 2^20) = bit from Fin.ext f0), (show bitOf w 19 = sense from bitOf_of f1), (show BitVec.ofNat 19 w = off from ofNat_of f2)]

theorem ldB (d : Reg) (a : Reg) (imm : BitVec 16) : Statement (.ldB d a imm) := by
  intro hwf w e
  obtain ⟨ho, f0, f1, f2⟩ := fields6 18 d.val a.val imm.toNat w (by decide) (d.isLt) (a.isLt) (imm.isLt) (Option.some.inj e)
  refine decode_of ?_ hwf
  rw [decodeRaw_18 ho]
  refine congrArg Except.ok ?_
  show Instr.ldB (fieldD w) (fieldA w) (BitVec.ofNat 16 w) = Instr.ldB d a imm
  rw [(show fieldD w = d from Fin.ext f0), (show fieldA w = a from Fin.ext f1), (show BitVec.ofNat 16 w = imm from ofNat_of f2)]

theorem ldH (d : Reg) (a : Reg) (imm : BitVec 16) : Statement (.ldH d a imm) := by
  intro hwf w e
  obtain ⟨ho, f0, f1, f2⟩ := fields6 19 d.val a.val imm.toNat w (by decide) (d.isLt) (a.isLt) (imm.isLt) (Option.some.inj e)
  refine decode_of ?_ hwf
  rw [decodeRaw_19 ho]
  refine congrArg Except.ok ?_
  show Instr.ldH (fieldD w) (fieldA w) (BitVec.ofNat 16 w) = Instr.ldH d a imm
  rw [(show fieldD w = d from Fin.ext f0), (show fieldA w = a from Fin.ext f1), (show BitVec.ofNat 16 w = imm from ofNat_of f2)]

theorem ldW (d : Reg) (a : Reg) (imm : BitVec 16) : Statement (.ldW d a imm) := by
  intro hwf w e
  obtain ⟨ho, f0, f1, f2⟩ := fields6 20 d.val a.val imm.toNat w (by decide) (d.isLt) (a.isLt) (imm.isLt) (Option.some.inj e)
  refine decode_of ?_ hwf
  rw [decodeRaw_20 ho]
  refine congrArg Except.ok ?_
  show Instr.ldW (fieldD w) (fieldA w) (BitVec.ofNat 16 w) = Instr.ldW d a imm
  rw [(show fieldD w = d from Fin.ext f0), (show fieldA w = a from Fin.ext f1), (show BitVec.ofNat 16 w = imm from ofNat_of f2)]

theorem ldD (d : Reg) (a : Reg) (imm : BitVec 16) : Statement (.ldD d a imm) := by
  intro hwf w e
  obtain ⟨ho, f0, f1, f2⟩ := fields6 21 d.val a.val imm.toNat w (by decide) (d.isLt) (a.isLt) (imm.isLt) (Option.some.inj e)
  refine decode_of ?_ hwf
  rw [decodeRaw_21 ho]
  refine congrArg Except.ok ?_
  show Instr.ldD (fieldD w) (fieldA w) (BitVec.ofNat 16 w) = Instr.ldD d a imm
  rw [(show fieldD w = d from Fin.ext f0), (show fieldA w = a from Fin.ext f1), (show BitVec.ofNat 16 w = imm from ofNat_of f2)]

theorem ldBu (d : Reg) (a : Reg) (imm : BitVec 16) : Statement (.ldBu d a imm) := by
  intro hwf w e
  obtain ⟨ho, f0, f1, f2⟩ := fields6 22 d.val a.val imm.toNat w (by decide) (d.isLt) (a.isLt) (imm.isLt) (Option.some.inj e)
  refine decode_of ?_ hwf
  rw [decodeRaw_22 ho]
  refine congrArg Except.ok ?_
  show Instr.ldBu (fieldD w) (fieldA w) (BitVec.ofNat 16 w) = Instr.ldBu d a imm
  rw [(show fieldD w = d from Fin.ext f0), (show fieldA w = a from Fin.ext f1), (show BitVec.ofNat 16 w = imm from ofNat_of f2)]

theorem ldHu (d : Reg) (a : Reg) (imm : BitVec 16) : Statement (.ldHu d a imm) := by
  intro hwf w e
  obtain ⟨ho, f0, f1, f2⟩ := fields6 23 d.val a.val imm.toNat w (by decide) (d.isLt) (a.isLt) (imm.isLt) (Option.some.inj e)
  refine decode_of ?_ hwf
  rw [decodeRaw_23 ho]
  refine congrArg Except.ok ?_
  show Instr.ldHu (fieldD w) (fieldA w) (BitVec.ofNat 16 w) = Instr.ldHu d a imm
  rw [(show fieldD w = d from Fin.ext f0), (show fieldA w = a from Fin.ext f1), (show BitVec.ofNat 16 w = imm from ofNat_of f2)]

theorem ldWu (d : Reg) (a : Reg) (imm : BitVec 16) : Statement (.ldWu d a imm) := by
  intro hwf w e
  obtain ⟨ho, f0, f1, f2⟩ := fields6 24 d.val a.val imm.toNat w (by decide) (d.isLt) (a.isLt) (imm.isLt) (Option.some.inj e)
  refine decode_of ?_ hwf
  rw [decodeRaw_24 ho]
  refine congrArg Except.ok ?_
  show Instr.ldWu (fieldD w) (fieldA w) (BitVec.ofNat 16 w) = Instr.ldWu d a imm
  rw [(show fieldD w = d from Fin.ext f0), (show fieldA w = a from Fin.ext f1), (show BitVec.ofNat 16 w = imm from ofNat_of f2)]

theorem stB (d : Reg) (a : Reg) (imm : BitVec 16) : Statement (.stB d a imm) := by
  intro hwf w e
  obtain ⟨ho, f0, f1, f2⟩ := fields6 25 d.val a.val imm.toNat w (by decide) (d.isLt) (a.isLt) (imm.isLt) (Option.some.inj e)
  refine decode_of ?_ hwf
  rw [decodeRaw_25 ho]
  refine congrArg Except.ok ?_
  show Instr.stB (fieldD w) (fieldA w) (BitVec.ofNat 16 w) = Instr.stB d a imm
  rw [(show fieldD w = d from Fin.ext f0), (show fieldA w = a from Fin.ext f1), (show BitVec.ofNat 16 w = imm from ofNat_of f2)]

theorem stH (d : Reg) (a : Reg) (imm : BitVec 16) : Statement (.stH d a imm) := by
  intro hwf w e
  obtain ⟨ho, f0, f1, f2⟩ := fields6 26 d.val a.val imm.toNat w (by decide) (d.isLt) (a.isLt) (imm.isLt) (Option.some.inj e)
  refine decode_of ?_ hwf
  rw [decodeRaw_26 ho]
  refine congrArg Except.ok ?_
  show Instr.stH (fieldD w) (fieldA w) (BitVec.ofNat 16 w) = Instr.stH d a imm
  rw [(show fieldD w = d from Fin.ext f0), (show fieldA w = a from Fin.ext f1), (show BitVec.ofNat 16 w = imm from ofNat_of f2)]

theorem stW (d : Reg) (a : Reg) (imm : BitVec 16) : Statement (.stW d a imm) := by
  intro hwf w e
  obtain ⟨ho, f0, f1, f2⟩ := fields6 27 d.val a.val imm.toNat w (by decide) (d.isLt) (a.isLt) (imm.isLt) (Option.some.inj e)
  refine decode_of ?_ hwf
  rw [decodeRaw_27 ho]
  refine congrArg Except.ok ?_
  show Instr.stW (fieldD w) (fieldA w) (BitVec.ofNat 16 w) = Instr.stW d a imm
  rw [(show fieldD w = d from Fin.ext f0), (show fieldA w = a from Fin.ext f1), (show BitVec.ofNat 16 w = imm from ofNat_of f2)]

theorem stD (d : Reg) (a : Reg) (imm : BitVec 16) : Statement (.stD d a imm) := by
  intro hwf w e
  obtain ⟨ho, f0, f1, f2⟩ := fields6 28 d.val a.val imm.toNat w (by decide) (d.isLt) (a.isLt) (imm.isLt) (Option.some.inj e)
  refine decode_of ?_ hwf
  rw [decodeRaw_28 ho]
  refine congrArg Except.ok ?_
  show Instr.stD (fieldD w) (fieldA w) (BitVec.ofNat 16 w) = Instr.stD d a imm
  rw [(show fieldD w = d from Fin.ext f0), (show fieldA w = a from Fin.ext f1), (show BitVec.ofNat 16 w = imm from ofNat_of f2)]

theorem ldo (d : Reg) (a : Reg) (la : Fin 16) (sc : Scope) (ord : MemOrd) (sz : Size) (fe : FeMode) (inv : Bool) : Statement (.ldo d a la sc ord sz fe inv) := by
  intro hwf w e
  obtain ⟨ho, z0, f0, f1, f2, f3, f4, f5, f6, f7⟩ := fields12 29 d.val a.val la.val sc.code ord.code sz.code fe.code inv.toNat w (by decide) (d.isLt) (a.isLt) (la.isLt) (Scope.code_lt sc) (MemOrd.code_lt ord) (Size.code_lt sz) (FeMode.code_lt fe) (boolToNat_lt inv) (Option.some.inj e)
  refine decode_of ?_ hwf
  rw [decodeRaw_29 ho]
  refine (if_pos z0).trans ?_
  rw [Scope.ofCode?_of f3, FeMode.ofCode?_of f6]
  refine congrArg Except.ok ?_
  show Instr.ldo (fieldD w) (fieldA w) (Fin.ofNat 16 (w / 2^12)) sc (MemOrd.ofCode (w / 2^7)) (Size.ofCode (w / 2^5)) fe (bitOf w 1) = Instr.ldo d a la sc ord sz fe inv
  rw [(show fieldD w = d from Fin.ext f0), (show fieldA w = a from Fin.ext f1), (show Fin.ofNat 16 (w / 2^12) = la from Fin.ext f2), (show MemOrd.ofCode (w / 2^7) = ord from MemOrd.ofCode_of f4), (show Size.ofCode (w / 2^5) = sz from Size.ofCode_of f5), (show bitOf w 1 = inv from bitOf_of f7)]

theorem sto (d : Reg) (a : Reg) (la : Fin 16) (sc : Scope) (ord : MemOrd) (sz : Size) (fe : FeMode) : Statement (.sto d a la sc ord sz fe) := by
  intro hwf w e
  obtain ⟨ho, z0, f0, f1, f2, f3, f4, f5, f6⟩ := fields13 30 d.val a.val la.val sc.code ord.code sz.code fe.code w (by decide) (d.isLt) (a.isLt) (la.isLt) (Scope.code_lt sc) (MemOrd.code_lt ord) (Size.code_lt sz) (FeMode.code_lt fe) (Option.some.inj e)
  refine decode_of ?_ hwf
  rw [decodeRaw_30 ho]
  refine (if_pos z0).trans ?_
  rw [Scope.ofCode?_of f3, FeMode.ofCode?_of f6]
  refine congrArg Except.ok ?_
  show Instr.sto (fieldD w) (fieldA w) (Fin.ofNat 16 (w / 2^12)) sc (MemOrd.ofCode (w / 2^7)) (Size.ofCode (w / 2^5)) fe = Instr.sto d a la sc ord sz fe
  rw [(show fieldD w = d from Fin.ext f0), (show fieldA w = a from Fin.ext f1), (show Fin.ofNat 16 (w / 2^12) = la from Fin.ext f2), (show MemOrd.ofCode (w / 2^7) = ord from MemOrd.ofCode_of f4), (show Size.ofCode (w / 2^5) = sz from Size.ofCode_of f5)]

theorem amoSwap (d : Reg) (a : Reg) (b : Reg) (sc : Scope) (ord : MemOrd) (dbl : Bool) : Statement (.amoSwap d a b sc ord dbl) := by
  intro hwf w e
  obtain ⟨ho, hk, f0, f1, f2, f3, f4, f5⟩ := fields14 31 0 d.val a.val b.val sc.code ord.code dbl.toNat w (by decide) (by decide) (d.isLt) (a.isLt) (b.isLt) (Scope.code_lt sc) (MemOrd.code_lt ord) (boolToNat_lt dbl) (Option.some.inj e)
  refine decode_of ?_ hwf
  rw [decodeRaw_31 ho]
  unfold decodeAmo; rw [hk]
  rw [Scope.ofCode?_of f3]
  refine congrArg Except.ok ?_
  show Instr.amoSwap (fieldD w) (fieldA w) (fieldB w) sc (MemOrd.ofCode (w / 2^6)) (bitOf w 5) = Instr.amoSwap d a b sc ord dbl
  rw [(show fieldD w = d from Fin.ext f0), (show fieldA w = a from Fin.ext f1), (show fieldB w = b from Fin.ext f2), (show MemOrd.ofCode (w / 2^6) = ord from MemOrd.ofCode_of f4), (show bitOf w 5 = dbl from bitOf_of f5)]

theorem amoAdd (d : Reg) (a : Reg) (b : Reg) (sc : Scope) (ord : MemOrd) (dbl : Bool) : Statement (.amoAdd d a b sc ord dbl) := by
  intro hwf w e
  obtain ⟨ho, hk, f0, f1, f2, f3, f4, f5⟩ := fields14 31 1 d.val a.val b.val sc.code ord.code dbl.toNat w (by decide) (by decide) (d.isLt) (a.isLt) (b.isLt) (Scope.code_lt sc) (MemOrd.code_lt ord) (boolToNat_lt dbl) (Option.some.inj e)
  refine decode_of ?_ hwf
  rw [decodeRaw_31 ho]
  unfold decodeAmo; rw [hk]
  rw [Scope.ofCode?_of f3]
  refine congrArg Except.ok ?_
  show Instr.amoAdd (fieldD w) (fieldA w) (fieldB w) sc (MemOrd.ofCode (w / 2^6)) (bitOf w 5) = Instr.amoAdd d a b sc ord dbl
  rw [(show fieldD w = d from Fin.ext f0), (show fieldA w = a from Fin.ext f1), (show fieldB w = b from Fin.ext f2), (show MemOrd.ofCode (w / 2^6) = ord from MemOrd.ofCode_of f4), (show bitOf w 5 = dbl from bitOf_of f5)]

theorem amoAnd (d : Reg) (a : Reg) (b : Reg) (sc : Scope) (ord : MemOrd) (dbl : Bool) : Statement (.amoAnd d a b sc ord dbl) := by
  intro hwf w e
  obtain ⟨ho, hk, f0, f1, f2, f3, f4, f5⟩ := fields14 31 2 d.val a.val b.val sc.code ord.code dbl.toNat w (by decide) (by decide) (d.isLt) (a.isLt) (b.isLt) (Scope.code_lt sc) (MemOrd.code_lt ord) (boolToNat_lt dbl) (Option.some.inj e)
  refine decode_of ?_ hwf
  rw [decodeRaw_31 ho]
  unfold decodeAmo; rw [hk]
  rw [Scope.ofCode?_of f3]
  refine congrArg Except.ok ?_
  show Instr.amoAnd (fieldD w) (fieldA w) (fieldB w) sc (MemOrd.ofCode (w / 2^6)) (bitOf w 5) = Instr.amoAnd d a b sc ord dbl
  rw [(show fieldD w = d from Fin.ext f0), (show fieldA w = a from Fin.ext f1), (show fieldB w = b from Fin.ext f2), (show MemOrd.ofCode (w / 2^6) = ord from MemOrd.ofCode_of f4), (show bitOf w 5 = dbl from bitOf_of f5)]

theorem amoOr (d : Reg) (a : Reg) (b : Reg) (sc : Scope) (ord : MemOrd) (dbl : Bool) : Statement (.amoOr d a b sc ord dbl) := by
  intro hwf w e
  obtain ⟨ho, hk, f0, f1, f2, f3, f4, f5⟩ := fields14 31 3 d.val a.val b.val sc.code ord.code dbl.toNat w (by decide) (by decide) (d.isLt) (a.isLt) (b.isLt) (Scope.code_lt sc) (MemOrd.code_lt ord) (boolToNat_lt dbl) (Option.some.inj e)
  refine decode_of ?_ hwf
  rw [decodeRaw_31 ho]
  unfold decodeAmo; rw [hk]
  rw [Scope.ofCode?_of f3]
  refine congrArg Except.ok ?_
  show Instr.amoOr (fieldD w) (fieldA w) (fieldB w) sc (MemOrd.ofCode (w / 2^6)) (bitOf w 5) = Instr.amoOr d a b sc ord dbl
  rw [(show fieldD w = d from Fin.ext f0), (show fieldA w = a from Fin.ext f1), (show fieldB w = b from Fin.ext f2), (show MemOrd.ofCode (w / 2^6) = ord from MemOrd.ofCode_of f4), (show bitOf w 5 = dbl from bitOf_of f5)]

theorem amoXor (d : Reg) (a : Reg) (b : Reg) (sc : Scope) (ord : MemOrd) (dbl : Bool) : Statement (.amoXor d a b sc ord dbl) := by
  intro hwf w e
  obtain ⟨ho, hk, f0, f1, f2, f3, f4, f5⟩ := fields14 31 4 d.val a.val b.val sc.code ord.code dbl.toNat w (by decide) (by decide) (d.isLt) (a.isLt) (b.isLt) (Scope.code_lt sc) (MemOrd.code_lt ord) (boolToNat_lt dbl) (Option.some.inj e)
  refine decode_of ?_ hwf
  rw [decodeRaw_31 ho]
  unfold decodeAmo; rw [hk]
  rw [Scope.ofCode?_of f3]
  refine congrArg Except.ok ?_
  show Instr.amoXor (fieldD w) (fieldA w) (fieldB w) sc (MemOrd.ofCode (w / 2^6)) (bitOf w 5) = Instr.amoXor d a b sc ord dbl
  rw [(show fieldD w = d from Fin.ext f0), (show fieldA w = a from Fin.ext f1), (show fieldB w = b from Fin.ext f2), (show MemOrd.ofCode (w / 2^6) = ord from MemOrd.ofCode_of f4), (show bitOf w 5 = dbl from bitOf_of f5)]

theorem amoMin (d : Reg) (a : Reg) (b : Reg) (sc : Scope) (ord : MemOrd) (dbl : Bool) : Statement (.amoMin d a b sc ord dbl) := by
  intro hwf w e
  obtain ⟨ho, hk, f0, f1, f2, f3, f4, f5⟩ := fields14 31 5 d.val a.val b.val sc.code ord.code dbl.toNat w (by decide) (by decide) (d.isLt) (a.isLt) (b.isLt) (Scope.code_lt sc) (MemOrd.code_lt ord) (boolToNat_lt dbl) (Option.some.inj e)
  refine decode_of ?_ hwf
  rw [decodeRaw_31 ho]
  unfold decodeAmo; rw [hk]
  rw [Scope.ofCode?_of f3]
  refine congrArg Except.ok ?_
  show Instr.amoMin (fieldD w) (fieldA w) (fieldB w) sc (MemOrd.ofCode (w / 2^6)) (bitOf w 5) = Instr.amoMin d a b sc ord dbl
  rw [(show fieldD w = d from Fin.ext f0), (show fieldA w = a from Fin.ext f1), (show fieldB w = b from Fin.ext f2), (show MemOrd.ofCode (w / 2^6) = ord from MemOrd.ofCode_of f4), (show bitOf w 5 = dbl from bitOf_of f5)]

theorem amoMax (d : Reg) (a : Reg) (b : Reg) (sc : Scope) (ord : MemOrd) (dbl : Bool) : Statement (.amoMax d a b sc ord dbl) := by
  intro hwf w e
  obtain ⟨ho, hk, f0, f1, f2, f3, f4, f5⟩ := fields14 31 6 d.val a.val b.val sc.code ord.code dbl.toNat w (by decide) (by decide) (d.isLt) (a.isLt) (b.isLt) (Scope.code_lt sc) (MemOrd.code_lt ord) (boolToNat_lt dbl) (Option.some.inj e)
  refine decode_of ?_ hwf
  rw [decodeRaw_31 ho]
  unfold decodeAmo; rw [hk]
  rw [Scope.ofCode?_of f3]
  refine congrArg Except.ok ?_
  show Instr.amoMax (fieldD w) (fieldA w) (fieldB w) sc (MemOrd.ofCode (w / 2^6)) (bitOf w 5) = Instr.amoMax d a b sc ord dbl
  rw [(show fieldD w = d from Fin.ext f0), (show fieldA w = a from Fin.ext f1), (show fieldB w = b from Fin.ext f2), (show MemOrd.ofCode (w / 2^6) = ord from MemOrd.ofCode_of f4), (show bitOf w 5 = dbl from bitOf_of f5)]

theorem amoMinu (d : Reg) (a : Reg) (b : Reg) (sc : Scope) (ord : MemOrd) (dbl : Bool) : Statement (.amoMinu d a b sc ord dbl) := by
  intro hwf w e
  obtain ⟨ho, hk, f0, f1, f2, f3, f4, f5⟩ := fields14 31 7 d.val a.val b.val sc.code ord.code dbl.toNat w (by decide) (by decide) (d.isLt) (a.isLt) (b.isLt) (Scope.code_lt sc) (MemOrd.code_lt ord) (boolToNat_lt dbl) (Option.some.inj e)
  refine decode_of ?_ hwf
  rw [decodeRaw_31 ho]
  unfold decodeAmo; rw [hk]
  rw [Scope.ofCode?_of f3]
  refine congrArg Except.ok ?_
  show Instr.amoMinu (fieldD w) (fieldA w) (fieldB w) sc (MemOrd.ofCode (w / 2^6)) (bitOf w 5) = Instr.amoMinu d a b sc ord dbl
  rw [(show fieldD w = d from Fin.ext f0), (show fieldA w = a from Fin.ext f1), (show fieldB w = b from Fin.ext f2), (show MemOrd.ofCode (w / 2^6) = ord from MemOrd.ofCode_of f4), (show bitOf w 5 = dbl from bitOf_of f5)]

theorem amoMaxu (d : Reg) (a : Reg) (b : Reg) (sc : Scope) (ord : MemOrd) (dbl : Bool) : Statement (.amoMaxu d a b sc ord dbl) := by
  intro hwf w e
  obtain ⟨ho, hk, f0, f1, f2, f3, f4, f5⟩ := fields14 31 8 d.val a.val b.val sc.code ord.code dbl.toNat w (by decide) (by decide) (d.isLt) (a.isLt) (b.isLt) (Scope.code_lt sc) (MemOrd.code_lt ord) (boolToNat_lt dbl) (Option.some.inj e)
  refine decode_of ?_ hwf
  rw [decodeRaw_31 ho]
  unfold decodeAmo; rw [hk]
  rw [Scope.ofCode?_of f3]
  refine congrArg Except.ok ?_
  show Instr.amoMaxu (fieldD w) (fieldA w) (fieldB w) sc (MemOrd.ofCode (w / 2^6)) (bitOf w 5) = Instr.amoMaxu d a b sc ord dbl
  rw [(show fieldD w = d from Fin.ext f0), (show fieldA w = a from Fin.ext f1), (show fieldB w = b from Fin.ext f2), (show MemOrd.ofCode (w / 2^6) = ord from MemOrd.ofCode_of f4), (show bitOf w 5 = dbl from bitOf_of f5)]

theorem amoCas (d : Reg) (a : Reg) (b : Reg) (sc : Scope) (ord : MemOrd) (dbl : Bool) : Statement (.amoCas d a b sc ord dbl) := by
  intro hwf w e
  obtain ⟨ho, hk, f0, f1, f2, f3, f4, f5⟩ := fields14 31 9 d.val a.val b.val sc.code ord.code dbl.toNat w (by decide) (by decide) (d.isLt) (a.isLt) (b.isLt) (Scope.code_lt sc) (MemOrd.code_lt ord) (boolToNat_lt dbl) (Option.some.inj e)
  refine decode_of ?_ hwf
  rw [decodeRaw_31 ho]
  unfold decodeAmo; rw [hk]
  rw [Scope.ofCode?_of f3]
  refine congrArg Except.ok ?_
  show Instr.amoCas (fieldD w) (fieldA w) (fieldB w) sc (MemOrd.ofCode (w / 2^6)) (bitOf w 5) = Instr.amoCas d a b sc ord dbl
  rw [(show fieldD w = d from Fin.ext f0), (show fieldA w = a from Fin.ext f1), (show fieldB w = b from Fin.ext f2), (show MemOrd.ofCode (w / 2^6) = ord from MemOrd.ofCode_of f4), (show bitOf w 5 = dbl from bitOf_of f5)]

theorem amoFadd (d : Reg) (a : Reg) (b : Reg) (sc : Scope) (ord : MemOrd) : Statement (.amoFadd d a b sc ord) := by
  intro hwf w e
  obtain ⟨ho, hk, z0, f0, f1, f2, f3, f4⟩ := fields15 31 10 d.val a.val b.val sc.code ord.code w (by decide) (by decide) (d.isLt) (a.isLt) (b.isLt) (Scope.code_lt sc) (MemOrd.code_lt ord) (Option.some.inj e)
  refine decode_of ?_ hwf
  rw [decodeRaw_31 ho]
  unfold decodeAmo; rw [hk]
  refine (if_pos z0).trans ?_
  rw [Scope.ofCode?_of f3]
  refine congrArg Except.ok ?_
  show Instr.amoFadd (fieldD w) (fieldA w) (fieldB w) sc (MemOrd.ofCode (w / 2^6)) = Instr.amoFadd d a b sc ord
  rw [(show fieldD w = d from Fin.ext f0), (show fieldA w = a from Fin.ext f1), (show fieldB w = b from Fin.ext f2), (show MemOrd.ofCode (w / 2^6) = ord from MemOrd.ofCode_of f4)]

theorem fence (sc : Scope) : Statement (.fence sc) := by
  intro hwf w e
  obtain ⟨ho, hk, z0, z1, f0⟩ := fields16 32 0 sc.code w (by decide) (by decide) (Scope.code_lt sc) (Option.some.inj e)
  refine decode_of ?_ hwf
  rw [decodeRaw_32 ho]
  unfold decodeFence; rw [hk]
  refine (if_pos ⟨z0, z1⟩).trans ?_
  rw [Scope.ofCode?_of f0]
  refine congrArg Except.ok ?_
  rfl

theorem xfence (pred : BitVec 6) (succ : BitVec 6) (sc : Scope) : Statement (.xfence pred succ sc) := by
  intro hwf w e
  obtain ⟨ho, hk, z0, f0, f1, f2⟩ := fields17 32 1 pred.toNat succ.toNat sc.code w (by decide) (by decide) (pred.isLt) (succ.isLt) (Scope.code_lt sc) (Option.some.inj e)
  refine decode_of ?_ hwf
  rw [decodeRaw_32 ho]
  unfold decodeFence; rw [hk]
  refine (if_pos z0).trans ?_
  rw [Scope.ofCode?_of f2]
  refine congrArg Except.ok ?_
  show Instr.xfence (BitVec.ofNat 6 (w / 2^20)) (BitVec.ofNat 6 (w / 2^14)) sc = Instr.xfence pred succ sc
  rw [(show BitVec.ofNat 6 (w / 2^20) = pred from ofNat_of f0), (show BitVec.ofNat 6 (w / 2^14) = succ from ofNat_of f1)]

theorem ifence : Statement .ifence := by
  intro hwf w e
  cases e
  rfl

theorem vadd (d : Reg) (a : Reg) (b : Reg) (pg : Fin 8) (t : ElemType) : Statement (.vadd d a b pg t) := by
  intro hwf w e
  obtain ⟨ho, hk, f0, f1, f2, f3, f4⟩ := fields18 33 0 d.val a.val b.val pg.val t.code w (by decide) (by decide) (d.isLt) (a.isLt) (b.isLt) (pg.isLt) (ElemType.code_lt t) (Option.some.inj e)
  refine decode_of ?_ hwf
  rw [decodeRaw_33 ho]
  unfold decodeVecInt; rw [hk]
  refine congrArg Except.ok ?_
  show Instr.vadd (fieldD w) (fieldA w) (fieldB w) (Fin.ofNat 8 (w / 2^8)) (ElemType.ofCode (w / 2^5)) = Instr.vadd d a b pg t
  rw [(show fieldD w = d from Fin.ext f0), (show fieldA w = a from Fin.ext f1), (show fieldB w = b from Fin.ext f2), (show Fin.ofNat 8 (w / 2^8) = pg from Fin.ext f3), (show ElemType.ofCode (w / 2^5) = t from ElemType.ofCode_of f4)]

theorem vsub (d : Reg) (a : Reg) (b : Reg) (pg : Fin 8) (t : ElemType) : Statement (.vsub d a b pg t) := by
  intro hwf w e
  obtain ⟨ho, hk, f0, f1, f2, f3, f4⟩ := fields18 33 1 d.val a.val b.val pg.val t.code w (by decide) (by decide) (d.isLt) (a.isLt) (b.isLt) (pg.isLt) (ElemType.code_lt t) (Option.some.inj e)
  refine decode_of ?_ hwf
  rw [decodeRaw_33 ho]
  unfold decodeVecInt; rw [hk]
  refine congrArg Except.ok ?_
  show Instr.vsub (fieldD w) (fieldA w) (fieldB w) (Fin.ofNat 8 (w / 2^8)) (ElemType.ofCode (w / 2^5)) = Instr.vsub d a b pg t
  rw [(show fieldD w = d from Fin.ext f0), (show fieldA w = a from Fin.ext f1), (show fieldB w = b from Fin.ext f2), (show Fin.ofNat 8 (w / 2^8) = pg from Fin.ext f3), (show ElemType.ofCode (w / 2^5) = t from ElemType.ofCode_of f4)]

theorem vmul (d : Reg) (a : Reg) (b : Reg) (pg : Fin 8) (t : ElemType) : Statement (.vmul d a b pg t) := by
  intro hwf w e
  obtain ⟨ho, hk, f0, f1, f2, f3, f4⟩ := fields18 33 2 d.val a.val b.val pg.val t.code w (by decide) (by decide) (d.isLt) (a.isLt) (b.isLt) (pg.isLt) (ElemType.code_lt t) (Option.some.inj e)
  refine decode_of ?_ hwf
  rw [decodeRaw_33 ho]
  unfold decodeVecInt; rw [hk]
  refine congrArg Except.ok ?_
  show Instr.vmul (fieldD w) (fieldA w) (fieldB w) (Fin.ofNat 8 (w / 2^8)) (ElemType.ofCode (w / 2^5)) = Instr.vmul d a b pg t
  rw [(show fieldD w = d from Fin.ext f0), (show fieldA w = a from Fin.ext f1), (show fieldB w = b from Fin.ext f2), (show Fin.ofNat 8 (w / 2^8) = pg from Fin.ext f3), (show ElemType.ofCode (w / 2^5) = t from ElemType.ofCode_of f4)]

theorem vmulh (d : Reg) (a : Reg) (b : Reg) (pg : Fin 8) (t : ElemType) : Statement (.vmulh d a b pg t) := by
  intro hwf w e
  obtain ⟨ho, hk, f0, f1, f2, f3, f4⟩ := fields18 33 3 d.val a.val b.val pg.val t.code w (by decide) (by decide) (d.isLt) (a.isLt) (b.isLt) (pg.isLt) (ElemType.code_lt t) (Option.some.inj e)
  refine decode_of ?_ hwf
  rw [decodeRaw_33 ho]
  unfold decodeVecInt; rw [hk]
  refine congrArg Except.ok ?_
  show Instr.vmulh (fieldD w) (fieldA w) (fieldB w) (Fin.ofNat 8 (w / 2^8)) (ElemType.ofCode (w / 2^5)) = Instr.vmulh d a b pg t
  rw [(show fieldD w = d from Fin.ext f0), (show fieldA w = a from Fin.ext f1), (show fieldB w = b from Fin.ext f2), (show Fin.ofNat 8 (w / 2^8) = pg from Fin.ext f3), (show ElemType.ofCode (w / 2^5) = t from ElemType.ofCode_of f4)]

theorem vmulhu (d : Reg) (a : Reg) (b : Reg) (pg : Fin 8) (t : ElemType) : Statement (.vmulhu d a b pg t) := by
  intro hwf w e
  obtain ⟨ho, hk, f0, f1, f2, f3, f4⟩ := fields18 33 4 d.val a.val b.val pg.val t.code w (by decide) (by decide) (d.isLt) (a.isLt) (b.isLt) (pg.isLt) (ElemType.code_lt t) (Option.some.inj e)
  refine decode_of ?_ hwf
  rw [decodeRaw_33 ho]
  unfold decodeVecInt; rw [hk]
  refine congrArg Except.ok ?_
  show Instr.vmulhu (fieldD w) (fieldA w) (fieldB w) (Fin.ofNat 8 (w / 2^8)) (ElemType.ofCode (w / 2^5)) = Instr.vmulhu d a b pg t
  rw [(show fieldD w = d from Fin.ext f0), (show fieldA w = a from Fin.ext f1), (show fieldB w = b from Fin.ext f2), (show Fin.ofNat 8 (w / 2^8) = pg from Fin.ext f3), (show ElemType.ofCode (w / 2^5) = t from ElemType.ofCode_of f4)]

theorem vmin (d : Reg) (a : Reg) (b : Reg) (pg : Fin 8) (t : ElemType) : Statement (.vmin d a b pg t) := by
  intro hwf w e
  obtain ⟨ho, hk, f0, f1, f2, f3, f4⟩ := fields18 33 5 d.val a.val b.val pg.val t.code w (by decide) (by decide) (d.isLt) (a.isLt) (b.isLt) (pg.isLt) (ElemType.code_lt t) (Option.some.inj e)
  refine decode_of ?_ hwf
  rw [decodeRaw_33 ho]
  unfold decodeVecInt; rw [hk]
  refine congrArg Except.ok ?_
  show Instr.vmin (fieldD w) (fieldA w) (fieldB w) (Fin.ofNat 8 (w / 2^8)) (ElemType.ofCode (w / 2^5)) = Instr.vmin d a b pg t
  rw [(show fieldD w = d from Fin.ext f0), (show fieldA w = a from Fin.ext f1), (show fieldB w = b from Fin.ext f2), (show Fin.ofNat 8 (w / 2^8) = pg from Fin.ext f3), (show ElemType.ofCode (w / 2^5) = t from ElemType.ofCode_of f4)]

theorem vmax (d : Reg) (a : Reg) (b : Reg) (pg : Fin 8) (t : ElemType) : Statement (.vmax d a b pg t) := by
  intro hwf w e
  obtain ⟨ho, hk, f0, f1, f2, f3, f4⟩ := fields18 33 6 d.val a.val b.val pg.val t.code w (by decide) (by decide) (d.isLt) (a.isLt) (b.isLt) (pg.isLt) (ElemType.code_lt t) (Option.some.inj e)
  refine decode_of ?_ hwf
  rw [decodeRaw_33 ho]
  unfold decodeVecInt; rw [hk]
  refine congrArg Except.ok ?_
  show Instr.vmax (fieldD w) (fieldA w) (fieldB w) (Fin.ofNat 8 (w / 2^8)) (ElemType.ofCode (w / 2^5)) = Instr.vmax d a b pg t
  rw [(show fieldD w = d from Fin.ext f0), (show fieldA w = a from Fin.ext f1), (show fieldB w = b from Fin.ext f2), (show Fin.ofNat 8 (w / 2^8) = pg from Fin.ext f3), (show ElemType.ofCode (w / 2^5) = t from ElemType.ofCode_of f4)]

theorem vminu (d : Reg) (a : Reg) (b : Reg) (pg : Fin 8) (t : ElemType) : Statement (.vminu d a b pg t) := by
  intro hwf w e
  obtain ⟨ho, hk, f0, f1, f2, f3, f4⟩ := fields18 33 7 d.val a.val b.val pg.val t.code w (by decide) (by decide) (d.isLt) (a.isLt) (b.isLt) (pg.isLt) (ElemType.code_lt t) (Option.some.inj e)
  refine decode_of ?_ hwf
  rw [decodeRaw_33 ho]
  unfold decodeVecInt; rw [hk]
  refine congrArg Except.ok ?_
  show Instr.vminu (fieldD w) (fieldA w) (fieldB w) (Fin.ofNat 8 (w / 2^8)) (ElemType.ofCode (w / 2^5)) = Instr.vminu d a b pg t
  rw [(show fieldD w = d from Fin.ext f0), (show fieldA w = a from Fin.ext f1), (show fieldB w = b from Fin.ext f2), (show Fin.ofNat 8 (w / 2^8) = pg from Fin.ext f3), (show ElemType.ofCode (w / 2^5) = t from ElemType.ofCode_of f4)]

theorem vmaxu (d : Reg) (a : Reg) (b : Reg) (pg : Fin 8) (t : ElemType) : Statement (.vmaxu d a b pg t) := by
  intro hwf w e
  obtain ⟨ho, hk, f0, f1, f2, f3, f4⟩ := fields18 33 8 d.val a.val b.val pg.val t.code w (by decide) (by decide) (d.isLt) (a.isLt) (b.isLt) (pg.isLt) (ElemType.code_lt t) (Option.some.inj e)
  refine decode_of ?_ hwf
  rw [decodeRaw_33 ho]
  unfold decodeVecInt; rw [hk]
  refine congrArg Except.ok ?_
  show Instr.vmaxu (fieldD w) (fieldA w) (fieldB w) (Fin.ofNat 8 (w / 2^8)) (ElemType.ofCode (w / 2^5)) = Instr.vmaxu d a b pg t
  rw [(show fieldD w = d from Fin.ext f0), (show fieldA w = a from Fin.ext f1), (show fieldB w = b from Fin.ext f2), (show Fin.ofNat 8 (w / 2^8) = pg from Fin.ext f3), (show ElemType.ofCode (w / 2^5) = t from ElemType.ofCode_of f4)]

theorem vand (d : Reg) (a : Reg) (b : Reg) (pg : Fin 8) (t : ElemType) : Statement (.vand d a b pg t) := by
  intro hwf w e
  obtain ⟨ho, hk, f0, f1, f2, f3, f4⟩ := fields18 33 9 d.val a.val b.val pg.val t.code w (by decide) (by decide) (d.isLt) (a.isLt) (b.isLt) (pg.isLt) (ElemType.code_lt t) (Option.some.inj e)
  refine decode_of ?_ hwf
  rw [decodeRaw_33 ho]
  unfold decodeVecInt; rw [hk]
  refine congrArg Except.ok ?_
  show Instr.vand (fieldD w) (fieldA w) (fieldB w) (Fin.ofNat 8 (w / 2^8)) (ElemType.ofCode (w / 2^5)) = Instr.vand d a b pg t
  rw [(show fieldD w = d from Fin.ext f0), (show fieldA w = a from Fin.ext f1), (show fieldB w = b from Fin.ext f2), (show Fin.ofNat 8 (w / 2^8) = pg from Fin.ext f3), (show ElemType.ofCode (w / 2^5) = t from ElemType.ofCode_of f4)]

theorem vor (d : Reg) (a : Reg) (b : Reg) (pg : Fin 8) (t : ElemType) : Statement (.vor d a b pg t) := by
  intro hwf w e
  obtain ⟨ho, hk, f0, f1, f2, f3, f4⟩ := fields18 33 10 d.val a.val b.val pg.val t.code w (by decide) (by decide) (d.isLt) (a.isLt) (b.isLt) (pg.isLt) (ElemType.code_lt t) (Option.some.inj e)
  refine decode_of ?_ hwf
  rw [decodeRaw_33 ho]
  unfold decodeVecInt; rw [hk]
  refine congrArg Except.ok ?_
  show Instr.vor (fieldD w) (fieldA w) (fieldB w) (Fin.ofNat 8 (w / 2^8)) (ElemType.ofCode (w / 2^5)) = Instr.vor d a b pg t
  rw [(show fieldD w = d from Fin.ext f0), (show fieldA w = a from Fin.ext f1), (show fieldB w = b from Fin.ext f2), (show Fin.ofNat 8 (w / 2^8) = pg from Fin.ext f3), (show ElemType.ofCode (w / 2^5) = t from ElemType.ofCode_of f4)]

theorem vxor (d : Reg) (a : Reg) (b : Reg) (pg : Fin 8) (t : ElemType) : Statement (.vxor d a b pg t) := by
  intro hwf w e
  obtain ⟨ho, hk, f0, f1, f2, f3, f4⟩ := fields18 33 11 d.val a.val b.val pg.val t.code w (by decide) (by decide) (d.isLt) (a.isLt) (b.isLt) (pg.isLt) (ElemType.code_lt t) (Option.some.inj e)
  refine decode_of ?_ hwf
  rw [decodeRaw_33 ho]
  unfold decodeVecInt; rw [hk]
  refine congrArg Except.ok ?_
  show Instr.vxor (fieldD w) (fieldA w) (fieldB w) (Fin.ofNat 8 (w / 2^8)) (ElemType.ofCode (w / 2^5)) = Instr.vxor d a b pg t
  rw [(show fieldD w = d from Fin.ext f0), (show fieldA w = a from Fin.ext f1), (show fieldB w = b from Fin.ext f2), (show Fin.ofNat 8 (w / 2^8) = pg from Fin.ext f3), (show ElemType.ofCode (w / 2^5) = t from ElemType.ofCode_of f4)]

theorem vsll (d : Reg) (a : Reg) (b : Reg) (pg : Fin 8) (t : ElemType) : Statement (.vsll d a b pg t) := by
  intro hwf w e
  obtain ⟨ho, hk, f0, f1, f2, f3, f4⟩ := fields18 33 12 d.val a.val b.val pg.val t.code w (by decide) (by decide) (d.isLt) (a.isLt) (b.isLt) (pg.isLt) (ElemType.code_lt t) (Option.some.inj e)
  refine decode_of ?_ hwf
  rw [decodeRaw_33 ho]
  unfold decodeVecInt; rw [hk]
  refine congrArg Except.ok ?_
  show Instr.vsll (fieldD w) (fieldA w) (fieldB w) (Fin.ofNat 8 (w / 2^8)) (ElemType.ofCode (w / 2^5)) = Instr.vsll d a b pg t
  rw [(show fieldD w = d from Fin.ext f0), (show fieldA w = a from Fin.ext f1), (show fieldB w = b from Fin.ext f2), (show Fin.ofNat 8 (w / 2^8) = pg from Fin.ext f3), (show ElemType.ofCode (w / 2^5) = t from ElemType.ofCode_of f4)]

theorem vsrl (d : Reg) (a : Reg) (b : Reg) (pg : Fin 8) (t : ElemType) : Statement (.vsrl d a b pg t) := by
  intro hwf w e
  obtain ⟨ho, hk, f0, f1, f2, f3, f4⟩ := fields18 33 13 d.val a.val b.val pg.val t.code w (by decide) (by decide) (d.isLt) (a.isLt) (b.isLt) (pg.isLt) (ElemType.code_lt t) (Option.some.inj e)
  refine decode_of ?_ hwf
  rw [decodeRaw_33 ho]
  unfold decodeVecInt; rw [hk]
  refine congrArg Except.ok ?_
  show Instr.vsrl (fieldD w) (fieldA w) (fieldB w) (Fin.ofNat 8 (w / 2^8)) (ElemType.ofCode (w / 2^5)) = Instr.vsrl d a b pg t
  rw [(show fieldD w = d from Fin.ext f0), (show fieldA w = a from Fin.ext f1), (show fieldB w = b from Fin.ext f2), (show Fin.ofNat 8 (w / 2^8) = pg from Fin.ext f3), (show ElemType.ofCode (w / 2^5) = t from ElemType.ofCode_of f4)]

theorem vsra (d : Reg) (a : Reg) (b : Reg) (pg : Fin 8) (t : ElemType) : Statement (.vsra d a b pg t) := by
  intro hwf w e
  obtain ⟨ho, hk, f0, f1, f2, f3, f4⟩ := fields18 33 14 d.val a.val b.val pg.val t.code w (by decide) (by decide) (d.isLt) (a.isLt) (b.isLt) (pg.isLt) (ElemType.code_lt t) (Option.some.inj e)
  refine decode_of ?_ hwf
  rw [decodeRaw_33 ho]
  unfold decodeVecInt; rw [hk]
  refine congrArg Except.ok ?_
  show Instr.vsra (fieldD w) (fieldA w) (fieldB w) (Fin.ofNat 8 (w / 2^8)) (ElemType.ofCode (w / 2^5)) = Instr.vsra d a b pg t
  rw [(show fieldD w = d from Fin.ext f0), (show fieldA w = a from Fin.ext f1), (show fieldB w = b from Fin.ext f2), (show Fin.ofNat 8 (w / 2^8) = pg from Fin.ext f3), (show ElemType.ofCode (w / 2^5) = t from ElemType.ofCode_of f4)]

theorem vabs (d : Reg) (a : Reg) (pg : Fin 8) (t : ElemType) : Statement (.vabs d a pg t) := by
  intro hwf w e
  obtain ⟨ho, hk, z0, f0, f1, f2, f3⟩ := fields19 33 15 d.val a.val pg.val t.code w (by decide) (by decide) (d.isLt) (a.isLt) (pg.isLt) (ElemType.code_lt t) (Option.some.inj e)
  refine decode_of ?_ hwf
  rw [decodeRaw_33 ho]
  unfold decodeVecInt; rw [hk]
  refine (if_pos z0).trans (congrArg Except.ok ?_)
  show Instr.vabs (fieldD w) (fieldA w) (Fin.ofNat 8 (w / 2^8)) (ElemType.ofCode (w / 2^5)) = Instr.vabs d a pg t
  rw [(show fieldD w = d from Fin.ext f0), (show fieldA w = a from Fin.ext f1), (show Fin.ofNat 8 (w / 2^8) = pg from Fin.ext f2), (show ElemType.ofCode (w / 2^5) = t from ElemType.ofCode_of f3)]

theorem vcmpeq (d : Fin 8) (a : Reg) (b : Reg) (pg : Fin 8) (t : ElemType) : Statement (.vcmpeq d a b pg t) := by
  intro hwf w e
  obtain ⟨ho, hk, z0, f0, f1, f2, f3, f4⟩ := fields20 33 16 d.val a.val b.val pg.val t.code w (by decide) (by decide) (d.isLt) (a.isLt) (b.isLt) (pg.isLt) (ElemType.code_lt t) (Option.some.inj e)
  refine decode_of ?_ hwf
  rw [decodeRaw_33 ho]
  unfold decodeVecInt; rw [hk]
  refine (if_pos z0).trans (congrArg Except.ok ?_)
  show Instr.vcmpeq (Fin.ofNat 8 (w / 2^21)) (fieldA w) (fieldB w) (Fin.ofNat 8 (w / 2^8)) (ElemType.ofCode (w / 2^5)) = Instr.vcmpeq d a b pg t
  rw [(show Fin.ofNat 8 (w / 2^21) = d from Fin.ext f0), (show fieldA w = a from Fin.ext f1), (show fieldB w = b from Fin.ext f2), (show Fin.ofNat 8 (w / 2^8) = pg from Fin.ext f3), (show ElemType.ofCode (w / 2^5) = t from ElemType.ofCode_of f4)]

theorem vcmplt (d : Fin 8) (a : Reg) (b : Reg) (pg : Fin 8) (t : ElemType) : Statement (.vcmplt d a b pg t) := by
  intro hwf w e
  obtain ⟨ho, hk, z0, f0, f1, f2, f3, f4⟩ := fields20 33 17 d.val a.val b.val pg.val t.code w (by decide) (by decide) (d.isLt) (a.isLt) (b.isLt) (pg.isLt) (ElemType.code_lt t) (Option.some.inj e)
  refine decode_of ?_ hwf
  rw [decodeRaw_33 ho]
  unfold decodeVecInt; rw [hk]
  refine (if_pos z0).trans (congrArg Except.ok ?_)
  show Instr.vcmplt (Fin.ofNat 8 (w / 2^21)) (fieldA w) (fieldB w) (Fin.ofNat 8 (w / 2^8)) (ElemType.ofCode (w / 2^5)) = Instr.vcmplt d a b pg t
  rw [(show Fin.ofNat 8 (w / 2^21) = d from Fin.ext f0), (show fieldA w = a from Fin.ext f1), (show fieldB w = b from Fin.ext f2), (show Fin.ofNat 8 (w / 2^8) = pg from Fin.ext f3), (show ElemType.ofCode (w / 2^5) = t from ElemType.ofCode_of f4)]

theorem vcmpltu (d : Fin 8) (a : Reg) (b : Reg) (pg : Fin 8) (t : ElemType) : Statement (.vcmpltu d a b pg t) := by
  intro hwf w e
  obtain ⟨ho, hk, z0, f0, f1, f2, f3, f4⟩ := fields20 33 18 d.val a.val b.val pg.val t.code w (by decide) (by decide) (d.isLt) (a.isLt) (b.isLt) (pg.isLt) (ElemType.code_lt t) (Option.some.inj e)
  refine decode_of ?_ hwf
  rw [decodeRaw_33 ho]
  unfold decodeVecInt; rw [hk]
  refine (if_pos z0).trans (congrArg Except.ok ?_)
  show Instr.vcmpltu (Fin.ofNat 8 (w / 2^21)) (fieldA w) (fieldB w) (Fin.ofNat 8 (w / 2^8)) (ElemType.ofCode (w / 2^5)) = Instr.vcmpltu d a b pg t
  rw [(show Fin.ofNat 8 (w / 2^21) = d from Fin.ext f0), (show fieldA w = a from Fin.ext f1), (show fieldB w = b from Fin.ext f2), (show Fin.ofNat 8 (w / 2^8) = pg from Fin.ext f3), (show ElemType.ofCode (w / 2^5) = t from ElemType.ofCode_of f4)]

theorem vfadd (d : Reg) (a : Reg) (b : Reg) (pg : Fin 8) (t : ElemType) : Statement (.vfadd d a b pg t) := by
  intro hwf w e
  obtain ⟨ho, hk, f0, f1, f2, f3, f4⟩ := fields21 34 0 d.val a.val b.val pg.val t.code w (by decide) (by decide) (d.isLt) (a.isLt) (b.isLt) (pg.isLt) (ElemType.code_lt t) (Option.some.inj e)
  refine decode_of ?_ hwf
  rw [decodeRaw_34 ho]
  unfold decodeVecFp; rw [hk]
  refine congrArg Except.ok ?_
  show Instr.vfadd (fieldD w) (fieldA w) (fieldB w) (Fin.ofNat 8 (w / 2^8)) (ElemType.ofCode (w / 2^5)) = Instr.vfadd d a b pg t
  rw [(show fieldD w = d from Fin.ext f0), (show fieldA w = a from Fin.ext f1), (show fieldB w = b from Fin.ext f2), (show Fin.ofNat 8 (w / 2^8) = pg from Fin.ext f3), (show ElemType.ofCode (w / 2^5) = t from ElemType.ofCode_of f4)]

theorem vfsub (d : Reg) (a : Reg) (b : Reg) (pg : Fin 8) (t : ElemType) : Statement (.vfsub d a b pg t) := by
  intro hwf w e
  obtain ⟨ho, hk, f0, f1, f2, f3, f4⟩ := fields21 34 1 d.val a.val b.val pg.val t.code w (by decide) (by decide) (d.isLt) (a.isLt) (b.isLt) (pg.isLt) (ElemType.code_lt t) (Option.some.inj e)
  refine decode_of ?_ hwf
  rw [decodeRaw_34 ho]
  unfold decodeVecFp; rw [hk]
  refine congrArg Except.ok ?_
  show Instr.vfsub (fieldD w) (fieldA w) (fieldB w) (Fin.ofNat 8 (w / 2^8)) (ElemType.ofCode (w / 2^5)) = Instr.vfsub d a b pg t
  rw [(show fieldD w = d from Fin.ext f0), (show fieldA w = a from Fin.ext f1), (show fieldB w = b from Fin.ext f2), (show Fin.ofNat 8 (w / 2^8) = pg from Fin.ext f3), (show ElemType.ofCode (w / 2^5) = t from ElemType.ofCode_of f4)]

theorem vfmul (d : Reg) (a : Reg) (b : Reg) (pg : Fin 8) (t : ElemType) : Statement (.vfmul d a b pg t) := by
  intro hwf w e
  obtain ⟨ho, hk, f0, f1, f2, f3, f4⟩ := fields21 34 2 d.val a.val b.val pg.val t.code w (by decide) (by decide) (d.isLt) (a.isLt) (b.isLt) (pg.isLt) (ElemType.code_lt t) (Option.some.inj e)
  refine decode_of ?_ hwf
  rw [decodeRaw_34 ho]
  unfold decodeVecFp; rw [hk]
  refine congrArg Except.ok ?_
  show Instr.vfmul (fieldD w) (fieldA w) (fieldB w) (Fin.ofNat 8 (w / 2^8)) (ElemType.ofCode (w / 2^5)) = Instr.vfmul d a b pg t
  rw [(show fieldD w = d from Fin.ext f0), (show fieldA w = a from Fin.ext f1), (show fieldB w = b from Fin.ext f2), (show Fin.ofNat 8 (w / 2^8) = pg from Fin.ext f3), (show ElemType.ofCode (w / 2^5) = t from ElemType.ofCode_of f4)]

theorem vfma (d : Reg) (a : Reg) (b : Reg) (pg : Fin 8) (t : ElemType) : Statement (.vfma d a b pg t) := by
  intro hwf w e
  obtain ⟨ho, hk, f0, f1, f2, f3, f4⟩ := fields21 34 3 d.val a.val b.val pg.val t.code w (by decide) (by decide) (d.isLt) (a.isLt) (b.isLt) (pg.isLt) (ElemType.code_lt t) (Option.some.inj e)
  refine decode_of ?_ hwf
  rw [decodeRaw_34 ho]
  unfold decodeVecFp; rw [hk]
  refine congrArg Except.ok ?_
  show Instr.vfma (fieldD w) (fieldA w) (fieldB w) (Fin.ofNat 8 (w / 2^8)) (ElemType.ofCode (w / 2^5)) = Instr.vfma d a b pg t
  rw [(show fieldD w = d from Fin.ext f0), (show fieldA w = a from Fin.ext f1), (show fieldB w = b from Fin.ext f2), (show Fin.ofNat 8 (w / 2^8) = pg from Fin.ext f3), (show ElemType.ofCode (w / 2^5) = t from ElemType.ofCode_of f4)]

theorem vfms (d : Reg) (a : Reg) (b : Reg) (pg : Fin 8) (t : ElemType) : Statement (.vfms d a b pg t) := by
  intro hwf w e
  obtain ⟨ho, hk, f0, f1, f2, f3, f4⟩ := fields21 34 4 d.val a.val b.val pg.val t.code w (by decide) (by decide) (d.isLt) (a.isLt) (b.isLt) (pg.isLt) (ElemType.code_lt t) (Option.some.inj e)
  refine decode_of ?_ hwf
  rw [decodeRaw_34 ho]
  unfold decodeVecFp; rw [hk]
  refine congrArg Except.ok ?_
  show Instr.vfms (fieldD w) (fieldA w) (fieldB w) (Fin.ofNat 8 (w / 2^8)) (ElemType.ofCode (w / 2^5)) = Instr.vfms d a b pg t
  rw [(show fieldD w = d from Fin.ext f0), (show fieldA w = a from Fin.ext f1), (show fieldB w = b from Fin.ext f2), (show Fin.ofNat 8 (w / 2^8) = pg from Fin.ext f3), (show ElemType.ofCode (w / 2^5) = t from ElemType.ofCode_of f4)]

theorem vfnma (d : Reg) (a : Reg) (b : Reg) (pg : Fin 8) (t : ElemType) : Statement (.vfnma d a b pg t) := by
  intro hwf w e
  obtain ⟨ho, hk, f0, f1, f2, f3, f4⟩ := fields21 34 5 d.val a.val b.val pg.val t.code w (by decide) (by decide) (d.isLt) (a.isLt) (b.isLt) (pg.isLt) (ElemType.code_lt t) (Option.some.inj e)
  refine decode_of ?_ hwf
  rw [decodeRaw_34 ho]
  unfold decodeVecFp; rw [hk]
  refine congrArg Except.ok ?_
  show Instr.vfnma (fieldD w) (fieldA w) (fieldB w) (Fin.ofNat 8 (w / 2^8)) (ElemType.ofCode (w / 2^5)) = Instr.vfnma d a b pg t
  rw [(show fieldD w = d from Fin.ext f0), (show fieldA w = a from Fin.ext f1), (show fieldB w = b from Fin.ext f2), (show Fin.ofNat 8 (w / 2^8) = pg from Fin.ext f3), (show ElemType.ofCode (w / 2^5) = t from ElemType.ofCode_of f4)]

theorem vfmin (d : Reg) (a : Reg) (b : Reg) (pg : Fin 8) (t : ElemType) : Statement (.vfmin d a b pg t) := by
  intro hwf w e
  obtain ⟨ho, hk, f0, f1, f2, f3, f4⟩ := fields21 34 6 d.val a.val b.val pg.val t.code w (by decide) (by decide) (d.isLt) (a.isLt) (b.isLt) (pg.isLt) (ElemType.code_lt t) (Option.some.inj e)
  refine decode_of ?_ hwf
  rw [decodeRaw_34 ho]
  unfold decodeVecFp; rw [hk]
  refine congrArg Except.ok ?_
  show Instr.vfmin (fieldD w) (fieldA w) (fieldB w) (Fin.ofNat 8 (w / 2^8)) (ElemType.ofCode (w / 2^5)) = Instr.vfmin d a b pg t
  rw [(show fieldD w = d from Fin.ext f0), (show fieldA w = a from Fin.ext f1), (show fieldB w = b from Fin.ext f2), (show Fin.ofNat 8 (w / 2^8) = pg from Fin.ext f3), (show ElemType.ofCode (w / 2^5) = t from ElemType.ofCode_of f4)]

theorem vfmax (d : Reg) (a : Reg) (b : Reg) (pg : Fin 8) (t : ElemType) : Statement (.vfmax d a b pg t) := by
  intro hwf w e
  obtain ⟨ho, hk, f0, f1, f2, f3, f4⟩ := fields21 34 7 d.val a.val b.val pg.val t.code w (by decide) (by decide) (d.isLt) (a.isLt) (b.isLt) (pg.isLt) (ElemType.code_lt t) (Option.some.inj e)
  refine decode_of ?_ hwf
  rw [decodeRaw_34 ho]
  unfold decodeVecFp; rw [hk]
  refine congrArg Except.ok ?_
  show Instr.vfmax (fieldD w) (fieldA w) (fieldB w) (Fin.ofNat 8 (w / 2^8)) (ElemType.ofCode (w / 2^5)) = Instr.vfmax d a b pg t
  rw [(show fieldD w = d from Fin.ext f0), (show fieldA w = a from Fin.ext f1), (show fieldB w = b from Fin.ext f2), (show Fin.ofNat 8 (w / 2^8) = pg from Fin.ext f3), (show ElemType.ofCode (w / 2^5) = t from ElemType.ofCode_of f4)]

theorem vfdiv (d : Reg) (a : Reg) (b : Reg) (pg : Fin 8) (t : ElemType) : Statement (.vfdiv d a b pg t) := by
  intro hwf w e
  obtain ⟨ho, hk, f0, f1, f2, f3, f4⟩ := fields21 34 8 d.val a.val b.val pg.val t.code w (by decide) (by decide) (d.isLt) (a.isLt) (b.isLt) (pg.isLt) (ElemType.code_lt t) (Option.some.inj e)
  refine decode_of ?_ hwf
  rw [decodeRaw_34 ho]
  unfold decodeVecFp; rw [hk]
  refine congrArg Except.ok ?_
  show Instr.vfdiv (fieldD w) (fieldA w) (fieldB w) (Fin.ofNat 8 (w / 2^8)) (ElemType.ofCode (w / 2^5)) = Instr.vfdiv d a b pg t
  rw [(show fieldD w = d from Fin.ext f0), (show fieldA w = a from Fin.ext f1), (show fieldB w = b from Fin.ext f2), (show Fin.ofNat 8 (w / 2^8) = pg from Fin.ext f3), (show ElemType.ofCode (w / 2^5) = t from ElemType.ofCode_of f4)]

theorem vfsqrt (d : Reg) (a : Reg) (pg : Fin 8) (t : ElemType) : Statement (.vfsqrt d a pg t) := by
  intro hwf w e
  obtain ⟨ho, hk, z0, f0, f1, f2, f3⟩ := fields22 34 9 d.val a.val pg.val t.code w (by decide) (by decide) (d.isLt) (a.isLt) (pg.isLt) (ElemType.code_lt t) (Option.some.inj e)
  refine decode_of ?_ hwf
  rw [decodeRaw_34 ho]
  unfold decodeVecFp; rw [hk]
  refine (if_pos z0).trans (congrArg Except.ok ?_)
  show Instr.vfsqrt (fieldD w) (fieldA w) (Fin.ofNat 8 (w / 2^8)) (ElemType.ofCode (w / 2^5)) = Instr.vfsqrt d a pg t
  rw [(show fieldD w = d from Fin.ext f0), (show fieldA w = a from Fin.ext f1), (show Fin.ofNat 8 (w / 2^8) = pg from Fin.ext f2), (show ElemType.ofCode (w / 2^5) = t from ElemType.ofCode_of f3)]

theorem vfrcp (d : Reg) (a : Reg) (pg : Fin 8) (t : ElemType) : Statement (.vfrcp d a pg t) := by
  intro hwf w e
  obtain ⟨ho, hk, z0, f0, f1, f2, f3⟩ := fields22 34 10 d.val a.val pg.val t.code w (by decide) (by decide) (d.isLt) (a.isLt) (pg.isLt) (ElemType.code_lt t) (Option.some.inj e)
  refine decode_of ?_ hwf
  rw [decodeRaw_34 ho]
  unfold decodeVecFp; rw [hk]
  refine (if_pos z0).trans (congrArg Except.ok ?_)
  show Instr.vfrcp (fieldD w) (fieldA w) (Fin.ofNat 8 (w / 2^8)) (ElemType.ofCode (w / 2^5)) = Instr.vfrcp d a pg t
  rw [(show fieldD w = d from Fin.ext f0), (show fieldA w = a from Fin.ext f1), (show Fin.ofNat 8 (w / 2^8) = pg from Fin.ext f2), (show ElemType.ofCode (w / 2^5) = t from ElemType.ofCode_of f3)]

theorem vfrsq (d : Reg) (a : Reg) (pg : Fin 8) (t : ElemType) : Statement (.vfrsq d a pg t) := by
  intro hwf w e
  obtain ⟨ho, hk, z0, f0, f1, f2, f3⟩ := fields22 34 11 d.val a.val pg.val t.code w (by decide) (by decide) (d.isLt) (a.isLt) (pg.isLt) (ElemType.code_lt t) (Option.some.inj e)
  refine decode_of ?_ hwf
  rw [decodeRaw_34 ho]
  unfold decodeVecFp; rw [hk]
  refine (if_pos z0).trans (congrArg Except.ok ?_)
  show Instr.vfrsq (fieldD w) (fieldA w) (Fin.ofNat 8 (w / 2^8)) (ElemType.ofCode (w / 2^5)) = Instr.vfrsq d a pg t
  rw [(show fieldD w = d from Fin.ext f0), (show fieldA w = a from Fin.ext f1), (show Fin.ofNat 8 (w / 2^8) = pg from Fin.ext f2), (show ElemType.ofCode (w / 2^5) = t from ElemType.ofCode_of f3)]

theorem vfexp2 (d : Reg) (a : Reg) (pg : Fin 8) (t : ElemType) : Statement (.vfexp2 d a pg t) := by
  intro hwf w e
  obtain ⟨ho, hk, z0, f0, f1, f2, f3⟩ := fields22 34 12 d.val a.val pg.val t.code w (by decide) (by decide) (d.isLt) (a.isLt) (pg.isLt) (ElemType.code_lt t) (Option.some.inj e)
  refine decode_of ?_ hwf
  rw [decodeRaw_34 ho]
  unfold decodeVecFp; rw [hk]
  refine (if_pos z0).trans (congrArg Except.ok ?_)
  show Instr.vfexp2 (fieldD w) (fieldA w) (Fin.ofNat 8 (w / 2^8)) (ElemType.ofCode (w / 2^5)) = Instr.vfexp2 d a pg t
  rw [(show fieldD w = d from Fin.ext f0), (show fieldA w = a from Fin.ext f1), (show Fin.ofNat 8 (w / 2^8) = pg from Fin.ext f2), (show ElemType.ofCode (w / 2^5) = t from ElemType.ofCode_of f3)]

theorem vflog2 (d : Reg) (a : Reg) (pg : Fin 8) (t : ElemType) : Statement (.vflog2 d a pg t) := by
  intro hwf w e
  obtain ⟨ho, hk, z0, f0, f1, f2, f3⟩ := fields22 34 13 d.val a.val pg.val t.code w (by decide) (by decide) (d.isLt) (a.isLt) (pg.isLt) (ElemType.code_lt t) (Option.some.inj e)
  refine decode_of ?_ hwf
  rw [decodeRaw_34 ho]
  unfold decodeVecFp; rw [hk]
  refine (if_pos z0).trans (congrArg Except.ok ?_)
  show Instr.vflog2 (fieldD w) (fieldA w) (Fin.ofNat 8 (w / 2^8)) (ElemType.ofCode (w / 2^5)) = Instr.vflog2 d a pg t
  rw [(show fieldD w = d from Fin.ext f0), (show fieldA w = a from Fin.ext f1), (show Fin.ofNat 8 (w / 2^8) = pg from Fin.ext f2), (show ElemType.ofCode (w / 2^5) = t from ElemType.ofCode_of f3)]

theorem vfabs (d : Reg) (a : Reg) (pg : Fin 8) (t : ElemType) : Statement (.vfabs d a pg t) := by
  intro hwf w e
  obtain ⟨ho, hk, z0, f0, f1, f2, f3⟩ := fields22 34 14 d.val a.val pg.val t.code w (by decide) (by decide) (d.isLt) (a.isLt) (pg.isLt) (ElemType.code_lt t) (Option.some.inj e)
  refine decode_of ?_ hwf
  rw [decodeRaw_34 ho]
  unfold decodeVecFp; rw [hk]
  refine (if_pos z0).trans (congrArg Except.ok ?_)
  show Instr.vfabs (fieldD w) (fieldA w) (Fin.ofNat 8 (w / 2^8)) (ElemType.ofCode (w / 2^5)) = Instr.vfabs d a pg t
  rw [(show fieldD w = d from Fin.ext f0), (show fieldA w = a from Fin.ext f1), (show Fin.ofNat 8 (w / 2^8) = pg from Fin.ext f2), (show ElemType.ofCode (w / 2^5) = t from ElemType.ofCode_of f3)]

theorem vfneg (d : Reg) (a : Reg) (pg : Fin 8) (t : ElemType) : Statement (.vfneg d a pg t) := by
  intro hwf w e
  obtain ⟨ho, hk, z0, f0, f1, f2, f3⟩ := fields22 34 15 d.val a.val pg.val t.code w (by decide) (by decide) (d.isLt) (a.isLt) (pg.isLt) (ElemType.code_lt t) (Option.some.inj e)
  refine decode_of ?_ hwf
  rw [decodeRaw_34 ho]
  unfold decodeVecFp; rw [hk]
  refine (if_pos z0).trans (congrArg Except.ok ?_)
  show Instr.vfneg (fieldD w) (fieldA w) (Fin.ofNat 8 (w / 2^8)) (ElemType.ofCode (w / 2^5)) = Instr.vfneg d a pg t
  rw [(show fieldD w = d from Fin.ext f0), (show fieldA w = a from Fin.ext f1), (show Fin.ofNat 8 (w / 2^8) = pg from Fin.ext f2), (show ElemType.ofCode (w / 2^5) = t from ElemType.ofCode_of f3)]

theorem vfcmpeq (d : Fin 8) (a : Reg) (b : Reg) (pg : Fin 8) (t : ElemType) : Statement (.vfcmpeq d a b pg t) := by
  intro hwf w e
  obtain ⟨ho, hk, z0, f0, f1, f2, f3, f4⟩ := fields23 34 16 d.val a.val b.val pg.val t.code w (by decide) (by decide) (d.isLt) (a.isLt) (b.isLt) (pg.isLt) (ElemType.code_lt t) (Option.some.inj e)
  refine decode_of ?_ hwf
  rw [decodeRaw_34 ho]
  unfold decodeVecFp; rw [hk]
  refine (if_pos z0).trans (congrArg Except.ok ?_)
  show Instr.vfcmpeq (Fin.ofNat 8 (w / 2^21)) (fieldA w) (fieldB w) (Fin.ofNat 8 (w / 2^8)) (ElemType.ofCode (w / 2^5)) = Instr.vfcmpeq d a b pg t
  rw [(show Fin.ofNat 8 (w / 2^21) = d from Fin.ext f0), (show fieldA w = a from Fin.ext f1), (show fieldB w = b from Fin.ext f2), (show Fin.ofNat 8 (w / 2^8) = pg from Fin.ext f3), (show ElemType.ofCode (w / 2^5) = t from ElemType.ofCode_of f4)]

theorem vfcmplt (d : Fin 8) (a : Reg) (b : Reg) (pg : Fin 8) (t : ElemType) : Statement (.vfcmplt d a b pg t) := by
  intro hwf w e
  obtain ⟨ho, hk, z0, f0, f1, f2, f3, f4⟩ := fields23 34 17 d.val a.val b.val pg.val t.code w (by decide) (by decide) (d.isLt) (a.isLt) (b.isLt) (pg.isLt) (ElemType.code_lt t) (Option.some.inj e)
  refine decode_of ?_ hwf
  rw [decodeRaw_34 ho]
  unfold decodeVecFp; rw [hk]
  refine (if_pos z0).trans (congrArg Except.ok ?_)
  show Instr.vfcmplt (Fin.ofNat 8 (w / 2^21)) (fieldA w) (fieldB w) (Fin.ofNat 8 (w / 2^8)) (ElemType.ofCode (w / 2^5)) = Instr.vfcmplt d a b pg t
  rw [(show Fin.ofNat 8 (w / 2^21) = d from Fin.ext f0), (show fieldA w = a from Fin.ext f1), (show fieldB w = b from Fin.ext f2), (show Fin.ofNat 8 (w / 2^8) = pg from Fin.ext f3), (show ElemType.ofCode (w / 2^5) = t from ElemType.ofCode_of f4)]

theorem vfcmple (d : Fin 8) (a : Reg) (b : Reg) (pg : Fin 8) (t : ElemType) : Statement (.vfcmple d a b pg t) := by
  intro hwf w e
  obtain ⟨ho, hk, z0, f0, f1, f2, f3, f4⟩ := fields23 34 18 d.val a.val b.val pg.val t.code w (by decide) (by decide) (d.isLt) (a.isLt) (b.isLt) (pg.isLt) (ElemType.code_lt t) (Option.some.inj e)
  refine decode_of ?_ hwf
  rw [decodeRaw_34 ho]
  unfold decodeVecFp; rw [hk]
  refine (if_pos z0).trans (congrArg Except.ok ?_)
  show Instr.vfcmple (Fin.ofNat 8 (w / 2^21)) (fieldA w) (fieldB w) (Fin.ofNat 8 (w / 2^8)) (ElemType.ofCode (w / 2^5)) = Instr.vfcmple d a b pg t
  rw [(show Fin.ofNat 8 (w / 2^21) = d from Fin.ext f0), (show fieldA w = a from Fin.ext f1), (show fieldB w = b from Fin.ext f2), (show Fin.ofNat 8 (w / 2^8) = pg from Fin.ext f3), (show ElemType.ofCode (w / 2^5) = t from ElemType.ofCode_of f4)]

theorem vfcmpun (d : Fin 8) (a : Reg) (b : Reg) (pg : Fin 8) (t : ElemType) : Statement (.vfcmpun d a b pg t) := by
  intro hwf w e
  obtain ⟨ho, hk, z0, f0, f1, f2, f3, f4⟩ := fields23 34 19 d.val a.val b.val pg.val t.code w (by decide) (by decide) (d.isLt) (a.isLt) (b.isLt) (pg.isLt) (ElemType.code_lt t) (Option.some.inj e)
  refine decode_of ?_ hwf
  rw [decodeRaw_34 ho]
  unfold decodeVecFp; rw [hk]
  refine (if_pos z0).trans (congrArg Except.ok ?_)
  show Instr.vfcmpun (Fin.ofNat 8 (w / 2^21)) (fieldA w) (fieldB w) (Fin.ofNat 8 (w / 2^8)) (ElemType.ofCode (w / 2^5)) = Instr.vfcmpun d a b pg t
  rw [(show Fin.ofNat 8 (w / 2^21) = d from Fin.ext f0), (show fieldA w = a from Fin.ext f1), (show fieldB w = b from Fin.ext f2), (show Fin.ofNat 8 (w / 2^8) = pg from Fin.ext f3), (show ElemType.ofCode (w / 2^5) = t from ElemType.ofCode_of f4)]

theorem vresc (d : Reg) (a : Reg) (b : Reg) (pg : Fin 8) (t : ElemType) : Statement (.vresc d a b pg t) := by
  intro hwf w e
  obtain ⟨ho, hk, f0, f1, f2, f3, f4⟩ := fields21 34 20 d.val a.val b.val pg.val t.code w (by decide) (by decide) (d.isLt) (a.isLt) (b.isLt) (pg.isLt) (ElemType.code_lt t) (Option.some.inj e)
  refine decode_of ?_ hwf
  rw [decodeRaw_34 ho]
  unfold decodeVecFp; rw [hk]
  refine congrArg Except.ok ?_
  show Instr.vresc (fieldD w) (fieldA w) (fieldB w) (Fin.ofNat 8 (w / 2^8)) (ElemType.ofCode (w / 2^5)) = Instr.vresc d a b pg t
  rw [(show fieldD w = d from Fin.ext f0), (show fieldA w = a from Fin.ext f1), (show fieldB w = b from Fin.ext f2), (show Fin.ofNat 8 (w / 2^8) = pg from Fin.ext f3), (show ElemType.ofCode (w / 2^5) = t from ElemType.ofCode_of f4)]

theorem vcvtF32I32 (d : Reg) (a : Reg) : Statement (.vcvtF32I32 d a) := by
  intro hwf w e
  obtain ⟨ho, hk, z0, f0, f1⟩ := fields24 35 0 d.val a.val w (by decide) (by decide) (d.isLt) (a.isLt) (Option.some.inj e)
  refine decode_of ?_ hwf
  rw [decodeRaw_35 ho]
  unfold decodeVecConv; rw [hk]
  refine (if_pos z0).trans (congrArg Except.ok ?_)
  show Instr.vcvtF32I32 (fieldD w) (fieldA w) = Instr.vcvtF32I32 d a
  rw [(show fieldD w = d from Fin.ext f0), (show fieldA w = a from Fin.ext f1)]

theorem vcvtI32F32 (d : Reg) (a : Reg) : Statement (.vcvtI32F32 d a) := by
  intro hwf w e
  obtain ⟨ho, hk, z0, f0, f1⟩ := fields24 35 1 d.val a.val w (by decide) (by decide) (d.isLt) (a.isLt) (Option.some.inj e)
  refine decode_of ?_ hwf
  rw [decodeRaw_35 ho]
  unfold decodeVecConv; rw [hk]
  refine (if_pos z0).trans (congrArg Except.ok ?_)
  show Instr.vcvtI32F32 (fieldD w) (fieldA w) = Instr.vcvtI32F32 d a
  rw [(show fieldD w = d from Fin.ext f0), (show fieldA w = a from Fin.ext f1)]

theorem vcvtBf16F32 (d : Reg) (a : Reg) (b : Reg) : Statement (.vcvtBf16F32 d a b) := by
  intro hwf w e
  obtain ⟨ho, hk, z0, f0, f1, f2⟩ := fields25 35 2 d.val a.val b.val w (by decide) (by decide) (d.isLt) (a.isLt) (b.isLt) (Option.some.inj e)
  refine decode_of ?_ hwf
  rw [decodeRaw_35 ho]
  unfold decodeVecConv; rw [hk]
  refine (if_pos z0).trans (congrArg Except.ok ?_)
  show Instr.vcvtBf16F32 (fieldD w) (fieldA w) (fieldB w) = Instr.vcvtBf16F32 d a b
  rw [(show fieldD w = d from Fin.ext f0), (show fieldA w = a from Fin.ext f1), (show fieldB w = b from Fin.ext f2)]

theorem vcvtF32Bf16 (d : Reg) (a : Reg) (h : Fin 2) : Statement (.vcvtF32Bf16 d a h) := by
  intro hwf w e
  obtain ⟨ho, hk, z0, z1, f0, f1, f2⟩ := fields26 35 3 d.val a.val h.val w (by decide) (by decide) (d.isLt) (a.isLt) (h.isLt) (Option.some.inj e)
  refine decode_of ?_ hwf
  rw [decodeRaw_35 ho]
  unfold decodeVecConv; rw [hk]
  refine (if_pos ⟨z0, z1⟩).trans (congrArg Except.ok ?_)
  show Instr.vcvtF32Bf16 (fieldD w) (fieldA w) (Fin.ofNat 2 (w / 2^11)) = Instr.vcvtF32Bf16 d a h
  rw [(show fieldD w = d from Fin.ext f0), (show fieldA w = a from Fin.ext f1), (show Fin.ofNat 2 (w / 2^11) = h from Fin.ext f2)]

theorem vpackLb4 (d : Reg) (a : Reg) (b : Reg) : Statement (.vpackLb4 d a b) := by
  intro hwf w e
  obtain ⟨ho, hk, z0, f0, f1, f2⟩ := fields25 35 4 d.val a.val b.val w (by decide) (by decide) (d.isLt) (a.isLt) (b.isLt) (Option.some.inj e)
  refine decode_of ?_ hwf
  rw [decodeRaw_35 ho]
  unfold decodeVecConv; rw [hk]
  refine (if_pos z0).trans (congrArg Except.ok ?_)
  show Instr.vpackLb4 (fieldD w) (fieldA w) (fieldB w) = Instr.vpackLb4 d a b
  rw [(show fieldD w = d from Fin.ext f0), (show fieldA w = a from Fin.ext f1), (show fieldB w = b from Fin.ext f2)]

theorem vunpkLb4 (d : Reg) (a : Reg) (h : Fin 4) : Statement (.vunpkLb4 d a h) := by
  intro hwf w e
  obtain ⟨ho, hk, z0, z1, f0, f1, f2⟩ := fields27 35 5 d.val a.val h.val w (by decide) (by decide) (d.isLt) (a.isLt) (h.isLt) (Option.some.inj e)
  refine decode_of ?_ hwf
  rw [decodeRaw_35 ho]
  unfold decodeVecConv; rw [hk]
  refine (if_pos ⟨z0, z1⟩).trans (congrArg Except.ok ?_)
  show Instr.vunpkLb4 (fieldD w) (fieldA w) (Fin.ofNat 4 (w / 2^11)) = Instr.vunpkLb4 d a h
  rw [(show fieldD w = d from Fin.ext f0), (show fieldA w = a from Fin.ext f1), (show Fin.ofNat 4 (w / 2^11) = h from Fin.ext f2)]

theorem vpackE4m3 (d : Reg) (a : Reg) (b : Reg) : Statement (.vpackE4m3 d a b) := by
  intro hwf w e
  obtain ⟨ho, hk, z0, f0, f1, f2⟩ := fields25 35 6 d.val a.val b.val w (by decide) (by decide) (d.isLt) (a.isLt) (b.isLt) (Option.some.inj e)
  refine decode_of ?_ hwf
  rw [decodeRaw_35 ho]
  unfold decodeVecConv; rw [hk]
  refine (if_pos z0).trans (congrArg Except.ok ?_)
  show Instr.vpackE4m3 (fieldD w) (fieldA w) (fieldB w) = Instr.vpackE4m3 d a b
  rw [(show fieldD w = d from Fin.ext f0), (show fieldA w = a from Fin.ext f1), (show fieldB w = b from Fin.ext f2)]

theorem vpackE5m2 (d : Reg) (a : Reg) (b : Reg) : Statement (.vpackE5m2 d a b) := by
  intro hwf w e
  obtain ⟨ho, hk, z0, f0, f1, f2⟩ := fields25 35 7 d.val a.val b.val w (by decide) (by decide) (d.isLt) (a.isLt) (b.isLt) (Option.some.inj e)
  refine decode_of ?_ hwf
  rw [decodeRaw_35 ho]
  unfold decodeVecConv; rw [hk]
  refine (if_pos z0).trans (congrArg Except.ok ?_)
  show Instr.vpackE5m2 (fieldD w) (fieldA w) (fieldB w) = Instr.vpackE5m2 d a b
  rw [(show fieldD w = d from Fin.ext f0), (show fieldA w = a from Fin.ext f1), (show fieldB w = b from Fin.ext f2)]

theorem vunpkE4m3 (d : Reg) (a : Reg) (h : Fin 4) : Statement (.vunpkE4m3 d a h) := by
  intro hwf w e
  obtain ⟨ho, hk, z0, z1, f0, f1, f2⟩ := fields27 35 8 d.val a.val h.val w (by decide) (by decide) (d.isLt) (a.isLt) (h.isLt) (Option.some.inj e)
  refine decode_of ?_ hwf
  rw [decodeRaw_35 ho]
  unfold decodeVecConv; rw [hk]
  refine (if_pos ⟨z0, z1⟩).trans (congrArg Except.ok ?_)
  show Instr.vunpkE4m3 (fieldD w) (fieldA w) (Fin.ofNat 4 (w / 2^11)) = Instr.vunpkE4m3 d a h
  rw [(show fieldD w = d from Fin.ext f0), (show fieldA w = a from Fin.ext f1), (show Fin.ofNat 4 (w / 2^11) = h from Fin.ext f2)]

theorem vunpkE5m2 (d : Reg) (a : Reg) (h : Fin 4) : Statement (.vunpkE5m2 d a h) := by
  intro hwf w e
  obtain ⟨ho, hk, z0, z1, f0, f1, f2⟩ := fields27 35 9 d.val a.val h.val w (by decide) (by decide) (d.isLt) (a.isLt) (h.isLt) (Option.some.inj e)
  refine decode_of ?_ hwf
  rw [decodeRaw_35 ho]
  unfold decodeVecConv; rw [hk]
  refine (if_pos ⟨z0, z1⟩).trans (congrArg Except.ok ?_)
  show Instr.vunpkE5m2 (fieldD w) (fieldA w) (Fin.ofNat 4 (w / 2^11)) = Instr.vunpkE5m2 d a h
  rw [(show fieldD w = d from Fin.ext f0), (show fieldA w = a from Fin.ext f1), (show Fin.ofNat 4 (w / 2^11) = h from Fin.ext f2)]

theorem vbcast (d : Reg) (a : Reg) (pg : Fin 8) (t : ElemType) : Statement (.vbcast d a pg t) := by
  intro hwf w e
  obtain ⟨ho, hk, z0, f0, f1, f2, f3⟩ := fields28 36 0 d.val a.val pg.val t.code w (by decide) (by decide) (d.isLt) (a.isLt) (pg.isLt) (ElemType.code_lt t) (Option.some.inj e)
  refine decode_of ?_ hwf
  rw [decodeRaw_36 ho]
  unfold decodeVecPerm; rw [hk]
  refine (if_pos z0).trans (congrArg Except.ok ?_)
  show Instr.vbcast (fieldD w) (fieldA w) (Fin.ofNat 8 (w / 2^8)) (ElemType.ofCode (w / 2^5)) = Instr.vbcast d a pg t
  rw [(show fieldD w = d from Fin.ext f0), (show fieldA w = a from Fin.ext f1), (show Fin.ofNat 8 (w / 2^8) = pg from Fin.ext f2), (show ElemType.ofCode (w / 2^5) = t from ElemType.ofCode_of f3)]

theorem vext (d : Reg) (a : Reg) (b : Reg) (t : ElemType) : Statement (.vext d a b t) := by
  intro hwf w e
  obtain ⟨ho, hk, z0, f0, f1, f2, f3⟩ := fields29 36 1 d.val a.val b.val t.code w (by decide) (by decide) (d.isLt) (a.isLt) (b.isLt) (ElemType.code_lt t) (Option.some.inj e)
  refine decode_of ?_ hwf
  rw [decodeRaw_36 ho]
  unfold decodeVecPerm; rw [hk]
  refine (if_pos z0).trans (congrArg Except.ok ?_)
  show Instr.vext (fieldD w) (fieldA w) (fieldB w) (ElemType.ofCode (w / 2^5)) = Instr.vext d a b t
  rw [(show fieldD w = d from Fin.ext f0), (show fieldA w = a from Fin.ext f1), (show fieldB w = b from Fin.ext f2), (show ElemType.ofCode (w / 2^5) = t from ElemType.ofCode_of f3)]

theorem vins (d : Reg) (a : Reg) (b : Reg) (t : ElemType) : Statement (.vins d a b t) := by
  intro hwf w e
  obtain ⟨ho, hk, z0, f0, f1, f2, f3⟩ := fields29 36 2 d.val a.val b.val t.code w (by decide) (by decide) (d.isLt) (a.isLt) (b.isLt) (ElemType.code_lt t) (Option.some.inj e)
  refine decode_of ?_ hwf
  rw [decodeRaw_36 ho]
  unfold decodeVecPerm; rw [hk]
  refine (if_pos z0).trans (congrArg Except.ok ?_)
  show Instr.vins (fieldD w) (fieldA w) (fieldB w) (ElemType.ofCode (w / 2^5)) = Instr.vins d a b t
  rw [(show fieldD w = d from Fin.ext f0), (show fieldA w = a from Fin.ext f1), (show fieldB w = b from Fin.ext f2), (show ElemType.ofCode (w / 2^5) = t from ElemType.ofCode_of f3)]

theorem vperm (d : Reg) (a : Reg) (b : Reg) (pg : Fin 8) (t : ElemType) : Statement (.vperm d a b pg t) := by
  intro hwf w e
  obtain ⟨ho, hk, f0, f1, f2, f3, f4⟩ := fields30 36 3 d.val a.val b.val pg.val t.code w (by decide) (by decide) (d.isLt) (a.isLt) (b.isLt) (pg.isLt) (ElemType.code_lt t) (Option.some.inj e)
  refine decode_of ?_ hwf
  rw [decodeRaw_36 ho]
  unfold decodeVecPerm; rw [hk]
  refine congrArg Except.ok ?_
  show Instr.vperm (fieldD w) (fieldA w) (fieldB w) (Fin.ofNat 8 (w / 2^8)) (ElemType.ofCode (w / 2^5)) = Instr.vperm d a b pg t
  rw [(show fieldD w = d from Fin.ext f0), (show fieldA w = a from Fin.ext f1), (show fieldB w = b from Fin.ext f2), (show Fin.ofNat 8 (w / 2^8) = pg from Fin.ext f3), (show ElemType.ofCode (w / 2^5) = t from ElemType.ofCode_of f4)]

theorem vslup (d : Reg) (a : Reg) (b : Reg) (pg : Fin 8) (t : ElemType) : Statement (.vslup d a b pg t) := by
  intro hwf w e
  obtain ⟨ho, hk, f0, f1, f2, f3, f4⟩ := fields30 36 4 d.val a.val b.val pg.val t.code w (by decide) (by decide) (d.isLt) (a.isLt) (b.isLt) (pg.isLt) (ElemType.code_lt t) (Option.some.inj e)
  refine decode_of ?_ hwf
  rw [decodeRaw_36 ho]
  unfold decodeVecPerm; rw [hk]
  refine congrArg Except.ok ?_
  show Instr.vslup (fieldD w) (fieldA w) (fieldB w) (Fin.ofNat 8 (w / 2^8)) (ElemType.ofCode (w / 2^5)) = Instr.vslup d a b pg t
  rw [(show fieldD w = d from Fin.ext f0), (show fieldA w = a from Fin.ext f1), (show fieldB w = b from Fin.ext f2), (show Fin.ofNat 8 (w / 2^8) = pg from Fin.ext f3), (show ElemType.ofCode (w / 2^5) = t from ElemType.ofCode_of f4)]

theorem vsldn (d : Reg) (a : Reg) (b : Reg) (pg : Fin 8) (t : ElemType) : Statement (.vsldn d a b pg t) := by
  intro hwf w e
  obtain ⟨ho, hk, f0, f1, f2, f3, f4⟩ := fields30 36 5 d.val a.val b.val pg.val t.code w (by decide) (by decide) (d.isLt) (a.isLt) (b.isLt) (pg.isLt) (ElemType.code_lt t) (Option.some.inj e)
  refine decode_of ?_ hwf
  rw [decodeRaw_36 ho]
  unfold decodeVecPerm; rw [hk]
  refine congrArg Except.ok ?_
  show Instr.vsldn (fieldD w) (fieldA w) (fieldB w) (Fin.ofNat 8 (w / 2^8)) (ElemType.ofCode (w / 2^5)) = Instr.vsldn d a b pg t
  rw [(show fieldD w = d from Fin.ext f0), (show fieldA w = a from Fin.ext f1), (show fieldB w = b from Fin.ext f2), (show Fin.ofNat 8 (w / 2^8) = pg from Fin.ext f3), (show ElemType.ofCode (w / 2^5) = t from ElemType.ofCode_of f4)]

theorem vzip (d : Reg) (a : Reg) (b : Reg) (pg : Fin 8) (t : ElemType) : Statement (.vzip d a b pg t) := by
  intro hwf w e
  obtain ⟨ho, hk, f0, f1, f2, f3, f4⟩ := fields30 36 6 d.val a.val b.val pg.val t.code w (by decide) (by decide) (d.isLt) (a.isLt) (b.isLt) (pg.isLt) (ElemType.code_lt t) (Option.some.inj e)
  refine decode_of ?_ hwf
  rw [decodeRaw_36 ho]
  unfold decodeVecPerm; rw [hk]
  refine congrArg Except.ok ?_
  show Instr.vzip (fieldD w) (fieldA w) (fieldB w) (Fin.ofNat 8 (w / 2^8)) (ElemType.ofCode (w / 2^5)) = Instr.vzip d a b pg t
  rw [(show fieldD w = d from Fin.ext f0), (show fieldA w = a from Fin.ext f1), (show fieldB w = b from Fin.ext f2), (show Fin.ofNat 8 (w / 2^8) = pg from Fin.ext f3), (show ElemType.ofCode (w / 2^5) = t from ElemType.ofCode_of f4)]

theorem vunzip (d : Reg) (a : Reg) (pg : Fin 8) (t : ElemType) : Statement (.vunzip d a pg t) := by
  intro hwf w e
  obtain ⟨ho, hk, z0, f0, f1, f2, f3⟩ := fields28 36 7 d.val a.val pg.val t.code w (by decide) (by decide) (d.isLt) (a.isLt) (pg.isLt) (ElemType.code_lt t) (Option.some.inj e)
  refine decode_of ?_ hwf
  rw [decodeRaw_36 ho]
  unfold decodeVecPerm; rw [hk]
  refine (if_pos z0).trans (congrArg Except.ok ?_)
  show Instr.vunzip (fieldD w) (fieldA w) (Fin.ofNat 8 (w / 2^8)) (ElemType.ofCode (w / 2^5)) = Instr.vunzip d a pg t
  rw [(show fieldD w = d from Fin.ext f0), (show fieldA w = a from Fin.ext f1), (show Fin.ofNat 8 (w / 2^8) = pg from Fin.ext f2), (show ElemType.ofCode (w / 2^5) = t from ElemType.ofCode_of f3)]

theorem vrev (d : Reg) (a : Reg) (pg : Fin 8) (t : ElemType) : Statement (.vrev d a pg t) := by
  intro hwf w e
  obtain ⟨ho, hk, z0, f0, f1, f2, f3⟩ := fields28 36 8 d.val a.val pg.val t.code w (by decide) (by decide) (d.isLt) (a.isLt) (pg.isLt) (ElemType.code_lt t) (Option.some.inj e)
  refine decode_of ?_ hwf
  rw [decodeRaw_36 ho]
  unfold decodeVecPerm; rw [hk]
  refine (if_pos z0).trans (congrArg Except.ok ?_)
  show Instr.vrev (fieldD w) (fieldA w) (Fin.ofNat 8 (w / 2^8)) (ElemType.ofCode (w / 2^5)) = Instr.vrev d a pg t
  rw [(show fieldD w = d from Fin.ext f0), (show fieldA w = a from Fin.ext f1), (show Fin.ofNat 8 (w / 2^8) = pg from Fin.ext f2), (show ElemType.ofCode (w / 2^5) = t from ElemType.ofCode_of f3)]

theorem vsel (d : Reg) (a : Reg) (b : Reg) (pg : Fin 8) (t : ElemType) : Statement (.vsel d a b pg t) := by
  intro hwf w e
  obtain ⟨ho, hk, f0, f1, f2, f3, f4⟩ := fields30 36 9 d.val a.val b.val pg.val t.code w (by decide) (by decide) (d.isLt) (a.isLt) (b.isLt) (pg.isLt) (ElemType.code_lt t) (Option.some.inj e)
  refine decode_of ?_ hwf
  rw [decodeRaw_36 ho]
  unfold decodeVecPerm; rw [hk]
  refine congrArg Except.ok ?_
  show Instr.vsel (fieldD w) (fieldA w) (fieldB w) (Fin.ofNat 8 (w / 2^8)) (ElemType.ofCode (w / 2^5)) = Instr.vsel d a b pg t
  rw [(show fieldD w = d from Fin.ext f0), (show fieldA w = a from Fin.ext f1), (show fieldB w = b from Fin.ext f2), (show Fin.ofNat 8 (w / 2^8) = pg from Fin.ext f3), (show ElemType.ofCode (w / 2^5) = t from ElemType.ofCode_of f4)]

theorem vmov (d : Reg) (a : Reg) (pg : Fin 8) (t : ElemType) : Statement (.vmov d a pg t) := by
  intro hwf w e
  obtain ⟨ho, hk, z0, f0, f1, f2, f3⟩ := fields28 36 10 d.val a.val pg.val t.code w (by decide) (by decide) (d.isLt) (a.isLt) (pg.isLt) (ElemType.code_lt t) (Option.some.inj e)
  refine decode_of ?_ hwf
  rw [decodeRaw_36 ho]
  unfold decodeVecPerm; rw [hk]
  refine (if_pos z0).trans (congrArg Except.ok ?_)
  show Instr.vmov (fieldD w) (fieldA w) (Fin.ofNat 8 (w / 2^8)) (ElemType.ofCode (w / 2^5)) = Instr.vmov d a pg t
  rw [(show fieldD w = d from Fin.ext f0), (show fieldA w = a from Fin.ext f1), (show Fin.ofNat 8 (w / 2^8) = pg from Fin.ext f2), (show ElemType.ofCode (w / 2^5) = t from ElemType.ofCode_of f3)]

theorem pand (d : Fin 8) (a : Fin 8) (b : Fin 8) : Statement (.pand d a b) := by
  intro hwf w e
  obtain ⟨ho, hk, z0, z1, z2, z3, f0, f1, f2⟩ := fields31 37 0 d.val a.val b.val w (by decide) (by decide) (d.isLt) (a.isLt) (b.isLt) (Option.some.inj e)
  refine decode_of ?_ hwf
  rw [decodeRaw_37 ho]
  unfold decodePred; rw [hk]
  refine (if_pos ⟨z0, z1, z2, z3⟩).trans (congrArg Except.ok ?_)
  show Instr.pand (Fin.ofNat 8 (w / 2^21)) (Fin.ofNat 8 (w / 2^16)) (Fin.ofNat 8 (w / 2^11)) = Instr.pand d a b
  rw [(show Fin.ofNat 8 (w / 2^21) = d from Fin.ext f0), (show Fin.ofNat 8 (w / 2^16) = a from Fin.ext f1), (show Fin.ofNat 8 (w / 2^11) = b from Fin.ext f2)]

theorem por (d : Fin 8) (a : Fin 8) (b : Fin 8) : Statement (.por d a b) := by
  intro hwf w e
  obtain ⟨ho, hk, z0, z1, z2, z3, f0, f1, f2⟩ := fields31 37 1 d.val a.val b.val w (by decide) (by decide) (d.isLt) (a.isLt) (b.isLt) (Option.some.inj e)
  refine decode_of ?_ hwf
  rw [decodeRaw_37 ho]
  unfold decodePred; rw [hk]
  refine (if_pos ⟨z0, z1, z2, z3⟩).trans (congrArg Except.ok ?_)
  show Instr.por (Fin.ofNat 8 (w / 2^21)) (Fin.ofNat 8 (w / 2^16)) (Fin.ofNat 8 (w / 2^11)) = Instr.por d a b
  rw [(show Fin.ofNat 8 (w / 2^21) = d from Fin.ext f0), (show Fin.ofNat 8 (w / 2^16) = a from Fin.ext f1), (show Fin.ofNat 8 (w / 2^11) = b from Fin.ext f2)]

theorem pxor (d : Fin 8) (a : Fin 8) (b : Fin 8) : Statement (.pxor d a b) := by
  intro hwf w e
  obtain ⟨ho, hk, z0, z1, z2, z3, f0, f1, f2⟩ := fields31 37 2 d.val a.val b.val w (by decide) (by decide) (d.isLt) (a.isLt) (b.isLt) (Option.some.inj e)
  refine decode_of ?_ hwf
  rw [decodeRaw_37 ho]
  unfold decodePred; rw [hk]
  refine (if_pos ⟨z0, z1, z2, z3⟩).trans (congrArg Except.ok ?_)
  show Instr.pxor (Fin.ofNat 8 (w / 2^21)) (Fin.ofNat 8 (w / 2^16)) (Fin.ofNat 8 (w / 2^11)) = Instr.pxor d a b
  rw [(show Fin.ofNat 8 (w / 2^21) = d from Fin.ext f0), (show Fin.ofNat 8 (w / 2^16) = a from Fin.ext f1), (show Fin.ofNat 8 (w / 2^11) = b from Fin.ext f2)]

theorem pandn (d : Fin 8) (a : Fin 8) (b : Fin 8) : Statement (.pandn d a b) := by
  intro hwf w e
  obtain ⟨ho, hk, z0, z1, z2, z3, f0, f1, f2⟩ := fields31 37 3 d.val a.val b.val w (by decide) (by decide) (d.isLt) (a.isLt) (b.isLt) (Option.some.inj e)
  refine decode_of ?_ hwf
  rw [decodeRaw_37 ho]
  unfold decodePred; rw [hk]
  refine (if_pos ⟨z0, z1, z2, z3⟩).trans (congrArg Except.ok ?_)
  show Instr.pandn (Fin.ofNat 8 (w / 2^21)) (Fin.ofNat 8 (w / 2^16)) (Fin.ofNat 8 (w / 2^11)) = Instr.pandn d a b
  rw [(show Fin.ofNat 8 (w / 2^21) = d from Fin.ext f0), (show Fin.ofNat 8 (w / 2^16) = a from Fin.ext f1), (show Fin.ofNat 8 (w / 2^11) = b from Fin.ext f2)]

theorem pnot (d : Fin 8) (a : Fin 8) : Statement (.pnot d a) := by
  intro hwf w e
  obtain ⟨ho, hk, z0, z1, z2, f0, f1⟩ := fields32 37 4 d.val a.val w (by decide) (by decide) (d.isLt) (a.isLt) (Option.some.inj e)
  refine decode_of ?_ hwf
  rw [decodeRaw_37 ho]
  unfold decodePred; rw [hk]
  refine (if_pos ⟨z0, z1, z2⟩).trans (congrArg Except.ok ?_)
  show Instr.pnot (Fin.ofNat 8 (w / 2^21)) (Fin.ofNat 8 (w / 2^16)) = Instr.pnot d a
  rw [(show Fin.ofNat 8 (w / 2^21) = d from Fin.ext f0), (show Fin.ofNat 8 (w / 2^16) = a from Fin.ext f1)]

theorem pset (d : Fin 8) (a : Reg) (t : ElemType) : Statement (.pset d a t) := by
  intro hwf w e
  obtain ⟨ho, hk, z0, z1, f0, f1, f2⟩ := fields33 37 5 d.val a.val t.code w (by decide) (by decide) (d.isLt) (a.isLt) (ElemType.code_lt t) (Option.some.inj e)
  refine decode_of ?_ hwf
  rw [decodeRaw_37 ho]
  unfold decodePred; rw [hk]
  refine (if_pos ⟨z0, z1⟩).trans (congrArg Except.ok ?_)
  show Instr.pset (Fin.ofNat 8 (w / 2^21)) (fieldA w) (ElemType.ofCode (w / 2^5)) = Instr.pset d a t
  rw [(show Fin.ofNat 8 (w / 2^21) = d from Fin.ext f0), (show fieldA w = a from Fin.ext f1), (show ElemType.ofCode (w / 2^5) = t from ElemType.ofCode_of f2)]

theorem pcnt (d : Reg) (a : Fin 8) (t : ElemType) : Statement (.pcnt d a t) := by
  intro hwf w e
  obtain ⟨ho, hk, z0, z1, f0, f1, f2⟩ := fields34 37 6 d.val a.val t.code w (by decide) (by decide) (d.isLt) (a.isLt) (ElemType.code_lt t) (Option.some.inj e)
  refine decode_of ?_ hwf
  rw [decodeRaw_37 ho]
  unfold decodePred; rw [hk]
  refine (if_pos ⟨z0, z1⟩).trans (congrArg Except.ok ?_)
  show Instr.pcnt (fieldD w) (Fin.ofNat 8 (w / 2^16)) (ElemType.ofCode (w / 2^5)) = Instr.pcnt d a t
  rw [(show fieldD w = d from Fin.ext f0), (show Fin.ofNat 8 (w / 2^16) = a from Fin.ext f1), (show ElemType.ofCode (w / 2^5) = t from ElemType.ofCode_of f2)]

theorem pfirst (d : Reg) (a : Fin 8) (t : ElemType) : Statement (.pfirst d a t) := by
  intro hwf w e
  obtain ⟨ho, hk, z0, z1, f0, f1, f2⟩ := fields34 37 7 d.val a.val t.code w (by decide) (by decide) (d.isLt) (a.isLt) (ElemType.code_lt t) (Option.some.inj e)
  refine decode_of ?_ hwf
  rw [decodeRaw_37 ho]
  unfold decodePred; rw [hk]
  refine (if_pos ⟨z0, z1⟩).trans (congrArg Except.ok ?_)
  show Instr.pfirst (fieldD w) (Fin.ofNat 8 (w / 2^16)) (ElemType.ofCode (w / 2^5)) = Instr.pfirst d a t
  rw [(show fieldD w = d from Fin.ext f0), (show Fin.ofNat 8 (w / 2^16) = a from Fin.ext f1), (show ElemType.ofCode (w / 2^5) = t from ElemType.ofCode_of f2)]

theorem pldm (d : Fin 8) (a : Reg) (b : Reg) (t : ElemType) : Statement (.pldm d a b t) := by
  intro hwf w e
  obtain ⟨ho, hk, z0, z1, f0, f1, f2, f3⟩ := fields35 37 8 d.val a.val b.val t.code w (by decide) (by decide) (d.isLt) (a.isLt) (b.isLt) (ElemType.code_lt t) (Option.some.inj e)
  refine decode_of ?_ hwf
  rw [decodeRaw_37 ho]
  unfold decodePred; rw [hk]
  refine (if_pos ⟨z0, z1⟩).trans (congrArg Except.ok ?_)
  show Instr.pldm (Fin.ofNat 8 (w / 2^21)) (fieldA w) (fieldB w) (ElemType.ofCode (w / 2^5)) = Instr.pldm d a b t
  rw [(show Fin.ofNat 8 (w / 2^21) = d from Fin.ext f0), (show fieldA w = a from Fin.ext f1), (show fieldB w = b from Fin.ext f2), (show ElemType.ofCode (w / 2^5) = t from ElemType.ofCode_of f3)]

theorem pmovx (d : Reg) (a : Fin 8) (t : ElemType) : Statement (.pmovx d a t) := by
  intro hwf w e
  obtain ⟨ho, hk, z0, z1, f0, f1, f2⟩ := fields34 37 9 d.val a.val t.code w (by decide) (by decide) (d.isLt) (a.isLt) (ElemType.code_lt t) (Option.some.inj e)
  refine decode_of ?_ hwf
  rw [decodeRaw_37 ho]
  unfold decodePred; rw [hk]
  refine (if_pos ⟨z0, z1⟩).trans (congrArg Except.ok ?_)
  show Instr.pmovx (fieldD w) (Fin.ofNat 8 (w / 2^16)) (ElemType.ofCode (w / 2^5)) = Instr.pmovx d a t
  rw [(show fieldD w = d from Fin.ext f0), (show Fin.ofNat 8 (w / 2^16) = a from Fin.ext f1), (show ElemType.ofCode (w / 2^5) = t from ElemType.ofCode_of f2)]

theorem pmovp (d : Fin 8) (a : Reg) (t : ElemType) : Statement (.pmovp d a t) := by
  intro hwf w e
  obtain ⟨ho, hk, z0, z1, f0, f1, f2⟩ := fields33 37 10 d.val a.val t.code w (by decide) (by decide) (d.isLt) (a.isLt) (ElemType.code_lt t) (Option.some.inj e)
  refine decode_of ?_ hwf
  rw [decodeRaw_37 ho]
  unfold decodePred; rw [hk]
  refine (if_pos ⟨z0, z1⟩).trans (congrArg Except.ok ?_)
  show Instr.pmovp (Fin.ofNat 8 (w / 2^21)) (fieldA w) (ElemType.ofCode (w / 2^5)) = Instr.pmovp d a t
  rw [(show Fin.ofNat 8 (w / 2^21) = d from Fin.ext f0), (show fieldA w = a from Fin.ext f1), (show ElemType.ofCode (w / 2^5) = t from ElemType.ofCode_of f2)]

theorem vredadd (d : Reg) (a : Reg) (pg : Fin 8) (t : ElemType) : Statement (.vredadd d a pg t) := by
  intro hwf w e
  obtain ⟨ho, hk, z0, f0, f1, f2, f3⟩ := fields36 38 0 d.val a.val pg.val t.code w (by decide) (by decide) (d.isLt) (a.isLt) (pg.isLt) (ElemType.code_lt t) (Option.some.inj e)
  refine decode_of ?_ hwf
  rw [decodeRaw_38 ho]
  unfold decodeVecRed; rw [hk]
  refine (if_pos z0).trans (congrArg Except.ok ?_)
  show Instr.vredadd (fieldD w) (fieldA w) (Fin.ofNat 8 (w / 2^8)) (ElemType.ofCode (w / 2^5)) = Instr.vredadd d a pg t
  rw [(show fieldD w = d from Fin.ext f0), (show fieldA w = a from Fin.ext f1), (show Fin.ofNat 8 (w / 2^8) = pg from Fin.ext f2), (show ElemType.ofCode (w / 2^5) = t from ElemType.ofCode_of f3)]

theorem vredmax (d : Reg) (a : Reg) (pg : Fin 8) (t : ElemType) : Statement (.vredmax d a pg t) := by
  intro hwf w e
  obtain ⟨ho, hk, z0, f0, f1, f2, f3⟩ := fields36 38 1 d.val a.val pg.val t.code w (by decide) (by decide) (d.isLt) (a.isLt) (pg.isLt) (ElemType.code_lt t) (Option.some.inj e)
  refine decode_of ?_ hwf
  rw [decodeRaw_38 ho]
  unfold decodeVecRed; rw [hk]
  refine (if_pos z0).trans (congrArg Except.ok ?_)
  show Instr.vredmax (fieldD w) (fieldA w) (Fin.ofNat 8 (w / 2^8)) (ElemType.ofCode (w / 2^5)) = Instr.vredmax d a pg t
  rw [(show fieldD w = d from Fin.ext f0), (show fieldA w = a from Fin.ext f1), (show Fin.ofNat 8 (w / 2^8) = pg from Fin.ext f2), (show ElemType.ofCode (w / 2^5) = t from ElemType.ofCode_of f3)]

theorem vredmin (d : Reg) (a : Reg) (pg : Fin 8) (t : ElemType) : Statement (.vredmin d a pg t) := by
  intro hwf w e
  obtain ⟨ho, hk, z0, f0, f1, f2, f3⟩ := fields36 38 2 d.val a.val pg.val t.code w (by decide) (by decide) (d.isLt) (a.isLt) (pg.isLt) (ElemType.code_lt t) (Option.some.inj e)
  refine decode_of ?_ hwf
  rw [decodeRaw_38 ho]
  unfold decodeVecRed; rw [hk]
  refine (if_pos z0).trans (congrArg Except.ok ?_)
  show Instr.vredmin (fieldD w) (fieldA w) (Fin.ofNat 8 (w / 2^8)) (ElemType.ofCode (w / 2^5)) = Instr.vredmin d a pg t
  rw [(show fieldD w = d from Fin.ext f0), (show fieldA w = a from Fin.ext f1), (show Fin.ofNat 8 (w / 2^8) = pg from Fin.ext f2), (show ElemType.ofCode (w / 2^5) = t from ElemType.ofCode_of f3)]

theorem vfredadd (d : Reg) (a : Reg) (pg : Fin 8) (t : ElemType) : Statement (.vfredadd d a pg t) := by
  intro hwf w e
  obtain ⟨ho, hk, z0, f0, f1, f2, f3⟩ := fields36 38 3 d.val a.val pg.val t.code w (by decide) (by decide) (d.isLt) (a.isLt) (pg.isLt) (ElemType.code_lt t) (Option.some.inj e)
  refine decode_of ?_ hwf
  rw [decodeRaw_38 ho]
  unfold decodeVecRed; rw [hk]
  refine (if_pos z0).trans (congrArg Except.ok ?_)
  show Instr.vfredadd (fieldD w) (fieldA w) (Fin.ofNat 8 (w / 2^8)) (ElemType.ofCode (w / 2^5)) = Instr.vfredadd d a pg t
  rw [(show fieldD w = d from Fin.ext f0), (show fieldA w = a from Fin.ext f1), (show Fin.ofNat 8 (w / 2^8) = pg from Fin.ext f2), (show ElemType.ofCode (w / 2^5) = t from ElemType.ofCode_of f3)]

theorem vfredmax (d : Reg) (a : Reg) (pg : Fin 8) (t : ElemType) : Statement (.vfredmax d a pg t) := by
  intro hwf w e
  obtain ⟨ho, hk, z0, f0, f1, f2, f3⟩ := fields36 38 4 d.val a.val pg.val t.code w (by decide) (by decide) (d.isLt) (a.isLt) (pg.isLt) (ElemType.code_lt t) (Option.some.inj e)
  refine decode_of ?_ hwf
  rw [decodeRaw_38 ho]
  unfold decodeVecRed; rw [hk]
  refine (if_pos z0).trans (congrArg Except.ok ?_)
  show Instr.vfredmax (fieldD w) (fieldA w) (Fin.ofNat 8 (w / 2^8)) (ElemType.ofCode (w / 2^5)) = Instr.vfredmax d a pg t
  rw [(show fieldD w = d from Fin.ext f0), (show fieldA w = a from Fin.ext f1), (show Fin.ofNat 8 (w / 2^8) = pg from Fin.ext f2), (show ElemType.ofCode (w / 2^5) = t from ElemType.ofCode_of f3)]

theorem vld (d : Reg) (a : Reg) (b : Reg) (pg : Fin 8) (t : ElemType) : Statement (.vld d a b pg t) := by
  intro hwf w e
  obtain ⟨ho, hk, f0, f1, f2, f3, f4⟩ := fields37 39 0 d.val a.val b.val pg.val t.code w (by decide) (by decide) (d.isLt) (a.isLt) (b.isLt) (pg.isLt) (ElemType.code_lt t) (Option.some.inj e)
  refine decode_of ?_ hwf
  rw [decodeRaw_39 ho]
  unfold decodeVecMem; rw [hk]
  refine congrArg Except.ok ?_
  show Instr.vld (fieldD w) (fieldA w) (fieldB w) (Fin.ofNat 8 (w / 2^8)) (ElemType.ofCode (w / 2^5)) = Instr.vld d a b pg t
  rw [(show fieldD w = d from Fin.ext f0), (show fieldA w = a from Fin.ext f1), (show fieldB w = b from Fin.ext f2), (show Fin.ofNat 8 (w / 2^8) = pg from Fin.ext f3), (show ElemType.ofCode (w / 2^5) = t from ElemType.ofCode_of f4)]

theorem vst (d : Reg) (a : Reg) (b : Reg) (pg : Fin 8) (t : ElemType) : Statement (.vst d a b pg t) := by
  intro hwf w e
  obtain ⟨ho, hk, f0, f1, f2, f3, f4⟩ := fields37 39 1 d.val a.val b.val pg.val t.code w (by decide) (by decide) (d.isLt) (a.isLt) (b.isLt) (pg.isLt) (ElemType.code_lt t) (Option.some.inj e)
  refine decode_of ?_ hwf
  rw [decodeRaw_39 ho]
  unfold decodeVecMem; rw [hk]
  refine congrArg Except.ok ?_
  show Instr.vst (fieldD w) (fieldA w) (fieldB w) (Fin.ofNat 8 (w / 2^8)) (ElemType.ofCode (w / 2^5)) = Instr.vst d a b pg t
  rw [(show fieldD w = d from Fin.ext f0), (show fieldA w = a from Fin.ext f1), (show fieldB w = b from Fin.ext f2), (show Fin.ofNat 8 (w / 2^8) = pg from Fin.ext f3), (show ElemType.ofCode (w / 2^5) = t from ElemType.ofCode_of f4)]

theorem vldt (d : Reg) (a : Reg) (b : Reg) (pg : Fin 8) (t : ElemType) : Statement (.vldt d a b pg t) := by
  intro hwf w e
  obtain ⟨ho, hk, f0, f1, f2, f3, f4⟩ := fields37 39 2 d.val a.val b.val pg.val t.code w (by decide) (by decide) (d.isLt) (a.isLt) (b.isLt) (pg.isLt) (ElemType.code_lt t) (Option.some.inj e)
  refine decode_of ?_ hwf
  rw [decodeRaw_39 ho]
  unfold decodeVecMem; rw [hk]
  refine congrArg Except.ok ?_
  show Instr.vldt (fieldD w) (fieldA w) (fieldB w) (Fin.ofNat 8 (w / 2^8)) (ElemType.ofCode (w / 2^5)) = Instr.vldt d a b pg t
  rw [(show fieldD w = d from Fin.ext f0), (show fieldA w = a from Fin.ext f1), (show fieldB w = b from Fin.ext f2), (show Fin.ofNat 8 (w / 2^8) = pg from Fin.ext f3), (show ElemType.ofCode (w / 2^5) = t from ElemType.ofCode_of f4)]

theorem vstt (d : Reg) (a : Reg) (b : Reg) (pg : Fin 8) (t : ElemType) : Statement (.vstt d a b pg t) := by
  intro hwf w e
  obtain ⟨ho, hk, f0, f1, f2, f3, f4⟩ := fields37 39 3 d.val a.val b.val pg.val t.code w (by decide) (by decide) (d.isLt) (a.isLt) (b.isLt) (pg.isLt) (ElemType.code_lt t) (Option.some.inj e)
  refine decode_of ?_ hwf
  rw [decodeRaw_39 ho]
  unfold decodeVecMem; rw [hk]
  refine congrArg Except.ok ?_
  show Instr.vstt (fieldD w) (fieldA w) (fieldB w) (Fin.ofNat 8 (w / 2^8)) (ElemType.ofCode (w / 2^5)) = Instr.vstt d a b pg t
  rw [(show fieldD w = d from Fin.ext f0), (show fieldA w = a from Fin.ext f1), (show fieldB w = b from Fin.ext f2), (show Fin.ofNat 8 (w / 2^8) = pg from Fin.ext f3), (show ElemType.ofCode (w / 2^5) = t from ElemType.ofCode_of f4)]

theorem vgather (d : Reg) (a : Reg) (b : Reg) (pg : Fin 8) (t : ElemType) : Statement (.vgather d a b pg t) := by
  intro hwf w e
  obtain ⟨ho, hk, f0, f1, f2, f3, f4⟩ := fields37 39 4 d.val a.val b.val pg.val t.code w (by decide) (by decide) (d.isLt) (a.isLt) (b.isLt) (pg.isLt) (ElemType.code_lt t) (Option.some.inj e)
  refine decode_of ?_ hwf
  rw [decodeRaw_39 ho]
  unfold decodeVecMem; rw [hk]
  refine congrArg Except.ok ?_
  show Instr.vgather (fieldD w) (fieldA w) (fieldB w) (Fin.ofNat 8 (w / 2^8)) (ElemType.ofCode (w / 2^5)) = Instr.vgather d a b pg t
  rw [(show fieldD w = d from Fin.ext f0), (show fieldA w = a from Fin.ext f1), (show fieldB w = b from Fin.ext f2), (show Fin.ofNat 8 (w / 2^8) = pg from Fin.ext f3), (show ElemType.ofCode (w / 2^5) = t from ElemType.ofCode_of f4)]

theorem vscatter (d : Reg) (a : Reg) (b : Reg) (pg : Fin 8) (t : ElemType) : Statement (.vscatter d a b pg t) := by
  intro hwf w e
  obtain ⟨ho, hk, f0, f1, f2, f3, f4⟩ := fields37 39 5 d.val a.val b.val pg.val t.code w (by decide) (by decide) (d.isLt) (a.isLt) (b.isLt) (pg.isLt) (ElemType.code_lt t) (Option.some.inj e)
  refine decode_of ?_ hwf
  rw [decodeRaw_39 ho]
  unfold decodeVecMem; rw [hk]
  refine congrArg Except.ok ?_
  show Instr.vscatter (fieldD w) (fieldA w) (fieldB w) (Fin.ofNat 8 (w / 2^8)) (ElemType.ofCode (w / 2^5)) = Instr.vscatter d a b pg t
  rw [(show fieldD w = d from Fin.ext f0), (show fieldA w = a from Fin.ext f1), (show fieldB w = b from Fin.ext f2), (show Fin.ofNat 8 (w / 2^8) = pg from Fin.ext f3), (show ElemType.ofCode (w / 2^5) = t from ElemType.ofCode_of f4)]

theorem sbind (k : Fin 4) (a : Reg) (b : Reg) (la : Fin 16) : Statement (.sbind k a b la) := by
  intro hwf w e
  obtain ⟨ho, hk, z0, f0, f1, f2, f3⟩ := fields38 40 0 k.val a.val b.val la.val w (by decide) (by decide) (k.isLt) (a.isLt) (b.isLt) (la.isLt) (Option.some.inj e)
  refine decode_of ?_ hwf
  rw [decodeRaw_40 ho]
  unfold decodeStream; rw [hk]
  refine (if_pos z0).trans (congrArg Except.ok ?_)
  show Instr.sbind (Fin.ofNat 4 (w / 2^21)) (fieldA w) (fieldB w) (Fin.ofNat 16 (w / 2^7)) = Instr.sbind k a b la
  rw [(show Fin.ofNat 4 (w / 2^21) = k from Fin.ext f0), (show fieldA w = a from Fin.ext f1), (show fieldB w = b from Fin.ext f2), (show Fin.ofNat 16 (w / 2^7) = la from Fin.ext f3)]

theorem sunbind (k : Fin 4) (la : Fin 16) : Statement (.sunbind k la) := by
  intro hwf w e
  obtain ⟨ho, hk, z0, z1, f0, f1⟩ := fields39 40 1 k.val la.val w (by decide) (by decide) (k.isLt) (la.isLt) (Option.some.inj e)
  refine decode_of ?_ hwf
  rw [decodeRaw_40 ho]
  unfold decodeStream; rw [hk]
  refine (if_pos ⟨z0, z1⟩).trans (congrArg Except.ok ?_)
  show Instr.sunbind (Fin.ofNat 4 (w / 2^21)) (Fin.ofNat 16 (w / 2^7)) = Instr.sunbind k la
  rw [(show Fin.ofNat 4 (w / 2^21) = k from Fin.ext f0), (show Fin.ofNat 16 (w / 2^7) = la from Fin.ext f1)]

theorem sstat (d : Reg) (k : Fin 4) (la : Fin 16) : Statement (.sstat d k la) := by
  intro hwf w e
  obtain ⟨ho, hk, z0, z1, f0, f1, f2⟩ := fields40 40 2 d.val k.val la.val w (by decide) (by decide) (d.isLt) (k.isLt) (la.isLt) (Option.some.inj e)
  refine decode_of ?_ hwf
  rw [decodeRaw_40 ho]
  unfold decodeStream; rw [hk]
  refine (if_pos ⟨z0, z1⟩).trans (congrArg Except.ok ?_)
  show Instr.sstat (fieldD w) (Fin.ofNat 4 (w / 2^16)) (Fin.ofNat 16 (w / 2^7)) = Instr.sstat d k la
  rw [(show fieldD w = d from Fin.ext f0), (show Fin.ofNat 4 (w / 2^16) = k from Fin.ext f1), (show Fin.ofNat 16 (w / 2^7) = la from Fin.ext f2)]

theorem tal (d : Reg) (a : Reg) (b : Reg) (la : Fin 16) : Statement (.tal d a b la) := by
  intro hwf w e
  obtain ⟨ho, hk, f0, f1, f2, f3⟩ := fields41 41 0 d.val a.val b.val la.val w (by decide) (by decide) (d.isLt) (a.isLt) (b.isLt) (la.isLt) (Option.some.inj e)
  refine decode_of ?_ hwf
  rw [decodeRaw_41 ho]
  unfold decodeTile; rw [hk]
  refine congrArg Except.ok ?_
  show Instr.tal (fieldD w) (fieldA w) (fieldB w) (Fin.ofNat 16 (w / 2^7)) = Instr.tal d a b la
  rw [(show fieldD w = d from Fin.ext f0), (show fieldA w = a from Fin.ext f1), (show fieldB w = b from Fin.ext f2), (show Fin.ofNat 16 (w / 2^7) = la from Fin.ext f3)]

theorem tfree (d : Reg) (a : Reg) (la : Fin 16) : Statement (.tfree d a la) := by
  intro hwf w e
  obtain ⟨ho, hk, z0, f0, f1, f2⟩ := fields42 41 1 d.val a.val la.val w (by decide) (by decide) (d.isLt) (a.isLt) (la.isLt) (Option.some.inj e)
  refine decode_of ?_ hwf
  rw [decodeRaw_41 ho]
  unfold decodeTile; rw [hk]
  refine (if_pos z0).trans (congrArg Except.ok ?_)
  show Instr.tfree (fieldD w) (fieldA w) (Fin.ofNat 16 (w / 2^7)) = Instr.tfree d a la
  rw [(show fieldD w = d from Fin.ext f0), (show fieldA w = a from Fin.ext f1), (show Fin.ofNat 16 (w / 2^7) = la from Fin.ext f2)]

theorem tseal (d : Reg) (a : Reg) (la : Fin 16) : Statement (.tseal d a la) := by
  intro hwf w e
  obtain ⟨ho, hk, z0, f0, f1, f2⟩ := fields42 41 2 d.val a.val la.val w (by decide) (by decide) (d.isLt) (a.isLt) (la.isLt) (Option.some.inj e)
  refine decode_of ?_ hwf
  rw [decodeRaw_41 ho]
  unfold decodeTile; rw [hk]
  refine (if_pos z0).trans (congrArg Except.ok ?_)
  show Instr.tseal (fieldD w) (fieldA w) (Fin.ofNat 16 (w / 2^7)) = Instr.tseal d a la
  rw [(show fieldD w = d from Fin.ext f0), (show fieldA w = a from Fin.ext f1), (show Fin.ofNat 16 (w / 2^7) = la from Fin.ext f2)]

theorem trel (d : Reg) (a : Reg) (la : Fin 16) : Statement (.trel d a la) := by
  intro hwf w e
  obtain ⟨ho, hk, z0, f0, f1, f2⟩ := fields42 41 3 d.val a.val la.val w (by decide) (by decide) (d.isLt) (a.isLt) (la.isLt) (Option.some.inj e)
  refine decode_of ?_ hwf
  rw [decodeRaw_41 ho]
  unfold decodeTile; rw [hk]
  refine (if_pos z0).trans (congrArg Except.ok ?_)
  show Instr.trel (fieldD w) (fieldA w) (Fin.ofNat 16 (w / 2^7)) = Instr.trel d a la
  rw [(show fieldD w = d from Fin.ext f0), (show fieldA w = a from Fin.ext f1), (show Fin.ofNat 16 (w / 2^7) = la from Fin.ext f2)]

theorem tstat (d : Reg) (a : Reg) (la : Fin 16) : Statement (.tstat d a la) := by
  intro hwf w e
  obtain ⟨ho, hk, z0, f0, f1, f2⟩ := fields42 41 4 d.val a.val la.val w (by decide) (by decide) (d.isLt) (a.isLt) (la.isLt) (Option.some.inj e)
  refine decode_of ?_ hwf
  rw [decodeRaw_41 ho]
  unfold decodeTile; rw [hk]
  refine (if_pos z0).trans (congrArg Except.ok ?_)
  show Instr.tstat (fieldD w) (fieldA w) (Fin.ofNat 16 (w / 2^7)) = Instr.tstat d a la
  rw [(show fieldD w = d from Fin.ext f0), (show fieldA w = a from Fin.ext f1), (show Fin.ofNat 16 (w / 2^7) = la from Fin.ext f2)]

theorem cpin (d : Reg) (a : Reg) (b : Reg) (la : Fin 16) : Statement (.cpin d a b la) := by
  intro hwf w e
  obtain ⟨ho, hk, f0, f1, f2, f3⟩ := fields43 42 0 d.val a.val b.val la.val w (by decide) (by decide) (d.isLt) (a.isLt) (b.isLt) (la.isLt) (Option.some.inj e)
  refine decode_of ?_ hwf
  rw [decodeRaw_42 ho]
  unfold decodeCopyist; rw [hk]
  refine congrArg Except.ok ?_
  show Instr.cpin (fieldD w) (fieldA w) (fieldB w) (Fin.ofNat 16 (w / 2^7)) = Instr.cpin d a b la
  rw [(show fieldD w = d from Fin.ext f0), (show fieldA w = a from Fin.ext f1), (show fieldB w = b from Fin.ext f2), (show Fin.ofNat 16 (w / 2^7) = la from Fin.ext f3)]

theorem cpout (d : Reg) (a : Reg) (b : Reg) (la : Fin 16) : Statement (.cpout d a b la) := by
  intro hwf w e
  obtain ⟨ho, hk, f0, f1, f2, f3⟩ := fields43 42 1 d.val a.val b.val la.val w (by decide) (by decide) (d.isLt) (a.isLt) (b.isLt) (la.isLt) (Option.some.inj e)
  refine decode_of ?_ hwf
  rw [decodeRaw_42 ho]
  unfold decodeCopyist; rw [hk]
  refine congrArg Except.ok ?_
  show Instr.cpout (fieldD w) (fieldA w) (fieldB w) (Fin.ofNat 16 (w / 2^7)) = Instr.cpout d a b la
  rw [(show fieldD w = d from Fin.ext f0), (show fieldA w = a from Fin.ext f1), (show fieldB w = b from Fin.ext f2), (show Fin.ofNat 16 (w / 2^7) = la from Fin.ext f3)]

theorem cpg (d : Reg) (a : Reg) (b : Reg) (la : Fin 16) : Statement (.cpg d a b la) := by
  intro hwf w e
  obtain ⟨ho, hk, f0, f1, f2, f3⟩ := fields43 42 2 d.val a.val b.val la.val w (by decide) (by decide) (d.isLt) (a.isLt) (b.isLt) (la.isLt) (Option.some.inj e)
  refine decode_of ?_ hwf
  rw [decodeRaw_42 ho]
  unfold decodeCopyist; rw [hk]
  refine congrArg Except.ok ?_
  show Instr.cpg (fieldD w) (fieldA w) (fieldB w) (Fin.ofNat 16 (w / 2^7)) = Instr.cpg d a b la
  rw [(show fieldD w = d from Fin.ext f0), (show fieldA w = a from Fin.ext f1), (show fieldB w = b from Fin.ext f2), (show Fin.ofNat 16 (w / 2^7) = la from Fin.ext f3)]

theorem cpx (d : Reg) (a : Reg) (b : Reg) (la : Fin 16) : Statement (.cpx d a b la) := by
  intro hwf w e
  obtain ⟨ho, hk, f0, f1, f2, f3⟩ := fields43 42 3 d.val a.val b.val la.val w (by decide) (by decide) (d.isLt) (a.isLt) (b.isLt) (la.isLt) (Option.some.inj e)
  refine decode_of ?_ hwf
  rw [decodeRaw_42 ho]
  unfold decodeCopyist; rw [hk]
  refine congrArg Except.ok ?_
  show Instr.cpx (fieldD w) (fieldA w) (fieldB w) (Fin.ofNat 16 (w / 2^7)) = Instr.cpx d a b la
  rw [(show fieldD w = d from Fin.ext f0), (show fieldA w = a from Fin.ext f1), (show fieldB w = b from Fin.ext f2), (show Fin.ofNat 16 (w / 2^7) = la from Fin.ext f3)]

theorem cpstat (d : Reg) (a : Reg) (la : Fin 16) : Statement (.cpstat d a la) := by
  intro hwf w e
  obtain ⟨ho, hk, z0, f0, f1, f2⟩ := fields44 42 4 d.val a.val la.val w (by decide) (by decide) (d.isLt) (a.isLt) (la.isLt) (Option.some.inj e)
  refine decode_of ?_ hwf
  rw [decodeRaw_42 ho]
  unfold decodeCopyist; rw [hk]
  refine (if_pos z0).trans (congrArg Except.ok ?_)
  show Instr.cpstat (fieldD w) (fieldA w) (Fin.ofNat 16 (w / 2^7)) = Instr.cpstat d a la
  rw [(show fieldD w = d from Fin.ext f0), (show fieldA w = a from Fin.ext f1), (show Fin.ofNat 16 (w / 2^7) = la from Fin.ext f2)]

theorem tgpost (d : Reg) (a : Reg) (la : Fin 16) : Statement (.tgpost d a la) := by
  intro hwf w e
  obtain ⟨ho, hk, z0, f0, f1, f2⟩ := fields45 43 0 d.val a.val la.val w (by decide) (by decide) (d.isLt) (a.isLt) (la.isLt) (Option.some.inj e)
  refine decode_of ?_ hwf
  rw [decodeRaw_43 ho]
  unfold decodeGraph; rw [hk]
  refine (if_pos z0).trans (congrArg Except.ok ?_)
  show Instr.tgpost (fieldD w) (fieldA w) (Fin.ofNat 16 (w / 2^7)) = Instr.tgpost d a la
  rw [(show fieldD w = d from Fin.ext f0), (show fieldA w = a from Fin.ext f1), (show Fin.ofNat 16 (w / 2^7) = la from Fin.ext f2)]

theorem tgwait (d : Reg) (a : Reg) (la : Fin 16) : Statement (.tgwait d a la) := by
  intro hwf w e
  obtain ⟨ho, hk, z0, f0, f1, f2⟩ := fields45 43 1 d.val a.val la.val w (by decide) (by decide) (d.isLt) (a.isLt) (la.isLt) (Option.some.inj e)
  refine decode_of ?_ hwf
  rw [decodeRaw_43 ho]
  unfold decodeGraph; rw [hk]
  refine (if_pos z0).trans (congrArg Except.ok ?_)
  show Instr.tgwait (fieldD w) (fieldA w) (Fin.ofNat 16 (w / 2^7)) = Instr.tgwait d a la
  rw [(show fieldD w = d from Fin.ext f0), (show fieldA w = a from Fin.ext f1), (show Fin.ofNat 16 (w / 2^7) = la from Fin.ext f2)]

theorem tgstat (d : Reg) (a : Reg) (la : Fin 16) : Statement (.tgstat d a la) := by
  intro hwf w e
  obtain ⟨ho, hk, z0, f0, f1, f2⟩ := fields45 43 2 d.val a.val la.val w (by decide) (by decide) (d.isLt) (a.isLt) (la.isLt) (Option.some.inj e)
  refine decode_of ?_ hwf
  rw [decodeRaw_43 ho]
  unfold decodeGraph; rw [hk]
  refine (if_pos z0).trans (congrArg Except.ok ?_)
  show Instr.tgstat (fieldD w) (fieldA w) (Fin.ofNat 16 (w / 2^7)) = Instr.tgstat d a la
  rw [(show fieldD w = d from Fin.ext f0), (show fieldA w = a from Fin.ext f1), (show Fin.ofNat 16 (w / 2^7) = la from Fin.ext f2)]

theorem mxg (k : Fin 16) (a : Reg) (la : Fin 16) : Statement (.mxg k a la) := by
  intro hwf w e
  obtain ⟨ho, hk, z0, z1, f0, f1, f2⟩ := fields46 44 0 k.val a.val la.val w (by decide) (by decide) (k.isLt) (a.isLt) (la.isLt) (Option.some.inj e)
  refine decode_of ?_ hwf
  rw [decodeRaw_44 ho]
  unfold decodeMatrix; rw [hk]
  refine (if_pos ⟨z0, z1⟩).trans (congrArg Except.ok ?_)
  show Instr.mxg (Fin.ofNat 16 (w / 2^21)) (fieldA w) (Fin.ofNat 16 (w / 2^7)) = Instr.mxg k a la
  rw [(show Fin.ofNat 16 (w / 2^21) = k from Fin.ext f0), (show fieldA w = a from Fin.ext f1), (show Fin.ofNat 16 (w / 2^7) = la from Fin.ext f2)]

theorem mxr (d : Reg) (k : Fin 16) (la : Fin 16) : Statement (.mxr d k la) := by
  intro hwf w e
  obtain ⟨ho, hk, z0, z1, f0, f1, f2⟩ := fields47 44 1 d.val k.val la.val w (by decide) (by decide) (d.isLt) (k.isLt) (la.isLt) (Option.some.inj e)
  refine decode_of ?_ hwf
  rw [decodeRaw_44 ho]
  unfold decodeMatrix; rw [hk]
  refine (if_pos ⟨z0, z1⟩).trans (congrArg Except.ok ?_)
  show Instr.mxr (fieldD w) (Fin.ofNat 16 (w / 2^16)) (Fin.ofNat 16 (w / 2^7)) = Instr.mxr d k la
  rw [(show fieldD w = d from Fin.ext f0), (show Fin.ofNat 16 (w / 2^16) = k from Fin.ext f1), (show Fin.ofNat 16 (w / 2^7) = la from Fin.ext f2)]

theorem mwld (a : Reg) (b : Reg) (la : Fin 16) : Statement (.mwld a b la) := by
  intro hwf w e
  obtain ⟨ho, hk, z0, f0, f1, f2⟩ := fields48 44 2 a.val b.val la.val w (by decide) (by decide) (a.isLt) (b.isLt) (la.isLt) (Option.some.inj e)
  refine decode_of ?_ hwf
  rw [decodeRaw_44 ho]
  unfold decodeMatrix; rw [hk]
  refine (if_pos z0).trans (congrArg Except.ok ?_)
  show Instr.mwld (fieldA w) (fieldB w) (Fin.ofNat 16 (w / 2^7)) = Instr.mwld a b la
  rw [(show fieldA w = a from Fin.ext f0), (show fieldB w = b from Fin.ext f1), (show Fin.ofNat 16 (w / 2^7) = la from Fin.ext f2)]

theorem mwswap (la : Fin 16) : Statement (.mwswap la) := by
  intro hwf w e
  obtain ⟨ho, hk, z0, f0⟩ := fields49 44 3 la.val w (by decide) (by decide) (la.isLt) (Option.some.inj e)
  refine decode_of ?_ hwf
  rw [decodeRaw_44 ho]
  unfold decodeMatrix; rw [hk]
  refine (if_pos z0).trans (congrArg Except.ok ?_)
  show Instr.mwswap (Fin.ofNat 16 (w / 2^7)) = Instr.mwswap la
  rw [(show Fin.ofNat 16 (w / 2^7) = la from Fin.ext f0)]

theorem mmul (nc : Bool) (z : Fin 4) (a : Reg) (b : Reg) (la : Fin 16) : Statement (.mmul nc z a b la) := by
  intro hwf w e
  obtain ⟨ho, hk, z0, f0, f1, f2, f3, f4⟩ := fields50 44 4 nc.toNat z.val a.val b.val la.val w (by decide) (by decide) (boolToNat_lt nc) (z.isLt) (a.isLt) (b.isLt) (la.isLt) (Option.some.inj e)
  refine decode_of ?_ hwf
  rw [decodeRaw_44 ho]
  unfold decodeMatrix; rw [hk]
  refine (if_pos z0).trans (congrArg Except.ok ?_)
  show Instr.mmul (bitOf w 23) (Fin.ofNat 4 (w / 2^21)) (fieldA w) (fieldB w) (Fin.ofNat 16 (w / 2^7)) = Instr.mmul nc z a b la
  rw [(show bitOf w 23 = nc from bitOf_of f0), (show Fin.ofNat 4 (w / 2^21) = z from Fin.ext f1), (show fieldA w = a from Fin.ext f2), (show fieldB w = b from Fin.ext f3), (show Fin.ofNat 16 (w / 2^7) = la from Fin.ext f4)]

theorem mzero (z : Fin 4) (la : Fin 16) : Statement (.mzero z la) := by
  intro hwf w e
  obtain ⟨ho, hk, z0, z1, f0, f1⟩ := fields51 44 5 z.val la.val w (by decide) (by decide) (z.isLt) (la.isLt) (Option.some.inj e)
  refine decode_of ?_ hwf
  rw [decodeRaw_44 ho]
  unfold decodeMatrix; rw [hk]
  refine (if_pos ⟨z0, z1⟩).trans (congrArg Except.ok ?_)
  show Instr.mzero (Fin.ofNat 4 (w / 2^21)) (Fin.ofNat 16 (w / 2^7)) = Instr.mzero z la
  rw [(show Fin.ofNat 4 (w / 2^21) = z from Fin.ext f0), (show Fin.ofNat 16 (w / 2^7) = la from Fin.ext f1)]

theorem mzdrn (z : Fin 4) (a : Reg) (f : DrainFmt) (la : Fin 16) : Statement (.mzdrn z a f la) := by
  intro hwf w e
  obtain ⟨ho, hk, z0, z1, f0, f1, f2, f3⟩ := fields52 44 6 z.val a.val f.code la.val w (by decide) (by decide) (z.isLt) (a.isLt) (DrainFmt.code_lt f) (la.isLt) (Option.some.inj e)
  refine decode_of ?_ hwf
  rw [decodeRaw_44 ho]
  unfold decodeMatrix; rw [hk]
  refine (if_pos ⟨z0, z1⟩).trans ?_
  rw [DrainFmt.ofCode?_of f2]
  refine congrArg Except.ok ?_
  show Instr.mzdrn (Fin.ofNat 4 (w / 2^21)) (fieldA w) f (Fin.ofNat 16 (w / 2^7)) = Instr.mzdrn z a f la
  rw [(show Fin.ofNat 4 (w / 2^21) = z from Fin.ext f0), (show fieldA w = a from Fin.ext f1), (show Fin.ofNat 16 (w / 2^7) = la from Fin.ext f3)]

theorem mstat (d : Reg) (la : Fin 16) : Statement (.mstat d la) := by
  intro hwf w e
  obtain ⟨ho, hk, z0, f0, f1⟩ := fields53 44 7 d.val la.val w (by decide) (by decide) (d.isLt) (la.isLt) (Option.some.inj e)
  refine decode_of ?_ hwf
  rw [decodeRaw_44 ho]
  unfold decodeMatrix; rw [hk]
  refine (if_pos z0).trans (congrArg Except.ok ?_)
  show Instr.mstat (fieldD w) (Fin.ofNat 16 (w / 2^7)) = Instr.mstat d la
  rw [(show fieldD w = d from Fin.ext f0), (show Fin.ofNat 16 (w / 2^7) = la from Fin.ext f1)]

theorem msnd (d : Reg) (a : Reg) (b : Reg) (la : Fin 16) : Statement (.msnd d a b la) := by
  intro hwf w e
  obtain ⟨ho, hk, f0, f1, f2, f3⟩ := fields54 45 0 d.val a.val b.val la.val w (by decide) (by decide) (d.isLt) (a.isLt) (b.isLt) (la.isLt) (Option.some.inj e)
  refine decode_of ?_ hwf
  rw [decodeRaw_45 ho]
  unfold decodeMessage; rw [hk]
  refine congrArg Except.ok ?_
  show Instr.msnd (fieldD w) (fieldA w) (fieldB w) (Fin.ofNat 16 (w / 2^7)) = Instr.msnd d a b la
  rw [(show fieldD w = d from Fin.ext f0), (show fieldA w = a from Fin.ext f1), (show fieldB w = b from Fin.ext f2), (show Fin.ofNat 16 (w / 2^7) = la from Fin.ext f3)]

theorem msnds (d : Reg) (a : Reg) (b : Reg) (la : Fin 16) : Statement (.msnds d a b la) := by
  intro hwf w e
  obtain ⟨ho, hk, f0, f1, f2, f3⟩ := fields54 45 1 d.val a.val b.val la.val w (by decide) (by decide) (d.isLt) (a.isLt) (b.isLt) (la.isLt) (Option.some.inj e)
  refine decode_of ?_ hwf
  rw [decodeRaw_45 ho]
  unfold decodeMessage; rw [hk]
  refine congrArg Except.ok ?_
  show Instr.msnds (fieldD w) (fieldA w) (fieldB w) (Fin.ofNat 16 (w / 2^7)) = Instr.msnds d a b la
  rw [(show fieldD w = d from Fin.ext f0), (show fieldA w = a from Fin.ext f1), (show fieldB w = b from Fin.ext f2), (show Fin.ofNat 16 (w / 2^7) = la from Fin.ext f3)]

theorem mrcv (d : Reg) (a : Reg) (la : Fin 16) : Statement (.mrcv d a la) := by
  intro hwf w e
  obtain ⟨ho, hk, z0, f0, f1, f2⟩ := fields55 45 2 d.val a.val la.val w (by decide) (by decide) (d.isLt) (a.isLt) (la.isLt) (Option.some.inj e)
  refine decode_of ?_ hwf
  rw [decodeRaw_45 ho]
  unfold decodeMessage; rw [hk]
  refine (if_pos z0).trans (congrArg Except.ok ?_)
  show Instr.mrcv (fieldD w) (fieldA w) (Fin.ofNat 16 (w / 2^7)) = Instr.mrcv d a la
  rw [(show fieldD w = d from Fin.ext f0), (show fieldA w = a from Fin.ext f1), (show Fin.ofNat 16 (w / 2^7) = la from Fin.ext f2)]

theorem mpeek (d : Reg) (a : Reg) (la : Fin 16) : Statement (.mpeek d a la) := by
  intro hwf w e
  obtain ⟨ho, hk, z0, f0, f1, f2⟩ := fields55 45 3 d.val a.val la.val w (by decide) (by decide) (d.isLt) (a.isLt) (la.isLt) (Option.some.inj e)
  refine decode_of ?_ hwf
  rw [decodeRaw_45 ho]
  unfold decodeMessage; rw [hk]
  refine (if_pos z0).trans (congrArg Except.ok ?_)
  show Instr.mpeek (fieldD w) (fieldA w) (Fin.ofNat 16 (w / 2^7)) = Instr.mpeek d a la
  rw [(show fieldD w = d from Fin.ext f0), (show fieldA w = a from Fin.ext f1), (show Fin.ofNat 16 (w / 2^7) = la from Fin.ext f2)]

theorem mcommit (d : Reg) (la : Fin 16) : Statement (.mcommit d la) := by
  intro hwf w e
  obtain ⟨ho, hk, z0, f0, f1⟩ := fields56 45 4 d.val la.val w (by decide) (by decide) (d.isLt) (la.isLt) (Option.some.inj e)
  refine decode_of ?_ hwf
  rw [decodeRaw_45 ho]
  unfold decodeMessage; rw [hk]
  refine (if_pos z0).trans (congrArg Except.ok ?_)
  show Instr.mcommit (fieldD w) (Fin.ofNat 16 (w / 2^7)) = Instr.mcommit d la
  rw [(show fieldD w = d from Fin.ext f0), (show Fin.ofNat 16 (w / 2^7) = la from Fin.ext f1)]

theorem mabort (d : Reg) (la : Fin 16) : Statement (.mabort d la) := by
  intro hwf w e
  obtain ⟨ho, hk, z0, f0, f1⟩ := fields56 45 5 d.val la.val w (by decide) (by decide) (d.isLt) (la.isLt) (Option.some.inj e)
  refine decode_of ?_ hwf
  rw [decodeRaw_45 ho]
  unfold decodeMessage; rw [hk]
  refine (if_pos z0).trans (congrArg Except.ok ?_)
  show Instr.mabort (fieldD w) (Fin.ofNat 16 (w / 2^7)) = Instr.mabort d la
  rw [(show fieldD w = d from Fin.ext f0), (show Fin.ofNat 16 (w / 2^7) = la from Fin.ext f1)]

theorem barArrive (g : Fin 4) : Statement (.barArrive g) := by
  intro hwf w e
  obtain ⟨ho, hk, z0, z1, f0⟩ := fields57 46 0 g.val w (by decide) (by decide) (g.isLt) (Option.some.inj e)
  refine decode_of ?_ hwf
  rw [decodeRaw_46 ho]
  unfold decodeBarrier; rw [hk]
  refine (if_pos ⟨z0, z1⟩).trans (congrArg Except.ok ?_)
  show Instr.barArrive (Fin.ofNat 4 (w / 2^11)) = Instr.barArrive g
  rw [(show Fin.ofNat 4 (w / 2^11) = g from Fin.ext f0)]

theorem barWait (g : Fin 4) : Statement (.barWait g) := by
  intro hwf w e
  obtain ⟨ho, hk, z0, z1, f0⟩ := fields57 46 1 g.val w (by decide) (by decide) (g.isLt) (Option.some.inj e)
  refine decode_of ?_ hwf
  rw [decodeRaw_46 ho]
  unfold decodeBarrier; rw [hk]
  refine (if_pos ⟨z0, z1⟩).trans (congrArg Except.ok ?_)
  show Instr.barWait (Fin.ofNat 4 (w / 2^11)) = Instr.barWait g
  rw [(show Fin.ofNat 4 (w / 2^11) = g from Fin.ext f0)]

theorem barVote (d : Reg) (a : Reg) (g : Fin 4) : Statement (.barVote d a g) := by
  intro hwf w e
  obtain ⟨ho, hk, z0, z1, f0, f1, f2⟩ := fields58 46 2 d.val a.val g.val w (by decide) (by decide) (d.isLt) (a.isLt) (g.isLt) (Option.some.inj e)
  refine decode_of ?_ hwf
  rw [decodeRaw_46 ho]
  unfold decodeBarrier; rw [hk]
  refine (if_pos ⟨z0, z1⟩).trans (congrArg Except.ok ?_)
  show Instr.barVote (fieldD w) (fieldA w) (Fin.ofNat 4 (w / 2^11)) = Instr.barVote d a g
  rw [(show fieldD w = d from Fin.ext f0), (show fieldA w = a from Fin.ext f1), (show Fin.ofNat 4 (w / 2^11) = g from Fin.ext f2)]

theorem hstart (d : Reg) (a : Reg) (b : Reg) : Statement (.hstart d a b) := by
  intro hwf w e
  obtain ⟨ho, hk, z0, f0, f1, f2⟩ := fields59 47 0 d.val a.val b.val w (by decide) (by decide) (d.isLt) (a.isLt) (b.isLt) (Option.some.inj e)
  refine decode_of ?_ hwf
  rw [decodeRaw_47 ho]
  unfold decodeHelper; rw [hk]
  refine (if_pos z0).trans (congrArg Except.ok ?_)
  show Instr.hstart (fieldD w) (fieldA w) (fieldB w) = Instr.hstart d a b
  rw [(show fieldD w = d from Fin.ext f0), (show fieldA w = a from Fin.ext f1), (show fieldB w = b from Fin.ext f2)]

theorem hjoin (d : Reg) (a : Reg) (la : Fin 16) : Statement (.hjoin d a la) := by
  intro hwf w e
  obtain ⟨ho, hk, z0, f0, f1, f2⟩ := fields60 47 1 d.val a.val la.val w (by decide) (by decide) (d.isLt) (a.isLt) (la.isLt) (Option.some.inj e)
  refine decode_of ?_ hwf
  rw [decodeRaw_47 ho]
  unfold decodeHelper; rw [hk]
  refine (if_pos z0).trans (congrArg Except.ok ?_)
  show Instr.hjoin (fieldD w) (fieldA w) (Fin.ofNat 16 (w / 2^7)) = Instr.hjoin d a la
  rw [(show fieldD w = d from Fin.ext f0), (show fieldA w = a from Fin.ext f1), (show Fin.ofNat 16 (w / 2^7) = la from Fin.ext f2)]

theorem hexit : Statement .hexit := by
  intro hwf w e
  cases e
  rfl

theorem hstat (d : Reg) : Statement (.hstat d) := by
  intro hwf w e
  obtain ⟨ho, hk, z0, f0⟩ := fields61 47 3 d.val w (by decide) (by decide) (d.isLt) (Option.some.inj e)
  refine decode_of ?_ hwf
  rw [decodeRaw_47 ho]
  unfold decodeHelper; rw [hk]
  refine (if_pos z0).trans (congrArg Except.ok ?_)
  show Instr.hstat (fieldD w) = Instr.hstat d
  rw [(show fieldD w = d from Fin.ext f0)]

theorem lnch (d : Reg) (a : Reg) (la : Fin 16) : Statement (.lnch d a la) := by
  intro hwf w e
  obtain ⟨ho, hk, z0, f0, f1, f2⟩ := fields60 47 4 d.val a.val la.val w (by decide) (by decide) (d.isLt) (a.isLt) (la.isLt) (Option.some.inj e)
  refine decode_of ?_ hwf
  rw [decodeRaw_47 ho]
  unfold decodeHelper; rw [hk]
  refine (if_pos z0).trans (congrArg Except.ok ?_)
  show Instr.lnch (fieldD w) (fieldA w) (Fin.ofNat 16 (w / 2^7)) = Instr.lnch d a la
  rw [(show fieldD w = d from Fin.ext f0), (show fieldA w = a from Fin.ext f1), (show Fin.ofNat 16 (w / 2^7) = la from Fin.ext f2)]

theorem lwait (d : Reg) (a : Reg) (la : Fin 16) : Statement (.lwait d a la) := by
  intro hwf w e
  obtain ⟨ho, hk, z0, f0, f1, f2⟩ := fields60 47 5 d.val a.val la.val w (by decide) (by decide) (d.isLt) (a.isLt) (la.isLt) (Option.some.inj e)
  refine decode_of ?_ hwf
  rw [decodeRaw_47 ho]
  unfold decodeHelper; rw [hk]
  refine (if_pos z0).trans (congrArg Except.ok ?_)
  show Instr.lwait (fieldD w) (fieldA w) (Fin.ofNat 16 (w / 2^7)) = Instr.lwait d a la
  rw [(show fieldD w = d from Fin.ext f0), (show fieldA w = a from Fin.ext f1), (show Fin.ofNat 16 (w / 2^7) = la from Fin.ext f2)]

theorem stmc (d : Reg) (a : Reg) (b : Reg) (la : Fin 16) : Statement (.stmc d a b la) := by
  intro hwf w e
  obtain ⟨ho, hk, f0, f1, f2, f3⟩ := fields62 48 0 d.val a.val b.val la.val w (by decide) (by decide) (d.isLt) (a.isLt) (b.isLt) (la.isLt) (Option.some.inj e)
  refine decode_of ?_ hwf
  rw [decodeRaw_48 ho]
  unfold decodeFabric; rw [hk]
  refine congrArg Except.ok ?_
  show Instr.stmc (fieldD w) (fieldA w) (fieldB w) (Fin.ofNat 16 (w / 2^7)) = Instr.stmc d a b la
  rw [(show fieldD w = d from Fin.ext f0), (show fieldA w = a from Fin.ext f1), (show fieldB w = b from Fin.ext f2), (show Fin.ofNat 16 (w / 2^7) = la from Fin.ext f3)]

theorem coll (d : Reg) (a : Reg) (la : Fin 16) : Statement (.coll d a la) := by
  intro hwf w e
  obtain ⟨ho, hk, z0, f0, f1, f2⟩ := fields63 48 1 d.val a.val la.val w (by decide) (by decide) (d.isLt) (a.isLt) (la.isLt) (Option.some.inj e)
  refine decode_of ?_ hwf
  rw [decodeRaw_48 ho]
  unfold decodeFabric; rw [hk]
  refine (if_pos z0).trans (congrArg Except.ok ?_)
  show Instr.coll (fieldD w) (fieldA w) (Fin.ofNat 16 (w / 2^7)) = Instr.coll d a la
  rw [(show fieldD w = d from Fin.ext f0), (show fieldA w = a from Fin.ext f1), (show Fin.ofNat 16 (w / 2^7) = la from Fin.ext f2)]

theorem collwait (d : Reg) (a : Reg) (la : Fin 16) : Statement (.collwait d a la) := by
  intro hwf w e
  obtain ⟨ho, hk, z0, f0, f1, f2⟩ := fields63 48 2 d.val a.val la.val w (by decide) (by decide) (d.isLt) (a.isLt) (la.isLt) (Option.some.inj e)
  refine decode_of ?_ hwf
  rw [decodeRaw_48 ho]
  unfold decodeFabric; rw [hk]
  refine (if_pos z0).trans (congrArg Except.ok ?_)
  show Instr.collwait (fieldD w) (fieldA w) (Fin.ofNat 16 (w / 2^7)) = Instr.collwait d a la
  rw [(show fieldD w = d from Fin.ext f0), (show fieldA w = a from Fin.ext f1), (show Fin.ofNat 16 (w / 2^7) = la from Fin.ext f2)]

theorem give (d : Reg) (a : Reg) (b : Reg) (la : Fin 16) : Statement (.give d a b la) := by
  intro hwf w e
  obtain ⟨ho, hk, f0, f1, f2, f3⟩ := fields64 49 0 d.val a.val b.val la.val w (by decide) (by decide) (d.isLt) (a.isLt) (b.isLt) (la.isLt) (Option.some.inj e)
  refine decode_of ?_ hwf
  rw [decodeRaw_49 ho]
  unfold decodeOwn; rw [hk]
  refine congrArg Except.ok ?_
  show Instr.give (fieldD w) (fieldA w) (fieldB w) (Fin.ofNat 16 (w / 2^7)) = Instr.give d a b la
  rw [(show fieldD w = d from Fin.ext f0), (show fieldA w = a from Fin.ext f1), (show fieldB w = b from Fin.ext f2), (show Fin.ofNat 16 (w / 2^7) = la from Fin.ext f3)]

theorem accept (d : Reg) (a : Reg) (b : Reg) (la : Fin 16) : Statement (.accept d a b la) := by
  intro hwf w e
  obtain ⟨ho, hk, f0, f1, f2, f3⟩ := fields64 49 1 d.val a.val b.val la.val w (by decide) (by decide) (d.isLt) (a.isLt) (b.isLt) (la.isLt) (Option.some.inj e)
  refine decode_of ?_ hwf
  rw [decodeRaw_49 ho]
  unfold decodeOwn; rw [hk]
  refine congrArg Except.ok ?_
  show Instr.accept (fieldD w) (fieldA w) (fieldB w) (Fin.ofNat 16 (w / 2^7)) = Instr.accept d a b la
  rw [(show fieldD w = d from Fin.ext f0), (show fieldA w = a from Fin.ext f1), (show fieldB w = b from Fin.ext f2), (show Fin.ofNat 16 (w / 2^7) = la from Fin.ext f3)]

theorem lend (d : Reg) (a : Reg) (b : Reg) (la : Fin 16) : Statement (.lend d a b la) := by
  intro hwf w e
  obtain ⟨ho, hk, f0, f1, f2, f3⟩ := fields64 49 2 d.val a.val b.val la.val w (by decide) (by decide) (d.isLt) (a.isLt) (b.isLt) (la.isLt) (Option.some.inj e)
  refine decode_of ?_ hwf
  rw [decodeRaw_49 ho]
  unfold decodeOwn; rw [hk]
  refine congrArg Except.ok ?_
  show Instr.lend (fieldD w) (fieldA w) (fieldB w) (Fin.ofNat 16 (w / 2^7)) = Instr.lend d a b la
  rw [(show fieldD w = d from Fin.ext f0), (show fieldA w = a from Fin.ext f1), (show fieldB w = b from Fin.ext f2), (show Fin.ofNat 16 (w / 2^7) = la from Fin.ext f3)]

theorem reclaim (d : Reg) (a : Reg) (b : Reg) (la : Fin 16) : Statement (.reclaim d a b la) := by
  intro hwf w e
  obtain ⟨ho, hk, f0, f1, f2, f3⟩ := fields64 49 3 d.val a.val b.val la.val w (by decide) (by decide) (d.isLt) (a.isLt) (b.isLt) (la.isLt) (Option.some.inj e)
  refine decode_of ?_ hwf
  rw [decodeRaw_49 ho]
  unfold decodeOwn; rw [hk]
  refine congrArg Except.ok ?_
  show Instr.reclaim (fieldD w) (fieldA w) (fieldB w) (Fin.ofNat 16 (w / 2^7)) = Instr.reclaim d a b la
  rw [(show fieldD w = d from Fin.ext f0), (show fieldA w = a from Fin.ext f1), (show fieldB w = b from Fin.ext f2), (show Fin.ofNat 16 (w / 2^7) = la from Fin.ext f3)]

theorem ownq (d : Reg) (a : Reg) (la : Fin 16) : Statement (.ownq d a la) := by
  intro hwf w e
  obtain ⟨ho, hk, z0, f0, f1, f2⟩ := fields65 49 4 d.val a.val la.val w (by decide) (by decide) (d.isLt) (a.isLt) (la.isLt) (Option.some.inj e)
  refine decode_of ?_ hwf
  rw [decodeRaw_49 ho]
  unfold decodeOwn; rw [hk]
  refine (if_pos z0).trans (congrArg Except.ok ?_)
  show Instr.ownq (fieldD w) (fieldA w) (Fin.ofNat 16 (w / 2^7)) = Instr.ownq d a la
  rw [(show fieldD w = d from Fin.ext f0), (show fieldA w = a from Fin.ext f1), (show Fin.ofNat 16 (w / 2^7) = la from Fin.ext f2)]

theorem omake (d : Reg) (la : Fin 16) : Statement (.omake d la) := by
  intro hwf w e
  obtain ⟨ho, hk, z0, f0, f1⟩ := fields66 49 5 d.val la.val w (by decide) (by decide) (d.isLt) (la.isLt) (Option.some.inj e)
  refine decode_of ?_ hwf
  rw [decodeRaw_49 ho]
  unfold decodeOwn; rw [hk]
  refine (if_pos z0).trans (congrArg Except.ok ?_)
  show Instr.omake (fieldD w) (Fin.ofNat 16 (w / 2^7)) = Instr.omake d la
  rw [(show fieldD w = d from Fin.ext f0), (show Fin.ofNat 16 (w / 2^7) = la from Fin.ext f1)]

theorem evict (d : Reg) (a : Reg) (b : Reg) (la : Fin 16) : Statement (.evict d a b la) := by
  intro hwf w e
  obtain ⟨ho, hk, f0, f1, f2, f3⟩ := fields64 49 6 d.val a.val b.val la.val w (by decide) (by decide) (d.isLt) (a.isLt) (b.isLt) (la.isLt) (Option.some.inj e)
  refine decode_of ?_ hwf
  rw [decodeRaw_49 ho]
  unfold decodeOwn; rw [hk]
  refine congrArg Except.ok ?_
  show Instr.evict (fieldD w) (fieldA w) (fieldB w) (Fin.ofNat 16 (w / 2^7)) = Instr.evict d a b la
  rw [(show fieldD w = d from Fin.ext f0), (show fieldA w = a from Fin.ext f1), (show fieldB w = b from Fin.ext f2), (show Fin.ofNat 16 (w / 2^7) = la from Fin.ext f3)]

theorem crr (d : Reg) (ix : BitVec 12) : Statement (.crr d ix) := by
  intro hwf w e
  obtain ⟨ho, hk, z0, z1, f0, f1⟩ := fields67 50 0 d.val ix.toNat w (by decide) (by decide) (d.isLt) (ix.isLt) (Option.some.inj e)
  refine decode_of ?_ hwf
  rw [decodeRaw_50 ho]
  unfold decodeControl; rw [hk]
  refine (if_pos ⟨z0, z1⟩).trans (congrArg Except.ok ?_)
  show Instr.crr (fieldD w) (BitVec.ofNat 12 w) = Instr.crr d ix
  rw [(show fieldD w = d from Fin.ext f0), (show BitVec.ofNat 12 w = ix from ofNat_of f1)]

theorem crw (d : Reg) (a : Reg) (ix : BitVec 12) : Statement (.crw d a ix) := by
  intro hwf w e
  obtain ⟨ho, hk, z0, f0, f1, f2⟩ := fields68 50 1 d.val a.val ix.toNat w (by decide) (by decide) (d.isLt) (a.isLt) (ix.isLt) (Option.some.inj e)
  refine decode_of ?_ hwf
  rw [decodeRaw_50 ho]
  unfold decodeControl; rw [hk]
  refine (if_pos z0).trans (congrArg Except.ok ?_)
  show Instr.crw (fieldD w) (fieldA w) (BitVec.ofNat 12 w) = Instr.crw d a ix
  rw [(show fieldD w = d from Fin.ext f0), (show fieldA w = a from Fin.ext f1), (show BitVec.ofNat 12 w = ix from ofNat_of f2)]

theorem crs (d : Reg) (a : Reg) (ix : BitVec 12) : Statement (.crs d a ix) := by
  intro hwf w e
  obtain ⟨ho, hk, z0, f0, f1, f2⟩ := fields68 50 2 d.val a.val ix.toNat w (by decide) (by decide) (d.isLt) (a.isLt) (ix.isLt) (Option.some.inj e)
  refine decode_of ?_ hwf
  rw [decodeRaw_50 ho]
  unfold decodeControl; rw [hk]
  refine (if_pos z0).trans (congrArg Except.ok ?_)
  show Instr.crs (fieldD w) (fieldA w) (BitVec.ofNat 12 w) = Instr.crs d a ix
  rw [(show fieldD w = d from Fin.ext f0), (show fieldA w = a from Fin.ext f1), (show BitVec.ofNat 12 w = ix from ofNat_of f2)]

theorem crc (d : Reg) (a : Reg) (ix : BitVec 12) : Statement (.crc d a ix) := by
  intro hwf w e
  obtain ⟨ho, hk, z0, f0, f1, f2⟩ := fields68 50 3 d.val a.val ix.toNat w (by decide) (by decide) (d.isLt) (a.isLt) (ix.isLt) (Option.some.inj e)
  refine decode_of ?_ hwf
  rw [decodeRaw_50 ho]
  unfold decodeControl; rw [hk]
  refine (if_pos z0).trans (congrArg Except.ok ?_)
  show Instr.crc (fieldD w) (fieldA w) (BitVec.ofNat 12 w) = Instr.crc d a ix
  rw [(show fieldD w = d from Fin.ext f0), (show fieldA w = a from Fin.ext f1), (show BitVec.ofNat 12 w = ix from ofNat_of f2)]

theorem trap (a : Reg) : Statement (.trap a) := by
  intro hwf w e
  obtain ⟨ho, hk, z0, z1, f0⟩ := fields69 51 0 a.val w (by decide) (by decide) (a.isLt) (Option.some.inj e)
  refine decode_of ?_ hwf
  rw [decodeRaw_51 ho]
  unfold decodeSystem; rw [hk]
  refine (if_pos ⟨z0, z1⟩).trans (congrArg Except.ok ?_)
  show Instr.trap (fieldA w) = Instr.trap a
  rw [(show fieldA w = a from Fin.ext f0)]

theorem tret : Statement .tret := by
  intro hwf w e
  cases e
  rfl

theorem brk : Statement .brk := by
  intro hwf w e
  cases e
  rfl

theorem halt : Statement .halt := by
  intro hwf w e
  cases e
  rfl

theorem wfe (a : Reg) : Statement (.wfe a) := by
  intro hwf w e
  obtain ⟨ho, hk, z0, z1, f0⟩ := fields69 51 4 a.val w (by decide) (by decide) (a.isLt) (Option.some.inj e)
  refine decode_of ?_ hwf
  rw [decodeRaw_51 ho]
  unfold decodeSystem; rw [hk]
  refine (if_pos ⟨z0, z1⟩).trans (congrArg Except.ok ?_)
  show Instr.wfe (fieldA w) = Instr.wfe a
  rw [(show fieldA w = a from Fin.ext f0)]

theorem nop : Statement .nop := by
  intro hwf w e
  cases e
  rfl

theorem solo : Statement .solo := by
  intro hwf w e
  cases e
  rfl

theorem mxovf : Statement .mxovf := fun _ _ e => nomatch e

theorem launchPlace (src : LaunchSrc) : Statement (.launchPlace src) := fun _ _ e => nomatch e

theorem rankEnd (k : RankKey) : Statement (.rankEnd k) := fun _ _ e => nomatch e

theorem launchComplete (l : Nat) : Statement (.launchComplete l) := fun _ _ e => nomatch e

theorem deadlinePassed (l : Nat) : Statement (.deadlinePassed l) := fun _ _ e => nomatch e

theorem doorbell (port : HostPort) (owner : Nat) (q : Nat) (tail : Nat) : Statement (.doorbell port owner q tail) := fun _ _ e => nomatch e

theorem queueDescriptorWrite (owner : Nat) (q : Nat) (ix : Fin 3) (v : Word) : Statement (.queueDescriptorWrite owner q ix v) := fun _ _ e => nomatch e

theorem bindRecordWrite (slot : Nat) (rec : BindRec) : Statement (.bindRecordWrite slot rec) := fun _ _ e => nomatch e

theorem bindRecordDeferred (slot : Nat) : Statement (.bindRecordDeferred slot) := fun _ _ e => nomatch e

theorem coreVacate (core : Nat) : Statement (.coreVacate core) := fun _ _ e => nomatch e

theorem rankResume (core : Nat) : Statement (.rankResume core) := fun _ _ e => nomatch e

theorem arrivalCounted (k : RankKey) (g : Fin 4) : Statement (.arrivalCounted k g) := fun _ _ e => nomatch e

theorem barrierRelease (launch : Nat) (group : Nat) : Statement (.barrierRelease launch group) := fun _ _ e => nomatch e

theorem haltGroupStop (h : Fin 16) : Statement (.haltGroupStop h) := fun _ _ e => nomatch e

theorem debugStop (core : Nat) : Statement (.debugStop core) := fun _ _ e => nomatch e

theorem debugResume (core : Nat) : Statement (.debugResume core) := fun _ _ e => nomatch e

theorem powerLimitWrite (which : PowerLimit) (v : Nat) : Statement (.powerLimitWrite which v) := fun _ _ e => nomatch e

theorem powerMeasure (draw : Nat) (temp : Nat) : Statement (.powerMeasure draw temp) := fun _ _ e => nomatch e

theorem fewaitTimeout (k : RankKey) (ctx : Nat) : Statement (.fewaitTimeout k ctx) := fun _ _ e => nomatch e

theorem faultReplyPoll (n : Nat) : Statement (.faultReplyPoll n) := fun _ _ e => nomatch e

theorem faultRecordTimeout (n : Nat) : Statement (.faultRecordTimeout n) := fun _ _ e => nomatch e

theorem replicaCommit : Statement .replicaCommit := fun _ _ e => nomatch e

theorem flush (page : Nat) : Statement (.flush page) := fun _ _ e => nomatch e

theorem flushComplete (owner : Nat) : Statement (.flushComplete owner) := fun _ _ e => nomatch e

theorem moveStart (page : Nat) (v : Word) : Statement (.moveStart page v) := fun _ _ e => nomatch e

theorem moveCopyDone : Statement .moveCopyDone := fun _ _ e => nomatch e

theorem moveDoneClear (page : Nat) (v : Word) : Statement (.moveDoneClear page v) := fun _ _ e => nomatch e

theorem tileClearEnd (k : RankKey) (h : Fin 128) : Statement (.tileClearEnd k h) := fun _ _ e => nomatch e

theorem tileReadsEnd (k : RankKey) (h : Fin 128) : Statement (.tileReadsEnd k h) := fun _ _ e => nomatch e

theorem clusterTileEndFree (launch : Nat) : Statement (.clusterTileEndFree launch) := fun _ _ e => nomatch e

theorem copyStart (ch : Nat) : Statement (.copyStart ch) := fun _ _ e => nomatch e

theorem copyChunkEnd (ch : Nat) : Statement (.copyChunkEnd ch) := fun _ _ e => nomatch e

theorem matrixOpStart (k : RankKey) : Statement (.matrixOpStart k) := fun _ _ e => nomatch e

theorem pairCycle (k : RankKey) : Statement (.pairCycle k) := fun _ _ e => nomatch e

theorem matrixOpEnd (k : RankKey) : Statement (.matrixOpEnd k) := fun _ _ e => nomatch e

theorem drainEnd (k : RankKey) : Statement (.drainEnd k) := fun _ _ e => nomatch e

theorem graphNodeStart (k : RankKey) (slot : Nat) (node : Nat) : Statement (.graphNodeStart k slot node) := fun _ _ e => nomatch e

theorem graphNodeFinish (k : RankKey) (slot : Nat) (node : Nat) : Statement (.graphNodeFinish k slot node) := fun _ _ e => nomatch e

theorem messageDeliver (n : Nat) : Statement (.messageDeliver n) := fun _ _ e => nomatch e

theorem queueRung (q : Nat) : Statement (.queueRung q) := fun _ _ e => nomatch e

theorem contextRung (t : ContextTarget) : Statement (.contextRung t) := fun _ _ e => nomatch e

theorem engineRung (t : EngineTarget) : Statement (.engineRung t) := fun _ _ e => nomatch e

theorem partitionRung (owner : Nat) : Statement (.partitionRung owner) := fun _ _ e => nomatch e

theorem deviceRung : Statement .deviceRung := fun _ _ e => nomatch e

theorem rungTimeout (n : Nat) : Statement (.rungTimeout n) := fun _ _ e => nomatch e

theorem bringUp : Statement .bringUp := fun _ _ e => nomatch e

theorem portGive (page : Nat) : Statement (.portGive page) := fun _ _ e => nomatch e

theorem portAccept (page : Nat) : Statement (.portAccept page) := fun _ _ e => nomatch e

theorem portLend (page : Nat) : Statement (.portLend page) := fun _ _ e => nomatch e

theorem portReclaim (page : Nat) : Statement (.portReclaim page) := fun _ _ e => nomatch e

theorem portOwnq (page : Nat) : Statement (.portOwnq page) := fun _ _ e => nomatch e

theorem portOmake (page : Nat) : Statement (.portOmake page) := fun _ _ e => nomatch e

theorem portEvict (page : Nat) : Statement (.portEvict page) := fun _ _ e => nomatch e

theorem trootWrite (page : Nat) (v : Word) : Statement (.trootWrite page v) := fun _ _ e => nomatch e

theorem mkeyidWrite (page : Nat) (v : Word) : Statement (.mkeyidWrite page v) := fun _ _ e => nomatch e

theorem vfset (page : Nat) (v : Word) : Statement (.vfset page v) := fun _ _ e => nomatch e

theorem enrol (page : Nat) (v : Word) : Statement (.enrol page v) := fun _ _ e => nomatch e

theorem plotkey (page : Nat) (v : Word) : Statement (.plotkey page v) := fun _ _ e => nomatch e

theorem attest (page : Nat) (v : Word) : Statement (.attest page v) := fun _ _ e => nomatch e

theorem mcrecWrite (page : Nat) (off : Nat) (v : Word) : Statement (.mcrecWrite page off v) := fun _ _ e => nomatch e

theorem registerWrite (sp : RegSpace) (off : Nat) (v : Word) : Statement (.registerWrite sp off v) := fun _ _ e => nomatch e

theorem leaseexpWrite (port : HostPort) (v : Word) : Statement (.leaseexpWrite port v) := fun _ _ e => nomatch e

theorem leaseExpire : Statement .leaseExpire := fun _ _ e => nomatch e

theorem vfEnableClear (port : HostPort) : Statement (.vfEnableClear port) := fun _ _ e => nomatch e

theorem cxlMemRead (vf : Nat) (addr : Word) : Statement (.cxlMemRead vf addr) := fun _ _ e => nomatch e

theorem cxlMemWrite (vf : Nat) (addr : Word) (v : Word) : Statement (.cxlMemWrite vf addr v) := fun _ _ e => nomatch e

theorem getVersion : Statement .getVersion := fun _ _ e => nomatch e

theorem getCapabilities : Statement .getCapabilities := fun _ _ e => nomatch e

theorem negotiateAlgorithms : Statement .negotiateAlgorithms := fun _ _ e => nomatch e

theorem getDigests : Statement .getDigests := fun _ _ e => nomatch e

theorem getCertificate (slot : Nat) : Statement (.getCertificate slot) := fun _ _ e => nomatch e

theorem challenge (nonce : Word) : Statement (.challenge nonce) := fun _ _ e => nomatch e

theorem getMeasurements (ix : Nat) : Statement (.getMeasurements ix) := fun _ _ e => nomatch e

theorem accessLogInterval : Statement .accessLogInterval := fun _ _ e => nomatch e

theorem logSeal : Statement .logSeal := fun _ _ e => nomatch e

theorem flitReceive (port : Nat) (f : Flit) : Statement (.flitReceive port f) := fun _ _ e => nomatch e

theorem replayRequest (port : Nat) (lseq : Nat) : Statement (.replayRequest port lseq) := fun _ _ e => nomatch e

theorem linkOutOfService (port : Nat) : Statement (.linkOutOfService port) := fun _ _ e => nomatch e

theorem spareRetrain : Statement .spareRetrain := fun _ _ e => nomatch e

theorem packetInject (id : Nat) : Statement (.packetInject id) := fun _ _ e => nomatch e

theorem packetResend (id : Nat) : Statement (.packetResend id) := fun _ _ e => nomatch e

theorem packetDeliver (sagent pseq : Nat) (r : RemoteReq) : Statement (.packetDeliver sagent pseq r) := fun _ _ e => nomatch e

theorem lossyBlockArrive (b : LossyBlock) : Statement (.lossyBlockArrive b) := fun _ _ e => nomatch e

theorem lossyClose (src : Nat) (xfer : Nat) : Statement (.lossyClose src xfer) := fun _ _ e => nomatch e

theorem remoteRequest (r : RemoteReq) : Statement (.remoteRequest r) := fun _ _ e => nomatch e

theorem remoteCompletion (id : Nat) (status : Nat) (data : Word) : Statement (.remoteCompletion id status data) := fun _ _ e => nomatch e

theorem remoteDeadline (id : Nat) : Statement (.remoteDeadline id) := fun _ _ e => nomatch e

theorem stmcReply (id : Nat) (failed : Word) : Statement (.stmcReply id failed) := fun _ _ e => nomatch e

theorem stmcAckTimeout (id : Nat) (branch : Word) : Statement (.stmcAckTimeout id branch) := fun _ _ e => nomatch e

theorem collCombine (id : Nat) (level : Nat) (j : Nat) (legs : List LegIn) : Statement (.collCombine id level j legs) := fun _ _ e => nomatch e

theorem collResult (group : Nat) (count : Nat) (leg : Option LegIn) : Statement (.collResult group count leg) := fun _ _ e => nomatch e

theorem collFaultTimeout (id : Nat) (missing : Word) : Statement (.collFaultTimeout id missing) := fun _ _ e => nomatch e

theorem collHeldDiscard (group : Nat) (count : Nat) : Statement (.collHeldDiscard group count) := fun _ _ e => nomatch e

theorem collCloseTimeout (id : Nat) : Statement (.collCloseTimeout id) := fun _ _ e => nomatch e

theorem atomicMerge (i : Nat) (j : Nat) : Statement (.atomicMerge i j) := fun _ _ e => nomatch e

theorem atomicMergeTimeout (i : Nat) : Statement (.atomicMergeTimeout i) := fun _ _ e => nomatch e

theorem timeFlit (ref : Nat) : Statement (.timeFlit ref) := fun _ _ e => nomatch e

theorem scrcache (line : Nat) (dirty : Bool) : Statement (.scrcache line dirty) := fun _ _ e => nomatch e

theorem fwbound (a : FwAttempt) : Statement (.fwbound a) := fun _ _ e => nomatch e

theorem scriptoriumAccess (a : ScrAccess) : Statement (.scriptoriumAccess a) := fun _ _ e => nomatch e

theorem vfEnableSet (port : HostPort) : Statement (.vfEnableSet port) := fun _ _ e => nomatch e

theorem hostAccessLeaseTimeout (k : RankKey) (ctx : Nat) : Statement (.hostAccessLeaseTimeout k ctx) := fun _ _ e => nomatch e

theorem arbiterGrant (arb : Nat) : Statement (.arbiterGrant arb) := fun _ _ e => nomatch e

end RoundTrip

end Sys2Proof.Laws
end

