-- ==== Sys2Proof/Tests/Slice0.lean ====
section
/-! SUPPORT. The tests of the model: ill-formed terms that well-formedness refuses, words of the spec's encodings decoded, single
steps whose results come from the spec's text, and for each statement of Certificates/Slice0 a state that meets its hypotheses. -/

namespace Sys2Proof.Tests

open Sys2Proof Sys2Proof.Machine

/-! ### Well-formedness (R131 to R142): one ill-formed term for each check -/

theorem test_wf_bes_bit : Instr.wf (.bes 25 true 0) = false ∧ Instr.wf (.bes 24 true 0) = true := by decide

theorem test_wf_ldo_order : Instr.wf (.ldo 1 2 0 .dev .rel .d .none false) = false
    ∧ Instr.wf (.ldo 1 2 0 .dev .acqrel .d .none false) = false ∧ Instr.wf (.ldo 1 2 0 .dev .acq .d .none false) = true := by decide

theorem test_wf_ldo_mode : Instr.wf (.ldo 1 2 0 .dev .relaxed .d .swe false) = false
    ∧ Instr.wf (.ldo 1 2 0 .dev .relaxed .w .lwt false) = false ∧ Instr.wf (.ldo 1 2 0 .dev .relaxed .d .lwt false) = true := by decide

theorem test_wf_ldo_invariant : Instr.wf (.ldo 1 2 0 .dev .acq .d .none true) = false
    ∧ Instr.wf (.ldo 1 2 0 .dev .relaxed .d .lwf true) = false ∧ Instr.wf (.ldo 1 2 0 .dev .relaxed .b .none true) = true := by decide

theorem test_wf_sto_order : Instr.wf (.sto 1 2 0 .dev .acq .d .none) = false ∧ Instr.wf (.sto 1 2 0 .dev .rel .d .none) = true := by
  decide

theorem test_wf_sto_mode : Instr.wf (.sto 1 2 0 .dev .relaxed .d .lwf) = false ∧ Instr.wf (.sto 1 2 0 .dev .relaxed .h .swe) = false
    ∧ Instr.wf (.sto 1 2 0 .dev .relaxed .d .se) = false ∧ Instr.wf (.sto 0 2 0 .dev .relaxed .d .se) = true := by decide

theorem test_wf_xfence : Instr.wf (.xfence 0 1 .dev) = false ∧ Instr.wf (.xfence 1 0 .dev) = false
    ∧ Instr.wf (.xfence 1 1 .dev) = true := by decide

theorem test_wf_integer_type : Instr.wf (.vadd 1 2 3 0 .f32) = false ∧ Instr.wf (.vcmpeq 1 2 3 0 .bf16) = false
    ∧ Instr.wf (.vredadd 1 2 0 .e4m3) = false ∧ Instr.wf (.vadd 1 2 3 0 .i64) = true := by decide

theorem test_wf_float_type : Instr.wf (.vfadd 1 2 3 0 .i32) = false ∧ Instr.wf (.vfcmpeq 1 2 3 0 .i8) = false
    ∧ Instr.wf (.vfredadd 1 2 0 .e5m2) = false ∧ Instr.wf (.vfadd 1 2 3 0 .bf16) = true := by decide

theorem test_wf_message_register : Instr.wf (.msnd 28 1 2 0) = false ∧ Instr.wf (.msnds 31 1 2 0) = false
    ∧ Instr.wf (.mrcv 30 1 0) = false ∧ Instr.wf (.mrcv 27 1 0) = true := by decide

theorem test_wf_control_register : Instr.wf (.crr 1 0x00C) = false ∧ Instr.wf (.crw 1 2 0x035) = false
    ∧ Instr.wf (.crs 1 2 0x051) = false ∧ Instr.wf (.crc 1 2 0x04B) = false ∧ Instr.wf (.crr 1 0x050) = true := by decide

/-! ### Words of the encodings (R131 to R142), field by field from bit 31 down -/

/-- What a word decodes to. -/
def read (w : BitVec 32) : Option Instr := (decode w.toNat).toOption

/-- Whether a word is none of the instruction set. -/
def rejected (w : BitVec 32) : Bool := (read w).isNone


/-- R140, R154; div x10, x11, x12 ^3. -/
theorem test_decode_integer_divide : read 0b000001_01010_01011_01100_0011_0010110 = some (.div 10 11 12 3) := by decide

/-- R152; csel x5, x6, x7. -/
theorem test_decode_integer_select : read 0b000001_00101_00110_00111_00000100010 = some (.csel 5 6 7) := by decide

/-- R153; sraw x1, x2, x3. -/
theorem test_decode_word_shift : read 0b000010_00001_00010_00011_00000000100 = some (.sraw 1 2 3) := by decide

/-- R155; slti x3, x4, -1. -/
theorem test_decode_immediate : read 0b000111_00011_00100_1111111111111111 = some (.slti 3 4 0xFFFF) := by decide

/-- R135; rori x1, x2, 63. -/
theorem test_decode_shift_immediate : read 0b001001_00001_00010_00000000_11_111111 = some (.rori 1 2 63) := by decide

/-- R155; lsh x5, 0xBCDE. -/
theorem test_decode_constant : read 0b001011_00101_00000_1011110011011110 = some (.lsh 5 0xBCDE) := by decide

/-- R135; bgeu x1, x2, -1 word. -/
theorem test_decode_branch : read 0b001101_00001_00010_101_1111111111111 = some (.bgeu 1 2 0x1FFF) := by decide

/-- R132; j -1 word. -/
theorem test_decode_jump : read 0b001111_11111111111111111111111111 = some (.j 0x3FFFFFF) := by decide

/-- R158; bes 16, 0, -3 words. -/
theorem test_decode_bes : read 0b010001_010000_0_1111111111111111101 = some (.bes 16 false 0x7FFFD) := by decide

/-- R159; ld.w x9, [x2 - 8]. -/
theorem test_decode_load : read 0b010100_01001_00010_1111111111111000 = some (.ldW 9 2 0xFFF8) := by decide

/-- R159; st.d x31, [x1]. -/
theorem test_decode_store : read 0b011100_11111_00001_0000000000000000 = some (.stD 31 1 0) := by decide

/-- R138; ldo.acq.dev x9, [x6]. -/
theorem test_decode_ordered_load : read 0b011101_01001_00110_0000_011_01_11_000_0_0 = some (.ldo 9 6 0 .dev .acq .d .none false) := by decide

/-- R162; sto.sf.rel.dev x8, [x6]. -/
theorem test_decode_ordered_store : read 0b011110_01000_00110_0000_011_10_11_100_0_0 = some (.sto 8 6 0 .dev .rel .d .sf) := by decide

/-- R164; amo.add.acqrel.dev x7, [x3], x5. -/
theorem test_decode_atomic : read 0b011111_00111_00011_00101_011_11_1_00001 = some (.amoAdd 7 3 5 .dev .acqrel true) := by decide

/-- R165; xfence.dev mx, ls. -/
theorem test_decode_fences : read 0b100000_000100_000001_011_000000000_01 = some (.xfence 4 1 .dev) := by decide

/-- R169; vadd.i16 v4, v5, s0, p2. -/
theorem test_decode_vector_integer : read 0b100001_00100_00101_11100_010_001_00000 = some (.vadd 4 5 28 2 .i16) := by decide

/-- R138; vfma.f32 v2, v0, v1, p1. -/
theorem test_decode_vector_float : read 0b100010_00010_00000_00001_001_101_00011 = some (.vfma 2 0 1 1 .f32) := by decide

/-- R175; vpack.lb4 v2, v1, v0. -/
theorem test_decode_conversion : read 0b100011_00010_00001_00000_000_000_00100 = some (.vpackLb4 2 1 0) := by decide

/-- R176; vbcast.f32 v0, x7. -/
theorem test_decode_permute : read 0b100100_00000_00111_00000_000_101_00000 = some (.vbcast 0 7 0 .f32) := by decide

/-- R178; pset.f32 p1, x8. -/
theorem test_decode_predicate : read 0b100101_00001_01000_00000_000_101_00101 = some (.pset 1 8 .f32) := by decide

/-- R177; vfredmax.bf16 x3, v4, p5. -/
theorem test_decode_reduction : read 0b100110_00011_00100_00000_101_100_00100 = some (.vfredmax 3 4 5 .bf16) := by decide

/-- R181; vld.f32 v1, [x5], p1. -/
theorem test_decode_vector_memory : read 0b100111_00001_00101_00000_001_101_00000 = some (.vld 1 5 0 1 .f32) := by decide

/-- R185; sbind s0, x5, x6. -/
theorem test_decode_stream : read 0b101000_00000_00101_00110_0000_0000000 = some (.sbind 0 5 6 0) := by decide

/-- R191; tstat x3, x4 ^15. -/
theorem test_decode_tile : read 0b101001_00011_00100_00000_1111_0000100 = some (.tstat 3 4 15) := by decide

/-- R194; cpx x1, x2, x3. -/
theorem test_decode_copyist : read 0b101010_00001_00010_00011_0000_0000011 = some (.cpx 1 2 3 0) := by decide

/-- R198; tgwait x1, x2. -/
theorem test_decode_graph : read 0b101011_00001_00010_00000_0000_0000001 = some (.tgwait 1 2 0) := by decide

/-- R190; mzdrn.f32 z0, x22. -/
theorem test_decode_matrix : read 0b101100_00000_10110_00010_0000_0000110 = some (.mzdrn 0 22 .f32 0) := by decide

/-- R190; mmul z0, x20, x21. -/
theorem test_decode_matrix_multiply : read 0b101100_00000_10100_10101_0000_0000100 = some (.mmul false 0 20 21 0) := by decide

/-- R216; msnds v1, x7, x8. -/
theorem test_decode_message : read 0b101101_00001_00111_01000_0000_0000001 = some (.msnds 1 7 8 0) := by decide

/-- R222; bar.vote x10, x9, 0. -/
theorem test_decode_barrier : read 0b101110_01010_01001_00000_0000_0000010 = some (.barVote 10 9 0) := by decide

/-- R222; bar.arrive 1. -/
theorem test_decode_barrier_slot : read 0b101110_00000_00000_00001_0000_0000000 = some (.barArrive 1) := by decide

/-- R223; hstart x5, x6, x7. -/
theorem test_decode_helper : read 0b101111_00101_00110_00111_0000_0000000 = some (.hstart 5 6 7) := by decide

/-- R227; lnch x9, x10 ^1. -/
theorem test_decode_launch : read 0b101111_01001_01010_00000_0001_0000100 = some (.lnch 9 10 1) := by decide

/-- R230; stmc x1, x2, x3. -/
theorem test_decode_fabric : read 0b110000_00001_00010_00011_0000_0000000 = some (.stmc 1 2 3 0) := by decide

/-- R287; evict x1, x2, x3. -/
theorem test_decode_ownership : read 0b110001_00001_00010_00011_0000_0000110 = some (.evict 1 2 3 0) := by decide

/-- R238; crw cr.fmt, x25. -/
theorem test_decode_control_register : read 0b110010_00000_11001_01_00_000000100011 = some (.crw 0 25 0x023) := by decide

/-- R240; nop. -/
theorem test_decode_system : read 0b110011_00000_00000_00000_00000000101 = some (.nop) := by decide

/-- R52. -/
theorem test_decode_solo : read 0b111111_00000000000000000000000000 = some (.solo) := by decide

/-- R140: opcode 0x00 is not an instruction. -/
theorem test_reject_opcode_zero : rejected 0b00000000000000000000000000000000 = true := by decide

/-- R134: clz has no B is not an instruction. -/
theorem test_reject_unused_register_field : rejected 0b000001_00001_00010_00001_00000011010 = true := by decide

/-- R140: code 35 of opcode 0x01 is not an instruction. -/
theorem test_reject_divide_function_past_the_list : rejected 0b000001_00001_00010_00011_00000100011 = true := by decide

/-- R135: SC = 5 of an atomic is not an instruction. -/
theorem test_reject_scope_code : rejected 0b011111_00111_00011_00101_101_00_1_00001 = true := by decide

/-- R135: fadd has no 64-bit form is not an instruction. -/
theorem test_reject_wide_float_atomic : rejected 0b011111_00111_00011_00101_011_00_1_01010 = true := by decide

/-- R140: vadd.f32 is not an instruction. -/
theorem test_reject_vector_type : rejected 0b100001_00100_00101_00110_000_101_00000 = true := by decide

/-- R135: C = 6 is not an instruction. -/
theorem test_reject_branch_condition : rejected 0b001101_00001_00010_110_0000000000000 = true := by decide

/-- R135: opcode 0x3F is not an instruction. -/
theorem test_reject_prefix_with_a_bit : rejected 0b111111_00000000000000000000000001 = true := by decide

/-- R136: lwf on a word is not an instruction. -/
theorem test_reject_full_empty_size : rejected 0b011101_01001_00110_0000_011_00_10_001_0_0 = true := by decide

/-- R190: mzdrn with B = 4 is not an instruction. -/
theorem test_reject_drain_format : rejected 0b101100_00000_10110_00100_0000_0000110 = true := by decide

/-- R142: index 0x00C is not an instruction. -/
theorem test_reject_control_index : rejected 0b110010_00001_00000_00_00_000000001100 = true := by decide

/-- R140: hexit has no LA is not an instruction. -/
theorem test_reject_lookahead_where_none : rejected 0b101111_00000_00000_00000_0001_0000010 = true := by decide


/-! ### Small states -/

/-- A module brought up, the control context of a rank of owner 1 on core 0 about to issue at 0x10000, with the first 8 GiB mapped. -/
def base : State := State.reset.placedAt 0x10000 0

/-- The same with a trap handler at 0x20000. -/
def handled : State := base.setCr fun c => { c with trapvec := 0x20000 }

/-- X[r] for some registers. -/
def withX (s : State) (l : List (Reg × Word)) : State := l.foldl (fun t q => t.setX q.1 q.2) s

/-- Every lane of a vector register set to one value of width w. -/
def withV (s : State) (r : VField) (w : Nat) (c : BitVec w) : State :=
  { s with cx := { s.cx with v := s.cx.v.set! r.val ((List.range (1024 / w)).foldl (fun v k => v ||| (c.setWidth 1024) <<< (w * k)) 0) } }

/-- Whether an instruction answers a next state that p accepts. -/
def answers (i : Instr) (s : State) (p : State → Bool) : Bool :=
  match exec i s with
  | .next t => p t
  | .fault _ => false
  | .refused _ => false

/-- Whether an instruction traps with a cause and a value. -/
def traps (i : Instr) (s : State) (cause : BitVec 9) (v : Word) : Bool :=
  answers i s fun t => t.cx.hf && t.cx.cr.trapcause == cause && t.cx.cr.trapval == v && t.cx.cr.trappc == s.cx.pc.setWidth 53
    && t.cx.pc == 0x20000

/-- The state after instructions that follow each other, those that answer no next state left out. -/
def after (s : State) (l : List Instr) : State :=
  l.foldl (fun t i => match exec i t with | .next u => u | .fault _ | .refused _ => t) s

/-- With words of 8 bytes in memory. -/
def withMem (s : State) (l : List (Nat × Nat)) : State :=
  { s with ms := { s.ms with mem := l.foldl (fun m q => writeLE m q.1 8 q.2) s.ms.mem } }

/-- With fields of the rank in focus changed. -/
def withRank (s : State) (f : Rank → Rank) : State := { s with rk := f s.rk }

/-- Tile 0 FULL and read by stream s0, tile 1 EMPTY and written by s1: each two rows of 64 bytes, one row a step. -/
def streamed : State :=
  after (withX base [(2, 0), (3, 0x100400002), (4, 0x0000000100000000), (5, 0x10002), (6, 1), (7, 0x0000000100000081)])
    [.tal 1 2 3 0, .tseal 1 2 0, .tal 1 6 3 0, .sbind 0 4 5 0, .sbind 1 7 5 0]


/-! ### Single steps; the expected results are the spec's own examples or hand calculation from its tables -/

/-- R60: the sum wraps. -/
theorem test_add_wraps : answers (.add 1 2 3) (withX base [(2, 0xFFFFFFFFFFFFFFFF), (3, 2)]) (fun t => t.x 1 == 1 && t.cx.pc == 0x10004)
    = true := by decide

/-- R139: a write to x0 is discarded. -/
theorem test_x0_reads_zero : answers (.addi 0 0 5) base (fun t => t.x 0 == 0 && t.cx.pc == 0x10004) = true := by decide

/-- R61's example: −7 / 2 = −3, remainder −1. -/
theorem test_div_truncates : answers (.div 1 2 3 0) (withX base [(2, wd (2^64 - 7)), (3, 2)]) (fun t => t.x 1 == wd (2^64 - 3))
    && answers (.rem 1 2 3 0) (withX base [(2, wd (2^64 - 7)), (3, 2)]) (fun t => t.x 1 == wd (2^64 - 1)) = true := by decide

/-- R61's example: divu of 5 by 0 gives all ones, the remainder 5. -/
theorem test_divu_by_zero : answers (.divu 1 2 0 0) (withX base [(2, 5)]) (fun t => t.x 1 == 0xFFFFFFFFFFFFFFFF)
    && answers (.remu 1 2 0 0) (withX base [(2, 5)]) (fun t => t.x 1 == 5) = true := by decide

/-- R61: the most negative number divided by −1 is itself, the remainder 0. -/
theorem test_div_overflow : answers (.div 1 2 3 0) (withX base [(2, 0x8000000000000000), (3, wd (2^64 - 1))])
    (fun t => t.x 1 == 0x8000000000000000) = true := by decide

/-- R152: the high half of −1 × (2^64 − 1). -/
theorem test_mulhsu_sign : answers (.mulhsu 1 2 2) (withX base [(2, wd (2^64 - 1))]) (fun t => t.x 1 == wd (2^64 - 1)) = true := by
  decide

/-- R153: a word result is sign-extended. -/
theorem test_sraw_extends : answers (.sraw 1 2 3) (withX base [(2, 0x80000000), (3, 36)]) (fun t => t.x 1 == 0xFFFFFFFFF8000000) = true :=
  by decide

/-- R155: the immediate of `sltiu` is sign-extended, then compared unsigned. -/
theorem test_sltiu_extends : answers (.sltiu 1 0 0xFFFF) base (fun t => t.x 1 == 1) = true := by decide

/-- R152: `csel` chooses by the old X[D]. -/
theorem test_csel_old_d : answers (.csel 1 2 3) (withX base [(1, 9), (2, 5), (3, 6)]) (fun t => t.x 1 == 5) = true := by decide

/-- R10's program: the branch at 0x0C of 6 words reaches 0x24. -/
theorem test_beq_reaches : answers (.beq 6 0 6) { base with cx := { base.cx with pc := 0x0C } } (fun t => t.cx.pc == 0x24) = true := by
  decide

/-- R157: `jalr` reads X[A] before it writes the link to the same register. -/
theorem test_jalr_same_register : answers (.jalr 5 5 8) (withX base [(5, 0x3000)]) (fun t => t.cx.pc == 0x3008 && t.x 5 == 0x10004) = true :=
  by decide

/-- R157, R321: a target that is no multiple of 4. -/
theorem test_jalr_misaligned : traps (.jalr 5 0 6) handled 0x02 6 = true := by decide

/-- R158: `bes` reads bit 20 of cr.est, clear while the inbox is empty. -/
theorem test_bes_inbox : answers (.bes 20 false 4) base (fun t => t.cx.pc == 0x10010)
    && answers (.bes 20 true 4) base (fun t => t.cx.pc == 0x10004) = true := by decide

/-- R159: a byte load extends the sign, its unsigned form does not; the byte at 0x2000 of the table entry 0x6F made 0x80 below. -/
theorem test_ldb_extends : answers (.ldB 1 2 0) (withX { base with ms := { base.ms with mem := writeLE base.ms.mem 0x30000 1 0x80 } }
      [(2, 0x30000)]) (fun t => t.x 1 == 0xFFFFFFFFFFFFFF80)
    && answers (.ldBu 1 2 0) (withX { base with ms := { base.ms with mem := writeLE base.ms.mem 0x30000 1 0x80 } } [(2, 0x30000)])
      (fun t => t.x 1 == 0x80) = true := by decide

/-- R321: an unaligned plain load traps. -/
theorem test_ldw_misaligned : traps (.ldW 1 2 2) (withX handled [(2, 0x30000)]) 0x02 0x30002 = true := by decide

/-- R119, R118: a store stands in the buffer, memory as it was, and the core's own next load sees it. -/
theorem test_store_then_load : answers (.stW 1 2 0) (withX base [(1, 0x12345678), (2, 0x30000)]) (fun t => t.co.stores.length == 1
      && readLE t.ms.mem 0x30000 4 == 0 && answers (.ldH 3 2 2) t (fun u => u.x 3 == 0x1234)) = true := by decide

/-- R164: `amo.max` compares as signed; the old value is sign-extended. -/
theorem test_amo_max_signed : answers (.amoMax 1 2 3 .dev .relaxed false)
    (withX { base with ms := { base.ms with mem := writeLE base.ms.mem 0x30000 4 0xFFFFFFFE } } [(2, 0x30000), (3, 1)])
    (fun t => t.x 1 == 0xFFFFFFFFFFFFFFFE && readLE t.ms.mem 0x30000 4 == 1) = true := by decide

/-- R164: a `cas` whose comparand differs stores nothing. -/
theorem test_cas_differs : answers (.amoCas 1 2 3 .dev .relaxed true)
    (withX { base with ms := { base.ms with mem := writeLE base.ms.mem 0x30000 8 7 } } [(1, 6), (2, 0x30000), (3, 1)])
    (fun t => t.x 1 == 7 && readLE t.ms.mem 0x30000 8 == 7) = true := by decide

/-- R107, R108: `lwt` on an EMPTY word waits in the retry list; `sf` writes and sets FULL. -/
theorem test_full_empty : answers (.ldo 1 2 0 .dev .relaxed .d .lwt false) (withX base [(2, 0x30000)])
      (fun t => t.ms.retry.length == 1 && t.cx.pc == 0x10000)
    && answers (.sto 3 2 0 .dev .relaxed .d .sf) (withX base [(2, 0x30000), (3, 9)])
      (fun t => isFull t.ms.mem 0x30000 && readLE t.ms.mem 0x30000 8 == 9) = true := by decide

/-- R169, R60: lanes wrap at their width. -/
theorem test_vadd_wraps : answers (.vadd 3 1 2 0 .i8) (withV (withV base 1 8 0xFF) 2 8 2) (fun t => laneAt 8 (t.v 3) 127 == 1) = true := by
  decide +kernel

/-- R168: an inactive lane of a register keeps its value: p1 is zero. -/
theorem test_vadd_inactive : answers (.vadd 3 1 2 1 .i8) (withV (withV base 1 8 0xFF) 3 8 5) (fun t => laneAt 8 (t.v 3) 0 == 5) = true := by
  decide +kernel

/-- R171: 1.0 + 2.0 = 3.0 in FP32, exactly. -/
theorem test_vfadd_exact : answers (.vfadd 3 1 2 0 .f32) (withV (withV base 1 32 0x3F800000) 2 32 0x40000000)
    (fun t => laneAt 32 (t.v 3) 31 == 0x40400000 && t.cx.cr.fflags == 0) = true := by decide +kernel

/-- R173's example: a = 1.0, d = 12.0, b = 3.0 gives 4.0. -/
theorem test_vresc_example : answers (.vresc 3 1 2 0 .f32) (withV (withV (withV base 1 32 0x3F800000) 2 32 0x40400000) 3 32 0x41400000)
    (fun t => laneAt 32 (t.v 3) 0 == 0x40800000) = true := by decide +kernel

/-- R178's example: `pset.f32 p1, x8` with x8 = 20 sets byte lanes 0 to 79. -/
theorem test_pset_example : answers (.pset 1 8 .f32) (withX base [(8, 20)]) (fun t => t.p 1 == 0xFFFFFFFFFFFFFFFF && t.p 5 == 0xFFFF)
    = true := by decide

/-- R172: −0 is not less than +0, and equals it. -/
theorem test_vfcmp_zeros : answers (.vfcmplt 1 1 2 0 .f32) (withV base 1 32 0x80000000) (fun t => t.p 1 == 0)
    && answers (.vfcmpeq 1 1 2 0 .f32) (withV base 1 32 0x80000000) (fun t => t.p 1 == 0xFFFFFFFFFFFFFFFF) = true := by decide +kernel

/-- R177: a reduction's sum is taken modulo 2^w and sign-extended: 128 lanes of 1 are −128. -/
theorem test_vredadd_wraps : answers (.vredadd 1 2 0 .i8) (withV base 2 8 1) (fun t => t.x 1 == 0xFFFFFFFFFFFFFF80) = true := by decide +kernel

/-- R75's example: 3.0, −0.5, 0.0 and 12.0 encode as 0x377C_0B17. -/
theorem test_encode_lb4_example : encodeLb4 (fp32.value 0x40400000) (fp32.value 0xBF000000) (fp32.value 0) (fp32.value 0x41400000)
    = (0x377C0B17, (encodeLb4 (fp32.value 0x40400000) (fp32.value 0xBF000000) (fp32.value 0) (fp32.value 0x41400000)).2) := by decide

/-- 09's round trip: that word decodes to 3.153076171875, −0.46875, 0 and 12.6123046875. -/
theorem test_decode_lb4_example : (List.range 4).map (decodeLb4 0x377C0B17) = [0x4049CC00, 0xBEF00000, 0, 0x4149CC00] := by decide

/-- R71's example: the block term of 0x377C_0B17 and 0x3841_0410 at E = −4 is 245. -/
theorem test_block_term_example : blockTerm 0x377C0B17 0x38410410 (-4) = some 245 := by decide

/-- R73's example: 245 at E = −4 drains to FP32 0x4175_0000. -/
theorem test_drain_example : (a24To fp32 245 (-4)).1 = 0x41750000 := by decide

/-- R199: a geometry register is written and read back. -/
theorem test_mxg_mxr : answers (.mxg 5 1 0) (withX base [(1, 77)]) (fun t => answers (.mxr 2 5 0) t fun u => u.x 2 == 77) = true := by
  decide

/-- R191, R87: `tal` of an LB4 tile of 64 rows of 64 bytes answers A set, EMPTY; the shape word stands in [35:0]. -/
theorem test_tal_status : answers (.tal 1 2 3 0) (withX base [(2, 3), (3, 0x100400040)])
    (fun t => t.x 1 == 0x8100400040 && answers (.tstat 4 2 0) t fun u => u.x 4 == 0x8100400040) = true := by decide

/-- R216, R217: `msnds` holds a message, `mabort` discards it and answers how many. -/
theorem test_msnds_mabort :
    let s := { base with rk := { base.rk with id := { base.rk.id with span := 4 } } }
    answers (.msnds 1 2 3 0) (withX s [(2, 3), (3, 5)]) (fun t => t.rk.blotter.length == 1
      && answers (.mabort 4 0) t fun u => u.rk.blotter.length == 0 && u.x 4 == 1) = true := by decide

/-- R218: a receive without a matching message waits. -/
theorem test_mrcv_waits : answers (.mrcv 1 2 0) base (fun t => t.cx.wait == .mrcv t.co.cycle 0 && t.cx.pc == 0x10000) = true := by decide

/-- R221: a barrier instruction on a slot without a group. -/
theorem test_bar_no_group : traps (.barArrive 2) handled 0x08 2 = true := by decide

/-- R223: at the launch's limit `hstart` answers 0. -/
theorem test_hstart_limit : answers (.hstart 1 2 3) (withX base [(1, 9)]) (fun t => t.x 1 == 0 && t.rk.ctxs.length == 0) = true := by decide

/-- R236: a give to a live owner is an offer, OFFERED with status 1. -/
theorem test_give_offers : answers (.give 1 2 3 0)
    (withX { base with own := { base.own with owners := [OwnerRec.fresh 1 0, OwnerRec.fresh 2 1] } } [(2, 0x0600000000000005), (3, 2)])
    (fun t => t.x 1 == 0x1000000000000000 && (t.own.entry 6 5).offerTo == 2) = true := by decide

/-- R238: `crs` ORs into the flags and answers the old ones. -/
theorem test_crs_fflags : answers (.crs 1 2 0x021) (withX (base.setCr fun c => { c with fflags := 1 }) [(2, 0xFF02)])
    (fun t => t.x 1 == 1 && t.cx.cr.fflags == 3) = true := by decide

/-- R303, R304: `trap` goes to the handler with its value; `tret` goes back to cr.trappc. -/
theorem test_trap_and_return : traps (.trap 3) (withX handled [(3, 42)]) 0x10 42
    && answers (.trap 3) (withX handled [(3, 42)]) (fun t => answers .tret t fun u => u.cx.pc == 0x10000 && !u.cx.hf) = true := by decide

/-- R319: `tret` outside a handler is ILLEGAL, its word the value. -/
theorem test_tret_outside : traps .tret handled 0x01 0xCC000001 = true := by decide

/-- R242: `wfe` on mask 0 completes; on bit 20 with an empty inbox it waits. -/
theorem test_wfe : answers (.wfe 0) base (fun t => t.cx.pc == 0x10004)
    && answers (.wfe 1) (withX base [(1, 0x100000)]) (fun t => t.cx.wait == .wfe && t.cx.pc == 0x10000) = true := by decide

/-- R52, R53: `solo` before `addi x1, x0, 5` performs the pair, two words long, and counts it. -/
theorem test_solo_pair : answers .solo { base with ms := { base.ms with mem := writeLE base.ms.mem 0x10004 4 0x0C200005 } }
    (fun t => t.x 1 == 5 && t.cx.pc == 0x10008 && t.rk.solo.count == 1) = true := by decide

/-- R52: `solo` before a branch is ILLEGAL, the branch's word the value. -/
theorem test_solo_branch : traps .solo { handled with ms := { handled.ms with mem := writeLE base.ms.mem 0x10004 4 0x34000001 } } 0x01
    0x34000001 = true := by decide


/-! ### A state and operands for the hypotheses of each statement of Certificates/Slice0

The statements without hypotheses (IntegerResults, ImmediateResults, DecodedWords) need none. -/

theorem witness_RegisterWriteFrames : integerDest (.adr 31 0) = some 31 ∧ answers (.adr 31 0) base (fun _ => true) = true := by decide

/-- Each branch taken and not, at the edges of its order; `jalr` aligned and not; `bes` of either sense at bits 0 and 24. -/
theorem witness_BranchAndJumpResults :
    let s := withX base [(1, wd (2^64 - 1)), (2, 1), (3, 0x8000000000000000)]
    (s.x 0).toNat = (s.x 0).toNat ∧ (s.x 0).toNat ≠ (s.x 2).toNat ∧ (s.x 1).toInt < (s.x 0).toInt ∧ ¬ (s.x 0).toInt < (s.x 0).toInt
    ∧ (s.x 3).toInt ≤ (s.x 3).toInt ∧ ¬ (s.x 2).toInt ≤ (s.x 3).toInt ∧ (s.x 0).toNat < (s.x 2).toNat ∧ ¬ (s.x 1).toNat < (s.x 1).toNat
    ∧ (s.x 1).toNat ≤ (s.x 1).toNat ∧ ¬ (s.x 2).toNat ≤ (s.x 0).toNat
    ∧ (s.x 0 + ofExact 64 (4 : BitVec 16).toInt).toNat % 4 = 0 ∧ (s.x 0 + ofExact 64 (1 : BitVec 16).toInt).toNat % 4 ≠ 0
    ∧ s.est.getLsbD 0 = false ∧ s.est.getLsbD 0 ≠ true ∧ s.est.getLsbD 24 = false := by decide

/-- The streams allow an instruction on registers, and one whose sources and destination are streams, at the narrowest and the widest
integer type. -/
theorem witness_VectorIntegerResults : ElemType.isInt .i8 = true ∧ ElemType.isInt .i64 = true
    ∧ vectorRuns base (.vadd 27 0 27 7 .i8) [0, 27] (some 27) false ∧ vectorRuns streamed (.vsra 29 28 28 0 .i64) [28, 28] (some 29) false
    ∧ vectorRuns base (.vabs 1 2 0 .i8) [2] (some 1) false ∧ vectorRuns streamed (.vabs 29 28 0 .i64) [28] (some 29) false :=
  ⟨rfl, rfl, ⟨rfl, rfl⟩, ⟨rfl, rfl⟩, ⟨rfl, rfl⟩, ⟨rfl, rfl⟩⟩

/-- A compare on registers and on a stream; lanes that raise NV (a quiet and a signalling NaN) and lanes that do not. -/
theorem witness_CompareResults :
    let s := withV (withV base 1 32 0x7FC00000) 2 32 0x7F800001
    ElemType.isInt .i16 = true ∧ ElemType.isFp .f32 = true ∧ vectorRuns s (.vcmpeq 0 1 2 0 .i16) [1, 2] none false
    ∧ vectorRuns streamed (.vcmpltu 7 28 2 0 .i16) [28, 2] none false ∧ vectorRuns s (.vfcmpeq 1 1 2 0 .f32) [1, 2] none false
    ∧ (fp32.value (laneAt 32 (s.source 1) 0).toNat).isNan = true ∧ (fp32.value (laneAt 32 (s.source 2) 31).toNat).signals = true
    ∧ (fp32.value (laneAt 32 (s.source 3) 0).toNat).isNan = false ∧ (s.mask 0).getLsbD 124 = true :=
  ⟨rfl, rfl, ⟨rfl, rfl⟩, ⟨rfl, rfl⟩, ⟨rfl, rfl⟩, by decide +kernel⟩

theorem witness_VectorFloatResults : ElemType.isFp .bf16 = true ∧ ElemType.isFp .f32 = true
    ∧ vectorRuns base (.vfadd 1 2 3 1 .bf16) [2, 3] (some 1) false ∧ vectorRuns streamed (.vfmax 29 28 3 0 .f32) [28, 3] (some 29) false
    ∧ vectorRuns base (.vfma 1 2 3 0 .f32) [2, 3] (some 1) true ∧ vectorRuns streamed (.vresc 1 28 3 0 .f32) [28, 3] (some 1) true
    ∧ vectorRuns base (.vfsqrt 1 2 0 .f32) [2] (some 1) false ∧ vectorRuns streamed (.vflog2 29 28 0 .bf16) [28] (some 29) false := by
  unfold vectorRuns; and_intros <;> rfl

/-- One third rounded in each mode, its neighbours finite; a value at the last halfway point of FP32, whose result is infinite in mode 0. -/
theorem witness_RoundingAndCellResults :
    (∀ rm, rm < 4 → ∃ m e, fp32.value (fp32.round rm ⟨false, 0x155555555, -34, false⟩).1 = .fin false m e)
    ∧ (∃ m e, bf16.value (bf16.round 0 ⟨true, 0x155555555, -34, false⟩).1 = .fin true m e)
    ∧ (∃ m e, fp32.value 0x3EAAAAAA = .fin false m e) ∧ fp32.value (fp32.round 0 ⟨false, 0x1FFFFFF, 103, false⟩).1 = .inf false := by
  refine ⟨?_, ⟨_, _, rfl⟩, ⟨_, _, rfl⟩, rfl⟩
  intro rm h
  match rm, h with
  | 0, _ => exact ⟨_, _, rfl⟩
  | 1, _ => exact ⟨_, _, rfl⟩
  | 2, _ => exact ⟨_, _, rfl⟩
  | 3, _ => exact ⟨_, _, rfl⟩

theorem witness_ConversionResults :
    vectorRuns base (.vcvtF32I32 1 2) [2] (some 1) false ∧ vectorRuns streamed (.vcvtI32F32 29 28) [28] (some 29) false
    ∧ vectorRuns base (.vcvtBf16F32 1 2 3) [2, 3] (some 1) false ∧ vectorRuns base (.vcvtF32Bf16 1 2 1) [2] (some 1) false
    ∧ vectorRuns base (.vpackLb4 1 2 3) [2, 3] (some 1) true ∧ vectorRuns streamed (.vunpkLb4 29 28 3) [28] (some 29) false
    ∧ vectorRuns base (.vpackE4m3 1 2 3) [2, 3] (some 1) true ∧ vectorRuns base (.vpackE5m2 1 2 3) [2, 3] (some 1) true
    ∧ vectorRuns base (.vunpkE4m3 1 2 3) [2] (some 1) false ∧ vectorRuns base (.vunpkE5m2 1 2 0) [2] (some 1) false := by
  unfold vectorRuns; and_intros <;> rfl

theorem witness_PermuteResults : vectorRuns base (.vbcast 1 31 0 .i8) [] (some 1) false
    ∧ vectorRuns streamed (.vbcast 29 31 0 .i64) [] (some 29) false ∧ vectorRuns streamed (.vperm 29 28 2 0 .e4m3) [28, 2] (some 29) false
    ∧ vectorRuns base (.vslup 1 2 3 0 .i8) [2] (some 1) false ∧ vectorRuns streamed (.vsel 29 28 3 1 .i8) [28, 3] (some 29) false
    ∧ vectorRuns streamed (.vext 31 28 3 .i64) [28] none false ∧ vectorRuns base (.vins 27 2 3 .i8) [] (some 27) true := by
  unfold vectorRuns; and_intros <;> rfl

theorem witness_ReductionAndPredicateResults : ElemType.isInt .i8 = true ∧ ElemType.isFp .bf16 = true
    ∧ vectorRuns base (.vredadd 1 2 0 .i8) [2] none false ∧ vectorRuns streamed (.vredmin 31 28 7 .i64) [28] none false
    ∧ vectorRuns base (.vfredadd 1 2 0 .bf16) [2] none false ∧ vectorRuns streamed (.vfredmax 31 28 0 .f32) [28] none false :=
  ⟨rfl, rfl, ⟨rfl, rfl⟩, ⟨rfl, rfl⟩, ⟨rfl, rfl⟩, ⟨rfl, rfl⟩⟩

/-- A register and a stream as destination, at codes 27 and 28; predicates 0, 4 and another; a vector instruction that completes. -/
theorem witness_VectorFrames : (27 : VField).val < 28 ∧ 28 ≤ (28 : VField).val ∧ (0 : VField) ≠ 27 ∧ (2 : Fin 8) ≠ 1 ∧ (2 : Fin 8) ≠ 1 ^^^ 4
    ∧ (1 : Fin 8) ≠ 0 ∧ (1 : Fin 8) ≠ 4 ∧ vectorRuns streamed (.vmov 29 28 0 .i8) [28] (some 29) false
    ∧ (∃ t, streamed.vector (.vmov 29 28 0 .i8) [28] (some 29) false (fun _ => streamed) = .next t) ∧ streamNo 28 ≠ some 2 :=
  ⟨by decide, by decide, by decide, by decide, by decide, by decide, by decide, ⟨rfl, rfl⟩, ⟨_, rfl⟩, by decide⟩

/-- A helper and a control context; words that bind, a last row inside the tile and one past it, no such tile; a bound stream before
its last step and at it; a use of an unbound stream. -/
theorem witness_StreamResults :
    let s := streamed
    let helper := { s with cx := { s.cx with num := 1 } }
    helper.isControl = false ∧ s.isControl = true ∧ bindWord0 (s.x 4) = true ∧ bindWord1 (s.x 5) = true
    ∧ (∃ q, s.tile? (field (s.x 4) 0 7) = some q ∧ q.rows = 2 ∧ field (s.x 4) 20 6 < q.rowBytes / 64)
    ∧ (∀ i j : Nat, i < 2 → j < 1 → (0 : Int) ≤ 0 + j * 0 + i * 1 ∧ (0 : Int) + j * 0 + i * 1 < 2) ∧ field (s.x 5) 0 13 = 2
    ∧ field (s.x 5) 16 13 = 1 ∧ bindWord1 0x10003 = true ∧ s.tile? 5 = none ∧ bindWord0 5 = true
    ∧ s.rk.streams[(3 : Fin 4)] = none ∧ (∃ r, s.rk.streams[(0 : Fin 4)] = some r ∧ r.i < 2 ∧ r.j < 1 ∧ r.pass < 2^24)
    ∧ (∃ r, (s.stepStream 0).rk.streams[(0 : Fin 4)] = some r ∧ r.j * 2 + r.i + 1 = 2) ∧ helper.cx.num ≠ 0
    ∧ [srcUse 30].find? s.badUse = some (srcUse 30) ∧ 28 ≤ (30 : VField).val := by
  refine ⟨rfl, rfl, rfl, rfl, ⟨_, rfl, rfl, by decide⟩, by omega, rfl, rfl, rfl, rfl, rfl, rfl, ⟨_, rfl, by decide, by decide, by decide⟩,
    ⟨_, rfl, rfl⟩, by decide, rfl, by decide⟩


/-- The leaf of the identity table. -/
def leaf0 : Leaf := ⟨0x6F, some 0x2000, 2⟩

/-- Every byte of the first 8 GiB lands, the last one among them; nothing stands between the core and memory. -/
theorem witness_PlainAccessResults :
    let s := withX base [(2, 0x1FFFFFFF8)]
    (ofExact 64 ((s.x 2).toInt + (7 : BitVec 16).toInt)).toNat % 1 = 0 ∧ landsAt s 0x1FFFFFFFF .load 0x1FFFFFFFF leaf0
    ∧ (ofExact 64 ((s.x 2).toInt + (0xFFF8 : BitVec 16).toInt)).toNat % 8 = 0 ∧ landsAt s 0x1FFFFFFF0 .store 0x1FFFFFFF0 leaf0
    ∧ (ofExact 64 ((s.x 2).toInt + (1 : BitVec 16).toInt)).toNat % 2 ≠ 0 ∧ calm s ∧ uncached s 0x1FFFFFFFF leaf0 false ∧ s.dry = false := by
  unfold landsAt calm uncached; decide +kernel

/-- A core whose buffer holds two stores that share a byte, and one to a replicated page. -/
def buffered : State :=
  { base with co := { base.co with stores := [⟨⟨0, 0⟩, 0, 0x40000, [4], .sequencer, 0, false⟩, ⟨⟨0, 0⟩, 0, 0x30000, [1, 2], .home, 0, false⟩,
      ⟨⟨0, 0⟩, 0, 0x30001, [3], .cluster, 0, false⟩] } }

theorem witness_StoreBufferResults :
    (∃ e, (buffered.coreAt 0).stores[0]? = some e ∧ ((buffered.coreAt 0).stores.take 0).any (fun f => f.sameLine e) = false
      ∧ buffered.ms.movingAt e.pa = false ∧ e.place = .sequencer)
    ∧ (∃ e, (buffered.coreAt 0).stores[1]? = some e ∧ ((buffered.coreAt 0).stores.take 1).any (fun f => f.sameLine e) = false
      ∧ buffered.ms.movingAt e.pa = false ∧ e.place ≠ .sequencer)
    ∧ (∃ e, (buffered.coreAt 0).stores[2]? = some e ∧ ((buffered.coreAt 0).stores.take 2).any (fun f => f.sameLine e) = true)
    ∧ buffered.ms.mem.wf = true ∧ buffered.ms.broken = []
    ∧ ∃ older e, buffered.co.stores = older ++ [e] ∧ e.left = 0 ∧ e.pa = 0x30001 ∧ e.data.length = [(0 : Byte)].length :=
  ⟨⟨_, rfl, by decide, by decide, by decide⟩, ⟨_, rfl, by decide, by decide, by decide⟩, ⟨_, rfl, by decide⟩, by decide, rfl,
    ⟨[_, _], _, rfl, rfl, rfl, rfl⟩⟩

/-- A request that stands for a store of the context in focus, and a message of its rank on its way; a store that failed. -/
theorem witness_StoreBufferResults_fences :
    let q : Request :=
      { id := 3, issuer := .store ⟨0, 0⟩ 0 0, kind := .write, dest := 7, sagent := 0, pseq := 0, keyid := 0, addr := 0x50000,
        local_ := 0x30000, bytes := 8, data := 0, time := 5, deadline := 10005, owner := 1, injected := true, entry := 0, host := false,
        ivc := 0, failed := 0, payload := [], block := none, weight := 1, via := 7, vf := 0, nodes := [], copies := [], resent := false, marked := false }
    let out := { base with fab := { base.fab with requests := [q] } }
    let sent := { base with eng := { base.eng with flights := [⟨0, 0, 0, 3, 1, 0, false⟩] } }
    let lost := { base with cx := { base.cx with lost := some 0x30000 } }
    sent.sendsOut = true ∧ Scope.clus ≠ Scope.core ∧ out.sendsOut = false ∧ out.storesOut = true ∧ lost.sendsOut = false ∧ lost.storesOut = false
    ∧ lost.cx.lost = some 0x30000 ∧ out.ms.move.busy = false ∧ sent.ms.move.busy = false ∧ lost.ms.move.busy = false := by decide

/-- A replicated page: 0x40000 and its copies 2 MiB apart, at virtual address 0x2000. -/
def copied : State := withX (withMem base [(0, 0x2001), (0x2000, 0x4001), (0x4000, 0x6001), (0x6008, 0x4026F)]) [(2, 0x2000)]

def leafR : Leaf := ⟨0x4026F, some 0x6008, 0⟩

theorem witness_OrderedAccessResults_copies :
    landsAt copied 0x2000 .store 0x40000 leafR ∧ landsAt copied 0x2000 .load 0x40000 leafR ∧ pteRepl leafR.entry = true ∧ calm copied
    ∧ copied.sendsOut = false ∧ copied.ms.move.busy = false ∧ copied.ms.move.done = false ∧ copied.ms.mem.wf = true ∧ copied.dry = false
    ∧ (copied.x 2).toNat % 8 = 0 := by
  unfold landsAt calm; decide +kernel

/-- An acquire and a release at the scopes where their action begins, a relaxed access, an unaligned one. -/
theorem witness_OrderedAccessResults :
    let s := withX base [(2, 0x30000), (3, 0x30004)]
    ldoAllowed .acq .b .none false = true ∧ ldoAllowed .relaxed .d .none true = true ∧ stoAllowed 1 .rel .h .none = true
    ∧ stoAllowed 1 .relaxed .w .none = true ∧ (s.x 2).toNat % 8 = 0 ∧ (s.x 3).toNat % 8 ≠ 0 ∧ landsAt s 0x30000 .load 0x30000 leaf0
    ∧ landsAt s 0x30000 .store 0x30000 leaf0 ∧ calm s ∧ uncached s 0x30000 leaf0 true ∧ s.dry = false ∧ pteRepl leaf0.entry = false
    ∧ s.ms.mem.wf = true ∧ s.sendsOut = false ∧ s.ms.move.busy = false ∧ 1 ≤ Scope.clus.code ∧ 2 ≤ Scope.die.code ∧ Scope.clus ≠ Scope.core := by
  unfold landsAt calm uncached; decide +kernel

/-- A word that is EMPTY and one that is FULL, no entry waiting, no message on its way; the scopes where an acquire begins to act. -/
theorem witness_FullEmptyResults :
    let s := withX base [(2, 0x30000), (3, 0x30008)]
    let t := after s [.sto 0 3 0 .dev .relaxed .d .sf]
    landsAt t 0x30000 .load 0x30000 leaf0 ∧ landsAt t 0x30008 .store 0x30008 leaf0 ∧ calm t ∧ pteRepl leaf0.entry = false ∧ t.dry = false
    ∧ t.ms.mem.wf = true ∧ (t.ms.retry.all fun e => e.pa != t.ms.homeAddr 0x30000) = true ∧ isFull t.ms.mem (t.ms.homeAddr 0x30000) = false
    ∧ isFull t.ms.mem (t.ms.homeAddr 0x30008) = true ∧ (t.x 2).toNat % 8 = 0 ∧ t.cx.wait.isReoffer = false
    ∧ (t.ms.retry.filter fun e => e.ctl == homeCtl (t.ms.homeAddr 0x30000)).length < 256 ∧ t.sendsOut = false
    ∧ landsAt t 0x30008 .load 0x30008 leaf0 ∧ 1 ≤ Scope.clus.code ∧ 2 ≤ Scope.die.code := by
  unfold landsAt calm; decide +kernel

/-- A `cas` whose comparand agrees and one whose does not, at 4 and 8 bytes; a replicated page's leaf. -/
theorem witness_AtomicResults :
    let s := withX (withMem base [(0x30000, 7)]) [(1, 7), (2, 0x30000), (3, 0x30004)]
    (s.x 2).toNat % 8 = 0 ∧ (s.x 3).toNat % 8 ≠ 0 ∧ (s.x 3).toNat % 4 = 0 ∧ landsAt s 0x30000 .atomic 0x30000 leaf0
    ∧ landsAt s 0x30004 .atomic 0x30004 leaf0 ∧ calm s ∧ pteRepl leaf0.entry = false ∧ s.dry = false ∧ s.ms.mem.wf = true
    ∧ readLE s.ms.mem (s.ms.homeAddr 0x30000) 8 = (s.x 1).toNat % 2^64 ∧ readLE s.ms.mem (s.ms.homeAddr 0x30004) 4 ≠ (s.x 1).toNat % 2^32
    ∧ pteRepl 0x26F = true ∧ s.sendsOut = false ∧ s.ms.move.done = false ∧ (amoNew .add 8 (readLE s.ms.mem 0x30000 8) 1 0).1 = some 8 := by
  unfold landsAt calm; decide +kernel

theorem witness_FenceResults :
    base.ms.move.busy = false ∧ base.storesOut = false ∧ base.sendsOut = false ∧ base.cx.lost = none ∧ calm base ∧ Scope.clus ≠ Scope.core
    ∧ (∀ c, 1 ≤ c → c ≤ 5 → (0x3F : BitVec 6).getLsbD c = true → base.classBusy c = false) ∧ (1 : BitVec 6).getLsbD 0 = true := by
  refine ⟨rfl, rfl, rfl, rfl, by unfold calm; decide, by decide, ?_, by decide⟩
  intro c h1 h5 _
  match c, h1, h5 with
  | 1, _, _ | 2, _, _ | 3, _, _ | 4, _, _ | 5, _, _ => rfl

/-- Four levels of tables for owner 1 at 0, 0x2000, 0x4000 and 0x6000, with six last entries: none, a full leaf of page 0x20, a read-only
one, one of an address that has no memory, one of host space, and one whose A and D are clear. -/
def walked : State :=
  withMem base [(0, 0x2001), (0x2000, 0x4001), (0x4000, 0x6001), (0x6008, 0x4006F), (0x6010, 0x40063), (0x6018, 0x1400000006F),
    (0x6020, 0x80000000006F), (0x6028, 0x4000F)]

theorem witness_TranslationResults :
    let m := walked.ms.mem
    let at_ := fun (table level va : Nat) => table + va / 2^(13 + 10 * level) % 2^10 * 8
    (walked.ms.kept.all fun k => !(k.owner == 1 && k.page == 0)) = true ∧ (walked.own.ownerOr 1).troot = 0
    ∧ wd (readLE m (at_ 0 3 0) 8) = 0x2001 ∧ wd (readLE m (at_ 0x2000 2 0) 8) = 0x4001 ∧ wd (readLE m (at_ 0x4000 1 0) 8) = 0x6001
    ∧ (pteV 0x2001 && isPointer 0x2001 && !malformed 0x2001 3) = true ∧ (pteV 0x4001 && isPointer 0x4001 && !malformed 0x4001 2) = true
    ∧ (pteV 0x6001 && isPointer 0x6001 && !malformed 0x6001 1) = true ∧ pteV (wd (readLE m (at_ 0x6000 0 0) 8)) = false
    ∧ (∀ q ∈ [(0x2000, (0x4006F : Word)), (0x4000, 0x40063), (0x6000, 0x1400000006F), (0x8000, 0x80000000006F)],
        wd (readLE m (at_ 0x6000 0 q.1) 8) = q.2 ∧ pteV q.2 = true ∧ malformed q.2 0 = false ∧ pteRemote q.2 = false ∧ pteMig q.2 = false)
    ∧ permits 0x40063 .store = false ∧ permits 0x4006F .store = true ∧ backed (ptePpn 0x4006F * 2^13 + 0x1FFF) = true
    ∧ (backed (ptePpn 0x1400000006F * 2^13) || hostSpace (ptePpn 0x1400000006F * 2^13)) = false
    ∧ (backed (ptePpn 0x80000000006F * 2^13) || hostSpace (ptePpn 0x80000000006F * 2^13)) = true
    ∧ m.wf = true ∧ wd (readLE m 0x6028 8) = 0x4000F ∧ pteA 0x4000F = false := by decide +kernel

/-- p1 with the first two lanes of eight bytes. -/
def laned : State := withX { base with cx := { base.cx with p := base.cx.p.set 1 0xFFFF } } [(5, 0x30000), (6, 4)]

/-- Two active lanes of eight bytes land, for the address forms of `vld` and `vgather`; at an offset of 4 they are misaligned. -/
theorem witness_VectorAccessResults :
    lanesLand laned .load 1 64 (fun k => ofExact 64 (laned.x 5 + laned.x 0).toNat + ofExact 64 (k * 8 : Nat)) (fun k => 0x30000 + k * 8)
      (fun _ => leaf0)
    ∧ lanesLand laned .store 1 64 (fun k => ofExact 64 (laned.x 5 + laned.x 0).toNat + ofExact 64 (k * 8 : Nat)) (fun k => 0x30000 + k * 8)
      (fun _ => leaf0)
    ∧ lanesLand laned .load 1 64 (fun k => ofExact 64 ((laned.x 5).toInt + (laneAt 64 (laned.source 3) k).toInt * (8 : Nat)))
      (fun _ => 0x30000) (fun _ => leaf0)
    ∧ laned.isControl = true ∧ (ofExact 64 (laned.x 5 + laned.x 6).toNat + ofExact 64 (0 : Nat)).toNat % 8 ≠ 0
    ∧ calm laned ∧ laned.dry = false ∧ uncached laned 0x30000 leaf0 false ∧ uncached laned 0x30008 leaf0 false := by
  refine ⟨?_, ?_, ?_, rfl, by decide, by unfold calm; decide, rfl, by unfold uncached; decide, by unfold uncached; decide⟩ <;>
    (unfold lanesLand landsAt; decide +kernel)

/-- Streams as source and as destination. -/
theorem witness_VectorAccessResults_streams : vectorRuns base (.vld 27 5 0 1 .i64) [] (some 27) false
    ∧ vectorRuns streamed (.vld 29 5 0 0 .i8) [] (some 29) false ∧ vectorRuns streamed (.vgather 29 5 28 0 .i64) [28] (some 29) false
    ∧ vectorRuns streamed (.vst 28 5 0 0 .i8) ([] ++ [28]) none false ∧ vectorRuns streamed (.vscatter 28 5 28 0 .i64) ([28] ++ [28]) none false := by
  unfold vectorRuns; and_intros <;> rfl


/-! The tiles, copyist and graphs. -/

/-- Tile 0 FULL, tile 1 EMPTY; rows at and past their last, a column inside and past the row; a register and a stream. -/
theorem witness_TileRowResults :
    let s := withX streamed [(8, 1), (9, 2), (10, 0x10000)]
    (∀ r ∈ [(8 : Reg), 9, 10], zeroAt (s.x r) 12 4 = true ∧ (s.x r).toNat < 2^22) ∧ (s.x 2).toNat < 128
    ∧ (∃ q, s.tile? (s.x 2).toNat = some q ∧ q.state = .full ∧ field (s.x 8) 0 12 < q.rows ∧ q.rows ≤ field (s.x 9) 0 12
      ∧ field (s.x 8) 16 6 * 64 / 64 < q.rowBytes / 64 ∧ q.rowBytes / 64 ≤ field (s.x 10) 16 6 * 64 / 64)
    ∧ (∃ q, s.tile? (s.x 6).toNat = some q ∧ q.state = .empty ∧ field (s.x 8) 0 12 < q.rows ∧ cellsRise none q.bytes = true)
    ∧ s.streamsLegal (.vldt 29 2 8 0 .i8) [⟨29, true, false⟩] = .ok () ∧ s.streamsLegal (.vstt 27 6 8 0 .i8) [srcUse 27] = .ok ()
    ∧ vectorRuns s (.vldt 29 2 8 0 .i8) [] (some 29) false ∧ vectorRuns s (.vldt 27 2 8 0 .i64) [] (some 27) false
    ∧ vectorRuns s (.vstt 28 6 8 0 .i8) [28] none false ∧ s.live := by
  refine ⟨by decide, by decide, ⟨_, rfl, by decide⟩, ⟨_, rfl, by decide⟩, rfl, rfl, ⟨rfl, rfl⟩, ⟨rfl, rfl⟩, ⟨rfl, rfl⟩, rfl⟩

/-- Tile 3 alone, in a state, with a count of reads. -/
def tiled (st : TileState) (reads : Nat) : State :=
  withRank (withX base [(2, 3), (3, 0x100400002)]) fun r =>
    { r with tiles := [⟨3, 0x100400002, st, 0, reads, false, true, [], 0, 0, 0, [0], false⟩] }

/-- Every state of a tile with and without reads; a free handle with banks enough and too few; a cluster tile at handle 127. -/
theorem witness_TileResults :
    (∀ st ∈ [TileState.empty, .filling, .full, .draining], ∀ n ∈ [0, 1], ∃ q, (tiled st n).tile? 3 = some q ∧ q.state = st ∧ q.reads = n
      ∧ ((tiled st n).rk.tiles.map Tile.handle).Nodup ∧ (tiled st n).live ∧ ((tiled st n).x 2).toNat < 64 ∧ q.clearing = true
      ∧ (tiled st n).rk.core = (tiled st n).co.num)
    ∧ shapeOk ((tiled .full 0).x 3) = true ∧ shapeOk 0 = false ∧ base.tile? 127 = none
    ∧ base.banksFree (base.freshTile 127 0x100400002) = true ∧ base.banksFree (base.freshTile 0 0x110001000) = false
    ∧ shapeOk 0x110001000 = true ∧ base.eng.tiles.length < 256
    ∧ (let s := after (withX base [(2, 127), (3, 0x100400002)]) [.tal 1 2 3 0]
       (s.eng.tiles.filter fun t => t.isCluster s.rk.key.launch s.rk.run (clusterOf s.co.num) 127).length = 1) := by
  refine ⟨?_, by decide +kernel⟩
  intro st hst n hn
  simp only [List.mem_cons, List.not_mem_nil, or_false] at hst hn
  rcases hst with rfl | rfl | rfl | rfl <;> rcases hn with rfl | rfl <;> exact ⟨_, rfl, by unfold State.live; decide⟩

/-- The copy-out of tile 3 has moved its bytes; a read of the tile is left, or it has become EMPTY. -/
def drained (left : Bool) : State :=
  let s := if left then withRank (tiled .draining 1) fun r => { r with tiles := r.tiles.map fun t => { t with emptying := true } } else tiled .empty 0
  { s with eng := { s.eng with copies :=
      [{ s.copyOf .copyOut 0 0x30000 0 0x200000003 64 128 with started := true, done := 128 }] } }

theorem witness_TileResults_ends (n : Bool) :
    (∃ c q, copyStands (drained n) 0 c ∧ (drained n).eng.copies.find? (fun e => e.key == (drained n).rk.key && e.kind == .copyOut
        && e.handle == 3 && e.started && decide (e.bytes ≤ e.done)) = some c ∧ (drained n).copyTile c = some q
      ∧ (drained n).tile? (3 : Fin 128).val = some q ∧ q.emptying = n ∧ (n = true → q.reads = 1))
    ∧ (drained n).live ∧ (drained n).rk.core = (drained n).co.num := by
  cases n
  · exact ⟨⟨_, _, ⟨rfl, rfl, rfl, rfl, rfl, rfl, rfl, rfl, rfl⟩, rfl, rfl, rfl, rfl, fun h => nomatch h⟩, rfl, rfl⟩
  · exact ⟨⟨_, _, ⟨rfl, rfl, rfl, rfl, rfl, rfl, rfl, rfl, rfl⟩, rfl, rfl, rfl, rfl, fun _ => rfl⟩, rfl, rfl⟩

/-- A launch record of a launch in a state, with an origin. -/
def launchIn (n : Nat) (st : LaunchState) (o : Origin) : Launch :=
  { num := n, origin := o, queue := 0, owner := 1, addr := 0x40000, words := Vector.replicate 16 0, state := st, groups := [],
    channels := [], arrival := 0, late := false, ring := none, sig0 := none, sig1 := none }

/-- A cluster tile of a launch that is complete, with nothing else of the launch. -/
theorem witness_TileResults_launchEnds :
    let s := { base with disp := { base.disp with launches := [launchIn 5 .complete (.queue 0)] } }
    s.disp.launches.find? (fun x => x.num == 5) ≠ none ∧ (∀ x ∈ s.disp.launches, x.num = 5 → x.state = .complete)
    ∧ s.rk.key.launch ≠ 5 ∧ (∀ r ∈ s.ranks, r.key.launch ≠ 5) ∧ ∀ e ∈ s.eng.copies, e.key.launch ≠ 5 := by decide

/-- A copyist command accepted; channel 0 of the cluster held by another owner. -/
def foreign (s : State) (cls idx : Nat) : State :=
  { s with own := { s.own with entries := ⟨cls, idx, 2, 0, 0, false, 0, 0, 0, 0⟩ :: s.own.entries } }

/-- The channel held or not, with fifteen and sixteen commands outstanding; an aligned address and not, words in order and not, a tile that
is free and one that is not; the sizes of `cpg` and of both forms of `cpx` at their edges. -/
theorem witness_CopyistResults :
    let s := withX (tiled .full 0) [(4, 0x30000), (5, 0x200000003), (6, 0x200000004), (7, 0x200000083), (9, 1), 
      (12, 0x10000004000), (13, 0x30001)]
    let full := withRank s fun r => { r with tickets := List.replicate 16 ⟨.copy, 0, 1, 0, 0, 0, false⟩ }
    s.live ∧ s.own.holder 0x05 (4 * clusterOf s.co.num + 3) = s.owner ∧ (foreign s 5 0).own.holder 0x05 0 ≠ (foreign s 5 0).owner
    ∧ s.rk.channelFull 0 = false ∧ full.rk.channelFull 0 = true
    ∧ (s.x 4).toNat % 64 = 0 ∧ (s.x 13).toNat % 64 ≠ 0 ∧ zeroAt (s.x 5) 7 1 = true ∧ zeroAt (s.x 7) 7 1 = false
    ∧ field (s.x 5) 32 13 = 2 ∧ zeroAt (s.x 5) 10 6 = true ∧ zeroAt (s.x 5) 28 4 = true
    ∧ s.tile? (field (s.x 5) 0 7) ≠ none ∧ s.tile? (field (s.x 6) 0 7) = none ∧ (s.x 9).toNat / 2^34 = 0 ∧ field (s.x 9) 0 32 ≠ 0
    ∧ field (s.x 9) 34 30 = 0 ∧ field (s.x 12) 34 30 = 64 ∧ field (s.x 12) 0 32 = 16384 ∧ (s.x 4).toNat % 256 = 0
    ∧ (s.x 13).toNat % 256 ≠ 0 := by unfold State.live; decide

/-- Ticket words at the edges of their ranges; a ticket with fifteen and with sixteen later ones, and one never issued. -/
theorem witness_CopyistResults_tickets :
    let t := fun (seq st : Nat) => Ticket.mk .copy 0 seq st 8 8 false
    let later := fun n => (List.range n).map fun k => t (k + 2) 2
    2^35 ≤ (0x800000000 : Word).toNat ∧ (0x3FFFFFFFF : Word).toNat < 2^34 ∧ 2^34 ≤ (0x400000001 : Word).toNat ∧ (0x400000001 : Word).toNat < 2^35
    ∧ field (0x400000001 : Word) 32 2 = 0 ∧ field (0x400000001 : Word) 0 32 = 1
    ∧ (∀ u ∈ later 16, ¬ (u.kind = .copy ∧ u.chan = 0 ∧ u.seq = 1))
    ∧ ((later 16).filter fun t => decide (2 ≤ t.state)).length = 16 ∧ ((later 15).filter fun t => decide (2 ≤ t.state)).length < 16
    ∧ ((later 16).filter fun u => u.kind == .copy && u.chan == 0).length = 16 := by decide

/-- A copy within device memory at the head of channel 0. -/
def copying (started : Bool) : State :=
  { base with eng := { base.eng with copies := [{ base.copyOf .copy 0 0x40000 0x30000 0 0 8 with started := started }] } }

/-- A copy-in of the EMPTY tile 3 and a copy-out of it FULL, at the head of channel 0. -/
def tileCopy (kind : CopyKind) (st : TileState) : State :=
  let s := tiled st 0
  { s with eng := { s.eng with copies := [s.copyOf kind 0 0x30000 0 0x200000003 64 0] } }

theorem witness_CopyistResults_starts :
    (∃ c, copyStands (copying false) 0 c ∧ c.started = false ∧ c.kind = .copy)
    ∧ (∃ c q, copyStands (tileCopy .copyIn .empty) 0 c ∧ (tileCopy .copyIn .empty).copyTile c = some q ∧ c.started = false ∧ 0 < q.rowBytes
      ∧ c.row0 + c.nrows ≤ q.rows ∧ c.mem.toNat % 64 = 0 ∧ c.kind = .copyIn ∧ q.state = .empty)
    ∧ (∃ c q, copyStands (tileCopy .copyOut .full) 0 c ∧ (tileCopy .copyOut .full).copyTile c = some q ∧ c.started = false
      ∧ 0 < q.rowBytes ∧ c.row0 + c.nrows ≤ q.rows ∧ c.mem.toNat % 64 = 0 ∧ c.kind = .copyOut ∧ q.state = .full) :=
  ⟨⟨_, ⟨rfl, rfl, rfl, rfl, rfl, rfl, rfl, rfl, rfl⟩, rfl, rfl⟩,
    ⟨_, _, ⟨rfl, rfl, rfl, rfl, rfl, rfl, rfl, rfl, rfl⟩, rfl, rfl, by decide, by decide, by decide, rfl, rfl⟩,
    ⟨_, _, ⟨rfl, rfl, rfl, rfl, rfl, rfl, rfl, rfl, rfl⟩, rfl, rfl, by decide, by decide, by decide, rfl, rfl⟩⟩

/-- An engine's access of owner 1 at an address below 8 GiB that its table maps to itself. -/
theorem lands_engine (s : State) (acc : Access) (va : Word) (pa : Nat)
    (h : canonical va = true ∧ translate s.ms s.tick (s.own.ownerOr 1) va acc = .at pa leaf0 ∧ hostSpace pa = false
      ∧ s.ms.movingAt pa = false ∧ pteRepl leaf0.entry = false
      ∧ leaf0.entry ||| 0x20 ||| (if acc.writes then 0x40 else 0) = leaf0.entry) : engineLands s 1 acc va pa := ⟨leaf0, h⟩

/-- The chunk of eight bytes from 0x30000 to 0x40000. -/
theorem witness_CopyistResults_chunk :
    let s := copying true
    ∃ c, copyStands s 0 c ∧ c.started = true ∧ c.kind = .copy ∧ c.done = 0 ∧ c.bytes = 8 ∧ c.mem.toNat % 65536 + c.bytes ≤ 65536
      ∧ s.copyDry c = false ∧ s.stopping c.key.launch = false ∧ s.ms.move.done = false ∧ s.ms.mem.wf = true
      ∧ (∀ k, k < 8 → engineLands s c.owner .engineRead (c.src + wd k) (0x30000 + k)
          ∧ engineLands s c.owner .engineWrite (c.mem + wd k) (0x40000 + k))
      ∧ ∀ j k, j < 8 → k < 8 → 0x30000 + j ≠ 0x40000 + k ∧ (j ≠ k → 0x40000 + j ≠ 0x40000 + k) := by
  refine ⟨_, ⟨rfl, rfl, rfl, rfl, rfl, rfl, rfl, rfl, rfl⟩, rfl, rfl, rfl, rfl, by decide, rfl, rfl, rfl, by decide, ?_, by omega⟩
  intro k hk
  refine ⟨lands_engine _ _ _ _ ?_, lands_engine _ _ _ _ ?_⟩ <;> (revert hk; revert k; decide +kernel)

/-- A graph of two wake nodes at 0x30000, the second LAST; the first names it as its successor. -/
def graphed : State :=
  withX (withMem base [(0x30000, 0x15), (0x30008, 1), (0x30010, 3), (0x30040, 0x10085), (0x30050, 15)]) [(2, 0x30000), (3, 0x30008)]

/-- Its records; and one that is malformed, an unnamed bit set. -/
def records2 (bad : Word) : List Node :=
  [nodeOf [0x15, 1, 3], nodeOf [0x10085 + bad, 0, 15]]

theorem witness_GraphResults :
    let s := graphed
    (s.x 2).toNat % 64 = 0 ∧ (s.x 3).toNat % 64 ≠ 0 ∧ s.cx.answer = none ∧ s.live ∧ s.freeSlot s.co.num = some 0 ∧ 0 < (records2 0).length ∧ (records2 0).length ≤ 256
    ∧ (∀ k, k < 2 → engineLands s s.owner .walker (s.x 2 + wd (64 * k)) (0x30000 + 64 * k))
    ∧ (∀ k n, (records2 0)[k]? = some n → n.state = .waiting ∧ n.count = field n.words[0] 16 8 ∧ (n.last = true ↔ k + 1 = 2)
        ∧ ∀ j : Fin 8, n.words[j] = wd (readLE s.ms.mem (s.ms.homeAddr (0x30000 + 64 * k) + 8 * j.val) 8))
    ∧ (∀ n ∈ records2 0, n.malformed 2 = false) ∧ (∀ n ∈ records2 0, ¬ n.type < 3)
    ∧ (∃ n, (records2 0x100)[1]? = some n ∧ n.malformed 2 = true ∧ ∀ m, (records2 0x100)[0]? = some m → m.malformed 2 = false)
    ∧ (let full := withRank s fun r => { r with graphs := (List.range 4).map fun k => ⟨k, 0, 0, 0, false, s.snapshot, [], false⟩ }
       ∀ k, k < 4 → ∃ r ∈ full.liveRanks, r.onCore full.co.num = true ∧ ∃ g ∈ r.graphs, g.slot = k) := by
  refine ⟨by decide, by decide, rfl, rfl, rfl, by decide, by decide, ?_, ?_, by decide, by decide, ⟨_, rfl, by decide, by
    intro m hm; cases hm; decide⟩, by decide⟩
  · intro k hk
    refine lands_engine _ _ _ _ ?_
    revert hk; revert k; decide +kernel
  · intro k n h
    match k, h with
    | 0, h => cases h; decide
    | 1, h => cases h; decide

/-- Masks at their edges; a hit, a fault, neither. -/
theorem witness_GraphResults_wait :
    let s := withRank base fun r => { r with wake := 0x8000 }
    let f := withRank base fun r => { r with faults := 2 }
    2^16 ≤ (0x10000 : Word).toNat ∧ (0xFFFF : Word).toNat < 2^16 ∧ 0 < (1 : Word).toNat ∧ s.rk.wake &&& (0xFFFF : Word).setWidth 16 ≠ 0
    ∧ s.rk.wake &&& (1 : Word).setWidth 16 = 0 ∧ (s.rk.faults[0] || s.rk.faults[1]) = false ∧ (f.rk.faults[0] || f.rk.faults[1]) = true := by
  decide

/-- A posted graph whose node 0 may start, and one whose node 1 runs with node 0 finished or not. -/
def posted : State := after graphed [.tgpost 1 2 0]

theorem witness_GraphResults_nodes :
    (∃ g q, posted.rk.graph? 0 = some g ∧ g.nodes[0]? = some q ∧ g.startsNext 0 = true ∧ q.type = 5 ∧ posted.rk.mx.queue.length < 16 ∧ posted.live)
    ∧ (∃ g q, (after posted [.graphNodeStart ⟨0, 0⟩ 0 0]).rk.graph? 0 = some g ∧ g.nodes[0]? = some q ∧ q.state = .running ∧ q.type = 5
      ∧ g.faulted = false ∧ ∃ e, g.nodes[1]? = some e ∧ e.state ≠ .finished)
    ∧ (let s := after posted [.graphNodeStart ⟨0, 0⟩ 0 0, .graphNodeFinish ⟨0, 0⟩ 0 0, .graphNodeStart ⟨0, 0⟩ 0 1]
       ∃ g q, s.rk.graph? 0 = some g ∧ g.nodes[1]? = some q ∧ q.state = .running ∧ g.nodes.length = 2
      ∧ (∃ e, g.nodes[0]? = some e ∧ e.state = .finished)
      ∧ (∀ y ∈ s.rk.tickets, y.kind = .graph → y.chan = 0 → y.seq = g.seq → y.state = 1)
      ∧ (s.rk.tickets.filter fun y => y.isAt .graph 0 g.seq).length = 1) :=
  ⟨⟨_, _, rfl, rfl, rfl, rfl, by decide, rfl⟩, ⟨_, _, rfl, rfl, rfl, rfl, rfl, _, rfl, by decide⟩,
    ⟨_, _, rfl, rfl, rfl, rfl, ⟨_, rfl, rfl⟩, by decide, by decide⟩⟩


/-! The matrix units. -/

/-- On an L-core: M = 64, K = 4, tiles 0 and 1 FULL of 64 rows of 64 bytes, tile 2 EMPTY of 64 rows of 256 bytes. -/
def lcore : State :=
  after (withX base [(2, 0), (3, 0x100400040), (6, 1), (7, 2), (8, 64), (9, 4), (10, 0x101000040), (11, 128), (12, 5)])
    [.tal 1 2 3 0, .tseal 1 2 0, .tal 1 6 3 0, .tseal 1 6 0, .tal 1 7 10 0, .mxg 0 8 0, .mxg 1 9 0]

/-- On an F-core, cr.fmt = 1: M = 64, tile 0 FULL and tile 1 EMPTY, of 64 rows of 128 bytes. -/
def fcore : State :=
  after (withX (({ State.reset with co := Core.reset 256 }).placedAt 0x10000 0) [(2, 0), (3, 0x100800040), (6, 1), (8, 64), (9, 1)])
    [.tal 1 2 3 0, .tseal 1 2 0, .tal 1 6 3 0, .mxg 0 8 0, .crw 0 9 0x023]

/-- Both kinds of core; handles at 127 and past it, of tiles that are allocated and that are not; a queue of 15 and of 16; formats that the
core has and has not; FP8 on an F-core. -/
theorem witness_MatrixInstructionResults :
    let full := withRank lcore fun r => { r with mx := { r.mx with queue := List.replicate 16 ⟨.mzero, false, 0, 0, 0, false, none, 0, 0, lcore.snapshot, none, [], 0, false, false⟩ } }
    let fp8 := fcore.setCr fun c => { c with fmt := 2, sclp := 1 }
    lcore.live ∧ fcore.live ∧ lcore.rk.core = lcore.co.num ∧ fcore.rk.core = fcore.co.num ∧ isFCore lcore.co.num = false
    ∧ isFCore fcore.co.num = true ∧ full.rk.mx.queue.length = 16 ∧ lcore.rk.mx.queue.length < 16 ∧ (127 : Word).toNat < 128
    ∧ ¬ (lcore.x 11).toNat < 128 ∧ (∀ h ∈ [0, 1, 2], (lcore.tile? h).isSome = true) ∧ lcore.tile? (lcore.x 12).toNat = none
    ∧ comboReason false .mmul lcore.snapshot = 0 ∧ comboReason true .mmul fcore.snapshot = 0 ∧ comboReason true .mmul fp8.snapshot = 0
    ∧ fp8.snapshot.fp8 = true ∧ (fp8.tile? fp8.snapshot.scaleTile).isSome = true ∧ comboReason true .mwld fcore.snapshot = 0
    ∧ comboReason false .mmul base.snapshot ≠ 0 ∧ (3 : Reg) ≠ 0 ∧ zeroAt (0xFFF0001 : Word) 7 9 = true ∧ (0xFFF0001 : Word).toNat < 2^28
    ∧ (fcore.tile? (field (0xFFF0001 : Word) 0 7)).isSome = true := by unfold State.live; decide +kernel

/-- A cell at the edges of its fields that takes NaR, a term at and past the range on both sides; poisoned and not. -/
theorem witness_RoundingAndCellResults_cells :
    let c : Cell := ⟨2^23 - 1, 3, false, [2^23 - 1, 1, 1, 1], [-(2^23 - 1), -1, -1, -1], 0⟩
    let d : Cell := ⟨-2^23, -3, true, [], [], 1⟩
    ([Cell.zero, c, d].all fun c => decide (-2^23 ≤ c.a) && decide (c.a ≤ 2^23 - 1) && decide (-3 ≤ c.x) && decide (c.x ≤ 3)
      && decide (c.pos.length ≤ 4) && decide (c.neg.length ≤ 4) && (c.pos ++ c.neg).all fun v => decide (v.natAbs < 2^23)) = true
    ∧ c.bad = false ∧ d.bad = true ∧ (2^23 : Int) > 2^23 - 1 ∧ (-2^23 : Int) < -(2^23 - 1)
    ∧ (Cell.zero.cycle (some 5)).bad = false
    ∧ (([3, -4, 2^23 - 1].foldl (fun (c : Cell) t => c.cycle (some t)) Cell.zero).residue 9).bad = false := by decide

/-- Which operation stands first, and whether it may start. -/
def first (s : State) (fc : Bool) : Option (MatrixOp × List MatrixOp × Bool) :=
  match s.rk.mx.queue with
  | [] => none
  | o :: r => some (o, r, s.rk.mx.ready fc o)

/-- An operation that may start whose tiles pass, and one whose tile does not, for every kind; one that may not start: a drain behind its product. -/
theorem witness_MatrixOperationResults_starts :
    (∃ o l, first (after lcore [.mmul true 3 2 6 0]) false = some (o, l, true) ∧ o.node = none
      ∧ (after lcore [.mmul true 3 2 6 0]).needFails ⟨0, 0⟩ 0 0 (o.needs false) = none ∧ o.kind = .mmul ∧ o.nc = true)
    ∧ (∃ o l, first (after lcore [.mmul false 0 2 7 0]) false = some (o, l, true)
      ∧ o.node = none ∧ (after lcore [.mmul false 0 2 7 0]).needFails ⟨0, 0⟩ 0 0 (o.needs false) = some (2, 2))
    ∧ (∃ o l, first (after lcore [.mzero 0 0]) false = some (o, l, true) ∧ o.node = none
      ∧ (after lcore [.mzero 0 0]).needFails ⟨0, 0⟩ 0 0 (o.needs false) = none ∧ o.kind = .mzero)
    ∧ (∃ o l, first (after lcore [.mzdrn 0 7 .f32 0]) false = some (o, l, true)
      ∧ o.node = none ∧ (after lcore [.mzdrn 0 7 .f32 0]).needFails ⟨0, 0⟩ 0 0 (o.needs false) = none ∧ o.kind = .mzdrn)
    ∧ (∃ o l, first (after fcore [.mwswap 0]) true = some (o, l, true) ∧ o.node = none
      ∧ (after fcore [.mwswap 0]).needFails ⟨0, 0⟩ 0 16 (o.needs true) = none ∧ o.kind = .mwswap)
    ∧ (∃ o l, first (after fcore [.mwld 2 0 0]) true = some (o, l, true) ∧ o.node = none
      ∧ (after fcore [.mwld 2 0 0]).needFails ⟨0, 0⟩ 0 16 (o.needs true) = none ∧ o.kind = .mwld ∧ o.snap.fmt = 1 ∧ o.snap.spar = 0
      ∧ ∃ q, (after fcore [.mwld 2 0 0]).tile? (field o.opA 0 7) = some q)
    ∧ (∃ o l, first (after lcore [.mmul false 0 2 6 0, .mzdrn 0 7 .f32 0, .matrixOpStart ⟨0, 0⟩]) false = some (o, l, false))
    ∧ (∀ r ∈ (after lcore [.mmul false 0 2 6 0, .mzdrn 0 7 .f32 0, .matrixOpStart ⟨0, 0⟩]).ranks, r.key ≠ ⟨0, 0⟩) := by
  refine ⟨⟨_, _, rfl, rfl, rfl, rfl, rfl⟩, ⟨_, _, rfl, rfl, rfl⟩, ⟨_, _, rfl, rfl, rfl, rfl⟩, ⟨_, _, rfl, rfl, rfl, rfl⟩,
    ⟨_, _, rfl, rfl, rfl, rfl⟩, ⟨_, _, rfl, rfl, rfl, rfl, rfl, rfl, _, rfl⟩, ⟨_, _, rfl⟩, ?_⟩
  have e : (after lcore [.mmul false 0 2 6 0, .mzdrn 0 7 .f32 0, .matrixOpStart ⟨0, 0⟩]).ranks = [] := rfl
  rw [e]; intro r h; cases h

/-- The array before its last word position and after it, alone and behind another product; the end of an F-core operation; a drain of an L-core
plane and an F-core one. -/
theorem witness_MatrixOperationResults_runs :
    let key : RankKey := ⟨0, 0⟩
    (∃ o qa qb, (after lcore [.mmul false 0 2 6 0, .matrixOpStart key]).rk.mx.stream = some (o, 0) ∧ 0 < o.snap.lenK / 4
      ∧ (after lcore [.mmul false 0 2 6 0, .matrixOpStart key]).tile? (field o.opA 0 7) = some qa
      ∧ (after lcore [.mmul false 0 2 6 0, .matrixOpStart key]).tile? (field o.opB 0 7) = some qb
      ∧ ((after lcore [.mmul false 0 2 6 0, .matrixOpStart key]).rk.mx.planes[o.z].cells.map (·.1)).Nodup)
    ∧ (∃ o, (after lcore [.mmul false 0 2 6 0, .matrixOpStart key, .pairCycle key]).rk.mx.stream = some (o, 1) ∧ o.snap.rowsM ≤ 64
      ∧ (after lcore [.mmul false 0 2 6 0, .matrixOpStart key, .pairCycle key]).rk.mx.tails = [] ∧ o.snap.lenK / 4 ≤ 1)
    ∧ (∃ o, (after lcore [.mmul false 0 2 6 0, .mmul false 1 2 6 0, .matrixOpStart key, .pairCycle key, .matrixOpStart key]).rk.mx.tails = o :: []
      ∧ o.snap.rowsM ≤ 64)
    ∧ (∃ o j, (after fcore [.mmul false 0 2 0 0, .matrixOpStart key]).rk.mx.stream = some (o, j) ∧ o.snap.rowsM ≤ 64
      ∧ (after fcore [.mmul false 0 2 0 0, .matrixOpStart key]).rk.mx.tails = []
      ∧ ((after fcore [.mmul false 0 2 0 0, .matrixOpStart key]).rk.mx.phys[(after fcore [.mmul false 0 2 0 0, .matrixOpStart key]).rk.mx.tileFor o].map
          (·.1)).Nodup)
    ∧ (∃ o j q, (after lcore [.mzdrn 0 7 .f32 0, .matrixOpStart key]).rk.mx.drain = some (o, j)
      ∧ (after lcore [.mzdrn 0 7 .f32 0, .matrixOpStart key]).tile? (field o.opA 0 7) = some q ∧ o.fmt = 2 ∧ 256 ≤ q.rowBytes
      ∧ cellsRise none q.bytes = true)
    ∧ (∃ o j q, (after fcore [.mzdrn 3 6 .bf16 0, .matrixOpStart key]).rk.mx.drain = some (o, j)
      ∧ (after fcore [.mzdrn 3 6 .bf16 0, .matrixOpStart key]).tile? (field o.opA 0 7) = some q) :=
  ⟨⟨_, _, _, rfl, by decide, rfl, rfl, by decide⟩, ⟨_, rfl, by decide, rfl, by decide⟩, ⟨_, rfl, by decide⟩, ⟨_, _, rfl, by decide, rfl, by decide⟩,
    ⟨_, _, _, rfl, rfl, rfl, by decide, rfl⟩, ⟨_, _, _, rfl, rfl⟩⟩


/-! Messages, barriers, helpers, control registers, exceptions. -/

/-- A launch of four ranks, in which the state is rank 0. -/
def spanned : State := withRank base fun r => { r with id := { r.id with span := 4, hmax := 2 } }

/-- Messages of source 3, of tags 1 and 2. -/
def withInbox (s : State) : State := withRank s fun r => { r with inbox := [⟨3, 1, 0⟩, ⟨3, 2, 0⟩] }

/-- A destination at the span and below it, tags at 16 bits; room and none; held messages of 31 and 32; a match behind another message and
none; no receive that waits, and one that has waited longer for the only message; a flight behind one of the same sender, and the first of its
own. -/
theorem witness_MessageResults :
    let s := withX spanned [(2, 4), (3, 3), (4, 0x10000), (5, 0xFFFF), (6, 0x0002000000000002), (7, 0x0002000000000003)]
    let full := withRank s fun r => { r with inbox := List.replicate 64 ⟨3, 1, 0⟩ }
    let held := fun n => withRank s fun r => { r with blotter := List.replicate n ⟨0, 0, 0, 0⟩ }
    let t := withInbox s
    let fits := fun (w : Word) (m : Message) => (m.tag ^^^ w.setWidth 16) &&& w.extractLsb' 16 16 = 0
      ∧ (bitAt w 49 = true ∨ m.src = field w 32 17)
    let fl := { s with eng := { s.eng with flights := [⟨0, 0, 3, 0, 1, 0, false⟩, ⟨0, 0, 3, 0, 2, 0, false⟩] } }
    let rival := { s with
      fab := { s.fab with clock := 5 }
      rk := { s.rk with inbox := [⟨3, 2, 0⟩], ctxs := [{ base.cx with num := 1, wait := .mrcv 4 0x20000FFFF0002 }] } }
    s.rk.id.span.toNat ≤ (s.x 2).toNat ∧ ¬ (s.rk.id.span.toNat ≤ (s.x 3).toNat ∨ 0x20000 ≤ (s.x 3).toNat) ∧ 0x10000 ≤ (s.x 4).toNat
    ∧ (s.x 5).toNat < 0x10000 ∧ (27 : VField).val < 28 ∧ s.inboxHasRoom 0 = true ∧ full.inboxHasRoom 0 = false
    ∧ ((held 31).rk.blotter.filter fun q => q.ctx == s.cx.num).length < 32
    ∧ 32 ≤ ((held 32).rk.blotter.filter fun q => q.ctx == s.cx.num).length
    ∧ s.live ∧ s.cx.lanes = [] ∧ (∀ r ∈ s.liveRanks, s.inboxTaken r + 31 ≤ 64) ∧ (held 32).rk.blotter.length = 32 ∧ s.rk.blotter.length < 32
    ∧ 0x4000000000000 ≤ (0x4000000000000 : Word).toNat ∧ (0x3FFFFFFFFFFFF : Word).toNat < 0x4000000000000
    ∧ (∀ m ∈ t.rk.inbox, ¬ fits 0x200FFFF0003 m) ∧ t.rk.inbox = [⟨3, 1, 0⟩] ++ ⟨3, 2, 0⟩ :: []
    ∧ ¬ fits 0x20000FFFF0002 ⟨3, 1, 0⟩ ∧ fits 0x20000FFFF0002 ⟨3, 2, 0⟩ ∧ (3 : Nat) < 0x20000 ∧ t.rk.ctxs = []
    ∧ (∃ c, rival.rk.ctxs = [c] ∧ c.wait = .mrcv 4 0x20000FFFF0002) ∧ 4 < rival.fab.clock ∧ rival.cx.wait = .none ∧ rival.rk.inbox = [⟨3, 2, 0⟩]
    ∧ (∃ f, fl.eng.flights[1]? = some f ∧ ∃ g ∈ fl.eng.flights.take 1, g.launch = f.launch ∧ g.run = f.run ∧ g.src = f.src ∧ g.dest = f.dest)
    ∧ (∃ f, fl.eng.flights[0]? = some f ∧ fl.rk.key = ⟨f.launch, f.dest⟩ ∧ fl.rk.run = f.run
      ∧ ∀ g ∈ fl.eng.flights.take 0, ¬ (g.launch = f.launch ∧ g.run = f.run ∧ g.src = f.src ∧ g.dest = f.dest)) := by
  unfold State.live
  and_intros <;> first | decide +kernel | exact ⟨_, rfl, rfl⟩

/-- A member of group 0 of a launch of one rank. -/
def member (b : BarSlot) : State :=
  let s := withRank base fun r => { r with id := { r.id with span := 1 }, grp := r.grp.set 0 0x8000, bar := r.bar.set 0 b }
  { s with disp := { s.disp with launches := [launchIn 0 .running (.queue 0)] } }

/-- A helper; a slot with no group; every state of an arrival; a wait begun as a switch point and one that was none; a last arrival and one that
another member is to follow; a rank whose core has another to go on with. -/
theorem witness_BarrierResults :
    let off : BarSlot := .reset
    let on : BarSlot := { off with arrived := true }
    (State.isControl { base with cx := { base.cx with num := 1 } }) = false ∧ base.isControl = true ∧ bitAt base.rk.grp[(3 : Fin 4)] 15 = false
    ∧ bitAt (member off).rk.grp[(0 : Fin 4)] 15 = true ∧ (member off).rk.bar[(0 : Fin 4)].arrived = false
    ∧ (member on).rk.bar[(0 : Fin 4)].arrived = true ∧ (member on).rk.bar[(0 : Fin 4)].released = false
    ∧ (member { on with released := true, byVote := true }).rk.bar[(0 : Fin 4)].released = true
    ∧ (member on).live ∧ (member on).rk.core = (member on).co.num ∧ (∀ r ∈ (member on).ranks, r.onCore (member on).co.num = false)
    ∧ (member on).rk.bar[(0 : Fin 4)].counted = false ∧ (member on).ms.move.busy = false ∧ (∀ f ∈ (member on).eng.flights, ¬ f.gate = true)
    ∧ (member off).live ∧ (member off).rk.core = (member off).co.num ∧ (∀ r ∈ (member off).ranks, r.onCore (member off).co.num = false)
    ∧ (let at_ := fun (point : Bool) => { member on with cx := { (member on).cx with wait := .barrier 0 point } }
       (at_ true).pointHere 0 = true ∧ (at_ false).pointHere 0 = false ∧ (at_ true).live ∧ (at_ true).rk.core = (at_ true).co.num
       ∧ (∀ r ∈ (at_ true).ranks, r.onCore (at_ true).co.num = false) ∧ (at_ true).isControl = true)
    ∧ (let two := fun (s : State) => { s with disp := { s.disp with launches :=
          [{ launchIn 0 .running (.queue 0) with words := (launchIn 0 .running (.queue 0)).words.set 2 2 }] } }
       let done := { member { on with released := true } with cx := { (member on).cx with wait := .barrier 0 true } }
       (∀ v ∈ [true, false], ((member off).arrive 0 v true v).allArrived 0 = true ∧ ((two (member off)).arrive 0 v true v).allArrived 0 = false)
       ∧ (two (member off)).live ∧ (two (member off)).isControl = true ∧ (two (member off)).rk.bar[(0 : Fin 4)].arrived = false
       ∧ done.yields = false ∧ { done with ranks := [{ base.wholeRank with key := ⟨0, 1⟩ }] }.yields = true) := by
  unfold State.live; decide

/-- Groups 0 and 1 of a launch whose one rank has arrived and been counted in both. -/
theorem witness_BarrierResults_release (g : Fin 2) :
    let b : BarSlot := { BarSlot.reset with arrived := true, counted := true }
    let s := member b
    let s := withRank s fun r => { r with grp := r.grp.set 1 0x8001, bar := r.bar.set 1 b }
    let l := { launchIn 0 .running (.queue 0) with groups := [[0]], words := (launchIn 0 .running (.queue 0)).words.set 2 1 }
    let s := { s with disp := { s.disp with launches := [l] } }
    s.live ∧ s.disp.launches.find? (fun x => x.num == s.rk.key.launch) = some l ∧ s.rk.run = 0 ∧ (l.members g.val).length ≠ 0
    ∧ (s.phaseParts s.rk.key.launch 0 g.val).length = (l.members g.val).length ∧ s.rk.inPhase g.val = some b ∧ (s.rk.slotOf g.val).isSome = true := by
  unfold State.live; revert g; decide +kernel

/-- Control context and helper; starts aligned and not, at the launch's limit and below it, at helper 1 and at 10 with the others not held;
`hjoin` of a helper that lives and of one that does not, at 15 and 16. -/
theorem witness_HelperResults :
    let s := withX spanned [(2, 0x30000), (3, 0x30002), (4, 16), (5, 15), (6, 1)]
    let one := after s [.hstart 1 2 0]
    let helper := { one with cx := { one.cx with num := 1 }, rk := { one.rk with ctxs := [s.cx] } }
    let last := { s with own := { s.own with entries := (List.range 9).map fun k => ⟨2, k, 2, 0, 0, false, 0, 0, 0, 0⟩ } }
    helper.isControl = false ∧ s.isControl = true ∧ (s.x 2).toNat % 4 = 0 ∧ (s.x 3).toNat % 4 ≠ 0 ∧ base.rk.id.hmax ≤ 0
    ∧ ((s.cx :: s.rk.ctxs).map Context.num).filter (fun n => n != 0) = [] ∧ 0 < s.rk.id.hmax ∧ s.own.holder 0x02 0 = s.owner
    ∧ (∀ j, 1 ≤ j → j < 10 → last.own.holder 0x02 (10 * last.co.num + j - 1) ≠ last.owner) ∧ last.own.holder 0x02 9 = last.owner
    ∧ 16 ≤ (s.x 4).toNat ∧ (s.x 5).toNat < 16 ∧ ((one.cx :: one.rk.ctxs).map Context.num).filter (fun n => n != 0) = [1]
    ∧ (one.x 6).toNat = 1 ∧ (one.x 5).toNat ≠ 1 ∧ helper.rk.ctxs = s.cx :: [] ∧ s.rk.id.hmax ≤ 10 := by
  refine ⟨rfl, rfl, by decide, by decide, by decide, by decide, by decide, by decide, ?_, by decide, by decide, by decide, by decide, by decide,
    by decide, rfl, by decide⟩
  intro j h1 h2
  match j, h1, h2 with
  | 1, _, _ | 2, _, _ | 3, _, _ | 4, _, _ | 5, _, _ | 6, _, _ | 7, _, _ | 8, _, _ | 9, _, _ => decide

/-- Indices that no register has, at the edges of the listed ranges. -/
theorem witness_ControlRegisterResults :
    ([0x00C, 0x00F, 0x012, 0x01F, 0x028, 0x035, 0x039, 0x03F, 0x045, 0x04B, 0x051, 0xFFF].all fun ix => !crListed ix && ix != 0x010) = true := by
  decide

/-- A handler set or not, HF clear or set, a control context and a helper. -/
theorem witness_TrapEntryResults :
    handled.cx.cr.trapvec ≠ 0 ∧ handled.cx.hf = false ∧ handled.cx.pair = false ∧ base.live ∧ base.cx.cr.trapvec = 0 ∧ base.cx.hf = false
    ∧ (after (withX handled []) [.trap 0]).cx.hf = true ∧ base.isControl = true ∧ base.cx.wait = .none ∧ handled.cx.mx.pending = false
    ∧ (let s := { handled with cx := { handled.cx with wait := .lwait, mx := ⟨true, 0, 1, 0, 0⟩ } }
       s.cx.wait ≠ .none ∧ s.cx.mx.pending = true ∧ s.cx.hf = false ∧ s.cx.pair = false ∧ s.cx.cr.trapvec ≠ 0) := by unfold State.live; decide

theorem witness_SystemResults :
    let dbg := { base with scr := { base.scr with debugOwners := [1] } }
    let mx := { handled with cx := { handled.cx with mx := ⟨true, 0xFFFF, 1, 2, 15⟩ } }
    base.owner ∉ base.scr.debugOwners ∧ dbg.owner ∈ dbg.scr.debugOwners ∧ base.co.halted = false ∧ (after base [.halt]).co.halted = true
    ∧ base.cx.hf = false ∧ (after handled [.trap 0]).cx.hf = true ∧ mx.cx.run = .running ∧ mx.cx.wait = .none ∧ mx.cx.answer = none
    ∧ mx.cx.lanes = [] ∧ mx.cx.pair = false ∧ mx.co.halted = false ∧ mx.cx.hf = false ∧ mx.cx.mx.pending = true ∧ mx.cx.cr.trapvec ≠ 0 := by decide

/-- Masks at bit 25 and below it; none, a bit that is set, one that is clear; a pending MXOVF. -/
theorem witness_WfeResults :
    let s := withX (withRank base fun r => { r with wake := 1 }) [(1, 0x2000000), (2, 1), (3, 0x1000000)]
    let mx := { s with cx := { s.cx with mx := ⟨true, 0, 0, 0, 0⟩ } }
    2^25 ≤ (s.x 1).toNat ∧ (s.x 0).toNat < 2^25 ∧ s.x 0 = 0 ∧ (s.x 2).toNat < 2^25 ∧ s.est &&& s.x 2 ≠ 0 ∧ (s.x 3).toNat < 2^25
    ∧ s.x 3 ≠ 0 ∧ s.est &&& s.x 3 = 0 ∧ s.cx.mx.pending = false ∧ mx.cx.mx.pending = true := by decide

/-- The word that a fetch answers. -/
def fetched (s : State) (pc : Word) : Option Nat :=
  match s.fetch pc with
  | .ok q => some q.2
  | .error _ => none

theorem fetches (s : State) (pc : Word) (w : Nat) (h : fetched s pc = some w) : ∃ t, s.fetch pc = .ok (t, w) := by
  unfold fetched at h
  split at h
  · cases h; exact ⟨_, ‹_›⟩
  · cases h

/-- The rank of the state as participant n of a launch, its peers those given. -/
def peered (n : Nat) (f : Rank → Rank) (peers : List Rank) (w : Nat) : State :=
  { withRank base (fun r => f { r with key := ⟨0, n⟩ }) with
    ms := { base.ms with mem := writeLE base.ms.mem 0x10004 4 w }
    ranks := peers }

/-- Rank n of that launch. -/
def peer (n : Nat) : Rank := { base.wholeRank with key := ⟨0, n⟩ }

/-- The state after the fetch of the word behind the prefix. -/
def fetchedIn (s : State) : State :=
  match s.fetch (s.cx.pc + 4) with
  | .ok q => q.1
  | .error t => t

/-- A helper; the lowest participant, before an `addi` and a `crr`, whose peer has room for the value and has none; one that is not the lowest, with the pair
failed, given up, and yet to come; a pair that a handler cuts short. -/
theorem witness_SoloResults_peers :
    let low := fun w => peered 0 id [peer 1] w
    let full : Rank := { peer 1 with solo := { (peer 1).solo with posted := List.replicate 16 (9, 0) } }
    let high := fun (f : Rank → Rank) => peered 1 f [peer 0] 0xC8800002
    let quits := peered 1 id [{ peer 0 with bar := (peer 0).bar.set 0 { BarSlot.reset with arrived := true } }] 0xC8800002
    let failed := high fun r => { r with solo := { r.solo with failed := [(1, Cause.page)] } }
    decode 0xC8800002 = .ok (.crr 4 2) ∧ State.isControl { base with cx := { base.cx with num := 1 } } = false
    ∧ (∀ w ∈ [0x0C200005, 0xC8800002], (fetched (low w) ((low w).cx.pc + 4) = some w) ∧ (low w).live ∧ (low w).isControl = true
      ∧ (∀ r ∈ (low w).participants, (low w).rk.key.rank ≤ r.key.rank) ∧ (∀ r ∈ (low w).participants, r.solo.posted.length < 16)
      ∧ (low w).participants.length = 2 ∧ ∀ q ∈ (low w).rk.solo.posted, q.1 ≠ (low w).rk.solo.count + 1)
    ∧ ¬ (∀ r ∈ (peered 0 id [full] 0xC8800002).participants, r.solo.posted.length < 16)
    ∧ (soloBody (.crr 4 2)).map (·.1) = some 4
    ∧ answers (.crr 4 2) { fetchedIn (low 0xC8800002) with cx := { (fetchedIn (low 0xC8800002)).cx with pair := true } } (fun u =>
        u.rk.solo.count == 1 && !u.rk.tooFew 1 && u.ranks.all fun r => u.soloPeer r && !r.is u.rk.key u.rk.run && decide (r.solo.count < 1)) = true
    ∧ answers (.ldD 1 2 1) { fetchedIn (low 0) with cx := { (fetchedIn (low 0)).cx with pair := true } } (fun u => u.rk.solo.count == 0) = true
    ∧ (∀ s ∈ [high id, quits, failed], ¬ (∀ r ∈ s.participants, s.rk.key.rank ≤ r.key.rank) ∧ s.live ∧ s.isControl = true)
    ∧ (failed.rk.solo.failed.find? fun q => q.1 == 1) = some (1, Cause.page) ∧ (∀ q ∈ quits.rk.solo.failed, q.1 ≠ 1)
    ∧ quits.electedRank.tooFew 1 = true ∧ (high id).electedRank.tooFew 1 = false := by
  unfold State.live
  exact ⟨rfl, by decide +kernel⟩

/-- A prefix before `addi x1, x0, 5`, before a word that is none, and before a branch; the value of the pair posted and not. -/
theorem witness_SoloResults :
    let at_ := fun w => { base with ms := { base.ms with mem := writeLE base.ms.mem 0x10004 4 w } }
    (∀ w ∈ [0x0C200005, 0, 0x34000001], ∃ t, (at_ w).fetch ((at_ w).cx.pc + 4) = .ok (t, w)) ∧ (at_ 0).live ∧ (at_ 0).cx.pair = false
    ∧ (at_ 0).isControl = true ∧ decode 0x0C200005 = .ok (.addi 1 0 5) ∧ integerDest (.addi 1 0 5) = some 1 ∧ (∃ e, decode 0 = .error e)
    ∧ (∃ i, decode 0x34000001 = .ok i ∧ soloBody i = none) ∧ (∀ q ∈ (at_ 0).rk.solo.posted, q.1 ≠ 1) ∧ (at_ 0).rk.solo.posted.length < 16
    ∧ (∀ r ∈ (at_ 0).participants, (at_ 0).rk.key.rank ≤ r.key.rank) ∧ (∀ r ∈ (at_ 0).participants, r.solo.posted.length < 16)
    ∧ (let s := withRank base fun r => { r with solo := { r.solo with posted := [(1, 9)] } }
       (s.rk.solo.count + 1, (9 : Word)) ∈ s.rk.solo.posted ∧ ∀ q ∈ s.rk.solo.posted, q.1 = 1 → q.2 = 9) := by
  refine ⟨?_, rfl, rfl, rfl, rfl, rfl, ⟨_, rfl⟩, ⟨_, rfl, rfl⟩, by decide, by decide, by decide, by decide, by decide⟩
  intro w hw
  simp only [List.mem_cons, List.not_mem_nil, or_false] at hw
  rcases hw with rfl | rfl | rfl <;> exact fetches _ _ _ (by decide +kernel)


/-! Launches, dispatch, debuggers, replies, rungs. -/

/-- The record of a launch of two ranks at 0x40000, ENTRY 0x10000, LBLK 0x50000. -/
def recorded : State := withX (withMem base [(0x40000, 0x10000), (0x40008, 0x50000), (0x40010, 2)]) [(2, 0x40000), (3, 0x40040), (4, 0x40080)]

/-- The words of a record that can be read. -/
def recordRead (s : State) (va : Word) : Option (Nat ⊕ List (List Nat)) :=
  match s.readRecord 1 va none with
  | .ok q => some (.inr q.2)
  | .error (.broken v) => some (.inl v)
  | .error (.trouble _) => none

theorem recordRead_ok (s : State) (va : Word) (gs : List (List Nat)) (h : recordRead s va = some (.inr gs)) :
    ∃ w, s.readRecord 1 va none = .ok (w, gs) := by
  unfold recordRead at h
  split at h
  · cases h; exact ⟨_, ‹_›⟩
  · cases h
  · cases h

theorem recordRead_broken (s : State) (va : Word) (v : Nat) (h : recordRead s va = some (.inl v)) : s.readRecord 1 va none = .error (.broken v) := by
  unfold recordRead at h
  split at h
  · cases h
  · cases h; assumption
  · cases h

/-- A record that R33 allows, one of zeros that it does not, one that is not aligned. -/
theorem witness_LaunchInstructionResults_records :
    let s := recorded
    s.isControl = true ∧ s.cx.wait = .none ∧ s.live ∧ calm s ∧ s.sendsOut = false ∧ s.ms.move.busy = false ∧ (∀ l ∈ s.disp.launches, l.num < s.disp.nextNum)
    ∧ (∀ f ∈ s.disp.records, ∀ w ∈ f.waiters, w.1 ≠ .child s.disp.nextNum) ∧ s.owner = 1 ∧ (∃ w, s.readRecord 1 (s.x 2) none = .ok (w, []))
    ∧ s.readRecord 1 (s.x 4) none = .error (.broken 16) ∧ (s.x 2).toNat % 128 = 0 ∧ (s.x 3).toNat % 128 ≠ 0 ∧ (s.x 4).toNat % 128 = 0
    ∧ (∀ t ∈ s.rk.tickets, ¬ t.kind = .launch) ∧ State.isControl { s with cx := { s.cx with num := 1 } } = false :=
  ⟨rfl, rfl, rfl, ⟨rfl, rfl, rfl, rfl, rfl⟩, rfl, rfl, by decide, by decide, rfl, recordRead_ok _ _ _ (by decide +kernel),
    recordRead_broken _ _ _ (by decide +kernel), by decide, by decide, by decide, by decide, rfl⟩

/-- Ticket words for `lwait` and `collwait`: past 35 bits, below 2^34, with a channel, and one with fifteen and with sixteen later ones. -/
theorem witness_LaunchInstructionResults_tickets :
    let t := fun (seq st : Nat) => Ticket.mk .launch 0 seq st 0 0 false
    let later := fun n => (List.range n).map fun k => t (k + 2) 2
    2^35 ≤ (0x800000000 : Word).toNat ∧ (0x3FFFFFFFF : Word).toNat < 2^34 ∧ field (0x500000001 : Word) 32 2 ≠ 0
    ∧ (0x400000001 : Word).toNat / 2^32 = 4 ∧ field (0x400000001 : Word) 0 32 = 1 ∧ (∀ u ∈ later 16, ¬ u.seq = 1)
    ∧ ((later 16).filter fun u => u.kind == .launch && u.chan == 0).length = 16
    ∧ ((later 15).filter fun u => u.kind == .launch && u.chan == 0).length < 16 ∧ (t 1 1).state < 2 ∧ 2 ≤ (t 1 2).state := by decide

/-- Queue 0, admitted, with cores 0 and 1 granted. -/
def queue0 : Queue :=
  { num := 0, base := 0x60000, log2 := 4, qkey := 0, enable := true, prog := 0x70000, head := 1, doneNum := 0, tail := 1, lastFence := 0,
    seenFence := 0, fenceRec := none, shownFence := 0, shownRec := none, state := .admitted, ended := [], record := none, progRec := none, ring := none, progRing := none, stale := false, tell := false, held := false,
    arrivals := [] }

def withQueue (q : Queue) (cores : List Nat) (ls : List Launch) (s : State) : State :=
  { s with disp := { s.disp with queues := [q], slots := [(0, ⟨true, 1, 0, 1, cores⟩)], launches := ls } }

/-- A launch of one rank ready on queue 0. -/
def ready1 : Launch := { launchIn 7 .ready (.queue 0) with words := (Vector.replicate 16 0).set 2 1 }

/-- No rank in focus. -/
def noRank (s : State) : State := withRank s fun r => { r with state := .ended }

theorem witness_LaunchRunResults_place :
    let s := withQueue queue0 [0, 1] [ready1] (noRank base)
    ((s.retryProgress 0).resumeSaved 0).readNext 0 = s ∧ s.candidate (.queue 0) = some ready1 ∧ s.launch? 7 = some ready1 ∧ s.placeable ready1 = true
    ∧ s.outranked ready1 = false ∧ s.placement ready1 = some [[0]] :=
  ⟨rfl, rfl, rfl, by decide +kernel, by decide +kernel, by decide +kernel⟩

/-- A control context that waits in `hexit` with nothing left; a launch with no rank left; one past its deadline and one reported. -/
theorem witness_LaunchRunResults_ends :
    let l := launchIn 0 .running (.program ⟨3, 0⟩ 0 1)
    let e := withQueue queue0 [0] [l] { base with cx := { base.cx with wait := .exiting } }
    let o := withQueue queue0 [0] [l] (noRank base)
    let d := { l with words := l.words.set 5 5 }
    let p := { withQueue queue0 [0] [d] base with time := 6 }
    e.live ∧ e.mayEnd e.wholeRank = true ∧ e.launch? e.rk.key.launch = some l ∧ l.dual = false ∧ (∀ r ∈ e.ranks, r.core ≠ e.rk.core)
    ∧ o.launch? l.num = some l ∧ o.retryProgress l.queue = o ∧ l.state = .running ∧ o.allEnded l.num = true ∧ o.stopping l.num = false
    ∧ p.launch? d.num = some d ∧ d.late = false ∧ d.deadline ≠ 0 ∧ d.deadline.toNat < p.time :=
  ⟨rfl, by decide +kernel, rfl, rfl, by decide, rfl, rfl, rfl, by decide +kernel, by decide +kernel, rfl, rfl, by decide, by decide⟩

/-- One live VF of owner 1 on port A; queue 0 admitted and idle; a tail at its bound; orders, deferred records, folded ranks. -/
theorem witness_DispatchResults :
    let h := { base.host with
      ports := base.host.ports.set 0 { base.host.ports[(0 : Fin 2)] with vfEnable := true }
      vfs := [⟨0, 1, 0, 1, 0, 0, 0, false, 0, 0, none⟩] }
    let s := { withQueue queue0 [0] [] base with host := h }
    let idle := withQueue { queue0 with state := .idle } [0] [] base
    let good : BindRec := ⟨true, 1, 0, 16, [1535]⟩
    let order := { s with disp := { s.disp with orders := [(0, 5), (0, 6)], deferred := [(0, good)] } }
    let folded := { noRank base with ranks := [{ base.wholeRank with state := .folded }] }
    s.queue? 0 = some queue0 ∧ s.host.ready = true ∧ s.host.leased = true ∧ s.host.active = (HostPort.portA == .portB) ∧ s.liveVfs 1 ≠ []
    ∧ s.own.holder 0x04 0 = 1 ∧ queue0.enable = true ∧ ((17 : Nat) % 2^32 + 2^32 - queue0.head) % 2^32 ≤ 2^queue0.log2
    ∧ State.reset.host.ready = false ∧ (idle.queue? 0).map Queue.state = some .idle ∧ idle.own.isLive 1 = true ∧ field (4 : Word) 0 5 = queue0.log2
    ∧ (order.disp.orders.any fun o => o.1 == 0) = true ∧ (s.disp.orders.any fun o => o.1 == 0) = false ∧ good.valid = true ∧ good.owner ≠ 0
    ∧ (foreign s 4 0).own.holder 0x04 0 ≠ good.owner ∧ (∃ c ∈ good.cores, (foreign s 1 1535).own.holder 0x01 c ≠ good.owner)
    ∧ { good with valid := false }.valid = false ∧ (4095 : Nat) < 4096
    ∧ (∀ c ∈ good.cores, s.own.holder 0x01 c = good.owner ∧ c < 1536) ∧ 1 ≤ good.weight
    ∧ good.weight ≤ 16 ∧ (∀ l ∈ s.disp.launches, l.queue = 0 → l.state ≠ .running)
    ∧ (order.disp.deferred.find? fun e => e.1 == 0) = some (0, good) ∧ (order.disp.orders.find? fun o => o.2 == 5) = some (0, 5)
    ∧ (∀ r ∈ order.liveRanks, r.onCore 5 = false) ∧ (∃ o ∈ order.disp.orders, o.1 = 0 ∧ o.2 ≠ 5)
    ∧ folded.rk.state = .ended ∧ queue0.progRing = none ∧ (∃ r, folded.ranks = [r] ∧ r.state = .folded ∧ r.spilled = false ∧ r.canResume = true ∧ r.core < 1536
      ∧ ∀ u ∈ folded.fab.requests, u.issuer ≠ .store r.key r.run noContext) := by
  refine ⟨rfl, rfl, rfl, rfl, ?_, ?_, rfl, by decide, rfl, rfl, ?_, by decide, rfl, rfl, rfl, by decide, ?_, ⟨1535, .head _, ?_⟩, rfl, by decide, ?_,
    by decide, by decide, ?_, rfl, rfl, ?_, ⟨(0, 6), by decide⟩, rfl, rfl, ⟨_, rfl, rfl, rfl, rfl, by decide, nofun⟩⟩ <;> decide +kernel

theorem witness_DispatchResults_progress :
    let s := withQueue queue0 [0] [launchIn 0 .running (.queue 0)] base
    engineLands (withQueue queue0 [0] [] base) 1 .engineWrite (addr53 queue0.prog) 0x70000 ∧ engineLands s 1 .engineWrite (addr53 queue0.prog) 0x70000
    ∧ (∃ l ∈ s.disp.launches, l.num = s.rk.key.launch ∧ l.queue = 0 ∧ l.state = .running) ∧ s.live ∧ s.rk.run = 0 :=
  ⟨lands_engine _ _ _ _ (by decide +kernel), lands_engine _ _ _ _ (by decide +kernel), ⟨_, .head _, rfl, rfl, rfl⟩, rfl, rfl⟩

/-- The map of owner 1 with one entry. -/
def owning1 (e : MapEntry) : State := { base with own := { base.own with entries := [e] } }

/-- A load of the context in focus that waits for another module, accepted at a time. -/
def loading (at_ : Nat) : State :=
  { base with fab := { base.fab with requests :=
      [{ id := 3, issuer := .load ⟨0, 0⟩ 0 0, kind := .read, dest := 7, sagent := 0, pseq := 0, keyid := 0, addr := 0x50000,
         local_ := 0x30000, bytes := 8, data := 0, time := at_, deadline := at_ + 10000, owner := 1, injected := true, entry := 0, host := false,
         ivc := 0, failed := 0, payload := [], block := none, weight := 1, via := 7, vf := 0, nodes := [], copies := [], resent := false,
         marked := false }] } }

theorem witness_DebugResults :
    let s := { base with signals := 0x8000, co := { base.co with member := 0x8000, halted := true, haltedAt := 0 }, cx := { base.cx with wait := .retry 5 0x30000 } }
    base.signals.toNat.testBit 15 = false ∧ s.signals.toNat.testBit 15 = true ∧ s.co.member.toNat.testBit 15 = true ∧ s.co.member.toNat.testBit 0 = false
    ∧ base.co.halted = false ∧ (base.coreAt 1535).halted = false ∧ (s.coreAt 0).halted = true ∧ s.live ∧ s.rk.core = s.co.num ∧ s.cx.wait = .retry 5 0x30000
    ∧ base.cx.wait = .none ∧ (∀ r ∈ s.ranks, r.is s.rk.key s.rk.run = false) ∧ base.cx.toPost = []
    ∧ ((owning1 ⟨1, 0, 1, 2, 0, false, 0, 0, 0, 0⟩).own.entry 0x01 0).lender ≠ 0 ∧ (∃ q ∈ (loading 5).fab.requests, q.issuer = .load s.rk.key s.rk.run s.cx.num) := by
  unfold State.live; decide

/-- A context with a handler that waits for fault record 3, posted at time 5 at 0x30000. -/
def recordWait (reply now : Nat) : State :=
  let s := withMem handled [(0x30038, reply)]
  { s with
    time := now
    cx := { s.cx with wait := .record 3 }
    disp := { s.disp with records := [(⟨3, 1, some (⟨0, 0⟩, 0, 0), [(.context ⟨0, 0⟩ 0 0, 0x100000000)], 0x80000, 0x100000000, 3, some 0x30000, 5⟩ : FaultRec)] } }

/-- Every reply, at the last ns before the limit and at it. -/
theorem witness_WaitEndResults_records :
    (∀ r ∈ [0, 1, 2, 3], handles (recordWait r 1000004) ∧ readLE (recordWait r 1000004).ms.mem ((recordWait r 1000004).ms.homeAddr 0x30038) 8 % 4 = r)
    ∧ (∃ f, (recordWait 0 1000004).disp.records.find? (fun g => g.num == f.num) = some f ∧ f.waiters = [(.context ⟨0, 0⟩ 0 0, f.va)] ∧ f.num = 3 ∧ f.who = some (⟨0, 0⟩, 0, 0)
      ∧ f.slot = some 0x30000 ∧ (recordWait 0 1000004).time < f.posted + 1000000 ∧ f.posted + 1000000 ≤ (recordWait 0 1000005).time)
    ∧ (recordWait 0 1000005).co.halted = false ∧ (recordWait 0 5).cx.wait = .record 3 ∧ (recordWait 1 5).ms.movingAt (0x30000 + 0x38) = false
    ∧ (recordWait 1 5).ms.pendingAt (0x30000 + 0x38) 8 = false
    ∧ (let s := recordWait 1 5
       { s.ms with move := { s.ms.move with busy := true, src := 0x30000, dst := 0x40000 } }.movingAt (0x30000 + 0x38) = true) := by
  refine ⟨?_, ⟨⟨3, 1, some (⟨0, 0⟩, 0, 0), [(.context ⟨0, 0⟩ 0 0, 0x100000000)], 0x80000, 0x100000000, 3, some 0x30000, 5⟩, rfl, rfl, rfl, rfl, rfl, by decide, by decide⟩, rfl, rfl, rfl, rfl, rfl⟩
  intro r hr
  simp only [List.mem_cons, List.not_mem_nil, or_false] at hr
  rcases hr with rfl | rfl | rfl | rfl <;> exact ⟨⟨rfl, rfl, rfl, by decide, rfl, rfl, rfl, by decide⟩, by decide +kernel⟩

/-- A full/empty wait before its limit and at it; a wait of 1 ms for the host lease. -/
theorem witness_WaitEndResults_limits :
    let f := fun now => { handled with cx := { handled.cx with wait := .retry 7 0x30000 }, time := now }
    let w := { handled with cx := { handled.cx with wait := .host 0x800000000000 0x30000 5 }, time := 1000005 }
    let h := { w with host := { handled.host with leased := false } }
    handles (f 7) ∧ handles (f 8) ∧ handles h ∧ (f 7).time ≤ 7 ∧ 7 < (f 8).time ∧ (f 8).cx.answer = none ∧ (f 8).co.halted = false
    ∧ (∀ e ∈ (f 8).ms.retry, e.moved = false) ∧ h.co.halted = false ∧ h.host.leased = false ∧ 5 + 1000000 ≤ h.time ∧ (f 7).cx.wait = .retry 7 0x30000 := by
  refine ⟨⟨rfl, rfl, rfl, by decide, rfl, rfl, rfl, by decide⟩, ⟨rfl, rfl, rfl, by decide, rfl, rfl, rfl, by decide⟩,
    ⟨rfl, rfl, rfl, by decide, rfl, rfl, rfl, by decide⟩, by decide, by decide, rfl, rfl, by decide, rfl, rfl, by decide, rfl⟩

/-- A replicated update of one byte; an owner 2 that owner 1 sponsors; a kept translation that its flush names; a move that R330 allows and
one that runs. -/
theorem witness_MemoryEventResults :
    let s := { base with
      ms := { base.ms with pending := [⟨0x30000, [1]⟩], kept := [⟨2, 0, 0x6F, 0, true⟩, ⟨1, 0, 0x6F, 0, true⟩], flushes := [2] }
      own := { base.own with owners := [{ OwnerRec.fresh 1 0 with cfgown := 2 }, OwnerRec.fresh 2 1] } }
    let m := { buffered with ms := { base.ms with move := { base.ms.move with busy := true, src := 0x30000, dst := 0x42000 } } }
    s.ms.pending = ⟨0x30000, [1]⟩ :: [] ∧ s.ms.move.done = false ∧ [(1 : Byte)].length ≤ 2^21 ∧ s.ms.mem.wf = true ∧ s.host.ready = true
    ∧ s.own.isLive 1 = true ∧ (s.own.ownerOr 1).cfgown = 2 ∧ s.own.isLive 2 = true ∧ (s.own.ownerOr 2).sponsor = 1 ∧ (1 : Nat) ≠ 0
    ∧ (base.own.ownerOr 1).cfgown = 0 ∧ base.own.isLive 0 = false ∧ 2 ∈ s.ms.flushes ∧ (∃ k ∈ s.ms.kept, ¬ (k.owner = 2 ∧ k.named = true))
    ∧ bitAt (1 : Word) 9 = false ∧ bitAt (0x200 : Word) 0 = false ∧ m.ms.move.busy = true ∧ m.ms.move.src % 2^13 = 0
    ∧ m.ms.move.dst % 2^13 = 0 ∧ m.ms.move.src + 2^13 ≤ m.ms.move.dst ∧ m.ms.mem.wf = true
    ∧ (∃ e ∈ m.co.stores, m.ms.move.src ≤ e.pa ∧ e.pa < m.ms.move.src + 2^13) := by
  refine ⟨rfl, rfl, by decide, ?_, rfl, rfl, rfl, rfl, rfl, by decide, rfl, rfl, by decide, ⟨_, .tail _ (.head _), by decide⟩, rfl, rfl, rfl, rfl,
    rfl, by decide, ?_, ⟨_, .tail _ (.head _), by decide⟩⟩ <;> decide +kernel

theorem witness_RungResults :
    let q := withQueue queue0 [0] [launchIn 0 .running (.queue 0)] base
    let helper := { base with cx := { base.cx with num := 1 }, rk := { base.rk with ctxs := [base.cx] } }
    let mx := after base [.mzero 0 0]
    let r : RungRun := ⟨0, 1, .device, 5⟩
    let rung := { base with disp := { base.disp with rungs := [r] }, time := 200005 }
    base.live ∧ (q.disp.slots.map (·.1)).Nodup ∧ (∃ l ∈ q.disp.launches, l.num = q.rk.key.launch ∧ l.queue = 0 ∧ l.state = .running ∧ l.owner = 1)
    ∧ base.rk.core = base.co.num ∧ helper.cx.num ≠ 0 ∧ (∀ c ∈ helper.rk.ctxs, c.num ≠ helper.cx.num) ∧ helper.live ∧ mx.live ∧ mx.rk.mx.ops ≠ []
    ∧ base.own.isLive 2 = false ∧ base.own.isLive 1 = true ∧ (rung.disp.rungs.find? fun x => x.num == 0) = some r ∧ r.start + 200000 ≤ rung.time
    ∧ base.time < r.start + 200000 ∧ base.disp.rungs = [] ∧ base.disp.heldCopies = []
    ∧ (let k : RankKey := ⟨0, 0⟩
       let h : RungRun := ⟨0, 2, .helper k 0 1, 5⟩
       let e := { helper with cx := { helper.cx with run := .stopped }, disp := { base.disp with rungs := [h], nextRung := 1 }, time := 2000005 }
       e.live ∧ e.disp.ending = [] ∧ (e.disp.rungs.find? fun x => x.num == 0) = some h ∧ h.start + 2000000 ≤ e.time ∧ h.num < e.disp.nextRung ∧ e.disp.rungs = [h]
       ∧ h.target = .helper e.rk.key e.rk.run e.cx.num ∧ e.cx.run = .stopped ∧ e.helperIdle e.rk.key e.rk.run e.cx.num = true) := by
  unfold State.live; decide

theorem reset_reads (a : Nat) : readLE Memory.reset a 8 = 0 := by
  have h : ∀ pa, readByte Memory.reset pa = 0 := fun _ => rfl
  simp [readLE, readBytes, h, leNat]

/-- No table stands in memory that lists nothing. -/
theorem no_replicas (plots : List Nat) (t : Nat) : tableReplicates Memory.reset plots 3 t = false := by
  simp [tableReplicates, reset_reads, show pteV (wd 0) = false from rfl]

/-- Two pages of one owner and key in memory that lists nothing. -/
def moving : State :=
  { base with ms := { base.ms with mem := Memory.reset, move := { base.ms.move with mvsrc := 0x40000, mvdst := 0x42000 } } }

theorem moving_replicated (l : List Nat) : moving.replicated l = false := by
  have h : moving.ms.mem = Memory.reset := rfl
  simp [State.replicated, h, no_replicas]

/-- Two pages that a move names. -/
def movingTo (src dst : Nat) : State := { base with ms := { base.ms with move := { base.ms.move with mvsrc := src, mvdst := dst } } }

/-- Each reason of MOVEBAD, those before it in the list not holding: a move that runs; a plot of another holder; a large page that is not aligned;
a page of four copies; one page that is both. -/
theorem witness_MemoryEventResults_bad :
    let alike := fun (s : State) (a b : List Nat) => ∀ p ∈ a, ∀ q ∈ b, plotBacked p = true ∧ plotBacked q = true ∧ s.own.holder 3 p = s.own.holder 3 q
      ∧ (s.own.entry 3 p).mkey = (s.own.entry 3 q).mkey
    let s := movingTo 0x40000 0x42000
    let idle := fun (s : State) => s.ms.move.busy = false ∧ s.ms.move.done = false
    let copies := { copied with ms := { copied.ms with move := s.ms.move } }
    let one := { moving with ms := { moving.ms with move := { moving.ms.move with mvdst := 0x40000 } } }
    s.host.ready = true ∧ s.own.isLive 1 = true ∧ bitAt (2 : Word) 1 = true
    ∧ ¬ idle { s with ms := { s.ms with move := { s.ms.move with busy := true } } }
    ∧ idle (foreign (movingTo 0x40000 0x40000000) 3 (plotOf 0x40000000))
    ∧ ¬ alike (foreign (movingTo 0x40000 0x40000000) 3 (plotOf 0x40000000)) [plotOf 0x40000] [plotOf 0x40000000]
    ∧ alike s [plotOf 0x40000, plotOf 0x40000 + 1, plotOf 0x40000 + 2, plotOf 0x40000 + 3]
        [plotOf 0x42000, plotOf 0x42000 + 1, plotOf 0x42000 + 2, plotOf 0x42000 + 3]
    ∧ ¬ ((0x40000 : Nat) % 2^23 = 0 ∧ (0x42000 : Nat) % 2^23 = 0) ∧ bitAt (1 : Word) 1 = false ∧ idle copies
    ∧ alike copies [plotOf 0x40000] [plotOf 0x42000] ∧ copies.replicated ([plotOf 0x40000] ++ [plotOf 0x42000]) = true
    ∧ idle one ∧ one.ms.move.mvsrc = one.ms.move.mvdst ∧ alike one [plotOf 0x40000] [plotOf 0x40000]
    ∧ one.replicated ([plotOf 0x40000] ++ [plotOf 0x40000]) = false := by
  refine ⟨rfl, rfl, by decide, by decide, by decide, by decide +kernel, by decide +kernel, by decide, by decide, by decide, by decide +kernel,
    by decide +kernel, by decide, rfl, by decide +kernel, moving_replicated _⟩

theorem witness_MemoryEventResults_move : moving.moveBad = none := by
  unfold State.moveBad
  simp only [moving_replicated]
  decide +kernel


/-! Ownership, ports, registers. -/

/-- Owners 1 and 2, the second sponsored by the first; one map entry of core 5. -/
def owning (e : MapEntry) : State :=
  { base with own := { base.own with owners := [OwnerRec.fresh 1 0, OwnerRec.fresh 2 1], entries := [e] } }

/-- Core 5 as the tests of the map need it: holder, lender, offer, kind of offer. -/
def core5 (holder lender offer : Nat) (lend : Bool) : MapEntry := ⟨1, 5, holder, lender, offer, lend, 9, 0, 7, 0⟩

/-- No such resource, at the first index past the cores and in a class of none; one that exists, at the last core; the entry held, lent, offered;
operands at the edges of their fields; a loan before its expiry and at it. -/
theorem witness_OwnershipResults :
    let s := owning (core5 1 0 0 false)
    let now := fun (e : MapEntry) (t : Nat) => { owning e with time := t }
    s.live ∧ s.cx.run = .running ∧ calm s ∧ s.sendsOut = false ∧ s.own.isLive s.owner = true ∧ s.readsStand 5 true = false
    ∧ resourceExists 1 1536 = false ∧ resourceExists 0xFF 0 = false
    ∧ resourceExists 1 1535 = true ∧ field (0x0100000000000005 : Word) 48 8 = 0 ∧ field (0x0101000000000005 : Word) 48 8 ≠ 0
    ∧ (s.own.entry 1 5).holder = s.owner ∧ ((owning (core5 2 1 0 false)).own.entry 1 5).holder ≠ s.owner
    ∧ 4096 ≤ (0x1000 : Word).toNat ∧ (0xFFF : Word).toNat < 4096 ∧ field (0x8000 : Word) 12 4 ≠ 0 ∧ field (0x90002 : Word) 12 4 = 0
    ∧ field (1 : Word) 0 12 = s.owner ∧ field (2 : Word) 0 12 ≠ s.owner ∧ s.own.isLive 2 = true ∧ s.own.isLive 4095 = false
    ∧ ((owning (core5 1 2 0 false)).own.entry 1 5).lender = 2 ∧ ((owning (core5 1 0 2 false)).own.entry 1 5).offerTo ≠ 0
    ∧ ((owning (core5 2 0 1 true)).own.entry 1 5).offerTo = s.owner ∧ ((owning (core5 2 0 1 true)).own.entry 1 5).lendOffer = true
    ∧ ((owning (core5 2 0 1 false)).own.entry 1 5).lendOffer = false ∧ (0xFFF0000000000040 : Word).toNat % 64 = 0 ∧ canonical 0xFFF0000000000040 = true
    ∧ canonical 0x1FFFFFFFFFFFC0 = false
    ∧ ((now (core5 2 1 0 false) 6).own.entry 1 5).lender = s.owner ∧ (now (core5 2 1 0 false) 6).time < (now (core5 2 1 0 false) 6).loanExpiry 1 5
    ∧ (now (core5 2 1 0 false) 7).loanExpiry 1 5 ≤ (now (core5 2 1 0 false) 7).time ∧ (0x30001 : Word).toNat % 64 ≠ 0
    ∧ s.bufferPlace 1 0x30000 = .ok ∧ (s.own.entry 1 6).lender ≠ s.owner ∧ (s.own.entry 1 6).offerTo ≠ s.owner ∧ s.cx.lanes = []
    ∧ s.imagesAway = false := by
  unfold State.live calm; decide +kernel

/-- A resource of a class lent to owner 2 whose term is over, its queue, where it is one, with a progress record. -/
def lent (cls : Nat) : State :=
  { owning ⟨cls, 5, 2, 1, 0, false, 0, 0, 7, 0⟩ with
    time := 7
    disp := { base.disp with queues := [{ queue0 with num := 5 }] } }

/-- Loans of classes 1, 4, 5 and 6 whose term is over: a core with no rank and no image, a queue whose progress record can be written. -/
theorem witness_OwnershipResults_reclaims :
    (∀ cls ∈ [1, 4, 5, 6], ((lent cls).own.entry cls 5).lender = (lent cls).owner ∧ (lent cls).loanExpiry cls 5 ≤ (lent cls).time
      ∧ (lent cls).bufferPlace 1 0x30000 = .ok ∧ (lent cls).imagesAway = false ∧ (lent cls).cx.lanes = [] ∧ resourceExists cls 5 = true)
    ∧ (∀ r ∈ (lent 1).liveRanks, r.onCore 5 = false) ∧ (lent 1).readsStand 5 false = false ∧ (lent 1).rungOn 5 = false
    ∧ ((lent 1).coreAt 5).image = 0 ∧ (∀ l ∈ (lent 4).disp.launches, l.queue = 5 → l.state ≠ .running)
    ∧ (∃ x, (lent 4).queue? 5 = some x ∧ x.log2 ≠ 0 ∧ x.progRing = none) ∧ ((lent 4).own.entry 4 5).holder = 2
    ∧ translate (lent 4).ms (lent 4).tick ((lent 4).own.ownerOr 2) 0x70000 .engineWrite = .at 0x70000 leaf0 := by
  refine ⟨by decide +kernel, by decide, by decide, by decide, by decide, by decide, ⟨_, rfl, by decide, rfl⟩, by decide, by decide +kernel⟩

/-- Owner 2 with a plot and a lent plot of its own, which no other owner calls its sponsor; and with owner 3 below it, to which owner 1 has lent
a core. -/
theorem witness_OwnershipResults_evicts :
    let s := { owning ⟨3, 5, 2, 0, 0, false, 0, 0, 0, 0⟩ with own := { (owning ⟨3, 5, 2, 0, 0, false, 0, 0, 0, 0⟩).own with
      entries := [⟨3, 5, 2, 0, 0, false, 0, 0, 0, 0⟩, ⟨4, 6, 2, 1, 0, false, 0, 0, 0, 0⟩] } }
    let t := { base with own := { base.own with
      owners := [OwnerRec.fresh 1 0, OwnerRec.fresh 2 1, OwnerRec.fresh 3 2], entries := [⟨1, 5, 3, 1, 0, false, 0, 0, 7, 0⟩, ⟨3, 5, 3, 2, 0, false, 0, 0, 0, 0⟩] } }
    (s.own.ownerOr 2).sponsor = s.owner ∧ s.bufferPlace s.owner 0x30000 = .ok ∧ (s.own.entries.map fun e => (e.cls, e.idx)).Nodup
    ∧ (∀ n, n ≠ 2 → s.own.isLive n = true → (s.own.ownerOr n).sponsor ≠ 2)
    ∧ (∀ e ∈ s.own.entries, e.lender ≠ 2 ∧ (e.holder = 2 → e.cls ≠ 1 ∧ e.cls ≠ 2))
    ∧ (∀ l ∈ s.disp.launches, l.owner ≠ 2 ∧ s.own.holder 4 l.queue ≠ 2) ∧ (∃ e ∈ s.own.entries, e.holder = 2)
    ∧ (t.own.ownerOr 2).sponsor = t.owner ∧ t.bufferPlace t.owner 0x30000 = .ok ∧ t.own.doomed 4096 2 = [3, 2] ∧ t.own.isLive 2 = true
    ∧ (t.own.entries.map fun e => (e.cls, e.idx)).Nodup ∧ t.imagesAway = false := by
  refine ⟨rfl, by decide +kernel, by decide, ?_, by decide, by decide, ⟨_, .head _, rfl⟩, rfl, by decide +kernel, by decide +kernel, rfl, by decide, rfl⟩
  intro n h2 h
  by_cases h1 : n = 1
  · subst h1; decide
  · simp only [Ownership.isLive, Ownership.ownerOr, Ownership.owner?, owning, OwnerRec.fresh, List.find?,
      beq_eq_false_iff_ne.mpr (Ne.symm h1), beq_eq_false_iff_ne.mpr (Ne.symm h2), Option.getD] at h
    cases h

/-- The first number free for a new owner; an owner that the caller sponsors and one that it does not; one that may be evicted. -/
theorem witness_OwnershipResults_owners :
    let s := owning (core5 1 0 0 false)
    s.own.isLive 3 = false ∧ (∀ m, 2 ≤ m → m < 3 → s.own.isLive m = true) ∧ (s.own.ownerOr 2).sponsor = s.owner ∧ (s.own.ownerOr 1).sponsor ≠ s.owner
    ∧ s.own.isLive 2 = true ∧ s.own.isLive (field (5 : Word) 0 12) = false ∧ (4096 : Nat) ≤ (0x1000 : Word).toNat
    ∧ (∀ n, n ≠ 2 → s.own.isLive n = true → (s.own.ownerOr n).sponsor ≠ 2) ∧ (∀ e ∈ s.own.entries, e.holder ≠ 2 ∧ e.lender ≠ 2)
    ∧ (∀ l ∈ s.disp.launches, l.owner ≠ 2) ∧ s.bufferPlace 1 0x30000 = .ok := by
  refine ⟨rfl, ?_, rfl, by decide, rfl, rfl, by decide, ?_, by decide, by decide, by decide +kernel⟩
  · intro m h1 h2
    have h : m = 2 := by omega
    subst h; rfl
  · intro n h2 h
    by_cases h1 : n = 1
    · subst h1; decide
    · simp only [Ownership.isLive, Ownership.ownerOr, Ownership.owner?, owning, OwnerRec.fresh, List.find?,
        beq_eq_false_iff_ne.mpr (Ne.symm h1), beq_eq_false_iff_ne.mpr (Ne.symm h2), Option.getD] at h
      cases h

/-- Every number taken. -/
theorem witness_OwnershipResults_full :
    let s := { base with own := { base.own with owners := (List.range 4096).map fun n => OwnerRec.fresh n 1 } }
    (∀ m, 2 ≤ m → m < 4096 → s.own.isLive m = true) ∧ s.live := by
  refine ⟨?_, rfl⟩
  intro m _ h
  have e : ((List.range 4096).map fun n => OwnerRec.fresh n 1).find? (fun r => r.num == m) = some (OwnerRec.fresh m 1) := by
    rw [List.find?_map, List.find?_range_eq_some.mpr]
    · rfl
    · exact ⟨by simp [OwnerRec.fresh], by simpa using h, fun j hj => by simp [OwnerRec.fresh]; omega⟩
  simp only [Ownership.isLive, Ownership.ownerOr, Ownership.owner?, e]
  rfl

/-- READY set and clear, an owner that lives and one that does not, an operation that changes the map and one held by a move. -/
theorem witness_OwnershipPortResults :
    let s := { owning (core5 1 0 0 false) with
      own := { base.own with owners := [{ OwnerRec.fresh 1 0 with opA := 0x0100000000000005, opB := 2 }, OwnerRec.fresh 2 1] } }
    let held := { base with
      own := { base.own with owners := [{ OwnerRec.fresh 1 0 with opA := 2, opB := 0x30000 }, OwnerRec.fresh 2 1] }
      ms := { base.ms with move := { base.ms.move with busy := true, src := 0x30000, dst := 0x40000 } } }
    State.reset.host.ready = false ∧ s.host.ready = true ∧ (s.own.ownerOr 1).live = true ∧ (s.own.ownerOr 3).live = false
    ∧ (s.mapOp 1 .give (s.own.ownerOr 1).opA (s.own.ownerOr 1).opB).isSome = true
    ∧ (held.mapOp 1 .evict (held.own.ownerOr 1).opA (held.own.ownerOr 1).opB).isNone = true ∧ (s.ms.mem.keyed.map (·.1)).Nodup
    ∧ plotOf 0x1FFFFF = 0 ∧ s.ms.move.busy = false ∧ (3 : Nat) < 4096 ∧ (s.own.ownerOr 3).opBusy = false
    ∧ (({ s.scr with reserved := [(3, 0x30000), (4, 0x30000)] } : Scriptorium).reserved.map fun r => r.1).Nodup := by decide +kernel

/-- Owner 1's page with CFGOWN 2, which owner 1 sponsors; plot 0, key ID 1023, VF 255 and group 0 held by owner 2. -/
def paged : State :=
  { base with
    own := { base.own with
      owners := [{ OwnerRec.fresh 1 0 with cfgown := 2 }, OwnerRec.fresh 2 1]
      entries := [⟨3, 0, 2, 0, 0, false, 0, 0, 0, 0⟩, ⟨6, 1023, 2, 0, 0, false, 0, 0, 0, 0⟩, ⟨9, 255, 2, 0, 0, false, 0, 0, 0, 0⟩,
        ⟨8, 4, 2, 0, 0, false, 0, 0, 0, 0⟩] } }

theorem witness_PageRegisterResults :
    let s := paged
    State.reset.host.ready = false ∧ s.own.isLive 3 = false ∧ s.host.ready = true ∧ s.own.isLive 1 = true ∧ (s.own.ownerOr 1).cfgown = 2
    ∧ s.own.isLive 2 = true ∧ (s.own.ownerOr 2).sponsor = 1 ∧ (s.own.ownerOr 2).cfgown = 0 ∧ s.own.isLive 0 = false
    ∧ plotBacked (plotOf 0x2000) = true ∧ s.own.holder 3 0 = 2 ∧ s.own.holder 3 (plotOf 0x200000) ≠ 2 ∧ s.own.holder 6 (field (0x3FF : Word) 0 10) = 2
    ∧ s.own.holder 6 (field (0 : Word) 0 10) ≠ 2 ∧ s.own.holder 9 (field (0x103FF0FF : Word) 0 8) = 2
    ∧ s.own.holder 6 (field (0x103FF0FF : Word) 12 10) = 2 ∧ s.own.holder 9 (field (0 : Word) 0 8) ≠ 2 ∧ resourceExists 3 0 = true
    ∧ s.own.holder 6 (field (0x3FF000000000000 : Word) 48 10) = 2 ∧ s.own.holder 3 (field (0x3FF000000000000 : Word) 21 27) = 2 ∧ s.ms.mem.wf = true
    ∧ s.own.holder 8 (s.own.ownerOr 1).mcsel = 1 ∧ (foreign s 8 0).own.holder 8 0 ≠ 1
    ∧ (0x800 ≤ 0x810 + 16 * 63 ∧ 0x818 + 16 * 63 < 0x1000) := by decide +kernel

/-- The active port and the standby; a lease past its expiry, at it, and ended; one VF whose owner loses it. -/
theorem witness_PageRegisterResults_lease :
    let s := { base with host := { base.host with ports := base.host.ports.set 0 { base.host.ports[(0 : Fin 2)] with leaseExp := 5, vfEnable := true } } }
    let late := { s with time := 6 }
    let lost := { s with host := { s.host with leased := false } }
    s.host.active = (HostPort.portA == .portB) ∧ ¬ s.host.active = (HostPort.portB == .portB) ∧ late.host.leased = true
    ∧ late.host.ports[if late.host.active then (1 : Fin 2) else 0].leaseExp < late.time
    ∧ base.time ≤ s.host.ports[if s.host.active then (1 : Fin 2) else 0].leaseExp ∧ lost.host.leased = false ∧ (4095 : Nat) < 4096 :=
  ⟨rfl, by decide, rfl, by decide, by decide, rfl, by decide⟩

/-- Until READY and after; pages 1 and 2; a queue's descriptor for its holder and for another; the standby port. -/
theorem witness_PageRegisterResults_reads :
    let s := paged
    State.reset.host.ready = false ∧ s.host.ready = true ∧ s.own.isLive 1 = true ∧ (2 : Nat) ≠ 1 ∧ (foreign s 4 0).own.holder 4 0 ≠ 1
    ∧ ((s.own.ownerOr 1).qsel = 0 ∧ s.own.holder 4 0 = 1 ∧ ∃ x, { s with disp := { s.disp with queues := [Queue.fresh 0] } }.queue? 0 = some x)
    ∧ s.host.active ≠ (HostPort.portB == .portB) ∧ 0x20 ∉ [0x00, 0x08, 0x10, 0x18] :=
  ⟨rfl, rfl, rfl, by decide, by decide, ⟨rfl, rfl, _, rfl⟩, by decide, by decide⟩

/-- VF 0 of owner 1 live on port A. -/
def served : State :=
  { base with host := { base.host with
      ports := base.host.ports.set 0 { base.host.ports[(0 : Fin 2)] with vfEnable := true }
      vfs := [⟨0, 1, 0, 1, 0, 0, 0, false, 0, 0, none⟩], accessAt := [(9, 5)] } }

theorem witness_HostResults :
    State.reset.host.ready = false ∧ served.host.ready = true ∧ ((served.liveVfs (served.host.vf 0).owner).any fun w => w.num == 0) = true
    ∧ ((served.liveVfs (served.host.vf 9).owner).any fun w => w.num == 9) = false ∧ (0x1FFFFFFF8 : Word).toNat < 2^36
    ∧ served.ms.move.done = false ∧ served.ms.mem.wf = true ∧ (served.host.accessAt.find? fun e => e.1 == 8) = none
    ∧ (served.host.accessAt.find? fun e => e.1 == 9) = some (9, 5) ∧ served.time < 5 + 1000000 ∧ served.own.isLive 1 = true
    ∧ (foreign served 3 (plotOf 0x40000000)).own.holder 3 (plotOf 0x40000000) ≠ 1 ∧ served.own.holder 3 (plotOf 0x40000000) = 1
    ∧ (∀ c ∈ served.fab.claims, c.arb ≠ hostArbiter served.host.active)
    ∧ ¬ (∀ c ∈ { served.fab with claims := [⟨hostArbiter false, 0, 1, 0, .window 0 0 none, []⟩] }.claims, c.arb ≠ hostArbiter served.host.active) := by
  decide +kernel

/-- No lease; a doorbell on port A in this nanosecond, and one whose nanosecond is over. -/
theorem witness_HostResults_takeover :
    let s := { served with host := { served.host with leased := false, bells := [⟨false, 1, 0, 8, 3⟩] } }
    s.host.leased = false ∧ s.host.ready = true ∧ (4095 : Nat) < 4096 ∧ (∀ b ∈ s.host.bells, s.time ≤ b.time)
    ∧ (∃ b, { s with time := 4 }.host.bells = [b] ∧ b.time < { s with time := 4 }.time)
    ∧ (∀ b ∈ { s with time := 4 }.host.bells, b.time < { s with time := 4 }.time) ∧ (∃ b ∈ s.host.bells, b.portB = false) :=
  ⟨rfl, rfl, by decide, by decide, ⟨_, rfl, by decide⟩, by decide, ⟨_, List.mem_singleton.mpr rfl, rfl⟩⟩

/-- One VF of owner 1, whose queues hold a running launch; owner 2, which holds nothing, with no receipt buffer and with one that is held. -/
theorem witness_HostResults_disable :
    let s := served
    let gone := { base with host := { base.host with losing := [(2, 1)] } }
    let held := { gone with
      own := { base.own with owners := [{ OwnerRec.fresh 1 0 with rcptbuf := 0x30000 }] }
      ms := { base.ms with move := { base.ms.move with busy := true, src := 0x30000, dst := 0x40000 } } }
    s.host.active = (HostPort.portA == .portB) ∧ (∃ f, s.host.vfs = [f] ∧ f.owner ≠ 0)
    ∧ s.host.ports[if HostPort.portA = .portB then (1 : Fin 2) else 0].vfEnable = true ∧ s.live
    ∧ gone.host.losing = [(2, 1)] ∧ (∀ l ∈ gone.disp.launches, ¬ (l.state = .running ∧ gone.own.holder 4 l.queue = 2))
    ∧ gone.receiptPlace (gone.own.ownerOr 2).sponsor ≠ .held ∧ (∀ cls idx, gone.own.holder cls idx ≠ 2)
    ∧ { held with host := { held.host with losing := [(1, 1)] } }.receiptPlace 1 = .held :=
  ⟨rfl, ⟨_, rfl, by decide⟩, rfl, rfl, rfl, by decide, by decide +kernel, fun _ _ => by show (1 : Nat) ≠ 2; decide, by decide +kernel⟩

theorem witness_HostResults_lands : engineLands served 1 .load 0x1FFFFFFF8 0x1FFFFFFF8 ∧ engineLands served 1 .store 0x40000000 0x40000000
    ∧ engineLands served 1 .load 0x40000000 0x40000000 :=
  ⟨lands_engine _ _ _ _ (by decide +kernel), lands_engine _ _ _ _ (by decide +kernel), lands_engine _ _ _ _ (by decide +kernel)⟩

/-! Management, trust, the scriptorium. -/

/-- Every fabric has 7 to 35 links a module (R2). -/
theorem degree_bounds : 7 ≤ fabricDegree fabricQ ∧ fabricDegree fabricQ ≤ 35 := by
  have h : ∀ k : Fin 7, 7 ≤ fabricDegree ([5, 7, 11, 13, 17, 19, 23].getD k.val 23)
      ∧ fabricDegree ([5, 7, 11, 13, 17, 19, 23].getD k.val 23) ≤ 35 := by decide
  exact h Config.fabricSize

theorem portActive_low (f : Fabric) (n : Nat) (h : n < 7) : f.portActive n = true := by
  simp [Fabric.portActive, Nat.lt_of_lt_of_le h degree_bounds.1]

theorem portActive_high (f : Fabric) (n : Nat) (h : 36 ≤ n) : f.portActive n = false := by
  have h1 := degree_bounds.2
  simp [Fabric.portActive]; omega

/-- A draw and a temperature above their limits; duty at its ends; two requests at one arbiter, whose port has room, has none, or has a flit to
replay. What firmware may reach is free: each address is inside or outside. -/
theorem witness_ManagementResults :
    let s := { base with fab := { base.fab with claims := [⟨3, 7, 1, 0, .host 9, []⟩, ⟨3, 2, 1, 0, .host 9, []⟩, ⟨4, 0, 1, 0, .host 9, []⟩] } }
    let f : Flit := ⟨0, 0, 1, 0, true, true, true⟩
    base.mgmt.drawLimit < 3201 ∧ ¬ base.mgmt.drawLimit < 3200 ∧ base.mgmt.duty = 16 ∧ Config.temperatureCeiling ≤ Config.temperatureCeiling
    ∧ (s.fab.claims.filter fun c => c.arb == 3) ≠ [] ∧ (s.fab.claims.filter fun c => c.arb == 5) = [] ∧ base.bindOk 4095 ⟨true, 0, 0, 1, []⟩ = false
    ∧ (s.fab.port 3).again = [] ∧ ({ s.fab.port 3 with again := [f] } : Port).again ≠ [] ∧ (s.fab.port 3).holds [] = true
    ∧ ({ s.fab.port 3 with replay := List.replicate 512 f } : Port).holds [f] = false ∧ s.fab.request? 9 = none
    ∧ s.fab.portActive 36 = false
    ∧ (∀ w a, fwPasses w a = true ∨ fwPasses w a = false) ∧ (∀ a, Config.inFirmwareWindow a = true ∨ Config.inFirmwareWindow a = false) := by
  refine ⟨by decide, by decide, rfl, Nat.le_refl _, by decide, by decide, by decide, by decide, by decide, by decide, by decide +kernel, rfl, portActive_high _ _ (by decide),
    fun w a => ?_, fun a => ?_⟩
  · cases fwPasses w a
    · exact .inr rfl
    · exact .inl rfl
  · cases Config.inFirmwareWindow a
    · exact .inr rfl
    · exact .inl rfl

/-- A tuple whose interval lasts and one whose interval is over; a seal not due and one due; bring-up before its step 2 and past it. -/
theorem witness_TrustResults :
    let log := { base with log := { base.log with tuples := [⟨0, 0, 0, 0, 1, 0, 1⟩] }, time := 1000 }
    ({ log with time := 999 }.log.tuples.filter fun (q : LogTuple) => decide (q.start + 1000 ≤ 999)) = []
    ∧ (log.log.tuples.filter fun q => decide (q.start + 1000 ≤ log.time)) ≠ [] ∧ base.time < base.log.sealAt + 1000000
    ∧ base.log.sealAt + 1000000 ≤ { base with time := 1000000 }.time ∧ State.reset.mgmt.stage = 0 ∧ 1 ≤ { base.mgmt with stage := 1 }.stage := by decide +kernel

/-- An access log at 0x30000. -/
def logged : State := { base with log := { base.log with base := 0x30000 } }

/-- A record has its place where the ring, whose form is free, is not full; it has none where the plot is another owner's. -/
theorem witness_TrustResults_ring (h : Config.logFull base.tick 0 = false) (h0 : Config.logOffset 0 = 0) :
    (logged.logPlace 32).isSome = true := by
  have e : (!Config.logFull logged.tick 0) = true := by show (!Config.logFull base.tick 0) = true; rw [h]; rfl
  unfold State.logPlace
  rw [show logged.log.put = 0 from rfl, e, h0]
  decide +kernel

/-- Owner 1's scriptorium cores run; every size and its alignment; a line of owner 1, one of owner 2, one outside device memory. -/
theorem witness_ScriptoriumResults :
    let s := foreign base 3 (plotOf 0x40000000)
    s.scriptRuns 1 = true ∧ s.scriptRuns 2 = false ∧ s.host.ready = true ∧ State.reset.host.ready = false ∧ (0x1FFFFFFF8 : Word).toNat % 8 = 0
    ∧ (0x1FFFFFFFF : Word).toNat % 1 = 0 ∧ s.ms.move.done = false ∧ s.ms.mem.wf = true ∧ s.ms.pending = [] ∧ (3, lineOf 0x30000) ∉ s.scr.reserved
    ∧ (3, lineOf 0x30000) ∈ { s.scr with reserved := [(3, lineOf 0x30000)] }.reserved ∧ backed (lineOf 0x40000000) = true
    ∧ s.own.holder 3 (plotOf (lineOf 0x40000000)) = 2 ∧ s.own.holder 3 (plotOf (lineOf 0x30000)) = 1 ∧ backed (lineOf (2^47)) = false
    ∧ (∀ l ∈ s.disp.launches, l.state ≠ .running) ∧ s.own.holder 11 15 ≠ 2 := by decide +kernel

theorem witness_ScriptoriumResults_holders : ∀ cls ix, cls ≠ 3 → cls ≠ 11 → (foreign base 3 (plotOf 0x40000000)).own.holder cls ix ≠ 2 := by
  intro cls ix h _
  have e : (foreign base 3 (plotOf 0x40000000)).own.entry cls ix = MapEntry.default cls ix 1 := by
    simp [Ownership.entry, foreign, base, State.placedAt, Ne.symm h, boolNat, State.reset, Ownership.reset]
  simp [Ownership.holder, e, MapEntry.default]

theorem witness_ScriptoriumResults_lands : engineLands base 1 .load 0x1FFFFFFF8 0x1FFFFFFF8 ∧ engineLands base 1 .store 0x1FFFFFFF8 0x1FFFFFFF8
    ∧ engineLands base 1 .atomic 0x30000 0x30000 :=
  ⟨lands_engine _ _ _ _ (by decide +kernel), lands_engine _ _ _ _ (by decide +kernel), lands_engine _ _ _ _ (by decide +kernel)⟩


/-! The fabric. -/

/-- The tables of owner 1 keep their two words whatever is written outside them. -/
theorem tables_apart (s : State) (va : Word) (pa n : Nat) (ht : (s.own.ownerOr 1).troot = 0) (hv : va.toNat < 2^33)
    (h0 : wd (readLE s.ms.mem 0 8) = 0x2001) (h1 : wd (readLE s.ms.mem 0x2000 8) = 0x6F) (hp : 0x2008 ≤ pa) : tablesApart s 1 va pa n := by
  intro ms hm
  have bytes : ∀ a, a + 8 ≤ 0x2008 → readLE ms.mem a 8 = readLE s.ms.mem a 8 := by
    intro a ha
    have hb : ∀ k, k < 8 → readByte ms.mem (a + k) = readByte s.ms.mem (a + k) := fun k hk => hm _ (.inl (by omega))
    have e0 := hb 0 (by omega)
    have e1 := hb 1 (by omega)
    have e2 := hb 2 (by omega)
    have e3 := hb 3 (by omega)
    have e4 := hb 4 (by omega)
    have e5 := hb 5 (by omega)
    have e6 := hb 6 (by omega)
    have e7 := hb 7 (by omega)
    simp only [readLE, readBytes, Nat.add_assoc, Nat.reduceAdd, Nat.add_zero] at *
    simp [e0, e1, e2, e3, e4, e5, e6, e7]
  have f3 : field va 43 10 = 0 := by simp only [field]; omega
  have f2 : field va 33 10 = 0 := by simp only [field]; omega
  simp only [leafOf, ht, walkFrom, f3, f2, Nat.reduceAdd, Nat.reduceMul, Nat.zero_mul, Nat.add_zero, bytes 0 (by omega), h0,
    show (isPointer 0x2001) = true from rfl, show ptePpn 0x2001 * 2^13 = 0x2000 from rfl, show pteV 0x2001 = true from rfl,
    show malformed 0x2001 3 = false from by decide +kernel, bytes 0x2000 (by omega), h1, show (isPointer 0x6F) = false from rfl,
    show pteV 0x6F = true from rfl, show malformed 0x6F 2 = false from by decide +kernel, if_true, Bool.not_true, Bool.or_false, Bool.false_eq_true, if_false]

theorem witness_HostResults_tables : tablesApart served 1 0x40000000 0x40000000 256 :=
  tables_apart _ _ _ _ (by decide +kernel) (by decide +kernel) (by decide +kernel) (by decide +kernel) (by decide +kernel)

/-- Group 4 of two members: this module, module 0, and another; group 5 of this module alone; group 6 of another alone. -/
def grouped : State :=
  { base with fab := { base.fab with groups :=
      [⟨4, [(0, 2), (1, 64), (2, 0), (3, 0x50000), (4, 7), (5, 0x60000)], 3⟩, ⟨5, [(0, 1), (1, 64), (2, 0), (3, 0x50000)], 0⟩,
        ⟨6, [(0, 1), (1, 64), (2, 7), (3, 0x50000)], 0⟩] } }

/-- Offsets at the last word of a group and past it, not aligned; a group word past 12 bits; a group not held; this module's own and another's. -/
theorem witness_MulticastResults :
    let s := withX grouped [(1, 56), (2, 57), (3, 64), (4, 5), (5, 6), (6, 4096)]
    s.cx.answer = none ∧ s.awaiting = false ∧ (s.x 2).toNat % 8 ≠ 0 ∧ (s.x 1).toNat % 8 = 0 ∧ 4096 ≤ (s.x 6).toNat ∧ (s.x 4).toNat < 4096
    ∧ (s.fab.group 5).size < (s.x 3).toNat + 8 ∧ (s.x 1).toNat + 8 ≤ (s.fab.group 5).size ∧ s.own.holder 8 5 = s.owner
    ∧ (foreign s 8 5).own.holder 8 5 ≠ (foreign s 8 5).owner ∧ s.rk.id.dual = false ∧ (s.fab.group 5).members = 1
    ∧ (s.fab.group 5).node 0 = s.node.toNat ∧ s.ms.move.done = false ∧ s.ms.mem.wf = true ∧ (0x50038 : Nat) % 8 = 0
    ∧ 0 < (s.fab.group 6).members ∧ (∀ k, k < (s.fab.group 6).members → (s.fab.group 6).node k ≠ s.node.toNat)
    ∧ (∀ q ∈ s.fab.requests, q.id < s.fab.nextId) ∧ s.keyOwner s.cx.cr.keyid.toNat = 1 ∧ (s.fab.group 5).base 0 + s.x 1 = 0x50038 := by decide +kernel

theorem witness_MulticastResults_lands : engineLands grouped 1 .store 0x50038 0x50038 := lands_engine _ _ _ _ (by decide +kernel)

/-- A packet of module 7, waiting at the source or sent at time 5. -/
def packet (issuer : Issuer) (kind : ReqKind) (injected : Bool) : Request :=
  { id := 3, issuer := issuer, kind := kind, dest := 7, sagent := 0, pseq := 0, keyid := 0, addr := 0x50000, local_ := 0x30000, bytes := 8,
    data := 0, time := 5, deadline := 10005, owner := 1, injected := injected, entry := 0, host := false, ivc := 0, failed := 0, payload := [],
    block := none, weight := 1, via := 7, vf := 0, nodes := [7], resent := false, marked := false, copies := [] }

/-- A module with one request, for which the context in focus waits, its key's bucket full; the links given out of service. -/
def requesting (q : Request) (dead : List Nat) (now : Nat) : State :=
  { handled with
    time := now
    cx := { handled.cx with wait := .remote 3 }
    fab := { handled.fab with
      requests := [q]
      keys := [⟨0, true, 1, false, 65536, 0, 0, 0⟩]
      ports := dead.map fun n => { Port.fresh n with dead := true } } }

theorem witness_MulticastResults_replies :
    let q := packet (.multicast ⟨0, 0⟩ 0 0) .multicast
    let s := fun inj now => requesting { q inj with local_ := 3 } [] now
    let q := fun inj => { q inj with local_ := 3 }
    let waits := { (s true 5) with fab := { (s true 5).fab with claims := [⟨0, 36, 1, 0, .packet 3, []⟩] } }
    (s true 5).fab.left (q true) = true ∧ waits.fab.left (q true) = false ∧ (1 : Word) &&& (q true).local_ ≠ 0 ∧ (4 : Word) &&& (q true).local_ = 0
    ∧ (s false 5).fab.request? 3 = some (q false) ∧ (s true 7004).fab.request? 3 = some (q true) ∧ (q true).kind = .multicast ∧ (q true).marked = false
    ∧ (s true 7004).live
    ∧ (q true).issuer = .multicast (s true 5).rk.key (s true 5).rk.run (s true 5).cx.num ∧ (s true 5).cx.wait = .remote 3
    ∧ (s true 7004).time < (q true).time + 7000 ∧ (q true).time + 7000 ≤ (s true 7005).time ∧ (s true 8004).time < (q true).time + 8000
    ∧ (q true).time + 8000 ≤ (s true 8005).time ∧ (∃ v, { s true 5 with cx := { (s true 5).cx with answer := some 1 } }.cx.answer = some v) := by
  unfold State.live; refine ⟨rfl, rfl, by decide, by decide, rfl, rfl, rfl, rfl, rfl, rfl, rfl, by decide, by decide, by decide, by decide, _, rfl⟩

/-- A lossy block past its cutoff that waits at an arbiter, and one in time. -/
theorem witness_ManagementResults_late :
    let q := { packet (.store ⟨0, 0⟩ 0 0) .write true with block := some (4, 0, 1) }
    let s := { requesting q [] 1506 with fab := { (requesting q [] 1506).fab with claims := [⟨6, 36, 1, 0, .packet 3, []⟩], nextId := 4 } }
    q ∈ s.fab.requests ∧ q.block ≠ none ∧ q.time + 1500 < s.time ∧ (∃ c ∈ s.fab.claims, c.arb = 6 ∧ c.cargo = .packet q.id)
    ∧ (s.fab.requests.map Request.id).Nodup ∧ q.id < s.fab.nextId ∧ ¬ q.time + 1500 < { s with time := 1505 }.time :=
  ⟨.head _, by decide, by decide, ⟨_, .head _, rfl, rfl⟩, by decide, by decide, by decide⟩

/-- Firmware's packets at a port that takes one, at one whose limiter is closed, and behind one that is held; at a port out of service. A bind record
that names another owner's core, and one whose weight alone is wrong. -/
theorem witness_ManagementResults_bounds :
    let p := Port.fresh 6
    let s := foreign base 1 9
    (p.dead = false ∧ p.replay.length ≤ 447 ∧ p.fwFree ≤ 100 * s.time ∧ p.fwHeld = [])
    ∧ 100 * s.time < { p with fwFree := 100 * s.time + 1 }.fwFree ∧ { p with fwHeld := [8] }.fwHeld ≠ [] ∧ { p with dead := true }.dead = true
    ∧ s.bindOk 0 ⟨true, 1, 0, 1, [9]⟩ = false ∧ s.own.holder 1 9 ≠ 1 ∧ s.bindOk 0 ⟨true, 1, 0, 17, [8]⟩ = false ∧ s.own.holder 1 8 = 1 := by
  refine ⟨⟨rfl, by decide, Nat.zero_le _, rfl⟩, Nat.lt_succ_self _, by decide, rfl, ?_⟩
  decide +kernel

/-- A report body whose page a move holds, and one that none does. -/
theorem witness_HostResults_attest :
    let s := { served with ms := { served.ms with move := { served.ms.move with busy := true, src := 0x40000000, dst := 0x50000000 } } }
    s.host.ready = true ∧ s.own.isLive 1 = true ∧ translate s.ms s.tick (s.own.ownerOr 1) 0x40000000 .store = .at 0x40000000 leaf0
    ∧ hostSpace 0x40000000 = false ∧ pteRepl leaf0.entry = false ∧ s.ms.movingAt 0x40000000 = true ∧ served.ms.movingAt 0x40000000 = false
    ∧ served.ms.pending = [] := by decide +kernel

/-- A fabric has at least 50 nodes. -/
theorem nodes_bound : 7 < fabricNodes fabricQ := by
  have h : ∀ k : Fin 7, 7 < fabricNodes ([5, 7, 11, 13, 17, 19, 23].getD k.val 23) := by decide
  exact h Config.fabricSize

/-- Where firmware wrote no route is free: a route to module 7 is a premise. Every kind of issuer; the last ns of a deadline and the first past
it; a second entry that lives; a busy ordering key; a packet that waits at its port; a halted core; a packet sent again; a lossy transfer with all of its
blocks and with one lacking. -/
theorem witness_RequestResults (route : Config.routeWritten 7 = true) :
    let load := packet (.load ⟨0, 0⟩ 0 0) .read
    let fe := packet (.fullEmpty ⟨0, 0⟩ 0 0) (.fe .lwt 9)
    let store := packet (.store ⟨0, 0⟩ 0 0) .write
    let s := fun inj now => requesting (load inj) [] now
    let waits := { s true 5 with fab := { (s true 5).fab with claims := [⟨0, 36, 1, 0, .packet 3, []⟩] } }
    let halt := { s true 5 with co := { (s true 5).co with halted := true } }
    let block := { store false with block := some (4, 0, 2) }
    let lossy := { s false 5 with fab := { (s false 5).fab with requests := [block, { block with id := 4, block := some (4, 1, 2) }] } }
    let busy := { s false 5 with fab := { (s false 5).fab with requests := (s false 5).fab.requests ++ [{ load false with id := 2 }] } }
    (s true 5).fab.left (load true) = true ∧ waits.fab.left (load true) = false ∧ (s true 5).fab.left (load false) = false ∧ halt.co.halted = true
    ∧ (load true).resent = false ∧ { load true with resent := true }.resent = true ∧ lossy.fab.request? 3 = some block
    ∧ 2 ≤ (lossy.fab.requests.filter (Request.inTransfer 4)).length ∧ ((s false 5).fab.requests.filter (Request.inTransfer 4)).length < 2
    ∧ ((lossy.fab.requests.filter (Request.inTransfer 4)).map Request.bytes).sum ≤ (FabricKey.refilled ⟨0, true, 1, false, 65536, 0, 0, 0⟩ 5).tokens
    ∧ (s false 5).fab.request? 3 = some (load false) ∧ (load false).block = none ∧ (load false).kind ≠ .multicast ∧ (s false 5).fab.keyBusy (load false) = false
    ∧ busy.fab.keyBusy (load false) = true ∧ (s false 5).fab.reachable 7 = true ∧ (∃ k, (s false 5).fab.key? 0 = some k ∧ 8 ≤ (k.refilled 5).tokens)
    ∧ handles (s true 5) ∧ (s true 5).cx.wait = .remote 3 ∧ (load true).issuer = .load ⟨0, 0⟩ 0 0 ∧ (fe true).issuer = .fullEmpty ⟨0, 0⟩ 0 0
    ∧ (store true).issuer = .store ⟨0, 0⟩ 0 0 ∧ (s true 10004).time < (load true).deadline ∧ (load true).deadline ≤ (s true 10005).time
    ∧ (load true).host = false ∧ (load true).time + 5000 ≤ (s true 5005).time ∧ (s true 5004).time < (load true).time + 5000
    ∧ (s true 5005).fab.entryLive 7 1 = true ∧ (1 : Nat) ≠ (load true).entry ∧ (s true 5).live := by
  refine ⟨rfl, rfl, rfl, rfl, rfl, rfl, rfl, by decide, by decide, by decide, rfl, rfl, by decide, by decide, by decide, ?_, ⟨_, rfl, by decide⟩,
    ⟨rfl, rfl, rfl, by decide, rfl, rfl, rfl, by decide⟩, rfl, rfl, rfl, rfl, by decide, by decide, rfl, by decide, by decide, rfl, by decide, rfl⟩
  have h : 7 < fabricNodes fabricQ := nodes_bound
  simp [Fabric.reachable, route, h]
  exact ⟨0, by decide, rfl⟩

/-- A port among those out of service is out of service. -/
theorem dead_port (l : List Nat) (n : Nat) (h : n ∈ l) :
    ((l.map fun n => { Port.fresh n with dead := true }).find? fun p => p.num == n) = some { Port.fresh n with dead := true } := by
  induction l with
  | nil => cases h
  | cons a r ih =>
    by_cases e : a = n
    · subst e; simp [Port.fresh]
    · rcases List.mem_cons.mp h with rfl | h
      · exact absurd rfl e
      · simpa [Port.fresh, e] using ih h

/-- Every entry of module 7 out of service. -/
theorem witness_RequestResults_dead :
    let s := requesting (packet (.load ⟨0, 0⟩ 0 0) .read false) ((List.range 5).map (outPort 7)) 5
    (∀ e, e < 5 → s.fab.entryLive 7 e = false) ∧ handles s ∧ s.fab.keyBusy (packet (.load ⟨0, 0⟩ 0 0) .read false) = false := by
  refine ⟨?_, ⟨rfl, rfl, rfl, by decide, rfl, rfl, rfl, by decide⟩, by decide⟩
  intro e he
  simp only [Fabric.entryLive, Fabric.port, requesting,
    dead_port ((List.range 5).map (outPort 7)) (outPort 7 e) (List.mem_map.mpr ⟨e, by simpa using he, rfl⟩)]
  rfl

/-- A copy of a multicast packet to its one member. -/
def mcopy : McCopy := ⟨0, 7, 0x50000, 3, 0, 7, 0⟩

/-- A multicast packet at its source that nothing of its ordering keys holds back, and whose bucket holds a word. -/
theorem witness_MulticastResults_injects (route : Config.routeWritten 7 = true) :
    let q := { packet (.multicast ⟨0, 0⟩ 0 0) .multicast false with local_ := 1, copies := [mcopy] }
    let s := requesting q [] 5
    s.fab.request? 3 = some q ∧ q.kind = .multicast ∧ q.injected = false ∧ s.fab.keyBusy q = false
    ∧ (∃ k, s.fab.key? q.keyid.toNat = some k ∧ 8 ≤ (k.refilled s.time).tokens)
    ∧ ∀ m, bitAt q.local_ m = true → s.fab.reachable (q.nodes.getD m 0) = true := by
  refine ⟨rfl, rfl, rfl, by decide, ⟨_, rfl, by decide⟩, fun m hm => ?_⟩
  have hm0 : m = 0 := by
    have h : (1 : Word).getLsbD m = true := hm
    simpa [BitVec.getLsbD, Nat.testBit_one_eq_true_iff_self_eq_zero] using h
  subst hm0
  have h : 7 < fabricNodes fabricQ := nodes_bound
  simp [packet, Fabric.reachable, route, h]
  exact ⟨0, by decide, rfl⟩

/-- A packet that was never answered, with another live entry, none, and a host request, a block, one whose key is gone. -/
theorem witness_RequestResults_resent :
    let q := { packet (.multicast ⟨0, 0⟩ 0 0) .multicast true with copies := [mcopy] }
    let p := packet (.load ⟨0, 0⟩ 0 0) .read true
    let s := requesting q [] 5005
    let alone := requesting p ((List.range 4).map fun e => outPort 7 (e + 1)) 5005
    let keyless := { requesting p [] 5005 with fab := { (requesting p [] 5005).fab with keys := [] } }
    q.host = false ∧ q.block = none ∧ q.resent = false ∧ q.time + 5000 ≤ s.time ∧ (∃ k, s.fab.key? q.keyid.toNat = some k) ∧ q.kind = .multicast
    ∧ q.copies = [mcopy] ∧ s.fab.otherEntry 7 0 = some 1 ∧ (∃ k, alone.fab.key? p.keyid.toNat = some k)
    ∧ (∀ e, e < 5 → e ≠ p.entry → alone.fab.entryLive 7 e = false) ∧ (∀ j, j < 1 → j = p.entry ∨ s.fab.entryLive 7 j = false)
    ∧ { p with host := true }.host = true ∧ { p with block := some (4, 0, 1) }.block ≠ none ∧ keyless.fab.key? p.keyid.toNat = none := by
  refine ⟨rfl, rfl, rfl, by decide, ⟨_, rfl⟩, rfl, rfl, rfl, ⟨_, rfl⟩, ?_, fun j h => .inl (by show j = 0; omega), rfl, by decide, rfl⟩
  intro e he h
  have h0 : e ≠ 0 := h
  have hp := dead_port ((List.range 4).map fun e => outPort 7 (e + 1)) (outPort 7 e)
    (List.mem_map.mpr ⟨e - 1, by simp; omega, by rw [Nat.sub_add_cancel (by omega)]⟩)
  simp only [Fabric.entryLive, Fabric.port, requesting, hp]
  rfl

/-- A request of module 7 for eight bytes under key ID 0, sent at time 5. -/
def asked (kind : ReqKind) : RemoteReq := ⟨1, 7, 2, 0, 1, 1, kind, 0, 0x30000, 8, [1, 2, 3, 4, 5, 6, 7, 8], 5, true⟩

/-- A module that has key ID 0 loaded, at a time. -/
def serving (now : Nat) : State := { base with time := now, fab := { base.fab with keys := [⟨0, true, 1, false, 65536, 0, 0, 0⟩] } }

theorem witness_PeerResults :
    (∃ k, (serving 10005).fab.key? 0 = some k) ∧ (∀ k, (serving 5).fab.key? 0 = some k → 8 ≤ (k.refilled 5).tokens) ∧ (asked .read).good = true ∧ (serving 10005).time ≤ 5 + 10000 ∧ ¬ (serving 10006).time ≤ 5 + 10000
    ∧ (serving 6005).time ≤ 5 + 6000 ∧ base.fab.key? 0 = none ∧ canonical 0x30000 = true ∧ (0x1FF8 : Word).toNat % 8192 + 8 ≤ 8192
    ∧ translate (serving 5).ms (serving 5).tick ((serving 5).own.ownerOr 1) 0x200000000 .load = .page
    ∧ translate walked.ms walked.tick (walked.own.ownerOr 1) 0x4000 .store = .perm ⟨0x40063, some 0x6010, 0⟩
    ∧ translate walked.ms walked.tick (walked.own.ownerOr 1) 0x6000 .load = .unbacked ∧ (serving 5).ms.move.done = false
    ∧ (serving 5).ms.mem.wf = true ∧ (asked .write).data.length = 8 ∧ isFull (serving 5).ms.mem 0x30000 = false
    ∧ isFull (setFull (serving 5).ms.mem 0x30000 true) 0x30000 = true ∧ (serving 5).ms.retry = [] ∧ (0x30000 : Nat) % 8 = 0
    ∧ (serving 5).keyOwner 0 = 1 := by
  refine ⟨⟨_, rfl⟩, ?_, rfl, by decide, by decide, by decide, rfl, by decide, by decide, ?_, ?_, ?_, rfl, ?_, rfl, ?_, ?_, rfl, rfl, rfl⟩
  · rintro k ⟨⟩; decide
  all_goals decide +kernel

theorem witness_PeerResults_lands : engineLands (serving 5) 1 .load 0x30000 0x30000 ∧ engineLands (serving 5) 1 .store 0x30000 0x30000
    ∧ engineLands (serving 5) 1 .atomic 0x30000 0x30000 :=
  ⟨lands_engine _ _ _ _ (by decide +kernel), lands_engine _ _ _ _ (by decide +kernel), lands_engine _ _ _ _ (by decide +kernel)⟩

/-- Time flits 40 ns off and 41; packets half the number space behind, one behind, next, one ahead and at the edge of the half ahead; no launch, and one that runs. -/
theorem witness_PeerResults_order :
    let k := (serving 5).fab.order? 7 0
    k.next < 2^16 ∧ (asked .read).pseq < 2^16 ∧ 2^15 ≤ (2^15 + 2^16 - k.next) % 2^16 ∧ 2^15 ≤ (2^16 - 1 + 2^16 - k.next) % 2^16 ∧ 0 < (1 + 2^16 - k.next) % 2^16
    ∧ (2^15 - 1 + 2^16 - k.next) % 2^16 < 2^15 ∧ (∀ e ∈ k.early, e.1 ≠ 1 ∧ e.1 ≠ k.next) ∧ (serving 5).fab.storeLoad < 4096 ∧ 0 = k.next ∧ k.early = []
    ∧ (serving 3005).time ≤ 5 + 3000 ∧ base.disp.launches = [] ∧ ((45 : Int) - 5).natAbs ≤ 40
    ∧ 40 < ((46 : Int) - 5).natAbs
    ∧ (∃ l ∈ (withQueue queue0 [0] [launchIn 0 .running (.queue 0)] base).disp.launches, l.state = .running) :=
  ⟨by decide, by decide, by decide, by decide, by decide, by decide, by decide, by decide, rfl, rfl, by decide, rfl, by decide, by decide, _, .head _, rfl⟩

/-- A reorder store with room and one that is full; an atomic of the key held for a partner; a first launch begun and none. -/
theorem witness_PeerResults_store :
    let s := serving 5
    let held := { s with fab := { s.fab with merging := [⟨0, 1, [(0, asked (.atomic 1 0))], 5⟩] } }
    let full := { s with fab := { s.fab with order := [⟨3, 0, 0, List.replicate 4096 (2, asked .read)⟩] } }
    s.fab.storeLoad < 4096 ∧ 4096 ≤ full.fab.storeLoad ∧ (full.fab.order? (asked .read).src (asked .read).sagent).early = [] ∧ s.fab.atomicHeld (asked .read).src (asked .read).sagent = false ∧ held.fab.atomicHeld (asked .read).src (asked .read).sagent = true
    ∧ (held.fab.order? (asked .read).src (asked .read).sagent).early = [] ∧ s.disp.begun = false ∧ { s with disp := { s.disp with begun := true } }.disp.begun = true := by
  refine ⟨by decide, ?_, rfl, rfl, rfl, rfl, rfl, rfl⟩
  simp only [Fabric.storeLoad, List.map_cons, List.map_nil, List.length_replicate]
  decide

/-- Two atomics that merge and two that do not, before the 32 ns and after them. -/
theorem witness_MergeAndLossResults_merge :
    let p := asked (.atomic 1 0)
    let q := { p with port := 1 }
    let s := { serving 37 with fab := { (serving 37).fab with merging := [⟨0, 2, [(0, p)], 5⟩, ⟨1, 1, [(1, q)], 5⟩, ⟨2, 1, [(1, q), (0, p)], 5⟩] } }
    (s.fab.merging.find? fun x => x.num == 0) = some ⟨0, 2, [(0, p)], 5⟩ ∧ (s.fab.merging.find? fun x => x.num == 1) = some ⟨1, 1, [(1, q)], 5⟩ ∧ (0 : Nat) ≠ 1
    ∧ sameAtomic p q = true ∧ q.port < p.port ∧ sameAtomic p (asked .read) = false ∧ (s.fab.merging.find? fun x => x.num == 2) = some ⟨2, 1, [(1, q), (0, p)], 5⟩
    ∧ (serving 36).time < 5 + 32 ∧ 5 + 32 ≤ s.time ∧ s.time ≤ p.time + 10000 ∧ (∃ k, s.fab.key? 0 = some k ∧ 16 ≤ (k.refilled 37).tokens) ∧ p.bytes = 8 ∧ p.data.length = 8
    ∧ p.good = true ∧ (0x30000 : Nat) % 8 = 0 ∧ s.ms.move.done = false ∧ (serving 37).ms.mem.wf = true := by
  refine ⟨rfl, rfl, by decide, rfl, by decide, rfl, rfl, by decide, by decide, by decide, ⟨_, rfl, by decide⟩, rfl, rfl, rfl, rfl, rfl, by decide +kernel⟩

/-- Two atomics that have waited for 32 ns and no longer, and two where one has waited for more. -/
theorem witness_MergeAndLossResults_late :
    let s := { serving 37 with fab := { (serving 37).fab with merging := [⟨0, 2, [(0, asked (.atomic 1 0))], 5⟩, ⟨1, 1, [(1, asked (.atomic 1 0))], 9⟩] } }
    s.time ≤ 5 + 32 ∧ s.time ≤ 9 + 32 ∧ 5 + 32 < { s with time := 38 }.time ∧ (s.fab.merging.find? fun x => x.num == 0).isSome = true := by decide

/-- A transfer that is closed already, for a block with its TIME. -/
theorem witness_MergeAndLossResults_shut :
    let s := { serving 5 with fab := { (serving 5).fab with shut := [(7, 4, 5)] } }
    ¬ (7, 4, 5) ∉ s.fab.shut ∧ (7, 4, 6) ∉ s.fab.shut ∧ s.fab.lossy? 7 4 = none ∧ (7, 4, 5) ∉ (serving 5).fab.shut := by decide

/-- A block of a lossy transfer of one or of two, at the last ns before the cutoff and at it; an open transfer with a block lacking, with the block
there, and with none. -/
theorem witness_MergeAndLossResults_loss :
    let b : LossyBlock := ⟨7, 4, 0, 1, 0, 0x30000, 5, true, List.replicate 256 9⟩
    let x : LossyXfer := ⟨7, 4, 0, 0x30000, 2, 5, [{ b with nblk := 2 }]⟩
    let y : LossyXfer := ⟨7, 4, 0, 0x30000, 1, 5, []⟩
    let open_ := fun x now => { serving now with fab := { (serving now).fab with lossy := [x] } }
    b.data.length = 256 ∧ b.good = true ∧ (∃ k, (serving 1504).fab.key? 0 = some k) ∧ (serving 1504).ms.move.done = false
    ∧ ((0x30000 : Word) - wd (256 * b.blk)).toNat % 256 = 0 ∧ (serving 1504).ms.pending = [] ∧ (serving 1504).ms.retry = [] ∧ (0x30000 : Nat) % 256 = 0
    ∧ b.time + 1500 ≤ (serving 1505).time ∧ (serving 1504).time < b.time + 1500 ∧ (serving 1504).fab.lossy? 7 4 = none ∧ b.blk < 2 ∧ (2 : Nat) ≤ 64
    ∧ (0x30000 : Word).toNat % 8192 < 7936 ∧ (open_ x 1504).fab.lossy? 7 4 = some x ∧ (∃ k, k < x.nblk ∧ ∀ c ∈ x.blocks, c.blk ≠ k)
    ∧ (∃ c ∈ x.blocks, c.blk = b.blk) ∧ (open_ y 1505).fab.lossy? 7 4 = some y ∧ y.nblk = 1 ∧ y.blocks = [] := by
  refine ⟨List.length_replicate, rfl, ⟨_, rfl⟩, rfl, by decide, rfl, rfl, rfl, by decide, by decide, rfl, by decide, by decide, by decide, rfl, ⟨1, by decide, by decide⟩,
    ⟨_, .head _, rfl⟩, rfl, rfl, rfl⟩

theorem witness_MergeAndLossResults_tables : tablesApart (serving 5) 1 0x30000 0x30000 264 ∧ engineLands (serving 5) 1 .store 0x30000 0x30000 :=
  ⟨tables_apart _ _ _ _ (by decide +kernel) (by decide +kernel) (by decide +kernel) (by decide +kernel) (by decide +kernel), lands_engine _ _ _ _ (by decide +kernel)⟩

/-- The link whose spare port 35 is, is not port 35. -/
theorem spare_low : spareLink < 35 := Nat.lt_of_lt_of_le (Nat.mod_lt _ (Nat.lt_of_lt_of_le (by decide) degree_bounds.1)) degree_bounds.2

/-- Ports 6, a link of every fabric, and 36, of none: a flit as awaited, one damaged, one out of order, one of each class; a reserve with room and
none, a pool full; seven and eight failures, 63 and 64 replays in a ms; a link out of service. -/
theorem witness_LinkResults :
    let p : Port := { Port.fresh 6 with failures := 8 }
    let s := { base with fab := { base.fab with ports := [p] } }
    let many := { base with fab := { base.fab with ports := [{ Port.fresh 6 with replays := List.replicate 64 0 }] } }
    let lost := { base with fab := { base.fab with ports := [{ Port.fresh spareLink with dead := true }] } }
    let f : Nat → Flit := fun c => ⟨0, 0, 1, c, true, true, true⟩
    let full : Port := { Port.fresh 6 with bufs := List.replicate 8 (0, false) ++ List.replicate 16 (1024, false) ++ List.replicate 256 (0, true) }
    (1023 : Nat) < 1024 ∧ base.fab.portActive 6 = true ∧ base.fab.portActive 36 = false ∧ (base.fab.port 6).expect = 0
    ∧ ((f 0).cls = 0 ∨ (f 0).cls = 2) ∧ ((f 2).cls = 0 ∨ (f 2).cls = 2) ∧ (f 1).cls = 1 ∧ 3 ≤ (f 3).cls ∧ { f 0 with lseq := 1 }.lseq ≠ 0
    ∧ { f 0 with good := false }.good = false
    ∧ ((Port.fresh 6).bufs.filter fun b => b.1 = 0 ∧ b.2 = false).length < 8 ∧ ((Port.fresh 6).bufs.filter fun b => b.2 = true).length < 256
    ∧ ¬ (full.bufs.filter fun b => b.1 = 0 ∧ b.2 = false).length < 8 ∧ ¬ (full.bufs.filter fun b => b.1 = 1024 ∧ b.2 = false).length < 16
    ∧ ¬ (full.bufs.filter fun b => b.2 = true).length < 256
    ∧ (base.fab.port 6).failures < 8 ∧ ((base.fab.port 6).replays.filter fun t => base.time < t + 1000000).length < 64 ∧ 8 ≤ (s.fab.port 6).failures
    ∧ 64 ≤ ((many.fab.port 6).replays.filter fun t => many.time < t + 1000000).length ∧ (s.fab.port 6).dead = false
    ∧ (∀ c ∈ s.fab.claims, c.arb = 6 → ∀ id q, c.cargo = .packet id → s.fab.request? id = some q → q.block = none)
    ∧ (lost.fab.port spareLink).dead = true ∧ (lost.fab.port 35).spareOf = none := by
  refine ⟨by decide, portActive_low _ _ (by decide), portActive_high _ _ (by decide), rfl, .inl rfl, .inr rfl, rfl, by decide, by decide, rfl,
    by decide, by decide, by decide +kernel, by decide +kernel, by decide +kernel, by decide, by decide, by decide, by decide, rfl, nofun, ?_, ?_⟩
  · simp [Fabric.port, Port.fresh]
  · have e : (spareLink == 35) = false := beq_eq_false_iff_ne.mpr (Nat.ne_of_lt spare_low)
    simp [Fabric.port, Port.fresh, List.find?, e]

/-- A descriptor of an all-reduce of four bytes in group 4 at 0x40000, its SRC and DST at 0x50000 and 0x60000; one that names no operation. -/
def described : State :=
  withX (withMem grouped [(0x40000, 4 * 2^32 + 0x200), (0x40008, 0x50000), (0x40010, 0x60000), (0x40018, 4), (0x40040, 15)])
    [(2, 0x40000), (3, 0x40001), (4, 0x40040)]

theorem witness_CollectiveResults :
    let w : Vector Word 8 := #v[0x400000200, 0x50000, 0x60000, 4, 0, 0, 0, 0]
    let s := described
    (s.x 2).toNat % 64 = 0 ∧ (s.x 3).toNat % 64 ≠ 0 ∧ s.live ∧ s.ms.move.done = false
    ∧ (∀ j : Fin 8, w[j] = wd (readLE s.ms.mem (0x40000 + 8 * j.val) 8)) ∧ field w[0] 32 12 = 4 ∧ collBroken w (s.fab.group 4).members = false
    ∧ (s.fab.group 4).index? s.node.toNat = some 0 ∧ (s.fab.group 6).index? s.node.toNat = none ∧ s.own.holder 8 4 = s.owner
    ∧ (foreign s 8 4).own.holder 8 4 ≠ (foreign s 8 4).owner ∧ collBroken #v[15, 0, 0, 0, 0, 0, 0, 0] (s.fab.group 0).members = true
    ∧ (∀ j : Fin 8, (#v[15, 0, 0, 0, 0, 0, 0, 0] : Vector Word 8)[j] = wd (readLE s.ms.mem (0x40040 + 8 * j.val) 8)) ∧ s.fab.results = []
    ∧ field w[0] 0 4 < 3 ∧ 0 < field w[3] 0 32 ∧ (0x50000 : Word).toNat % 8192 + 4 ≤ 8192 ∧ (∀ c ∈ s.fab.colls, c.id < s.fab.nextId)
    ∧ (∀ q ∈ s.fab.requests, q.id < s.fab.nextId) ∧ s.fab.opens s.cx.cr.keyid = false ∧ bitAt w[0] 12 = false ∧ field w[3] 0 32 ≤ 4096
    ∧ (s.fab.group 4).index? { s with node := 7 }.node.toNat = some 1 := by
  unfold State.live; decide +kernel

theorem witness_CollectiveResults_lands : engineLands described 1 .load 0x40000 0x40000 ∧ engineLands described 1 .engineRead 0x50000 0x50000
    ∧ engineLands described 1 .engineWrite 0x60000 0x60000 ∧ engineLands described 1 .store 0x60000 0x60000 :=
  ⟨lands_engine _ _ _ _ (by decide +kernel), lands_engine _ _ _ _ (by decide +kernel), lands_engine _ _ _ _ (by decide +kernel),
    lands_engine _ _ _ _ (by decide +kernel)⟩

/-- A collective of this rank, exact or lossy, at a time. -/
def colling (lossy : Bool) (now : Nat) : State :=
  { described with
    time := now
    fab := { described.fab with colls :=
      [{ id := 9, key := ⟨0, 0⟩, run := 0, ctx := 0, seq := 1, group := 4, count := 3, desc := described.fab.group 4, failed := [],
         words := if lossy then #v[0x400001500, 0x50000, 0x60000, 256, 0x70000, 0x70008, 0, 0] else #v[0x400000200, 0x50000, 0x60000, 4, 0, 0, 0, 0],
         owner := 1, keyid := 0, time := 5, sent := true, legs := [⟨0, 0, 5, [1, 2, 3, 4], []⟩], result := none, record := none, ring := none }] } }

/-- One leg here and one that comes; the last ns before each limit and the limit; a lossy one; a held result and none. -/
theorem witness_CollectiveResults_ends :
    let c := (colling false 5).fab.coll? 9
    let l := (colling true 5).fab.coll? 9
    let x : LegIn := ⟨1, 0, 5, [4, 3, 2, 1], [], true⟩
    let z : Leg := ⟨0, 1, 5, [1, 2, 3, 4], []⟩
    (x.first = 1 ∧ x.level = 0 ∧ x.good = true ∧ x.data.length = 4 ∧ { x with good := false }.good = false)
    ∧ (∃ q, c = some q ∧ q.members = 2 ∧ q.index (colling false 5).node = 0 ∧ q.ring = none ∧ q.failed = []
      ∧ { q with legs := [z] }.leg? 0 1 = some z ∧ z.data.length = q.bytes ∧ q.desc.node 0 = (colling false 5).node.toNat
      ∧ q.desc.node 1 ≠ (colling false 5).node.toNat ∧ { q with failed := [q.desc.node 1] }.failed = [q.desc.node 1]
      ∧ ∀ j, j < q.members → q.desc.node j = q.desc.node 1 → j = 1)
    ∧ (∃ q, c = some q ∧ q.key = (colling false 5).rk.key ∧ q.run = (colling false 5).rk.run ∧ q.record = none ∧ q.sent = true
      ∧ (∃ g, q.legs = [g] ∧ g.first = 0 ∧ g.level = 0 ∧ g.data.length = 4) ∧ ((colling false 5).fab.group q.group).members = 2 ∧ q.op = 0
      ∧ q.lossy = false ∧ q.type = 2 ∧ q.rop = 0 ∧ q.bytes = 4 ∧ (colling false 5).fab.matching 4 3 = some q ∧ q.result = none
      ∧ q.dst.toNat % 8192 + q.bytes ≤ 8192 ∧ (colling false 20004).time < q.time + 20000 ∧ q.time + 20000 ≤ (colling false 20005).time)
    ∧ (∃ q, l = some q ∧ q.lossy = true ∧ q.bytes = 256 ∧ (colling true 3004).time < q.time + (treeDepth 2 + 1) * 1500
      ∧ q.time + (treeDepth 2 + 1) * 1500 ≤ (colling true 3005).time ∧ q.dst.toNat % 8192 + 256 ≤ 8192 ∧ q.maskAddr = 0x70000 ∧ q.cntAddr = 0x70008
      ∧ q.cntAddr.toNat % 4 = 0 ∧ q.maskAddr.toNat % 8 = 0)
    ∧ described.fab.matching 4 3 = none ∧ (described.fab.group 4).count ≤ 3 ∧ (∀ h ∈ described.fab.results, ¬ (h.group = 4 ∧ h.count = 3))
    ∧ described.rk.id.dual = false :=
  ⟨⟨rfl, rfl, rfl, rfl, rfl⟩, ⟨_, rfl, by decide, by decide, rfl, rfl, rfl, rfl, by decide, by decide, rfl, by decide⟩,
    ⟨_, rfl, rfl, rfl, rfl, rfl, ⟨_, rfl, rfl, rfl, rfl⟩, by decide, rfl, rfl, rfl, rfl, rfl, rfl, rfl, by decide, by decide, by decide⟩,
    ⟨_, rfl, rfl, rfl, by decide, by decide, by decide, rfl, rfl, by decide, by decide⟩, rfl, by decide, by decide, rfl⟩

theorem witness_CollectiveResults_closes : engineLands (colling true 3005) 1 .engineWrite 0x60000 0x60000
    ∧ engineLands (colling true 3005) 1 .engineWrite 0x70000 0x70000 ∧ engineLands (colling true 3005) 1 .engineWrite 0x70008 0x70008 :=
  ⟨lands_engine _ _ _ _ (by decide +kernel), lands_engine _ _ _ _ (by decide +kernel), lands_engine _ _ _ _ (by decide +kernel)⟩

/-- A result of a lossy collective that is held late, and one that is not; a collective that is yet to commit; nothing held early. -/
theorem witness_CollectiveResults_held :
    let h : HeldResult := ⟨4, 3, 5, ⟨0, 1, 5, [1], [1]⟩, true⟩
    let s := { described with time := 1505, fab := { described.fab with results := [h] } }
    s.fab.results[0]? = some h ∧ h.group = 4 ∧ h.count = 3 ∧ h.leg.counts ≠ [] ∧ h.time + 1500 ≤ s.time ∧ ¬ h.time + 1500 ≤ { s with time := 1504 }.time
    ∧ s.fab.coll? 9 = none ∧ s.fab.nextId ≤ 9 ∧ described.cx.answer = none ∧ described.fab.earlyLegs = [] := by
  refine ⟨rfl, rfl, rfl, by decide, by decide, by decide, rfl, by decide, rfl, rfl⟩

/-! The step, the encoding, the limits. -/

/-- A step without an encoding, and a context that may issue the last word of the first 8 GiB: one that decodes and one that does not. -/
theorem witness_StepRunsDecodedInstruction :
    let s := fun w => { State.reset.placedAt 0x1FFFFFFFC w with agenda := [Turn.issue ⟨0, 0⟩ 0 0] }
    encode .bringUp = none ∧ (s 0xCC000005).agenda = .issue (s 0).rk.key (s 0).rk.run (s 0).cx.num :: [] ∧ (s 0).live ∧ (s 0).cx.run = .running
    ∧ (s 0).co.halted = false ∧ (s 0).awaiting = false ∧ (s 0).cx.mx.pending = false ∧ (s 0).cx.windows = [] ∧ (∀ e ∈ (s 0).co.stores, e.left = 0)
    ∧ (s 0).cx.pc.toNat % 4 = 0 ∧ canonical (s 0).cx.pc = true
    ∧ translate (s 0).ms (s 0).tick ((s 0).own.ownerOr (s 0).owner) (s 0).cx.pc .fetch = .at 0x1FFFFFFFC leaf0 ∧ hostSpace 0x1FFFFFFFC = false
    ∧ (s 0).ms.movingAt 0x1FFFFFFFC = false ∧ pteRepl leaf0.entry = false ∧ leaf0.entry ||| 0x20 = leaf0.entry
    ∧ findLine (s 0).tick 0x1FFFFFFFC (s 0).co.icache = none ∧ readLE (s 0xCC000005).ms.mem ((s 0xCC000005).ms.homeAddr 0x1FFFFFFFC) 4 = 0xCC000005
    ∧ decode 0xCC000005 = .ok .nop ∧ (∃ e, decode (readLE (s 0).ms.mem ((s 0).ms.homeAddr 0x1FFFFFFFC) 4) = .error e) := by
  refine ⟨rfl, rfl, rfl, rfl, rfl, rfl, rfl, rfl, by decide, by decide, by decide, ?_, by decide, by decide, rfl, rfl, by decide, ?_, rfl, ?_⟩
  · decide +kernel
  · decide +kernel
  · have e : readLE ({ State.reset.placedAt 0x1FFFFFFFC 0 with agenda := [Turn.issue ⟨0, 0⟩ 0 0] } : State).ms.mem 0x1FFFFFFFC 4 = 0 := by decide +kernel
    exact ⟨_, by rw [show (State.ms _).homeAddr 0x1FFFFFFFC = 0x1FFFFFFFC from rfl, e]; rfl⟩

/-- A word in hand for the program counter, one that a request has just brought, and neither. -/
theorem witness_StepRunsDecodedInstruction_fetched :
    let s := base
    let had := { s with cx := { s.cx with fetched := [(s.cx.pc, 0xCC000005)] } }
    let came := { s with cx := { s.cx with wait := .fetch 3, answer := some 0xCC000005 } }
    (had.cx.fetched.find? fun q => q.1 == had.cx.pc) = some (had.cx.pc, 0xCC000005) ∧ had.awaiting = false ∧ came.awaiting = false
    ∧ (came.cx.fetched.find? fun q => q.1 == came.cx.pc) = none ∧ came.cx.wait = .fetch 3 ∧ came.cx.answer = some 0xCC000005
    ∧ (s.cx.fetched.find? fun q => q.1 == s.cx.pc) = none ∧ (∀ id, s.cx.wait ≠ .fetch id) :=
  ⟨by simp, rfl, rfl, rfl, rfl, rfl, rfl, nofun⟩

theorem witness_EncodingRoundTrip : Instr.wf (.ldo 31 31 15 .sys .acq .d .none false) = true
    ∧ encode (.ldo 31 31 15 .sys .acq .d .none false) = some 0x77FFF8E0 := by decide

theorem witness_EncodingRoundTrip_words : (0xFC000000 : Nat) < 2^32 ∧ decode 0xFC000000 = .ok .solo := ⟨by decide, rfl⟩

/-- The limits hold at reset, where the temperature limit is at its ceiling, and bring-up answers a next state. -/
theorem witness_PowerStaysWithinLimits : State.reset.powerWithin = true ∧ ∃ t, step State.reset = .next t := by
  refine ⟨?_, _, rfl⟩
  simp [State.powerWithin, State.reset, Management.reset]

/-- After reset bring-up may go on, its first stage verifies; a module at its end; one whose first stage fails; one that has stopped. -/
theorem witness_ResetAndBringUp :
    let s := State.reset
    let at_ := fun (f : Management → Management) => { s with mgmt := f s.mgmt }
    let bad := at_ fun m => { m with verified := m.verified.set 0 false }
    s.host.ready = false ∧ s.mgmt.stopped = false ∧ base.host.ready = true ∧ (at_ fun m => { m with stopped := true }).mgmt.stopped = true
    ∧ (∀ n, ∀ i ∈ stagesOf n, s.mgmt.verified.toList.getD i false = true ∨ 8 ≤ i) ∧ s.mgmt.stage = 0
    ∧ (at_ fun m => { m with stage := 4 }).mgmt.stage = 4 ∧ (∃ i ∈ stagesOf (bad.mgmt.stage + 1), bad.mgmt.verified.toList.getD i false = false) := by
  refine ⟨rfl, rfl, rfl, rfl, fun n i _ => ?_, rfl, rfl, 0, .head _, rfl⟩
  by_cases h : i < 8
  · left
    have hv : ∀ k : Fin 8, (List.replicate 8 true).getD k.val false = true := by decide
    exact hv ⟨i, h⟩
  · exact .inr (by omega)

end Sys2Proof.Tests
end

section
/-! Launches (03 R10, R35, R45, R59; 12 R252, R258): what the operations on launches and ranks leave, and the four events of a launch's life. -/

namespace Sys2Proof.Machine

open Sys2Proof

/-! ### The launch of a number -/

theorem find?_updFirst_same {α : Type} {p : α → Bool} {f : α → α} {l : List α} {a : α} (h : l.find? p = some a) (hf : p (f a) = true) :
    (updFirst p f l).find? p = some (f a) := by
  induction l with
  | nil => cases h
  | cons b r ih =>
    by_cases hb : p b = true
    · simp only [List.find?_cons, hb, Option.some.injEq] at h
      subst h
      simp [updFirst, hb, hf]
    · simp only [List.find?_cons, hb] at h
      simp [updFirst, hb, ih h]

theorem State.launch?_num {s : State} {n : Nat} {l : Launch} (h : s.launch? n = some l) : l.num = n := by
  simpa using List.find?_some h

/-- A launch changed under its own number is found as changed. -/
theorem State.launch?_updLaunch_same {s : State} {n : Nat} {f : Launch → Launch} {l : Launch} (h : s.launch? n = some l)
    (hf : (f l).num = l.num) : (s.updLaunch n f).launch? n = some (f l) :=
  find?_updFirst_same h (by simpa [hf] using s.launch?_num h)

/-- Which launch stands under a number depends on the list of launches alone. -/
theorem State.launch?_congr {s t : State} (h : t.disp.launches = s.disp.launches) (n : Nat) : t.launch? n = s.launch? n := by
  simp [State.launch?, h]

@[simp] theorem State.updLaunch_cx (s : State) (n : Nat) (f : Launch → Launch) : (s.updLaunch n f).cx = s.cx := rfl
@[simp] theorem State.updLaunch_rk (s : State) (n : Nat) (f : Launch → Launch) : (s.updLaunch n f).rk = s.rk := rfl
@[simp] theorem State.updLaunch_ranks (s : State) (n : Nat) (f : Launch → Launch) : (s.updLaunch n f).ranks = s.ranks := rfl
@[simp] theorem State.updLaunch_ms (s : State) (n : Nat) (f : Launch → Launch) : (s.updLaunch n f).ms = s.ms := rfl
@[simp] theorem State.updLaunch_errors (s : State) (n : Nat) (f : Launch → Launch) :
    (s.updLaunch n f).disp.errors = s.disp.errors := rfl

@[simp] theorem State.updRank_ms (s : State) (k : RankKey) (run : Nat) (f : Rank → Rank) : (s.updRank k run f).ms = s.ms := by
  unfold State.updRank; split <;> rfl

@[simp] theorem State.updRank_disp (s : State) (k : RankKey) (run : Nat) (f : Rank → Rank) : (s.updRank k run f).disp = s.disp := by
  unfold State.updRank; split <;> rfl

@[simp] theorem State.updCore_rk (s : State) (n : Nat) (f : Core → Core) : (s.updCore n f).rk = s.rk := by
  unfold State.updCore; split <;> rfl

@[simp] theorem State.updCore_ranks (s : State) (n : Nat) (f : Core → Core) : (s.updCore n f).ranks = s.ranks := by
  unfold State.updCore; split <;> rfl

@[simp] theorem State.updCore_ms (s : State) (n : Nat) (f : Core → Core) : (s.updCore n f).ms = s.ms := by
  unfold State.updCore; split <;> rfl

@[simp] theorem State.updCore_disp (s : State) (n : Nat) (f : Core → Core) : (s.updCore n f).disp = s.disp := by
  unfold State.updCore; split <;> rfl

/-! ### Placement (R10, R35, R45) -/

theorem ofNat_field_zero (w : Word) (n : Nat) : BitVec.ofNat n (field w 0 n) = w.setWidth n := by
  apply BitVec.eq_of_toNat_eq
  simp [field]

/-- ENTRY as an address: bits [52:0] of word 0 of the record. -/
theorem Launch.entry_addr (l : Launch) : addr53 (BitVec.ofNat 53 l.entry) = (l.words[0].setWidth 53).signExtend 64 := by
  rw [Launch.entry, ofNat_field_zero, addr53]

/-- LBLK as a word: bits [52:0] of word 1 of the record. -/
theorem Launch.lblk_word (l : Launch) : (BitVec.ofNat 53 l.lblk).setWidth 64 = (l.words[1].setWidth 53).setWidth 64 := by
  rw [Launch.lblk, ofNat_field_zero]

/-- SPAN fits the rank's copy of it. -/
theorem Launch.span_toNat (l : Launch) : (BitVec.ofNat 17 l.span).toNat = field l.words[2] 0 17 := by
  simp [Launch.span, field]

/-- The control context of a new rank: at ENTRY with X[3] = LBLK, every other register zero (R10). -/
theorem Launch.newRank_control (l : Launch) (run rank core : Nat) (st : RankState) :
    ∃ x, (l.newRank run rank core st).ctxs = [x] ∧ x.num = 0 ∧ x.pc = (l.words[0].setWidth 53).signExtend 64
      ∧ (∀ j : Fin 32, x.x[j] = if j = 3 then (l.words[1].setWidth 53).setWidth 64 else 0) ∧ x.v = Vector.replicate 28 0
      ∧ x.cr.keyid = l.words[2].extractLsb' 48 10 ∧ x.hf = false := by
  refine ⟨_, rfl, rfl, l.entry_addr, fun j => ?_, rfl, rfl, rfl⟩
  have h3 : j = 3 ↔ 3 = j.val := ⟨fun h => by simp [h], fun h => Fin.ext h.symm⟩
  simp [Context.reset, Vector.getElem_set, l.lblk_word, h3]

/-- Rank k of a run stands on core k of its placement, folded where a lower rank has that core (R45). -/
theorem Launch.newRanks_getElem? (l : Launch) (run : Nat) {cores : List Nat} {k c : Nat} (h : cores[k]? = some c) :
    (l.newRanks run cores)[k]? = some (l.newRank run k c (if c ∈ cores.take k then .folded else .running)) := by
  simp [Launch.newRanks, List.getElem?_zipIdx, h]

@[simp] theorem Launch.newRanks_length (l : Launch) (run : Nat) (cores : List Nat) : (l.newRanks run cores).length = cores.length := by
  simp [Launch.newRanks]

/-- A single run placed adds its ranks behind the others. -/
theorem State.place_ranks (s : State) (l : Launch) (cores : List Nat) : (s.place l [cores]).ranks = s.ranks ++ l.newRanks 0 cores := by
  simp [State.place]

/-- A launch placed runs, with the first free channels that it needs. -/
theorem State.place_launch? {s : State} {l : Launch} (runs : List (List Nat)) (h : s.launch? l.num = some l) :
    (s.place l runs).launch? l.num
      = some { l with state := .running, channels := (s.freeChannels l.owner).take l.channelsNeeded } :=
  s.launch?_updLaunch_same h rfl

/-- A launch is placeable only where there are the channels that it needs. -/
theorem State.channels_of_placeable {s : State} {l : Launch} (h : s.placeable l = true) :
    l.channelsNeeded ≤ (s.freeChannels l.owner).length := by
  simp only [State.placeable, Bool.and_eq_true, decide_eq_true_eq] at h
  exact h.1.2

/-- A queue with nothing to write, to resume and to read places its candidate where nothing goes before it. -/
theorem exec_launchPlace {s : State} {q : Nat} {l : Launch} {runs : List (List Nat)}
    (hq : ((s.retryProgress q).resumeSaved q).readNext q = s) (hc : s.candidate (.queue q) = some l) (hp : s.placeable l = true)
    (ho : s.outranked l = false) (hr : s.placement l = some runs) : exec (.launchPlace (.queue q)) s = .next (s.place l runs) := by
  show execLaunchPlace (.queue q) s = _
  simp [execLaunchPlace, hq, hc, hp, ho, hr]

/-! ### The end of a rank (R225, R258) -/

@[simp] theorem MemSystem.put_pending (ms : MemSystem) (pa : Nat) (bs : List Byte) : (ms.put pa bs).pending = ms.pending := rfl

@[simp] theorem MemSystem.putCopies_pending (ms : MemSystem) (pa : Nat) (bs : List Byte) : (ms.putCopies pa bs).pending = ms.pending := rfl

/-- Nothing is pending once every pending update is committed (R126). -/
@[simp] theorem MemSystem.commitAll_pending (ms : MemSystem) : ms.commitAll.pending = [] := by
  have h : ∀ (l : List Pending) (m : MemSystem), (l.foldl (fun m u => m.putCopies u.pa u.data) m).pending = m.pending := by
    intro l
    induction l with
    | nil => exact fun _ => rfl
    | cons u r ih => exact fun m => by rw [List.foldl_cons, ih, MemSystem.putCopies_pending]
  exact h ms.pending _

/-- The rank in focus is the run of its key that may end, where it may. -/
theorem State.runWhere_self {s : State} {p : Rank → Bool} (h : s.rk.state ≠ .ended) (hp : p s.wholeRank = true) :
    s.runWhere s.rk.key p = some s.wholeRank := by
  simp [State.runWhere, State.liveRanks, h, hp, show s.wholeRank.key = s.rk.key from rfl]

/-- The rank in focus removed. -/
theorem State.removeRank_self {s : State} (h : s.rk.state ≠ .ended) :
    s.removeRank s.rk.key s.rk.run = { s with rk := s.rk.over, cx := Context.reset } := by
  simp [State.removeRank, Rank.is, h]

/-- A core that holds no rank goes on with none. -/
theorem State.switchCore_of_none {s : State} {core : Nat} (h : ∀ r ∈ s.liveRanks, r.onCore core = false) : s.switchCore core = s := by
  have he : s.liveRanks.filter (Rank.onCore core) = [] := by simpa using h
  simp [State.switchCore, he, nextFolded]

/-- A launch of one run has no signatures to compare. -/
theorem State.compareRuns_of_single {s : State} {n : Nat} {l : Launch} (h : s.launch? n = some l) (hd : l.dual = false) :
    s.compareRuns n = s := by
  simp [State.compareRuns, h, hd]

theorem Launch.signed_dual (l : Launch) (run : Nat) (sig : BitVec 64) : (l.signed run sig).dual = l.dual := by
  unfold Launch.signed; split <;> rfl

theorem Launch.signed_num (l : Launch) (run : Nat) (sig : BitVec 64) : (l.signed run sig).num = l.num := by
  unfold Launch.signed; split <;> rfl

/-- The rank in focus ended: its place among the ranks and its context are gone, its run is signed, its core is left. -/
def State.rankOver (s : State) : State :=
  (({ s.commitAll with rk := s.rk.over, cx := Context.reset } : State).updLaunch s.rk.key.launch fun l => l.signed s.rk.run s.rk.sig).updCore
    s.rk.core fun c => { c with last := some s.rk.key }

/-- The rank in focus of a launch of one run ends where it may, alone on its core. -/
theorem exec_rankEnd {s : State} {l : Launch} (hl : s.live) (hm : s.mayEnd s.wholeRank = true)
    (hs : s.launch? s.rk.key.launch = some l) (hd : l.dual = false) (hr : ∀ r ∈ s.ranks, r.core ≠ s.rk.core) :
    exec (.rankEnd s.rk.key) s = .next s.rankOver := by
  have he : s.rk.state ≠ .ended := by simp [show s.rk.state = .running from hl]
  have hw : s.wholeRank.state = .running := hl
  have hk : s.rankOver.switchCore s.rk.core = s.rankOver := by
    refine State.switchCore_of_none fun r hlive => ?_
    have hrest : r ∈ s.ranks := by simpa [State.liveRanks, State.rankOver, Rank.over, State.commitAll] using hlive
    simp [Rank.onCore, hr r hrest]
  have hc : s.rankOver.compareRuns s.rk.key.launch = s.rankOver := by
    refine State.compareRuns_of_single (l := l.signed s.rk.run s.rk.sig) ?_ (by rw [Launch.signed_dual, hd])
    rw [State.launch?_congr (t := s.rankOver) (by simp [State.rankOver]; rfl)]
    exact State.launch?_updLaunch_same hs (Launch.signed_num ..)
  show execRankEnd s.rk.key s = _
  have hrm : s.commitAll.removeRank s.rk.key s.wholeRank.run = { s.commitAll with rk := s.rk.over, cx := Context.reset } :=
    State.removeRank_self (s := s.commitAll) he
  simp only [execRankEnd, State.runWhere_self he hm, hrm, hw, beq_self_eq_true, if_true]
  exact congrArg Host.Outcome.next ((congrArg (State.compareRuns · s.rk.key.launch) hk).trans hc)

theorem State.rankOver_launch? {s : State} {l : Launch} (h : s.launch? s.rk.key.launch = some l) :
    s.rankOver.launch? s.rk.key.launch = some (l.signed s.rk.run s.rk.sig) := by
  rw [State.launch?_congr (t := s.rankOver)
    (s := ({ s.commitAll with rk := s.rk.over, cx := Context.reset } : State).updLaunch s.rk.key.launch fun l => l.signed s.rk.run s.rk.sig)
    (by simp [State.rankOver])]
  exact State.launch?_updLaunch_same h (Launch.signed_num ..)

/-! ### The end of a launch (R59) -/

/-- A launch marked complete, and its cluster tiles marked ended (R59, R82). -/
def State.launchDone (s : State) (l : Launch) : State :=
  { s.updLaunch l.num fun l => { l with state := .complete } with
    eng := { s.eng with tiles := s.eng.tiles.map fun (x : Tile) => if x.launch == l.num then { x with ended := true } else x } }

/-- The end of a launch that a rank started: the launch is done, and the ticket of its `lnch` tells of it (R227). -/
theorem State.endLaunch_of_program (s : State) {l : Launch} {p : RankKey} {run seq : Nat} (h : l.origin = .program p run seq) :
    s.endLaunch l true = (s.launchDone l).updRank p run fun r => r.updTicket .launch 0 seq fun t => { t with state := 2 } := by
  show (s.launchDone l).tellOrigin l true = _
  simp only [State.tellOrigin, h, if_true]

/-- A running launch that a rank started completes once its ranks have ended, where no rung stops it. -/
theorem exec_launchComplete {s : State} {l : Launch} {p : RankKey} {run seq : Nat} (hs : s.launch? l.num = some l)
    (ho : l.origin = .program p run seq) (hq : s.retryProgress l.queue = s) (hr : l.state = .running) (he : s.allEnded l.num = true)
    (hp : s.stopping l.num = false) : exec (.launchComplete l.num) s = .next (s.endLaunch l true) := by
  show execLaunchComplete l.num s = _
  simp [execLaunchComplete, hs, ho, hq, hr, he, hp]

/-! ### The deadline (R252) -/

/-- The owner's copy of a record leaves the launches. -/
theorem State.ownerCopy_launches (s : State) (o : Nat) (e : ErrRec) : (s.ownerCopy o e).1.disp.launches = s.disp.launches := by
  unfold State.ownerCopy
  dsimp only
  split
  · rfl
  · split
    · rfl
    · rfl
    · rfl
    · next num va pa _ =>
      obtain ⟨m, c, g, hg⟩ := State.putRecord_cases s (s.own.ownerOr o) num va e.words
      rw [hg, State.fireMsix_disp]

/-- An error record leaves the launches. -/
theorem State.report_launches (s : State) (e : ErrRec) : (s.report e).disp.launches = s.disp.launches := by
  have hh : ∀ (t : State) (e : ErrRec), (t.hostCopy e).disp = t.disp := fun t e => by
    obtain ⟨h, hh⟩ := t.hostCopy_cases e
    rw [hh]
  have ho := s.ownerCopy_launches e.owner { e with time := s.time, num := s.disp.errNum + 1 }
  unfold State.report
  dsimp only
  split <;> split <;> simp_all

/-- A launch that is open, not reported and past its deadline is reported, and late from then on. -/
theorem exec_deadlinePassed {s : State} {l : Launch} (hs : s.launch? l.num = some l) (hr : l.state = .running) (hn : l.late = false)
    (hd : l.deadline ≠ 0) (ht : l.deadline.toNat < s.time) : exec (.deadlinePassed l.num) s
      = .next ((s.report { errRec Err.deadline l.owner l.addr l.deadline (wd s.time) with queue := l.queue }).updLaunch l.num
          fun l => { l with late := true }) := by
  show execDeadlinePassed l.num s = _
  have hd : ¬ l.deadline = 0#64 := hd
  simp [execDeadlinePassed, hs, hr, hn, hd, ht]

theorem exec_deadlinePassed_of_late {s : State} {l : Launch} (hs : s.launch? l.num = some l) (hn : l.late = true) :
    exec (.deadlinePassed l.num) s = .next s := by
  show execDeadlinePassed l.num s = _
  simp [execDeadlinePassed, hs, hn]

/-- Settles O37: each event is what its equation above says, and the state it leaves is read off its operations. -/
theorem launchRunResults : Obligations.LaunchRunResults := by
  intro s l
  refine ⟨fun q cores hq hc hs hp ho hr => ?place, fun hl hm hs hd hr => ?ends, fun p run seq hs ho hq hr he hp => ?completes,
    fun hs hr hn hd ht => ?passes, fun hs hn => exec_deadlinePassed_of_late hs hn⟩
  case place =>
    refine ⟨_, exec_launchPlace hq hc hp ho hr, by simp [State.place_ranks], rfl, rfl, ⟨_, State.place_launch? _ hs, rfl, ?_⟩,
      fun k c hk => ?_⟩
    · rw [List.length_take, Nat.min_eq_left (State.channels_of_placeable hp), Launch.channelsNeeded, Nat.add_mul, Nat.one_mul]
    · obtain ⟨x, hx⟩ := l.newRank_control 0 k c (if c ∈ cores.take k then .folded else .running)
      refine ⟨_, x, ?_, rfl, rfl, rfl, rfl, rfl, l.span_toNat, rfl, rfl, hx⟩
      rw [State.place_ranks, List.getElem?_append_right (by omega), Nat.add_sub_cancel_left]
      exact l.newRanks_getElem? 0 hk
  case ends =>
    refine ⟨_, _, exec_rankEnd hl hm hs hd hr, by simp [State.rankOver, Rank.over], by simp [State.rankOver, Rank.over],
      by simp [State.rankOver, State.commitAll], by simp [State.rankOver, State.commitAll], ?_, rfl⟩
    have ht := State.rankOver_launch? hs
    rwa [← State.launch?_num hs] at ht
  case completes =>
    refine ⟨_, exec_launchComplete hs ho hq hr he hp, ?_, ?_, fun hl hk hn => ?_⟩
    · rw [s.endLaunch_of_program ho, State.updRank_ms]
      rfl
    · rw [s.endLaunch_of_program ho, State.launch?_congr (s := s.launchDone l) (by rw [State.updRank_disp])]
      exact State.launch?_updLaunch_same hs rfl
    · subst hk hn
      have hne : s.rk.state ≠ .ended := by simp [show s.rk.state = .running from hl]
      rw [s.endLaunch_of_program ho]
      exact congrArg (fun t : State => t.rk.tickets) ((s.launchDone l).updRank_self _ hne)
  case passes =>
    obtain ⟨-, -, -, -, -, -, -, -, -, d, he⟩ :=
      s.report_frame { errRec Err.deadline l.owner l.addr l.deadline (wd s.time) with queue := l.queue }
    refine ⟨_, _, exec_deadlinePassed hs hr hn hd ht, State.launch?_updLaunch_same ?_ rfl, he, rfl, rfl, rfl, rfl⟩
    rw [State.launch?_congr (State.report_launches ..), hs]

end Sys2Proof.Machine
end
section
/-! The step (03 R10, R52; 05 R102; 06 R122): the word that a core fetches, and where it is not the word at the program counter's home. -/

namespace Sys2Proof.Machine

open Sys2Proof

/-! ### The fetch of one word (R102, R122, R331) -/

/-- The word at an address as a line filled from its home holds it. -/
def MemSystem.lineWord (ms : MemSystem) (a : Nat) : Nat := leNat (lineBytes (homeLine ms 0 a) a 4)

/-- The word at an address lies in one line, and the page move that is done forwards that line whole or not at all. -/
def MemSystem.wordWhole (ms : MemSystem) (a : Nat) : Prop := a % 64 ≤ 60 ∧ ms.homeAddr a = ms.homeAddr (lineOf a) + a % 64

theorem readBytes_drop (m : Memory) (pa n k : Nat) : (readBytes m pa n).drop k = readBytes m (pa + k) (n - k) := by
  induction k generalizing pa n with
  | zero => simp
  | succ k ih =>
    cases n with
    | zero => simp [readBytes]
    | succ n => simp [readBytes, ih, Nat.add_assoc, Nat.add_comm 1 k]

theorem readBytes_take (m : Memory) (pa n k : Nat) (h : k ≤ n) : (readBytes m pa n).take k = readBytes m pa k := by
  induction k generalizing pa n with
  | zero => simp [readBytes]
  | succ k ih =>
    obtain ⟨n, rfl⟩ : ∃ j, n = j + 1 := ⟨n - 1, by omega⟩
    simp [readBytes, ih (pa + 1) n (by omega)]

/-- A word that is forwarded with its line is the one at its home. -/
theorem MemSystem.lineWord_of_wordWhole {ms : MemSystem} {a : Nat} (h : ms.wordWhole a) : ms.lineWord a = readLE ms.mem (ms.homeAddr a) 4 := by
  obtain ⟨hin, hhome⟩ := h
  have ho : a - lineOf a = a % 64 := by unfold lineOf; omega
  rw [MemSystem.lineWord, lineBytes, homeLine, ho, readBytes_drop, readBytes_take _ _ _ _ (by omega), ← hhome, readLE]

/-- Recalling a line moves it between caches alone. -/
theorem MemSystem.recall_caches (ms : MemSystem) (pa : Nat) : ∃ e c, ms.recall pa = { ms with excl := e, ccache := c } := by
  unfold MemSystem.recall MemSystem.recallAll
  split <;> exact ⟨_, _, rfl⟩

/-- A leaf with its A set is fetched through without a write to its table. -/
theorem markUsed_fetch {ms : MemSystem} {o : OwnerRec} {va : Word} {l : Leaf} (h : l.entry ||| 0x20 = l.entry) :
    ∃ k, markUsed ms o va .fetch l = { ms with kept := k } := by
  have he : l.entry ||| 0x20 ||| (if Access.fetch.writes then (0x40 : Word) else 0) = l.entry := by simpa [Access.writes] using h
  unfold markUsed
  rw [he]
  cases l.loc <;> simp

/-- A word not in the instruction cache is fetched from the line filled from its home. -/
theorem State.fetchPhys_of_miss {s : State} {a : Nat} (h : findLine s.tick a s.co.icache = none) : ∃ i e c g, s.fetchPhys a
    = ({ s with co := { s.co with icache := i }, ms := { s.ms with excl := e, ccache := c }, log := g }, s.ms.lineWord a) := by
  obtain ⟨e, c, hr⟩ := s.ms.recall_caches a
  unfold State.fetchPhys
  rw [h]
  dsimp only
  rw [hr]
  obtain ⟨g, hg⟩ := State.logAccess_log
    { s with
      ms := { s.ms with excl := e, ccache := c }
      co := { s.co with icache := homeLine { s.ms with excl := e, ccache := c } s.tick a
        :: s.co.icache.filter fun k => k.addr != (homeLine { s.ms with excl := e, ccache := c } s.tick a).addr } } 0 s.owner 3 a
  exact ⟨_, e, c, g, Prod.ext hg rfl⟩

/-! ### The issue of one instruction (R10, R52, R319) -/

/-- u is s but for what the fetch of a word changes: the instruction cache, the kept translations, the line's place among the clusters, the
access log, and the fault records that the context has left. -/
def State.fetchedFrom (s u : State) : Prop :=
  u = { s with
    co := { s.co with icache := u.co.icache }
    ms := { s.ms with kept := u.ms.kept, excl := u.ms.excl, ccache := u.ms.ccache }
    disp := { s.disp with records := u.disp.records }
    log := u.log }

/-- The word at pc is to be fetched from pa in device memory: none is in hand, and the leaf through which it is fetched is no replicated page's
and has its A set. -/
def State.fetchesAt (s : State) (pc : Word) (pa : Nat) (l : Leaf) : Prop :=
  (s.cx.fetched.find? fun q => q.1 == pc) = none ∧ (∀ id, s.cx.wait ≠ .fetch id) ∧ canonical pc = true
    ∧ translate s.ms s.tick (s.own.ownerOr s.owner) pc .fetch = .at pa l ∧ hostSpace (s.ms.homeAddr pa) = false
    ∧ s.ms.movingAt (s.ms.homeAddr pa) = false ∧ pteRepl l.entry = false ∧ l.entry ||| 0x20 = l.entry
    ∧ findLine s.tick (s.ms.homeAddr pa) s.co.icache = none

theorem State.wordInHand_none {s : State} {pc : Word} (h : (s.cx.fetched.find? fun q => q.1 == pc) = none)
    (hw : ∀ id, s.cx.wait ≠ .fetch id) : s.wordInHand pc = none := by
  unfold State.wordInHand
  rw [h]
  dsimp only
  split
  · next id _ he _ => exact absurd he (hw id)
  · rfl

/-- A fetch from device memory answers the word of the line there. -/
theorem State.fetch_of_fetchesAt {s : State} {pc : Word} {pa : Nat} {l : Leaf} (h : s.fetchesAt pc pa l) : ∃ i k e c g, s.fetch pc
    = .ok ({ s with co := { s.co with icache := i }, ms := { s.ms with kept := k, excl := e, ccache := c }, log := g },
        s.ms.lineWord (s.ms.homeAddr pa)) := by
  obtain ⟨hf, hw, hc, ht, hh, hm, hr, ha, hi⟩ := h
  obtain ⟨g, hg⟩ := s.logWalk_log (s.own.ownerOr s.owner) .fetch pc
  obtain ⟨k, hk⟩ := markUsed_fetch (ms := s.ms) (o := s.own.ownerOr s.owner) (va := pc) ha
  obtain ⟨i, e, c, g', hp⟩ := State.fetchPhys_of_miss (s := { s with ms := { s.ms with kept := k }, log := g }) hi
  refine ⟨i, k, e, c, g', ?_⟩
  have hm : ({ s.ms with kept := k } : MemSystem).movingAt (s.ms.homeAddr pa) = false := hm
  unfold State.fetch
  rw [State.wordInHand_none hf hw, State.reach_one hc ht, hg, hk]
  simp only [hm, hh, hr, Bool.false_eq_true, if_false]
  exact congrArg Except.ok hp

/-- A context that leaves its records changes them alone. -/
theorem State.leaveRecords_cases (s : State) : ∃ r, s.leaveRecords = { s with disp := { s.disp with records := r } } := by
  unfold State.leaveRecords
  split <;> exact ⟨_, rfl⟩

/-- A context that may issue, whose word is to be fetched from device memory, runs the word of the line there. -/
theorem State.issue_of_fetchesAt {s : State} {pa : Nat} {l : Leaf} (hw : s.awaiting = false)
    (hx : s.cx.mx.pending = false ∨ s.cx.hf = true) (h : s.fetchesAt s.cx.pc pa l) :
    ∃ u, s.fetchedFrom u ∧ s.issue = u.run (s.ms.lineWord (s.ms.homeAddr pa)) := by
  obtain ⟨r, hr⟩ := s.leaveRecords_cases
  obtain ⟨i, k, e, c, g, hf⟩ := State.fetch_of_fetchesAt
    (s := { s with disp := { s.disp with records := r }, cx := { s.cx with pair := false } }) h
  have hx : ∀ b : Bool, (b && s.cx.mx.pending && !s.cx.hf) = false := by
    rcases hx with hx | hx <;> simp [hx]
  refine ⟨{ s with
    co := { s.co with icache := i }
    ms := { s.ms with kept := k, excl := e, ccache := c }
    disp := { s.disp with records := r }
    log := g }, rfl, ?_⟩
  unfold State.issue
  simp only [hw, hr, hx, Bool.false_eq_true, if_false, hf]

/-- A word that decodes to nothing traps ILLEGAL (R319). -/
theorem State.run_of_error {s : State} {w : Nat} {e : Undecoded} (h : decode w = .error e) :
    s.run w = .next (s.trap Cause.illegal (wd w)) := by
  simp [State.run, h]

/-- Where the next turn is that of the context in focus, and it may issue, the step is its issue. -/
theorem step_of_issue {s : State} {rest : List Turn} (h : s.agenda = .issue s.rk.key s.rk.run s.cx.num :: rest) (hl : s.live)
    (hr : s.cx.run = .running) (hh : s.co.halted = false) : step s = finish ({ s with agenda := rest } : State).issue := by
  have hl : s.rk.state = .running := hl
  have hf : ({ s with agenda := rest } : State).focusOn s.rk.key s.rk.run s.cx.num = some { s with agenda := rest } :=
    State.focusOn_self { s with agenda := rest } (by simp [hl])
  simp [step, State.work, h, State.act, hf, State.mayIssue, hl, hr, hh]

/-- A step that issues, with its word to be fetched from device memory, runs the word of the line there. -/
theorem step_of_fetchesAt {s : State} {rest : List Turn} {pa : Nat} {l : Leaf} (h : s.agenda = .issue s.rk.key s.rk.run s.cx.num :: rest)
    (hl : s.live) (hr : s.cx.run = .running) (hh : s.co.halted = false) (hw : s.awaiting = false)
    (hx : s.cx.mx.pending = false ∨ s.cx.hf = true) (hf : ({ s with agenda := rest } : State).fetchesAt s.cx.pc pa l) :
    ∃ u, ({ s with agenda := rest } : State).fetchedFrom u ∧ step s = finish (u.run (s.ms.lineWord (s.ms.homeAddr pa))) := by
  obtain ⟨u, hu, hi⟩ := State.issue_of_fetchesAt (s := { s with agenda := rest }) hw hx hf
  exact ⟨u, hu, (step_of_issue h hl hr hh).trans (congrArg finish hi)⟩

/-- The same where the line is forwarded whole or not at all, as a source page at a multiple of 8 KiB is (R330): the word is the one at its
home. -/
theorem step_of_wordWhole {s : State} {rest : List Turn} {pa : Nat} {l : Leaf} (h : s.agenda = .issue s.rk.key s.rk.run s.cx.num :: rest)
    (hl : s.live) (hr : s.cx.run = .running) (hh : s.co.halted = false) (hw : s.awaiting = false)
    (hx : s.cx.mx.pending = false ∨ s.cx.hf = true) (hf : ({ s with agenda := rest } : State).fetchesAt s.cx.pc pa l)
    (hwhole : s.ms.wordWhole (s.ms.homeAddr pa)) : ∃ u, ({ s with agenda := rest } : State).fetchedFrom u
      ∧ step s = finish (u.run (readLE s.ms.mem (s.ms.homeAddr (s.ms.homeAddr pa)) 4)) := by
  rw [← MemSystem.lineWord_of_wordWhole hwhole]
  exact step_of_fetchesAt h hl hr hh hw hx hf

/-! ### The end of a step where nothing else is under way -/

/-- Nothing waits that the end of a step sees to: no answer, packet or rung, no peer's access, no image behind its rank, no held record, operation,
signature or doorbell, no owner that loses its last VF. -/
structure State.Undisturbed (s : State) : Prop where
  answers : s.fab.answers = []
  order   : s.fab.order = []
  rungs   : s.disp.rungs = []
  ending  : s.disp.ending = []
  retry   : s.ms.retry = []
  rank    : s.rk.behind = false
  ranks   : ∀ r ∈ s.ranks, r.behind = false
  copies  : s.disp.heldCopies = []
  pages   : s.own.owners.filter OwnerRec.opBusy = []
  vfs     : s.host.vfs.filter VFunc.opBusy = []
  attests : s.mgmt.attests = []
  losing  : s.host.losing = []
  bells   : s.host.bells = []

theorem State.endRungs_of_none {s : State} (hr : s.disp.rungs = []) (he : s.disp.ending = []) : s.endRungs = s := by
  simp [State.endRungs, hr, he]

theorem State.withdrawPeers_of_none {s : State} (h : s.ms.retry = []) : s.withdrawPeers = s := by
  simp [State.withdrawPeers, h]

theorem State.syncImages_of_none {s : State} (h : (s.liveRanks.filter fun r => r.behind && r.imaged && r.state != .running) = []) :
    s.syncImages = s := by
  simp only [State.syncImages, h, List.foldl_nil]

theorem State.Undisturbed.live {s : State} (h : s.Undisturbed) : ∀ r ∈ s.liveRanks, r.behind = false := by
  have hw : s.wholeRank.behind = false := h.rank
  unfold State.liveRanks
  split
  · exact h.ranks
  · simpa [hw] using h.ranks

/-- The time that passes, and the links meanwhile, change the counts of the cores and the fabric alone. -/
theorem State.Undisturbed.passLinks {s : State} (h : s.Undisturbed) (c : Nat) : ∃ co cores fab time tick,
    (s.passTime c).passLinks = { s with co := co, cores := cores, fab := fab, time := time, tick := tick } := by
  simp only [State.passLinks, State.sendAnswers, State.passTime, Fabric.timeFlits, h.answers, State.deliverKept, List.foldl_nil, h.order]
  exact ⟨_, _, _, _, _, rfl⟩

/-- The end of such a step leaves the context in focus. -/
theorem State.Undisturbed.elapse_cx {s : State} (h : s.Undisturbed) : s.elapse.cx = s.cx := by
  obtain ⟨co, cores, fab, time, tick, ht⟩ := h.passLinks (Config.elapsedCycles s.tick)
  have hi : (s.liveRanks.filter fun r => r.behind && r.imaged && r.state != .running) = [] :=
    List.filter_eq_nil_iff.mpr fun r hr => by simp [h.live r hr]
  rw [State.elapse, ht, State.endRungs_of_none, State.withdrawPeers_of_none, State.syncImages_of_none]
  · simp only [State.sendCopies, h.copies, List.foldl_nil, State.retryOps, h.pages, h.vfs, State.retryAttests, h.attests, State.endLosing,
      h.losing, State.ringBells, h.bells, List.filter_nil, List.append_nil]
  · exact hi
  · exact h.retry
  · exact h.rungs
  · exact h.ending

/-- What a fetch changes, and the context in focus, are none of that. -/
theorem State.Undisturbed.fetched {s u : State} (hs : s.Undisturbed) (h : s.fetchedFrom u) (c : Context) :
    ({ u with cx := c } : State).Undisturbed := by
  rw [h]
  exact ⟨hs.answers, hs.order, hs.rungs, hs.ending, hs.retry, hs.rank, hs.ranks, hs.copies, hs.pages, hs.vfs, hs.attests, hs.losing, hs.bells⟩

/-- A fetch leaves the context in focus. -/
theorem State.fetchedFrom_cx {s u : State} (h : s.fetchedFrom u) : u.cx = s.cx := by rw [h]

/-- A step that completes an instruction of one word ends at the next word. -/
theorem State.advance_elapse_pc {s u : State} (hs : s.Undisturbed) (h : s.fetchedFrom u) (hp : s.cx.pair = false) :
    u.advance.elapse.cx.pc = s.cx.pc + 4 := by
  have hc := State.fetchedFrom_cx h
  rw [State.advance_of_alone u (by rw [hc, hp]), (hs.fetched h _).elapse_cx, ← hc]
  rfl

/-- A step that takes a trap ends at the handler. -/
theorem State.trap_elapse_pc {s u : State} (hs : s.Undisturbed) (h : s.fetchedFrom u) (hp : s.cx.pair = false) (hx : s.cx.mx.pending = false)
    (hf : s.cx.hf = false) (hv : s.cx.cr.trapvec ≠ 0) (cause : BitVec 8) (val : Word) :
    (u.trap cause val).elapse.cx.pc = addr53 s.cx.cr.trapvec := by
  have hc := State.fetchedFrom_cx h
  have hfrom : u.trapFrom cause = u := by simp [State.trapFrom, hc, hp]
  rw [State.trap_of_not_pending u cause val (by rw [hc, hx])]
  rcases u.takeTrap_cases cause val with ⟨hf', -⟩ | ⟨-, hv', -⟩ | ⟨-, -, c, ht, -, hpc, -⟩
  · simp [hc, hf] at hf'
  · exact absurd (hc ▸ hv') hv
  · rw [ht, hfrom, (hs.fetched h c).elapse_cx, hpc, hc]

/-! ### A page move that does not begin at a line -/

/-- A context about to issue the `nop` at 0x10004, of a page move that is done and whose source page ends there: the line's first four bytes are
forwarded to 0x20000, the `nop` is not. MVSRC itself keeps bits [47:13] alone (R330), so that no move of the machine begins so. -/
def straddled : State :=
  let s := State.reset.placedAt 0x10004 0xCC000005
  { s with
    cx := { s.cx with cr := { s.cx.cr with trapvec := 0x8000 } }
    ms := { s.ms with move := { s.ms.move with src := 0xE004, dst := 0x1E004, done := true } }
    agenda := [.issue s.rk.key s.rk.run s.cx.num] }

theorem straddled_fetchesAt : ({ straddled with agenda := [] } : State).fetchesAt straddled.cx.pc 0x10004 ⟨0x6F, some 0x2000, 2⟩ :=
  ⟨rfl, nofun, by decide, by decide +kernel, by decide, by decide, by decide, by decide, rfl⟩

/-- The line at 0x10000 is filled from 0x20000, where nothing is written. -/
theorem straddled_lineWord : straddled.ms.lineWord (straddled.ms.homeAddr 0x10004) = 0 := by decide +kernel

/-- The word at 0x10004 is the `nop`. -/
theorem straddled_word : readLE straddled.ms.mem (straddled.ms.homeAddr (straddled.ms.homeAddr 0x10004)) 4 = 0xCC000005 := by decide +kernel

theorem straddled_undisturbed : ({ straddled with agenda := [] } : State).Undisturbed :=
  ⟨rfl, rfl, rfl, rfl, rfl, rfl, List.forall_mem_nil _, rfl, rfl, rfl, rfl, rfl, rfl⟩

/-- Refutes O57: where the page move that is done begins inside a line (`straddled`), the word at the program counter's home is a `nop`, but the line
that the core fills holds the bytes at its first byte's home, a word that decodes to nothing; the step ends at the handler and not at the next word.
`step_of_wordWhole` is what the third clause says, for a line that is forwarded whole. -/
theorem not_stepRunsDecodedInstruction : ¬ Obligations.StepRunsDecodedInstruction := by
  intro h
  obtain ⟨hf, hw, hc, ht, hh, hm, hr, ha, hi⟩ := straddled_fetchesAt
  have hclause := ((h straddled []).2 rfl rfl rfl rfl rfl (.inl rfl) rfl nofun).2.2 0x10004 ⟨0x6F, some 0x2000, 2⟩
    hf hw hc ht hh hm hr ha hi (by decide)
  obtain ⟨u, hu, hnop⟩ := hclause.1 .nop (by rw [straddled_word]; rfl)
  obtain ⟨v, hv, htrap⟩ := step_of_fetchesAt (s := straddled) (rest := []) rfl rfl rfl rfl rfl (.inl rfl) straddled_fetchesAt
  rw [straddled_lineWord, State.run_of_error (e := .opcode) rfl, hnop] at htrap
  have hsame : u.advance.elapse = (v.trap Cause.illegal (wd 0)).elapse := Host.Outcome.next.inj htrap
  have hpc := congrArg (fun t : State => t.cx.pc) hsame
  rw [State.advance_elapse_pc straddled_undisturbed hu rfl,
    State.trap_elapse_pc straddled_undisturbed hv rfl rfl rfl (by decide)] at hpc
  exact absurd hpc (by decide)

end Sys2Proof.Machine
end

section
/-! PROOFS. What the management core keeps: nothing but the limiter itself and a restart of the device moves the limiter's registers (R31,
R297). First a frame lemma for each function of the model, in the order of the definitions; then the few that write the registers. -/
namespace Sys2Proof.Machine

open Sys2Proof

/-! ### Frames over the shapes of a result -/

/-- An outcome that goes on leaves the management core as m. -/
def keepsMgmt (m : Management) : Out → Prop
  | .next t => t.mgmt = m
  | .fault _ | .refused _ => True

@[simp] theorem keepsMgmt_next (m : Management) (t : State) : keepsMgmt m (.next t) ↔ t.mgmt = m := Iff.rfl
@[simp] theorem keepsMgmt_fault (m : Management) (r : Fault) : keepsMgmt m (.fault r) := trivial
@[simp] theorem keepsMgmt_refused (m : Management) (r : Refusal) : keepsMgmt m (.refused r) := trivial

theorem keepsMgmt_ite {m : Management} {p : Prop} [Decidable p] {a b : Out} (ha : keepsMgmt m a) (hb : keepsMgmt m b) :
    keepsMgmt m (if p then a else b) := by
  split
  · exact ha
  · exact hb

/-- An operation that ends early, or with a value, leaves the management core as m; `of` finds it in the value. -/
def eitherKeeps {α : Type} (m : Management) (of : α → Management) : Except State α → Prop
  | .error t => t.mgmt = m
  | .ok a => of a = m

@[simp] theorem eitherKeeps_error {α : Type} (m : Management) (of : α → Management) (t : State) :
    eitherKeeps m of (.error t) ↔ t.mgmt = m := Iff.rfl
@[simp] theorem eitherKeeps_ok {α : Type} (m : Management) (of : α → Management) (a : α) : eitherKeeps m of (.ok a) ↔ of a = m := Iff.rfl

theorem eitherKeeps.early {α : Type} {m : Management} {of : α → Management} {o : Except State α} {t : State} (h : eitherKeeps m of o)
    (e : o = .error t) : t.mgmt = m := by subst e; exact h

theorem eitherKeeps.whole {α : Type} {m : Management} {of : α → Management} {o : Except State α} {a : α} (h : eitherKeeps m of o)
    (e : o = .ok a) : of a = m := by subst e; exact h

/-- A fault record that is posted leaves the management core as m. -/
def postedKeeps (m : Management) : Posted → Prop
  | .done t _ => t.mgmt = m
  | .ringFull | .badQueue | .held => True

@[simp] theorem postedKeeps_done (m : Management) (t : State) (n : Nat) : postedKeeps m (.done t n) ↔ t.mgmt = m := Iff.rfl
@[simp] theorem postedKeeps_ringFull (m : Management) : postedKeeps m .ringFull := trivial
@[simp] theorem postedKeeps_badQueue (m : Management) : postedKeeps m .badQueue := trivial
@[simp] theorem postedKeeps_held (m : Management) : postedKeeps m .held := trivial

theorem postedKeeps.posted {m : Management} {o : Posted} {t : State} {n : Nat} (h : postedKeeps m o) (e : o = .done t n) : t.mgmt = m := by
  subst e; exact h

@[simp] theorem foldl_mgmt {α : Type} {f : State → α → State} (h : ∀ s a, (f s a).mgmt = s.mgmt) (l : List α) (s : State) :
    (l.foldl f s).mgmt = s.mgmt := by
  induction l generalizing s with
  | nil => rfl
  | cons a l ih => exact (ih _).trans (h s a)

theorem getD_mgmt {o : Option State} {s : State} {m : Management} (h : ∀ t ∈ o, t.mgmt = m) (hs : s.mgmt = m) : (o.getD s).mgmt = m := by
  cases o with
  | none => exact hs
  | some t => exact h t rfl

theorem forall_mem_ite {α : Type} {P : α → Prop} {p : Prop} [Decidable p] {a b : Option α} (ha : ∀ q ∈ a, P q) (hb : ∀ q ∈ b, P q) :
    ∀ q ∈ (if p then a else b), P q := by
  split
  · exact ha
  · exact hb

theorem eitherKeeps_ite {α : Type} {m : Management} {of : α → Management} {p : Prop} [Decidable p] {a b : Except State α}
    (ha : eitherKeeps m of a) (hb : eitherKeeps m of b) : eitherKeeps m of (if p then a else b) := by
  split
  · exact ha
  · exact hb

theorem mgmt_ite {m : Management} {p : Prop} [Decidable p] {a b : State} (ha : a.mgmt = m) (hb : b.mgmt = m) :
    (if p then a else b).mgmt = m := by
  split
  · exact ha
  · exact hb

/-! ### Writes at their place -/

@[simp] theorem State.commitAll_mgmt (s : State) : s.commitAll.mgmt = s.mgmt := rfl

/-! ### Contexts, ranks and cores out of focus -/

@[simp] theorem State.updRank_mgmt (s : State) (k : RankKey) (run : Nat) (f : Rank → Rank) : (s.updRank k run f).mgmt = s.mgmt := by
  unfold State.updRank
  split <;> rfl

@[simp] theorem State.updRanks_mgmt (s : State) (p : Rank → Bool) (f : Rank → Rank) : (s.updRanks p f).mgmt = s.mgmt := rfl

@[simp] theorem State.updCtx_mgmt (s : State) (k : RankKey) (run n : Nat) (f : Context → Context) : (s.updCtx k run n f).mgmt = s.mgmt := by
  unfold State.updCtx
  split <;> simp

@[simp] theorem State.updCtxs_mgmt (s : State) (p : Rank → Bool) (f : Context → Context) : (s.updCtxs p f).mgmt = s.mgmt := by
  unfold State.updCtxs
  split <;> rfl

@[simp] theorem State.updCore_mgmt (s : State) (n : Nat) (f : Core → Core) : (s.updCore n f).mgmt = s.mgmt := by
  unfold State.updCore
  split <;> rfl

@[simp] theorem State.focusCore_mgmt (s : State) (n : Nat) : (s.focusCore n).mgmt = s.mgmt := by
  unfold State.focusCore
  split <;> rfl

theorem State.focusOn_mgmt (s : State) (k : RankKey) (run n : Nat) : ∀ t ∈ s.focusOn k run n, t.mgmt = s.mgmt := by
  unfold State.focusOn
  (repeat' split) <;> simp

@[simp] theorem State.inContext_mgmt (s : State) (k : RankKey) (run n : Nat) (f : State → State) (h : ∀ t, (f t).mgmt = t.mgmt) :
    (s.inContext k run n f).mgmt = s.mgmt := by
  unfold State.inContext
  split
  · exact h s
  · split
    · rfl
    · next t ht =>
      have hu : (f t).mgmt = s.mgmt := (h t).trans (s.focusOn_mgmt k run n t ht)
      dsimp only
      split
      · exact hu
      · exact getD_mgmt (fun v hv => ((f t).focusOn_mgmt _ _ _ v hv).trans hu) hu

/-! ### The end of a halt (R57, R285) -/

@[simp] theorem State.resumeTimes_mgmt (s : State) (r : Rank) : (s.resumeTimes r).mgmt = s.mgmt := by
  unfold State.resumeTimes
  dsimp only
  split <;> simp

@[simp] theorem State.endHalt_mgmt (s : State) (core : Nat) : (s.endHalt core).mgmt = s.mgmt := by
  unfold State.endHalt
  dsimp only
  split <;> simp

/-! ### The access log (R293) -/

@[simp] theorem State.logAccess_mgmt (s : State) (agent owner op pa : Nat) : (s.logAccess agent owner op pa).mgmt = s.mgmt := by
  unfold State.logAccess
  split <;> rfl

@[simp] theorem State.logCopies_mgmt (s : State) (repl : Bool) (agent owner op pa : Nat) : (s.logCopies repl agent owner op pa).mgmt = s.mgmt := by
  unfold State.logCopies
  split <;> simp

@[simp] theorem State.logWalk_mgmt (s : State) (o : OwnerRec) (acc : Access) (va : Word) : (s.logWalk o acc va).mgmt = s.mgmt := by
  unfold State.logWalk
  (repeat' split) <;> simp

/-! ### Fault queues and error records (R308, R310, R311) -/

@[simp] theorem State.atQueue_mgmt (s : State) (o : OwnerRec) : (s.atQueue o).mgmt = s.mgmt := by
  unfold State.atQueue
  split <;> rfl

@[simp] theorem State.writePin_mgmt (s : State) (o : OwnerRec) (va : Word) (bs : List Byte) : (s.writePin o va bs).mgmt = s.mgmt := by
  unfold State.writePin
  (repeat' split) <;> simp

@[simp] theorem State.putRecord_mgmt (s : State) (o : OwnerRec) (num : Nat) (va : Word) (words : List Nat) :
    (s.putRecord o num va words).mgmt = s.mgmt := by
  simp [State.putRecord]

@[simp] theorem State.fireMsix_mgmt (s : State) (vfs : List VFunc) (v : Nat) : (s.fireMsix vfs v).mgmt = s.mgmt := by
  unfold State.fireMsix
  split <;> rfl

@[simp] theorem State.hostCopy_mgmt (s : State) (e : ErrRec) : (s.hostCopy e).mgmt = s.mgmt := by
  unfold State.hostCopy
  dsimp only
  (repeat' split) <;> simp

@[simp] theorem State.ownerCopy_mgmt (s : State) (o : Nat) (e : ErrRec) : (s.ownerCopy o e).1.mgmt = s.mgmt := by
  unfold State.ownerCopy
  dsimp only
  (repeat' split) <;> simp

@[simp] theorem State.markDropped_mgmt (s : State) (num : Nat) : (s.markDropped num).mgmt = s.mgmt := rfl

@[simp] theorem State.copyTo_mgmt (s : State) (o : Nat) (e : ErrRec) : (s.copyTo o e).mgmt = s.mgmt := by
  unfold State.copyTo
  dsimp only
  split <;> simp

@[simp] theorem State.sendCopies_mgmt (s : State) : s.sendCopies.mgmt = s.mgmt := by simp [State.sendCopies]

@[simp] theorem State.report_mgmt (s : State) (e : ErrRec) : (s.report e).mgmt = s.mgmt := by
  unfold State.report
  dsimp only
  (repeat' split) <;> simp

/-! ### The stop of a launch or a helper (R313 to R315) -/

@[simp] theorem State.stopLaunch_mgmt (s : State) (l : Nat) : (s.stopLaunch l).mgmt = s.mgmt := by simp [State.stopLaunch]
@[simp] theorem State.unhalt_mgmt (s : State) (l : Nat) : (s.unhalt l).mgmt = s.mgmt := by simp [State.unhalt]
@[simp] theorem State.rungStop_mgmt (s : State) (l : Nat) : (s.rungStop l).mgmt = s.mgmt := by simp [State.rungStop]

@[simp] theorem State.stopHelper_mgmt (s : State) (k : RankKey) (run n : Nat) : (s.stopHelper k run n).mgmt = s.mgmt := by
  unfold State.stopHelper
  (repeat' split) <;> simp

@[simp] theorem State.startRung_mgmt (s : State) (level : Nat) (target : RungTarget) : (s.startRung level target).mgmt = s.mgmt := rfl

@[simp] theorem State.contextRungHere_mgmt (s : State) : s.contextRungHere.mgmt = s.mgmt := by
  unfold State.contextRungHere
  split <;> simp

/-! ### Taking an exception (R303 to R305, R309) -/

@[simp] theorem State.reportHere_mgmt (s : State) (cls : BitVec 8) (addr val1 val2 : Word) : (s.reportHere cls addr val1 val2).mgmt = s.mgmt := by
  simp [State.reportHere]

@[simp] theorem State.faultLock_mgmt (s : State) (cause : BitVec 8) (addr : Word) : (s.faultLock cause addr).mgmt = s.mgmt := by
  simp [State.faultLock]

@[simp] theorem State.noHandler_mgmt (s : State) (cause : BitVec 8) (val : Word) : (s.noHandler cause val).mgmt = s.mgmt := by simp [State.noHandler]
@[simp] theorem State.soloFail_mgmt (s : State) (k : Nat) (cause : BitVec 8) : (s.soloFail k cause).mgmt = s.mgmt := rfl

@[simp] theorem State.takeTrap_mgmt (s : State) (cause : BitVec 8) (val : Word) (async : Bool) : (s.takeTrap cause val async).mgmt = s.mgmt := by
  unfold State.takeTrap
  dsimp only
  (repeat' split) <;> simp

@[simp] theorem State.returnFromTrap_mgmt (s : State) : s.returnFromTrap.mgmt = s.mgmt := rfl

@[simp] theorem State.takeMxovf_mgmt (s : State) : s.takeMxovf.mgmt = s.mgmt := by
  unfold State.takeMxovf
  split <;> simp

@[simp] theorem State.trap_mgmt (s : State) (cause : BitVec 8) (val : Word) : (s.trap cause val).mgmt = s.mgmt := by
  unfold State.trap
  split <;> simp

/-! ### Fault records (R306 to R309, R327 to R329) -/

@[simp] theorem State.postedSince_mgmt (s : State) (num : Nat) (since : Option RingWait) : (s.postedSince num since).mgmt = s.mgmt := by
  unfold State.postedSince
  split <;> rfl

@[simp] theorem State.postFault_mgmt (s : State) (mine : Option RingWait) (who : Option (RankKey × Nat × Nat)) (w : Waiter) (owner : Nat)
    (va : Word) (cause : BitVec 8) (words : List Nat) {m : Management} (h : s.mgmt = m) :
    postedKeeps m (s.postFault mine who w owner va cause words) := by
  unfold State.postFault
  dsimp only
  (repeat' split) <;> simp [h]

@[simp] theorem State.faultHere_mgmt (s : State) (va : Word) (cause : BitVec 8) (acc : Access) (pin : Bool) :
    (s.faultHere va cause acc pin).mgmt = s.mgmt := by
  unfold State.faultHere
  split
  · simp
  · dsimp only
    split
    · next h => simpa using postedKeeps.posted (s.postFault_mgmt _ _ _ _ _ _ _ rfl) h
    all_goals (repeat' split) <;> simp

@[simp] theorem State.denied_mgmt (s : State) (cause : BitVec 8) (va : Word) : (s.denied cause va).mgmt = s.mgmt := by simp [State.denied]

@[simp] theorem State.lateFault_mgmt (s : State) (w : RingWait) (r : List RingWait) : (s.lateFault w r).mgmt = s.mgmt := by
  unfold State.lateFault
  dsimp only
  split
  · next t n h =>
    have ht : t.mgmt = s.mgmt := postedKeeps.posted (s.postFault_mgmt _ _ _ _ _ _ _ rfl) h
    simp [ht]
  all_goals (repeat' split) <;> simp

@[simp] theorem State.seekPlace_mgmt (s : State) : s.seekPlace.mgmt = s.mgmt := by
  unfold State.seekPlace
  (repeat' split) <;> simp

@[simp] theorem State.faultLanes_mgmt (s : State) (acc : Access) (l : List (Word × BitVec 8 × Bool)) : (s.faultLanes acc l).mgmt = s.mgmt := by
  induction l generalizing s with
  | nil => rfl
  | cons f r ih =>
    obtain ⟨va, cause, pin⟩ := f
    unfold State.faultLanes
    dsimp only
    (repeat' split) <;> simp [ih]

@[simp] theorem State.reach_mgmt (s : State) (vas : List Word) (acc : Access) {m : Management} (h : s.mgmt = m) :
    eitherKeeps m (·.1.mgmt) (s.reach vas acc) := by
  unfold State.reach
  dsimp only
  (repeat' split) <;> simp [h]

/-! ### Completions sent (R264, R269, R345) -/

@[simp] theorem State.answerTo_mgmt (s : State) (peer : PeerRef) (kind status : Nat) (data : List Byte) :
    (s.answerTo peer kind status data).mgmt = s.mgmt := by
  unfold State.answerTo
  split <;> rfl

@[simp] theorem State.sendAnswers_mgmt (s : State) : s.sendAnswers.mgmt = s.mgmt := by simp [State.sendAnswers]

/-! ### The store buffer (R119 to R121) -/

@[simp] theorem State.perform_mgmt (s : State) (core : Nat) (e : Buffered) : (s.perform core e).mgmt = s.mgmt := by
  unfold State.perform
  (repeat' split) <;> rfl

@[simp] theorem State.drainOne_mgmt (s : State) (core k : Nat) : (s.drainOne core k).mgmt = s.mgmt := by
  unfold State.drainOne
  dsimp only
  (repeat' split) <;> simp

@[simp] theorem State.drainCore_mgmt (s : State) (core : Nat) : (s.drainCore core).mgmt = s.mgmt := by simp [State.drainCore]

@[simp] theorem State.drainLine_mgmt (s : State) (core pa : Nat) : (s.drainLine core pa).mgmt = s.mgmt := by
  unfold State.drainLine
  dsimp only
  split <;> simp

theorem State.settleStores_mgmt (s : State) : ∀ t ∈ s.settleStores, t.mgmt = s.mgmt := by simp [State.settleStores]

@[simp] theorem State.acquire_mgmt (s : State) (sc : Scope) : (s.acquire sc).mgmt = s.mgmt := by
  unfold State.acquire
  split <;> rfl

@[simp] theorem State.closeWindows_mgmt (s : State) : s.closeWindows.mgmt = s.mgmt := rfl

@[simp] theorem State.releaseReady_mgmt (s : State) (sc : Scope) {m : Management} (h : s.mgmt = m) :
    eitherKeeps m State.mgmt (s.releaseReady sc) := by
  have hs := s.settleStores_mgmt
  unfold State.releaseReady
  (repeat' split) <;> simp_all

/-! ### Loads (R98, R99, R118) -/

@[simp] theorem State.fillBoth_mgmt (s : State) (l : Line) : (s.fillBoth l).mgmt = s.mgmt := rfl
@[simp] theorem State.fillCore_mgmt (s : State) (l : Line) : (s.fillCore l).mgmt = s.mgmt := rfl
@[simp] theorem State.dropCore_mgmt (s : State) (pa : Nat) : (s.dropCore pa).mgmt = s.mgmt := rfl
@[simp] theorem State.fillCluster_mgmt (s : State) (l : Line) : (s.fillCluster l).mgmt = s.mgmt := rfl
@[simp] theorem State.dropOlder_mgmt (s : State) (pa : Nat) (bs : List Byte) (cluster : Bool) : (s.dropOlder pa bs cluster).mgmt = s.mgmt := rfl

@[simp] theorem State.readThrough_mgmt (s : State) (pa n : Nat) (sc : Scope) (inv bypass : Bool) :
    (s.readThrough pa n sc inv bypass).1.mgmt = s.mgmt := by
  unfold State.readThrough
  dsimp only
  (repeat' split) <;> simp

@[simp] theorem State.loadPhys_mgmt (s : State) (pa n : Nat) (l : Leaf) (sc : Scope) (inv : Bool) {m : Management} (h : s.mgmt = m) :
    eitherKeeps m (·.1.mgmt) (s.loadPhys pa n l sc inv) := by
  unfold State.loadPhys
  refine eitherKeeps_ite (by simp [h]) (eitherKeeps_ite (by simp [h]) ?_)
  extract_lets a
  have hr := s.readThrough_mgmt a n sc inv (pteApl l.entry == 3)
  split
  next t bs e =>
  rw [e] at hr
  rw [eitherKeeps_ok, State.logAccess_mgmt]
  exact mgmt_ite (mgmt_ite (hr.trans h) (hr.trans h)) (mgmt_ite (hr.trans h) (hr.trans h))

/-! ### Remote and host requests (R112, R264, R280, R346, R349) -/

@[simp] theorem State.claimHost_mgmt (s : State) (owner : Nat) : (s.claimHost owner).mgmt = s.mgmt := rfl

@[simp] theorem State.sendTo_mgmt (s : State) (issuer : Issuer) (kind : ReqKind) (dest sagent : Nat) (keyid : BitVec 10) (addr here : Word)
    (bytes : Nat) (data : Word) (deadline owner : Nat) :
    (s.sendTo issuer kind dest sagent keyid addr here bytes data deadline owner).mgmt = s.mgmt :=
  rfl

@[simp] theorem State.sendHostAs_mgmt (s : State) (owner sagent : Nat) (keyid : BitVec 10) (issuer : Issuer) (kind : ReqKind) (pa : Nat)
    (bytes : Nat) (data : Word) : (s.sendHostAs owner sagent keyid issuer kind pa bytes data).mgmt = s.mgmt :=
  rfl

@[simp] theorem State.sendHost_mgmt (s : State) (issuer : Issuer) (kind : ReqKind) (pa : Nat) (bytes : Nat) (data : Word) :
    (s.sendHost issuer kind pa bytes data).mgmt = s.mgmt :=
  rfl

theorem State.hostAccess_mgmt (s : State) (isStore : Bool) (pa : Nat) (va : Word) (bytes : Nat) (kind : ReqKind) (data : Word) {m : Management}
    (h : s.mgmt = m) : eitherKeeps m State.mgmt (s.hostAccess isStore pa va bytes kind data) := by
  unfold State.hostAccess
  (repeat' split) <;> simp [h]

@[simp] theorem State.remoteLoad_mgmt (s : State) (kind : ReqKind) (node : Nat) (addr va : Word) (bytes : Nat) (data : Word) :
    (s.remoteLoad kind node addr va bytes data).mgmt = s.mgmt :=
  rfl

@[simp] theorem State.loadAt_mgmt (s : State) (va : Word) (n : Nat) (sc : Scope) (inv : Bool) {m : Management} (h : s.mgmt = m) :
    eitherKeeps m (·.1.mgmt) (s.loadAt va n sc inv) := by
  have hr := s.reach_mgmt [va] .load h
  unfold State.loadAt
  split
  · simp [h]
  split
  · simp [h]
  split
  · simp_all
  · next t pa l e =>
    have ht : t.mgmt = m := by simp_all
    have ha := t.hostAccess_mgmt false pa va n .read 0 ht
    have hp := t.loadPhys_mgmt pa n l sc inv ht
    (repeat' split) <;> simp_all
  · simp_all
  · simp_all

/-! ### Stores -/

@[simp] theorem State.signStore_mgmt (s : State) (va : Word) (bs : List Byte) : (s.signStore va bs).mgmt = s.mgmt := by
  unfold State.signStore
  split <;> rfl

@[simp] theorem State.storePhys_mgmt (s : State) (pa : Nat) (l : Leaf) (bs : List Byte) (la : Nat) : (s.storePhys pa l bs la).mgmt = s.mgmt := by
  simp [State.storePhys]

@[simp] theorem State.remoteStore_mgmt (s : State) (node : Nat) (addr va : Word) (bs : List Byte) : (s.remoteStore node addr va bs).mgmt = s.mgmt :=
  rfl

@[simp] theorem State.storeTo_mgmt (s : State) (va : Word) (bs : List Byte) (la : Nat) (f : Found) {m : Management} (h : s.mgmt = m) :
    eitherKeeps m State.mgmt (s.storeTo va bs la f) := by
  unfold State.storeTo
  split
  · next pa l =>
    have ha := s.hostAccess_mgmt true pa va bs.length .write (wd (leNat bs)) h
    (repeat' split) <;> simp_all
  all_goals (repeat' split) <;> simp [h]

@[simp] theorem State.storeAt_mgmt (s : State) (va : Word) (bs : List Byte) (la : Nat) {m : Management} (h : s.mgmt = m) :
    eitherKeeps m State.mgmt (s.storeAt va bs la) := by
  have hr := s.reach_mgmt [va] .store h
  unfold State.storeAt
  (repeat' split) <;> simp_all

@[simp] theorem State.storeHeld_mgmt (s : State) (va : Word) (bs : List Byte) {m : Management} (h : s.mgmt = m) :
    eitherKeeps m State.mgmt (s.storeHeld va bs) := by
  have hr := s.reach_mgmt [va] .store h
  unfold State.storeHeld
  split
  · simp [h]
  split
  · simp [h]
  split
  · simp_all
  · split <;> simp_all
  · next t pa l e =>
    have ht : t.mgmt = m := by simp_all
    have ha := t.hostAccess_mgmt false pa va bs.length .write (wd (leNat bs)) ht
    (repeat' split) <;> simp_all
  · simp_all

/-! ### Full/empty accesses (R107, R108, R125) -/

@[simp] theorem State.deliver_mgmt (s : State) (d : RetryEntry × Word) : (s.deliver d).mgmt = s.mgmt := by
  unfold State.deliver
  split <;> simp

@[simp] theorem State.feSettle_mgmt (s : State) (pa : Nat) : (s.feSettle pa).mgmt = s.mgmt := by simp [State.feSettle]

@[simp] theorem State.heldForMove_mgmt (s : State) : s.heldForMove.mgmt = s.mgmt := by
  unfold State.heldForMove
  split <;> rfl

@[simp] theorem State.signFe_mgmt (s : State) (va : Word) (mode : FeMode) (data : Word) : (s.signFe va mode data).mgmt = s.mgmt := by
  unfold State.signFe
  split <;> simp

@[simp] theorem State.fullEmpty_mgmt (s : State) (va : Word) (mode : FeMode) (data : Word) {m : Management} (h : s.mgmt = m) :
    eitherKeeps m (·.1.mgmt) (s.fullEmpty va mode data) := by
  unfold State.fullEmpty
  split
  · simp [h]
  refine eitherKeeps_ite h ?_
  extract_lets acc
  have hr := s.reach_mgmt [va] acc h
  split
  · next t e => exact hr.early e
  · next t pa l e =>
    have ht : t.mgmt = m := hr.whole e
    have ha := t.hostAccess_mgmt false pa va 8 (.fe (if t.dry then .lwf else mode) t.feLimit) data ht
    refine eitherKeeps_ite (by simp [ht]) (eitherKeeps_ite (by simp [ht]) (eitherKeeps_ite ?_
      (eitherKeeps_ite (by simp [ht]) (eitherKeeps_ite h ?_))))
    · split
      · next u eu => exact ha.whole eu
      · next u eu => exact ha.early eu
    · extract_lets v c w
      have hw : w.mgmt = m := by simp [w, v, ht]
      clear_value w
      refine eitherKeeps_ite ?_ (eitherKeeps_ite (by simp [hw]) (by simp [hw]))
      simp [hw]
  · next t node addr x y e =>
    have ht : t.mgmt = m := hr.whole e
    exact eitherKeeps_ite (by simp [ht]) (by simp [ht])
  · next t _ _ _ e => exact hr.whole e

/-! ### Instruction fetch (R102, R122) -/

@[simp] theorem State.fetchPhys_mgmt (s : State) (pa : Nat) : (s.fetchPhys pa).1.mgmt = s.mgmt := by
  unfold State.fetchPhys
  split <;> simp

@[simp] theorem State.asFetch_mgmt (s : State) : s.asFetch.mgmt = s.mgmt := by
  unfold State.asFetch
  split <;> rfl

@[simp] theorem State.takeFetched_mgmt (s : State) (pc v : Word) : (s.takeFetched pc v).1.mgmt = s.mgmt := rfl

theorem State.wordInHand_mgmt (s : State) (pc : Word) : ∀ t ∈ s.wordInHand pc, t.1.mgmt = s.mgmt := by
  unfold State.wordInHand
  (repeat' split) <;> simp

@[simp] theorem State.fetch_mgmt (s : State) (pc : Word) {m : Management} (h : s.mgmt = m) : eitherKeeps m (·.1.mgmt) (s.fetch pc) := by
  have hr := s.reach_mgmt [pc] .fetch h
  unfold State.fetch
  split
  · next q e => exact (s.wordInHand_mgmt pc q e).trans h
  split
  · next t e => exact hr.early e
  · next t pa l e =>
    have ht : t.mgmt = m := hr.whole e
    have ha := t.hostAccess_mgmt false pa pc 4 .read 0 ht
    refine eitherKeeps_ite (by simp [ht]) (eitherKeeps_ite ?_ (eitherKeeps_ite (eitherKeeps_ite (by simp [ht]) (by simp [ht])) (by simp [ht])))
    split
    · next u eu => simpa using ha.whole eu
    · next u eu => simpa using ha.early eu
  · next t _ _ _ _ e =>
    have ht : t.mgmt = m := hr.whole e
    simp [ht]
  · next t _ _ e => exact hr.whole e

/-! ### The sticky flags and counts (R64, R146, R204) -/

@[simp] theorem State.raise_mgmt (s : State) (f : BitVec 5) : (s.raise f).mgmt = s.mgmt := rfl

/-! ### Control registers (R142) -/

@[simp] theorem State.writeCr_mgmt (s : State) (ix : BitVec 12) (w : Word) : (s.writeCr ix w).mgmt = s.mgmt := by
  unfold State.writeCr
  split <;> rfl

@[simp] theorem State.clearW1C_mgmt (s : State) (ix : BitVec 12) (w : Word) : (s.clearW1C ix w).mgmt = s.mgmt := by
  unfold State.clearW1C
  split <;> rfl

/-! ### Shared operations -/

@[simp] theorem State.result_mgmt (s : State) (d : Reg) (w : Word) {m : Management} (h : s.mgmt = m) : keepsMgmt m (s.result d w) := by
  simp [State.result, h]

@[simp] theorem State.resultW_mgmt (s : State) (d : Reg) (w : BitVec 32) {m : Management} (h : s.mgmt = m) : keepsMgmt m (s.resultW d w) := by
  simp [State.resultW, h]

/-! ### Plain loads and stores (R159) -/

@[simp] theorem State.plainLoad_mgmt (s : State) (d a : Reg) (imm : BitVec 16) (n : Nat) (signed : Bool) {m : Management} (h : s.mgmt = m) :
    keepsMgmt m (s.plainLoad d a imm n signed) := by
  have hl := s.loadAt_mgmt (s.x a + immW imm) n .core false h
  unfold State.plainLoad
  dsimp only
  (repeat' split) <;> simp_all

@[simp] theorem State.plainStore_mgmt (s : State) (d a : Reg) (imm : BitVec 16) (n : Nat) {m : Management} (h : s.mgmt = m) :
    keepsMgmt m (s.plainStore d a imm n) := by
  have hl := s.storeAt_mgmt (s.x a + immW imm) (leBytes n (s.x d).toNat) 0 h
  unfold State.plainStore
  dsimp only
  (repeat' split) <;> simp_all

/-! ### Ordered loads and stores (R160 to R162) -/

@[simp] theorem State.openWindow_mgmt (s : State) (d : Reg) (va : Word) (n la : Nat) (v : Word) : (s.openWindow d va n la v).mgmt = s.mgmt := by
  unfold State.openWindow
  (repeat' split) <;> rfl

@[simp] theorem State.ldoValue_mgmt (s : State) (va : Word) (n la : Nat) (d : Reg) (sc : Scope) (ord : MemOrd) (fe : FeMode) (inv : Bool)
    {m : Management} (h : s.mgmt = m) : eitherKeeps m (·.1.mgmt) (s.ldoValue va n la d sc ord fe inv) := by
  have hl := s.loadAt_mgmt va n sc inv h
  unfold State.ldoValue
  split
  · (repeat' split) <;> simp_all
  all_goals simp [h]

@[simp] theorem execLdo_mgmt (d a : Reg) (la : Fin 16) (sc : Scope) (ord : MemOrd) (sz : Size) (fe : FeMode) (inv : Bool) (s : State)
    {m : Management} (h : s.mgmt = m) : keepsMgmt m (execLdo d a la sc ord sz fe inv s) := by
  have hl := s.ldoValue_mgmt (s.x a) (sizeBytes sz) la.val d sc ord fe inv h
  unfold execLdo
  dsimp only
  split
  · simp [h]
  split
  · simp_all
  · next t v e =>
    have ht : t.mgmt = m := by simp_all
    split <;> simp [ht]

@[simp] theorem State.released_mgmt (s : State) (ord : MemOrd) (sc : Scope) {m : Management} (h : s.mgmt = m) :
    eitherKeeps m State.mgmt (s.released ord sc) := by
  unfold State.released
  split <;> simp [h]

@[simp] theorem State.performed_mgmt (s : State) (o : Except State State) {m : Management} (h : s.mgmt = m) (ho : eitherKeeps m State.mgmt o) :
    eitherKeeps m State.mgmt (s.performed o) := by
  unfold State.performed
  split
  · simp_all
  · next t =>
    have ht := t.settleStores_mgmt
    split <;> simp_all

@[simp] theorem State.stoPlain_mgmt (s : State) (va : Word) (bs : List Byte) (la : Nat) (sc : Scope) (ord : MemOrd) {m : Management}
    (h : s.mgmt = m) : eitherKeeps m State.mgmt (s.stoPlain va bs la sc ord) := by
  unfold State.stoPlain
  (repeat' split) <;> simp [h]

@[simp] theorem State.placed_mgmt (s : State) (va : Word) (acc : Access) (fe : Bool) {m : Management} (h : s.mgmt = m) :
    eitherKeeps m (fun _ => m) (s.placed va acc fe) := by
  have hr := s.reach_mgmt [va] acc h
  unfold State.placed
  (repeat' split) <;> simp_all

@[simp] theorem State.releasedFor_mgmt (s : State) (va : Word) (acc : Access) (fe : Bool) (ord : MemOrd) (sc : Scope) {m : Management}
    (h : s.mgmt = m) : eitherKeeps m State.mgmt (s.releasedFor va acc fe ord sc) := by
  have hp := s.placed_mgmt va acc fe h
  unfold State.releasedFor
  (repeat' split) <;> simp_all

@[simp] theorem State.stoEffect_mgmt (s : State) (d : Reg) (va : Word) (n la : Nat) (sc : Scope) (ord : MemOrd) (fe : FeMode)
    {m : Management} (h : s.mgmt = m) : eitherKeeps m State.mgmt (s.stoEffect d va n la sc ord fe) := by
  have hf := s.fullEmpty_mgmt va fe (s.x d) h
  unfold State.stoEffect
  split
  · simp [h]
  all_goals
    cases e : s.fullEmpty va _ (s.x d) <;> simp_all [Except.map]

@[simp] theorem execSto_mgmt (d a : Reg) (la : Fin 16) (sc : Scope) (ord : MemOrd) (sz : Size) (fe : FeMode) (s : State)
    {m : Management} (h : s.mgmt = m) : keepsMgmt m (execSto d a la sc ord sz fe s) := by
  have hr := s.releasedFor_mgmt (s.x a) .store (fe != .none) ord sc h
  unfold execSto
  dsimp only
  split
  · simp [h]
  split
  · simp_all
  · next t e =>
    have he := t.stoEffect_mgmt d (s.x a) (sizeBytes sz) la.val sc ord fe (m := m) (by simp_all)
    split <;> simp_all

/-! ### Atomics (R163, R164, R106) -/

@[simp] theorem State.signAmo_mgmt (s : State) (va : Word) (op : AmoOp) (n old b cmp : Nat) : (s.signAmo va op n old b cmp).mgmt = s.mgmt := by
  unfold State.signAmo
  split <;> simp

@[simp] theorem State.amoValue_mgmt (s : State) (va : Word) (n : Nat) (op : AmoOp) (b cmp : Word) {m : Management} (h : s.mgmt = m) :
    eitherKeeps m (·.1.mgmt) (s.amoValue va n op b cmp) := by
  have hr := s.reach_mgmt [va] .atomic h
  unfold State.amoValue
  split
  · simp [h]
  split
  · simp [h]
  split
  · simp_all
  · next t pa l e =>
    have ht : t.mgmt = m := by simp_all
    have ha := t.hostAccess_mgmt false pa va n (if t.dry then .read else .atomic op.code cmp) b ht
    dsimp only
    (repeat' split) <;> simp_all
  · simp_all
  · simp_all

@[simp] theorem State.amo_mgmt (s : State) (op : AmoOp) (d a b : Reg) (sc : Scope) (ord : MemOrd) (n : Nat) {m : Management} (h : s.mgmt = m) :
    keepsMgmt m (s.amo op d a b sc ord n) := by
  have hr := s.releasedFor_mgmt (s.x a) .atomic false ord sc h
  unfold State.amo
  dsimp only
  split
  · simp [h]
  split
  · simp_all
  · next t e =>
    have ha := t.amoValue_mgmt (s.x a) n op (s.x b) (s.x d) (m := m) (by simp_all)
    (repeat' split) <;> simp_all

@[simp] theorem execAmoSwap_mgmt (d a b : Reg) (sc : Scope) (ord : MemOrd) (dbl : Bool) (s : State) {m : Management} (h : s.mgmt = m) :
    keepsMgmt m (execAmoSwap d a b sc ord dbl s) := by
  simp [execAmoSwap, h]

@[simp] theorem execAmoAdd_mgmt (d a b : Reg) (sc : Scope) (ord : MemOrd) (dbl : Bool) (s : State) {m : Management} (h : s.mgmt = m) :
    keepsMgmt m (execAmoAdd d a b sc ord dbl s) := by
  simp [execAmoAdd, h]

@[simp] theorem execAmoAnd_mgmt (d a b : Reg) (sc : Scope) (ord : MemOrd) (dbl : Bool) (s : State) {m : Management} (h : s.mgmt = m) :
    keepsMgmt m (execAmoAnd d a b sc ord dbl s) := by
  simp [execAmoAnd, h]

@[simp] theorem execAmoOr_mgmt (d a b : Reg) (sc : Scope) (ord : MemOrd) (dbl : Bool) (s : State) {m : Management} (h : s.mgmt = m) :
    keepsMgmt m (execAmoOr d a b sc ord dbl s) := by
  simp [execAmoOr, h]

@[simp] theorem execAmoXor_mgmt (d a b : Reg) (sc : Scope) (ord : MemOrd) (dbl : Bool) (s : State) {m : Management} (h : s.mgmt = m) :
    keepsMgmt m (execAmoXor d a b sc ord dbl s) := by
  simp [execAmoXor, h]

@[simp] theorem execAmoMin_mgmt (d a b : Reg) (sc : Scope) (ord : MemOrd) (dbl : Bool) (s : State) {m : Management} (h : s.mgmt = m) :
    keepsMgmt m (execAmoMin d a b sc ord dbl s) := by
  simp [execAmoMin, h]

@[simp] theorem execAmoMax_mgmt (d a b : Reg) (sc : Scope) (ord : MemOrd) (dbl : Bool) (s : State) {m : Management} (h : s.mgmt = m) :
    keepsMgmt m (execAmoMax d a b sc ord dbl s) := by
  simp [execAmoMax, h]

@[simp] theorem execAmoMinu_mgmt (d a b : Reg) (sc : Scope) (ord : MemOrd) (dbl : Bool) (s : State) {m : Management} (h : s.mgmt = m) :
    keepsMgmt m (execAmoMinu d a b sc ord dbl s) := by
  simp [execAmoMinu, h]

@[simp] theorem execAmoMaxu_mgmt (d a b : Reg) (sc : Scope) (ord : MemOrd) (dbl : Bool) (s : State) {m : Management} (h : s.mgmt = m) :
    keepsMgmt m (execAmoMaxu d a b sc ord dbl s) := by
  simp [execAmoMaxu, h]

@[simp] theorem execAmoCas_mgmt (d a b : Reg) (sc : Scope) (ord : MemOrd) (dbl : Bool) (s : State) {m : Management} (h : s.mgmt = m) :
    keepsMgmt m (execAmoCas d a b sc ord dbl s) := by
  simp [execAmoCas, h]

@[simp] theorem execAmoFadd_mgmt (d a b : Reg) (sc : Scope) (ord : MemOrd) (s : State) {m : Management} (h : s.mgmt = m) :
    keepsMgmt m (execAmoFadd d a b sc ord s) := by
  simp [execAmoFadd, h]

/-! ### Fences (R122, R165) -/

@[simp] theorem execFence_mgmt (sc : Scope) (s : State) {m : Management} (h : s.mgmt = m) : keepsMgmt m (execFence sc s) := by
  have hr := s.releaseReady_mgmt sc h
  unfold execFence
  split <;> simp_all

@[simp] theorem State.lostStore_mgmt (s : State) (sc : Scope) (succ : BitVec 6) {m : Management} (h : s.mgmt = m) :
    eitherKeeps m State.mgmt (s.lostStore sc succ) := by
  unfold State.lostStore
  (repeat' split) <;> simp [h]

@[simp] theorem execXfence_mgmt (pred succ : BitVec 6) (sc : Scope) (s : State) {m : Management} (h : s.mgmt = m) :
    keepsMgmt m (execXfence pred succ sc s) := by
  have hw : eitherKeeps m State.mgmt (if pred.toNat.testBit 0 then s.releaseReady sc else s.lostStore sc succ) := by
    split <;> simp [h]
  unfold execXfence
  split
  · simp [h]
  · generalize (if pred.toNat.testBit 0 = true then s.releaseReady sc else s.lostStore sc succ) = o at hw
    (repeat' split) <;> simp_all

@[simp] theorem execIfence_mgmt (s : State) {m : Management} (h : s.mgmt = m) : keepsMgmt m (execIfence s) := by
  have hs := s.settleStores_mgmt
  unfold execIfence
  split <;> simp_all

@[simp] theorem State.illegal_mgmt (s : State) (i : Instr) : (s.illegal i).mgmt = s.mgmt := by simp [State.illegal]

/-! ### Masks (R166, R167, R180) -/

@[simp] theorem State.setMask_mgmt (s : State) (d : Fin 8) (m : Mask) : (s.setMask d m).mgmt = s.mgmt := by simp [State.setMask]

/-! ### Vector registers -/

@[simp] theorem State.setV_mgmt (s : State) (f : VField) (v : VReg) : (s.setV f v).mgmt = s.mgmt := by
  unfold State.setV
  split <;> rfl

/-! ### Tiles (R79 to R87) -/

@[simp] theorem State.updTile_mgmt (s : State) (k : RankKey) (run cluster h : Nat) (f : Tile → Tile) :
    (s.updTile k run cluster h f).mgmt = s.mgmt := by
  unfold State.updTile
  split <;> simp

@[simp] theorem State.setTile_mgmt (s : State) (h : Nat) (f : Tile → Tile) : (s.setTile h f).mgmt = s.mgmt := by simp [State.setTile]

/-! ### Streams (R89 to R91, R333) -/

@[simp] theorem State.streamTrap_mgmt (s : State) (f : VField) : (s.streamTrap f).mgmt = s.mgmt := by simp [State.streamTrap]

@[simp] theorem State.streamsLegal_mgmt (s : State) (i : Instr) (us : List VUse) {m : Management} (h : s.mgmt = m) :
    eitherKeeps m (fun _ => m) (s.streamsLegal i us) := by
  unfold State.streamsLegal
  (repeat' split) <;> simp [h]

@[simp] theorem State.streamsReady_mgmt (s : State) (us : List VUse) {m : Management} (h : s.mgmt = m) :
    eitherKeeps m (fun _ => m) (s.streamsReady us) := by
  unfold State.streamsReady
  (repeat' split) <;> simp [h]

@[simp] theorem State.writeV_mgmt (s : State) (d : VField) (m : Mask) (v : VReg) : (s.writeV d m v).mgmt = s.mgmt := by
  unfold State.writeV
  (repeat' split) <;> simp

@[simp] theorem State.stepStream_mgmt (s : State) (k : Fin 4) : (s.stepStream k).mgmt = s.mgmt := rfl

@[simp] theorem State.stepStreams_mgmt (s : State) (fs : List VField) : (s.stepStreams fs).mgmt = s.mgmt :=
  foldl_mgmt (fun t k => t.stepStream_mgmt k) _ _

@[simp] theorem State.vector_mgmt (s : State) (i : Instr) (srcs : List VField) (dst : Option VField) (old : Bool) (k : List VReg → State)
    {m : Management} (h : s.mgmt = m) (hk : ∀ vs, (k vs).mgmt = m) : keepsMgmt m (s.vector i srcs dst old k) := by
  have hl := s.streamsLegal_mgmt i (srcs.map srcUse ++ (dst.map fun d => VUse.mk d true old).toList) h
  have hr := s.streamsReady_mgmt (srcs.map srcUse ++ (dst.map fun d => VUse.mk d true old).toList) h
  unfold State.vector
  dsimp only
  (repeat' split) <;> simp_all

/-! ### Scratch banks (R81) -/

@[simp] theorem State.addTile_mgmt (s : State) (t : Tile) : (s.addTile t).mgmt = s.mgmt := by
  unfold State.addTile
  split <;> rfl

@[simp] theorem State.dropTile_mgmt (s : State) (h : Nat) : (s.dropTile h).mgmt = s.mgmt := by
  unfold State.dropTile
  split <;> rfl

/-! ### Tile instructions (R191) -/

@[simp] theorem State.handleOk_mgmt (s : State) (w : Word) (k : Nat → Out) {m : Management} (h : s.mgmt = m) (hk : ∀ n, keepsMgmt m (k n)) :
    keepsMgmt m (s.handleOk w k) := by
  unfold State.handleOk
  split
  · exact hk _
  · simp [h]

@[simp] theorem execTal_mgmt (d a b : Reg) (la : Fin 16) (s : State) {m : Management} (h : s.mgmt = m) : keepsMgmt m (execTal d a b la s) := by
  refine s.handleOk_mgmt _ _ h fun n => ?_
  dsimp only
  (repeat' split) <;> simp [h]

@[simp] theorem State.onTile_mgmt (s : State) (h : Nat) (ok : TileState → Bool) (waits : Bool) (k : Tile → Out) {m : Management}
    (hs : s.mgmt = m) (hk : ∀ t, keepsMgmt m (k t)) : keepsMgmt m (s.onTile h ok waits k) := by
  unfold State.onTile
  (repeat' split) <;> simp [hs, hk]

@[simp] theorem State.restate_mgmt (s : State) (d : Reg) (h : Nat) (st : TileState) (filled : Nat) {m : Management} (hs : s.mgmt = m) :
    keepsMgmt m (s.restate d h st filled) := by
  simp [State.restate, hs]

@[simp] theorem execTfree_mgmt (d a : Reg) (la : Fin 16) (s : State) {m : Management} (h : s.mgmt = m) : keepsMgmt m (execTfree d a la s) :=
  s.handleOk_mgmt _ _ h fun n => s.onTile_mgmt n _ _ _ h fun _ => by simp [h]

@[simp] theorem execTseal_mgmt (d a : Reg) (la : Fin 16) (s : State) {m : Management} (h : s.mgmt = m) : keepsMgmt m (execTseal d a la s) :=
  s.handleOk_mgmt _ _ h fun n => s.onTile_mgmt n _ _ _ h fun _ => s.restate_mgmt d n _ _ h

@[simp] theorem execTrel_mgmt (d a : Reg) (la : Fin 16) (s : State) {m : Management} (h : s.mgmt = m) : keepsMgmt m (execTrel d a la s) :=
  s.handleOk_mgmt _ _ h fun n => s.onTile_mgmt n _ _ _ h fun _ => s.restate_mgmt d n _ _ h

/-! ### The ends of clearing and of reads (R85, R191) -/

@[simp] theorem execTileClearEnd_mgmt (k : RankKey) (h : Fin 128) (s : State) {m : Management} (hs : s.mgmt = m) :
    keepsMgmt m (execTileClearEnd k h s) := by
  unfold execTileClearEnd
  dsimp only
  split <;> simp [hs]

/-! ### Tickets (R196 to R198, R228, R233) -/

@[simp] theorem State.onTicket_mgmt (s : State) (d : Reg) (w : Word) (kind : TicketKind) (k : Ticket → List Ticket → Word) {m : Management}
    (h : s.mgmt = m) : keepsMgmt m (s.onTicket d w kind k) := by
  unfold State.onTicket
  split <;> simp [h]

/-! ### Faults of engines (R334, R335) -/

@[simp] theorem State.nodeFault_mgmt (s : State) (k : RankKey) (run slot node reason : Nat) (bit : Option (Fin 3)) :
    (s.nodeFault k run slot node reason bit).mgmt = s.mgmt := by
  unfold State.nodeFault
  dsimp only
  (repeat' split) <;> simp

/-! ### Commands -/

@[simp] theorem State.updCopyTile_mgmt (s : State) (c : CopyCmd) (f : Tile → Tile) : (s.updCopyTile c f).mgmt = s.mgmt := by simp [State.updCopyTile]
@[simp] theorem State.updCopy_mgmt (s : State) (ch : Nat) (f : CopyCmd → CopyCmd) : (s.updCopy ch f).mgmt = s.mgmt := rfl
@[simp] theorem State.dropCopy_mgmt (s : State) (ch : Nat) : (s.dropCopy ch).mgmt = s.mgmt := rfl
@[simp] theorem State.acceptCopy_mgmt (s : State) (c : CopyCmd) : (s.acceptCopy c).mgmt = s.mgmt := rfl

@[simp] theorem State.copyCommand_mgmt (s : State) (d : Reg) (chan : Nat) (c : CopyCmd) {m : Management} (h : s.mgmt = m) :
    keepsMgmt m (s.copyCommand d chan c) := by
  unfold State.copyCommand
  (repeat' split) <;> simp [h]

@[simp] theorem State.copyTileCommand_mgmt (s : State) (kind : CopyKind) (d a b : Reg) {m : Management} (h : s.mgmt = m) :
    keepsMgmt m (s.copyTileCommand kind d a b) := by
  unfold State.copyTileCommand
  dsimp only
  (repeat' split) <;> simp [h]

@[simp] theorem State.copyBytesCommand_mgmt (s : State) (kind : CopyKind) (d a b : Reg) (ok : Bool) (bad : Word) {m : Management} (h : s.mgmt = m) :
    keepsMgmt m (s.copyBytesCommand kind d a b ok bad) := by
  unfold State.copyBytesCommand
  dsimp only
  (repeat' split) <;> simp [h]

@[simp] theorem execCpx_mgmt (d a b : Reg) (_la : Fin 16) (s : State) {m : Management} (h : s.mgmt = m) : keepsMgmt m (execCpx d a b _la s) := by
  unfold execCpx
  dsimp only
  (repeat' split) <;> simp [h]

/-! ### The end and the fault of a command -/

@[simp] theorem State.finishCopy_mgmt (s : State) (c : CopyCmd) : (s.finishCopy c).mgmt = s.mgmt := by
  unfold State.finishCopy
  (repeat' split) <;> simp

@[simp] theorem State.tellProgress_mgmt (s : State) (c : CopyCmd) (done : Nat) : (s.tellProgress c done).mgmt = s.mgmt := by
  unfold State.tellProgress
  split <;> simp

@[simp] theorem State.settleCopy_mgmt (s : State) (ch : Nat) : (s.settleCopy ch).mgmt = s.mgmt := by
  unfold State.settleCopy
  (repeat' split) <;> simp

@[simp] theorem State.copyTileFault_mgmt (s : State) (c : CopyCmd) : (s.copyTileFault c).mgmt = s.mgmt := by
  unfold State.copyTileFault
  (repeat' split) <;> simp

@[simp] theorem State.faultCopy_mgmt (s : State) (c : CopyCmd) (reason : Nat) (val2 : Word) : (s.faultCopy c reason val2).mgmt = s.mgmt := by
  unfold State.faultCopy
  split <;> simp

/-! ### Places of a copy -/

@[simp] theorem State.markSpot_mgmt (s : State) (owner : Nat) (acc : Access) (x : Spot) : (s.markSpot owner acc x).mgmt = s.mgmt := by
  unfold State.markSpot
  split <;> simp

@[simp] theorem State.copyUnleased_mgmt (s : State) (c : CopyCmd) (reason pa : Nat) (va : Word) :
    (s.copyUnleased c reason pa va).mgmt = s.mgmt := by
  unfold State.copyUnleased
  (repeat' split) <;> simp

@[simp] theorem State.copyTrouble_mgmt (s : State) (c : CopyCmd) (e : Trouble) : (s.copyTrouble c e).mgmt = s.mgmt := by
  unfold State.copyTrouble
  split
  · rfl
  · simp
  · simp
  · dsimp only
    split
    · simp
    · split
      case h_2 h => simpa using postedKeeps.posted (s.postFault_mgmt _ _ _ _ _ _ _ rfl) h
      all_goals (repeat' split) <;> simp

/-! ### Words that the walker, the dispatchers and collectives read (R34, R94, R231) -/

@[simp] theorem State.readAway_mgmt (s : State) (acc : Access) (va : Word) : (s.readAway acc va).mgmt = s.mgmt := by
  unfold State.readAway
  dsimp only
  split
  · next pa _ _ =>
    have ha := (s.markSpot s.owner acc (.mem va)).hostAccess_mgmt false pa va 8 .read 0 (State.markSpot_mgmt ..)
    split <;> simp_all
  all_goals simp

@[simp] theorem State.keepAnswer_mgmt (s : State) : s.keepAnswer.mgmt = s.mgmt := by
  unfold State.keepAnswer
  split <;> rfl

@[simp] theorem State.markWords_mgmt (s : State) (owner agent die : Nat) (acc : Access) (va : Word) (n : Nat) :
    (s.markWords owner agent die acc va n).mgmt = s.mgmt := by
  induction n generalizing s va with
  | zero => rfl
  | succ n ih =>
    unfold State.markWords
    dsimp only
    rw [ih]
    split <;> simp

/-! ### Chunks (R96) -/

@[simp] theorem State.copyRequest_mgmt (s : State) (c : CopyCmd) (kind : ReqKind) (dest : Nat) (host : Bool) (addr here : Word) (bytes : Nat)
    (payload : List Byte) (block : Option (Nat × Nat × Nat)) : (s.copyRequest c kind dest host addr here bytes payload block).mgmt = s.mgmt := by
  unfold State.copyRequest
  split <;> rfl

@[simp] theorem State.askRead_mgmt (s : State) (c : CopyCmd) (p : Piece) (x : Site) : (s.askRead c p x).mgmt = s.mgmt := by
  unfold State.askRead
  split <;> rfl

@[simp] theorem State.sendBytes_mgmt (s : State) (c : CopyCmd) (node : Nat) (addr here : Word) (bs : List Byte) :
    (s.sendBytes c node addr here bs).mgmt = s.mgmt := by
  unfold State.sendBytes
  (repeat' split) <;> rfl

@[simp] theorem State.sendBlock_mgmt (s : State) (c : CopyCmd) (node : Nat) (addr here : Word) (off : Nat) (bs : List Byte) :
    (s.sendBlock c node addr here off bs).mgmt = s.mgmt := by
  unfold State.sendBlock
  dsimp only
  (repeat' split) <;> simp

@[simp] theorem State.putPiece_mgmt (s : State) (c : CopyCmd) (off : Nat) (here : Word) (bs : List Byte) (x : Site) :
    (s.putPiece c off here bs x).mgmt = s.mgmt := by
  unfold State.putPiece
  (repeat' split) <;> simp

@[simp] theorem State.logSite_mgmt (s : State) (owner : Nat) (reads : Option Nat) (x : Site) : (s.logSite owner reads x).mgmt = s.mgmt := by
  unfold State.logSite
  (repeat' split) <;> simp

@[simp] theorem State.movePieces_mgmt (s : State) (c : CopyCmd) (old : Memory) (off : Nat) (got : List Word) (l : List (Piece × Site × Site)) :
    (s.movePieces c old off got l).1.mgmt = s.mgmt := by
  induction l generalizing s off got with
  | nil => rfl
  | cons q r ih =>
    obtain ⟨p, a, b⟩ := q
    unfold State.movePieces
    dsimp only
    rw [ih]
    split <;> simp

@[simp] theorem State.chunkDone_mgmt (s : State) (c : CopyCmd) (rowBytes done : Nat) (written : List (Nat × Byte)) :
    (s.chunkDone c rowBytes done written).mgmt = s.mgmt := by
  unfold State.chunkDone
  extract_lets old t u v d
  have hu : u.mgmt = s.mgmt := by simp [u, t]
  have hv : v.mgmt = s.mgmt := by
    dsimp only [v]
    clear_value u
    split
    · simp [hu]
    · exact mgmt_ite hu (by simp [hu])
    all_goals exact hu
  clear_value v
  exact mgmt_ite (by simp [hv]) (by simp [hv])

@[simp] theorem State.runPieces_mgmt (s : State) (c : CopyCmd) (rowBytes : Nat) (pieces : List Piece) :
    (s.runPieces c rowBytes pieces).mgmt = s.mgmt := by
  unfold State.runPieces
  (repeat' split) <;> simp

@[simp] theorem State.startTileCopy_mgmt (s : State) (c : CopyCmd) : (s.startTileCopy c).mgmt = s.mgmt := by
  unfold State.startTileCopy
  dsimp only
  (repeat' split) <;> simp

@[simp] theorem execCopyStart_mgmt (ch : Nat) (s : State) {m : Management} (h : s.mgmt = m) : keepsMgmt m (execCopyStart ch s) := by
  unfold execCopyStart
  (repeat' split) <;> simp [h]

@[simp] theorem execCopyChunkEnd_mgmt (ch : Nat) (s : State) {m : Management} (h : s.mgmt = m) : keepsMgmt m (execCopyChunkEnd ch s) := by
  unfold execCopyChunkEnd
  (repeat' split) <;> simp [h]

@[simp] theorem State.copyRow_mgmt (ch : Nat) (s : State) : (State.copyRow ch s).mgmt = s.mgmt := by
  unfold State.copyRow
  (repeat' split) <;> simp

@[simp] theorem execTileReadsEnd_mgmt (k : RankKey) (h : Fin 128) (s : State) {m : Management} (hs : s.mgmt = m) :
    keepsMgmt m (execTileReadsEnd k h s) := by
  unfold execTileReadsEnd
  split <;> simp [hs]

/-! ### The group table (R36 to R38) -/

@[simp] theorem State.markRecord_mgmt (s : State) (owner : Nat) (va : Word) (last : Option Word) : (s.markRecord owner va last).mgmt = s.mgmt := by
  simp [State.markRecord]

/-! ### Queues -/

@[simp] theorem State.updQueue_mgmt (s : State) (q : Nat) (f : Queue → Queue) : (s.updQueue q f).mgmt = s.mgmt := rfl
@[simp] theorem State.updLaunch_mgmt (s : State) (n : Nat) (f : Launch → Launch) : (s.updLaunch n f).mgmt = s.mgmt := rfl
@[simp] theorem State.queueRung_mgmt (s : State) (q : Nat) : (s.queueRung q).mgmt = s.mgmt := by simp [State.queueRung]
@[simp] theorem State.fireDone_mgmt (s : State) (o : Nat) : (s.fireDone o).mgmt = s.mgmt := by simp [State.fireDone]
@[simp] theorem State.dropProgress_mgmt (s : State) (n : Nat) : (s.dropProgress n).mgmt = s.mgmt := rfl
@[simp] theorem State.progressFails_mgmt (s : State) (n : Nat) : (s.progressFails n).mgmt = s.mgmt := by simp [State.progressFails]

@[simp] theorem State.writeProgressOr_mgmt (fails : State → State) (s : State) (n : Nat) (h : ∀ u, (fails u).mgmt = u.mgmt) :
    (State.writeProgressOr fails s n).mgmt = s.mgmt := by
  unfold State.writeProgressOr
  split
  · rfl
  split
  · rfl
  split
  · simp
  dsimp only
  split
  case h_8 =>
    split
    · exact h s
    split
    case h_2 e => simpa using postedKeeps.posted (s.postFault_mgmt _ _ _ _ _ _ _ rfl) e
    all_goals (repeat' split) <;> simp [h]
  all_goals (repeat' split) <;> simp [h]

@[simp] theorem State.writeProgress_mgmt (s : State) (n : Nat) : (s.writeProgress n).mgmt = s.mgmt := by simp [State.writeProgress]

/-! ### The end of a launch (R59, R227, R246) -/

@[simp] theorem State.tellOrigin_mgmt (s : State) (l : Launch) (ok : Bool) : (s.tellOrigin l ok).mgmt = s.mgmt := by
  unfold State.tellOrigin
  (repeat' split) <;> simp

@[simp] theorem State.endLaunch_mgmt (s : State) (l : Launch) (ok : Bool) : (s.endLaunch l ok).mgmt = s.mgmt := by simp [State.endLaunch]
@[simp] theorem State.launchBad_mgmt (s : State) (l : Launch) (val1 val2 : Nat) : (s.launchBad l val1 val2).mgmt = s.mgmt := by simp [State.launchBad]

/-! ### Reading -/

@[simp] theorem State.dispatchFault_mgmt (s : State) (mine : Option RingWait) (w : Waiter) (owner : Nat) (va : Word) (cause : BitVec 8)
    (pin : Bool) {m : Management} (h : s.mgmt = m) : postedKeeps m (s.dispatchFault mine w owner va cause pin) := by
  unfold State.dispatchFault
  split <;> simp [h]

@[simp] theorem State.readChild_mgmt (s : State) (n : Nat) : (s.readChild n).mgmt = s.mgmt := by
  unfold State.readChild
  split
  · rfl
  split
  · rfl
  next l _ _ =>
  have hm : (if l.ring.isSome then s else s.markRecord l.owner l.addr none).mgmt = s.mgmt := by split <;> simp
  dsimp only
  generalize (if l.ring.isSome then s else s.markRecord l.owner l.addr none) = u at hm
  split
  case h_6 =>
    split
    case h_2 e => simpa using postedKeeps.posted (u.dispatchFault_mgmt _ _ _ _ _ _ hm) e
    all_goals (repeat' split) <;> simp [hm]
  all_goals simp [hm]

@[simp] theorem State.newLaunch_mgmt (s : State) (origin : Origin) (queue owner : Nat) (addr : Word) :
    (s.newLaunch origin queue owner addr).mgmt = s.mgmt :=
  rfl

@[simp] theorem State.takeNext_mgmt (n : Nat) (q : Queue) (owner : Nat) (va : Word) (s : State) : (State.takeNext n q owner va s).mgmt = s.mgmt :=
  rfl

@[simp] theorem State.badNext_mgmt (n : Nat) (q : Queue) (owner : Nat) (va : Word) (s : State) (val1 val2 : Nat) :
    (State.badNext n q owner va s val1 val2).mgmt = s.mgmt := by
  unfold State.badNext
  dsimp only
  split <;> simp

@[simp] theorem State.readNext_mgmt (s : State) (n : Nat) : (s.readNext n).mgmt = s.mgmt := by
  unfold State.readNext
  split
  · rfl
  split
  · rfl
  next q _ _ =>
  dsimp only
  have hm : (if q.ring.isSome then s else s.markRecord (s.own.holder 0x04 n) q.recordAddr (some q.seenFence)).mgmt = s.mgmt := by split <;> simp
  generalize (if q.ring.isSome then s else s.markRecord (s.own.holder 0x04 n) q.recordAddr (some q.seenFence)) = u at hm
  split
  case h_6 =>
    split
    case h_2 e => simpa using postedKeeps.posted (u.dispatchFault_mgmt _ _ _ _ _ _ hm) e
    all_goals (repeat' split) <;> simp [hm]
  all_goals (repeat' split) <;> simp [hm]

/-! ### Placement (R45, R251, R257) -/

@[simp] theorem State.place_mgmt (s : State) (l : Launch) (runs : List (List Nat)) : (s.place l runs).mgmt = s.mgmt := rfl

@[simp] theorem State.retryProgress_mgmt (s : State) (n : Nat) : (s.retryProgress n).mgmt = s.mgmt := by
  unfold State.retryProgress
  (repeat' split) <;> simp

/-! ### `lnch` and `lwait` (R227, R228) -/

@[simp] theorem execLnch_mgmt (d a : Reg) (la : Fin 16) (s : State) {m : Management} (h : s.mgmt = m) : keepsMgmt m (execLnch d a la s) := by
  have hr := s.releaseReady_mgmt .dev h
  unfold execLnch
  split
  · simp [h]
  split
  · dsimp only
    (repeat' split) <;> simp [h]
  split
  · simp [h]
  split
  · simp_all
  · next t e =>
    have ht : t.mgmt = m := by simp_all
    dsimp only
    (repeat' split) <;> simp [ht]

@[simp] theorem execLwait_mgmt (d a : Reg) (_la : Fin 16) (s : State) {m : Management} (h : s.mgmt = m) : keepsMgmt m (execLwait d a _la s) := by
  unfold execLwait
  dsimp only
  (repeat' split) <;> simp [h]

/-! ### The end of a rank and of a launch (R11, R59, R225, R258) -/

@[simp] theorem State.acquireAt_mgmt (s : State) (core : Nat) : (s.acquireAt core).mgmt = s.mgmt := by simp [State.acquireAt]
@[simp] theorem State.rechannel_mgmt (s : State) (c : CopyCmd) (ch : Nat) : (s.rechannel c ch).mgmt = s.mgmt := rfl

@[simp] theorem State.unparkCopies_mgmt (s : State) (k : RankKey) (run core : Nat) : (s.unparkCopies k run core).mgmt = s.mgmt := by
  unfold State.unparkCopies
  dsimp only
  split
  · rfl
  · exact foldl_mgmt (fun t c => t.rechannel_mgmt c _) _ _

@[simp] theorem State.markTiles_mgmt (s : State) (owner : Nat) (va : Word) (l : List Tile) : (s.markTiles owner va l).mgmt = s.mgmt := by
  induction l generalizing s va with
  | nil => rfl
  | cons t r ih => simp [State.markTiles, ih]

@[simp] theorem State.markSpill_mgmt (s : State) (r : Rank) : (s.markSpill r).mgmt = s.mgmt := by
  unfold State.markSpill
  split <;> simp

@[simp] theorem State.resumeRank_mgmt (s : State) (r : Rank) : (s.resumeRank r).mgmt = s.mgmt := by simp [State.resumeRank]

@[simp] theorem State.switchCore_mgmt (s : State) (core : Nat) : (s.switchCore core).mgmt = s.mgmt := by
  unfold State.switchCore
  dsimp only
  (repeat' split) <;> simp

@[simp] theorem State.removeRank_mgmt (s : State) (k : RankKey) (run : Nat) : (s.removeRank k run).mgmt = s.mgmt := by
  unfold State.removeRank
  split <;> rfl

@[simp] theorem State.compareRuns_mgmt (s : State) (n : Nat) : (s.compareRuns n).mgmt = s.mgmt := by
  unfold State.compareRuns
  (repeat' split) <;> simp

@[simp] theorem execRankEnd_mgmt (k : RankKey) (s : State) {m : Management} (h : s.mgmt = m) : keepsMgmt m (execRankEnd k s) := by
  unfold execRankEnd
  (repeat' split) <;> simp [h]

@[simp] theorem execLaunchComplete_mgmt (n : Nat) (s : State) {m : Management} (h : s.mgmt = m) : keepsMgmt m (execLaunchComplete n s) := by
  unfold execLaunchComplete
  dsimp only
  (repeat' split) <;> simp [h]

@[simp] theorem execDeadlinePassed_mgmt (n : Nat) (s : State) {m : Management} (h : s.mgmt = m) : keepsMgmt m (execDeadlinePassed n s) := by
  unfold execDeadlinePassed
  dsimp only
  (repeat' split) <;> simp [h]

@[simp] theorem execClusterTileEndFree_mgmt (n : Nat) (s : State) {m : Management} (h : s.mgmt = m) : keepsMgmt m (execClusterTileEndFree n s) := by
  unfold execClusterTileEndFree
  dsimp only
  (repeat' split) <;> simp [h]

/-! ### Acceptance (R189, R200, R323) -/

@[simp] theorem State.queueOp_mgmt (s : State) (r : Rank) (o : MatrixOp) : (s.queueOp r o).mgmt = s.mgmt := by simp [State.queueOp]

@[simp] theorem State.matrixCommand_mgmt (s : State) (o : MatrixOp) (bad : Option Word) {m : Management} (h : s.mgmt = m) :
    keepsMgmt m (s.matrixCommand o bad) := by
  unfold State.matrixCommand
  dsimp only
  (repeat' split) <;> simp [h]

@[simp] theorem execMmul_mgmt (nc : Bool) (z : Fin 4) (a b : Reg) (la : Fin 16) (s : State) {m : Management} (h : s.mgmt = m) :
    keepsMgmt m (execMmul nc z a b la s) := by
  unfold execMmul
  dsimp only
  split <;> simp [h]

/-! ### Start checks (R324) -/

@[simp] theorem State.updMx_mgmt (s : State) (k : RankKey) (run : Nat) (f : MatrixUnit → MatrixUnit) : (s.updMx k run f).mgmt = s.mgmt := by
  simp [State.updMx]

@[simp] theorem State.endReads_mgmt (s : State) (r : Rank) (o : MatrixOp) : (s.endReads r o).mgmt = s.mgmt := by simp [State.endReads]

@[simp] theorem State.mergeOp_mgmt (s : State) (r : Rank) (o : MatrixOp) (f : Context → Context) : (s.mergeOp r o f).mgmt = s.mgmt := by
  unfold State.mergeOp
  split <;> simp

@[simp] theorem State.refuseOp_mgmt (s : State) (r : Rank) (o : MatrixOp) (handle val1 : Nat) : (s.refuseOp r o handle val1).mgmt = s.mgmt := by
  unfold State.refuseOp
  split <;> simp

/-! ### The L-array (R201) -/

@[simp] theorem State.endMmulL_mgmt (s : State) (r : Rank) (o : MatrixOp) (done : Nat) : (s.endMmulL r o done).mgmt = s.mgmt := by
  simp [State.endMmulL]

/-! ### The F-array (R76, R206 to R210) -/

@[simp] theorem State.endMmulF_mgmt (s : State) (r : Rank) (o : MatrixOp) : (s.endMmulF r o).mgmt = s.mgmt := by simp [State.endMmulF]

/-! ### Drains (R205, R210) -/

@[simp] theorem State.drainShift_mgmt (s : State) (r : Rank) : (s.drainShift r).mgmt = s.mgmt := by
  unfold State.drainShift
  (repeat' split) <;> simp

@[simp] theorem State.endDrain_mgmt (s : State) (r : Rank) : (s.endDrain r).mgmt = s.mgmt := by
  unfold State.endDrain
  split <;> simp

@[simp] theorem State.drainStep_mgmt (s : State) (k : RankKey) : (s.drainStep k).mgmt = s.mgmt := by
  unfold State.drainStep
  split <;> simp

@[simp] theorem execDrainEnd_mgmt (k : RankKey) (s : State) {m : Management} (h : s.mgmt = m) : keepsMgmt m (execDrainEnd k s) := by
  unfold execDrainEnd
  split <;> simp [h]

/-! ### The start and the end of an operation -/

@[simp] theorem State.beginOp_mgmt (s : State) (r : Rank) (o : MatrixOp) (later : List MatrixOp) : (s.beginOp r o later).mgmt = s.mgmt := by
  unfold State.beginOp
  dsimp only
  (repeat' split) <;> simp

@[simp] theorem execMatrixOpStart_mgmt (k : RankKey) (s : State) {m : Management} (h : s.mgmt = m) : keepsMgmt m (execMatrixOpStart k s) := by
  unfold execMatrixOpStart
  dsimp only
  (repeat' split) <;> simp [h]

@[simp] theorem execPairCycle_mgmt (k : RankKey) (s : State) {m : Management} (h : s.mgmt = m) : keepsMgmt m (execPairCycle k s) := by
  unfold execPairCycle
  dsimp only
  (repeat' split) <;> simp [h]

@[simp] theorem State.endStream_mgmt (s : State) (r : Rank) : (s.endStream r).mgmt = s.mgmt := by
  unfold State.endStream
  (repeat' split) <;> simp

@[simp] theorem State.endStarted_mgmt (s : State) (k : RankKey) (run : Nat) (fuel : Nat) : (s.endStarted k run fuel).mgmt = s.mgmt := by
  induction fuel generalizing s with
  | zero => simp [State.endStarted]
  | succ n ih => simp [State.endStarted, ih]

@[simp] theorem execMatrixOpEnd_mgmt (k : RankKey) (s : State) {m : Management} (h : s.mgmt = m) : keepsMgmt m (execMatrixOpEnd k s) := by
  unfold execMatrixOpEnd
  split <;> simp [h]

/-! ### The records (R92, R93) -/

@[simp] theorem State.graphTrouble_mgmt (s : State) (acc : Access) (e : Trouble) : (s.graphTrouble acc e).mgmt = s.mgmt := by
  unfold State.graphTrouble
  (repeat' split) <;> simp

/-! ### `tgpost` (R94, R198) -/

@[simp] theorem State.postGraph_mgmt (s : State) (slot : Nat) (addr : Word) (ds : List Node) : (s.postGraph slot addr ds).mgmt = s.mgmt := by
  simp [State.postGraph]

@[simp] theorem execTgpost_mgmt (d a : Reg) (_la : Fin 16) (s : State) {m : Management} (h : s.mgmt = m) : keepsMgmt m (execTgpost d a _la s) := by
  unfold execTgpost
  dsimp only
  (repeat' split) <;> simp [h]

/-! ### `tgwait` and `tgstat` (R198) -/

@[simp] theorem execTgwait_mgmt (d a : Reg) (_la : Fin 16) (s : State) {m : Management} (h : s.mgmt = m) : keepsMgmt m (execTgwait d a _la s) := by
  unfold execTgwait
  dsimp only
  (repeat' split) <;> simp [h]

/-! ### The walker (R94) -/

@[simp] theorem State.startNode_mgmt (s : State) (r : Rank) (g : Graph) (n : Nat) (d : Node) : (s.startNode r g n d).mgmt = s.mgmt := by
  unfold State.startNode
  dsimp only
  (repeat' split) <;> simp

@[simp] theorem execGraphNodeStart_mgmt (k : RankKey) (slot node : Nat) (s : State) {m : Management} (h : s.mgmt = m) :
    keepsMgmt m (execGraphNodeStart k slot node s) := by
  unfold execGraphNodeStart
  dsimp only
  (repeat' split) <;> simp [h]

@[simp] theorem State.finishNode_mgmt (s : State) (k : RankKey) (run : Nat) (q : Nat × Nat) : (s.finishNode k run q).mgmt = s.mgmt := by
  simp [State.finishNode]

@[simp] theorem State.finishNodes_mgmt (s : State) (k : RankKey) (run : Nat) : (s.finishNodes k run).mgmt = s.mgmt := by simp [State.finishNodes]

@[simp] theorem execGraphNodeFinish_mgmt (k : RankKey) (slot node : Nat) (s : State) {m : Management} (h : s.mgmt = m) :
    keepsMgmt m (execGraphNodeFinish k slot node s) := by
  unfold execGraphNodeFinish
  dsimp only
  split <;> simp [h]

/-! ### Lanes in memory -/

@[simp] theorem State.loadLanes_mgmt (s : State) (n : Nat) (done got : List Nat) (ans : Option Nat) (l : List (Word × Found)) {m : Management}
    (h : s.mgmt = m) : eitherKeeps m (·.1.mgmt) (s.loadLanes n done got ans l) := by
  induction l generalizing s done got ans with
  | nil => simp [State.loadLanes, h]
  | cons q r ih =>
    obtain ⟨va, f⟩ := q
    match got, ans, f with
    | g :: gs, _, _ => exact ih s _ _ _ h
    | [], some v, _ => exact ih s _ _ _ h
    | [], none, .at pa l =>
      have ha := ({ s with cx := { s.cx with lanes := done } } : State).hostAccess_mgmt false pa va n .read 0 h
      have hp := s.loadPhys_mgmt pa n l .core false h
      unfold State.loadLanes
      dsimp only
      (repeat' split) <;> simp_all
    | [], none, .remote .. => simp [State.loadLanes, h]
    | [], none, .page | [], none, .perm _ | [], none, .held | [], none, .unbacked => simp [State.loadLanes, h]

@[simp] theorem State.loadVec_mgmt (s : State) (vas : List Word) (n : Nat) {m : Management} (h : s.mgmt = m) :
    eitherKeeps m (·.1.mgmt) (s.loadVec vas n) := by
  have hr := s.reach_mgmt vas .load h
  unfold State.loadVec
  (repeat' split) <;> simp_all

@[simp] theorem State.storeLanes_mgmt (s : State) (n : Nat) (l : List ((Word × Found) × Nat)) {m : Management} (h : s.mgmt = m) :
    eitherKeeps m State.mgmt (s.storeLanes n l) := by
  induction l generalizing s with
  | nil => simp [State.storeLanes, h]
  | cons q r ih =>
    obtain ⟨⟨va, f⟩, v⟩ := q
    have ht := s.storeTo_mgmt va (leBytes n v) 0 f h
    unfold State.storeLanes
    split <;> simp_all

theorem State.hostStop_mgmt (s : State) (fs : List (Word × Found)) : ∀ t ∈ s.hostStop fs, t.mgmt = s.mgmt := by
  unfold State.hostStop
  split
  · next va pa _ _ =>
    have ha := s.hostAccess_mgmt true pa va 1 .write 0 rfl
    split <;> simp_all
  all_goals simp

@[simp] theorem State.storeVec_mgmt (s : State) (vas : List Word) (vs : List Nat) (n : Nat) {m : Management} (h : s.mgmt = m) :
    eitherKeeps m State.mgmt (s.storeVec vas vs n) := by
  have hr := s.reach_mgmt vas .store h
  unfold State.storeVec
  split
  · simp [h]
  split
  · simp_all
  · next t fs e =>
    have ht : t.mgmt = m := by simp_all
    have hs := t.hostStop_mgmt (vas.zip fs)
    (repeat' split) <;> simp_all

@[simp] theorem State.lastOf_mgmt (s : State) (vas : List Word) (acc : Access) (u : State) (h : u.mgmt = s.mgmt) :
    (s.lastOf vas acc u).mgmt = s.mgmt := by
  have hr := s.reach_mgmt vas acc rfl
  unfold State.lastOf
  split <;> simp_all

@[simp] theorem State.vecLoad_mgmt (s : State) (i : Instr) (d : VField) (srcs : List VField) (pg : Fin 8) (w : Nat) (addrs : List Word)
    {m : Management} (h : s.mgmt = m) : keepsMgmt m (s.vecLoad i d srcs pg w addrs) := by
  subst h
  have hl := s.streamsLegal_mgmt i (srcs.map srcUse ++ [VUse.mk d true false]) rfl
  have hr := s.streamsReady_mgmt (srcs.map srcUse ++ [VUse.mk d true false]) rfl
  have hv := s.loadVec_mgmt ((activeOf 0 (activeLanes w (s.mask pg)) addrs).map (·.2)) (w / 8) rfl
  unfold State.vecLoad
  dsimp only
  (repeat' split) <;> simp_all

@[simp] theorem State.vecStore_mgmt (s : State) (i : Instr) (d : VField) (srcs : List VField) (pg : Fin 8) (w : Nat) (addrs : List Word)
    {m : Management} (h : s.mgmt = m) : keepsMgmt m (s.vecStore i d srcs pg w addrs) := by
  subst h
  have hl := s.streamsLegal_mgmt i (srcs.map srcUse ++ [srcUse d]) rfl
  have hr := s.streamsReady_mgmt (srcs.map srcUse ++ [srcUse d]) rfl
  have hv := s.storeVec_mgmt ((activeOf 0 (activeLanes w (s.mask pg)) (addrs.zip (lanesOf w (s.source d)))).map (·.2.1))
    ((activeOf 0 (activeLanes w (s.mask pg)) (addrs.zip (lanesOf w (s.source d)))).map (·.2.2)) (w / 8) rfl
  unfold State.vecStore
  dsimp only
  (repeat' split) <;> simp_all

/-! ### Tile rows (R182) -/

@[simp] theorem State.rowOperand_mgmt (s : State) (i : Instr) (u : VUse) (a b : Word) {m : Management} (h : s.mgmt = m) :
    eitherKeeps m (fun _ => m) (s.rowOperand i u a b) := by
  unfold State.rowOperand
  refine eitherKeeps_ite (by simp [h]) (eitherKeeps_ite (by simp [h]) (eitherKeeps_ite (by simp [h]) (eitherKeeps_ite (by simp [h]) ?_)))
  split
  · simp [h]
  · exact eitherKeeps_ite (by simp [h]) (eitherKeeps_ite (by simp [h]) rfl)

@[simp] theorem execVldt_mgmt (d a b : Reg) (pg : Fin 8) (t : ElemType) (s : State) {m : Management} (h : s.mgmt = m) :
    keepsMgmt m (execVldt d a b pg t s) := by
  have ho := s.rowOperand_mgmt (.vldt d a b pg t) (VUse.mk d true false) (s.x a) (s.x b) h
  have hr := s.streamsReady_mgmt [VUse.mk d true false] h
  unfold execVldt
  dsimp only
  (repeat' split) <;> simp_all

@[simp] theorem execVstt_mgmt (d a b : Reg) (pg : Fin 8) (t : ElemType) (s : State) {m : Management} (h : s.mgmt = m) :
    keepsMgmt m (execVstt d a b pg t s) := by
  have ho := s.rowOperand_mgmt (.vstt d a b pg t) (srcUse d) (s.x a) (s.x b) h
  have hr := s.streamsReady_mgmt [srcUse d] h
  unfold execVstt
  dsimp only
  (repeat' split) <;> simp_all

/-! ### Streams (R185, R186, R89) -/

@[simp] theorem execSbind_mgmt (k : Fin 4) (a b : Reg) (la : Fin 16) (s : State) {m : Management} (h : s.mgmt = m) :
    keepsMgmt m (execSbind k a b la s) := by
  unfold execSbind
  dsimp only
  (repeat' split) <;> simp [h]

@[simp] theorem execSunbind_mgmt (k : Fin 4) (la : Fin 16) (s : State) {m : Management} (h : s.mgmt = m) : keepsMgmt m (execSunbind k la s) := by
  unfold execSunbind
  split <;> simp [h]

@[simp] theorem execSstat_mgmt (d : Reg) (k : Fin 4) (la : Fin 16) (s : State) {m : Management} (h : s.mgmt = m) :
    keepsMgmt m (execSstat d k la s) := by
  unfold execSstat
  split <;> simp [h]

/-! ### The writing of an image (R339) -/

@[simp] theorem State.imageWord_mgmt (s : State) (a : ImageAgent) (va : Word) (w : Nat) : (s.imageWord a va w).mgmt = s.mgmt := by
  unfold State.imageWord
  (repeat' split) <;> simp

@[simp] theorem State.imageWords_mgmt (s : State) (a : ImageAgent) (va : Word) (l : List Nat) : (s.imageWords a va l).mgmt = s.mgmt := by
  induction l generalizing s va with
  | nil => rfl
  | cons w r ih => simp [State.imageWords, ih]

theorem State.writeImage_mgmt (s : State) (a : ImageAgent) (va : Word) (n : Nat) (sections : List (Nat × List Nat)) {t : State}
    (h : s.writeImage a va n sections = .ok t) : t.mgmt = s.mgmt := by
  unfold State.writeImage at h
  split at h
  · cases h
  · cases h; simp

/-! ### Control registers (R238) -/

@[simp] theorem State.crAccess_mgmt (s : State) (i : Instr) (d a : Reg) (ix : BitVec 12) (w1c : Bool) (f : Word → Word → Word) {m : Management}
    (h : s.mgmt = m) : keepsMgmt m (s.crAccess i d a ix w1c f) := by
  unfold State.crAccess
  (repeat' split) <;> simp [h]

@[simp] theorem execCrr_mgmt (d : Reg) (ix : BitVec 12) (s : State) {m : Management} (h : s.mgmt = m) : keepsMgmt m (execCrr d ix s) := by
  unfold execCrr
  split <;> simp [h]

/-! ### System instructions (R239 to R242) -/

@[simp] theorem execTret_mgmt (s : State) {m : Management} (h : s.mgmt = m) : keepsMgmt m (execTret s) := by
  unfold execTret
  split <;> simp [h]

@[simp] theorem State.stopCore_mgmt (s : State) : s.stopCore.mgmt = s.mgmt := by
  unfold State.stopCore
  split <;> rfl

@[simp] theorem execBrk_mgmt (s : State) {m : Management} (h : s.mgmt = m) : keepsMgmt m (execBrk s) := by
  unfold execBrk
  split <;> simp [h]

@[simp] theorem execWfe_mgmt (a : Reg) (s : State) {m : Management} (h : s.mgmt = m) : keepsMgmt m (execWfe a s) := by
  unfold execWfe
  dsimp only
  (repeat' split) <;> simp [h]

/-! ### Stops by others (R56, R57) -/

@[simp] theorem execHaltGroupStop_mgmt (h : Fin 16) (s : State) {m : Management} (hs : s.mgmt = m) : keepsMgmt m (execHaltGroupStop h s) := by
  unfold execHaltGroupStop
  dsimp only
  split <;> simp [hs]

@[simp] theorem execDebugStop_mgmt (core : Nat) (s : State) {m : Management} (h : s.mgmt = m) : keepsMgmt m (execDebugStop core s) := by
  unfold execDebugStop
  dsimp only
  split <;> simp [h]

@[simp] theorem execDebugResume_mgmt (core : Nat) (s : State) {m : Management} (h : s.mgmt = m) : keepsMgmt m (execDebugResume core s) := by
  unfold execDebugResume
  split <;> simp [h]

@[simp] theorem State.soloSend_mgmt (s : State) (k : Nat) (v : Word) : (s.soloSend k v).mgmt = s.mgmt := rfl

@[simp] theorem State.soloPerform_mgmt (s : State) (k : Nat) (d : Reg) (body : State → Out) (h : ∀ u, keepsMgmt u.mgmt (body u)) {m : Management}
    (hs : s.mgmt = m) : keepsMgmt m (s.soloPerform k d body) := by
  unfold State.soloPerform
  dsimp only
  generalize hu : ({ (s.updRanks s.soloPeer fun r => { r with solo := { r.solo with failed := dropAt k r.solo.failed } }) with
    cx := { (s.updRanks s.soloPeer fun r => { r with solo := { r.solo with failed := dropAt k r.solo.failed } }).cx with pair := true } } : State) = u
  have hm : u.mgmt = m := by rw [← hu]; exact hs
  have hb := h u
  (repeat' split) <;> simp_all

@[simp] theorem State.soloTake_mgmt (s : State) (k : Nat) (i : Instr) (d : Reg) (v : Word) : (s.soloTake k i d v).mgmt = s.mgmt := by
  unfold State.soloTake
  split <;> simp

@[simp] theorem State.soloPair_mgmt (s : State) (i : Instr) (d : Reg) (body : State → Out) (h : ∀ u, keepsMgmt u.mgmt (body u)) {m : Management}
    (hs : s.mgmt = m) : keepsMgmt m (s.soloPair i d body) := by
  unfold State.soloPair
  dsimp only
  (repeat' split) <;> simp [hs, h]

theorem soloBody_mgmt {i : Instr} {d : Reg} {body : State → Out} (h : soloBody i = some (d, body)) (s : State) : keepsMgmt s.mgmt (body s) := by
  unfold soloBody at h
  split at h <;> cases h <;> simp [execAdd, execSub, execAnd, execOr, execXor, execAndn, execOrn, execSll, execSrl, execSra, execRol, execRor,
    execSlt, execSltu, execMin, execMax, execMinu, execMaxu, execMul, execMulh, execMulhu, execMulhsu, execDiv, execDivu, execRem, execRemu,
    execClz, execCtz, execPopc, execSextb, execSexth, execSextw, execZextw, execBswap, execCsel, execAddw, execSubw, execSllw, execSrlw,
    execSraw, execMulw, execDivw, execDivuw, execRemw, execRemuw, execAddi, execAndi, execOri, execXori, execSlti, execSltiu, execSlli,
    execSrli, execSrai, execRori, execLhi, execLsh, execAdr, execLdB, execLdH, execLdW, execLdD, execLdBu, execLdHu, execLdWu]

@[simp] theorem execSolo_mgmt (s : State) {m : Management} (h : s.mgmt = m) : keepsMgmt m (execSolo s) := by
  have hf := State.fetch_mgmt { s with cx := { s.cx with pair := false } } (s.cx.pc + 4) h
  unfold execSolo
  dsimp only
  split
  · simp [h]
  split
  · next t e => exact hf.early e
  · next t w e =>
    have ht : t.mgmt = m := hf.whole e
    split
    · simp [ht]
    split
    · simp [ht]
    · next d body eb => exact t.soloPair_mgmt _ d body (soloBody_mgmt eb) ht

/-! ### The saving of a rank (R46, R339, R341) -/

@[simp] theorem State.parkCopies_mgmt (s : State) (r : Rank) : (s.parkCopies r).mgmt = s.mgmt :=
  foldl_mgmt (fun t c => t.rechannel_mgmt c _) _ _

@[simp] theorem State.commitHere_mgmt (s : State) : s.commitHere.mgmt = s.mgmt := by
  unfold State.commitHere
  extract_lets c u w out
  have hw : ∀ q ∈ w, q.1.mgmt = s.mgmt := by
    dsimp only [w]
    split
    · simp
    · next t n e =>
      have ht : t.mgmt = s.mgmt := (State.fetch_mgmt u _ rfl).whole e
      split <;> simp [ht]
  have ho : keepsMgmt s.mgmt out := by
    dsimp only [out]
    clear_value w
    cases w with
    | none => rfl
    | some q =>
      obtain ⟨t, i⟩ := q
      have ht : t.mgmt = s.mgmt := hw _ rfl
      clear hw
      split
      case h_15 => rfl
      all_goals
        next e =>
          cases e
          simp [ht]
  clear_value out
  split
  · exact ho
  all_goals rfl

@[simp] theorem State.commitAnswered_mgmt (s : State) (r : Rank) : (s.commitAnswered r).mgmt = s.mgmt := by simp [State.commitAnswered]
@[simp] theorem State.quiet_mgmt (s : State) (r : Rank) : (s.quiet r).mgmt = s.mgmt := by simp [State.quiet]

theorem State.saveRank_mgmt (s : State) (r : Rank) (reason : Nat) (stay : Bool) : ∀ q ∈ s.saveRank r reason stay, q.1.mgmt = s.mgmt := by
  obtain ⟨write, hw⟩ : ∃ write, State.writeImage = write := ⟨_, rfl⟩
  unfold State.saveRank
  rw [hw]
  split
  · simp
  dsimp only
  split
  · simp
  split
  · simp
  · simp
  · next e =>
    rw [← hw] at e
    simpa using State.writeImage_mgmt _ _ _ _ _ e

@[simp] theorem State.syncImage_mgmt (s : State) (r : Rank) : (s.syncImage r).mgmt = s.mgmt := by simp [State.syncImage]
@[simp] theorem State.syncImages_mgmt (s : State) : s.syncImages.mgmt = s.mgmt := by simp [State.syncImages]

/-! ### Switch points (R48, R301) -/

@[simp] theorem State.switchAt_mgmt (s : State) (core : Nat) : (s.switchAt core).mgmt = s.mgmt := by
  unfold State.switchAt
  dsimp only
  split
  · simp
  split
  · rfl
  split
  · rfl
  · next e =>
    have ht := s.saveRank_mgmt _ _ _ _ e
    split <;> simp_all

/-! ### Bind records (R249, R250) -/

@[simp] theorem State.ensureQueue_mgmt (s : State) (q : Nat) : (s.ensureQueue q).mgmt = s.mgmt := by
  unfold State.ensureQueue
  split <;> rfl

/-! ### The placing of saved and folded ranks (R46 step 3, R49) -/

@[simp] theorem State.giveRank_mgmt (s : State) (r : Rank) (core : Nat) : (s.giveRank r core).mgmt = s.mgmt := by
  unfold State.giveRank
  (repeat' split) <;> simp

@[simp] theorem State.assignSaved_mgmt (s : State) (cores : List Nat) (l : List Rank) : (s.assignSaved cores l).mgmt = s.mgmt := by
  induction l generalizing s with
  | nil => rfl
  | cons r l ih =>
    unfold State.assignSaved
    split <;> simp [ih]

@[simp] theorem State.balance_mgmt (s : State) (l run : Nat) (cores restored : List Nat) (fuel : Nat) :
    (s.balance l run cores restored fuel).mgmt = s.mgmt := by
  induction fuel generalizing s with
  | zero => rfl
  | succ n ih =>
    unfold State.balance
    dsimp only
    (repeat' split) <;> simp [ih]

@[simp] theorem State.startCores_mgmt (s : State) (cores : List Nat) : (s.startCores cores).mgmt = s.mgmt := by simp [State.startCores]

@[simp] theorem State.restoreRun_mgmt (s : State) (l : Launch) (run : Nat) (restored : List Nat) : (s.restoreRun l run restored).mgmt = s.mgmt := by
  unfold State.restoreRun
  dsimp only
  (repeat' split) <;> simp

@[simp] theorem State.restoreLaunch_mgmt (s : State) (cores : List Nat) (l : Launch) : (s.restoreLaunch cores l).mgmt = s.mgmt := by
  unfold State.restoreLaunch
  split <;> simp

@[simp] theorem State.resumeLaunch_mgmt (s : State) (l : Launch) : (s.resumeLaunch l).mgmt = s.mgmt := by
  unfold State.resumeLaunch
  dsimp only
  (repeat' split) <;> simp

@[simp] theorem State.restoreCores_mgmt (s : State) (slot : Nat) (cores : List Nat) : (s.restoreCores slot cores).mgmt = s.mgmt :=
  foldl_mgmt (fun t l => by split <;> simp) _ _

@[simp] theorem State.resumeSaved_mgmt (s : State) (slot : Nat) : (s.resumeSaved slot).mgmt = s.mgmt := by
  unfold State.resumeSaved
  dsimp only
  (repeat' split) <;> simp

/-! ### The change of a slot (R250, R255, R256) -/

@[simp] theorem State.applyBind_mgmt (s : State) (slot : Nat) (b : BindRec) : (s.applyBind slot b).mgmt = s.mgmt := by
  unfold State.applyBind
  dsimp only
  (repeat' split) <;> simp

@[simp] theorem State.fwRecord_mgmt (s : State) (addr : Word) (bound : Nat) : (s.fwRecord addr bound).mgmt = s.mgmt := by simp [State.fwRecord]

@[simp] theorem State.writeBind_mgmt (s : State) (slot : Nat) (b : BindRec) : (s.writeBind slot b).mgmt = s.mgmt := by
  unfold State.writeBind
  (repeat' split) <;> simp

@[simp] theorem execBindRecordWrite_mgmt (slot : Nat) (b : BindRec) (s : State) {m : Management} (h : s.mgmt = m) :
    keepsMgmt m (execBindRecordWrite slot b s) := by
  unfold execBindRecordWrite
  (repeat' split) <;> simp [h]

@[simp] theorem State.takeDeferred_mgmt (s : State) (slot : Nat) : (s.takeDeferred slot).mgmt = s.mgmt := by
  unfold State.takeDeferred
  (repeat' split) <;> simp

/-! ### Vacating a core (R46) -/

theorem State.vacateRanks_mgmt (s : State) (reason : Nat) (l : List Rank) : ∀ t ∈ s.vacateRanks reason l, t.mgmt = s.mgmt := by
  induction l generalizing s with
  | nil => simp [State.vacateRanks]
  | cons r l ih =>
    unfold State.vacateRanks
    split
    · simp
    · next t saved e =>
      intro u hu
      refine (ih _ u hu).trans ?_
      have ht := s.saveRank_mgmt _ _ _ _ e
      split <;> simp_all

@[simp] theorem State.endOrder_mgmt (s : State) (slot : Nat) : (s.endOrder slot).mgmt = s.mgmt := by
  unfold State.endOrder
  split
  · rfl
  · refine ((State.resumeSaved_mgmt ..).trans (State.restoreCores_mgmt ..)).trans (foldl_mgmt (fun t l => ?_) _ _)
    split
    · rfl
    · exact foldl_mgmt (fun u run => (State.startCores_mgmt ..).trans (State.assignSaved_mgmt ..)) _ _

@[simp] theorem execCoreVacate_mgmt (core : Nat) (s : State) {m : Management} (h : s.mgmt = m) : keepsMgmt m (execCoreVacate core s) := by
  unfold execCoreVacate
  split
  · simp [h]
  dsimp only
  split
  · simp [h]
  · next t e =>
    have ht := s.vacateRanks_mgmt _ _ t e
    simp [ht, h]

/-! ### The placing of a launch (R45) -/

@[simp] theorem execLaunchPlace_mgmt (src : LaunchSrc) (s : State) {m : Management} (h : s.mgmt = m) : keepsMgmt m (execLaunchPlace src s) := by
  unfold execLaunchPlace
  dsimp only
  (repeat' split) <;> simp [h]

/-! ### Messages (R215 to R219) -/

@[simp] theorem State.sendMessage_mgmt (s : State) (dest : Nat) (tag : BitVec 16) (data : VReg) : (s.sendMessage dest tag data).mgmt = s.mgmt := rfl

@[simp] theorem execMsnd_mgmt (d a b : Reg) (_la : Fin 16) (s : State) {m : Management} (h : s.mgmt = m) : keepsMgmt m (execMsnd d a b _la s) := by
  unfold execMsnd
  dsimp only
  (repeat' split) <;> simp [h]

@[simp] theorem execMsnds_mgmt (d a b : Reg) (_la : Fin 16) (s : State) {m : Management} (h : s.mgmt = m) :
    keepsMgmt m (execMsnds d a b _la s) := by
  unfold execMsnds
  (repeat' split) <;> simp [h]

@[simp] theorem State.sendHeld_mgmt (s : State) (l : List Held) : (s.sendHeld l).mgmt = s.mgmt := by
  induction l generalizing s with
  | nil => rfl
  | cons h r ih =>
    unfold State.sendHeld
    split <;> simp [ih]

@[simp] theorem execMcommit_mgmt (d : Reg) (_la : Fin 16) (s : State) {m : Management} (h : s.mgmt = m) : keepsMgmt m (execMcommit d _la s) := by
  unfold execMcommit
  dsimp only
  split <;> simp [h]

@[simp] theorem execMrcv_mgmt (d a : Reg) (_la : Fin 16) (s : State) {m : Management} (h : s.mgmt = m) : keepsMgmt m (execMrcv d a _la s) := by
  unfold execMrcv
  dsimp only
  (repeat' split) <;> simp [h]

@[simp] theorem execMpeek_mgmt (d a : Reg) (_la : Fin 16) (s : State) {m : Management} (h : s.mgmt = m) : keepsMgmt m (execMpeek d a _la s) := by
  unfold execMpeek
  dsimp only
  split <;> simp [h]

@[simp] theorem execMessageDeliver_mgmt (n : Nat) (s : State) {m : Management} (h : s.mgmt = m) : keepsMgmt m (execMessageDeliver n s) := by
  unfold execMessageDeliver
  (repeat' split) <;> simp [h]

/-! ### Barriers (R39 to R41, R221) -/

@[simp] theorem State.arrive_mgmt (s : State) (g : Fin 4) (byVote vote : Bool) (orBit : Bool) : (s.arrive g byVote vote orBit).mgmt = s.mgmt := rfl

@[simp] theorem State.barrier_mgmt (s : State) (i : Instr) (g : Fin 4) (k : BarSlot → Out) {m : Management} (h : s.mgmt = m)
    (hk : ∀ b, keepsMgmt m (k b)) : keepsMgmt m (s.barrier i g k) := by
  unfold State.barrier
  (repeat' split) <;> simp [h, hk]

@[simp] theorem State.barrierWait_mgmt (s : State) (g : Fin 4) (point : Bool) {m : Management} (h : s.mgmt = m) :
    keepsMgmt m (s.barrierWait g point) := by
  unfold State.barrierWait
  split <;> simp [h]

@[simp] theorem execBarArrive_mgmt (g : Fin 4) (s : State) {m : Management} (h : s.mgmt = m) : keepsMgmt m (execBarArrive g s) :=
  s.barrier_mgmt _ _ _ h fun b => by split <;> simp [h]

@[simp] theorem State.barrierEnd_mgmt (s : State) (g : Fin 4) : (s.barrierEnd g).mgmt = s.mgmt := rfl

@[simp] theorem execBarWait_mgmt (g : Fin 4) (s : State) {m : Management} (h : s.mgmt = m) : keepsMgmt m (execBarWait g s) :=
  s.barrier_mgmt _ _ _ h fun b => by (repeat' split) <;> simp [h]

@[simp] theorem execBarVote_mgmt (d a : Reg) (g : Fin 4) (s : State) {m : Management} (h : s.mgmt = m) : keepsMgmt m (execBarVote d a g s) :=
  s.barrier_mgmt _ _ _ h fun b => by dsimp only; (repeat' split) <;> simp [h]

@[simp] theorem execArrivalCounted_mgmt (k : RankKey) (g : Fin 4) (s : State) {m : Management} (h : s.mgmt = m) :
    keepsMgmt m (execArrivalCounted k g s) := by
  unfold execArrivalCounted
  dsimp only
  (repeat' split) <;> simp [h]

@[simp] theorem execBarrierRelease_mgmt (launch group : Nat) (s : State) {m : Management} (h : s.mgmt = m) :
    keepsMgmt m (execBarrierRelease launch group s) := by
  unfold execBarrierRelease
  dsimp only
  (repeat' split) <;> simp [h]

/-! ### Helpers (R42 to R44, R223 to R226) -/

@[simp] theorem execHstart_mgmt (d a b : Reg) (s : State) {m : Management} (h : s.mgmt = m) : keepsMgmt m (execHstart d a b s) := by
  unfold execHstart
  (repeat' split) <;> simp [h]

@[simp] theorem execHjoin_mgmt (d a : Reg) (la : Fin 16) (s : State) {m : Management} (h : s.mgmt = m) : keepsMgmt m (execHjoin d a la s) := by
  unfold execHjoin
  dsimp only
  (repeat' split) <;> simp [h]

@[simp] theorem State.forgetHelper_mgmt (s : State) (k : RankKey) (run n : Nat) : (s.forgetHelper k run n).mgmt = s.mgmt := by
  simp [State.forgetHelper]

@[simp] theorem State.endHelper_mgmt (s : State) : s.endHelper.mgmt = s.mgmt := by
  unfold State.endHelper
  split <;> simp

@[simp] theorem execHexit_mgmt (s : State) {m : Management} (h : s.mgmt = m) : keepsMgmt m (execHexit s) := by
  unfold execHexit
  split <;> simp [h]

/-! ### Injection (R266 to R270, R343) -/

@[simp] theorem State.updRequest_mgmt (s : State) (id : Nat) (f : Request → Request) : (s.updRequest id f).mgmt = s.mgmt := rfl

@[simp] theorem State.injectExact_mgmt (s : State) (q : Request) (entry : Nat) : (s.injectExact q entry).mgmt = s.mgmt := by
  unfold State.injectExact
  split <;> rfl

@[simp] theorem State.settleIssuer_mgmt (s : State) (q : Request) : (s.settleIssuer q).mgmt = s.mgmt := by
  unfold State.settleIssuer
  split <;> simp

@[simp] theorem State.injectLossy_mgmt (s : State) (q : Request) (xfer nblk : Nat) : (s.injectLossy q xfer nblk).mgmt = s.mgmt := by
  unfold State.injectLossy
  dsimp only
  (repeat' split) <;> simp

/-! ### The completion of a request (R345, R346) -/

@[simp] theorem State.remoteRecord_mgmt (s : State) (q : Request) (status : Nat) : (s.remoteRecord q status).mgmt = s.mgmt := by
  simp [State.remoteRecord]

@[simp] theorem State.answerRequest_mgmt (s : State) (q : Request) (v : Word) : (s.answerRequest q v).mgmt = s.mgmt := by
  unfold State.answerRequest
  split <;> simp

@[simp] theorem State.failRequest_mgmt (s : State) (q : Request) (cause : BitVec 8) : (s.failRequest q cause).mgmt = s.mgmt := by
  unfold State.failRequest
  split
  · rfl
  · exact s.inContext_mgmt _ _ _ _ fun t => by split <;> simp

@[simp] theorem State.copyAnswer_mgmt (s : State) (ch seq : Nat) (q : Request) (status : Nat) (data : Word) :
    (s.copyAnswer ch seq q status data).mgmt = s.mgmt := by
  unfold State.copyAnswer
  (repeat' split) <;> simp

@[simp] theorem State.completeRequest_mgmt (s : State) (q : Request) (status : Nat) (data : Word) :
    (s.completeRequest q status data).mgmt = s.mgmt := by
  unfold State.completeRequest
  (repeat' split) <;> simp

@[simp] theorem State.injectRequest_mgmt (s : State) (q : Request) : (s.injectRequest q).mgmt = s.mgmt := by
  unfold State.injectRequest
  (repeat' split) <;> simp

@[simp] theorem execRemoteCompletion_mgmt (id status : Nat) (data : Word) (s : State) {m : Management} (h : s.mgmt = m) :
    keepsMgmt m (execRemoteCompletion id status data s) := by
  unfold execRemoteCompletion
  (repeat' split) <;> simp [h]

@[simp] theorem execRemoteDeadline_mgmt (id : Nat) (s : State) {m : Management} (h : s.mgmt = m) : keepsMgmt m (execRemoteDeadline id s) := by
  unfold execRemoteDeadline
  (repeat' split) <;> simp [h]

@[simp] theorem execPacketResend_mgmt (id : Nat) (s : State) {m : Management} (h : s.mgmt = m) : keepsMgmt m (execPacketResend id s) := by
  unfold execPacketResend
  (repeat' split) <;> simp [h]

/-! ### A request at its destination (R345, R346) -/

@[simp] theorem State.writeHome_mgmt (s : State) (owner agent : Nat) (va : Word) (bs : List Byte) :
    (s.writeHome owner agent va bs).mgmt = s.mgmt := by
  unfold State.writeHome
  split <;> simp

@[simp] theorem State.readHome_mgmt (s : State) (owner agent : Nat) (va : Word) (n : Nat) : (s.readHome owner agent va n).1.mgmt = s.mgmt := by
  unfold State.readHome
  split <;> simp

@[simp] theorem State.writeParts_mgmt (s : State) (owner agent : Nat) (bs : List Byte) (l : List (Word × Nat)) :
    (s.writeParts owner agent bs l).mgmt = s.mgmt := by
  induction l generalizing s bs with
  | nil => rfl
  | cons p r ih => simp [State.writeParts, ih]

@[simp] theorem State.readParts_mgmt (s : State) (owner agent : Nat) (l : List (Word × Nat)) : (s.readParts owner agent l).1.mgmt = s.mgmt := by
  induction l generalizing s with
  | nil => rfl
  | cons p r ih => simp [State.readParts, ih]

@[simp] theorem State.answerPeer_mgmt (s : State) (r : RemoteReq) (status : Nat) (data : List Byte) :
    (s.answerPeer r status data).mgmt = s.mgmt := by
  simp [State.answerPeer]

@[simp] theorem State.amoHome_mgmt (s : State) (owner agent : Nat) (va : Word) (n : Nat) (op : AmoOp) (b cmp : Nat) :
    (s.amoHome owner agent va n op b cmp).1.mgmt = s.mgmt := by
  unfold State.amoHome
  split <;> simp

theorem State.feHome_mgmt (s : State) (r : RemoteReq) (mode : FeMode) (limit : Nat) : ∀ t ∈ s.feHome r mode limit, t.mgmt = s.mgmt := by
  unfold State.feHome
  dsimp only
  (repeat' split) <;> simp

theorem State.serve_mgmt (s : State) (r : RemoteReq) : ∀ t ∈ s.serve r, t.mgmt = s.mgmt := by
  unfold State.serve
  split
  · simp
  · simp
  dsimp only
  split
  case h_6 => exact s.feHome_mgmt r _ _
  all_goals (repeat' split) <;> simp

@[simp] theorem execRemoteRequest_mgmt (r : RemoteReq) (s : State) {m : Management} (h : s.mgmt = m) : keepsMgmt m (execRemoteRequest r s) :=
  getD_mgmt (fun t ht => (s.serve_mgmt r t ht).trans h) h

/-! ### Order and lateness (R267, R344) -/

@[simp] theorem State.noteLate_mgmt (s : State) (r : RemoteReq) : (s.noteLate r).mgmt = s.mgmt := by
  unfold State.noteLate
  (repeat' split) <;> simp

theorem State.deliverNext_mgmt (s : State) (k : OrderKey) (r : RemoteReq) : ∀ t ∈ s.deliverNext k r, t.mgmt = s.mgmt := by
  have hs := (s.noteLate r).serve_mgmt r
  unfold State.deliverNext
  split <;> simp_all

@[simp] theorem State.deliverEarly_mgmt (s : State) (src sagent : Nat) (fuel : Nat) : (s.deliverEarly src sagent fuel).mgmt = s.mgmt := by
  induction fuel generalizing s with
  | zero => rfl
  | succ n ih =>
    unfold State.deliverEarly
    dsimp only
    split
    · rfl
    split
    · rfl
    · next t e => exact (ih t).trans (s.deliverNext_mgmt _ _ t e)

@[simp] theorem execPacketDeliver_mgmt (sagent pseq : Nat) (r : RemoteReq) (s : State) {m : Management} (h : s.mgmt = m) :
    keepsMgmt m (execPacketDeliver sagent pseq r s) := by
  unfold execPacketDeliver
  dsimp only
  split <;> simp [h]

@[simp] theorem State.deliverKept_mgmt (s : State) : s.deliverKept.mgmt = s.mgmt := by simp [State.deliverKept]

/-! ### Atomics that merge (R277) -/

@[simp] theorem execAtomicMerge_mgmt (i j : Nat) (s : State) {m : Management} (h : s.mgmt = m) : keepsMgmt m (execAtomicMerge i j s) := by
  unfold execAtomicMerge
  (repeat' split) <;> simp [h]

@[simp] theorem execAtomicMergeTimeout_mgmt (i : Nat) (s : State) {m : Management} (h : s.mgmt = m) : keepsMgmt m (execAtomicMergeTimeout i s) := by
  unfold execAtomicMergeTimeout
  (repeat' split) <;> simp [h]

/-! ### Lossy transfers at the destination (R272, R273) -/

theorem State.zeroBlocks_mgmt (s : State) (x : LossyXfer) (owner : Nat) (k n : Nat) : ∀ q ∈ s.zeroBlocks x owner k n, q.1.mgmt = s.mgmt := by
  induction n generalizing s k with
  | zero => simp [State.zeroBlocks]
  | succ n ih =>
    have hi := ih s (k + 1)
    unfold State.zeroBlocks
    split
    · exact hi
    split
    · simp
    · split <;> simp_all
    · exact fun q hq => (ih _ (k + 1) q hq).trans (State.writeParts_mgmt ..)

theorem State.storeMask_mgmt (s : State) (x : LossyXfer) (owner : Nat) : ∀ t ∈ s.storeMask x owner, t.mgmt = s.mgmt := by
  unfold State.storeMask
  dsimp only
  (repeat' split) <;> simp

theorem State.closeLossy_mgmt (s : State) (x : LossyXfer) : ∀ t ∈ s.closeLossy x, t.mgmt = s.mgmt := by
  have hz := s.zeroBlocks_mgmt x (s.keyOwner x.keyid) 0 x.nblk
  unfold State.closeLossy
  dsimp only
  split
  · simp
  · next t bad e =>
    have ht : (match bad with
      | none => t
      | some (k, st) => t.report (errRec Err.remote (s.keyOwner x.keyid) (x.blockAt k) (wd st) (wd x.src))).mgmt = s.mgmt := by
      split <;> simp_all
    split
    · simp
    · next u eu => simpa using (State.storeMask_mgmt _ _ _ u eu).trans ht

@[simp] theorem execLossyBlockArrive_mgmt (b : LossyBlock) (s : State) {m : Management} (h : s.mgmt = m) :
    keepsMgmt m (execLossyBlockArrive b s) := by
  unfold execLossyBlockArrive
  extract_lets fresh x owner sound place ok u y f t
  have ht : t.mgmt = m := mgmt_ite (by simp [h]) h
  clear_value t
  refine keepsMgmt_ite h (keepsMgmt_ite h (keepsMgmt_ite ?_ ht))
  exact getD_mgmt (fun v hv => (State.closeLossy_mgmt _ _ v hv).trans ht) ht

@[simp] theorem execLossyClose_mgmt (src xfer : Nat) (s : State) {m : Management} (h : s.mgmt = m) : keepsMgmt m (execLossyClose src xfer s) := by
  unfold execLossyClose
  split
  · simp [h]
  split
  · exact getD_mgmt (fun t ht => (s.closeLossy_mgmt _ t ht).trans h) h
  · simp [h]

/-! ### Links (R343, R344) -/

@[simp] theorem execFlitReceive_mgmt (port : Nat) (f : Flit) (s : State) {m : Management} (h : s.mgmt = m) :
    keepsMgmt m (execFlitReceive port f s) := by
  unfold execFlitReceive
  dsimp only
  (repeat' split) <;> simp [h]

@[simp] theorem execReplayRequest_mgmt (port lseq : Nat) (s : State) {m : Management} (h : s.mgmt = m) :
    keepsMgmt m (execReplayRequest port lseq s) := by
  unfold execReplayRequest
  split <;> simp [h]

@[simp] theorem State.loseBlock_mgmt (s : State) (id : Nat) : (s.loseBlock id).mgmt = s.mgmt := by
  unfold State.loseBlock
  (repeat' split) <;> simp

@[simp] theorem State.dropLate_mgmt (s : State) (port : Nat) : (s.dropLate port).mgmt = s.mgmt := by simp [State.dropLate]

@[simp] theorem State.clearPort_mgmt (s : State) (port : Nat) : (s.clearPort port).mgmt = s.mgmt :=
  foldl_mgmt (fun t c => by (repeat' split) <;> simp) _ _

@[simp] theorem execLinkOutOfService_mgmt (port : Nat) (s : State) {m : Management} (h : s.mgmt = m) :
    keepsMgmt m (execLinkOutOfService port s) := by
  unfold execLinkOutOfService
  dsimp only
  split <;> simp [h]

@[simp] theorem execSpareRetrain_mgmt (s : State) {m : Management} (h : s.mgmt = m) : keepsMgmt m (execSpareRetrain s) := by
  unfold execSpareRetrain
  dsimp only
  split <;> simp [h]

/-! ### Time (R278) -/

@[simp] theorem execTimeFlit_mgmt (ref : Nat) (s : State) {m : Management} (h : s.mgmt = m) : keepsMgmt m (execTimeFlit ref s) := by
  unfold execTimeFlit
  dsimp only
  (repeat' split) <;> simp [h]

/-! ### Full/empty requests of peers (R332, R346) -/

@[simp] theorem State.withdrawPeers_mgmt (s : State) : s.withdrawPeers.mgmt = s.mgmt := by
  unfold State.withdrawPeers
  dsimp only
  split <;> simp

/-! ### `stmc` (R230, R347) -/

theorem State.storeOwn_mgmt (s : State) (g : McGroup) (owner : Nat) (off data : Word) (l : List Nat) :
    ∀ q ∈ s.storeOwn g owner off data l, q.1.mgmt = s.mgmt := by
  induction l generalizing s with
  | nil => simp [State.storeOwn]
  | cons i r ih =>
    have hi := ih s
    unfold State.storeOwn
    dsimp only
    split
    · simp
    · split <;> simp_all
    · exact fun q hq => (ih _ q hq).trans (State.writeHome_mgmt ..)

@[simp] theorem State.signMembers_mgmt (s : State) (g : McGroup) (off data : Word) : (s.signMembers g off data).mgmt = s.mgmt := by
  simp [State.signMembers]

@[simp] theorem State.multicast_mgmt (s : State) (grp : Nat) (g : McGroup) (off data : Word) (others : List Nat) (failed : Word) :
    (s.multicast grp g off data others failed).mgmt = s.mgmt :=
  rfl

@[simp] theorem State.multicastStore_mgmt (s : State) (d : Reg) (grp : Nat) (off : Word) {m : Management} (h : s.mgmt = m) :
    keepsMgmt m (s.multicastStore d grp off) := by
  unfold State.multicastStore
  dsimp only
  split
  · simp [h]
  split
  · simp [h]
  · next u bad e =>
    have hu := State.storeOwn_mgmt _ _ _ _ _ _ _ e
    split <;> simp_all

@[simp] theorem execStmc_mgmt (d a b : Reg) (_la : Fin 16) (s : State) {m : Management} (h : s.mgmt = m) : keepsMgmt m (execStmc d a b _la s) := by
  unfold execStmc
  dsimp only
  (repeat' split) <;> simp [h]

@[simp] theorem State.injectMulticast_mgmt (s : State) (q : Request) : (s.injectMulticast q).mgmt = s.mgmt := by
  unfold State.injectMulticast
  dsimp only
  split <;> simp

@[simp] theorem execPacketInject_mgmt (id : Nat) (s : State) {m : Management} (h : s.mgmt = m) : keepsMgmt m (execPacketInject id s) := by
  unfold execPacketInject
  (repeat' split) <;> simp [h]

@[simp] theorem State.endMulticast_mgmt (s : State) (q : Request) (failed : Word) : (s.endMulticast q failed).mgmt = s.mgmt := by
  simp [State.endMulticast]

@[simp] theorem execStmcReply_mgmt (id : Nat) (failed : Word) (s : State) {m : Management} (h : s.mgmt = m) :
    keepsMgmt m (execStmcReply id failed s) := by
  unfold execStmcReply
  (repeat' split) <;> simp [h]

@[simp] theorem execStmcAckTimeout_mgmt (id : Nat) (branch : Word) (s : State) {m : Management} (h : s.mgmt = m) :
    keepsMgmt m (execStmcAckTimeout id branch s) := by
  unfold execStmcAckTimeout
  (repeat' split) <;> simp [h]

/-! ### State of collectives -/

@[simp] theorem State.updColl_mgmt (s : State) (id : Nat) (f : Collective → Collective) : (s.updColl id f).mgmt = s.mgmt := rfl

@[simp] theorem State.faultedDst_mgmt (s : State) (c : Collective) : (s.faultedDst c).mgmt = s.mgmt := by
  unfold State.faultedDst
  dsimp only
  split
  · rfl
  · exact foldl_mgmt (fun t k => by (repeat' split) <;> simp) _ _

@[simp] theorem State.collFault_mgmt (s : State) (c : Collective) (reason : Nat) (missing : Word) :
    (s.collFault c reason missing).mgmt = s.mgmt := by
  simp [State.collFault]

@[simp] theorem State.collTrouble_mgmt (s : State) (c : Collective) (e : Trouble) : (s.collTrouble c e).mgmt = s.mgmt := by
  unfold State.collTrouble
  split
  · rfl
  · rfl
  · simp
  · dsimp only
    split
    · simp
    split
    case h_2 e => simpa using postedKeeps.posted (s.postFault_mgmt _ _ _ _ _ _ _ rfl) e
    all_goals (repeat' split) <;> simp

@[simp] theorem State.collRead_mgmt (s : State) (owner : Nat) (parts : List (Word × Nat)) : (s.collRead owner parts).1.mgmt = s.mgmt := by
  unfold State.collRead
  refine List.foldlRecOn (motive := fun q : State × List Byte => q.1.mgmt = s.mgmt) parts _ rfl fun q h p _ => ?_
  dsimp only
  split <;> simp [h]

/-! ### Legs sent (R264, R275, R276, R357) -/

@[simp] theorem State.legPacket_mgmt (s : State) (c : Collective) (result : Bool) (dest off : Nat) (bs : List Byte)
    (block : Option (Nat × Nat × Nat)) : (s.legPacket c result dest off bs block).mgmt = s.mgmt := by
  unfold State.legPacket
  split <;> rfl

@[simp] theorem State.sendLeg_mgmt (s : State) (c : Collective) (result : Bool) (l : Leg) (dest : Nat) :
    (s.sendLeg c result l dest).mgmt = s.mgmt := by
  unfold State.sendLeg
  split <;> simp

@[simp] theorem State.forwardLegs_mgmt (s : State) (id : Nat) : (s.forwardLegs id).mgmt = s.mgmt := by
  unfold State.forwardLegs
  (repeat' split) <;> simp

@[simp] theorem State.contribute_mgmt (s : State) (c : Collective) : (s.contribute c).mgmt = s.mgmt := by
  unfold State.contribute
  dsimp only
  (repeat' split) <;> simp

/-! ### The end of a collective (R232, R233, R357) -/

@[simp] theorem State.collWrite_mgmt (s : State) (c : Collective) (va : Word) (bs : List Byte) : (s.collWrite c va bs).mgmt = s.mgmt := by
  unfold State.collWrite
  dsimp only
  (repeat' split) <;> simp

@[simp] theorem State.finishColl_mgmt (s : State) (id : Nat) : (s.finishColl id).mgmt = s.mgmt := by
  unfold State.finishColl
  dsimp only
  (repeat' split) <;> simp

@[simp] theorem State.giveResult_mgmt (s : State) (id : Nat) (l : Leg) : (s.giveResult id l).mgmt = s.mgmt := by simp [State.giveResult]
@[simp] theorem State.loseResult_mgmt (s : State) (c : Collective) : (s.loseResult c).mgmt = s.mgmt := by simp [State.loseResult]

@[simp] theorem State.rootResult_mgmt (s : State) (c : Collective) (l : Leg) : (s.rootResult c l).mgmt = s.mgmt := by
  unfold State.rootResult
  split <;> simp

@[simp] theorem State.resultHere_mgmt (s : State) (c : Collective) (good : Bool) (l : Leg) : (s.resultHere c good l).mgmt = s.mgmt := by
  unfold State.resultHere
  split <;> simp

@[simp] theorem State.takeHeld_mgmt (s : State) (id : Nat) : (s.takeHeld id).mgmt = s.mgmt := by
  unfold State.takeHeld
  (repeat' split) <;> simp

@[simp] theorem State.takeEarly_mgmt (s : State) (id : Nat) : (s.takeEarly id).mgmt = s.mgmt := by
  unfold State.takeEarly
  dsimp only
  (repeat' split) <;> simp

/-! ### `coll` and `collwait` (R231 to R233) -/

@[simp] theorem State.postColl_mgmt (s : State) (grp : Nat) (w : Vector Word 8) : (s.postColl grp w).mgmt = s.mgmt := by simp [State.postColl]

@[simp] theorem execColl_mgmt (d a : Reg) (la : Fin 16) (s : State) {m : Management} (h : s.mgmt = m) : keepsMgmt m (execColl d a la s) := by
  unfold execColl
  refine keepsMgmt_ite (by simp [h]) ?_
  extract_lets u
  have hu : u.mgmt = m := by simp [u, h]
  clear_value u
  split
  · simp [hu]
  · next v _ ws _ _ =>
    extract_lets w grp g t
    have hv : v.mgmt = m := by simp [v, hu]
    have ht : t.mgmt = m := by simp [t, hv]
    clear_value v w t
    refine keepsMgmt_ite (by simp [hv]) (keepsMgmt_ite (by simp [hv]) ?_)
    simp [ht]

@[simp] theorem execCollwait_mgmt (d a : Reg) (_la : Fin 16) (s : State) {m : Management} (h : s.mgmt = m) :
    keepsMgmt m (execCollwait d a _la s) := by
  unfold execCollwait
  dsimp only
  (repeat' split) <;> simp [h]

/-! ### Events of a collective (R348, R357, R358) -/

@[simp] theorem State.collReady_mgmt (s : State) (id : Nat) : (s.collReady id).1.mgmt = s.mgmt := by
  unfold State.collReady
  split <;> simp

@[simp] theorem execCollCombine_mgmt (id level j : Nat) (legs : List LegIn) (s : State) {m : Management} (h : s.mgmt = m) :
    keepsMgmt m (execCollCombine id level j legs s) := by
  have hr := s.collReady_mgmt id
  unfold execCollCombine
  split
  · split <;> simp_all
  · (repeat' split) <;> simp_all

@[simp] theorem execCollResult_mgmt (group count : Nat) (leg : Option LegIn) (s : State) {m : Management} (h : s.mgmt = m) :
    keepsMgmt m (execCollResult group count leg s) := by
  unfold execCollResult
  dsimp only
  split
  · (repeat' split) <;> simp [h]
  · next c _ =>
    have hr := s.collReady_mgmt c.id
    (repeat' split) <;> simp_all

@[simp] theorem execCollFaultTimeout_mgmt (id : Nat) (missing : Word) (s : State) {m : Management} (h : s.mgmt = m) :
    keepsMgmt m (execCollFaultTimeout id missing s) := by
  unfold execCollFaultTimeout
  (repeat' split) <;> simp [h]

@[simp] theorem execCollCloseTimeout_mgmt (id : Nat) (s : State) {m : Management} (h : s.mgmt = m) : keepsMgmt m (execCollCloseTimeout id s) := by
  unfold execCollCloseTimeout
  (repeat' split) <;> simp [h]

@[simp] theorem State.branch_mgmt {n : Nat} (s : State) (c : Bool) (off : BitVec n) {m : Management} (h : s.mgmt = m) :
    keepsMgmt m (State.branch s c off) := by
  unfold State.branch
  split <;> simp [h]

@[simp] theorem execJalr_mgmt (d a : Reg) (imm : BitVec 16) (s : State) {m : Management} (h : s.mgmt = m) : keepsMgmt m (execJalr d a imm s) := by
  unfold execJalr
  dsimp only
  split <;> simp [h]

/-! ### MXOVF (R325) -/

@[simp] theorem State.leaveRecords_mgmt (s : State) : s.leaveRecords.mgmt = s.mgmt := by
  unfold State.leaveRecords
  split <;> rfl

@[simp] theorem execMxovf_mgmt (s : State) {m : Management} (h : s.mgmt = m) : keepsMgmt m (execMxovf s) := by
  unfold execMxovf
  split <;> simp [h]

/-! ### Fault records (R306) -/

@[simp] theorem State.closeRecord_mgmt (s : State) (f : FaultRec) : (s.closeRecord f).mgmt = s.mgmt := rfl

@[simp] theorem State.retryWaiter_mgmt (f : FaultRec) (s : State) (w : Waiter) : (State.retryWaiter f s w).mgmt = s.mgmt := by
  unfold State.retryWaiter
  dsimp only
  (repeat' split) <;> simp

@[simp] theorem State.retryRecord_mgmt (s : State) (f : FaultRec) : (s.retryRecord f).mgmt = s.mgmt := by simp [State.retryRecord]

@[simp] theorem State.denyHere_mgmt (s : State) (f : FaultRec) (va : Word) : (s.denyHere f va).mgmt = s.mgmt := by
  unfold State.denyHere
  split <;> simp

@[simp] theorem State.denyWaiter_mgmt (f : FaultRec) (s : State) (w : Waiter × Word) : (State.denyWaiter f s w).mgmt = s.mgmt := by
  unfold State.denyWaiter
  (repeat' split) <;> simp

@[simp] theorem State.denyRecord_mgmt (s : State) (f : FaultRec) : (s.denyRecord f).mgmt = s.mgmt := by simp [State.denyRecord]

@[simp] theorem execFaultReplyPoll_mgmt (n : Nat) (s : State) {m : Management} (h : s.mgmt = m) : keepsMgmt m (execFaultReplyPoll n s) := by
  unfold execFaultReplyPoll
  dsimp only
  (repeat' split) <;> simp [h]

@[simp] theorem execFaultRecordTimeout_mgmt (n : Nat) (s : State) {m : Management} (h : s.mgmt = m) : keepsMgmt m (execFaultRecordTimeout n s) := by
  unfold execFaultRecordTimeout
  (repeat' split) <;> simp [h]

/-! ### Limits (R332, R349) -/

@[simp] theorem execFewaitTimeout_mgmt (k : RankKey) (ctx : Nat) (s : State) {m : Management} (h : s.mgmt = m) :
    keepsMgmt m (execFewaitTimeout k ctx s) := by
  unfold execFewaitTimeout
  dsimp only
  (repeat' split) <;> simp [h]

@[simp] theorem State.hostUnleased_mgmt (s : State) : s.hostUnleased.mgmt = s.mgmt := by
  unfold State.hostUnleased
  (repeat' split) <;> simp

@[simp] theorem execHostAccessLeaseTimeout_mgmt (k : RankKey) (ctx : Nat) (s : State) {m : Management} (h : s.mgmt = m) :
    keepsMgmt m (execHostAccessLeaseTimeout k ctx s) := by
  unfold execHostAccessLeaseTimeout
  dsimp only
  split <;> simp [h]

/-! ### Replicated pages (R126) -/

@[simp] theorem execReplicaCommit_mgmt (s : State) {m : Management} (h : s.mgmt = m) : keepsMgmt m (execReplicaCommit s) := by
  unfold execReplicaCommit
  split <;> simp [h]

/-! ### HOSTWRITE (R342, R350) -/

@[simp] theorem State.hostWrite_mgmt (s : State) (owner off reason : Nat) (v : Word) (queue : Nat) :
    (s.hostWrite owner off reason v queue).mgmt = s.mgmt := by
  simp [State.hostWrite]

/-! ### Flushes (R105, R288) -/

@[simp] theorem State.startFlush_mgmt (s : State) (owner : Nat) : (s.startFlush owner).mgmt = s.mgmt := rfl

@[simp] theorem State.configure_mgmt (s : State) (page off : Nat) (v : Word) (f : State → Nat → State) (h : ∀ u a, (f u a).mgmt = u.mgmt) :
    (s.configure page off v f).mgmt = s.mgmt := by
  unfold State.configure
  (repeat' split) <;> simp [h]

@[simp] theorem execFlush_mgmt (page : Nat) (s : State) {m : Management} (h : s.mgmt = m) : keepsMgmt m (execFlush page s) :=
  (s.configure_mgmt page 0xB8 1 _ fun t n => t.startFlush_mgmt n).trans h

@[simp] theorem execFlushComplete_mgmt (owner : Nat) (s : State) {m : Management} (h : s.mgmt = m) : keepsMgmt m (execFlushComplete owner s) := by
  unfold execFlushComplete
  split <;> simp [h]

/-! ### Page moves (R330, R331) -/

@[simp] theorem State.startMove_mgmt (s : State) : s.startMove.mgmt = s.mgmt := by
  unfold State.startMove
  split <;> simp

@[simp] theorem State.writeMvctl_mgmt (s : State) (page : Nat) (v : Word) : (s.writeMvctl page v).mgmt = s.mgmt := by
  unfold State.writeMvctl
  (repeat' split) <;> simp

@[simp] theorem State.endMove_mgmt (s : State) : s.endMove.mgmt = s.mgmt :=
  foldl_mgmt (fun u e => by split <;> simp) _ _

@[simp] theorem execMoveCopyDone_mgmt (s : State) {m : Management} (h : s.mgmt = m) : keepsMgmt m (execMoveCopyDone s) := by
  unfold execMoveCopyDone
  split <;> simp [h]

/-! ### The end of stopped launches (R314, R315) -/

@[simp] theorem State.emptyBuffer_mgmt (s : State) (core : Nat) : (s.emptyBuffer core).mgmt = s.mgmt := by simp [State.emptyBuffer]

@[simp] theorem State.removeRanks_mgmt (s : State) (l : Nat) : (s.removeRanks l).mgmt = s.mgmt := by
  unfold State.removeRanks
  split <;> rfl

@[simp] theorem State.finishStop_mgmt (s : State) (l : Nat) : (s.finishStop l).mgmt = s.mgmt := by
  unfold State.finishStop
  dsimp only
  (repeat' split) <;> simp

/-! ### The record of a rung (R312, R314) -/

@[simp] theorem State.rungRecord_mgmt (s : State) (r : RungRun) (names : Word × Nat × Nat × Nat) : (s.rungRecord r names).mgmt = s.mgmt := by
  simp [State.rungRecord]

/-! ### Engine resets (R313, R335) -/

@[simp] theorem State.resetChannel_mgmt (s : State) (ch : Nat) (fuel : Nat) : (s.resetChannel ch fuel).mgmt = s.mgmt := by
  induction fuel generalizing s with
  | zero => rfl
  | succ n ih =>
    unfold State.resetChannel
    split <;> simp [ih]

@[simp] theorem State.emptyTarget_mgmt (s : State) (r : Rank) : (s.emptyTarget r).mgmt = s.mgmt := by
  unfold State.emptyTarget
  split <;> simp

@[simp] theorem State.resetMatrix_mgmt (s : State) (r : Rank) : (s.resetMatrix r).mgmt = s.mgmt := by
  unfold State.resetMatrix
  dsimp only
  split
  · rfl
  · refine (foldl_mgmt (fun t o => by split <;> simp) _ _).trans ((State.updRank_mgmt ..).trans ?_)
    exact (foldl_mgmt (fun t o => t.endReads_mgmt r o) _ _).trans (s.emptyTarget_mgmt r)

@[simp] theorem State.orphan_mgmt (s : State) (k : RankKey) (run slot : Nat) : (s.orphan k run slot).mgmt = s.mgmt := by simp [State.orphan]
@[simp] theorem State.dropGraph_mgmt (s : State) (r : Rank) (g : Graph) : (s.dropGraph r g).mgmt = s.mgmt := by simp [State.dropGraph]
@[simp] theorem State.resetWalker_mgmt (s : State) (core : Nat) : (s.resetWalker core).mgmt = s.mgmt := by simp [State.resetWalker]
@[simp] theorem State.dropColl_mgmt (s : State) (c : Collective) : (s.dropColl c).mgmt = s.mgmt := by simp [State.dropColl]
@[simp] theorem State.abandonNet_mgmt (s : State) (p : RankKey → Nat → Bool) : (s.abandonNet p).mgmt = s.mgmt := by simp [State.abandonNet]
@[simp] theorem State.resetNetif_mgmt (s : State) (core : Nat) : (s.resetNetif core).mgmt = s.mgmt := by simp [State.resetNetif]
@[simp] theorem State.resetMatrixOf_mgmt (s : State) (core : Nat) : (s.resetMatrixOf core).mgmt = s.mgmt := by simp [State.resetMatrixOf]

@[simp] theorem State.resetEngine_mgmt (s : State) (e : EngineTarget) : (s.resetEngine e).mgmt = s.mgmt := by
  unfold State.resetEngine
  split <;> simp

/-! ### The partition rung (R313, R316) -/

@[simp] theorem State.dropPlotLines_mgmt (s : State) (owner : Nat) : (s.dropPlotLines owner).mgmt = s.mgmt := rfl
@[simp] theorem State.replayQueues_mgmt (s : State) (owner : Nat) : (s.replayQueues owner).mgmt = s.mgmt := by simp [State.replayQueues]
@[simp] theorem State.resetPartition_mgmt (s : State) (owner : Nat) : (s.resetPartition owner).mgmt = s.mgmt := by simp [State.resetPartition]
@[simp] theorem State.startPartition_mgmt (s : State) (owner : Nat) : (s.startPartition owner).mgmt = s.mgmt := by simp [State.startPartition]
@[simp] theorem State.partitionRung_mgmt (s : State) (owner : Nat) : (s.partitionRung owner).mgmt = s.mgmt := by simp [State.partitionRung]

/-! ### The rungs as firmware starts them -/

@[simp] theorem execQueueRung_mgmt (q : Nat) (s : State) {m : Management} (h : s.mgmt = m) : keepsMgmt m (execQueueRung q s) := by
  unfold execQueueRung
  dsimp only
  (repeat' split)
  · simp [h]
  · simp [h]
  · exact (State.writeProgressOr_mgmt _ _ _ fun u => u.dropProgress_mgmt q).trans (by simp [h])

@[simp] theorem execContextRung_mgmt (t : ContextTarget) (s : State) {m : Management} (h : s.mgmt = m) : keepsMgmt m (execContextRung t s) := by
  unfold execContextRung
  (repeat' split) <;> simp [h]

@[simp] theorem execPartitionRung_mgmt (owner : Nat) (s : State) {m : Management} (h : s.mgmt = m) : keepsMgmt m (execPartitionRung owner s) := by
  unfold execPartitionRung
  split <;> simp [h]

/-! ### The end and the timeout of a rung (R313, R314) -/

@[simp] theorem State.removeHelper_mgmt (s : State) (k : RankKey) (run n : Nat) : (s.removeHelper k run n).mgmt = s.mgmt := by
  unfold State.removeHelper
  extract_lets t
  have ht : t.mgmt = s.mgmt := by
    dsimp only [t]
    split
    · exact mgmt_ite (by simp) rfl
    · rfl
  clear_value t
  exact mgmt_ite ht (mgmt_ite (mgmt_ite ht (by simp [ht])) (mgmt_ite (by simp [ht]) ht))

@[simp] theorem State.endRung_mgmt (s : State) (r : RungRun) : (s.endRung r).mgmt = s.mgmt := by
  unfold State.endRung
  (repeat' split) <;> simp

@[simp] theorem State.endStopped_mgmt (s : State) (l : Nat) : (s.endStopped l).mgmt = s.mgmt := by
  unfold State.endStopped
  split <;> simp

@[simp] theorem State.endRungs_mgmt (s : State) : s.endRungs.mgmt = s.mgmt := by simp [State.endRungs]
@[simp] theorem State.startEngines_mgmt (s : State) (es : List EngineTarget) : (s.startEngines es).mgmt = s.mgmt := by simp [State.startEngines]

/-! ### Status words and descriptors (R235) -/

theorem State.ownAnswer_mgmt (s : State) (code value : Nat) {m : Management} (h : s.mgmt = m) : ∀ q ∈ s.ownAnswer code value, q.1.mgmt = m := by
  simpa [State.ownAnswer] using h

/-! ### A core that leaves its holder (R82, R237, R250) -/

@[simp] theorem State.clearCore_mgmt (s : State) (owner core : Nat) : (s.clearCore owner core).mgmt = s.mgmt := by simp [State.clearCore]
@[simp] theorem State.freeTilesOn_mgmt (s : State) (core : Nat) : (s.freeTilesOn core).mgmt = s.mgmt := rfl
@[simp] theorem State.dropCached_mgmt (s : State) (p : Nat → Bool) : (s.dropCached p).mgmt = s.mgmt := rfl

@[simp] theorem State.setKeyGen_mgmt (s : State) (k gen : Nat) : (s.setKeyGen k gen).mgmt = s.mgmt := by
  unfold State.setKeyGen
  dsimp only
  split <;> simp

@[simp] theorem State.setMkey_mgmt (s : State) (p k : Nat) : (s.setMkey p k).mgmt = s.mgmt := by
  unfold State.setMkey
  dsimp only
  split <;> simp

@[simp] theorem State.drawKey_mgmt (s : State) (k : Nat) : (s.drawKey k).mgmt = s.mgmt := by
  unfold State.drawKey
  split <;> simp

@[simp] theorem State.passTo_mgmt (s : State) (cls idx dest : Nat) : (s.passTo cls idx dest).mgmt = s.mgmt := by
  unfold State.passTo
  dsimp only
  (repeat' split) <;> simp

@[simp] theorem State.giveTo_mgmt (s : State) (cls idx dest : Nat) : (s.giveTo cls idx dest).mgmt = s.mgmt := by
  unfold State.giveTo
  split <;> simp

/-! ### `give`, `lend`, `accept` (R236) -/

@[simp] theorem State.withdrawOffer_mgmt (s : State) (cls idx : Nat) : (s.withdrawOffer cls idx).mgmt = s.mgmt := rfl
@[simp] theorem State.offer_mgmt (s : State) (cls idx dest : Nat) (lend : Bool) (term : Nat) : (s.offer cls idx dest lend term).mgmt = s.mgmt := rfl

theorem State.giveOp_mgmt (s : State) (caller : Nat) (lend : Bool) (a b : Word) : ∀ q ∈ s.giveOp caller lend a b, q.1.mgmt = s.mgmt := by
  have ans : ∀ (t : State) (code : Nat), t.mgmt = s.mgmt → ∀ q ∈ t.ownAnswer code 0, q.1.mgmt = s.mgmt :=
    fun t code h => t.ownAnswer_mgmt code 0 h
  unfold State.giveOp
  extract_lets cls idx dest e
  refine forall_mem_ite (ans s _ rfl) (forall_mem_ite (ans s _ rfl) (forall_mem_ite (ans s _ rfl) (forall_mem_ite ?_
    (forall_mem_ite (forall_mem_ite (forall_mem_ite (by simp) ?_) (ans s _ rfl))
      (forall_mem_ite (ans s _ rfl) (forall_mem_ite (ans s _ rfl) ?_))))))
  · exact ans _ _ (by simp)
  · exact ans _ _ (by simp)
  · exact ans _ _ (by simp)

theorem State.acceptOp_mgmt (s : State) (caller : Nat) (a b : Word) : ∀ q ∈ s.acceptOp caller a b, q.1.mgmt = s.mgmt := by
  have ans : ∀ (t : State) (code : Nat), t.mgmt = s.mgmt → ∀ q ∈ t.ownAnswer code 0, q.1.mgmt = s.mgmt :=
    fun t code h => t.ownAnswer_mgmt code 0 h
  unfold State.acceptOp
  extract_lets cls idx e lentCore t
  have ht : t.mgmt = s.mgmt := by simp [t]
  clear_value t
  refine forall_mem_ite (ans s _ rfl) (forall_mem_ite (ans s _ rfl) (forall_mem_ite (ans s _ rfl) (forall_mem_ite (by simp)
    (forall_mem_ite (ans t _ ht) (ans _ _ (mgmt_ite ((State.updCore_mgmt _ _ _).trans ht) ht))))))

/-! ### Receipts (R292, R236) -/

@[simp] theorem State.writeReceipt_mgmt (s : State) (owner : Nat) (va : Word) (bytes : List Byte) :
    (s.writeReceipt owner va bytes).mgmt = s.mgmt := by
  simp [State.writeReceipt]

/-! ### Scrubs (R286) -/

@[simp] theorem State.scrubCoreOf_mgmt (s : State) (core holder : Nat) : (s.scrubCoreOf core holder).mgmt = s.mgmt := by simp [State.scrubCoreOf]
@[simp] theorem State.scrubPlotFor_mgmt (s : State) (p dest : Nat) : (s.scrubPlotFor p dest).mgmt = s.mgmt := by simp [State.scrubPlotFor]
@[simp] theorem State.scrubQueue_mgmt (s : State) (q : Nat) : (s.scrubQueue q).mgmt = s.mgmt := by simp [State.scrubQueue]

@[simp] theorem State.destroyKey_mgmt (s : State) (k : Nat) : (s.destroyKey k).mgmt = s.mgmt := by
  unfold State.destroyKey
  split <;> simp

@[simp] theorem State.scrubSlot_mgmt (s : State) (idx : Nat) : (s.scrubSlot idx).mgmt = s.mgmt := by
  unfold State.scrubSlot
  split <;> simp

@[simp] theorem State.scrubBarrier_mgmt (s : State) (ch : Nat) : (s.scrubBarrier ch).mgmt = s.mgmt := rfl

@[simp] theorem State.scrub_mgmt (s : State) (cls idx holder dest : Nat) : (s.scrub cls idx holder dest).mgmt = s.mgmt := by
  unfold State.scrub
  split <;> simp

/-! ### `reclaim` (R285, R286, R362, R363) -/

theorem State.reclaimImage_mgmt (s : State) (core holder : Nat) (r : Option Rank) : ∀ q ∈ s.reclaimImage core holder r, q.1.mgmt = s.mgmt := by
  unfold State.reclaimImage
  dsimp only
  split
  · simp
  split
  · simp
  · simp
  · next e => simpa using State.writeImage_mgmt _ _ _ _ _ e

@[simp] theorem State.loanReturned_mgmt (s : State) (core borrower lender : Nat) : (s.loanReturned core borrower lender).mgmt = s.mgmt := by
  simp [State.loanReturned]

@[simp] theorem State.withdrawCore_mgmt (s : State) (core : Nat) : (s.withdrawCore core).mgmt = s.mgmt := rfl
@[simp] theorem State.stopReclaimed_mgmt (s : State) (core l : Nat) : (s.stopReclaimed core l).mgmt = s.mgmt := by simp [State.stopReclaimed]

theorem State.takeCore_mgmt (s : State) (core borrower lender : Nat) : ∀ q ∈ s.takeCore core borrower lender, q.1.mgmt = s.mgmt := by
  unfold State.takeCore
  dsimp only
  split
  · simp
  split
  · simp
  · next t imaged e =>
    have ht : t.mgmt = s.mgmt := (State.reclaimImage_mgmt _ _ _ _ _ e).trans (by split <;> simp)
    split <;> simp [ht]

theorem State.takeBack_mgmt (s : State) (cls idx dest : Nat) : ∀ q ∈ s.takeBack cls idx dest, q.1.mgmt = s.mgmt := by
  have hc := s.takeCore_mgmt idx (s.own.entry cls idx).holder (s.own.entry cls idx).lender
  unfold State.takeBack
  dsimp only
  split
  · simp
  · next t imaged e =>
    split at e
    · simpa using hc _ e
    · simp_all

theorem State.reclaimOp_mgmt (s : State) (caller : Nat) (a b : Word) : ∀ q ∈ s.reclaimOp caller a b, q.1.mgmt = s.mgmt := by
  unfold State.reclaimOp
  extract_lets cls idx e
  refine forall_mem_ite (s.ownAnswer_mgmt _ _ rfl) (forall_mem_ite (s.ownAnswer_mgmt _ _ rfl) (forall_mem_ite (s.ownAnswer_mgmt _ _ rfl) ?_))
  split
  · simp
  · exact s.ownAnswer_mgmt _ _ rfl
  split
  · simp
  · next t imaged e =>
    exact State.ownAnswer_mgmt _ _ _ (by simpa using s.takeBack_mgmt _ _ _ _ e)

/-! ### `ownq` and `omake` (R236) -/

theorem State.ownqOp_mgmt (s : State) (caller : Nat) (a : Word) : ∀ q ∈ s.ownqOp caller a, q.1.mgmt = s.mgmt := by
  unfold State.ownqOp
  dsimp only
  (repeat' split) <;> simp [State.ownAnswer]

theorem State.omakeOp_mgmt (s : State) (caller : Nat) : ∀ q ∈ s.omakeOp caller, q.1.mgmt = s.mgmt := by
  unfold State.omakeOp
  split <;> simp [State.ownAnswer]

/-! ### `evict` (R287, R355) -/

@[simp] theorem State.passAll_mgmt (s : State) (owner dest : Nat) (l : List (Nat × Nat)) : (s.passAll owner dest l).mgmt = s.mgmt := by
  induction l generalizing s with
  | nil => rfl
  | cons q r ih => simp [State.passAll, ih]

@[simp] theorem State.returnLoans_mgmt (s : State) (owner : Nat) (l : List (Nat × Nat)) : (s.returnLoans owner l).mgmt = s.mgmt := by
  induction l generalizing s with
  | nil => rfl
  | cons q r ih => simp [State.returnLoans, ih]

theorem State.takeLoans_mgmt (s : State) (dest method : Nat) (l : List (Nat × Nat)) : ∀ q ∈ s.takeLoans dest method l, q.1.mgmt = s.mgmt := by
  induction l generalizing s method with
  | nil => simp [State.takeLoans]
  | cons p r ih =>
    unfold State.takeLoans
    split
    · simp
    · next t imaged e => exact fun q hq => (ih t _ q hq).trans (s.takeBack_mgmt _ _ _ _ e)

theorem State.evictOne_mgmt (s : State) (owner dest : Nat) : ∀ q ∈ s.evictOne owner dest, q.1.mgmt = s.mgmt := by
  unfold State.evictOne
  dsimp only
  split
  · simp
  · next t m e => simpa using State.takeLoans_mgmt _ _ _ _ _ e

theorem State.evictAll_mgmt (s : State) (dest : Nat) (l : List Nat) : ∀ q ∈ s.evictAll dest l, q.1.mgmt = s.mgmt := by
  induction l generalizing s with
  | nil => simp [State.evictAll]
  | cons o r ih =>
    unfold State.evictAll
    split
    · simp
    · next t ds m e =>
      have ht := s.evictOne_mgmt _ _ _ e
      split
      · simp
      · next u es n eu => simpa using (ih t _ eu).trans ht

theorem State.evictOp_mgmt (s : State) (caller : Nat) (a b : Word) : ∀ q ∈ s.evictOp caller a b, q.1.mgmt = s.mgmt := by
  unfold State.evictOp
  extract_lets o
  refine forall_mem_ite (s.ownAnswer_mgmt _ _ rfl) (forall_mem_ite (s.ownAnswer_mgmt _ _ rfl) ?_)
  split
  · simp
  · exact s.ownAnswer_mgmt _ _ rfl
  split
  · simp
  · next t ds m e =>
    exact State.ownAnswer_mgmt _ _ _ (by simpa using s.evictAll_mgmt _ _ _ e)

/-! ### The operations by their F codes (R234, R237) -/

theorem State.mapOp_mgmt (s : State) (caller : Nat) (f : OwnF) (a b : Word) : ∀ q ∈ s.mapOp caller f a b, q.1.mgmt = s.mgmt := by
  unfold State.mapOp
  split
  · exact s.ownAnswer_mgmt _ _ rfl
  · cases f with
    | give => exact s.giveOp_mgmt caller false a b
    | accept => exact s.acceptOp_mgmt caller a b
    | lend => exact s.giveOp_mgmt caller true a b
    | reclaim => exact s.reclaimOp_mgmt caller a b
    | ownq => exact s.ownqOp_mgmt caller a
    | omake => exact s.omakeOp_mgmt caller
    | evict => exact s.evictOp_mgmt caller a b

@[simp] theorem State.ownInsn_mgmt (s : State) (f : OwnF) (d : Reg) (a b : Word) {m : Management} (h : s.mgmt = m) :
    keepsMgmt m (s.ownInsn f d a b) := by
  have hm := s.mapOp_mgmt s.owner f a b
  unfold State.ownInsn
  (repeat' split) <;> simp_all

@[simp] theorem execGive_mgmt (d a b : Reg) (la : Fin 16) (s : State) {m : Management} (h : s.mgmt = m) : keepsMgmt m (execGive d a b la s) := by
  have hr := s.releaseReady_mgmt .dev h
  unfold execGive
  split <;> simp_all

@[simp] theorem execAccept_mgmt (d a b : Reg) (la : Fin 16) (s : State) {m : Management} (h : s.mgmt = m) : keepsMgmt m (execAccept d a b la s) := by
  have ho := s.ownInsn_mgmt .accept d (s.x a) (s.x b) h
  unfold execAccept
  split
  · next t e =>
    have ht : t.mgmt = m := by rw [e] at ho; exact ho
    split <;> simp [ht]
  · exact ho

@[simp] theorem execLend_mgmt (d a b : Reg) (la : Fin 16) (s : State) {m : Management} (h : s.mgmt = m) : keepsMgmt m (execLend d a b la s) := by
  have hr := s.releaseReady_mgmt .dev h
  unfold execLend
  split <;> simp_all

/-! ### The ownership port (R282, R288) -/

@[simp] theorem State.pageOp_mgmt (s : State) (page : Nat) (f : OwnF) : (s.pageOp page f).mgmt = s.mgmt := by
  have hm := s.mapOp_mgmt page f (s.own.ownerOr page).opA (s.own.ownerOr page).opB
  unfold State.pageOp
  dsimp only
  split <;> simp_all

@[simp] theorem State.portOp_mgmt (s : State) (page : Nat) (f : OwnF) {m : Management} (h : s.mgmt = m) : keepsMgmt m (s.portOp page f) := by
  unfold State.portOp
  split <;> simp [h]

/-! ### Queue descriptors (R244, R351) -/

@[simp] theorem State.writeDescriptor_mgmt (s : State) (q : Nat) (ix : Fin 3) (v : Word) : (s.writeDescriptor q ix v).mgmt = s.mgmt := by
  unfold State.writeDescriptor
  dsimp only
  (repeat' split) <;> simp

@[simp] theorem State.descriptorWrite_mgmt (s : State) (owner q : Nat) (ix : Fin 3) (v : Word) :
    (s.descriptorWrite owner q ix v).mgmt = s.mgmt := by
  unfold State.descriptorWrite
  dsimp only
  (repeat' split) <;> simp

@[simp] theorem execQueueDescriptorWrite_mgmt (owner q : Nat) (ix : Fin 3) (v : Word) (s : State) {m : Management} (h : s.mgmt = m) :
    keepsMgmt m (execQueueDescriptorWrite owner q ix v s) := by
  unfold execQueueDescriptorWrite
  split <;> simp [h]

/-! ### Doorbells and the lease (R245, R349, R351) -/

@[simp] theorem State.setLease_mgmt (s : State) (t : Nat) : (s.setLease t).mgmt = s.mgmt := rfl
@[simp] theorem State.leaseBack_mgmt (s : State) : s.leaseBack.mgmt = s.mgmt := by simp [State.leaseBack]
@[simp] theorem State.takeover_mgmt (s : State) (p : HostPort) (time : Nat) : (s.takeover p time).mgmt = s.mgmt := by simp [State.takeover]

@[simp] theorem State.ring_mgmt (s : State) (owner q tail : Nat) : (s.ring owner q tail).mgmt = s.mgmt := by
  unfold State.ring
  dsimp only
  (repeat' split) <;> simp

@[simp] theorem State.bellOn_mgmt (s : State) (port : HostPort) (owner q tail : Nat) : (s.bellOn port owner q tail).mgmt = s.mgmt := by
  unfold State.bellOn
  (repeat' split) <;> simp

@[simp] theorem State.doorbell_mgmt (s : State) (port : HostPort) (owner q tail : Nat) : (s.doorbell port owner q tail).mgmt = s.mgmt := by
  unfold State.doorbell
  split <;> simp

@[simp] theorem State.ringBells_mgmt (s : State) : s.ringBells.mgmt = s.mgmt := by
  unfold State.ringBells
  dsimp only
  exact foldl_mgmt (fun t b => (State.bellOn_mgmt ..).trans (by split <;> simp)) _ _

@[simp] theorem execDoorbell_mgmt (port : HostPort) (owner q tail : Nat) (s : State) {m : Management} (h : s.mgmt = m) :
    keepsMgmt m (execDoorbell port owner q tail s) := by
  unfold execDoorbell
  split <;> simp [h]

@[simp] theorem execLeaseExpire_mgmt (s : State) {m : Management} (h : s.mgmt = m) : keepsMgmt m (execLeaseExpire s) := by
  unfold execLeaseExpire
  dsimp only
  (repeat' split) <;> simp [h]

@[simp] theorem State.writeLease_mgmt (s : State) (p : HostPort) (v : Word) : (s.writeLease p v).mgmt = s.mgmt := by
  unfold State.writeLease
  (repeat' split) <;> simp

/-! ### Configuration through an ownership page (R288) -/

@[simp] theorem State.writeTroot_mgmt (s : State) (v : Word) (owner : Nat) (page : Nat) : (s.writeTroot v owner page).mgmt = s.mgmt := by
  unfold State.writeTroot
  dsimp only
  split <;> simp

@[simp] theorem State.writeMkeyid_mgmt (s : State) (v : Word) (owner : Nat) (page : Nat) : (s.writeMkeyid v owner page).mgmt = s.mgmt := by
  unfold State.writeMkeyid
  split <;> simp

@[simp] theorem State.setVf_mgmt (s : State) (v : VFunc) : (s.setVf v).mgmt = s.mgmt := rfl

@[simp] theorem State.writeVfset_mgmt (s : State) (v : Word) (owner : Nat) (page : Nat) : (s.writeVfset v owner page).mgmt = s.mgmt := by
  unfold State.writeVfset
  dsimp only
  split <;> simp

@[simp] theorem State.writeEnrol_mgmt (s : State) (v : Word) (owner : Nat) (page : Nat) : (s.writeEnrol v owner page).mgmt = s.mgmt := by
  unfold State.writeEnrol
  dsimp only
  split <;> simp

@[simp] theorem State.writePlotkey_mgmt (s : State) (v : Word) (owner : Nat) (page : Nat) : (s.writePlotkey v owner page).mgmt = s.mgmt := by
  unfold State.writePlotkey
  dsimp only
  split <;> simp

/-! ### Attestation (R291) -/

@[simp] theorem State.signReport_mgmt (s : State) (va : Word) : (s.signReport va).mgmt = s.mgmt := by simp [State.signReport]

/-! ### Multicast records (R274, R288) -/

@[simp] theorem State.writeMcrec_mgmt (s : State) (page off : Nat) (v : Word) : (s.writeMcrec page off v).mgmt = s.mgmt := by
  unfold State.writeMcrec
  dsimp only
  split <;> simp

@[simp] theorem execMcrecWrite_mgmt (page off : Nat) (v : Word) (s : State) {m : Management} (h : s.mgmt = m) :
    keepsMgmt m (execMcrecWrite page off v s) := by
  unfold execMcrecWrite
  split <;> simp [h]

/-! ### Registers without a behaviour of their own (R281, R282, R288) -/

@[simp] theorem State.pageCommand_mgmt (s : State) (page : Nat) (v : Word) : (s.pageCommand page v).mgmt = s.mgmt := by
  unfold State.pageCommand
  (repeat' split) <;> simp

@[simp] theorem State.updLog_mgmt (s : State) (f : LogState → LogState) : (s.updLog f).mgmt = s.mgmt := rfl
@[simp] theorem State.updOwn_mgmt (s : State) (page : Nat) (f : OwnerRec → OwnerRec) : (s.updOwn page f).mgmt = s.mgmt := rfl

@[simp] theorem State.writePf_mgmt (s : State) (p : HostPort) (off : Nat) (v : Word) : (s.writePf p off v).mgmt = s.mgmt := by
  unfold State.writePf
  dsimp only
  (repeat' split) <;> simp

@[simp] theorem State.vfOp_mgmt (s : State) (f : VFunc) (op : OwnF) : (s.vfOp f op).mgmt = s.mgmt := by
  have hm := s.mapOp_mgmt f.owner op f.opA f.opB
  unfold State.vfOp
  split <;> simp_all

@[simp] theorem State.vfCommand_mgmt (s : State) (f : VFunc) (v : Word) : (s.vfCommand f v).mgmt = s.mgmt := by
  unfold State.vfCommand
  (repeat' split) <;> simp

@[simp] theorem State.retryOps_mgmt (s : State) : s.retryOps.mgmt = s.mgmt := by
  unfold State.retryOps
  dsimp only
  exact (foldl_mgmt (fun t f => by (repeat' split) <;> simp) _ _).trans (foldl_mgmt (fun t r => by (repeat' split) <;> simp) _ _)

@[simp] theorem State.writeVf_mgmt (s : State) (n off : Nat) (v : Word) : (s.writeVf n off v).mgmt = s.mgmt := by
  unfold State.writeVf
  dsimp only
  (repeat' split) <;> simp

/-! ### VF Enable (R281, R352) -/

@[simp] theorem State.setVfEnable_mgmt (s : State) (p : HostPort) (on : Bool) : (s.setVfEnable p on).mgmt = s.mgmt := rfl
@[simp] theorem State.loseVfs_mgmt (s : State) (owner count : Nat) : (s.loseVfs owner count).mgmt = s.mgmt := by simp [State.loseVfs]

@[simp] theorem State.disableOwner_mgmt (s : State) (owner count : Nat) : (s.disableOwner owner count).mgmt = s.mgmt := by
  unfold State.disableOwner
  dsimp only
  split <;> simp

@[simp] theorem State.endLosing_mgmt (s : State) : s.endLosing.mgmt = s.mgmt :=
  foldl_mgmt (fun t q => by dsimp only; (repeat' split) <;> simp) _ _

/-! ### CXL.mem (R280, R350) -/

@[simp] theorem State.cxlRecord_mgmt (s : State) (n reason : Nat) (addr : Word) : (s.cxlRecord n reason addr).mgmt = s.mgmt := by
  unfold State.cxlRecord
  dsimp only
  (repeat' split) <;> simp

theorem State.cxlRead_mgmt (s : State) (vf : Nat) (addr : Word) : ∀ t ∈ s.cxlRead vf addr, t.mgmt = s.mgmt := by
  unfold State.cxlRead
  dsimp only
  split <;> simp

theorem State.cxlWrite_mgmt (s : State) (vf : Nat) (addr v : Word) : ∀ t ∈ s.cxlWrite vf addr v, t.mgmt = s.mgmt := by
  unfold State.cxlWrite
  dsimp only
  split <;> simp

theorem State.cxlAccess_mgmt (s : State) (vf : Nat) (addr : Word) (d : Option Word) : ∀ t ∈ s.cxlAccess vf addr d, t.mgmt = s.mgmt := by
  cases d with
  | none => exact s.cxlRead_mgmt vf addr
  | some v => exact s.cxlWrite_mgmt vf addr v

@[simp] theorem State.cxlArrive_mgmt (s : State) (vf : Nat) (addr : Word) (data : Option Word) {m : Management} (h : s.mgmt = m) :
    keepsMgmt m (s.cxlArrive vf addr data) := by
  subst h
  unfold State.cxlArrive
  dsimp only
  split
  · simp
  split
  · simp
  · exact getD_mgmt (s.cxlAccess_mgmt vf addr data) rfl

/-! ### Arbiters (R253) -/

theorem State.depart_mgmt (s : State) (c : Cargo) : ∀ t ∈ s.depart c, t.mgmt = s.mgmt := by
  unfold State.depart
  split
  · (repeat' split) <;> simp
  · simp
  · simp
  · exact s.cxlAccess_mgmt _ _ _

theorem State.grant_mgmt (s : State) (c : Claim) : ∀ t ∈ s.grant c, t.mgmt = s.mgmt := by
  unfold State.grant
  split
  · simp
  · exact State.depart_mgmt _ _

@[simp] theorem execArbiterGrant_mgmt (arb : Nat) (s : State) {m : Management} (h : s.mgmt = m) : keepsMgmt m (execArbiterGrant arb s) := by
  unfold execArbiterGrant
  dsimp only
  (repeat' split)
  · simp [h]
  · simp [h]
  · exact getD_mgmt (fun t ht => (State.grant_mgmt _ _ t ht).trans (by simp [h])) (by simp [h])

/-! ### The access log (R293, R294) -/

@[simp] theorem State.appendLog_mgmt (s : State) (va : Word) (bytes : List Byte) : (s.appendLog va bytes).mgmt = s.mgmt := by
  simp [State.appendLog]

@[simp] theorem State.putLog_mgmt (s : State) (bytes : List Byte) : (s.putLog bytes).mgmt = s.mgmt := by
  unfold State.putLog
  split <;> simp

@[simp] theorem execAccessLogInterval_mgmt (s : State) {m : Management} (h : s.mgmt = m) : keepsMgmt m (execAccessLogInterval s) := by
  unfold execAccessLogInterval
  dsimp only
  split <;> simp [h]

/-- The definition is unfolded as a function: applied to a state, it would have the kernel evaluate its test on the time. -/
@[simp] theorem execLogSeal_mgmt (s : State) {m : Management} (h : s.mgmt = m) : keepsMgmt m (execLogSeal s) := by
  generalize hf : execLogSeal = f
  delta execLogSeal at hf
  subst hf
  dsimp only
  generalize (if s.time < s.log.sealAt + 1000000 then none else s.logPlace _) = place
  cases place with
  | none => exact h
  | some va =>
    rw [keepsMgmt_next, State.updLog_mgmt, State.appendLog_mgmt]
    exact h

/-! ### The scriptorium (R24, R130, R354) -/

@[simp] theorem State.scriptStore_mgmt (s : State) (owner : Nat) (va : Word) (bs : List Byte) : (s.scriptStore owner va bs).mgmt = s.mgmt := by
  unfold State.scriptStore
  split <;> simp

@[simp] theorem State.scriptRelease_mgmt (s : State) (rl : Bool) : (s.scriptRelease rl).mgmt = s.mgmt := by
  unfold State.scriptRelease
  split <;> rfl

@[simp] theorem State.scriptLoad_mgmt (s : State) (owner : Nat) (va : Word) (bytes : Nat) : (s.scriptLoad owner va bytes).mgmt = s.mgmt := by
  simp [State.scriptLoad]

@[simp] theorem State.scriptAccess_mgmt (s : State) (a : ScrAccess) : (s.scriptAccess a).mgmt = s.mgmt := by
  unfold State.scriptAccess
  dsimp only
  (repeat' split) <;> simp

@[simp] theorem execScriptoriumAccess_mgmt (a : ScrAccess) (s : State) {m : Management} (h : s.mgmt = m) :
    keepsMgmt m (execScriptoriumAccess a s) := by
  unfold execScriptoriumAccess
  dsimp only
  (repeat' split) <;> simp [h]

@[simp] theorem State.scrRecord_mgmt (s : State) (dest line reason owner : Nat) : (s.scrRecord dest line reason owner).mgmt = s.mgmt := by
  simp [State.scrRecord]

@[simp] theorem State.loseLine_mgmt (s : State) (line : Nat) : (s.loseLine line).mgmt = s.mgmt := by
  unfold State.loseLine
  split <;> rfl

/-! ### Shared operations -/

@[simp] theorem State.putLanes_mgmt (s : State) (d : VField) (pg : Fin 8) (w : Nat) (v : List Nat) : (s.putLanes d pg w v).mgmt = s.mgmt := by
  simp [State.putLanes]

@[simp] theorem State.putAll_mgmt (s : State) (d : VField) (v : VReg) : (s.putAll d v).mgmt = s.mgmt := by simp [State.putAll]

@[simp] theorem State.vecInt_mgmt (s : State) (i : Instr) (d a b : VField) (pg : Fin 8) (t : ElemType)
    (f : (w : Nat) → BitVec w → BitVec w → BitVec w) {m : Management} (h : s.mgmt = m) : keepsMgmt m (s.vecInt i d a b pg t f) := by
  simp [State.vecInt, h]

@[simp] theorem State.putCompare_mgmt (s : State) (d pg : Fin 8) (w : Nat) (cs : List Bool) : (s.putCompare d pg w cs).mgmt = s.mgmt := by
  simp [State.putCompare]

@[simp] theorem State.vecCmp_mgmt (s : State) (i : Instr) (d : Fin 8) (a b : VField) (pg : Fin 8) (t : ElemType)
    (f : (w : Nat) → BitVec w → BitVec w → Bool) {m : Management} (h : s.mgmt = m) : keepsMgmt m (s.vecCmp i d a b pg t f) := by
  simp [State.vecCmp, h]

@[simp] theorem State.vecFp_mgmt (s : State) (i : Instr) (srcs : List VField) (d : VField) (old : Bool) (pg : Fin 8) (t : ElemType)
    (f : FpFmt → (rm x y z : Nat) → FpRes) {m : Management} (h : s.mgmt = m) : keepsMgmt m (s.vecFp i srcs d old pg t f) := by
  simp [State.vecFp, h]

@[simp] theorem State.vecFpCmp_mgmt (s : State) (i : Instr) (d : Fin 8) (a b : VField) (pg : Fin 8) (t : ElemType) (f : Fp → Fp → Bool × BitVec 5)
    {m : Management} (h : s.mgmt = m) : keepsMgmt m (s.vecFpCmp i d a b pg t f) := by
  simp [State.vecFpCmp, h]

@[simp] theorem State.vecConv_mgmt (s : State) (i : Instr) (srcs : List VField) (d : VField) (old : Bool) (f : List VReg → VReg × BitVec 5)
    {m : Management} (h : s.mgmt = m) : keepsMgmt m (s.vecConv i srcs d old f) := by
  simp [State.vecConv, h]

/-! ### Opcode 0x23: conversions and packs (R174, R175) -/

@[simp] theorem execVcvtF32Bf16_mgmt (d a : Reg) (h : Fin 2) (s : State) {m : Management} (hs : s.mgmt = m) :
    keepsMgmt m (execVcvtF32Bf16 d a h s) := by
  simp [execVcvtF32Bf16, hs]

@[simp] theorem execVunpkLb4_mgmt (d a : Reg) (h : Fin 4) (s : State) {m : Management} (hs : s.mgmt = m) :
    keepsMgmt m (execVunpkLb4 d a h s) := by
  simp [execVunpkLb4, hs]

@[simp] theorem execVunpkE4m3_mgmt (d a : Reg) (h : Fin 4) (s : State) {m : Management} (hs : s.mgmt = m) :
    keepsMgmt m (execVunpkE4m3 d a h s) := by
  simp [execVunpkE4m3, hs]

@[simp] theorem execVunpkE5m2_mgmt (d a : Reg) (h : Fin 4) (s : State) {m : Management} (hs : s.mgmt = m) :
    keepsMgmt m (execVunpkE5m2 d a h s) := by
  simp [execVunpkE5m2, hs]

/-! ### Opcode 0x24: permutes (R176) -/

@[simp] theorem State.vecPerm_mgmt (s : State) (i : Instr) (srcs : List VField) (d : VField) (pg : Fin 8) (t : ElemType)
    (f : (n : Nat) → (a b : List Nat) → Nat → Nat) {m : Management} (h : s.mgmt = m) : keepsMgmt m (s.vecPerm i srcs d pg t f) := by
  simp [State.vecPerm, h]

/-! ### Opcode 0x26: reductions (R77, R177) -/

@[simp] theorem State.reduceInt_mgmt (s : State) (i : Instr) (d : Reg) (a : VField) (pg : Fin 8) (t : ElemType) (identity : (w : Nat) → BitVec w)
    (op : (w : Nat) → BitVec w → BitVec w → BitVec w) {m : Management} (h : s.mgmt = m) : keepsMgmt m (s.reduceInt i d a pg t identity op) := by
  simp [State.reduceInt, h]

@[simp] theorem State.reduceFp_mgmt (s : State) (i : Instr) (d : Reg) (a : VField) (pg : Fin 8) (t : ElemType) (identity : Nat)
    (op : Nat → Nat → FpRes) {m : Management} (h : s.mgmt = m) : keepsMgmt m (s.reduceFp i d a pg t identity op) := by
  simp [State.reduceFp, h]

/-! ### Opcode 0x25: predicates (R178 to R180) -/

@[simp] theorem State.putMask_mgmt (s : State) (d : Fin 8) (k : Mask) {m : Management} (h : s.mgmt = m) : keepsMgmt m (s.putMask d k) := by
  simp [State.putMask, h]

/-! ### Lookahead windows (R50, R51) -/

@[simp] theorem State.renew_mgmt (s : State) (w : Window) : (s.renew w).mgmt = s.mgmt := by
  unfold State.renew
  dsimp only
  (repeat' split) <;> simp

@[simp] theorem State.windowsAt_mgmt (s : State) (i : Instr) : (s.windowsAt i).mgmt = s.mgmt := by
  unfold State.windowsAt
  split <;> simp

@[simp] theorem State.storeWindows_mgmt (s : State) (i : Instr) : (s.storeWindows i).mgmt = s.mgmt := by
  unfold State.storeWindows
  split <;> rfl

/-! ### Turns -/

@[simp] theorem State.passTime_mgmt (s : State) (c : Nat) : (s.passTime c).mgmt = s.mgmt := rfl
@[simp] theorem State.passLinks_mgmt (s : State) : s.passLinks.mgmt = s.mgmt := by simp [State.passLinks]

/-! ### The limits (R31) -/

/-- The limits at or below their ceilings, and duty from half to full. -/
def Management.within (m : Management) : Prop :=
  m.drawLimit ≤ 3200 ∧ m.tempLimit ≤ Config.temperatureCeiling ∧ 8 ≤ m.duty ∧ m.duty ≤ 16

theorem State.powerWithin_iff (s : State) : s.powerWithin = true ↔ s.mgmt.within := by
  simp [State.powerWithin, Management.within, and_assoc]

/-- The state an outcome goes on in is within the limits. -/
def goesOnWithin : Out → Prop
  | .next t => t.mgmt.within
  | .fault _ | .refused _ => True

theorem goesOnWithin_next (t : State) : goesOnWithin (.next t) ↔ t.mgmt.within := Iff.rfl

theorem keepsMgmt.goesOnWithin {m : Management} {o : Out} (h : keepsMgmt m o) (hm : m.within) : goesOnWithin o := by
  cases o with
  | next t =>
    rw [goesOnWithin_next, show t.mgmt = m from h]
    exact hm
  | fault _ => trivial
  | refused _ => trivial

/-- A function that leaves the module within the limits wherever it is within them. -/
def staysWithin (f : State → Out) : Prop := ∀ s : State, s.mgmt.within → goesOnWithin (f s)

theorem staysWithin_of_keepsMgmt {f : State → Out} (h : ∀ s, keepsMgmt s.mgmt (f s)) : staysWithin f :=
  fun s hs => (h s).goesOnWithin hs

theorem staysWithin_of_mgmt {f : State → State} (h : ∀ s, (f s).mgmt = s.mgmt) : staysWithin fun s => .next (f s) :=
  fun s hs => by
    show (f s).mgmt.within
    rw [h]
    exact hs

/-! ### What writes the limiter's registers (R31, log 14), and the restarts of the device (R297, R314) -/

theorem execPowerLimitWrite_staysWithin (which : PowerLimit) (v : Nat) : staysWithin (execPowerLimitWrite which v) := by
  intro s ⟨hd, ht, lo, hi⟩
  cases which with
  | draw => exact ⟨Nat.min_le_right v 3200, ht, lo, hi⟩
  | temperature => exact ⟨hd, Nat.min_le_right v _, lo, hi⟩

theorem execPowerMeasure_staysWithin (draw temp : Nat) : staysWithin (execPowerMeasure draw temp) := by
  intro s ⟨hd, ht, lo, hi⟩
  have down : Nat.max 8 (s.mgmt.duty - 1) = max 8 (s.mgmt.duty - 1) := rfl
  have up : Nat.min 16 (s.mgmt.duty + 1) = min 16 (s.mgmt.duty + 1) := rfl
  refine ⟨hd, ht, ?_, ?_⟩
  · dsimp only
    rw [down, up]
    split <;> omega
  · dsimp only
    rw [down, up]
    split <;> omega

/-- Reset and a restart leave the limits at their ceilings and duty full. -/
theorem State.restart_within (s : State) (stage : Nat) (measured : Vector (BitVec 256) 8) : (s.restart stage measured).mgmt.within :=
  ⟨Nat.le_refl 3200, Nat.le_refl _, show 8 ≤ 16 by decide, Nat.le_refl 16⟩

theorem State.deviceRung_within (s : State) : s.deviceRung.mgmt.within := State.restart_within ..

theorem execDeviceRung_staysWithin : staysWithin execDeviceRung := fun s _ => s.deviceRung_within

theorem State.bringUpStep_within (s : State) (step : Nat) (h : s.mgmt.within) : (s.bringUpStep step).mgmt.within := by
  unfold State.bringUpStep
  split <;> exact h

theorem execBringUp_staysWithin : staysWithin execBringUp := by
  intro s h
  unfold execBringUp
  split
  · exact h
  extract_lets step q
  split
  · exact State.bringUpStep_within _ _ h
  · exact h

theorem State.escalate_within (s : State) (r : RungRun) (h : s.mgmt.within) : (s.escalate r).mgmt.within := by
  unfold State.escalate
  extract_lets owner
  split
  case h_8 => exact s.deviceRung_within
  case h_9 => exact State.restart_within ..
  all_goals simpa using h

theorem execRungTimeout_staysWithin (n : Nat) : staysWithin (execRungTimeout n) := by
  intro s h
  unfold execRungTimeout
  split
  · exact h
  split
  · exact h
  · exact State.escalate_within _ _ (by simpa using h)

theorem execScrcache_staysWithin (line : Nat) (dirty : Bool) : staysWithin (execScrcache line dirty) := by
  intro s h
  unfold execScrcache
  extract_lets a p
  split
  · exact h
  split
  · rw [goesOnWithin_next]
    simpa using h
  split
  · rw [goesOnWithin_next]
    simpa using s.deviceRung_within
  · rw [goesOnWithin_next, State.scrRecord_mgmt, State.startPartition_mgmt]
    show (s.loseLine a).mgmt.within
    rw [State.loseLine_mgmt]
    exact h

/-! ### What else the management core keeps (R27, R296, R356) -/

theorem State.writeAttest_within (s : State) (v : Word) (h : s.mgmt.within) : (s.writeAttest v).mgmt.within := by
  unfold State.writeAttest
  extract_lets va
  split
  · split
    · simpa using h
    · exact h
  · exact h
  · exact h

theorem State.retryAttests_within (s : State) (h : s.mgmt.within) : s.retryAttests.mgmt.within := by
  have all : ∀ (l : List Word) (t : State), t.mgmt.within → (l.foldl State.writeAttest t).mgmt.within := by
    intro l
    induction l with
    | nil => exact fun t ht => ht
    | cons v r ih => exact fun t ht => ih _ (t.writeAttest_within v ht)
  exact all _ _ h

theorem execAttest_staysWithin (page : Nat) (v : Word) : staysWithin (execAttest page v) := by
  intro s h
  unfold execAttest
  rw [goesOnWithin_next]
  split
  · exact h
  · exact s.writeAttest_within v h

theorem State.writePageOne_within (s : State) (off : Nat) (v : Word) (h : s.mgmt.within) : (s.writePageOne off v).mgmt.within := by
  unfold State.writePageOne
  split
  case h_1 => exact s.writeAttest_within v h
  all_goals simpa using h

theorem State.writePage_within (s : State) (page off : Nat) (v : Word) (h : s.mgmt.within) : (s.writePage page off v).mgmt.within := by
  unfold State.writePage
  split
  case h_20 =>
    split
    · simpa using h
    split
    · exact s.writePageOne_within off v h
    · exact h
  case h_10 | h_11 | h_12 =>
    rw [State.configure_mgmt _ _ _ _ _ fun t o => t.updOwn_mgmt o _]
    exact h
  case h_15 =>
    rw [State.configure_mgmt]
    · exact h
    · exact fun t o => by split <;> simp
  all_goals simpa using h

theorem execRegisterWrite_staysWithin (sp : RegSpace) (off : Nat) (v : Word) : staysWithin (execRegisterWrite sp off v) := by
  intro s h
  unfold execRegisterWrite
  split
  · exact h
  · cases sp with
    | page o =>
      rw [goesOnWithin_next]
      split
      · exact s.writePage_within o off v h
      · exact h
    | pf p =>
      rw [goesOnWithin_next]
      simpa using h
    | vf n =>
      rw [goesOnWithin_next]
      simpa using h

theorem State.spdmAnswer_goesOnWithin (s : State) (bytes : List Byte) (h : s.mgmt.within) : goesOnWithin (s.spdmAnswer bytes) := by
  unfold State.spdmAnswer
  split <;> exact h

theorem execNegotiateAlgorithms_staysWithin : staysWithin execNegotiateAlgorithms := by
  intro s h
  refine State.spdmAnswer_goesOnWithin _ _ ?_
  show Management.within (if _ then _ else _)
  split <;> exact h

theorem execFwbound_staysWithin (a : FwAttempt) : staysWithin (execFwbound a) := by
  intro s h
  cases a with
  | memory write addr =>
    simp only [execFwbound, goesOnWithin_next]
    split
    · exact h
    · cases write
      all_goals
        rw [State.fwRecord_mgmt]
        exact h
  | classTraffic port bytes =>
    simp only [execFwbound]
    split
    · exact h
    split
    · exact h
    · rw [goesOnWithin_next]
      split
      · simpa using h
      · exact h
  | hostDma addr =>
    simp only [execFwbound]
    split
    · exact h
    · rw [goesOnWithin_next]
      simpa using h
  | bind slot b =>
    simp only [execFwbound]
    split
    · rw [goesOnWithin_next]
      simpa using h
    · exact h

/-! ### Every instruction and step (R31) -/

/-- An instruction that may stand in a solo pair means what it means there. -/
theorem exec_keepsMgmt_of_soloBody {i : Instr} {d : Reg} (h : soloBody i = some (d, exec i)) (s : State) : keepsMgmt s.mgmt (exec i s) :=
  soloBody_mgmt h s

/-- Every instruction and every step of the machine or of an outside party leaves the module within the limits: most leave the whole
management core as it is. -/
theorem exec_staysWithin (i : Instr) : staysWithin (exec i) := by
  cases i
  case powerLimitWrite which v => exact execPowerLimitWrite_staysWithin which v
  case powerMeasure draw temp => exact execPowerMeasure_staysWithin draw temp
  case deviceRung => exact execDeviceRung_staysWithin
  case rungTimeout n => exact execRungTimeout_staysWithin n
  case scrcache line dirty => exact execScrcache_staysWithin line dirty
  case attest page v => exact execAttest_staysWithin page v
  case registerWrite sp off v => exact execRegisterWrite_staysWithin sp off v
  case fwbound a => exact execFwbound_staysWithin a
  case negotiateAlgorithms => exact execNegotiateAlgorithms_staysWithin
  case bringUp => exact execBringUp_staysWithin
  case getVersion | getCapabilities | getDigests | getCertificate | challenge | getMeasurements => exact fun s h => s.spdmAnswer_goesOnWithin _ h
  case add | sub | and | or | xor | andn | orn | sll | srl | sra | rol | ror | slt | sltu | min | max | minu | maxu | mul | mulh | mulhu |
      mulhsu | div | divu | rem | remu | clz | ctz | popc | sextb | sexth | sextw | zextw | bswap | csel | addw | subw | sllw | srlw | sraw |
      mulw | divw | divuw | remw | remuw | addi | andi | ori | xori | slti | sltiu | slli | srli | srai | rori | lhi | lsh | adr | ldB | ldH |
      ldW | ldD | ldBu | ldHu | ldWu | ldo | amoSwap | amoAdd | amoAnd | amoOr | amoXor | amoMin | amoMax | amoMinu | amoMaxu | amoCas |
      amoFadd | crr =>
    exact staysWithin_of_keepsMgmt fun s => exec_keepsMgmt_of_soloBody rfl s
  case stB | stH | stW | stD | sto | fence | xfence | ifence =>
    exact staysWithin_of_keepsMgmt fun s => by simp [exec, execStB, execStH, execStW, execStD]
  case tal | tfree | tseal | trel | tstat | tileClearEnd | cpstat =>
    exact staysWithin_of_keepsMgmt fun s => by simp [exec, execTstat, execCpstat]
  case cpin | cpout | cpg | cpx | copyStart | copyChunkEnd | tileReadsEnd =>
    exact staysWithin_of_keepsMgmt fun s => by simp [exec, execCpin, execCpout, execCpg]
  case lnch | lwait | rankEnd | launchComplete | deadlinePassed | clusterTileEndFree =>
    exact staysWithin_of_keepsMgmt fun s => by simp [exec]
  case mxg | mxr | mstat | mwld | mwswap | mmul | mzero | mzdrn | drainEnd | matrixOpStart | pairCycle | matrixOpEnd =>
    exact staysWithin_of_keepsMgmt fun s => by simp [exec, execMxg, execMxr, execMstat, execMwld, execMwswap, execMzero, execMzdrn]
  case tgpost | tgwait | tgstat | graphNodeStart | graphNodeFinish =>
    exact staysWithin_of_keepsMgmt fun s => by simp [exec, execTgstat]
  case vld | vst | vgather | vscatter | vldt | vstt | sbind | sunbind | sstat =>
    exact staysWithin_of_keepsMgmt fun s => by simp [exec, execVld, execVst, execVgather, execVscatter]
  case crw | crs | crc | trap | tret | brk | halt | wfe | nop | haltGroupStop | debugStop | debugResume =>
    exact staysWithin_of_keepsMgmt fun s => by simp [exec, execCrw, execCrs, execCrc, execTrap, execHalt, execNop]
  case solo =>
    exact staysWithin_of_keepsMgmt fun s => by simp [exec]
  case rankResume | bindRecordWrite | bindRecordDeferred | coreVacate | launchPlace =>
    exact staysWithin_of_keepsMgmt fun s => by simp [exec, execRankResume, execBindRecordDeferred]
  case msnd | msnds | mcommit | mabort | mrcv | mpeek | messageDeliver | barArrive | barWait | barVote | arrivalCounted | barrierRelease |
      hstart | hjoin | hexit | hstat =>
    exact staysWithin_of_keepsMgmt fun s => by simp [exec, execMabort, execHstat]
  case remoteCompletion | remoteDeadline | packetResend | remoteRequest | packetDeliver | atomicMerge | atomicMergeTimeout | lossyBlockArrive |
      lossyClose | flitReceive | replayRequest | linkOutOfService | spareRetrain | timeFlit =>
    exact staysWithin_of_keepsMgmt fun s => by simp [exec]
  case stmc | packetInject | stmcReply | stmcAckTimeout | coll | collwait | collCombine | collResult | collFaultTimeout | collHeldDiscard |
      collCloseTimeout =>
    exact staysWithin_of_keepsMgmt fun s => by simp [exec, execCollHeldDiscard]
  case beq | bne | blt | bge | bltu | bgeu | jal | j | jalr | bes =>
    exact staysWithin_of_keepsMgmt fun s => by simp [exec, execBeq, execBne, execBlt, execBge, execBltu, execBgeu, execJal, execJ, execBes]
  case mxovf | faultReplyPoll | faultRecordTimeout | fewaitTimeout | hostAccessLeaseTimeout =>
    exact staysWithin_of_keepsMgmt fun s => by simp [exec]
  case replicaCommit | flush | flushComplete | moveStart | moveDoneClear | moveCopyDone =>
    exact staysWithin_of_keepsMgmt fun s => by simp [exec, execMoveStart, execMoveDoneClear]
  case queueRung | contextRung | engineRung | partitionRung =>
    exact staysWithin_of_keepsMgmt fun s => by simp [exec, execEngineRung]
  case give | accept | lend | reclaim | ownq | omake | evict | portGive | portAccept | portLend | portReclaim | portOwnq | portOmake |
      portEvict =>
    exact staysWithin_of_keepsMgmt fun s => by simp [exec, execReclaim, execOwnq, execOmake, execEvict, execPortGive, execPortAccept,
      execPortLend, execPortReclaim, execPortOwnq, execPortOmake, execPortEvict]
  case queueDescriptorWrite | doorbell | leaseExpire | leaseexpWrite | trootWrite | mkeyidWrite | vfset | enrol | plotkey | mcrecWrite |
      vfEnableSet | vfEnableClear | cxlMemRead | cxlMemWrite =>
    exact staysWithin_of_keepsMgmt fun s => by simp [exec, execLeaseexpWrite, execTrootWrite, execMkeyidWrite, execVfset, execEnrol,
      execPlotkey, execVfEnableSet, execVfEnableClear, execCxlMemRead, execCxlMemWrite]
  case arbiterGrant | accessLogInterval | logSeal | scriptoriumAccess =>
    exact staysWithin_of_keepsMgmt fun s => by simp [exec]
  case vadd | vsub | vmul | vmulh | vmulhu | vmin | vmax | vminu | vmaxu | vand | vor | vxor | vsll | vsrl | vsra | vabs | vcmpeq | vcmplt |
      vcmpltu | vfadd | vfsub | vfmul | vfma | vfms | vfnma | vfmin | vfmax | vfdiv | vfsqrt | vfrcp | vfrsq | vfexp2 | vflog2 | vfabs | vfneg |
      vfcmpeq | vfcmplt | vfcmple | vfcmpun | vresc | vcvtF32I32 | vcvtI32F32 | vcvtBf16F32 | vcvtF32Bf16 | vpackLb4 | vunpkLb4 | vpackE4m3 |
      vpackE5m2 | vunpkE4m3 | vunpkE5m2 | vbcast | vext | vins | vperm | vslup | vsldn | vzip | vunzip | vrev | vsel | vmov | vredadd |
      vredmax | vredmin | vfredadd | vfredmax | pand | por | pxor | pandn | pnot | pset | pcnt | pfirst | pldm | pmovx | pmovp =>
    exact staysWithin_of_keepsMgmt fun s => by simp [exec, execVadd, execVsub, execVmul, execVmulh, execVmulhu, execVmin, execVmax, execVminu,
      execVmaxu, execVand, execVor, execVxor, execVsll, execVsrl, execVsra, execVabs, execVcmpeq, execVcmplt, execVcmpltu, execVfadd, execVfsub,
      execVfmul, execVfma, execVfms, execVfnma, execVfmin, execVfmax, execVfdiv, execVfsqrt, execVfrcp, execVfrsq, execVfexp2, execVflog2,
      execVfabs, execVfneg, execVfcmpeq, execVfcmplt, execVfcmple, execVfcmpun, execVresc, execVcvtF32I32, execVcvtI32F32, execVcvtBf16F32,
      execVpackLb4, execVpackE4m3, execVpackE5m2, execVbcast, execVext, execVins, execVperm, execVslup, execVsldn, execVzip, execVunzip,
      execVrev, execVsel, execVmov, execVredadd, execVredmax, execVredmin, execVfredadd, execVfredmax, execPand, execPor, execPxor, execPandn,
      execPnot, execPset, execPcnt, execPfirst, execPldm, execPmovx, execPmovp]

/-! ### A turn -/

/-- The meaning of a fetched word. -/
theorem State.run_goesOnWithin (s : State) (w : Nat) (h : s.mgmt.within) : goesOnWithin (s.run w) := by
  unfold State.run
  split
  · rw [goesOnWithin_next]
    simpa using h
  · next i _ =>
    refine exec_staysWithin i _ ?_
    split
    · simpa using h
    · exact h

theorem State.issue_goesOnWithin (s : State) (h : s.mgmt.within) : goesOnWithin s.issue := by
  unfold State.issue
  split
  · rw [goesOnWithin_next]
    simpa using h
  extract_lets u
  have hu : u.mgmt = s.mgmt := s.leaveRecords_mgmt
  have hf := State.fetch_mgmt { u with cx := { u.cx with pair := false } } u.cx.pc hu
  split
  · rw [goesOnWithin_next]
    simpa [hu] using h
  split
  · next t e =>
    rw [goesOnWithin_next, hf.early e]
    exact h
  · next t w e =>
    refine State.run_goesOnWithin _ w ?_
    rw [show t.mgmt = s.mgmt from hf.whole e]
    exact h

theorem State.act_staysWithin (u : Turn) : staysWithin fun s => s.act u := by
  intro s h
  unfold State.act
  cases u with
  | event i =>
    dsimp only
    split
    · exact exec_staysWithin i s h
    · exact h
  | issue k run n =>
    dsimp only
    split
    · exact h
    · next t ht =>
      have hm : t.mgmt.within := (s.focusOn_mgmt k run n t ht) ▸ h
      split
      · exact t.issue_goesOnWithin hm
      · exact h
  | drain core k => exact staysWithin_of_mgmt (fun t => t.drainOne_mgmt core k) s h
  | row ch => exact staysWithin_of_mgmt (fun t => t.copyRow_mgmt ch) s h
  | shift k => exact staysWithin_of_mgmt (fun t => t.drainStep_mgmt k) s h
  | pass => exact h

/-! ### What is due (R333) -/

/-- Every function of a list leaves the module within the limits. -/
def allStayWithin (l : List (State → Out)) : Prop := ∀ f ∈ l, staysWithin f

theorem allStayWithin_nil : allStayWithin [] := by simp [allStayWithin]

theorem allStayWithin_cons (f : State → Out) (l : List (State → Out)) : allStayWithin (f :: l) ↔ staysWithin f ∧ allStayWithin l := by
  simp [allStayWithin]

theorem allStayWithin_append (l r : List (State → Out)) : allStayWithin (l ++ r) ↔ allStayWithin l ∧ allStayWithin r := by
  simp only [allStayWithin, List.forall_mem_append]

theorem allStayWithin_map {α : Type} (g : α → State → Out) (l : List α) (h : ∀ a, staysWithin (g a)) : allStayWithin (l.map g) := by
  simpa [allStayWithin] using fun a _ => h a

theorem allStayWithin_flatMap {α : Type} (g : α → List (State → Out)) (l : List α) (h : ∀ a, allStayWithin (g a)) :
    allStayWithin (l.flatMap g) := by
  intro f hf
  obtain ⟨a, -, ha⟩ := List.mem_flatMap.mp hf
  exact h a f ha

theorem allStayWithin_ite (p : Prop) [Decidable p] (l r : List (State → Out)) (hl : allStayWithin l) (hr : allStayWithin r) :
    allStayWithin (if p then l else r) := by
  split
  · exact hl
  · exact hr

/-- What is due is named by the function that an instruction means. -/
theorem staysWithin_of_exec (i : Instr) {f : State → Out} (h : ∀ s, exec i s = f s := by exact fun _ => rfl) : staysWithin f :=
  fun s hs => h s ▸ exec_staysWithin i s hs

theorem allStayWithin_filterMap {α : Type} (g : α → Option (State → Out)) (l : List α) (h : ∀ a, ∀ f ∈ g a, staysWithin f) :
    allStayWithin (l.filterMap g) := by
  intro f hf
  obtain ⟨a, -, ha⟩ := List.mem_filterMap.mp hf
  exact h a f ha

theorem allStayWithin_single (f : State → Out) (h : staysWithin f) : allStayWithin [f] := by
  simpa [allStayWithin] using h

theorem allStayWithin_pair (f g : State → Out) (hf : staysWithin f) (hg : staysWithin g) : allStayWithin [f, g] := by
  simpa [allStayWithin] using ⟨hf, hg⟩

/-- Whatever is due by itself is a step of the machine or a piece of one (R333). -/
theorem State.due_staysWithin (s : State) : allStayWithin s.due := by
  unfold State.due
  extract_lets cores ranks tiles
  simp only [allStayWithin_append, and_assoc]
  refine ⟨?drains, ?replicas, ?flushes, ?moves, ?tiles, ?copies, ?matrix, ?graphs, ?messages, ?arrivals, ?launches, ?ranks, ?queues, ?orders,
    ?binds, ?resumes, ?halts, ?records, ?waits, ?requests, ?lossy, ?merging, ?results, ?colls, ?claims, ?ports, ?rungs, ?lease, ?logs, ?seals⟩
  case drains =>
    refine allStayWithin_filterMap _ _ fun c f hf => ?_
    split at hf
    · cases hf
    · cases hf; exact staysWithin_of_mgmt fun t => t.drainOne_mgmt c.num 0
  case replicas => exact allStayWithin_ite _ _ _ allStayWithin_nil (allStayWithin_single _ (staysWithin_of_exec .replicaCommit))
  case flushes => exact allStayWithin_map _ _ fun o => staysWithin_of_exec (.flushComplete o)
  case moves => exact allStayWithin_ite _ _ _ (allStayWithin_single _ (staysWithin_of_exec .moveCopyDone)) allStayWithin_nil
  case tiles =>
    refine allStayWithin_flatMap _ _ fun q => ?_
    split
    · next h =>
      exact allStayWithin_pair _ _ (staysWithin_of_exec (.tileClearEnd q.1 ⟨q.2.handle, h⟩))
        (staysWithin_of_exec (.tileReadsEnd q.1 ⟨q.2.handle, h⟩))
    · exact allStayWithin_nil
  case copies =>
    refine allStayWithin_flatMap _ _ fun c => ?_
    simp only [allStayWithin_cons]
    exact ⟨staysWithin_of_exec (.copyStart c.chan), staysWithin_of_exec (.copyChunkEnd c.chan), staysWithin_of_mgmt fun t => t.copyRow_mgmt c.chan,
      allStayWithin_nil⟩
  case matrix =>
    refine allStayWithin_flatMap _ _ fun r => allStayWithin_ite _ _ _ ?_ allStayWithin_nil
    simp only [allStayWithin_cons]
    exact ⟨staysWithin_of_exec (.matrixOpStart r.key), staysWithin_of_exec (.pairCycle r.key), staysWithin_of_exec (.matrixOpEnd r.key),
      staysWithin_of_exec (.drainEnd r.key), staysWithin_of_mgmt fun t => t.drainStep_mgmt r.key, allStayWithin_nil⟩
  case graphs =>
    exact allStayWithin_flatMap _ _ fun r => allStayWithin_flatMap _ _ fun g => allStayWithin_flatMap _ _ fun n =>
      allStayWithin_pair _ _ (staysWithin_of_exec (.graphNodeStart r.key g.slot n)) (staysWithin_of_exec (.graphNodeFinish r.key g.slot n))
  case messages => exact allStayWithin_map _ _ fun n => staysWithin_of_exec (.messageDeliver n)
  case arrivals => exact allStayWithin_flatMap _ _ fun r => allStayWithin_map _ _ fun g => staysWithin_of_exec (.arrivalCounted r.key g)
  case launches =>
    refine allStayWithin_flatMap _ _ fun l => ?_
    simp only [allStayWithin_append, allStayWithin_cons]
    exact ⟨allStayWithin_map _ _ fun g => staysWithin_of_exec (.barrierRelease l.num g), staysWithin_of_exec (.launchComplete l.num),
      staysWithin_of_exec (.deadlinePassed l.num), staysWithin_of_exec (.launchPlace (.child l.num)), staysWithin_of_exec (.clusterTileEndFree l.num),
      allStayWithin_nil⟩
  case ranks => exact allStayWithin_map _ _ fun r => staysWithin_of_exec (.rankEnd r.key)
  case queues => exact allStayWithin_map _ _ fun q => staysWithin_of_exec (.launchPlace (.queue q.num))
  case orders => exact allStayWithin_map _ _ fun o => staysWithin_of_exec (.coreVacate o.2)
  case binds => exact allStayWithin_map _ _ fun o => staysWithin_of_exec (.bindRecordDeferred o.1)
  case resumes => exact allStayWithin_map _ _ fun c => staysWithin_of_exec (.rankResume c.num)
  case halts => exact allStayWithin_map _ _ fun g => staysWithin_of_exec (.haltGroupStop g)
  case records =>
    exact allStayWithin_flatMap _ _ fun f =>
      allStayWithin_pair _ _ (staysWithin_of_exec (.faultReplyPoll f.num)) (staysWithin_of_exec (.faultRecordTimeout f.num))
  case waits =>
    exact allStayWithin_flatMap _ _ fun r => allStayWithin_flatMap _ _ fun c =>
      allStayWithin_pair _ _ (staysWithin_of_exec (.fewaitTimeout r.key c.num)) (staysWithin_of_exec (.hostAccessLeaseTimeout r.key c.num))
  case requests =>
    refine allStayWithin_flatMap _ _ fun q => ?_
    simp only [allStayWithin_append, allStayWithin_cons]
    exact ⟨⟨staysWithin_of_exec (.packetInject q.id), staysWithin_of_exec (.remoteDeadline q.id), staysWithin_of_exec (.packetResend q.id),
        allStayWithin_nil⟩,
      allStayWithin_ite _ _ _ (allStayWithin_single _ (staysWithin_of_exec (.stmcAckTimeout q.id 0))) allStayWithin_nil⟩
  case lossy => exact allStayWithin_map _ _ fun x => staysWithin_of_exec (.lossyClose x.src x.xfer)
  case merging => exact allStayWithin_map _ _ fun m => staysWithin_of_exec (.atomicMergeTimeout m.num)
  case results => exact allStayWithin_map _ _ fun h => staysWithin_of_exec (.collHeldDiscard h.group h.count)
  case colls =>
    refine allStayWithin_flatMap _ _ fun c => ?_
    simp only [allStayWithin_append, allStayWithin_cons]
    exact ⟨allStayWithin_flatMap _ _ fun l => allStayWithin_map _ _ fun j => staysWithin_of_exec (.collCombine c.id l j []),
      staysWithin_of_exec (.collResult c.group c.count none), staysWithin_of_exec (.collCloseTimeout c.id),
      staysWithin_of_exec (.collFaultTimeout c.id 0), allStayWithin_nil⟩
  case claims => exact allStayWithin_map _ _ fun c => staysWithin_of_exec (.arbiterGrant c.arb)
  case ports => exact allStayWithin_map _ _ fun p => staysWithin_of_exec (.arbiterGrant p.num)
  case rungs => exact allStayWithin_map _ _ fun r => staysWithin_of_exec (.rungTimeout r.num)
  case lease => exact allStayWithin_single _ (staysWithin_of_exec .leaseExpire)
  case logs => exact allStayWithin_ite _ _ _ allStayWithin_nil (allStayWithin_single _ (staysWithin_of_exec .accessLogInterval))
  case seals => exact allStayWithin_ite _ _ _ allStayWithin_nil (allStayWithin_single _ (staysWithin_of_exec .logSeal))


theorem State.changed_within (s : State) (f : State → Out) (hf : staysWithin f) (h : s.mgmt.within) : ∀ t ∈ s.changed f, t.mgmt.within := by
  unfold State.changed
  have hs := hf s h
  split
  · next u hu =>
    rw [hu] at hs
    split
    · simp
    · rintro t ⟨⟩; exact hs
  all_goals simp

theorem State.ownStep_within (s : State) (h : s.mgmt.within) : ∀ t ∈ s.ownStep, t.mgmt.within := by
  intro t ht
  unfold State.ownStep at ht
  extract_lets l n at ht
  obtain ⟨f, hf, hft⟩ := List.exists_of_findSome?_eq_some ht
  have hmem : f ∈ s.due := by
    rcases List.mem_append.mp hf with hf | hf
    · exact List.mem_of_mem_drop hf
    · exact List.mem_of_mem_take hf
  exact s.changed_within f (s.due_staysWithin f hmem) h t hft

theorem State.turn_goesOnWithin (s : State) (h : s.mgmt.within) : goesOnWithin s.turn := by
  unfold State.turn
  split
  · split
    · exact State.act_staysWithin _ s h
    · rw [goesOnWithin_next]
      cases ho : s.ownStep with
      | none => exact h
      | some t => exact s.ownStep_within h t ho
  · split
    · next t ht => exact s.ownStep_within h t ht
    · exact State.act_staysWithin _ s h

theorem State.work_goesOnWithin (s : State) (h : s.mgmt.within) : goesOnWithin s.work := by
  unfold State.work
  split
  · exact State.act_staysWithin _ _ h
  split
  · exact s.turn_goesOnWithin h
  split
  · trivial
  · exact execBringUp_staysWithin s h

/-- What passes with time leaves the limits alone, but for the attestation reports that are tried again. -/
theorem State.elapse_within (s : State) (h : s.mgmt.within) : s.elapse.mgmt.within := by
  have hr := State.retryAttests_within
    (s.passTime (Config.elapsedCycles s.tick)).passLinks.endRungs.withdrawPeers.syncImages.sendCopies.retryOps (by simpa using h)
  simpa [State.elapse] using hr

/-- Settles O60: every meaning of an instruction and every step of the machine leaves the limiter's registers alone, but for those of
the limiter itself and the restarts of the device. -/
theorem powerStaysWithinLimits : Obligations.PowerStaysWithinLimits := by
  unfold Obligations.PowerStaysWithinLimits
  intro s t hs ht
  have hw := s.work_goesOnWithin (s.powerWithin_iff.mp hs)
  rw [step] at ht
  cases hk : s.work with
  | next u =>
    rw [hk] at hw ht
    obtain rfl : u.elapse = t := Host.Outcome.next.inj ht
    exact u.elapse.powerWithin_iff.mpr (u.elapse_within hw)
  | fault r => rw [hk] at ht; cases ht
  | refused r => rw [hk] at ht; cases ht

end Sys2Proof.Machine
end

section
/-! PROOFS. The management core's rules: the power limiter, the arbiters, the bounds of firmware (R30, R31, R253, R356). -/
namespace Sys2Proof.Machine

open Sys2Proof

/-! ### Error records -/

/-- A copy in an owner's ring leaves the slot table alone. -/
theorem State.ownerCopy_slots (s : State) (o : Nat) (e : ErrRec) : (s.ownerCopy o e).1.disp.slots = s.disp.slots := by
  unfold State.ownerCopy
  dsimp only
  split
  · rfl
  split
  · rfl
  · rfl
  · rfl
  · next num va _ _ =>
    obtain ⟨m, c, g, hg⟩ := State.putRecord_cases s (s.own.ownerOr o) num va e.words
    rw [State.fireMsix_disp, hg]

/-- A record leaves the slot table alone. -/
theorem State.report_slots (s : State) (e : ErrRec) : (s.report e).disp.slots = s.disp.slots := by
  have host : ∀ (t : State) (f : ErrRec), (t.hostCopy f).disp = t.disp := fun t f => by
    obtain ⟨h, hh⟩ := t.hostCopy_cases f
    rw [hh]
  have owner := s.ownerCopy_slots e.owner { e with time := s.time, num := s.disp.errNum + 1 }
  unfold State.report
  by_cases h0 : e.owner = 0
  · simp only [h0, if_true]
    split
    · rw [host]
    · rfl
  · simp only [h0, if_false]
    split
    · rw [host]; exact owner
    · exact owner

/-- A record that names no owner is copied to the host alone: memory stays. -/
theorem State.report_ms_of_unowned (s : State) (e : ErrRec) (h : e.owner = 0) : (s.report e).ms = s.ms := by
  unfold State.report
  simp only [h, if_true]
  split
  · exact (State.hostCopy_frame _ _).2.2.2.2.2.2.2.2.2.1
  · rfl

/-- A record stands behind the error records there were. -/
theorem State.report_records (s : State) (e : ErrRec) : records s (s.report e) e.cls e.addr e.val1 := by
  obtain ⟨-, -, -, -, -, -, -, -, -, d, he⟩ := s.report_frame e
  exact ⟨_, he, rfl, rfl, rfl⟩

/-- A FWBOUND record names no owner: it changes the records and the host's side alone (R356). -/
theorem State.fwRecord_effect (s : State) (addr : Word) (bound : Nat) :
    records s (s.fwRecord addr bound) Err.fwBound addr (wd bound) ∧ (s.fwRecord addr bound).ms = s.ms
      ∧ (s.fwRecord addr bound).mgmt = s.mgmt ∧ (s.fwRecord addr bound).fab = s.fab := by
  obtain ⟨-, -, -, -, -, -, -, hf, -⟩ := s.report_frame (errRec Err.fwBound 0 addr (wd bound) 0)
  exact ⟨s.report_records _, s.report_ms_of_unowned _ rfl, s.fwRecord_mgmt _ _, hf⟩

/-! ### Power (R31) -/

/-- One measurement, duty between half and full: it moves by one step of 1/16, or stays at the end it has reached (log 14). -/
theorem State.execPowerMeasure_duty (s : State) (draw temp : Nat) (lo : 8 ≤ s.mgmt.duty) (hi : s.mgmt.duty ≤ 16) :
    let above := s.mgmt.drawLimit < draw ∨ s.mgmt.tempLimit < temp
    ∃ t, execPowerMeasure draw temp s = .next t ∧ t = { s with mgmt := { s.mgmt with draw := draw, temp := temp, duty := t.mgmt.duty } }
      ∧ (above → s.mgmt.duty = 8 → t.mgmt.duty = 8) ∧ (above → 8 < s.mgmt.duty → t.mgmt.duty + 1 = s.mgmt.duty)
      ∧ (¬ above → s.mgmt.duty < 16 → t.mgmt.duty = s.mgmt.duty + 1) ∧ (¬ above → s.mgmt.duty = 16 → t.mgmt.duty = 16) := by
  intro above
  refine ⟨_, rfl, rfl, ?_⟩
  have hab : (decide (s.mgmt.drawLimit < draw) || decide (s.mgmt.tempLimit < temp)) = true ↔ above := by simp [above]
  have down : Nat.max 8 (s.mgmt.duty - 1) = max 8 (s.mgmt.duty - 1) := rfl
  have up : Nat.min 16 (s.mgmt.duty + 1) = min 16 (s.mgmt.duty + 1) := rfl
  dsimp only
  rw [down, up]
  by_cases ha : above
  · rw [if_pos (hab.mpr ha)]
    exact ⟨fun _ _ => by omega, fun _ _ => by omega, fun h => absurd ha h, fun h => absurd ha h⟩
  · rw [if_neg (fun h => ha (hab.mp h))]
    exact ⟨fun h => absurd h ha, fun h => absurd h ha, fun _ _ => by omega, fun _ _ => by omega⟩

theorem State.execPowerLimitWrite_draw (s : State) (v : Nat) :
    execPowerLimitWrite .draw v s = .next { s with mgmt := { s.mgmt with drawLimit := if v ≤ 3200 then v else 3200 } } := by
  have e : Nat.min v 3200 = if v ≤ 3200 then v else 3200 := Nat.min_def
  simp [execPowerLimitWrite, e]

theorem State.execPowerLimitWrite_temperature (s : State) (v : Nat) :
    execPowerLimitWrite .temperature v s = .next { s with mgmt := { s.mgmt with tempLimit := min v Config.temperatureCeiling } } := rfl

/-! ### Claims and ports -/

theorem oldestClaim_eq_none (clock : Nat) (l : List Claim) : oldestClaim clock l = none ↔ l = [] := by
  cases l with
  | nil => simp [oldestClaim]
  | cons c r =>
    simp only [oldestClaim]
    split
    · simp
    · split <;> simp

/-- The claim that wins is one of those that wait: none is older, and none as old stands at a lower port (R253, log 103). -/
theorem oldestClaim_some (clock : Nat) (l : List Claim) : ∀ c ∈ oldestClaim clock l, c ∈ l
    ∧ ∀ d ∈ l, d.age clock < c.age clock ∨ (d.age clock = c.age clock ∧ c.port ≤ d.port) := by
  induction l with
  | nil => simp [oldestClaim]
  | cons a r ih =>
    simp only [oldestClaim]
    split
    · next hr =>
      rw [(oldestClaim_eq_none clock r).mp hr]
      rintro c ⟨⟩
      exact ⟨.head _, fun d hd => by rw [List.mem_singleton.mp hd]; exact .inr ⟨rfl, Nat.le_refl _⟩⟩
    · next d hd =>
      obtain ⟨dm, dold⟩ := ih d hd
      split
      · next hlt =>
        rintro c ⟨⟩
        simp only [Bool.or_eq_true, Bool.and_eq_true, decide_eq_true_eq, beq_iff_eq] at hlt
        refine ⟨.tail _ dm, fun e he => ?_⟩
        rcases List.mem_cons.mp he with rfl | he
        · omega
        · exact dold e he
      · next hlt =>
        rintro c ⟨⟩
        simp only [Bool.or_eq_true, Bool.and_eq_true, decide_eq_true_eq, beq_iff_eq] at hlt
        refine ⟨.head _, fun e he => ?_⟩
        rcases List.mem_cons.mp he with rfl | he
        · exact .inr ⟨rfl, Nat.le_refl _⟩
        · have := dold e he
          omega

theorem removeFirst_of_mem {α : Type} [DecidableEq α] (c : α) (l : List α) (h : c ∈ l) :
    ∃ a b, l = a ++ c :: b ∧ removeFirst (fun d => d == c) l = a ++ b := by
  induction l with
  | nil => cases h
  | cons d r ih =>
    by_cases e : d = c
    · exact ⟨[], r, by simp [e], by simp [removeFirst, e]⟩
    · obtain ⟨a, b, hl, hr⟩ := ih ((List.mem_cons.mp h).resolve_left (Ne.symm e))
      exact ⟨d :: a, b, by simp [hl], by simp [removeFirst, e, hr]⟩

theorem getAt_putAt_same {α : Type} (z v : α) (k : Nat) (l : List (Nat × α)) : getAt z k (putAt k v l) = v := by
  induction l with
  | nil => simp [putAt, getAt]
  | cons p r ih =>
    obtain ⟨j, w⟩ := p
    unfold putAt
    split
    · simp [getAt]
    split
    · simp [getAt]
    · next hne => simp [getAt, Ne.symm hne, ih]

@[simp] theorem Fabric.setPort_port (f : Fabric) (p : Port) : (f.setPort p).port p.num = p := by
  simp [Fabric.setPort, Fabric.port]

@[simp] theorem Fabric.setPort_requests (f : Fabric) (p : Port) : (f.setPort p).requests = f.requests := rfl

@[simp] theorem Fabric.setPort_claims (f : Fabric) (p : Port) : (f.setPort p).claims = f.claims := rfl

@[simp] theorem Fabric.port_num (f : Fabric) (n : Nat) : (f.port n).num = n := by
  unfold Fabric.port
  cases h : f.ports.find? (fun p => p.num == n) with
  | none => rfl
  | some p => simpa using List.find?_some h

@[simp] theorem Port.send_num (p : Port) (fs : List Flit) : (p.send fs).num = p.num := rfl

theorem Port.send_replay_length (p : Port) (fs : List Flit) :
    (p.send fs).replay.length = p.replay.length + (fs.filter fun f => f.cls != 1).length := by
  simp [Port.send]

/-- A claim's flits on their way: nothing but the ports changes, and a router's port keeps those it may have to send again (R343). -/
theorem Fabric.takeFlits_some {f : Fabric} {c : Claim} (h : 36 ≤ c.arb ∨ (f.port c.arb).holds c.flits = true) :
    ∃ g, f.takeFlits c = some g ∧ g.claims = f.claims ∧ g.grants = f.grants ∧ g.requests = f.requests
      ∧ (c.arb < 36 → (g.port c.arb).replay.length = (f.port c.arb).replay.length + (c.flits.filter fun d => d.cls != 1).length) := by
  unfold Fabric.takeFlits
  by_cases ha : 36 ≤ c.arb
  · rw [if_pos ha]
    exact ⟨f, rfl, rfl, rfl, rfl, fun hl => by omega⟩
  · rw [if_neg ha, if_pos (h.resolve_left ha)]
    refine ⟨_, rfl, rfl, rfl, rfl, fun _ => ?_⟩
    have e : (f.setPort ((f.port c.arb).send c.flits)).port c.arb = (f.port c.arb).send c.flits := by
      simpa using f.setPort_port ((f.port c.arb).send c.flits)
    rw [e, Port.send_replay_length]

/-- A grant that is no window's and no lossy block's: its flits leave, its claim is gone, and the arbiter has served its port. -/
theorem State.grant_plain (s : State) (c : Claim) (hm : c ∈ s.fab.claims) (hp : 36 ≤ c.arb ∨ (s.fab.port c.arb).holds c.flits = true)
    (hw : ∀ vf addr data, c.cargo ≠ .window vf addr data)
    (hb : ∀ id q, c.cargo = .packet id → s.fab.request? id = some q → q.block = none) :
    ∃ t, s.grant c = some t ∧ t.ms = s.ms ∧ t.cx = s.cx ∧ getAt 0 c.arb t.fab.grants = c.port
      ∧ (∃ l r, s.fab.claims = l ++ c :: r ∧ t.fab.claims = l ++ r)
      ∧ (c.arb < 36 → (t.fab.port c.arb).replay.length = (s.fab.port c.arb).replay.length + (c.flits.filter fun f => f.cls != 1).length) := by
  obtain ⟨g, hg, hc, hgr, hr, hport⟩ := Fabric.takeFlits_some hp
  obtain ⟨a, b, ha, hrem⟩ := removeFirst_of_mem c _ hm
  let u : State := { s with fab := { g with claims := removeFirst (fun d => d == c) g.claims, grants := putAt c.arb c.port g.grants } }
  have hd : u.depart c.cargo = some u := by
    cases e : c.cargo with
    | packet id =>
      have hq : u.fab.request? id = s.fab.request? id := congrArg (List.find? fun q : Request => q.id == id) hr
      simp only [State.depart, hq]
      cases h : s.fab.request? id with
      | none => rfl
      | some q => simp [hb id q e h]
    | answer => rfl
    | host => rfl
    | window vf addr data => exact absurd e (hw vf addr data)
  refine ⟨u, ?_, rfl, rfl, getAt_putAt_same .., ⟨a, b, ha, ?_⟩, hport⟩
  · simp only [State.grant, hg]
    exact hd
  · rw [← hrem, ← hc]

/-! ### The arbiter's cycle (R253, R272, R343) -/

theorem State.dropLate_of_none (s : State) (port : Nat)
    (h : ∀ q ∈ s.fab.requests, q.block ≠ none → q.time + 1500 < s.time → ∀ c ∈ s.fab.claims, c.arb = port → c.cargo ≠ .packet q.id) :
    s.dropLate port = s := by
  have e : (s.fab.requests.filter fun q => q.block.isSome && q.time + 1500 < s.time
      && s.fab.claims.any fun c => c.arb == port && c.cargo == Cargo.packet q.id) = [] := by
    refine List.filter_eq_nil_iff.mpr fun q hq hl => ?_
    simp only [Bool.and_eq_true, Option.isSome_iff_ne_none, decide_eq_true_eq, List.any_eq_true, beq_iff_eq] at hl
    obtain ⟨⟨hb, ht⟩, c, hc, harb, hcargo⟩ := hl
    exact h q hq hb ht c hc harb hcargo
  simp [State.dropLate, e]

/-! ### The requests that a grant leaves (R253, R272) -/

theorem State.writeHome_fab (s : State) (owner agent : Nat) (va : Word) (bs : List Byte) : (s.writeHome owner agent va bs).fab = s.fab := by
  unfold State.writeHome
  split
  · rfl
  · next pa l _ =>
    dsimp only
    generalize hu : State.markSpot s owner .store (.mem va) = u
    have hf : u.fab = s.fab := by
      obtain ⟨g, hg⟩ := s.logWalk_log (s.own.ownerOr owner) .store va
      rw [← hu]
      simp only [State.markSpot, hg]
    obtain ⟨g, hg⟩ := State.logCopies_log
      { u with ms := _, scr := u.scr.invalidateRange pa bs.length } (pteRepl l.entry) agent owner 1 pa
    rw [hg]
    exact hf

theorem State.readHome_fab (s : State) (owner agent : Nat) (va : Word) (n : Nat) : (s.readHome owner agent va n).1.fab = s.fab := by
  unfold State.readHome
  split
  · rfl
  · next pa l _ =>
    dsimp only
    generalize hu : State.markSpot s owner .load (.mem va) = u
    have hf : u.fab = s.fab := by
      obtain ⟨g, hg⟩ := s.logWalk_log (s.own.ownerOr owner) .load va
      rw [← hu]
      simp only [State.markSpot, hg]
    obtain ⟨g, hg⟩ := State.logAccess_log { u with ms := u.ms.recallRange pa n } agent owner 0 pa
    rw [hg]
    exact hf

theorem State.cxlRecord_fab (s : State) (n reason : Nat) (addr : Word) : (s.cxlRecord n reason addr).fab = s.fab := by
  unfold State.cxlRecord
  split
  all_goals
    dsimp only
    split
    · exact (State.report_frame _ _).2.2.2.2.2.2.2.1
    · rfl

/-- An access of a window sends nothing over the fabric. -/
theorem State.cxlAccess_fab (s : State) (vf : Nat) (addr : Word) (d : Option Word) : ∀ t ∈ s.cxlAccess vf addr d, t.fab = s.fab := by
  cases d with
  | none =>
    unfold State.cxlAccess State.cxlRead
    dsimp only
    split
    · simp
    · rintro t ⟨⟩; exact s.cxlRecord_fab ..
    · rintro t ⟨⟩; exact s.readHome_fab ..
  | some v =>
    unfold State.cxlAccess State.cxlWrite
    dsimp only
    split
    · simp
    · rintro t ⟨⟩; exact s.cxlRecord_fab ..
    · rintro t ⟨⟩; exact s.writeHome_fab ..

theorem State.updRank_fab (s : State) (k : RankKey) (run : Nat) (f : Rank → Rank) : (s.updRank k run f).fab = s.fab := by
  unfold State.updRank
  split <;> rfl

theorem State.updTile_fab (s : State) (k : RankKey) (run cluster h : Nat) (f : Tile → Tile) : (s.updTile k run cluster h f).fab = s.fab := by
  unfold State.updTile
  split
  · exact s.updRank_fab ..
  · rfl

theorem State.finishCopy_requests (s : State) (c : CopyCmd) : (s.finishCopy c).fab.requests.Sublist s.fab.requests := by
  unfold State.finishCopy
  extract_lets u t
  have hu : u.fab = s.fab := by
    dsimp only [u]
    split
    · exact s.updTile_fab ..
    all_goals rfl
  have ht : t.fab.requests.Sublist s.fab.requests := by
    rw [← hu]
    exact List.filter_sublist
  split
  · exact ht
  · rw [State.updRank_fab]
    exact ht

theorem State.tellProgress_fab (s : State) (c : CopyCmd) (done : Nat) : (s.tellProgress c done).fab = s.fab := by
  unfold State.tellProgress
  split
  · rfl
  · exact s.updRank_fab ..

/-- What a copy learns of its blocks adds no request. -/
theorem State.settleCopy_requests (s : State) (ch : Nat) : (s.settleCopy ch).fab.requests.Sublist s.fab.requests := by
  unfold State.settleCopy
  split
  · exact .refl _
  split
  · exact .refl _
  split
  · rw [State.tellProgress_fab]
  split
  · split
    · split
      · exact .refl _
      · exact s.finishCopy_requests _
    · exact s.finishCopy_requests _
  · exact s.finishCopy_requests _

theorem State.settleIssuer_requests (s : State) (q : Request) : (s.settleIssuer q).fab.requests.Sublist s.fab.requests := by
  unfold State.settleIssuer
  split
  · exact s.settleCopy_requests _
  all_goals exact .refl _

theorem State.loseBlock_requests (s : State) (id : Nat) : (s.loseBlock id).fab.requests.Sublist s.fab.requests := by
  unfold State.loseBlock
  split
  · exact .refl _
  split
  · exact (State.settleIssuer_requests _ _).trans List.filter_sublist
  · exact .refl _

theorem foldl_loseBlock_requests (l : List Request) (s : State) :
    (l.foldl (fun t q => t.loseBlock q.id) s).fab.requests.Sublist s.fab.requests := by
  induction l generalizing s with
  | nil => exact .refl _
  | cons q r ih => exact (ih _).trans (s.loseBlock_requests q.id)

/-- A lossy block that is lost is gone from the requests, whose numbers are all different. -/
theorem State.loseBlock_gone (s : State) (q : Request) (hb : q.block ≠ none)
    (hid : ∀ r ∈ s.fab.requests, r.id = q.id → r = q) : ∀ r ∈ (s.loseBlock q.id).fab.requests, r.id ≠ q.id := by
  unfold State.loseBlock
  split
  · next h => exact fun r hr e => by simpa [e] using List.find?_eq_none.mp h r hr
  · next p h =>
    have hp : p = q := hid p (List.mem_of_find?_eq_some h) (by simpa using List.find?_some h)
    rw [if_pos (by rw [hp]; exact Option.isSome_iff_ne_none.mpr hb)]
    intro r hr
    simpa using (List.mem_filter.mp ((State.settleIssuer_requests _ _).subset hr)).2

/-- A block past TIME + 1.5 µs that waits at a router's port is gone once the port's blocks are dropped (R272). -/
theorem State.dropLate_gone (s : State) (port : Nat) (q : Request) (hq : q ∈ s.fab.requests) (hb : q.block ≠ none)
    (ht : q.time + 1500 < s.time) (hc : ∃ c ∈ s.fab.claims, c.arb = port ∧ c.cargo = .packet q.id)
    (hn : (s.fab.requests.map Request.id).Nodup) : ∀ r ∈ (s.dropLate port).fab.requests, r.id ≠ q.id := by
  have hid : ∀ r ∈ s.fab.requests, r.id = q.id → r = q := fun r hr e => List.inj_on_of_nodup_map hn hr hq e
  have hl : q ∈ s.fab.requests.filter fun q => q.block.isSome && q.time + 1500 < s.time
      && s.fab.claims.any fun c => c.arb == port && c.cargo == Cargo.packet q.id := by
    obtain ⟨c, hcm, harb, hcargo⟩ := hc
    simp only [List.mem_filter, Bool.and_eq_true, Option.isSome_iff_ne_none, decide_eq_true_eq, List.any_eq_true, beq_iff_eq]
    exact ⟨hq, ⟨hb, ht⟩, c, hcm, harb, hcargo⟩
  obtain ⟨a, b, hab⟩ := List.append_of_mem hl
  unfold State.dropLate
  dsimp only
  rw [hab, List.foldl_append, List.foldl_cons]
  intro r hr
  have ha := foldl_loseBlock_requests a s
  exact State.loseBlock_gone _ q hb (fun r hr => hid r (ha.subset hr)) r ((foldl_loseBlock_requests b _).subset hr)

theorem Fabric.takeFlits_requests (f g : Fabric) (c : Claim) (h : f.takeFlits c = some g) : g.requests = f.requests := by
  unfold Fabric.takeFlits at h
  split at h
  · cases h; rfl
  split at h
  · cases h; rfl
  · cases h

theorem State.depart_requests (s : State) (c : Cargo) : ∀ t ∈ s.depart c, t.fab.requests.Sublist s.fab.requests := by
  cases c with
  | packet id =>
    unfold State.depart
    dsimp only
    split
    · rintro t ⟨⟩; exact .refl _
    · rintro t ⟨⟩
      split
      · exact s.loseBlock_requests id
      · exact .refl _
  | answer => rintro t ⟨⟩; exact .refl _
  | host => rintro t ⟨⟩; exact .refl _
  | window vf addr data => exact fun t ht => by rw [s.cxlAccess_fab vf addr data t ht]

/-- A grant adds no request. -/
theorem State.grant_requests (s : State) (c : Claim) : ∀ t ∈ s.grant c, t.fab.requests.Sublist s.fab.requests := by
  unfold State.grant
  split
  · simp
  · next f hf =>
    intro t ht
    have h := State.depart_requests _ _ t ht
    rwa [show ({ s with fab := { f with
      claims := removeFirst (fun d => d == c) f.claims, grants := putAt c.arb c.port f.grants } } : State).fab.requests = s.fab.requests
      from s.fab.takeFlits_requests f c hf] at h

/-- A full replay buffer takes no flits, and the grant waits (R343). -/
theorem State.grant_full (s : State) (c : Claim) (ha : c.arb < 36) (h : (s.fab.port c.arb).holds c.flits = false) : s.grant c = none := by
  simp [State.grant, Fabric.takeFlits, h, Nat.not_le.mpr ha]

/-- A router's port that replays sends its next flit of those before anything else (R343). -/
theorem execArbiterGrant_again (s : State) (arb : Nat) (h : s.dropLate arb = s) (ha : arb < 36) (hp : (s.fab.port arb).again ≠ []) :
    execArbiterGrant arb s = .next { s with fab := s.fab.setPort { s.fab.port arb with again := (s.fab.port arb).again.drop 1 } } := by
  simp [execArbiterGrant, h, ha, hp]

/-- An arbiter's cycle leaves of the requests what its late blocks leave. -/
theorem execArbiterGrant_requests (s : State) (arb : Nat) :
    ∃ t, execArbiterGrant arb s = .next t ∧ t.fab.requests.Sublist (s.dropLate arb).fab.requests := by
  unfold execArbiterGrant
  extract_lets u p
  split
  · exact ⟨_, rfl, .refl _⟩
  split
  · exact ⟨_, rfl, .refl _⟩
  · next c _ =>
    refine ⟨_, rfl, ?_⟩
    cases h : u.grant c with
    | none => exact .refl _
    | some t => exact u.grant_requests c t h

/-- What an arbiter does where no block has waited too long. -/
theorem execArbiterGrant_next (s : State) (arb : Nat) (h : s.dropLate arb = s) (again : 36 ≤ arb ∨ (s.fab.port arb).again = []) :
    execArbiterGrant arb s = match oldestClaim s.fab.clock (s.fab.claims.filter fun c => c.arb == arb) with
      | none => .next s
      | some c => .next ((s.grant c).getD s) := by
  have e : (decide (arb < 36) && !(s.fab.port arb).again.isEmpty) = false := by
    rcases again with h | h
    · simp; omega
    · simp [h]
  unfold execArbiterGrant
  simp only [h, e]
  rfl

/-! ### Firmware's packets and bind records (R30, R356) -/

theorem packetFlits_length (keyid weight cls bytes : Nat) : (packetFlits keyid weight cls bytes).length = 1 + Nat.max 1 ((bytes + 63) / 64) := by
  simp [packetFlits]

theorem Port.takesPacket_iff (p : Port) : p.takesPacket = true ↔ p.dead = false ∧ p.replay.length ≤ 447 := by
  simp [Port.takesPacket]

theorem Port.limiterOpen_iff (p : Port) (time : Nat) :
    p.limiterOpen time = true ↔ (p.dead = false ∧ p.replay.length ≤ 447) ∧ p.fwFree ≤ 100 * time := by
  simp [Port.limiterOpen, Port.takesPacket_iff]

theorem Port.overLimit_iff (p : Port) (time : Nat) :
    p.overLimit time = true ↔ 100 * time < p.fwFree ∨ (p.fwHeld ≠ [] ∧ p.dead = false ∧ p.replay.length ≤ 447) := by
  simp [Port.overLimit, Port.takesPacket_iff]

theorem Port.sendFirmware_fwFree (p : Port) (time bytes : Nat) (h : p.fwFree ≤ 100 * time) :
    (p.sendFirmware time bytes).fwFree = 100 * time + 72 * (1 + Nat.max 1 ((bytes + 63) / 64)) * 10000 / 112 := by
  have hmax : Nat.max p.fwFree (100 * time) = 100 * time := Nat.max_eq_right h
  simp only [Port.sendFirmware, packetFlits_length, hmax]

/-- A management packet at a port whose limiter is open and has nothing behind it leaves at once. -/
theorem execFwbound_sends (s : State) (port bytes : Nat) (ha : s.fab.portActive port = true)
    (hl : (s.fab.port port).limiterOpen s.time = true) (hh : (s.fab.port port).fwHeld = []) :
    ∃ t, execFwbound (.classTraffic port bytes) s = .next t
      ∧ (t.fab.port port).fwFree = 100 * s.time + 72 * (1 + Nat.max 1 ((bytes + 63) / 64)) * 10000 / 112
      ∧ (t.fab.port port).fwHeld = [] ∧ t.disp = s.disp := by
  have hf := (Port.limiterOpen_iff _ _).mp hl
  refine ⟨{ s with fab := s.fab.setPort ((s.fab.port port).sendFirmware s.time bytes) }, by simp [execFwbound, ha, hl, hh], ?_⟩
  have e := s.fab.setPort_port ((s.fab.port port).sendFirmware s.time bytes)
  rw [show ((s.fab.port port).sendFirmware s.time bytes).num = port from s.fab.port_num port] at e
  exact ⟨(congrArg Port.fwFree e).trans (Port.sendFirmware_fwFree _ _ bytes hf.2), (congrArg Port.fwHeld e).trans hh, rfl⟩

/-- One that cannot leave is held behind the others, with a FWBOUND record where the limiter holds it or those before it. -/
theorem execFwbound_holds (s : State) (port bytes : Nat) (ha : s.fab.portActive port = true)
    (hd : ¬ ((s.fab.port port).limiterOpen s.time = true ∧ (s.fab.port port).fwHeld = [])) :
    ∃ t, execFwbound (.classTraffic port bytes) s = .next t
      ∧ (t.fab.port port).fwHeld = (s.fab.port port).fwHeld ++ [bytes] ∧ t.fab.requests = s.fab.requests ∧ t.ms = s.ms
      ∧ ((s.fab.port port).overLimit s.time = true → records s t Err.fwBound (wd port) 3)
      ∧ ((s.fab.port port).overLimit s.time = false → t.disp = s.disp) := by
  let u : State := { s with fab := s.fab.setPort { s.fab.port port with fwHeld := (s.fab.port port).fwHeld ++ [bytes] } }
  have e := s.fab.setPort_port { s.fab.port port with fwHeld := (s.fab.port port).fwHeld ++ [bytes] }
  rw [show ({ s.fab.port port with fwHeld := (s.fab.port port).fwHeld ++ [bytes] } : Port).num = port from s.fab.port_num port] at e
  have hc : ((s.fab.port port).fwHeld.isEmpty && (s.fab.port port).limiterOpen s.time) = false := by
    rw [Bool.eq_false_iff]
    intro h
    simp only [Bool.and_eq_true, List.isEmpty_iff] at h
    exact hd ⟨h.2, h.1⟩
  refine ⟨if (s.fab.port port).overLimit s.time = true then u.fwRecord (wd port) 3 else u, ?_, ?_⟩
  · simp [execFwbound, ha, hc, u]
  · by_cases ho : (s.fab.port port).overLimit s.time = true
    · obtain ⟨hr, hm, -, hf⟩ := u.fwRecord_effect (wd port) 3
      rw [if_pos ho, hf, hm]
      exact ⟨congrArg Port.fwHeld e, rfl, rfl, fun _ => hr, fun h => absurd ho (by simp [h])⟩
    · rw [if_neg ho]
      exact ⟨congrArg Port.fwHeld e, rfl, rfl, fun h => absurd h ho, fun _ => rfl⟩

/-- An access of firmware to memory that its port does not pass: a record, and a read answers zero. -/
theorem State.execFwbound_memory (s : State) (write : Bool) (addr : Nat) (h : fwPasses write addr = false) :
    ∃ t, execFwbound (.memory write addr) s = .next t ∧ records s t Err.fwBound (wd addr) 1
      ∧ t.mgmt.fwReads = s.mgmt.fwReads ++ (if write then [] else [0]) ∧ t.ms = s.ms := by
  cases write with
  | true =>
    obtain ⟨hr, hm, -⟩ := s.fwRecord_effect (wd addr) 1
    exact ⟨s.fwRecord (wd addr) 1, by simp [execFwbound, h], hr, by simp, hm⟩
  | false =>
    let u : State := { s with mgmt := { s.mgmt with fwReads := s.mgmt.fwReads ++ [0] } }
    obtain ⟨hr, hm, hg, -⟩ := u.fwRecord_effect (wd addr) 1
    exact ⟨u.fwRecord (wd addr) 1, by simp [execFwbound, h, u], hr, congrArg Management.fwReads hg, hm⟩

/-- A bind record that is refused: BINDREFUSED, and a FWBOUND record behind it where it names cores of another (R356, log 77). -/
theorem State.writeBind_refused (s : State) (slot : Nat) (b : BindRec) (h : s.bindOk slot b = false) :
    ∃ e more, (s.writeBind slot b).disp.errors = s.disp.errors ++ (e : ErrRec) :: more ∧ e.cls = Err.bindRefused
      ∧ (s.writeBind slot b).disp.slots = s.disp.slots
      ∧ ((∃ c ∈ b.cores, s.own.holder 0x01 c ≠ b.owner) → ∃ f, more = [(f : ErrRec)] ∧ f.cls = Err.fwBound ∧ f.addr = wd slot ∧ f.val1 = 2)
      ∧ ((∀ c ∈ b.cores, s.own.holder 0x01 c = b.owner ∧ c < 1536) → more = []) := by
  obtain ⟨e, he, hcls, -, -⟩ := s.report_records { errRec Err.bindRefused b.owner (wd slot) (wd b.owner) 0 with queue := slot }
  have hs := s.report_slots { errRec Err.bindRefused b.owner (wd slot) (wd b.owner) 0 with queue := slot }
  unfold State.writeBind
  rw [if_neg (by simp [h])]
  dsimp only
  split
  · next hall =>
    simp only [List.all_eq_true, Bool.and_eq_true, beq_iff_eq, decide_eq_true_eq] at hall
    exact ⟨e, [], he, hcls, hs, fun ⟨c, hc, hne⟩ => absurd (hall c hc).1 hne, fun _ => rfl⟩
  · next hall =>
    obtain ⟨⟨f, hf, hfcls, hfaddr, hfval⟩, -⟩ := State.fwRecord_effect
      (s.report { errRec Err.bindRefused b.owner (wd slot) (wd b.owner) 0 with queue := slot }) (wd slot) 2
    refine ⟨e, [f], by rw [hf, he, List.append_assoc]; rfl, hcls, (State.report_slots _ _).trans hs, fun _ => ⟨f, rfl, hfcls, hfaddr, hfval⟩,
      fun hown => absurd ?_ hall⟩
    simp only [List.all_eq_true, Bool.and_eq_true, beq_iff_eq, decide_eq_true_eq]
    exact hown

/-- Settles O48: each clause is the rule of one operation of the management core. -/
theorem managementResults : Obligations.ManagementResults := by
  unfold Obligations.ManagementResults
  intro s v draw temp
  refine ⟨s.execPowerLimitWrite_draw v, fun h => ?_, fun h => ?_, s.execPowerMeasure_duty draw temp, ?_, ?_, ?_, ?_, ?_, ?_, ?_⟩
  · exact (s.execPowerLimitWrite_temperature v).trans (by rw [Nat.min_eq_left h])
  · exact (s.execPowerLimitWrite_temperature v).trans (by rw [Nat.min_eq_right h])
  · intro arb q hq hb ht hc hn _
    obtain ⟨t, he, hsub⟩ := execArbiterGrant_requests s arb
    exact ⟨t, he, fun r hr => s.dropLate_gone arb q hq hb ht hc hn r (hsub.subset hr)⟩
  · intro arb hlate mine p
    have hd := s.dropLate_of_none arb hlate
    refine ⟨execArbiterGrant_again s arb hd, fun hag => ?_⟩
    have hnext := execArbiterGrant_next s arb hd hag
    refine ⟨fun hm => ?_, fun hm => ?_⟩
    · exact hnext.trans (by rw [show (s.fab.claims.filter fun c => c.arb == arb) = [] from hm]; rfl)
    · obtain ⟨c, hcl⟩ := Option.ne_none_iff_exists'.mp fun h => hm ((oldestClaim_eq_none s.fab.clock mine).mp h)
      obtain ⟨hmem, hold⟩ := oldestClaim_some s.fab.clock mine c hcl
      obtain ⟨hin, harb⟩ := List.mem_filter.mp hmem
      obtain rfl : c.arb = arb := by simpa using harb
      have hnext : execArbiterGrant c.arb s = .next ((s.grant c).getD s) := hnext.trans (by rw [hcl])
      refine ⟨c, hmem, hold, fun hlt hfull => ?_, fun hfits hw hp => ?_⟩
      · exact hnext.trans (by rw [s.grant_full c hlt hfull]; rfl)
      · obtain ⟨t, hg, hrest⟩ := s.grant_plain c hin hfits hw hp
        exact ⟨t, hnext.trans (by rw [hg]; rfl), hrest⟩
  · exact fun write addr => ⟨fun h => by simp [exec, execFwbound, h], s.execFwbound_memory write addr⟩
  · intro port bytes p takes due excess
    have hdue : due ↔ p.limiterOpen s.time = true ∧ p.fwHeld = [] := by rw [p.limiterOpen_iff, and_assoc]
    have hex : excess ↔ p.overLimit s.time = true := (p.overLimit_iff s.time).symm
    refine ⟨fun h => by simp [exec, execFwbound, h], fun ha h => ?_, fun ha h => ?_⟩
    · exact execFwbound_sends s port bytes ha (hdue.mp h).1 (hdue.mp h).2
    · obtain ⟨t, he, hh, hr, hm, hrec, hdisp⟩ := execFwbound_holds s port bytes ha fun hl => h (hdue.mpr hl)
      exact ⟨t, he, hh, hr, hm, fun h => hrec (hex.mp h), fun h => hdisp (Bool.eq_false_iff.mpr fun ho => h (hex.mpr ho))⟩
  · exact fun addr h => by simp [exec, execFwbound, h]
  · intro addr h
    obtain ⟨hr, hm, -⟩ := s.fwRecord_effect (wd addr) 4
    exact ⟨_, by simp [exec, execFwbound, h], hr, hm⟩
  · intro slot b hslot hb
    obtain ⟨e, more, h⟩ := s.writeBind_refused slot b hb
    exact ⟨_, e, more, by simp [exec, execFwbound, hslot, hb], h⟩

end Sys2Proof.Machine
end

section
/-! PROOFS. The scriptorium's rules: coherent accesses, and what a lost line does (R24, R130, R354). -/
namespace Sys2Proof.Machine

open Sys2Proof

/-! ### Bytes -/

theorem readBytes_getElem? (n : Nat) (m : Memory) (pa k : Nat) (h : k < n) : (readBytes m pa n)[k]? = some (readByte m (pa + k)) := by
  induction n generalizing pa k with
  | zero => omega
  | succ n ih =>
    cases k with
    | zero => rfl
    | succ k =>
      rw [readBytes, List.getElem?_cons_succ, ih (pa + 1) k (by omega)]
      congr 2
      omega

theorem readBytes_length (m : Memory) (n pa : Nat) : (readBytes m pa n).length = n := by
  induction n generalizing pa with
  | zero => rfl
  | succ n ih => rw [readBytes, List.length_cons, ih]

theorem leNat_lt (bs : List Byte) : leNat bs < 256 ^ bs.length := by
  induction bs with
  | nil => simp [leNat]
  | cons b r ih =>
    have hb := b.isLt
    simp only [leNat, List.length_cons, Nat.pow_succ]
    omega

theorem readLE_lt (m : Memory) (pa n : Nat) : readLE m pa n < 256 ^ n := by
  simpa [readLE, readBytes_length] using leNat_lt (readBytes m pa n)

/-- Bytes written at pa stand there, and nothing else has changed. -/
theorem storesBytes_of_mem {s t : State} {pa : Nat} {bs : List Byte} (hw : s.ms.mem.wf = true) (h : t.ms.mem = writeBytes s.ms.mem pa bs) :
    storesBytes pa bs s t := by
  refine ⟨fun k hk => ?_, fun q hq => ?_, fun q => ?_⟩
  · rw [h, ← readBytes_getElem? bs.length _ pa k hk, readBytes_writeBytes bs s.ms.mem hw pa]
  · rw [h]
    exact readByte_writeBytes_outside bs s.ms.mem hw pa q hq
  · simp only [h, isFull, writeBytes_full]

/-! ### Accesses at home -/

@[simp] theorem MemSystem.recallRange_mem (ms : MemSystem) (pa n : Nat) : (ms.recallRange pa n).mem = ms.mem := by
  unfold MemSystem.recallRange MemSystem.recallAll
  split <;> rfl

@[simp] theorem MemSystem.recallRange_move (ms : MemSystem) (pa n : Nat) : (ms.recallRange pa n).move = ms.move := by
  unfold MemSystem.recallRange MemSystem.recallAll
  split <;> rfl

theorem MemSystem.homeAddr_of_not_done (ms : MemSystem) (pa : Nat) (h : ms.move.done = false) : ms.homeAddr pa = pa := by
  simp [MemSystem.homeAddr, h]

/-- An engine's access that lands is placed where it lands. -/
theorem State.placeAt_of_engineLands {s : State} {o : Nat} {acc : Access} {va : Word} {pa : Nat} (h : engineLands s o acc va pa) :
    ∃ l, s.placeAt o acc va = some (pa, l) ∧ translate s.ms s.tick (s.own.ownerOr o) va acc = .at pa l ∧ pteRepl l.entry = false
      ∧ l.entry ||| 0x20 ||| (if acc.writes then 0x40 else 0) = l.entry := by
  obtain ⟨l, -, ht, -, -, hr, hu⟩ := h
  exact ⟨l, by simp [State.placeAt, ht], ht, hr, hu⟩

/-- Nothing stands in the way of an engine's access that lands. -/
theorem State.remotePlace_of_engineLands {s : State} {o : Nat} {acc : Access} {va : Word} {pa : Nat} (h : engineLands s o acc va pa) (n : Nat) :
    s.remotePlace o acc false va n = .ok := by
  obtain ⟨l, hc, ht, hh, hm, hr, -⟩ := h
  simp [State.remotePlace, hc, ht, hh, hm, hr]

/-- An access through a leaf that is marked already changes no byte: a kept translation at most, and the access log. -/
theorem State.markSpot_of_engineLands {s : State} {o : Nat} {acc : Access} {va : Word} {pa : Nat} (h : engineLands s o acc va pa) :
    ∃ m g, s.markSpot o acc (.mem va) = { s with ms := m, log := g } ∧ m.mem = s.ms.mem ∧ m.move = s.ms.move := by
  obtain ⟨l, -, ht, -, hu⟩ := State.placeAt_of_engineLands h
  obtain ⟨g, hg⟩ := s.logWalk_log (s.own.ownerOr o) acc va
  refine ⟨markFound (s.own.ownerOr o) acc s.ms (va, .at pa l), g, by simp only [State.markSpot, hg, ht], ?_, rfl⟩
  simp only [markFound, markUsed, hu, if_true]
  cases l.loc <;> rfl

/-- What an access of another agent than a context may change in the module: memory, the scriptorium's caches, the log. -/
theorem State.readHome_of_engineLands {s : State} {o : Nat} {va : Word} {pa : Nat} (h : engineLands s o .load va pa)
    (hd : s.ms.move.done = false) (agent n : Nat) :
    ∃ m g, s.readHome o agent va n = ({ s with ms := m, log := g }, readBytes s.ms.mem pa n) ∧ m.mem = s.ms.mem := by
  obtain ⟨l, hp, -⟩ := State.placeAt_of_engineLands h
  obtain ⟨m, g, hm, hmem, hmove⟩ := State.markSpot_of_engineLands h
  obtain ⟨g', hg⟩ := State.logAccess_log { s with ms := m.recallRange pa n, log := g } agent o 0 pa
  refine ⟨m.recallRange pa n, g', ?_, by simp [hmem]⟩
  simp only [State.readHome, hp, hm, hg, Prod.mk.injEq, true_and]
  rw [MemSystem.homeAddr_of_not_done _ _ (by rw [MemSystem.recallRange_move, hmove]; exact hd), MemSystem.recallRange_mem, hmem]

theorem State.writeHome_of_engineLands {s : State} {o : Nat} {va : Word} {pa : Nat} (h : engineLands s o .store va pa)
    (hd : s.ms.move.done = false) (agent : Nat) (bs : List Byte) :
    ∃ m g, s.writeHome o agent va bs = { s with ms := m, scr := s.scr.invalidateRange pa bs.length, log := g }
      ∧ m.mem = writeBytes s.ms.mem pa bs := by
  obtain ⟨l, hp, -, hr, -⟩ := State.placeAt_of_engineLands h
  obtain ⟨m, g, hm, hmem, hmove⟩ := State.markSpot_of_engineLands h
  obtain ⟨g', hg⟩ := State.logAccess_log
    { s with ms := (m.recallRange pa bs.length).put pa bs, scr := s.scr.invalidateRange pa bs.length, log := g } agent o 1 pa
  refine ⟨(m.recallRange pa bs.length).put pa bs, g', ?_, ?_⟩
  · simp only [State.writeHome, hp, hm, hr, State.logCopies, Bool.false_eq_true, if_false, hg]
  · simp only [MemSystem.put]
    rw [MemSystem.homeAddr_of_not_done _ _ (by rw [MemSystem.recallRange_move, hmove]; exact hd), MemSystem.recallRange_mem, hmem]

/-- The old value comes back, and the new one, where the operation stores one, takes its place. -/
theorem State.amoHome_of_engineLands {s : State} {o : Nat} {va : Word} {pa : Nat} (h : engineLands s o .atomic va pa)
    (hd : s.ms.move.done = false) (agent n : Nat) (op : AmoOp) (b cmp : Nat) :
    ∃ m g, s.amoHome o agent va n op b cmp
        = ({ s with ms := m, scr := s.scr.invalidateRange pa n, log := g }, readLE s.ms.mem pa n)
      ∧ m.mem = match (amoNew op n (readLE s.ms.mem pa n) b cmp).1 with
        | none => s.ms.mem
        | some v => writeLE s.ms.mem pa n v := by
  obtain ⟨l, hp, -, hr, -⟩ := State.placeAt_of_engineLands h
  obtain ⟨m, g, hm, hmem, hmove⟩ := State.markSpot_of_engineLands h
  have hhome : (m.recallRange pa n).homeAddr pa = pa :=
    MemSystem.homeAddr_of_not_done _ _ (by rw [MemSystem.recallRange_move, hmove]; exact hd)
  have hold : readLE (m.recallRange pa n).mem ((m.recallRange pa n).homeAddr pa) n = readLE s.ms.mem pa n := by
    rw [hhome, MemSystem.recallRange_mem, hmem]
  unfold State.amoHome
  simp only [hp, hm, hold, hr, State.logCopies, Bool.false_eq_true, if_false]
  cases he : (amoNew op n (readLE s.ms.mem pa n) b cmp).1 with
  | none =>
    obtain ⟨g', hg⟩ := State.logAccess_log { s with ms := m.recallRange pa n, scr := s.scr.invalidateRange pa n, log := g } agent o 2 pa
    exact ⟨m.recallRange pa n, g', by simp only [hg], by simp only [MemSystem.recallRange_mem, hmem]⟩
  | some v =>
    obtain ⟨g', hg⟩ := State.logAccess_log
      { s with ms := (m.recallRange pa n).put pa (leBytes n v), scr := s.scr.invalidateRange pa n, log := g } agent o 2 pa
    exact ⟨(m.recallRange pa n).put pa (leBytes n v), g', by simp only [hg],
      by simp only [MemSystem.put, hhome, MemSystem.recallRange_mem, hmem, writeLE]⟩

/-! ### Sorted lists and sets -/

theorem mem_putAt_same {α : Type} (k : Nat) (v : α) (l : List (Nat × α)) : (k, v) ∈ putAt k v l := by
  induction l with
  | nil => simp [putAt]
  | cons p r ih =>
    obtain ⟨j, w⟩ := p
    unfold putAt
    split
    · simp
    split
    · simp
    · exact .tail _ ih

theorem mem_setAdd (k j : Nat) (l : List Nat) : j ∈ setAdd k l ↔ j = k ∨ j ∈ l := by
  induction l with
  | nil => simp [setAdd]
  | cons a r ih =>
    unfold setAdd
    split
    · simp
    split
    · next h => subst h; simp
    · simp only [List.mem_cons, ih]
      tauto

theorem mem_foldl_setAdd (j : Nat) (as l : List Nat) : j ∈ as.foldl (fun l i => setAdd i l) l ↔ j ∈ as ∨ j ∈ l := by
  induction as generalizing l with
  | nil => simp
  | cons a r ih =>
    rw [List.foldl_cons, ih, mem_setAdd, List.mem_cons]
    tauto

/-! ### Pending updates (R112, R130) -/

theorem State.commitAll_of_none (s : State) (h : s.ms.pending = []) : s.commitAll = s := by
  have hm : s.ms.commitAll = s.ms := by
    simp only [MemSystem.commitAll, h, List.foldl_nil]
    rw [← h]
  simp only [State.commitAll, hm, h, List.foldl_nil]

theorem State.scriptRelease_of_none (s : State) (h : s.ms.pending = []) (rl : Bool) : s.scriptRelease rl = s := by
  cases rl
  · rfl
  · exact s.commitAll_of_none h

/-! ### Accesses of the scriptorium (R24, R130) -/

/-- An access of a size, aligned to it, of an owner whose cores run. -/
theorem State.execScriptoriumAccess_runs (s : State) (a : ScrAccess) (o : Nat) (ho : scrOwner a = some o) (hr : s.scriptRuns o = true)
    (hready : s.host.ready = true) (ha : scrAligned a = true) : execScriptoriumAccess a s = .next (s.scriptAccess a) := by
  simp [execScriptoriumAccess, ho, hr, ha, hready]

theorem State.execScriptoriumAccess_idle (s : State) (a : ScrAccess) (o : Nat) (ho : scrOwner a = some o)
    (h : s.scriptRuns o = false ∨ s.host.ready = false) : execScriptoriumAccess a s = .next s := by
  simp only [execScriptoriumAccess, ho]
  rcases h with h | h <;> simp [h]

theorem sized_aligned {va : Word} {n : Nat} (h : (n = 1 ∨ n = 2 ∨ n = 4 ∨ n = 8) ∧ va.toNat % n = 0) :
    ((n == 1 || n == 2 || n == 4 || n == 8) && va.toNat % n == 0) = true := by
  obtain ⟨hn, ha⟩ := h
  simpa [ha, or_assoc] using hn

theorem State.scriptLoad_of_engineLands {s : State} {o : Nat} {va : Word} {pa : Nat} (h : engineLands s o .load va pa)
    (hd : s.ms.move.done = false) (n : Nat) :
    (s.scriptLoad o va n).ms.mem = s.ms.mem ∧ (s.scriptLoad o va n).cx = s.cx
      ∧ (s.scriptLoad o va n).scr.loads = s.scr.loads ++ [wd (readLE s.ms.mem pa n)] := by
  obtain ⟨m, g, hq, hm⟩ := State.readHome_of_engineLands h hd 6 n
  refine ⟨?_, ?_, ?_⟩
  all_goals simp only [State.scriptLoad, hq, hm]
  rfl

theorem State.scriptStore_of_engineLands {s : State} {o : Nat} {va : Word} {pa : Nat} (h : engineLands s o .store va pa)
    (hd : s.ms.move.done = false) (hw : s.ms.mem.wf = true) (bs : List Byte) :
    storesBytes pa bs s (s.scriptStore o va bs) ∧ (s.scriptStore o va bs).cx = s.cx ∧ (s.scriptStore o va bs).scr.loads = s.scr.loads
      ∧ ∃ d ∈ (s.scriptStore o va bs).scr.dirty, d.1 = lineOf pa := by
  obtain ⟨l, hp, -⟩ := State.placeAt_of_engineLands h
  obtain ⟨m, g, hq, hm⟩ := State.writeHome_of_engineLands h hd 6 bs
  unfold State.scriptStore
  rw [hp]
  dsimp only
  rw [hq]
  exact ⟨storesBytes_of_mem hw hm, rfl, rfl, _, mem_putAt_same .., rfl⟩

/-- A swap, an addition and a compare-and-swap of n bytes (R24), in integers. -/
theorem amoNew_result (m : Memory) (hw : m.wf = true) (pa n op data cmp : Nat) (ho : op = 0 ∨ op = 1 ∨ op = 9) :
    readLE (match (amoNew (amoOf op) n (readLE m pa n) data cmp).1 with
      | none => m
      | some v => writeLE m pa n v) pa n
    = if op = 0 then data % 256^n else if op = 1 then (readLE m pa n + data) % 256^n
      else if readLE m pa n = cmp % 256^n then data % 256^n else readLE m pa n := by
  have hp : 2 ^ (8 * n) = 256 ^ n := by rw [Nat.pow_mul]
  have hold := readLE_lt m pa n
  rcases ho with rfl | rfl | rfl
  · simp [amoOf, amoNew, readLE_writeLE m hw, hp]
  · simp [amoOf, amoNew, readLE_writeLE m hw, hp, BitVec.toNat_add]
  · have heq : BitVec.ofNat (8 * n) (readLE m pa n) = BitVec.ofNat (8 * n) cmp ↔ readLE m pa n = cmp % 256^n := by
      rw [← BitVec.toNat_inj, BitVec.toNat_ofNat, BitVec.toNat_ofNat, hp, Nat.mod_eq_of_lt hold]
    have hcas : (amoNew (amoOf 9) n (readLE m pa n) data cmp).1 = if readLE m pa n = cmp % 256^n then some (data % 256^n) else none := by
      simp [amoOf, amoNew, heq, hp]
    rw [hcas]
    by_cases hc : readLE m pa n = cmp % 256^n
    · simp only [if_pos hc, readLE_writeLE m hw]
      simp
    · simp only [if_neg hc]
      simp

theorem readByte_writeLE_outside (m : Memory) (hw : m.wf = true) (pa n v q : Nat) (h : q < pa ∨ pa + n ≤ q) :
    readByte (writeLE m pa n v) q = readByte m q :=
  readByte_writeBytes_outside _ m hw pa q (by simpa using h)

theorem State.scriptAmo_of_engineLands {s : State} {o : Nat} {va : Word} {pa : Nat} (h : engineLands s o .atomic va pa)
    (hd : s.ms.move.done = false) (hw : s.ms.mem.wf = true) (hp : s.ms.pending = []) (n op : Nat) (data cmp : Word) (aq rl : Bool)
    (ho : op = 0 ∨ op = 1 ∨ op = 9) :
    let old := readLE s.ms.mem pa n
    let t := s.scriptAccess (.amo o va n op data cmp aq rl)
    t.cx = s.cx ∧ t.scr.loads = s.scr.loads ++ [wd old] ∧ sameOutside pa n s t
      ∧ readLE t.ms.mem pa n = (if op = 0 then data.toNat % 256^n else if op = 1 then (old + data.toNat) % 256^n
        else if old = cmp.toNat % 256^n then data.toNat % 256^n else old) := by
  obtain ⟨m, g, hq, hm⟩ := State.amoHome_of_engineLands h hd 6 n (amoOf op) data.toNat cmp.toNat
  have e : s.scriptAccess (.amo o va n op data cmp aq rl) = { s with
      ms := m, log := g
      scr := { s.scr.invalidateRange pa n with loads := s.scr.loads ++ [wd (readLE s.ms.mem pa n)] } } := by
    simp only [State.scriptAccess, State.remotePlace_of_engineLands h, s.scriptRelease_of_none hp, hq]
    rfl
  rw [e]
  refine ⟨rfl, rfl, fun q hq => ?_, ?_⟩
  · dsimp only
    rw [hm]
    split
    · rfl
    · exact readByte_writeLE_outside _ hw pa n _ q hq
  · dsimp only
    rw [hm]
    exact amoNew_result s.ms.mem hw pa n op data.toNat cmp.toNat ho

/-- LR loads as a load does, and reserves the line of what it loads. -/
theorem State.scriptLr_of_engineLands {s : State} {o : Nat} {va : Word} {pa : Nat} (h : engineLands s o .load va pa)
    (hd : s.ms.move.done = false) (hp : s.ms.pending = []) (k n : Nat) (aq rl : Bool) :
    let t := s.scriptAccess (.lr k o va n aq rl)
    t.ms.mem = s.ms.mem ∧ t.cx = s.cx ∧ t.scr.loads = s.scr.loads ++ [wd (readLE s.ms.mem pa n)] ∧ (k, lineOf pa) ∈ t.scr.reserved := by
  obtain ⟨l, hpl, -⟩ := State.placeAt_of_engineLands h
  obtain ⟨hmem, hcx, hloads⟩ := State.scriptLoad_of_engineLands h hd n
  simp only [State.scriptAccess, State.remotePlace_of_engineLands h, s.scriptRelease_of_none hp, hpl]
  exact ⟨hmem, hcx, hloads, mem_putAt_same ..⟩

/-- SC stores and gives 0 while its core's reservation of the line stands; else it gives 1 and stores nothing. -/
theorem State.scriptSc_of_engineLands {s : State} {o : Nat} {va : Word} {pa : Nat} (h : engineLands s o .store va pa)
    (hd : s.ms.move.done = false) (hw : s.ms.mem.wf = true) (hp : s.ms.pending = []) (k n : Nat) (data : Word) (aq rl : Bool) :
    let t := s.scriptAccess (.sc k o va n data aq rl)
    t.cx = s.cx
      ∧ ((k, lineOf pa) ∈ s.scr.reserved → storesBytes pa (leBytes n data.toNat) s t ∧ t.scr.loads = s.scr.loads ++ [0])
      ∧ ((k, lineOf pa) ∉ s.scr.reserved → t.ms = s.ms ∧ t.scr.loads = s.scr.loads ++ [1]) := by
  obtain ⟨l, hpl, -⟩ := State.placeAt_of_engineLands h
  obtain ⟨hst, hcx, hloads, -⟩ := State.scriptStore_of_engineLands h hd hw (leBytes n data.toNat)
  by_cases hr : (k, lineOf pa) ∈ s.scr.reserved
  · have hc : s.scr.reserved.contains (k, lineOf pa) = true := List.contains_iff_mem.mpr hr
    have e : s.scriptAccess (.sc k o va n data aq rl) = { s.scriptStore o va (leBytes n data.toNat) with
        scr := { (s.scriptStore o va (leBytes n data.toNat)).scr with
          reserved := dropAt k (s.scriptStore o va (leBytes n data.toNat)).scr.reserved, loads := s.scr.loads ++ [0] } } := by
      simp only [State.scriptAccess, State.remotePlace_of_engineLands h, s.scriptRelease_of_none hp, hpl, hc, if_true, hloads]
    rw [e]
    exact ⟨hcx, fun _ => ⟨hst, rfl⟩, fun h => absurd hr h⟩
  · have hc : s.scr.reserved.contains (k, lineOf pa) = false := Bool.eq_false_iff.mpr fun h => hr (List.contains_iff_mem.mp h)
    have e : s.scriptAccess (.sc k o va n data aq rl)
        = { s with scr := { s.scr with reserved := dropAt k s.scr.reserved, loads := s.scr.loads ++ [1] } } := by
      simp only [State.scriptAccess, State.remotePlace_of_engineLands h, s.scriptRelease_of_none hp, hpl, hc, Bool.false_eq_true, if_false]
    rw [e]
    exact ⟨rfl, fun h => absurd h hr, fun _ => ⟨rfl, rfl⟩⟩

theorem State.execScriptoriumAccess_fence (s : State) (h : s.host.ready = true) :
    execScriptoriumAccess .fence s = .next s.commitAll := by
  simp [execScriptoriumAccess, scrOwner, scrAligned, h, State.scriptAccess, State.scriptRelease]

/-! ### What a record leaves of the scriptorium's caches -/

/-- Lines may go; which cores are stopped is as before. -/
def Scriptorium.dropsTo (c d : Scriptorium) : Prop := d.stopped = c.stopped ∧ d.lines ⊆ c.lines

theorem Scriptorium.dropsTo.refl (c : Scriptorium) : c.dropsTo c := ⟨rfl, List.Subset.refl _⟩

theorem Scriptorium.dropsTo.trans {c d e : Scriptorium} (h : c.dropsTo d) (k : d.dropsTo e) : c.dropsTo e :=
  ⟨k.1.trans h.1, fun _ ha => h.2 (k.2 ha)⟩

theorem Scriptorium.dropsTo_invalidateRange (c : Scriptorium) (pa n : Nat) : c.dropsTo (c.invalidateRange pa n) :=
  ⟨rfl, List.filter_subset_self _⟩

theorem Scriptorium.dropsTo_foldl {α : Type} (f : Scriptorium → α → Scriptorium) (h : ∀ (c : Scriptorium) (a : α), c.dropsTo (f c a))
    (l : List α) (c : Scriptorium) :
    c.dropsTo (l.foldl f c) := by
  induction l generalizing c with
  | nil => exact .refl c
  | cons a r ih => exact (h c a).trans (ih (f c a))

theorem Scriptorium.dropsTo_dropCopies (c : Scriptorium) (pa n : Nat) : c.dropsTo (c.dropCopies pa n) :=
  Scriptorium.dropsTo_foldl _ (fun d a => Scriptorium.dropsTo_invalidateRange d a n) _ c

theorem State.commitAll_dropsTo (s : State) : s.scr.dropsTo s.commitAll.scr := by
  unfold State.commitAll
  apply Scriptorium.dropsTo_foldl
  intro c u
  exact c.dropsTo_dropCopies u.pa u.data.length

theorem State.atQueue_dropsTo (s : State) (o : OwnerRec) : s.scr.dropsTo (s.atQueue o).scr := by
  unfold State.atQueue
  split
  · exact s.commitAll_dropsTo
  all_goals exact .refl _

theorem State.writePin_dropsTo (s : State) (o : OwnerRec) (va : Word) (bs : List Byte) : s.scr.dropsTo (s.writePin o va bs).scr := by
  unfold State.writePin
  split
  · exact .refl _
  · exact .refl _
  · next pa repl _ =>
    dsimp only
    split
    · obtain ⟨g, hg⟩ := State.logCopies_log
        { s with ms := (markPin s.ms s.tick o va).putCopies pa bs, scr := s.scr.dropCopies pa bs.length } repl Config.dispatcherAgent o.num 1 pa
      rw [hg]
      exact s.scr.dropsTo_dropCopies pa bs.length
    · obtain ⟨g, hg⟩ := State.logCopies_log
        { s with ms := ((markPin s.ms s.tick o va).recallRange pa bs.length).put pa bs, scr := s.scr.invalidateRange pa bs.length }
        repl Config.dispatcherAgent o.num 1 pa
      rw [hg]
      exact s.scr.dropsTo_invalidateRange pa bs.length

theorem State.fireMsix_scr (s : State) (l : List VFunc) (v : Nat) : (s.fireMsix l v).scr = s.scr := by
  unfold State.fireMsix
  split <;> rfl

theorem State.ownerCopy_dropsTo (s : State) (o : Nat) (e : ErrRec) : s.scr.dropsTo (s.ownerCopy o e).1.scr := by
  unfold State.ownerCopy
  dsimp only
  split
  · exact .refl _
  split
  · exact .refl _
  · exact .refl _
  · exact .refl _
  · rw [State.fireMsix_scr]
    exact (s.atQueue_dropsTo _).trans ((State.writePin_dropsTo ..).trans (State.writePin_dropsTo ..))

theorem State.hostCopy_scr (s : State) (e : ErrRec) : (s.hostCopy e).scr = s.scr := by
  obtain ⟨h, hh⟩ := s.hostCopy_cases e
  rw [hh]

theorem State.report_dropsTo (s : State) (e : ErrRec) : s.scr.dropsTo (s.report e).scr := by
  have owner := s.ownerCopy_dropsTo e.owner { e with time := s.time, num := s.disp.errNum + 1 }
  unfold State.report
  by_cases h0 : e.owner = 0
  · simp only [h0, if_true]
    split
    · rw [State.hostCopy_scr]; exact .refl _
    · exact .refl _
  · simp only [h0, if_false]
    split
    · rw [State.hostCopy_scr]; exact owner
    · exact owner

/-! ### Lost lines (R354) -/

theorem lineOf_lineOf (a : Nat) : lineOf (lineOf a) = lineOf a := by
  simp [lineOf]

theorem Scriptorium.not_mem_invalidate (c : Scriptorium) (line : Nat) : lineOf line ∉ (c.invalidate (lineOf line)).lines := by
  simp [Scriptorium.invalidate, lineOf_lineOf]

theorem State.hostCopy_ready (s : State) (e : ErrRec) : (s.hostCopy e).host.ready = s.host.ready := by
  unfold State.hostCopy
  by_cases hl : (!s.host.leased) = true
  · rw [if_pos hl]
  · rw [if_neg hl]
    extract_lets k p log
    split <;> rfl

/-- A record for the management core alone leaves the host ports as ready as they were. -/
theorem State.report_ready (s : State) (e : ErrRec) (h : e.owner = 0) : (s.report e).host.ready = s.host.ready := by
  unfold State.report
  simp only [h, if_true]
  split
  · rw [State.hostCopy_ready]
  · rfl

theorem State.deviceRung_ready (s : State) : s.deviceRung.host.ready = false := rfl

/-- The last record is the SCRCACHE record. -/
theorem State.scrRecord_last (s : State) (dest line reason owner : Nat) :
    ∃ e, (s.scrRecord dest line reason owner).disp.errors.getLast? = some e ∧ e.cls = Err.scrCache ∧ e.addr = wd line ∧ e.val1 = wd reason
      ∧ e.val2 = wd owner := by
  obtain ⟨-, -, -, -, -, -, -, -, -, d, he⟩ := s.report_frame (errRec Err.scrCache dest (wd line) (wd reason) (wd owner))
  exact ⟨_, by rw [State.scrRecord, he, List.getLast?_concat], rfl, rfl, rfl, rfl⟩

theorem State.replayQueues_scr_of_none (s : State) (owner : Nat) (h : ∀ ix, s.own.holder 4 ix ≠ owner) :
    (s.replayQueues owner).scr = s.scr := by
  have hq : (s.disp.queues.filter fun q => s.own.holder 4 q.num == owner) = [] :=
    List.filter_eq_nil_iff.mpr fun q _ => by simpa using h q.num
  simp only [State.replayQueues, hq, List.map_nil, List.foldl_nil]

/-- The partition rung of an owner that holds no queue, core or channel and runs no launch touches no scriptorium cache. -/
theorem State.startPartition_scr_of_none (s : State) (p : Nat) (hl : ∀ l ∈ s.disp.launches, l.state ≠ .running)
    (hh : ∀ cls ix, cls ≠ 3 → cls ≠ 11 → s.own.holder cls ix ≠ p) : (s.startPartition p).scr = s.scr := by
  have launches : (s.disp.launches.filter fun l => l.state == .running && (l.owner == p || s.own.holder 0x04 l.queue == p)) = [] :=
    List.filter_eq_nil_iff.mpr fun l hm => by simp [hl l hm]
  have channels : ((List.range 384).filter fun c => s.own.holder 0x05 c == p) = [] :=
    List.filter_eq_nil_iff.mpr fun c _ => by simpa using hh 5 c (by decide) (by decide)
  have cores : s.ownedCores p = [] :=
    List.filter_eq_nil_iff.mpr fun c _ => by simpa using hh 1 c (by decide) (by decide)
  simp only [State.startPartition, State.startRung, State.resetPartition, launches, channels, cores, List.foldl_nil]
  exact State.replayQueues_scr_of_none _ p fun ix => hh 4 ix (by decide) (by decide)

theorem State.execScrcache_clean (s : State) (line : Nat) (h : s.host.ready = true) :
    let a := lineOf line
    ∃ t, execScrcache line false s = .next t ∧ records s t Err.scrCache (wd a) 1 ∧ t.cx = s.cx ∧ a ∉ t.scr.lines := by
  intro a
  let p := if backed a then s.own.holder 0x03 (plotOf a) else 1
  let u : State := { s with scr := s.scr.invalidate a }
  have hu := u.report_dropsTo (errRec Err.scrCache p (wd a) (wd 1) (wd p))
  refine ⟨u.scrRecord p a 1 p, by simp [execScrcache, h, u, a, p], u.report_records _, (u.report_frame _).1, fun hm => ?_⟩
  exact s.scr.not_mem_invalidate line (hu.2 hm)

theorem State.execScrcache_device (s : State) (line : Nat) (h : s.host.ready = true)
    (hp : (if backed (lineOf line) then s.own.holder 0x03 (plotOf (lineOf line)) else 1) = 1) :
    ∃ t e, execScrcache line true s = .next t ∧ t.host.ready = false ∧ t.disp.errors.getLast? = some e
      ∧ e.cls = Err.scrCache ∧ e.addr = wd (lineOf line) ∧ e.val1 = 3 := by
  obtain ⟨e, he, hcls, haddr, hval, -⟩ := s.deviceRung.scrRecord_last 0 (lineOf line) 3 1
  refine ⟨s.deviceRung.scrRecord 0 (lineOf line) 3 1, e, ?_, ?_, he, hcls, haddr, hval⟩
  · simp only [execScrcache, h, hp, Bool.not_true, Bool.false_eq_true, if_false, if_true]
  · exact (s.deviceRung.report_ready _ rfl).trans s.deviceRung_ready

theorem State.execScrcache_partition (s : State) (line p : Nat) (h : s.host.ready = true)
    (hp : (if backed (lineOf line) then s.own.holder 0x03 (plotOf (lineOf line)) else 1) = p) (hne : p ≠ 1)
    (hl : ∀ l ∈ s.disp.launches, l.state ≠ .running) (hh : ∀ cls ix, cls ≠ 3 → cls ≠ 11 → s.own.holder cls ix ≠ p) :
    ∃ t e, execScrcache line true s = .next t ∧ t.disp.errors.getLast? = some e ∧ e.cls = Err.scrCache ∧ e.addr = wd (lineOf line)
      ∧ e.val1 = 2 ∧ e.val2 = wd p ∧ ∀ i, i < 16 → s.own.holder 11 i = p → i ∈ t.scr.stopped := by
  let u := s.loseLine (lineOf line)
  let mine := (List.range 16).filter fun i => s.own.holder 0x0B i == p
  let v : State := { u with scr := { u.scr with stopped := mine.foldl (fun l i => setAdd i l) u.scr.stopped } }
  have hu : u.own = s.own ∧ u.disp = s.disp := by
    dsimp only [u, State.loseLine]
    split <;> exact ⟨rfl, rfl⟩
  obtain ⟨e, he, hcls, haddr, hval1, hval2⟩ := (v.startPartition p).scrRecord_last 1 (lineOf line) 2 p
  refine ⟨(v.startPartition p).scrRecord 1 (lineOf line) 2 p, e, ?_, he, hcls, haddr, hval1, hval2, fun i hi hown => ?_⟩
  · simp only [execScrcache, h, hp, if_neg hne, Bool.not_true, Bool.false_eq_true, if_false]
    rfl
  · have hscr : (v.startPartition p).scr = v.scr :=
      v.startPartition_scr_of_none p (by rw [show v.disp = s.disp from hu.2]; exact hl) (by rw [show v.own = s.own from hu.1]; exact hh)
    rw [State.scrRecord, (State.report_dropsTo _ _).1, hscr]
    exact (mem_foldl_setAdd i mine _).mpr (.inl (List.mem_filter.mpr ⟨List.mem_range.mpr hi, by simpa using hown⟩))

/-- Settles O50: each access of an engine's address that lands acts at home; the three ways a line is lost. -/
theorem scriptoriumResults : Obligations.ScriptoriumResults := by
  unfold Obligations.ScriptoriumResults
  intro s o va data cmp n op pa line k aq rl access runs sized a p
  refine ⟨fun h => ?_, fun hr hn hd hw hp => ?_, fun h => ?_, fun h d => ?_, fun h => ⟨s.execScrcache_clean line h, fun hp => ?_, fun hp hl hh => ?_⟩⟩
  · have idle : ∀ b, scrOwner b = some o → access b = .next s := fun b ho => s.execScriptoriumAccess_idle b o ho h
    exact ⟨idle _ rfl, idle _ rfl, idle _ rfl, idle _ rfl, idle _ rfl⟩
  · have acts : ∀ b, scrOwner b = some o → scrAligned b = true → access b = .next (s.scriptAccess b) := fun b ho ha =>
      s.execScriptoriumAccess_runs b o ho hr.1 hr.2 ha
    have ha := sized_aligned hn
    refine ⟨fun h => ⟨_, acts _ rfl ha, ?_⟩, fun h => ⟨_, acts _ rfl ha, ?_⟩, fun h ho => ⟨_, acts _ rfl ha, ?_⟩, fun h => ⟨_, acts _ rfl ha, ?_⟩,
      fun h => ?_⟩
    · simp only [State.scriptAccess, State.remotePlace_of_engineLands h]
      exact State.scriptLoad_of_engineLands h hd n
    · simp only [State.scriptAccess, State.remotePlace_of_engineLands h]
      exact State.scriptStore_of_engineLands h hd hw _
    · exact State.scriptAmo_of_engineLands h hd hw hp n op data cmp aq rl ho
    · exact State.scriptLr_of_engineLands h hd hp k n aq rl
    · obtain ⟨hcx, hmine, hlost⟩ := State.scriptSc_of_engineLands h hd hw hp k n data aq rl
      exact ⟨fun hm => ⟨_, acts _ rfl ha, (hmine hm).1, hcx, (hmine hm).2⟩, fun hm => ⟨_, acts _ rfl ha, (hlost hm).1, hcx, (hlost hm).2⟩⟩
  · exact ⟨_, s.execScriptoriumAccess_fence h, s.ms.commitAll_pending, rfl, s.commitAll_of_none⟩
  · simp [exec, execScrcache, h]
  · exact s.execScrcache_device line h hp
  · exact s.execScrcache_partition line p h rfl hp hl hh

end Sys2Proof.Machine
end

section
/-! PROOFS. Halts (03 R56, R57; 14 R285): what a core's stop and its end leave, and how far each limit of its contexts moves on. -/

namespace Sys2Proof.Machine

open Sys2Proof

/-! ### A halted core (R56) -/

@[simp] theorem haltCore_halted (now : Nat) (c : Core) : (haltCore now c).halted = true := by
  unfold haltCore; split
  · assumption
  · rfl

theorem haltCore_of_running {now : Nat} {c : Core} (h : c.halted = false) : haltCore now c = { c with halted := true, haltedAt := now } := by
  simp [haltCore, h]

theorem State.coreAt_num (s : State) (n : Nat) : (s.coreAt n).num = n := by
  unfold State.coreAt
  split
  · assumption
  · cases h : s.cores.find? fun c => c.num == n with
    | none => rfl
    | some c => simpa using List.find?_some h

@[simp] theorem State.coreAt_co (s : State) : s.coreAt s.co.num = s.co := by simp [State.coreAt]

@[simp] theorem State.updCore_cx (s : State) (n : Nat) (f : Core → Core) : (s.updCore n f).cx = s.cx := by
  unfold State.updCore; split <;> rfl

/-- A core changed under its own number is found as changed. -/
theorem State.coreAt_updCore_same (s : State) (n : Nat) (f : Core → Core) (h : (f (s.coreAt n)).num = n) :
    (s.updCore n f).coreAt n = f (s.coreAt n) := by
  by_cases hn : s.co.num = n
  · subst hn
    rw [State.coreAt_co] at h ⊢
    simp [State.updCore, State.coreAt, h]
  · simp [State.updCore, State.coreAt, hn] at h ⊢
    simp [h]

theorem State.updCore_focus {s : State} {n : Nat} (f : Core → Core) (h : s.co.num = n) : s.updCore n f = { s with co := f s.co } := by
  simp [State.updCore, h]

/-- One halt group taken from those signalled: its bit is clear, every other as it was. -/
theorem testBit_clearBit (w : BitVec 16) (h j : Fin 16) :
    (w &&& ~~~(BitVec.ofNat 16 (2^h.val))).toNat.testBit j.val = (w.toNat.testBit j.val && decide (j ≠ h)) := by
  rw [BitVec.testBit_toNat, BitVec.testBit_toNat, BitVec.getLsbD_and, BitVec.getLsbD_not, BitVec.getLsbD_ofNat, Nat.testBit_two_pow]
  simp [Fin.ext_iff, eq_comm]

/-! ### Contexts resumed (R57) -/

theorem Rank.is_iff {r : Rank} {k : RankKey} {run : Nat} : r.is k run = true ↔ r.key = k ∧ r.run = run := by
  simp [Rank.is]

theorem Rank.is_comm (r q : Rank) : r.is q.key q.run = q.is r.key r.run := by
  rw [Bool.eq_iff_iff, Rank.is_iff, Rank.is_iff, eq_comm, @eq_comm _ r.run]

/-- t is s but for what the end of another rank's halt changes: the rank in focus, its context and its core are as they were, and so is each
load that the context waits for. -/
def State.keepsFocus (s t : State) : Prop :=
  t.cx = s.cx ∧ t.rk = s.rk ∧ t.co = s.co ∧ t.ms = s.ms ∧ t.own = s.own ∧ t.time = s.time
    ∧ ∀ q ∈ s.fab.requests, q.issuer = .load s.rk.key s.rk.run s.cx.num → q ∈ t.fab.requests

theorem State.keepsFocus.refl (s : State) : s.keepsFocus s := ⟨rfl, rfl, rfl, rfl, rfl, rfl, fun _ h _ => h⟩

theorem State.keepsFocus.trans {s t u : State} (h : s.keepsFocus t) (k : t.keepsFocus u) : s.keepsFocus u := by
  obtain ⟨hcx, hrk, hco, hms, hown, htime, hq⟩ := h
  obtain ⟨kcx, krk, kco, kms, kown, ktime, kq⟩ := k
  refine ⟨kcx.trans hcx, krk.trans hrk, kco.trans hco, kms.trans hms, kown.trans hown, ktime.trans htime, fun q hm hi => ?_⟩
  exact kq q (hq q hm hi) (by rw [hrk, hcx]; exact hi)

/-- The times of another rank moved on. -/
theorem State.resumeTimes_keepsFocus {s : State} {r : Rank} (h : r.is s.rk.key s.rk.run = false) : s.keepsFocus (s.resumeTimes r) := by
  have hs : s.rk.is r.key r.run = false := by rw [Rank.is_comm, h]
  unfold State.resumeTimes
  dsimp only
  split
  · exact .refl s
  · refine ⟨?_, ?_, ?_, ?_, ?_, ?_, fun q hm hi => ?_⟩ <;> simp [State.updCtxs, State.updRanks, State.updRank, hs]
    exact ⟨q, hm, by simp [hi, Issuer.context?, h]⟩

theorem State.foldl_resumeTimes_keepsFocus {s : State} {l : List Rank} (h : ∀ r ∈ l, r.is s.rk.key s.rk.run = false) :
    s.keepsFocus (l.foldl State.resumeTimes s) := by
  induction l generalizing s with
  | nil => exact .refl s
  | cons r l ih =>
    have first := State.resumeTimes_keepsFocus (h r (.head _))
    exact first.trans (ih (by rw [first.2.1]; exact fun q hq => h q (.tail _ hq)))

/-- A change to the rank in focus by its name. -/
theorem State.updRank_of_is {s : State} {k : RankKey} {run : Nat} (f : Rank → Rank) (h : s.rk.is k run = true) (hl : s.rk.state = .running) :
    s.updRank k run f = { s with rk := f s.rk } := by
  simp [State.updRank, h, hl]

/-- A change to every context of the rank in focus by its name. -/
theorem State.updCtxs_of_is {s : State} {k : RankKey} {run : Nat} (f : Context → Context) (h : s.rk.is k run = true)
    (hl : s.rk.state = .running) : ∃ rs, s.updCtxs (fun r => r.is k run) f
      = { s with cx := f s.cx, rk := { s.rk with ctxs := s.rk.ctxs.map f }, ranks := rs } := by
  refine ⟨s.ranks.map fun r => if r.is k run then { r with ctxs := r.ctxs.map f } else r, ?_⟩
  simp [State.updCtxs, State.updRanks, h, hl]

/-- The times of the rank in focus, on its halted core, moved on by what of the halt came after its arrival there. -/
theorem State.resumeTimes_self {s : State} (hl : s.live) (hc : s.rk.core = s.co.num) (hh : s.co.halted = true) :
    let since := Nat.max s.co.haltedAt s.rk.since
    let t := s.resumeTimes s.wholeRank
    t.cx = { s.cx with
        wait := s.cx.wait.delayed since s.time
        toPost := s.cx.toPost.map fun w => { w with since := pastHalt since s.time w.since } }
      ∧ t.rk.key = s.rk.key ∧ t.rk.run = s.rk.run ∧ t.co = s.co ∧ t.ms = s.ms ∧ t.own = s.own ∧ t.time = s.time
      ∧ ∀ q ∈ s.fab.requests, q.issuer = .load s.rk.key s.rk.run s.cx.num →
          { q with deadline := q.deadline + (s.time - Nat.max since q.time) } ∈ t.fab.requests := by
  have hcore : s.coreAt s.wholeRank.core = s.co := by rw [show s.wholeRank.core = s.co.num from hc, State.coreAt_co]
  have hme : s.rk.is s.wholeRank.key s.wholeRank.run = true := Rank.is_iff.mpr ⟨rfl, rfl⟩
  unfold State.resumeTimes
  simp only [hcore, hh, Bool.not_true, Bool.false_eq_true, if_false]
  obtain ⟨rs, hctxs⟩ := State.updCtxs_of_is (s := s)
    (fun x => { x with
      wait := x.wait.delayed (Nat.max s.co.haltedAt s.rk.since) s.time
      toPost := x.toPost.map fun w => { w with since := pastHalt (Nat.max s.co.haltedAt s.rk.since) s.time w.since } }) hme hl
  have hsince : s.wholeRank.since = s.rk.since := rfl
  simp only [hsince, hctxs]
  rw [State.updRank_of_is _ (by exact hme) (by exact hl)]
  refine ⟨rfl, rfl, rfl, rfl, rfl, rfl, rfl, fun q hm hi => List.mem_map.mpr ⟨q, hm, ?_⟩⟩
  have his : s.wholeRank.is s.rk.key s.rk.run = true := hme
  simp only [hi, Issuer.context?, his, if_true]

/-! ### Loan terms (R285) -/

theorem Ownership.entry_names (o : Ownership) (cls idx : Nat) : (o.entry cls idx).cls = cls ∧ (o.entry cls idx).idx = idx := by
  unfold Ownership.entry
  cases h : o.entries.find? fun e => e.cls == cls && e.idx == idx with
  | none => exact ⟨rfl, rfl⟩
  | some e => simpa using List.find?_some h

theorem Ownership.entry_setEntry_same (o : Ownership) {e : MapEntry} {cls idx : Nat} (hc : e.cls = cls) (hi : e.idx = idx) :
    (o.setEntry e).entry cls idx = e := by
  simp [Ownership.entry, Ownership.setEntry, hc, hi]

theorem Ownership.entry_setEntry_other (o : Ownership) (e : MapEntry) {cls idx : Nat} (h : cls ≠ e.cls) :
    (o.setEntry e).entry cls idx = o.entry cls idx := by
  have hne : (e.cls == cls) = false := by simpa using Ne.symm h
  simp only [Ownership.entry, Ownership.setEntry, List.find?_cons, hne, Bool.false_and, List.find?_filter]
  congr 2
  funext f
  by_cases hf : f.cls = cls
  · have hkeep : (f.cls == e.cls) = false := by simpa [hf] using h
    simp only [hkeep, Bool.false_and, Bool.not_false, true_and, Bool.decide_eq_true]
  · simp [hf]

/-- The term of a loan moved on. -/
theorem Ownership.extendLoan_expiry {o : Ownership} {cls idx : Nat} (since now : Nat) (h : (o.entry cls idx).lender ≠ 0) :
    ((o.extendLoan cls idx since now).entry cls idx).expiry = (o.entry cls idx).expiry + (now - Nat.max since (o.entry cls idx).lentAt) := by
  obtain ⟨hc, hi⟩ := o.entry_names cls idx
  simp only [Ownership.extendLoan, h, if_false]
  rw [Ownership.entry_setEntry_same _ (by exact hc) (by exact hi)]
  rfl

/-- The loans of another class leave an entry alone. -/
theorem Ownership.extendLoan_other (o : Ownership) {cls other idx idx' : Nat} (since now : Nat) (h : other ≠ cls) :
    (o.extendLoan cls idx since now).entry other idx' = o.entry other idx' := by
  unfold Ownership.extendLoan
  dsimp only
  split
  · rfl
  · exact o.entry_setEntry_other _ (by simpa [(o.entry_names cls idx).1] using h)

theorem Ownership.foldl_extendLoan_other {l : List (Nat × Nat)} {other : Nat} (o : Ownership) (idx since now : Nat) (h : ∀ q ∈ l, other ≠ q.1) :
    (l.foldl (fun o q => o.extendLoan q.1 q.2 since now) o).entry other idx = o.entry other idx := by
  induction l generalizing o with
  | nil => rfl
  | cons q l ih => rw [List.foldl_cons, ih _ fun r hr => h r (.tail _ hr), o.extendLoan_other since now (h q (.head _))]

/-! ### The end of a halt (R57) -/

/-- The ranks that a core holds, its running one in focus: that one first. -/
theorem State.liveRanks_onCore {s : State} (hl : s.live) (hc : s.rk.core = s.co.num) :
    s.liveRanks.filter (Rank.onCore s.co.num) = s.wholeRank :: s.ranks.filter (Rank.onCore s.co.num) := by
  have hl : s.rk.state = .running := hl
  have hon : s.wholeRank.onCore s.co.num = true := by simp [Rank.onCore, State.wholeRank, hc, hl]
  simp [State.liveRanks, hl, hon]

/-- The core in focus, under its running rank, halts no more. -/
theorem State.endHalt_focus {s : State} (hl : s.live) (hc : s.rk.core = s.co.num) (hh : s.co.halted = true)
    (hr : ∀ r ∈ s.ranks, r.is s.rk.key s.rk.run = false) :
    ∃ u, (s.resumeTimes s.wholeRank).keepsFocus u ∧ s.endHalt s.co.num = { u with
      co := { s.co with halted := false }
      own := ((List.range 10).map fun h => (0x02, 10 * s.co.num + h)).foldl (fun o q => o.extendLoan q.1 q.2 s.co.haltedAt s.time)
        (s.own.extendLoan 0x01 s.co.num s.co.haltedAt s.time) } := by
  obtain ⟨-, hkey, hrun, hco, -, hown, -, -⟩ := State.resumeTimes_self hl hc hh
  have rest := State.foldl_resumeTimes_keepsFocus (s := s.resumeTimes s.wholeRank) (l := s.ranks.filter (Rank.onCore s.co.num))
    (by rw [hkey, hrun]; exact fun r hm => hr r (List.mem_filter.mp hm).1)
  have kept := rest
  obtain ⟨-, -, kco, -, kown, -, -⟩ := rest
  refine ⟨_, kept, ?_⟩
  have hfocus := (congrArg Core.num (kco.trans hco))
  simp only [State.endHalt, State.coreAt_co, hh, Bool.not_true, Bool.false_eq_true, if_false, State.liveRanks_onCore hl hc, List.foldl_cons,
    State.updCore_focus _ hfocus, kco.trans hco, kown.trans hown]

/-- The debugger ends the halt of the core in focus: what its running rank's context waits for, and the term of the core's loan, go on. -/
theorem exec_debugResume_focus {s : State} (hl : s.live) (hc : s.rk.core = s.co.num) (hh : s.co.halted = true)
    (hr : ∀ r ∈ s.ranks, r.is s.rk.key s.rk.run = false) :
    let since := Nat.max s.co.haltedAt s.rk.since
    ∃ t, exec (.debugResume s.co.num) s = .next t ∧ t.co = { s.co with halted := false } ∧ t.ms = s.ms
      ∧ t.cx = { s.cx with
          wait := s.cx.wait.delayed since s.time
          toPost := s.cx.toPost.map fun w => { w with since := pastHalt since s.time w.since } }
      ∧ (∀ q ∈ s.fab.requests, q.issuer = .load s.rk.key s.rk.run s.cx.num →
          { q with deadline := q.deadline + (s.time - Nat.max since q.time) } ∈ t.fab.requests)
      ∧ ((s.own.entry 0x01 s.co.num).lender ≠ 0 → (t.own.entry 0x01 s.co.num).expiry
          = (s.own.entry 0x01 s.co.num).expiry + (s.time - Nat.max s.co.haltedAt (s.own.entry 0x01 s.co.num).lentAt)) := by
  obtain ⟨hcx, hkey, hrun, -, hms, -, -, hq⟩ := State.resumeTimes_self hl hc hh
  obtain ⟨u, ⟨kcx, -, -, kms, -, -, kq⟩, he⟩ := State.endHalt_focus hl hc hh hr
  refine ⟨s.endHalt s.co.num, ?_, ?_, ?_, ?_, ?_, ?_⟩
  · show execDebugResume s.co.num s = _
    simp [execDebugResume, hh]
  all_goals rw [he]
  · exact kms.trans hms
  · exact kcx.trans hcx
  · refine fun q hm hi => kq _ (hq q hm hi) ?_
    rw [hkey, hrun, hcx]
    exact hi
  · intro hlent
    rw [Ownership.foldl_extendLoan_other _ _ _ _ (by simp), Ownership.extendLoan_expiry _ _ hlent]

/-- A signalled group's members stop; the signal is taken. -/
theorem exec_haltGroupStop {s : State} {h : Fin 16} (hb : s.signals.toNat.testBit h.val = true) :
    let stops := fun (c : Core) => if c.member.toNat.testBit h.val then haltCore s.time c else c
    exec (.haltGroupStop h) s = .next { s with
      co := stops s.co, cores := s.cores.map stops, signals := s.signals &&& ~~~(BitVec.ofNat 16 (2^h.val)) } :=
  if_pos hb

/-- A core that a group's stop has reached is halted where it is a member. -/
theorem halted_of_member {now : Nat} {h : Fin 16} {c d : Core} (hd : d = if c.member.toNat.testBit h.val then haltCore now c else c)
    (hm : d.member.toNat.testBit h.val = true) : d.halted = true := by
  subst hd
  split
  · exact haltCore_halted now c
  · next hn =>
    rw [if_neg hn] at hm
    exact absurd hm hn

/-- A debugger stops a running core. -/
theorem exec_debugStop {s : State} {core : Nat} (hc : core < 1536) (hh : (s.coreAt core).halted = false) :
    exec (.debugStop core) s = .next { s.updCore core (haltCore s.time) with signals := s.signals ||| (s.coreAt core).signal } := by
  show execDebugStop core s = _
  simp [execDebugStop, hc, hh]

/-- Settles O39: a stop and its signal are one update each; the end of a halt is that of the rank in focus and of ranks that are not it. -/
theorem debugResults : Obligations.DebugResults := by
  intro s h core
  refine ⟨fun hb => ?_, fun hb => ⟨_, exec_haltGroupStop hb, rfl, rfl, ?_, fun j hj => ?_, fun c hc hm => ?_, fun hm => ?_, fun hm hh => ?_⟩,
    fun hlt hh => ⟨_, exec_debugStop hlt hh, ?_, rfl, ?_, ?_, ?_⟩, fun hh => ?_, fun hh => ?_, fun hc hh hl hon hr => ?_⟩
  · show execHaltGroupStop h s = _
    simp [execHaltGroupStop, hb]
  · exact (testBit_clearBit s.signals h h).trans (by simp)
  · exact (testBit_clearBit s.signals h j).trans (by simp [hj])
  · rcases List.mem_cons.mp hc with rfl | hc
    · exact halted_of_member rfl hm
    · obtain ⟨d, -, hd⟩ := List.mem_map.mp hc
      exact halted_of_member hd.symm hm
  · simp [hm]
  · simp [hm, haltCore_of_running hh]
  · rw [← haltCore_of_running (now := s.time) hh]
    refine s.coreAt_updCore_same core _ ?_
    rw [haltCore_of_running hh]
    exact s.coreAt_num core
  · exact s.updCore_cx core _
  · exact s.updCore_ms core _
  · exact s.updCore_ranks core _
  · show execDebugStop core s = _
    simp [execDebugStop, hh]
  · show execDebugResume core s = _
    simp [execDebugResume, hh]
  · subst hc
    obtain ⟨t, ht, hco, hms, hcx, hq, hown⟩ := exec_debugResume_focus hl hon hh hr
    refine ⟨t, ht, hco, hms, by rw [hcx], fun l va hw => ?_, hq, fun hw => ?_, fun hp => ?_, hown⟩
    · rw [hcx, hw]
      rfl
    · rw [hcx, hw]
      rfl
    · rw [hcx, hp]
      rfl

end Sys2Proof.Machine
end

section
/-! PROOFS. Helpers (03 R42 to R44; 11 R223 to R226; 17 R326): how one starts, is joined, ends and is reported. -/

namespace Sys2Proof.Machine

open Sys2Proof

/-! ### Words, their fields and their bits -/

theorem zeroAt_four_iff {w : Word} : zeroAt w 4 60 = true ↔ w.toNat < 16 := by
  simp only [zeroAt, field, beq_iff_eq]
  omega

/-- A word below 2^n is the field of its n low bits. -/
theorem field_of_lt {w : Word} {n : Nat} (h : w.toNat < 2^n) : field w 0 n = w.toNat := by
  simpa [field] using Nat.mod_eq_of_lt h

@[simp] theorem wd_toNat (w : Word) : wd w.toNat = w := by simp [wd]

/-- The sum of distinct powers of two has the bits of their exponents. -/
theorem testBit_sum_two_pow {l : List Nat} (h : l.Nodup) (k : Nat) : (l.map fun i => 2^i).sum.testBit k = true ↔ k ∈ l := by
  rw [← Nat.mem_bitIndices, ← List.sum_toFinset _ h, ← List.mem_toFinset, Finset.toFinset_bitIndices_sum_two_pow, List.mem_toFinset]

/-- Distinct exponents below n have a sum of powers below 2^n. -/
theorem sum_two_pow_lt {l : List Nat} {n : Nat} (h : l.Nodup) (hn : ∀ i ∈ l, i < n) : (l.map fun i => 2^i).sum < 2^n := by
  refine Nat.lt_pow_two_of_testBit _ fun i hi => ?_
  by_contra hb
  have := hn i ((testBit_sum_two_pow h i).mp (by simpa using hb))
  omega

/-- Distinct numbers from 1 to n are n at most. -/
theorem length_le_of_between {l : List Nat} {n : Nat} (h : l.Nodup) (hn : ∀ i ∈ l, 1 ≤ i ∧ i ≤ n) : l.length ≤ n := by
  have hs : l.toFinset ⊆ Finset.Icc 1 n := fun i hi => Finset.mem_Icc.mpr (hn i (List.mem_toFinset.mp hi))
  simpa [List.toFinset_card_of_nodup h] using Finset.card_le_card hs

/-! ### Instructions that complete -/

/-- A state whose context stands where that of s does has moved on from s once it advances. -/
theorem movedOn_advance {s u : State} (hpc : u.cx.pc = s.cx.pc) (hpair : u.cx.pair = s.cx.pair) : movedOn s u.advance :=
  ⟨by rw [State.advance_cx_pc, hpc, hpair], by simp⟩

/-- What a write to a register makes of the context depends on the context alone. -/
theorem State.setX_cx_congr {s t : State} (h : t.cx = s.cx) (d : Reg) (w : Word) : (t.setX d w).cx = (s.setX d w).cx := by
  simp only [State.setX]
  split <;> simp [h]

/-! ### Starting a helper (R42, R223) -/

theorem State.mem_helpers {s : State} {h : Nat} : h ∈ s.helpers ↔ h ≠ 0 ∧ h ∈ (s.cx :: s.rk.ctxs).map Context.num := by
  rw [State.helpers, List.mem_filter, and_comm]
  simp

/-- The lowest helper number that is free, its slot held by the owner. -/
theorem State.freeHelper_of_lowest {s : State} {h : Nat} (h1 : 1 ≤ h) (h10 : h ≤ 10) (hf : h ∉ s.helpers)
    (hown : s.own.holder 0x02 (10 * s.co.num + h - 1) = s.owner)
    (hlow : ∀ j, 1 ≤ j → j < h → j ∈ s.helpers ∨ s.own.holder 0x02 (10 * s.co.num + j - 1) ≠ s.owner) : s.freeHelper = some h := by
  rw [State.freeHelper, List.find?_map, Option.map_eq_some_iff]
  refine ⟨h - 1, List.find?_range_eq_some.mpr ⟨?_, List.mem_range.mpr (by omega), fun j hj => ?_⟩, by omega⟩
  · simpa [Nat.sub_add_cancel h1, hf] using hown
  · rcases hlow (j + 1) (by omega) (by omega) with hm | hn
    · simp [hm]
    · have hslot : s.own.holder 0x02 (10 * s.co.num + j) ≠ s.owner := by simpa using hn
      simp [hslot]

/-- The registers of a new helper: X[3] alone is given. -/
theorem State.newHelper_x (s : State) (h : Nat) (pc arg : Word) (r : Fin 32) : (s.newHelper h pc arg).x[r] = if r = 3 then arg else 0 := by
  have h3 : r = 3 ↔ 3 = r.val := ⟨fun h => by simp [h], fun h => Fin.ext h.symm⟩
  simp [State.newHelper, Context.reset, Vector.getElem_set, h3]

theorem exec_hstart_at_limit {s : State} {d a b : Reg} (hc : s.isControl = true) (ha : (s.x a).toNat % 4 = 0)
    (hm : s.rk.id.hmax ≤ s.helpers.length) : exec (.hstart d a b) s = .next (s.setX d 0).advance := by
  show execHstart d a b s = _
  simp [execHstart, hc, misaligned, ha, hm, State.result]

theorem exec_hstart {s : State} {d a b : Reg} {h : Nat} (hc : s.isControl = true) (ha : (s.x a).toNat % 4 = 0)
    (hm : s.helpers.length < s.rk.id.hmax) (hf : s.freeHelper = some h) : exec (.hstart d a b) s = .next
      (({ s with rk := { s.rk with ctxs := s.rk.ctxs ++ [s.newHelper h (s.x a) (s.x b)] } } : State).setX d (wd h)).advance := by
  show execHstart d a b s = _
  simp [execHstart, hc, misaligned, ha, Nat.not_le.mpr hm, hf, State.result]

/-! ### Joining one (R224) -/

theorem exec_hjoin {s : State} {d a : Reg} {la : Fin 16} (hc : s.isControl = true) (ha : (s.x a).toNat < 16) :
    ((s.x a).toNat ∈ s.helpers → exec (.hjoin d a la) s = .next (s.waitFor .hjoin))
    ∧ ((s.x a).toNat ∉ s.helpers → exec (.hjoin d a la) s = .next (s.setX d (if s.cx.wait = .hjoin then s.x a else 0)).advance) := by
  have hz : zeroAt (s.x a) 4 60 = true := zeroAt_four_iff.mpr ha
  have hfield : field (s.x a) 0 4 = (s.x a).toNat := field_of_lt ha
  refine ⟨fun hm => ?_, fun hm => ?_⟩
  all_goals
    show execHjoin d a la s = _
    simp [execHjoin, hc, hz, hfield, hm, State.result]

/-! ### The end of one (R43, R225, R326) -/

/-- A change to each operation in the matrix unit. -/
def MatrixUnit.mapOps (f : MatrixOp → MatrixOp) (m : MatrixUnit) : MatrixUnit :=
  { m with queue := m.queue.map f, stream := m.stream.map fun q => (f q.1, q.2), tails := m.tails.map f, drain := m.drain.map fun q => (f q.1, q.2) }

theorem MatrixUnit.ops_mapOps (f : MatrixOp → MatrixOp) (m : MatrixUnit) : (m.mapOps f).ops = m.ops.map f := by
  simp only [MatrixUnit.ops, MatrixUnit.mapOps, List.map_append]
  cases m.stream <;> cases m.drain <;> rfl

/-- An operation whose context, if it is that one, has ended. -/
def MatrixOp.withoutContext (n : Nat) (o : MatrixOp) : MatrixOp := if o.ctx == n then { o with gone := true } else o

theorem MatrixOp.withoutContext_gone {n : Nat} {o : MatrixOp} (h : (o.withoutContext n).ctx = n) : (o.withoutContext n).gone = true := by
  unfold MatrixOp.withoutContext at h ⊢
  split at h
  · next hn => rw [if_pos hn]
  · next hn => exact absurd (by simpa using h) hn

/-- What a rank forgets of a helper: its held messages, and that its graphs and matrix operations have a context. -/
theorem State.forgetHelper_self {s : State} (hl : s.live) (n : Nat) :
    let t := s.forgetHelper s.rk.key s.rk.run n
    t.cx = s.cx ∧ t.rk.ctxs = s.rk.ctxs ∧ t.rk.blotter = (s.rk.blotter.filter fun q => q.ctx != n) ∧ t.rk.inbox = s.rk.inbox
      ∧ t.rk.tiles = s.rk.tiles ∧ t.ms = s.ms ∧ t.ranks = s.ranks ∧ t.co = s.co ∧ t.eng = s.eng ∧ t.disp = s.disp
      ∧ ∀ o ∈ t.rk.mx.ops, o.ctx = n → o.gone = true := by
  have hne : s.rk.state ≠ .ended := by simp [show s.rk.state = .running from hl]
  unfold State.forgetHelper
  dsimp only
  rw [State.updRank_self _ _ hne]
  refine ⟨rfl, rfl, rfl, rfl, rfl, rfl, rfl, rfl, rfl, rfl, fun o ho hn => ?_⟩
  have hmapped : o ∈ (s.rk.mx.mapOps (MatrixOp.withoutContext n)).ops := ho
  rw [MatrixUnit.ops_mapOps] at hmapped
  obtain ⟨p, -, rfl⟩ := List.mem_map.mp hmapped
  exact MatrixOp.withoutContext_gone hn

/-- A helper ends: the context issued longest ago comes into focus. -/
theorem exec_hexit_helper {s : State} {c : Context} {r : List Context} (hc : s.isControl = false) (hr : s.rk.ctxs = c :: r) :
    exec .hexit s = .next (({ s with cx := c, rk := { s.rk with ctxs := r } } : State).forgetHelper s.rk.key s.rk.run s.cx.num) := by
  show execHexit s = _
  simp [execHexit, hc, State.endHelper, hr]

/-! ### The report of them (R226) -/

/-- The word that tells of a set of helpers: a bit for each, their number, and their limit. -/
theorem helperWord_fields {l : List Nat} {limit : Nat} (hb : ∀ h ∈ l, 1 ≤ h ∧ h ≤ 10) (hn : l.Nodup) (hmax : limit ≤ 10) :
    let w := wd ((l.map fun h => 2^h).sum + 2^12 * l.length + 2^16 * limit)
    w.toNat < 2^20 ∧ (∀ k, k < 12 → (bitAt w k = true ↔ k ∈ l)) ∧ field w 12 4 = l.length ∧ field w 16 4 = limit := by
  have hlen : l.length ≤ 10 := length_le_of_between hn hb
  have hsum : (l.map fun h => 2^h).sum < 2^11 := sum_two_pow_lt hn fun i hi => by have := hb i hi; omega
  have hw : (wd ((l.map fun h => 2^h).sum + 2^12 * l.length + 2^16 * limit)).toNat
      = 2^12 * (l.length + 16 * limit) + (l.map fun h => 2^h).sum := by
    rw [wd, BitVec.toNat_ofNat]
    omega
  refine ⟨by omega, fun k hk => ?_, ?_, ?_⟩
  · rw [bitAt, hw, Nat.testBit_two_pow_mul_add _ (by omega), if_pos hk, testBit_sum_two_pow hn]
  · rw [field, hw]
    omega
  · rw [field, hw]
    omega

/-- Settles O30: an equation for each outcome of the four instructions, and what the rank forgets of a helper that ends. -/
theorem helperResults : Obligations.HelperResults := by
  intro s d a b la
  refine ⟨fun hc => ⟨?_, ?_⟩, fun hc ha => ?_, fun hc ha => ⟨exec_hstart_at_limit hc ha, fun h h1 h10 hm hf hown hlow => ?starts⟩,
    fun hc ha => ?_, fun hc ha => exec_hjoin hc ha, fun hc => ?_, fun hc hl c r hr => ?ends, fun h10 hn hmax => ?reports⟩
  · show execHstart d a b s = _
    simp [execHstart, hc]
  · show execHjoin d a la s = _
    simp [execHjoin, hc]
  · show execHstart d a b s = _
    simp [execHstart, hc, misaligned, ha]
  case starts =>
    have hlowest : s.freeHelper = some h := by
      refine State.freeHelper_of_lowest h1 h10 (fun hmem => hf (State.mem_helpers.mp hmem).2) hown fun j hj hlt => ?_
      exact (hlow j hj hlt).imp_left fun hmem => State.mem_helpers.mpr ⟨by omega, hmem⟩
    refine ⟨_, s.newHelper h (s.x a) (s.x b), exec_hstart hc ha hm hlowest, movedOn_advance (by simp) (by simp), ?_, by simp, by simp, by simp,
      rfl, rfl, s.newHelper_x h _ _, rfl, rfl, rfl, rfl, rfl, rfl, rfl, rfl, rfl, rfl, rfl, rfl, rfl, rfl⟩
    rw [State.advance_cx_x]
    exact congrArg Context.x (State.setX_cx_congr (by rfl) d (wd h))
  · have hz : zeroAt (s.x a) 4 60 = false := by rw [Bool.eq_false_iff, Ne, zeroAt_four_iff]; omega
    show execHjoin d a la s = _
    simp [execHjoin, hc, hz]
  · show execHexit s = _
    simp [execHexit, hc]
  case ends =>
    obtain ⟨hcx, hctxs, hbl, hin, htiles, hms, hranks, hco, heng, hdisp, hops⟩ :=
      State.forgetHelper_self (s := { s with cx := c, rk := { s.rk with ctxs := r } }) hl s.cx.num
    exact ⟨_, exec_hexit_helper hc hr, hcx, hctxs, hbl, hin, htiles, hms, hranks, hco, heng, hdisp, hops⟩
  case reports =>
    have hb : ∀ h ∈ s.helpers, 1 ≤ h ∧ h ≤ 10 := fun h hm => ⟨Nat.one_le_iff_ne_zero.mpr (State.mem_helpers.mp hm).1, h10 h hm⟩
    obtain ⟨hlt, hbit, hlen, hlim⟩ := helperWord_fields hb hn hmax
    refine ⟨_, rfl, hlt, ?_, fun h _ hle => hbit h (by omega), ?_, hlen, hlim⟩
    · rw [Bool.eq_false_iff, Ne, hbit 0 (by omega)]
      exact fun hm => absurd (hb 0 hm).1 (by omega)
    · rw [Bool.eq_false_iff, Ne, hbit 11 (by omega)]
      exact fun hm => absurd (hb 11 hm).2 (by omega)

end Sys2Proof.Machine
end

section
/-! PROOFS. Barriers and votes (03 R14, R39 to R41, R48; 11 R221): arrivals, waits, the count of an arrival and the release of a phase. -/

namespace Sys2Proof.Machine

open Sys2Proof

/-! ### Waits and switch points (R48) -/

/-- The running rank in focus is the only one on its core. -/
def State.aloneOnCore (s : State) : Prop := s.live ∧ s.rk.core = s.co.num ∧ ∀ r ∈ s.ranks, r.onCore s.co.num = false

/-- A core whose one rank runs goes on with it. -/
theorem State.switchAt_of_alone {s : State} (h : s.aloneOnCore) : s.switchAt s.co.num = s := by
  obtain ⟨hl, hc, hr⟩ := h
  have hrest : s.ranks.filter (Rank.onCore s.co.num) = [] := by simpa using hr
  have hstate : s.wholeRank.state = .running := hl
  simp [State.switchAt, State.liveRanks_onCore hl hc, hrest, hstate]

/-- A switch point on a core with no other rank is a wait alone. -/
theorem State.barrierWait_of_alone {s : State} (h : s.aloneOnCore) (g : Fin 4) (point : Bool) :
    s.barrierWait g point = .next (s.waitFor (.barrier g.val point)) := by
  cases point
  · rfl
  · exact congrArg Host.Outcome.next (State.switchAt_of_alone (s := s.waitFor (.barrier g.val true)) h)

/-! ### Arrivals (R39, R40) -/

@[simp] theorem State.arrive_cx (s : State) (g : Fin 4) (byVote vote orBit : Bool) : (s.arrive g byVote vote orBit).cx = s.cx := rfl
@[simp] theorem State.arrive_ms (s : State) (g : Fin 4) (byVote vote orBit : Bool) : (s.arrive g byVote vote orBit).ms = s.ms := rfl

/-- What an arrival leaves in its slot, and of the messages on their way: those that the rank sent are marked. -/
theorem State.arrive_effect (s : State) (g : Fin 4) (byVote vote orBit : Bool) :
    let t := s.arrive g byVote vote orBit
    t.rk.bar = s.rk.bar.set g ⟨true, byVote, false, false, vote, false, orBit⟩
      ∧ t.eng.flights.length = s.eng.flights.length
      ∧ ∀ (n : Nat) (f : Flight), s.eng.flights[n]? = some f → t.eng.flights[n]? = some
          { f with gate := f.gate || (f.launch == s.rk.key.launch && f.run == s.rk.run && f.src == s.rk.key.rank) } := by
  refine ⟨rfl, by simp [State.arrive], fun n f hf => ?_⟩
  simp only [State.arrive, List.getElem?_map, hf, Option.map_some]
  split
  · next hmine => simp [hmine]
  · next hother => simp [Bool.eq_false_iff.mpr hother]

/-! ### The frame of the instructions (R14, R44) -/

theorem State.barrier_in_helper {s : State} (h : s.isControl = false) (i : Instr) (g : Fin 4) (k : BarSlot → Out) :
    s.barrier i g k = .next (s.illegal i) := by
  simp [State.barrier, h]

theorem State.barrier_without_group {s : State} {g : Fin 4} (hc : s.isControl = true) (hv : bitAt s.rk.grp[g] 15 = false) (i : Instr)
    (k : BarSlot → Out) : s.barrier i g k = .next (s.trap Cause.operand (wd g.val)) := by
  have hv : s.slotValid g = false := hv
  simp [State.barrier, hc, hv]

theorem State.barrier_with_group {s : State} {g : Fin 4} (hc : s.isControl = true) (hv : bitAt s.rk.grp[g] 15 = true) (i : Instr)
    (k : BarSlot → Out) : s.barrier i g k = k s.rk.bar[g] := by
  have hv : s.slotValid g = true := hv
  simp [State.barrier, hc, hv]

theorem exec_barriers_in_helper {s : State} (hc : s.isControl = false) (d a : Reg) (g : Fin 4) :
    exec (.barArrive g) s = .next (s.illegal (.barArrive g)) ∧ exec (.barWait g) s = .next (s.illegal (.barWait g))
      ∧ exec (.barVote d a g) s = .next (s.illegal (.barVote d a g)) := by
  show execBarArrive g s = _ ∧ execBarWait g s = _ ∧ execBarVote d a g s = _
  simp only [execBarArrive, execBarWait, execBarVote, State.barrier_in_helper hc, and_self]

theorem exec_barriers_without_group {s : State} {g : Fin 4} (hc : s.isControl = true) (hv : bitAt s.rk.grp[g] 15 = false) (d a : Reg) :
    let traps := Host.Outcome.next (s.trap Cause.operand (wd g.val))
    exec (.barArrive g) s = traps ∧ exec (.barWait g) s = traps ∧ exec (.barVote d a g) s = traps := by
  show execBarArrive g s = _ ∧ execBarWait g s = _ ∧ execBarVote d a g s = _
  simp only [execBarArrive, execBarWait, execBarVote, State.barrier_without_group hc hv, and_self]

theorem BarSlot.not_unreleased {b : BarSlot} (h : b.arrived = false ∨ b.released = true) : (b.arrived && !b.released) = false := by
  rcases h with h | h <;> simp [h]

theorem BarSlot.not_voted {b : BarSlot} (h : b.arrived = false ∨ b.byVote = false) : (b.arrived && b.byVote) = false := by
  rcases h with h | h <;> simp [h]

/-- cr.vote holds a result over the number of its slot (R221). -/
def State.setVote (s : State) (g : Fin 4) (result : Nat) : State :=
  { s with rk := { s.rk with vote := BitVec.ofNat 4 (result + 4 * g.val) } }

@[simp] theorem State.setVote_cx (s : State) (g : Fin 4) (n : Nat) : (s.setVote g n).cx = s.cx := rfl
@[simp] theorem State.setVote_co (s : State) (g : Fin 4) (n : Nat) : (s.setVote g n).co = s.co := rfl
@[simp] theorem State.setVote_ms (s : State) (g : Fin 4) (n : Nat) : (s.setVote g n).ms = s.ms := rfl
@[simp] theorem State.setVote_eng (s : State) (g : Fin 4) (n : Nat) : (s.setVote g n).eng = s.eng := rfl
@[simp] theorem State.setVote_bar (s : State) (g : Fin 4) (n : Nat) : (s.setVote g n).rk.bar = s.rk.bar := rfl

/-! ### The instructions, by the state of the slot (R39) -/

section
variable {s : State} {g : Fin 4} (hc : s.isControl = true) (hv : bitAt s.rk.grp[g] 15 = true)
include hc hv

theorem exec_barArrive_waits (ha : s.rk.bar[g].arrived = true) (hr : s.rk.bar[g].released = false) :
    exec (.barArrive g) s = .next (s.waitFor (.barrier g.val false)) := by
  show execBarArrive g s = _
  simp only [execBarArrive, State.barrier_with_group hc hv, ha, hr]
  rfl

theorem exec_barArrive_arrives (h : s.rk.bar[g].arrived = false ∨ s.rk.bar[g].released = true) :
    exec (.barArrive g) s = .next (s.arrive g false true false).advance := by
  show execBarArrive g s = _
  simp only [execBarArrive, State.barrier_with_group hc hv, BarSlot.not_unreleased h]
  rfl

theorem exec_barWait_yields (ha : s.rk.bar[g].arrived = true) (hr : s.rk.bar[g].released = true) (hy : s.yields = true) :
    exec (.barWait g) s = .next (s.switchAt s.co.num) := by
  show execBarWait g s = _
  simp only [execBarWait, State.barrier_with_group hc hv, ha, hr, hy]
  rfl

theorem exec_barWait_ends (ha : s.rk.bar[g].arrived = true) (hr : s.rk.bar[g].released = true) (hy : s.yields = false) :
    exec (.barWait g) s = .next (s.barrierEnd g).advance := by
  show execBarWait g s = _
  simp only [execBarWait, State.barrier_with_group hc hv, ha, hr, hy]
  rfl

theorem exec_barWait_waits (ha : s.rk.bar[g].arrived = true) (hr : s.rk.bar[g].released = false) :
    exec (.barWait g) s = s.barrierWait g (s.pointHere g) := by
  show execBarWait g s = _
  simp only [execBarWait, State.barrier_with_group hc hv, ha, hr]
  rfl

theorem exec_barWait_arrives (ha : s.rk.bar[g].arrived = false) :
    exec (.barWait g) s = (s.arrive g false true false).barrierWait g (!(s.arrive g false true false).allArrived g) := by
  show execBarWait g s = _
  simp only [execBarWait, State.barrier_with_group hc hv, ha]
  rfl

theorem exec_barVote_yields (d a : Reg) (ha : s.rk.bar[g].arrived = true) (hb : s.rk.bar[g].byVote = true)
    (hr : s.rk.bar[g].released = true) (hy : s.yields = true) : exec (.barVote d a g) s = .next (s.switchAt s.co.num) := by
  show execBarVote d a g s = _
  simp only [execBarVote, State.barrier_with_group hc hv, ha, hb, hr, hy]
  rfl

theorem exec_barVote_ends (d a : Reg) (ha : s.rk.bar[g].arrived = true) (hb : s.rk.bar[g].byVote = true)
    (hr : s.rk.bar[g].released = true) (hy : s.yields = false) :
    exec (.barVote d a g) s = .next (((s.barrierEnd g).setVote g s.rk.bar[g].result).setX d (wd s.rk.bar[g].result)).advance := by
  show execBarVote d a g s = _
  simp only [execBarVote, State.barrier_with_group hc hv, ha, hb, hr, hy]
  rfl

theorem exec_barVote_waits (d a : Reg) (ha : s.rk.bar[g].arrived = true) (hr : s.rk.bar[g].released = false) :
    exec (.barVote d a g) s = s.barrierWait g (s.pointHere g) := by
  show execBarVote d a g s = _
  simp only [execBarVote, State.barrier_with_group hc hv, ha, hr]
  cases s.rk.bar[g].byVote <;> rfl

theorem exec_barVote_arrives (d a : Reg) (h : s.rk.bar[g].arrived = false ∨ (s.rk.bar[g].byVote = false ∧ s.rk.bar[g].released = true)) :
    exec (.barVote d a g) s = (s.arrive g true (bitAt (s.x a) 0) (bitAt (s.x a) 0)).barrierWait g
      (!(s.arrive g true (bitAt (s.x a) 0) (bitAt (s.x a) 0)).allArrived g) := by
  show execBarVote d a g s = _
  simp only [execBarVote, State.barrier_with_group hc hv, BarSlot.not_voted (h.imp_right And.left),
    BarSlot.not_unreleased (h.imp_right And.right)]
  rfl

end

/-! ### The result of a vote (R14) -/

theorem BarSlot.result_eq (b : BarSlot) : b.result = (if b.andBit then 1 else 0) + (if b.orBit then 2 else 0) := by
  unfold BarSlot.result boolNat
  cases b.orBit <;> rfl

/-- cr.vote has room for a result and its slot. -/
theorem BarSlot.vote_toNat (b : BarSlot) (g : Fin 4) :
    (BitVec.ofNat 4 (b.result + 4 * g.val)).toNat = (if b.andBit then 1 else 0) + (if b.orBit then 2 else 0) + 4 * g.val := by
  have hlt : b.result < 4 := by
    rw [BarSlot.result_eq]
    split <;> split <;> omega
  rw [BitVec.toNat_ofNat, Nat.mod_eq_of_lt (by omega), BarSlot.result_eq]

/-! ### The count of an arrival (R40) -/

/-- Stores performed change memory and the scriptorium's caches alone. -/
theorem State.foldl_perform (core : Nat) (l : List Buffered) (s : State) :
    ∃ m c, l.foldl (fun t e => t.perform core e) s = { s with ms := m, scr := c } := by
  induction l generalizing s with
  | nil => exact ⟨_, _, rfl⟩
  | cons e l ih =>
    have one : ∃ m c, s.perform core e = { s with ms := m, scr := c } := by
      unfold State.perform
      split
      · exact ⟨_, _, rfl⟩
      all_goals split <;> exact ⟨_, _, rfl⟩
    obtain ⟨m, c, hm⟩ := one
    rw [List.foldl_cons, hm]
    exact ih { s with ms := m, scr := c }

/-- While no page moves, a core's buffer drains empty. -/
theorem State.drainCore_of_still {s : State} (h : s.ms.move.busy = false) :
    ∃ m c, s.drainCore s.co.num = { s with co := { s.co with stores := [] }, ms := m, scr := c } := by
  have hstay : (s.co.stores.filter fun e => s.ms.movingAt e.pa) = [] := by simp [MemSystem.movingAt, h]
  simp only [State.drainCore, State.coreAt_co, hstay, State.updCore_focus _ rfl]
  exact State.foldl_perform s.co.num _ { s with co := { s.co with stores := [] } }

theorem State.drainCore_frame {s : State} (h : s.ms.move.busy = false) :
    let t := s.drainCore s.co.num
    t.cx = s.cx ∧ t.rk = s.rk ∧ t.co = { s.co with stores := [] } := by
  obtain ⟨m, c, hd⟩ := State.drainCore_of_still h
  rw [hd]
  exact ⟨rfl, rfl, rfl⟩

/-- An arrival of the rank in focus counts once its messages are placed: its core's stores and every pending update are performed. -/
theorem exec_arrivalCounted {s : State} {g : Fin 4} (hl : s.live) (hcore : s.rk.core = s.co.num) (ha : s.rk.bar[g].arrived = true)
    (hn : s.rk.bar[g].counted = false) (hm : s.messagesPlaced s.wholeRank = true) (hb : s.ms.move.busy = false) :
    exec (.arrivalCounted s.rk.key g) s
      = .next { (s.drainCore s.co.num).commitAll with rk := s.rk.setBar g { s.rk.bar[g] with counted := true } } := by
  have hne : s.rk.state ≠ .ended := by simp [show s.rk.state = .running from hl]
  have due : (s.wholeRank.bar[g].arrived && !s.wholeRank.bar[g].counted && s.messagesPlaced s.wholeRank) = true := by
    rw [hm, show s.wholeRank.bar[g].arrived = true from ha, show s.wholeRank.bar[g].counted = false from hn]
    rfl
  have hw := State.runWhere_self (p := fun r => r.bar[g].arrived && !r.bar[g].counted && s.messagesPlaced r) hne due
  have hstate : (s.wholeRank.state == .saved) = false := by simp [show s.wholeRank.state = .running from hl]
  have hwcore : s.wholeRank.core = s.co.num := hcore
  show execArrivalCounted s.rk.key g s = _
  simp only [execArrivalCounted, hw, hstate, hwcore, Bool.false_eq_true, if_false]
  obtain ⟨-, hrk, hco⟩ := State.drainCore_frame hb
  generalize s.drainCore s.co.num = t at hrk hco ⊢
  have hempty : (t.coreAt s.co.num).stores.isEmpty = true := by
    rw [show s.co.num = t.co.num by rw [hco], State.coreAt_co, hco]
    rfl
  have hme : t.commitAll.rk = s.rk := hrk
  rw [State.updRank_of_is _ (by rw [hme]; exact Rank.is_iff.mpr ⟨rfl, rfl⟩) (by rw [hme]; exact hl), hme, hempty]
  simp

/-! ### The release of a phase (R39, R41) -/

/-- A rank released from the phase of a group that it holds in a slot. -/
theorem Rank.release_of_slot {r : Rank} {group : Nat} {g : Fin 4} (h : r.slotOf group = some g) (andBit orBit : Bool) :
    (r.release group andBit orBit).bar = r.bar.set g { r.bar[g] with released := true, andBit := andBit, orBit := orBit }
      ∧ (group = 0 → (r.release group andBit orBit).solo.count = 0 ∧ (r.release group andBit orBit).solo.posted = [])
      ∧ (group ≠ 0 → (r.release group andBit orBit).solo = r.solo) := by
  by_cases h0 : group = 0
  · subst h0
    simp [Rank.release, h, Rank.soloRestart, Rank.setBar, SoloState.reset]
  · simp [Rank.release, h, h0, Rank.setBar]

/-- A phase of the first run whose every member has been counted releases the run's ranks, with the AND and OR of their votes. -/
theorem exec_barrierRelease {s : State} {launch group : Nat} {l : Launch} (hs : s.launch? launch = some l)
    (hm : (l.members group).length ≠ 0) (hp : (s.phaseParts launch 0 group).length = (l.members group).length) :
    exec (.barrierRelease launch group) s = .next (s.updRanks (fun r => r.key.launch == launch && r.run == 0) fun r => r.release group
      ((s.phaseParts launch 0 group).all BarSlot.vote) ((s.phaseParts launch 0 group).any BarSlot.orBit)) := by
  show execBarrierRelease launch group s = _
  have hpos : 0 < (l.members group).length := Nat.pos_of_ne_zero hm
  simp [execBarrierRelease, hs, hp, hpos]

/-! ### The end of a wait (R40) -/

@[simp] theorem State.barrierEnd_cx (s : State) (g : Fin 4) : (s.barrierEnd g).cx = s.cx := rfl
@[simp] theorem State.barrierEnd_ms (s : State) (g : Fin 4) : (s.barrierEnd g).ms = s.ms := rfl
@[simp] theorem State.barrierEnd_eng (s : State) (g : Fin 4) : (s.barrierEnd g).eng = s.eng := rfl
@[simp] theorem State.barrierEnd_bar (s : State) (g : Fin 4) : (s.barrierEnd g).rk.bar = s.rk.bar.set g .reset := rfl
@[simp] theorem State.barrierEnd_dcache (s : State) (g : Fin 4) : (s.barrierEnd g).co.dcache = [] := rfl
@[simp] theorem State.barrierEnd_mark (s : State) (g : Fin 4) : (s.barrierEnd g).co.mark = s.ms.fills := rfl

/-- Settles O29: an equation for each instruction and each state of its slot; what an arrival, the end of a wait, a count and a release leave. -/
theorem barrierResults : Obligations.BarrierResults := by
  intro s d a g b alone arrived released waits all
  refine ⟨fun hc => exec_barriers_in_helper hc d a g, fun hc hv => exec_barriers_without_group hc hv d a, fun hc hv => ⟨fun ha hr => ?_, fun h => ?_,
    fun ha hr hy => ?_, fun ha hr hy => ?_, fun ha hr => ?_, fun ha hall => ?_, fun halone ha hall => ?_, fun ha hb hr hy => ?_, fun h => ?_⟩,
    fun hl hcore ha hn hb hf => ?counted, fun l group hl hs hrun hm hp _ hg => ?release⟩
  · exact ⟨_, exec_barArrive_waits hc hv ha hr, ⟨rfl, rfl, rfl⟩, rfl⟩
  · have harrived := s.arrive_effect g false true false
    exact ⟨_, exec_barArrive_arrives hc hv h, movedOn_advance rfl rfl, by simpa [arrived] using harrived, by simp, by simp⟩
  · exact ⟨_, exec_barWait_ends hc hv ha hr hy,
      ⟨by simp [BarSlot.reset], by simp, by simp, movedOn_advance rfl rfl, by simp, by simp⟩, by simp⟩
  · exact ⟨exec_barWait_yields hc hv ha hr hy, fun hb => exec_barVote_yields hc hv d a ha hb hr hy⟩
  · have hwait := exec_barWait_waits hc hv ha hr
    have hvote := exec_barVote_waits hc hv d a ha hr
    refine ⟨fun hp => ?_, fun halone hp => ?_⟩ <;> rw [hp] at hwait hvote
    · exact ⟨_, hwait, hvote, ⟨rfl, rfl, rfl⟩, rfl⟩
    · rw [State.barrierWait_of_alone halone] at hwait hvote
      exact ⟨_, hwait, hvote, ⟨rfl, rfl, rfl⟩, rfl⟩
  · have he := exec_barWait_arrives hc hv ha
    rw [hall] at he
    exact ⟨_, he, ⟨rfl, rfl, rfl⟩, s.arrive_effect g false true false⟩
  · have he := exec_barWait_arrives hc hv ha
    rw [hall, State.barrierWait_of_alone (s := s.arrive g false true false) halone] at he
    exact ⟨_, he, ⟨rfl, rfl, rfl⟩, s.arrive_effect g false true false⟩
  · refine ⟨_, exec_barVote_ends hc hv d a ha hb hr hy,
      ⟨by simp [BarSlot.reset], by simp, by simp, movedOn_advance (by simp) (by simp), by simp, by simp⟩, ?_, ?_⟩
    · rw [State.advance_rk_vote, State.setX_rk]
      exact BarSlot.vote_toNat b g
    · rw [State.advance_cx_x, BarSlot.result_eq]
      exact congrArg Context.x (State.setX_cx_congr (by rfl) d _)
  · have he := exec_barVote_arrives hc hv d a h
    refine ⟨fun hall => ?_, fun halone hall => ?_⟩
    · rw [hall] at he
      exact ⟨_, he, ⟨rfl, rfl, rfl⟩, s.arrive_effect g true _ _⟩
    · rw [hall, State.barrierWait_of_alone (s := s.arrive g true (bitAt (s.x a) 0) (bitAt (s.x a) 0)) halone] at he
      exact ⟨_, he, ⟨rfl, rfl, rfl⟩, s.arrive_effect g true _ _⟩
  case counted =>
    have hplaced : s.messagesPlaced s.wholeRank = true := by
      simpa [State.messagesPlaced, State.wholeRank] using hf
    obtain ⟨hcx, -, hco⟩ := State.drainCore_frame hb
    exact ⟨_, exec_arrivalCounted hl hcore ha hn hplaced hb, hcx, congrArg Core.stores hco, MemSystem.commitAll_pending _, rfl⟩
  case release =>
    obtain ⟨hbar, hzero, hother⟩ := Rank.release_of_slot hg ((s.phaseParts s.rk.key.launch 0 group).all BarSlot.vote)
      ((s.phaseParts s.rk.key.launch 0 group).any BarSlot.orBit)
    have hl : s.rk.state = .running := hl
    refine ⟨_, exec_barrierRelease hs hm hp, rfl, rfl, ?_⟩
    simpa only [State.updRanks, beq_self_eq_true, hrun, hl, Bool.and_true, Bool.true_and, if_true] using ⟨hbar, hzero, hother⟩

end Sys2Proof.Machine
end

section
/-! PROOFS. `solo` (03 R52 to R54; 11 R243): the pair performed by the elected rank, posted, and taken by the others. -/

namespace Sys2Proof.Machine

open Sys2Proof

/-! ### The instructions that may follow `solo` (R52) -/

/-- The meaning of a body is that of its instruction. -/
theorem soloBody_exec {i : Instr} {d : Reg} {body : State → Out} (h : soloBody i = some (d, body)) : body = exec i := by
  unfold soloBody at h
  split at h <;> cases h <;> rfl

/-- Every instruction of opcodes 0x01 to 0x0C may follow `solo`. -/
theorem soloBody_of_integerDest {i : Instr} {d : Reg} (h : integerDest i = some d) : soloBody i = some (d, exec i) := by
  unfold integerDest at h
  split at h <;> cases h <;> rfl

theorem soloAcquire_of_integerDest {i : Instr} {d : Reg} (h : integerDest i = some d) : soloAcquire i = none := by
  unfold integerDest at h
  split at h <;> cases h <;> rfl

/-- What such an instruction writes depends on the issuing context alone. -/
theorem exec_of_integerDest {i : Instr} {d : Reg} (h : integerDest i = some d) :
    ∃ f : State → Word, (∀ s, exec i s = .next (s.setX d (f s)).advance) ∧ ∀ s t : State, s.cx = t.cx → f s = f t := by
  unfold integerDest at h
  split at h <;> cases h <;> refine ⟨_, fun s => rfl, fun s t hcx => ?_⟩ <;> cases s <;> cases t <;> cases hcx <;> rfl

/-! ### The fetch of the word behind `solo` (R102) -/

/-- t is s but for what a fetch that answers changes: memory and the core, the log, and of the context its wait and the words that it holds. -/
def State.fetchKeeps (s t : State) : Prop :=
  t.rk = s.rk ∧ t.ranks = s.ranks ∧ t.cx = { s.cx with wait := t.cx.wait, answer := t.cx.answer, fetched := t.cx.fetched }

theorem State.fetchKeeps.logAccess {s t : State} (h : s.fetchKeeps t) (agent owner op pa : Nat) :
    s.fetchKeeps (t.logAccess agent owner op pa) := by
  obtain ⟨g, hg⟩ := t.logAccess_log agent owner op pa
  rw [hg]
  exact h

theorem State.fetchKeeps.fetchPhys {s t : State} (h : s.fetchKeeps t) (pa : Nat) : s.fetchKeeps (t.fetchPhys pa).1 := by
  unfold State.fetchPhys
  split
  · exact h.logAccess ..
  · exact State.fetchKeeps.logAccess (by exact h) ..

theorem State.wordInHand_keeps {s t : State} {pc : Word} {w : Nat} (h : s.wordInHand pc = some (t, w)) : s.fetchKeeps t := by
  unfold State.wordInHand at h
  split at h
  · cases h
    exact ⟨rfl, rfl, rfl⟩
  · split at h
    · cases h
      exact ⟨rfl, rfl, rfl⟩
    · cases h

/-- A fetch that answers keeps the ranks and what its context computes with. -/
theorem State.fetch_keeps {s t : State} {pc : Word} {w : Nat} (h : s.fetch pc = .ok (t, w)) : s.fetchKeeps t := by
  unfold State.fetch at h
  split at h
  · next hand =>
    cases h
    exact State.wordInHand_keeps hand
  · split at h
    · cases h
    · next u pa l hreach =>
      obtain ⟨-, -, -, -, -, g, rfl⟩ := State.reach_ok hreach
      have fetched : ∀ {u : State} (a : Nat), s.fetchKeeps u → u.fetchPhys a = (t, w) → s.fetchKeeps t := fun a hu ha => by
        have kept := hu.fetchPhys a
        rw [ha] at kept
        exact kept
      split at h
      · cases h
      · split at h
        · split at h <;> cases h
        · split at h
          · split at h
            · cases h
            · exact fetched _ (by exact ⟨rfl, rfl, rfl⟩) (Except.ok.inj h)
          · exact fetched _ (by exact ⟨rfl, rfl, rfl⟩) (Except.ok.inj h)
    · cases h
    · cases h

/-! ### The elected rank (R53) -/

theorem foldl_min_le (l : List Nat) (n : Nat) : l.foldl Nat.min n ≤ n := by
  induction l generalizing n with
  | nil => exact Nat.le_refl n
  | cons m l ih => exact (ih _).trans (Nat.min_le_left n m)

/-- A number is the least of itself and a list where none of the list is below it. -/
theorem foldl_min_eq_iff (l : List Nat) (n : Nat) : l.foldl Nat.min n = n ↔ ∀ m ∈ l, n ≤ m := by
  induction l generalizing n with
  | nil => simp
  | cons m l ih =>
    rw [List.foldl_cons, List.forall_mem_cons]
    by_cases h : n ≤ m
    · rw [show n.min m = n from Nat.min_eq_left h, ih]
      simp [h]
    · have := foldl_min_le l (n.min m)
      have : n.min m = m := Nat.min_eq_right (by omega)
      simp only [h, false_and, iff_false]
      omega

/-- The rank in focus is elected where no participant is below it. -/
theorem State.elected_iff (s : State) : s.elected = s.rk.key.rank ↔ ∀ r ∈ s.participants, s.rk.key.rank ≤ r.key.rank := by
  rw [State.elected, foldl_min_eq_iff]
  simp

/-- A running rank takes part in its own instances. -/
theorem State.participants_of_live {s : State} (hl : s.live) : s.participants = s.wholeRank :: s.ranks.filter s.soloPeer := by
  have hl : s.rk.state = .running := hl
  have hme : s.soloPeer s.wholeRank = true := by simp [State.soloPeer, State.wholeRank, hl]
  simp [State.participants, State.liveRanks, hl, hme]

section
variable {s t : State} (hk : s.fetchKeeps t)
include hk

theorem State.fetchKeeps.soloPeer : t.soloPeer = s.soloPeer := by
  obtain ⟨hrk, -, -⟩ := hk
  funext r
  simp only [State.soloPeer, hrk]

theorem State.fetchKeeps.live (hl : s.live) : t.live := by
  obtain ⟨hrk, -, -⟩ := hk
  simpa only [State.live, hrk] using hl

/-- What is asked of every participant's name and solo record is asked alike before and after a fetch. -/
theorem State.fetchKeeps.forall_participants (hl : s.live) (p : RankKey → SoloState → Prop) :
    (∀ r ∈ t.participants, p r.key r.solo) ↔ ∀ r ∈ s.participants, p r.key r.solo := by
  obtain ⟨hrk, hranks, -⟩ := id hk
  rw [State.participants_of_live (hk.live hl), State.participants_of_live hl, hk.soloPeer, hranks, List.forall_mem_cons, List.forall_mem_cons]
  simp only [State.wholeRank, hrk]

theorem State.fetchKeeps.elected (hl : s.live) : t.elected = s.elected := by
  obtain ⟨hrk, hranks, -⟩ := id hk
  simp only [State.elected, State.participants_of_live (hk.live hl), State.participants_of_live hl, hk.soloPeer, hranks, List.map_cons]
  simp only [State.wholeRank, hrk]

theorem State.fetchKeeps.tooFew (hl : s.live) (k : Nat) : t.electedRank.tooFew k = s.electedRank.tooFew k := by
  obtain ⟨hrk, hranks, -⟩ := id hk
  simp only [State.electedRank, State.participants_of_live (hk.live hl), State.participants_of_live hl, hk.soloPeer, hranks, hk.elected hl,
    List.find?_cons]
  rw [show t.wholeRank.key.rank = s.wholeRank.key.rank by simp only [State.wholeRank, hrk], hrk]
  split
  · show t.rk.tooFew k = s.rk.tooFew k
    rw [hrk]
  · rfl

end

/-! ### `solo`, by the word behind it (R243) -/

section
variable {s t : State} {w : Nat} (hp : s.cx.pair = false) (hc : s.isControl = true) (hf : s.fetch (s.cx.pc + 4) = .ok (t, w))

theorem State.pair_eq (hp : s.cx.pair = false) : ({ s with cx := { s.cx with pair := false } } : State) = s := by
  rw [← hp]

include hp

theorem exec_solo_in_helper (hn : s.isControl = false) : exec .solo s = .next (s.illegal .solo) := by
  show execSolo s = _
  simp only [execSolo, State.pair_eq hp, hn]
  rfl

include hc hf

theorem exec_solo_undecoded {e : Undecoded} (hd : decode w = .error e) : exec .solo s = .next (t.trap Cause.illegal (wd w)) := by
  show execSolo s = _
  simp only [execSolo, State.pair_eq hp, hc, hf, hd]
  rfl

theorem exec_solo_unallowed {i : Instr} (hd : decode w = .ok i) (hb : soloBody i = none) :
    exec .solo s = .next (t.trap Cause.illegal (wd w)) := by
  show execSolo s = _
  simp only [execSolo, State.pair_eq hp, hc, hf, hd, hb]
  rfl

theorem exec_solo_pair {i : Instr} {d : Reg} (hd : decode w = .ok i) (hb : soloBody i = some (d, exec i)) :
    exec .solo s = t.soloPair i d (exec i) := by
  show execSolo s = _
  simp only [execSolo, State.pair_eq hp, hc, hf, hd, hb]
  rfl

end

/-! ### The pair (R53, R54) -/

section
variable {s : State} {k : Nat} (hk : s.rk.solo.count + 1 = k) (i : Instr) (d : Reg) (body : State → Out)
include hk

theorem State.soloPair_posted {q : Nat × Word} (hq : (s.rk.solo.posted.find? fun q => q.1 == k) = some q) :
    s.soloPair i d body = .next (s.soloTake k i d q.2) := by
  subst hk
  simp only [State.soloPair, hq]

theorem State.soloPair_elected (hn : (s.rk.solo.posted.find? fun q => q.1 == k) = none) (he : s.elected = s.rk.key.rank) :
    ((∀ r ∈ s.participants, r.solo.posted.length < 16) → s.soloPair i d body = s.soloPerform k d body)
    ∧ (¬ (∀ r ∈ s.participants, r.solo.posted.length < 16) → s.soloPair i d body = .next (s.waitFor (.soloPost k))) := by
  subst hk
  have hroom : (s.participants.any fun r => decide (16 ≤ r.solo.posted.length)) = false ↔ ∀ r ∈ s.participants, r.solo.posted.length < 16 := by
    simp
  refine ⟨fun h => ?_, fun h => ?_⟩
  · simp only [State.soloPair, hn, he, hroom.mpr h, if_true, Bool.false_eq_true, if_false]
  · have hfull := Bool.eq_true_of_not_eq_false (mt hroom.mp h)
    simp only [State.soloPair, hn, he, hfull, if_true]

theorem State.soloPair_other (hn : (s.rk.solo.posted.find? fun q => q.1 == k) = none) (he : s.elected ≠ s.rk.key.rank) :
    (∀ q, (s.rk.solo.failed.find? fun q => q.1 == k) = some q →
      s.soloPair i d body = .next (s.trap Cause.solo (soloVal k q.2 false true)))
    ∧ ((s.rk.solo.failed.find? fun q => q.1 == k) = none →
      (s.electedRank.tooFew k = true → s.soloPair i d body = .next (s.trap Cause.solo (soloVal k 0 true false)))
      ∧ (s.electedRank.tooFew k = false → s.soloPair i d body = .next (s.waitFor (.soloPost k)))) := by
  subst hk
  refine ⟨fun q hq => ?_, fun hq => ⟨fun hf => ?_, fun hf => ?_⟩⟩
  · simp only [State.soloPair, hn, he, hq, if_false]
  · simp only [State.soloPair, hn, he, hq, hf, if_false, if_true]
  · simp only [State.soloPair, hn, he, hq, hf, if_false, Bool.false_eq_true]

end

/-! ### The pair performed (R53, R54) -/

/-- The state in which an elected rank performs pair k: its standing mark is cleared. -/
def State.unmarked (s : State) (k : Nat) : State :=
  s.updRanks s.soloPeer fun r => { r with solo := { r.solo with failed := dropAt k r.solo.failed } }

/-- A rank posts to others alone. -/
theorem State.soloSend_effect (s : State) (k : Nat) (v : Word) :
    s.soloSend k v = { s with
      ranks := s.ranks.map fun r =>
        if s.soloPeer r = true ∧ r.is s.rk.key s.rk.run = false ∧ r.solo.count < k then
          { r with solo := { r.solo with posted := putAt k v r.solo.posted } }
        else r } := by
  have hself : s.rk.is s.rk.key s.rk.run = true := Rank.is_iff.mpr ⟨rfl, rfl⟩
  simp [State.soloSend, State.updRanks, hself, and_assoc]

/-- What the elected rank's pair leaves once it has counted itself: no window open, and the value posted, to nobody where the rank had arrived
before it. -/
def State.soloDone (s : State) (k : Nat) (d : Reg) : State :=
  let t := { s.closeWindows with rk := { s.rk with solo := { s.rk.solo with performed := k } } }
  if s.rk.tooFew k then t else t.soloSend k (s.x d)

theorem State.soloDone_effect (s : State) (k : Nat) (d : Reg) :
    let t := s.soloDone k d
    t.cx = { s.cx with windows := [] } ∧ t.ms = s.ms ∧ t.rk = { s.rk with solo := { s.rk.solo with performed := k } }
      ∧ t.ranks = s.ranks.map fun r =>
          if s.rk.tooFew k = false ∧ s.soloPeer r = true ∧ r.is s.rk.key s.rk.run = false ∧ r.solo.count < k then
            { r with solo := { r.solo with posted := putAt k (s.x d) r.solo.posted } }
          else r := by
  unfold State.soloDone
  cases hf : s.rk.tooFew k
  · simp only [Bool.false_eq_true, if_false, State.soloSend_effect, true_and]
    exact ⟨rfl, rfl, rfl⟩
  · simp [State.closeWindows]

/-- The pair of an elected rank ends as its instruction does, and is posted where that has counted it. -/
theorem State.soloPerform_of_next {s u : State} {k : Nat} {d : Reg} {body : State → Out}
    (h : body { s.unmarked k with cx := { s.cx with pair := true } } = .next u) :
    s.soloPerform k d body = .next (if u.rk.solo.count = k then u.soloDone k d else u) := by
  unfold State.soloPerform
  dsimp only
  split
  · next hn =>
    cases hn.symm.trans h
    by_cases hk : u.rk.solo.count = k
    · rw [if_pos hk, if_pos hk]
      rfl
    · rw [if_neg hk, if_neg hk]
  · next hn => cases hn.symm.trans h
  · next hn => cases hn.symm.trans h

/-! ### The value taken (R53, R128) -/

/-- A pair of opcodes 0x01 to 0x0C taken: its register has the posted value, and the pair is counted. -/
theorem State.soloTake_effect (s : State) (k : Nat) {i : Instr} {d : Reg} (v : Word) (h : integerDest i = some d) :
    let t := s.soloTake k i d v
    t.x d = (if d = 0 then 0 else v) ∧ (∀ r, r ≠ d → t.x r = s.x r) ∧ t.cx.pc = s.cx.pc + 8
      ∧ t.rk.solo.count = s.rk.solo.count + 1 ∧ t.ms = s.ms := by
  unfold State.soloTake
  simp only [soloAcquire_of_integerDest h]
  refine ⟨?_, fun r hr => ?_, ?_, ?_, ?_⟩
  · rw [State.x_advance]
    by_cases hd : d = 0
    · subst hd
      rfl
    · rw [if_neg hd, State.x_setX_same _ _ _ hd]
  · rw [State.x_advance, State.x_setX_other _ _ _ _ hr]
    rfl
  · simp [State.advance_cx_pc]
  · simp [State.advance]
  · simp

/-! ### The obligation -/

@[simp] theorem State.unmarked_cx (s : State) (k : Nat) : (s.unmarked k).cx = s.cx := rfl
@[simp] theorem State.unmarked_ms (s : State) (k : Nat) : (s.unmarked k).ms = s.ms := rfl

@[simp] theorem State.unmarked_count (s : State) (k : Nat) : (s.unmarked k).rk.solo.count = s.rk.solo.count := by
  simp only [State.unmarked, State.updRanks]
  split <;> rfl

/-- A pair of two words counts once. -/
theorem State.advance_count {s : State} (h : s.cx.pair = true) : s.advance.rk.solo.count = s.rk.solo.count + 1 := by
  simp [State.advance, h]

theorem State.advance_cx_congr {s t : State} (h : t.cx = s.cx) : t.advance.cx = s.advance.cx := by
  simp only [State.advance, h]
  split <;> rfl

/-- The pair of an instruction of opcodes 0x01 to 0x0C that its elected rank performs: what the instruction gives by itself, counted and posted. -/
theorem State.soloPerform_of_integerDest {s : State} {k : Nat} {i : Instr} {d : Reg} (hk : s.rk.solo.count + 1 = k) (h : integerDest i = some d) :
    ∃ u v, exec i { s with cx := { s.cx with pair := true } } = .next u ∧ s.soloPerform k d (exec i) = .next v
      ∧ v.cx = { u.cx with windows := [] } ∧ v.cx.pc = s.cx.pc + 8 ∧ v.rk.solo.count = k ∧ v.rk.solo.performed = k ∧ v.ms = s.ms := by
  obtain ⟨f, hexec, hcongr⟩ := exec_of_integerDest h
  let a : State := { s with cx := { s.cx with pair := true } }
  let b : State := { s.unmarked k with cx := { s.cx with pair := true } }
  have hcount : (b.setX d (f b)).advance.rk.solo.count = k := by
    rw [State.advance_count (by simp [b]), State.setX_rk]
    exact (congrArg (· + 1) (s.unmarked_count k)).trans hk
  have hperform := State.soloPerform_of_next (s := s) (d := d) (hexec b)
  rw [if_pos hcount] at hperform
  obtain ⟨hcx, hms, hrk, -⟩ := (b.setX d (f b)).advance.soloDone_effect k d
  have hsame : (b.setX d (f b)).advance.cx = (a.setX d (f a)).advance.cx := by
    rw [hcongr b a rfl]
    exact State.advance_cx_congr (State.setX_cx_congr (by rfl) d (f a))
  refine ⟨_, _, hexec a, hperform, by rw [hcx, hsame], ?_, ?_, by rw [hrk], ?_⟩
  · rw [hcx]
    simp [State.advance_cx_pc, b]
  · rw [hrk]
    exact hcount
  · rw [hms]
    simp [b]

/-- Settles O35: what a fetch keeps, the elected rank, and one equation for each way a pair goes. -/
theorem soloResults : Obligations.SoloResults := by
  refine ⟨fun s hp hn => exec_solo_in_helper hp hn, fun s t w hl hp hc hf => ?_⟩
  have hkeeps := State.fetch_keeps hf
  obtain ⟨hrk, -, hcx⟩ := id hkeeps
  intro k lowest room unmarked
  have hcount : t.rk.solo.count + 1 = k := by rw [hrk]
  have hpc : t.cx.pc = s.cx.pc := by rw [hcx]
  have hlowest : t.elected = t.rk.key.rank ↔ lowest := by
    rw [State.elected_iff, hkeeps.forall_participants hl fun key _ => t.rk.key.rank ≤ key.rank, hrk]
  have hroom : (∀ r ∈ t.participants, r.solo.posted.length < 16) ↔ room :=
    hkeeps.forall_participants hl fun _ solo => solo.posted.length < 16
  have hnone : (∀ q ∈ s.rk.solo.posted, q.1 ≠ k) → (t.rk.solo.posted.find? fun q => q.1 == k) = none := fun hn => by
    rw [hrk, List.find?_eq_none]
    simpa using hn
  refine ⟨fun e hd => exec_solo_undecoded hp hc hf hd, fun i hd hb => exec_solo_unallowed hp hc hf hd hb,
    fun i d hd hi hn hlo hro => ?integer, fun i d body u hd hb hn hlo => ?elected, fun i d body hd hb hn hlo => ?other,
    fun i d val hd hi hm hu => ?taken⟩
  case integer =>
    rw [exec_solo_pair hp hc hf hd (soloBody_of_integerDest hi),
      (State.soloPair_elected hcount i d (exec i) (hnone hn) (hlowest.mpr hlo)).1 (hroom.mpr hro)]
    rw [← hpc]
    exact State.soloPerform_of_integerDest hcount hi
  case elected =>
    obtain rfl := soloBody_exec hb
    rw [exec_solo_pair hp hc hf hd hb]
    obtain ⟨hperforms, hfull⟩ := State.soloPair_elected hcount i d (exec i) (hnone hn) (hlowest.mpr hlo)
    refine ⟨fun hro hu => ?_, fun hro => hfull (mt hroom.mp hro)⟩
    rw [hperforms (hroom.mpr hro), State.soloPerform_of_next hu]
    refine ⟨fun hk => by rw [if_neg hk], fun hk => ?_⟩
    rw [if_pos hk]
    exact ⟨_, rfl, u.soloDone_effect k d⟩
  case other =>
    obtain rfl := soloBody_exec hb
    rw [exec_solo_pair hp hc hf hd hb, ← hkeeps.tooFew hl, ← hrk]
    obtain ⟨hfailed, hwaits⟩ := State.soloPair_other hcount i d (exec i) (hnone hn) (mt hlowest.mp hlo)
    have hunfailed : (∀ q ∈ t.rk.solo.failed, q.1 ≠ k) → (t.rk.solo.failed.find? fun q => q.1 == k) = none := fun hn => by
      simpa [List.find?_eq_none] using hn
    refine ⟨fun q hq => (hfailed q hq).trans ?_, fun hq hf => ((hwaits (hunfailed hq)).1 hf).trans ?_, fun hq => (hwaits (hunfailed hq)).2⟩
    · simp [soloVal, boolNat]
    · simp [soloVal, boolNat]
  case taken =>
    obtain ⟨q, hq, hval⟩ : ∃ q, (t.rk.solo.posted.find? fun q => q.1 == k) = some q ∧ q.2 = val := by
      rw [hrk]
      cases hq : s.rk.solo.posted.find? fun q => q.1 == k with
      | none => simpa using List.find?_eq_none.mp hq _ hm
      | some q => exact ⟨q, rfl, hu q (List.mem_of_find?_eq_some hq) (by simpa using List.find?_some hq)⟩
    obtain ⟨hd', hother, hpc', hk, hms⟩ := t.soloTake_effect k val hi
    refine ⟨_, ?_, hd', fun r hr => (hother r hr).trans ?_, hpc'.trans (congrArg (· + 8) hpc), hk.trans hcount, hms⟩
    · rw [exec_solo_pair hp hc hf hd (soloBody_of_integerDest hi), State.soloPair_posted hcount i d (exec i) hq, hval]
    · simp only [State.x]
      rw [hcx]

end Sys2Proof.Machine
end

section
/-! PROOFS. Numbers (04 R63, R64, R71; 10 R202 to R204): one rounding gives the value that its mode names; a matrix cell keeps the widths of its
fields and the exact sum of its terms. -/

namespace Sys2Proof.Machine

open Sys2Proof

/-! ### A pairing stage: what it holds, releases and adds (R202) -/

/-- The queues of a cell hold at most four entries each. -/
def Cell.Room (c : Cell) : Prop := c.pos.length ≤ 4 ∧ c.neg.length ≤ 4

/-- A cell's value fits 24 bits, its excursion counter 3, and every entry of its queues is a term in range. -/
structure Cell.Fits (c : Cell) : Prop where
  low : -2^23 ≤ c.a
  high : c.a ≤ 2^23 - 1
  excursion : -3 ≤ c.x ∧ c.x ≤ 3
  terms : ∀ v ∈ c.pos ++ c.neg, v.natAbs < 2^23

/-- The cell with a term at the end of the queue of its sign; a zero term is dropped. -/
def Cell.hold (c : Cell) (t : Int) : Cell :=
  if t = 0 then c else if 0 < t then { c with pos := c.pos ++ [t] } else { c with neg := c.neg ++ [t] }

/-- d is c with the head of one of its queues added to the stage. -/
inductive Cell.Releases (c : Cell) : Cell → Prop
  | pos {v : Int} {r : List Int} (h : c.pos = v :: r) : Releases c ({ c with pos := r }.add v)
  | neg {v : Int} {r : List Int} (h : c.neg = v :: r) : Releases c ({ c with neg := r }.add v)

theorem Cell.poison_room (up : Bool) (case : Nat) : (Cell.poison up case).Room := by simp [Room, poison]

theorem Cell.poison_fits (up : Bool) (case : Nat) : (Cell.poison up case).Fits := by
  cases up <;> constructor <;> simp [poison]

/-- The sum of an addition wraps into 24 bits, X counting the wraps; an X past 3 poisons the cell. -/
theorem Cell.add_wraps (c : Cell) (v : Int) :
    ∃ a x, c.add v = (if 3 < x then .poison true 2 else if x < -3 then .poison false 2 else { c with a := a, x := x })
      ∧ a + x * 2^24 = c.a + c.x * 2^24 + v
      ∧ (-2^23 ≤ c.a → c.a ≤ 2^23 - 1 → v.natAbs < 2^23 → -2^23 ≤ a ∧ a ≤ 2^23 - 1) := by
  by_cases hup : 2^23 - 1 < c.a + v
  · exact ⟨c.a + v - 2^24, c.x + 1, by simp only [add, if_pos hup], by omega, by omega⟩
  by_cases hdown : c.a + v < -2^23
  · exact ⟨c.a + v + 2^24, c.x - 1, by simp only [add, if_neg hup, if_pos hdown], by omega, by omega⟩
  · exact ⟨c.a + v, c.x, by simp only [add, if_neg hup, if_neg hdown], by omega, by omega⟩

/-- An addition poisons the cell, or moves a + X × 2^24 by the term; X stays within 3, and a within 24 bits. -/
theorem Cell.add_cases (c : Cell) (v : Int) :
    (∃ up, c.add v = .poison up 2) ∨
    ∃ a x, c.add v = { c with a := a, x := x } ∧ a + x * 2^24 = c.a + c.x * 2^24 + v ∧ -3 ≤ x ∧ x ≤ 3
      ∧ (-2^23 ≤ c.a → c.a ≤ 2^23 - 1 → v.natAbs < 2^23 → -2^23 ≤ a ∧ a ≤ 2^23 - 1) := by
  obtain ⟨a, x, hadd, hsum, hfits⟩ := c.add_wraps v
  rw [hadd]
  split_ifs with hup hdown
  · exact .inl ⟨true, rfl⟩
  · exact .inl ⟨false, rfl⟩
  · exact .inr ⟨a, x, rfl, hsum, by omega, by omega, hfits⟩

theorem Cell.add_value {c : Cell} {v : Int} (h : (c.add v).bad = false) : (c.add v).value = c.value + v := by
  obtain ⟨up, hp⟩ | ⟨a, x, hd, hsum, -⟩ := c.add_cases v
  · rw [hp] at h
    cases h
  · simp only [hd, value]
    omega

theorem Cell.add_queues {c : Cell} {v : Int} (h : (c.add v).bad = false) : (c.add v).pos = c.pos ∧ (c.add v).neg = c.neg := by
  obtain ⟨up, hp⟩ | ⟨a, x, hd, -⟩ := c.add_cases v
  · rw [hp] at h
    cases h
  · rw [hd]
    exact ⟨rfl, rfl⟩

theorem Cell.add_room {c : Cell} (v : Int) (h : c.Room) : (c.add v).Room := by
  obtain ⟨up, hp⟩ | ⟨a, x, hd, -⟩ := c.add_cases v
  · exact hp ▸ poison_room up 2
  · rw [hd]
    exact h

theorem Cell.add_fits {c : Cell} {v : Int} (h : c.Fits) (hv : v.natAbs < 2^23) : (c.add v).Fits := by
  obtain ⟨up, hp⟩ | ⟨a, x, hd, -, hlo, hhi, hfits⟩ := c.add_cases v
  · exact hp ▸ poison_fits up 2
  · obtain ⟨hlow, hhigh⟩ := hfits h.low h.high hv
    rw [hd]
    exact ⟨hlow, hhigh, ⟨hlo, hhi⟩, h.terms⟩

theorem Cell.hold_value (c : Cell) (t : Int) : (c.hold t).value = c.value + t := by
  unfold hold
  split_ifs with hzero hpos
  · omega
  all_goals
    simp only [value, List.sum_append, List.sum_singleton]
    omega

theorem Cell.hold_fits {c : Cell} {t : Int} (h : c.Fits) (ht : t.natAbs < 2^23) : (c.hold t).Fits := by
  have hterms : ∀ v ∈ c.pos ++ c.neg ++ [t], v.natAbs < 2^23 := by
    intro v hv
    rcases List.mem_append.mp hv with hv | hv
    · exact h.terms v hv
    · exact List.mem_singleton.mp hv ▸ ht
  unfold hold
  split_ifs
  · exact h
  all_goals exact ⟨h.low, h.high, h.excursion, fun v hv => hterms v (by simp at hv ⊢; tauto)⟩

theorem Cell.Releases.value_eq {c d : Cell} (h : c.Releases d) (hb : d.bad = false) : d.value = c.value := by
  cases h with
  | pos h | neg h =>
    rw [add_value hb]
    simp only [value, h, List.sum_cons]
    omega

/-- A release takes one entry away. -/
theorem Cell.Releases.entries {c d : Cell} (h : c.Releases d) (hb : d.bad = false) :
    d.pos.length + d.neg.length + 1 = c.pos.length + c.neg.length := by
  cases h with
  | pos h | neg h =>
    obtain ⟨hp, hn⟩ := add_queues hb
    rw [hp, hn, h]
    simp only [List.length_cons]
    omega

theorem Cell.Releases.fits {c d : Cell} (h : c.Releases d) (hc : c.Fits) : d.Fits := by
  cases h with
  | pos h | neg h =>
    refine add_fits ⟨hc.low, hc.high, hc.excursion, fun w hw => hc.terms w ?_⟩ (hc.terms _ (by simp [h]))
    simp only [h, List.mem_append, List.mem_cons] at hw ⊢
    tauto

theorem Cell.Releases.room {c d : Cell} (h : c.Releases d) (hc : c.Room) : d.Room := by
  obtain ⟨hp, hn⟩ := hc
  cases h with
  | pos h =>
    rw [h, List.length_cons] at hp
    exact add_room _ ⟨Nat.le_of_succ_le hp, hn⟩
  | neg h =>
    rw [h, List.length_cons] at hn
    exact add_room _ ⟨hp, Nat.le_of_succ_le hn⟩

theorem Cell.paired_releases {c d : Cell} (h : c.paired = some d) : c.Releases d := by
  unfold paired at h
  split at h <;> split at h <;> cases h
  · exact .neg ‹_›
  · exact .pos ‹_›

/-- Where no pair is left, one queue is empty. -/
theorem Cell.empty_of_unpaired {c : Cell} (h : c.paired = none) : c.neg = [] ∨ c.pos = [] := by
  unfold paired at h
  split at h <;> split at h <;> cases h
  · exact .inl ‹_›
  · exact .inr ‹_›

/-- A cell that holds its term and has room keeps it, or releases an entry. -/
theorem Cell.paired_cases {c : Cell} (hroom : c.Room) :
    c.Releases (c.paired.getD c) ∧ (c.paired.getD c).Room ∨ c.paired.getD c = c := by
  cases h : c.paired with
  | none => exact .inr rfl
  | some d => exact .inl ⟨paired_releases h, (paired_releases h).room hroom⟩

/-- A term that a cell takes joins its queue; then the cell keeps it, or releases an entry; a full queue always releases its head. -/
theorem Cell.take_cases {c : Cell} {t : Int} (ht : t ≠ 0) (hroom : c.Room) :
    (c.hold t).Releases (c.take t) ∧ (c.take t).Room ∨ c.take t = c.hold t ∧ (c.hold t).Room := by
  have hheld : (c.hold t).Room → c.take t = (c.hold t).paired.getD (c.hold t) →
      (c.hold t).Releases (c.take t) ∧ (c.take t).Room ∨ c.take t = c.hold t ∧ (c.hold t).Room := by
    intro hr he
    rw [he]
    exact (paired_cases hr).imp_right fun h => ⟨h, hr⟩
  obtain ⟨hp, hn⟩ := hroom
  by_cases hpos : 0 < t
  · have hhold : c.hold t = { c with pos := c.pos ++ [t] } := by rw [hold, if_neg ht, if_pos hpos]
    cases hq : c.pos with
    | nil => exact hheld (hhold ▸ ⟨by simp [hq], hn⟩) (by rw [take, if_pos hpos, hhold]; simp only [hq, List.nil_append])
    | cons v r =>
      rw [hq, List.length_cons] at hp
      by_cases hfull : r.length = 3
      · have htake : c.take t = { c with pos := r ++ [t] }.add v := by rw [take, if_pos hpos, hq]; exact if_pos hfull
        rw [htake]
        exact .inl ⟨hhold ▸ Releases.pos (c := { c with pos := c.pos ++ [t] }) (by simp [hq]), add_room _ ⟨by simp [hfull], hn⟩⟩
      · refine hheld (hhold ▸ ⟨by simp [hq]; omega, hn⟩) ?_
        rw [take, if_pos hpos, hhold, hq]
        exact if_neg hfull
  · have hhold : c.hold t = { c with neg := c.neg ++ [t] } := by rw [hold, if_neg ht, if_neg hpos]
    cases hq : c.neg with
    | nil => exact hheld (hhold ▸ ⟨hp, by simp [hq]⟩) (by rw [take, if_neg hpos, hhold]; simp only [hq, List.nil_append])
    | cons v r =>
      rw [hq, List.length_cons] at hn
      by_cases hfull : r.length = 3
      · have htake : c.take t = { c with neg := r ++ [t] }.add v := by rw [take, if_neg hpos, hq]; exact if_pos hfull
        rw [htake]
        exact .inl ⟨hhold ▸ Releases.neg (c := { c with neg := c.neg ++ [t] }) (by simp [hq]), add_room _ ⟨hp, by simp [hfull]⟩⟩
      · refine hheld (hhold ▸ ⟨hp, by simp [hq]; omega⟩) ?_
        rw [take, if_neg hpos, hhold, hq]
        exact if_neg hfull

/-! ### A pairing cycle (R202, R204) -/

theorem Cell.cycle_of_bad {c : Cell} (t : Option Int) (hb : c.bad = true) : c.cycle t = c := by
  unfold cycle
  exact if_pos hb

theorem Cell.cycle_nar {c : Cell} (hb : c.bad = false) : c.cycle none = .poison false 4 := by simp [cycle, hb]

theorem Cell.cycle_above {c : Cell} {t : Int} (hb : c.bad = false) (h : 2^23 - 1 < t) : c.cycle (some t) = .poison true 3 := by
  simp only [cycle, hb, Bool.false_eq_true, if_false, if_pos h]

theorem Cell.cycle_below {c : Cell} {t : Int} (hb : c.bad = false) (h : t < -(2^23 - 1)) : c.cycle (some t) = .poison false 3 := by
  simp only [cycle, hb, Bool.false_eq_true, if_false, if_neg (show ¬ 2^23 - 1 < t by omega), if_pos h]

/-- A term in range is held; then the cell keeps it, or releases an entry. -/
theorem Cell.cycle_inRange {c : Cell} {t : Int} (hb : c.bad = false) (ht : t.natAbs < 2^23) (hroom : c.Room) :
    (c.hold t).Releases (c.cycle (some t)) ∧ (c.cycle (some t)).Room ∨ c.cycle (some t) = c.hold t ∧ (c.hold t).Room := by
  have hcycle : c.cycle (some t) = if t = 0 then c.paired.getD c else c.take t := by
    simp only [cycle, hb, Bool.false_eq_true, if_false, if_neg (show ¬ 2^23 - 1 < t by omega), if_neg (show ¬ t < -(2^23 - 1) by omega)]
  rw [hcycle]
  by_cases hzero : t = 0
  · have hhold : c.hold t = c := if_pos hzero
    rw [if_pos hzero, hhold]
    exact (paired_cases hroom).imp_right fun h => ⟨h, hroom⟩
  · rw [if_neg hzero]
    exact take_cases hzero hroom

/-- A cycle's outcomes: a poisoned cell is left as it is, a NaR or a term out of range poisons one, and a term in range is held. -/
theorem Cell.cycle_cases {c : Cell} (t : Option Int) (hroom : c.Room) :
    c.bad = true ∧ c.cycle t = c ∨ (∃ up case, c.cycle t = .poison up case) ∨
    ∃ v, t = some v ∧ v.natAbs < 2^23 ∧ c.bad = false ∧
      ((c.hold v).Releases (c.cycle t) ∧ (c.cycle t).Room ∨ c.cycle t = c.hold v ∧ (c.hold v).Room) := by
  cases hb : c.bad with
  | true => exact .inl ⟨rfl, cycle_of_bad t hb⟩
  | false =>
    refine .inr ?_
    cases t with
    | none => exact .inl ⟨_, _, cycle_nar hb⟩
    | some v =>
      by_cases habove : 2^23 - 1 < v
      · exact .inl ⟨_, _, cycle_above hb habove⟩
      by_cases hbelow : v < -(2^23 - 1)
      · exact .inl ⟨_, _, cycle_below hb hbelow⟩
      have hv : v.natAbs < 2^23 := by omega
      exact .inr ⟨v, rfl, hv, rfl, cycle_inRange hb hv hroom⟩

theorem Cell.cycle_room {c : Cell} (t : Option Int) (hroom : c.Room) : (c.cycle t).Room := by
  obtain ⟨-, h⟩ | ⟨up, case, h⟩ | ⟨v, -, -, -, ⟨-, h⟩ | ⟨he, h⟩⟩ := cycle_cases t hroom
  · rwa [h]
  · exact h ▸ poison_room up case
  · exact h
  · exact he ▸ h

theorem Cell.cycle_fits {c : Cell} (t : Option Int) (hroom : c.Room) (hc : c.Fits) : (c.cycle t).Fits := by
  obtain ⟨-, h⟩ | ⟨up, case, h⟩ | ⟨v, -, hv, -, ⟨hr, -⟩ | ⟨he, -⟩⟩ := cycle_cases t hroom
  · rwa [h]
  · exact h ▸ poison_fits up case
  · exact hr.fits (hold_fits hc hv)
  · exact he ▸ hold_fits hc hv

/-- A cell that a cycle leaves unpoisoned was so before, and its true value has moved by the term. -/
theorem Cell.cycle_value {c : Cell} {t : Int} (hroom : c.Room) (hd : (c.cycle (some t)).bad = false) :
    c.bad = false ∧ (c.cycle (some t)).value = c.value + t := by
  obtain ⟨hb, h⟩ | ⟨up, case, h⟩ | ⟨v, hv, -, hb, ⟨hr, -⟩ | ⟨he, -⟩⟩ := cycle_cases (some t) hroom
  · rw [h, hb] at hd
    cases hd
  · rw [h] at hd
    cases hd
  · cases hv
    exact ⟨hb, (hr.value_eq hd).trans (c.hold_value t)⟩
  · cases hv
    exact ⟨hb, he ▸ c.hold_value t⟩

/-! ### Any terms, then the residue pass (R203) -/

theorem Cell.cycles_room (ts : List Int) {c : Cell} (hroom : c.Room) : (ts.foldl (fun c t => c.cycle (some t)) c).Room := by
  induction ts generalizing c with
  | nil => exact hroom
  | cons t ts ih => exact ih (cycle_room (some t) hroom)

theorem Cell.cycles_value (ts : List Int) {c : Cell} (hroom : c.Room) (h : (ts.foldl (fun c t => c.cycle (some t)) c).bad = false) :
    c.bad = false ∧ (ts.foldl (fun c t => c.cycle (some t)) c).value = c.value + ts.sum := by
  induction ts generalizing c with
  | nil => exact ⟨h, (Int.add_zero _).symm⟩
  | cons t ts ih =>
    obtain ⟨hb, hvalue⟩ := ih (cycle_room (some t) hroom) h
    obtain ⟨hc, hstep⟩ := cycle_value hroom hb
    refine ⟨hc, ?_⟩
    rw [List.foldl_cons, hvalue, hstep, List.sum_cons]
    omega

/-- The tail adds the entries that it is given, and ends with X = 0 and empty queues. -/
theorem Cell.tail_exact (up : Bool) (q : List Int) {c : Cell} (hc : c.bad = false) (hempty : q = [] → c.pos = [] ∧ c.neg = [])
    (h : (c.tail up q).bad = false) :
    (c.tail up q).a = c.a + c.x * 2^24 + q.sum ∧ (c.tail up q).x = 0 ∧ (c.tail up q).pos = [] ∧ (c.tail up q).neg = [] := by
  induction q generalizing c with
  | nil =>
    rw [tail] at h ⊢
    split at h
    next hx =>
      rw [if_pos hx, hx, List.sum_nil]
      exact ⟨by omega, rfl, hempty rfl⟩
    next => cases h
  | cons v r ih =>
    rw [tail] at h ⊢
    split at h
    next => cases h
    next hover =>
      have hd : ({ c with pos := [], neg := [] }.add v).bad = false := by
        simpa [hc] using (Bool.or_eq_false_iff.mp (Bool.eq_false_iff.mpr hover)).2
      have hvalue := add_value hd
      obtain ⟨hpos, hneg⟩ := add_queues hd
      obtain ⟨ha, hrest⟩ := ih hd (fun _ => ⟨hpos, hneg⟩) h
      simp only [value, hpos, hneg, List.sum_nil] at hvalue
      rw [if_neg hover, List.sum_cons]
      exact ⟨by omega, hrest⟩

/-- The residue pass leaves a poisoned cell poisoned. -/
theorem Cell.bad_of_residue {c : Cell} (fuel : Nat) (h : (c.residue fuel).bad = false) : c.bad = false := by
  cases hb : c.bad with
  | false => rfl
  | true => cases fuel <;> simp [residue, hb] at h

/-- With fuel for every entry held, a residue pass that does not poison the cell leaves its true value in a alone. -/
theorem Cell.residue_exact (fuel : Nat) {c : Cell} (hfuel : c.pos.length + c.neg.length < fuel) (h : (c.residue fuel).bad = false) :
    (c.residue fuel).a = c.value ∧ (c.residue fuel).x = 0 ∧ (c.residue fuel).pos = [] ∧ (c.residue fuel).neg = [] := by
  induction fuel generalizing c with
  | zero => omega
  | succ fuel ih =>
    have hc := bad_of_residue _ h
    cases hpair : c.paired with
    | some d =>
      have hstep : c.residue (fuel + 1) = d.residue fuel := by simp [residue, hc, hpair]
      rw [hstep] at h ⊢
      have hd := bad_of_residue fuel h
      have hreleases := paired_releases hpair
      have hentries := hreleases.entries hd
      rw [← hreleases.value_eq hd]
      exact ih (by omega) h
    | none =>
      cases hpos : c.pos with
      | nil =>
        have hstep : c.residue (fuel + 1) = c.tail false c.neg := by simp [residue, hc, hpair, hpos]
        rw [hstep] at h ⊢
        obtain ⟨ha, hrest⟩ := tail_exact false c.neg hc (fun hn => ⟨hpos, hn⟩) h
        refine ⟨ha.trans ?_, hrest⟩
        simp only [value, hpos, List.sum_nil, Int.add_zero]
      | cons v r =>
        have hstep : c.residue (fuel + 1) = c.tail true c.pos := by simp [residue, hc, hpair, hpos]
        have hneg : c.neg = [] := (empty_of_unpaired hpair).resolve_right (by simp [hpos])
        rw [hstep] at h ⊢
        obtain ⟨ha, hrest⟩ := tail_exact true c.pos hc (fun hn => ⟨hn, hneg⟩) h
        refine ⟨ha.trans ?_, hrest⟩
        simp only [value, hneg, List.sum_nil, Int.add_zero]

/-- A zeroed cell that takes terms and then runs its residue pass holds their sum. -/
theorem Cell.residue_cycles (ts : List Int) (h : ((ts.foldl (fun (c : Cell) t => c.cycle (some t)) Cell.zero).residue 9).bad = false) :
    ((ts.foldl (fun (c : Cell) t => c.cycle (some t)) Cell.zero).residue 9).a = ts.sum
    ∧ ((ts.foldl (fun (c : Cell) t => c.cycle (some t)) Cell.zero).residue 9).x = 0
    ∧ ((ts.foldl (fun (c : Cell) t => c.cycle (some t)) Cell.zero).residue 9).pos = []
    ∧ ((ts.foldl (fun (c : Cell) t => c.cycle (some t)) Cell.zero).residue 9).neg = [] := by
  have hzero : Cell.zero.Room := by simp [Room, Cell.zero]
  obtain ⟨hp, hn⟩ := cycles_room ts hzero
  obtain ⟨-, hvalue⟩ := cycles_value ts hzero (bad_of_residue 9 h)
  obtain ⟨ha, hrest⟩ := residue_exact 9 (by omega) h
  exact ⟨by rw [ha, hvalue]; simp [value, Cell.zero], hrest⟩

/-! ### The magnitudes of a format's codes, in order (R62) -/

/-- A format whose codes FpFmt.value reads as IEEE codes: not E4M3, with a fraction field and at least two exponent bits. -/
structure FpFmt.Ieee (f : FpFmt) : Prop where
  ne : f ≠ e4m3
  fraction : 0 < f.mb
  exponent : 2 ≤ f.eb

theorem FpFmt.ieee_of {f : FpFmt} (h : f = fp32 ∨ f = bf16) : f.Ieee := by
  rcases h with rfl | rfl <;> exact ⟨by decide, by decide, by decide⟩

/-- ±1. -/
def signOf (neg : Bool) : Rat := if neg then -1 else 1

/-- The size of a code without its sign, as a multiple of the smallest subnormal value; exponents go on past the format's range. -/
def FpFmt.units (f : FpFmt) (c : Nat) : Nat := if c / 2^f.mb = 0 then c else (2^f.mb + c % 2^f.mb) * 2^(c / 2^f.mb - 1)

/-- The size of a code without its sign. -/
def FpFmt.mag (f : FpFmt) (c : Nat) : Rat := f.units c * 2^(1 - f.bias - f.mb : Int)

theorem ratOf_eq_zpow (neg : Bool) (m : Nat) (e : Int) : ratOf neg m e = signOf neg * (m * 2^e) := by
  have he : (2 : Rat)^e = 2^e.toNat / 2^(-e).toNat := by
    rw [← zpow_natCast, ← zpow_natCast, ← zpow_sub₀ two_ne_zero, Int.toNat_sub_toNat_neg]
  simp only [ratOf, signOf, he, Nat.cast_pow, Nat.cast_ofNat]
  ring

theorem ratOf_false (m : Nat) (e : Int) : ratOf false m e = m * 2^e := by simp [ratOf_eq_zpow, signOf]

theorem ratOf_eq_sign (neg : Bool) (m : Nat) (e : Int) : ratOf neg m e = signOf neg * ratOf false m e := by
  rw [ratOf_false, ratOf_eq_zpow]

/-- A code split as j × 2^mb + n is n units of 2^j, also where n carries out of the fraction field. -/
theorem FpFmt.units_scaled (f : FpFmt) {j n : Nat} (hn : n ≤ 2^(f.mb + 1)) (hj : j = 0 ∨ 2^f.mb ≤ n) :
    f.units (j * 2^f.mb + n) = n * 2^j := by
  have hp : 0 < 2^f.mb := by positivity
  have htwo : 2^(f.mb + 1) = 2 * 2^f.mb := Nat.pow_succ'
  by_cases hsub : n < 2^f.mb
  · obtain rfl : j = 0 := hj.resolve_right (by omega)
    simp [units, Nat.div_eq_of_lt hsub]
  by_cases hcarry : n = 2 * 2^f.mb
  · have hc : j * 2^f.mb + n = (j + 2) * 2^f.mb := by rw [hcarry]; ring
    rw [units, hc, Nat.mul_div_cancel _ hp, Nat.mul_mod_left, if_neg (by omega), hcarry, Nat.add_zero, show j + 2 - 1 = j + 1 by omega]
    ring
  · obtain ⟨r, rfl⟩ : ∃ r, n = 2^f.mb + r := ⟨n - 2^f.mb, by omega⟩
    have hr : r < 2^f.mb := by omega
    have hc : j * 2^f.mb + (2^f.mb + r) = r + 2^f.mb * (j + 1) := by ring
    rw [units, hc, Nat.add_mul_div_left _ _ hp, Nat.add_mul_mod_self_left, Nat.div_eq_of_lt hr, Nat.mod_eq_of_lt hr, if_neg (by omega),
      show 0 + (j + 1) - 1 = j by omega]

theorem FpFmt.mag_scaled (f : FpFmt) {j n : Nat} (hn : n ≤ 2^(f.mb + 1)) (hj : j = 0 ∨ 2^f.mb ≤ n) :
    f.mag (j * 2^f.mb + n) = n * 2^(j + (1 - f.bias - f.mb) : Int) := by
  rw [mag, f.units_scaled hn hj, zpow_add₀ two_ne_zero, zpow_natCast]
  push_cast
  ring

/-- Every code splits so, with room for the next one. -/
theorem FpFmt.code_scaled (f : FpFmt) (c : Nat) : ∃ j n, c = j * 2^f.mb + n ∧ n + 1 ≤ 2^(f.mb + 1) ∧ (j = 0 ∨ 2^f.mb ≤ n) := by
  have hp : 0 < 2^f.mb := by positivity
  have htwo : 2^(f.mb + 1) = 2 * 2^f.mb := Nat.pow_succ'
  have hmod := Nat.mod_lt c hp
  have hdiv := Nat.div_add_mod' c (2^f.mb)
  cases hq : c / 2^f.mb with
  | zero => exact ⟨0, c % 2^f.mb, by rw [← hdiv, hq]; simp, by omega, .inl rfl⟩
  | succ j => exact ⟨j, 2^f.mb + c % 2^f.mb, by rw [hq] at hdiv; rw [← Nat.add_assoc, ← Nat.succ_mul, hdiv], by omega, .inr (by omega)⟩

theorem FpFmt.mag_strictMono (f : FpFmt) : StrictMono f.mag := by
  refine strictMono_nat_of_lt_succ fun c => ?_
  obtain ⟨j, n, rfl, hn, hj⟩ := f.code_scaled c
  rw [Nat.add_assoc, f.mag_scaled (by omega) hj, f.mag_scaled hn (by omega)]
  exact mul_lt_mul_of_pos_right (by exact_mod_cast Nat.lt_succ_self n) (by positivity)

theorem FpFmt.mag_zero (f : FpFmt) : f.mag 0 = 0 := by simp [mag, units]

theorem FpFmt.mag_nonneg (f : FpFmt) (c : Nat) : 0 ≤ f.mag c := by
  unfold mag
  positivity

theorem FpFmt.infCode_lt (f : FpFmt) : f.infCode < 2^(f.eb + f.mb) := by
  rw [infCode, Nat.pow_add]
  exact Nat.mul_lt_mul_of_pos_right (Nat.sub_lt (by positivity) one_pos) (by positivity)

theorem FpFmt.signed_mod (f : FpFmt) {neg : Bool} {k : Nat} (hk : k ≤ f.infCode) : f.signed neg k % 2^(f.eb + f.mb) = k := by
  rw [signed, Nat.add_mul_mod_self_right, Nat.mod_eq_of_lt (hk.trans_lt f.infCode_lt)]

theorem FpFmt.signed_testBit (f : FpFmt) {neg : Bool} {k : Nat} (hk : k ≤ f.infCode) : (f.signed neg k).testBit (f.eb + f.mb) = neg := by
  have hlt := hk.trans_lt f.infCode_lt
  rw [Nat.testBit_eq_decide_div_mod_eq, signed, Nat.add_mul_div_right _ _ (by positivity), Nat.div_eq_of_lt hlt]
  cases neg <;> rfl

section
variable {f : FpFmt} (hf : f.Ieee)
include hf

theorem FpFmt.infCode_pos : 0 < f.infCode := by
  have h : 2^1 < 2^f.eb := Nat.pow_lt_pow_right (by omega) hf.exponent
  exact Nat.mul_pos (by omega) (by positivity)

theorem FpFmt.infCode_even : f.infCode % 2 = 0 := by
  obtain ⟨k, hk⟩ := Nat.exists_eq_succ_of_ne_zero hf.fraction.ne'
  rw [infCode, hk, Nat.pow_succ, ← Nat.mul_assoc, Nat.mul_mod_left]

/-- The code of infinity ends the largest binade, whose exponent field is twice the bias. -/
theorem FpFmt.infCode_eq : 0 < f.bias ∧ f.infCode = (2 * f.bias - 1) * 2^f.mb + 2^(f.mb + 1) := by
  obtain ⟨k, hk⟩ := Nat.exists_eq_add_of_le' hf.exponent
  have hp : 0 < 2^k := by positivity
  have hbias : f.bias = 2 * 2^k - 1 := by rw [bias, hk, show k + 2 - 1 = k + 1 by omega, Nat.pow_succ']
  refine ⟨by omega, ?_⟩
  rw [infCode, hbias, hk, Nat.pow_succ', Nat.pow_succ', Nat.pow_succ', ← Nat.add_mul]
  congr 1
  omega

/-- A size in the largest binade of the format, or at its end. -/
theorem FpFmt.mag_top {n : Nat} (hlo : 2^f.mb ≤ n) (hhi : n ≤ 2^(f.mb + 1)) :
    f.mag ((2 * f.bias - 1) * 2^f.mb + n) = n * 2^(f.bias - f.mb : Int) := by
  obtain ⟨hbias, -⟩ := infCode_eq hf
  rw [f.mag_scaled hhi (.inr hlo)]
  congr 2
  omega

theorem FpFmt.mag_infCode : f.mag f.infCode = 2^(f.mb + 1) * 2^(f.bias - f.mb : Int) := by
  rw [(infCode_eq hf).2, mag_top hf (Nat.pow_le_pow_right two_pos (by omega)) le_rfl]
  push_cast
  rfl

/-- The largest finite value. -/
theorem FpFmt.mag_largest : f.mag (f.infCode - 1) = ratOf false (2^(f.mb + 1) - 1) (f.bias - f.mb) := by
  have hp : 0 < 2^f.mb := by positivity
  have htwo : 2^(f.mb + 1) = 2 * 2^f.mb := Nat.pow_succ'
  rw [(infCode_eq hf).2, Nat.add_sub_assoc (by omega), mag_top hf (by omega) (by omega), ratOf_false]

/-- Half a unit past the largest finite value is halfway to the next code. -/
theorem FpFmt.mag_halfway :
    2 * ratOf false (2^(f.mb + 2) - 1) (f.bias - f.mb - 1) = f.mag (f.infCode - 1) + f.mag f.infCode := by
  have hone : 1 ≤ 2^(f.mb + 1) := Nat.one_le_two_pow
  have htwo : 1 ≤ 2^(f.mb + 2) := Nat.one_le_two_pow
  rw [mag_largest hf, mag_infCode hf, ratOf_false, ratOf_false, zpow_sub_one₀ two_ne_zero]
  push_cast [hone, htwo]
  ring

/-! ### What a code stands for (R62) -/

/-- A code is finite, an infinity or a NaN as its part without the sign lies below the code of infinity, at it or past it. -/
theorem FpFmt.value_cases (c : Nat) :
    (c % 2^(f.eb + f.mb) < f.infCode ∧
      ∃ m e, f.value c = .fin (c.testBit (f.eb + f.mb)) m e ∧ ratOf false m e = f.mag (c % 2^(f.eb + f.mb))) ∨
    (c % 2^(f.eb + f.mb) = f.infCode ∧ f.value c = .inf (c.testBit (f.eb + f.mb))) ∨
    (f.infCode < c % 2^(f.eb + f.mb) ∧ ∃ q, f.value c = .nan q) := by
  have hp : 0 < 2^f.mb := by positivity
  have hfield : c / 2^f.mb % 2^f.eb = c % 2^(f.eb + f.mb) / 2^f.mb := by
    rw [Nat.add_comm, Nat.pow_add, Nat.mod_mul_right_div_self]
  have hfrac : c % 2^f.mb = c % 2^(f.eb + f.mb) % 2^f.mb := (Nat.mod_mod_of_dvd c (pow_dvd_pow 2 (by omega))).symm
  have hlt : c % 2^(f.eb + f.mb) / 2^f.mb < 2^f.eb := by
    rw [Nat.div_lt_iff_lt_mul hp, ← Nat.pow_add]
    exact Nat.mod_lt _ (by positivity)
  generalize hk : c % 2^(f.eb + f.mb) = k at *
  have hdiv := Nat.div_add_mod' k (2^f.mb)
  have hmod := Nat.mod_lt k hp
  unfold value finite
  rw [if_neg hf.ne, hfield, hfrac]
  by_cases htop : k / 2^f.mb = 2^f.eb - 1
  · have hcode : f.infCode + k % 2^f.mb = k := by rw [infCode, ← htop]; exact hdiv
    rw [if_pos htop]
    by_cases hzero : k % 2^f.mb = 0
    · exact .inr (.inl ⟨by omega, if_pos hzero⟩)
    · exact .inr (.inr ⟨by omega, _, if_neg hzero⟩)
  · have hbelow : k < f.infCode := (Nat.div_lt_iff_lt_mul hp).mp (by omega)
    rw [if_neg htop]
    refine .inl ⟨hbelow, ?_⟩
    by_cases hzero : k / 2^f.mb = 0
    · refine ⟨_, _, if_pos hzero, ?_⟩
      rw [ratOf_false, mag, units, if_pos hzero, Nat.mod_eq_of_lt ((Nat.div_eq_zero_iff_lt hp).mp hzero)]
    · refine ⟨_, _, if_neg hzero, ?_⟩
      have hexp : ((k / 2^f.mb : Nat) : Int) - f.bias - f.mb = ((k / 2^f.mb - 1 : Nat) : Int) + (1 - f.bias - f.mb) := by omega
      rw [ratOf_false, mag, units, if_neg hzero, hexp, zpow_add₀ two_ne_zero, zpow_natCast]
      push_cast
      ring

/-- A finite code's value is the size of a code below infinity, with the sign. -/
theorem FpFmt.value_fin {c m : Nat} {neg : Bool} {e : Int} (h : f.value c = .fin neg m e) :
    ∃ k < f.infCode, ratOf neg m e = signOf neg * f.mag k := by
  obtain ⟨hk, m', e', hv, hm⟩ | ⟨-, hv⟩ | ⟨-, q, hv⟩ := value_cases hf c <;> rw [h] at hv <;> cases hv
  exact ⟨_, hk, by rw [ratOf_eq_sign, hm]⟩

theorem FpFmt.signed_parity (neg : Bool) (k : Nat) : f.signed neg k % 2 = k % 2 := by
  obtain ⟨n, hn⟩ := Nat.exists_eq_succ_of_ne_zero (show f.eb + f.mb ≠ 0 by have := hf.fraction; omega)
  rw [signed, hn, Nat.pow_succ, ← Nat.mul_assoc, Nat.add_mul_mod_self_right]

theorem FpFmt.value_signed_finite (neg : Bool) {k : Nat} (hk : k < f.infCode) :
    ∃ m e, f.value (f.signed neg k) = .fin neg m e ∧ ratOf neg m e = signOf neg * f.mag k := by
  have hcases := value_cases hf (f.signed neg k)
  rw [f.signed_mod hk.le, f.signed_testBit hk.le] at hcases
  obtain ⟨-, m, e, hv, hm⟩ | ⟨hinf, -⟩ | ⟨hnan, -⟩ := hcases
  · exact ⟨m, e, hv, by rw [ratOf_eq_sign, hm]⟩
  all_goals omega

theorem FpFmt.value_signed_infCode (neg : Bool) : f.value (f.signed neg f.infCode) = .inf neg := by
  have hcases := value_cases hf (f.signed neg f.infCode)
  rw [f.signed_mod le_rfl, f.signed_testBit le_rfl] at hcases
  obtain ⟨hfin, -⟩ | ⟨-, hv⟩ | ⟨hnan, -⟩ := hcases
  · omega
  · exact hv
  · omega

end

/-! ### One rounding, on sizes (R63) -/

/-- Whether the mode rounds a size up whatever the distance: up for a positive value, down for a negative one. -/
def awayMode (rm : Nat) (neg : Bool) : Bool := rm == 2 && !neg || rm == 3 && neg

/-- Whether a size between the codes c and c + 1 of sizes lo and hi rounds to the upper one. -/
def RoundsUp (rm : Nat) (neg : Bool) (c : Nat) (lo hi size : Rat) : Prop :=
  awayMode rm neg = true ∨ rm = 0 ∧ (lo + hi < 2 * size ∨ lo + hi = 2 * size ∧ c % 2 = 1)

theorem roundsUp_nearest {rm : Nat} (hrm : rm = 0) (neg : Bool) (c : Nat) (lo hi size : Rat) :
    RoundsUp rm neg c lo hi size ↔ lo + hi < 2 * size ∨ lo + hi = 2 * size ∧ c % 2 = 1 := by simp [RoundsUp, awayMode, hrm]

/-- What rounding makes of a size with c and c + 1 around it, of sizes lo and hi: c where it is exact, and otherwise the one that the mode names. -/
inductive RoundsTo (rm : Nat) (neg : Bool) (c : Nat) (lo hi size : Rat) : Nat → Bool → Prop
  | exact (h : lo = size) : RoundsTo rm neg c lo hi size c false
  | up (hlo : lo < size) (hhi : size < hi) (h : RoundsUp rm neg c lo hi size) : RoundsTo rm neg c lo hi size (c + 1) true
  | down (hlo : lo < size) (hhi : size < hi) (h : ¬ RoundsUp rm neg c lo hi size) : RoundsTo rm neg c lo hi size c true

/-- An even offset on the codes leaves the choice as it is. -/
theorem RoundsTo.offset {rm n k b : Nat} {neg inexact : Bool} {lo hi size : Rat} (h : RoundsTo rm neg n lo hi size k inexact) (hb : b % 2 = 0) :
    RoundsTo rm neg (b + n) lo hi size (b + k) inexact := by
  have hup : RoundsUp rm neg (b + n) lo hi size ↔ RoundsUp rm neg n lo hi size := by
    rw [RoundsUp, RoundsUp, Nat.add_mod, hb, Nat.zero_add, Nat.mod_mod]
  cases h with
  | exact h => exact .exact h
  | up hlo hhi h => exact .up hlo hhi (hup.mpr h)
  | down hlo hhi h => exact .down hlo hhi (mt hup.mp h)

/-- The mode's choice for a quotient n of remainder r by d, on the integers. -/
theorem roundsUp_div (rm : Nat) (neg : Bool) (n d r : Nat) {w : Rat} (hw : 0 < w) :
    RoundsUp rm neg n ((n * d : Nat) * w) (((n + 1) * d : Nat) * w) ((n * d + r : Nat) * w) ↔
    awayMode rm neg = true ∨ rm = 0 ∧ (d < 2 * r ∨ d = 2 * r ∧ n % 2 = 1) := by
  have hsum : ((n * d : Nat) : Rat) * w + ((n + 1) * d : Nat) * w = (2 * (n * d) + d : Nat) * w := by push_cast; ring
  have htwice : 2 * (((n * d + r : Nat) : Rat) * w) = (2 * (n * d) + 2 * r : Nat) * w := by push_cast; ring
  rw [RoundsUp, hsum, htwice, mul_lt_mul_iff_left₀ hw, mul_left_inj' hw.ne', Nat.cast_lt, Nat.cast_inj,
    Nat.add_lt_add_iff_left, Nat.add_left_cancel_iff]

/-- A multiple of a larger 2^q is the quotient by d = 2^(q - e) or its successor. -/
theorem roundAt_of_lt {rm : Nat} (hrm : rm < 4) (neg : Bool) (m : Nat) {e q : Int} {d : Nat} (hq : e < q) (hd : d = 2^(q - e).toNat) :
    roundAt rm neg m e q = (if m % d ≠ 0 ∧ (awayMode rm neg = true ∨ rm = 0 ∧ (d < 2 * (m % d) ∨ d = 2 * (m % d) ∧ m / d % 2 = 1))
      then m / d + 1 else m / d, m % d != 0) := by
  simp only [roundAt, if_neg (show ¬ q ≤ e by omega), ← hd]
  match rm, hrm with
  | 0, _ => simp [awayMode, eq_comm (a := d) (b := 2 * (m % d))]
  | 1, _ | 2, _ | 3, _ => simp [awayMode]

/-- m × 2^e as a multiple of a larger 2^q: the quotient or its successor, by the mode. -/
theorem roundAt_rounds {rm : Nat} (hrm : rm < 4) (neg : Bool) (m : Nat) {e q : Int} {d : Nat} (hq : e < q) (hd : d = 2^(q - e).toNat) :
    RoundsTo rm neg (m / d) ((m / d : Nat) * 2^q) ((m / d + 1 : Nat) * 2^q) (m * 2^e) (roundAt rm neg m e q).1 (roundAt rm neg m e q).2 := by
  have hscale : ∀ k : Nat, (k : Rat) * 2^q = (k * d : Nat) * 2^e := by
    intro k
    rw [hd, Nat.cast_mul, Nat.cast_pow, Nat.cast_ofNat, mul_assoc, ← zpow_natCast, ← zpow_add₀ two_ne_zero]
    congr 2
    omega
  have hw : (0 : Rat) < 2^e := by positivity
  have hr : m % d < d := Nat.mod_lt m (by rw [hd]; positivity)
  have hup := roundsUp_div rm neg (m / d) d (m % d) hw
  rw [Nat.div_add_mod'] at hup
  rw [roundAt_of_lt hrm neg m hq hd, hscale, hscale]
  by_cases hzero : m % d = 0
  · rw [if_neg fun h => h.1 hzero, bne_eq_false_iff_eq.mpr hzero]
    exact .exact (by rw [Nat.div_mul_cancel (Nat.dvd_of_mod_eq_zero hzero)])
  have hm := Nat.div_add_mod' m d
  have hlo : ((m / d * d : Nat) : Rat) * 2^e < m * 2^e := mul_lt_mul_of_pos_right (Nat.cast_lt.mpr (by omega)) hw
  have hhi : (m : Rat) * 2^e < ((m / d + 1) * d : Nat) * 2^e :=
    mul_lt_mul_of_pos_right (Nat.cast_lt.mpr (by rw [Nat.succ_mul]; omega)) hw
  rw [bne_iff_ne.mpr hzero]
  split_ifs with h
  · exact .up hlo hhi (hup.mpr h.2)
  · exact .down hlo hhi fun hu => h ⟨hzero, hup.mp hu⟩

/-- The quotient of M by 2^s fits the fraction field and its leading bit; it has that bit unless the exponent is the least one (j = 0). -/
theorem FpFmt.scaled_quotient (f : FpFmt) {M s j : Nat} (hhigh : M < 2^(M.log2 + 1)) (hs : M.log2 ≤ s + f.mb)
    (hj : j ≠ 0 → M.log2 = s + f.mb) (hM : M ≠ 0) : M / 2^s + 1 ≤ 2^(f.mb + 1) ∧ (j = 0 ∨ 2^f.mb ≤ M / 2^s) := by
  refine ⟨(Nat.div_lt_iff_lt_mul (by positivity)).mpr ?_, or_iff_not_imp_left.mpr fun hne => ?_⟩
  · rw [← Nat.pow_add]
    exact hhigh.trans_le (Nat.pow_le_pow_right two_pos (by omega))
  · rw [Nat.le_div_iff_mul_le (by positivity), ← Nat.pow_add, Nat.add_comm, ← hj hne]
    exact Nat.log2_self_le hM

/-- The code of one rounding, its exponent unbounded above, is one of the two around the size. -/
theorem FpFmt.roundMag_rounds {f : FpFmt} (hf : f.Ieee) {rm : Nat} (hrm : rm < 4) (neg : Bool) (m : Nat) (e : Int) :
    ∃ c, RoundsTo rm neg c (f.mag c) (f.mag (c + 1)) (ratOf false m e) (f.roundMag rm ⟨neg, m, e, false⟩).1
      (f.roundMag rm ⟨neg, m, e, false⟩).2.1 := by
  by_cases hzero : m = 0
  · have hround : f.roundMag rm ⟨neg, m, e, false⟩ = (0, false, false) := by simp [roundMag, hzero, boolNat]
    rw [hround]
    exact ⟨0, .exact (by simp [f.mag_zero, ratOf_false, hzero])⟩
  obtain ⟨M, hM⟩ : ∃ M, M = m * 2^(f.mb + 4) := ⟨_, rfl⟩
  obtain ⟨E, hE⟩ : ∃ E : Int, E = e - (f.mb + 4 : Nat) := ⟨_, rfl⟩
  obtain ⟨q, hq⟩ : ∃ q : Int, q = max (M.log2 + E) (1 - f.bias) - f.mb := ⟨_, rfl⟩
  obtain ⟨j, hj⟩ : ∃ j : Nat, j = (q - (1 - f.bias - f.mb)).toNat := ⟨_, rfl⟩
  have hsize : ratOf false m e = M * 2^E := by
    rw [ratOf_false, hM, hE, zpow_sub₀ two_ne_zero, zpow_natCast]
    push_cast
    field_simp
  have hMpos : M ≠ 0 := by rw [hM]; positivity
  have hround : (f.roundMag rm ⟨neg, m, e, false⟩).1 = j * 2^f.mb + (roundAt rm neg M E q).1
      ∧ (f.roundMag rm ⟨neg, m, e, false⟩).2.1 = (roundAt rm neg M E q).2 := by
    have hM' : m * 2^(f.mb + 4) + boolNat false = M := hM.symm
    simp only [roundMag, hM', if_neg hMpos, ← hE, ← hq, ← hj, and_self]
  have hlog : f.mb + 4 ≤ M.log2 := (Nat.le_log2 hMpos).mpr (hM ▸ Nat.le_mul_of_pos_left _ (Nat.pos_of_ne_zero hzero))
  obtain ⟨hn, hnormal⟩ := f.scaled_quotient (s := (q - E).toNat) (j := j) Nat.lt_log2_self (by omega) (by omega) hMpos
  have hexp : (j + (1 - f.bias - f.mb) : Int) = q := by omega
  refine ⟨j * 2^f.mb + M / 2^(q - E).toNat, ?_⟩
  rw [hsize, hround.1, hround.2, f.mag_scaled (by omega) hnormal, Nat.add_assoc, f.mag_scaled hn (by omega), hexp]
  refine (roundAt_rounds hrm neg M (by omega) rfl).offset ?_
  rw [← Nat.succ_pred_eq_of_pos hf.fraction, Nat.pow_succ, ← Nat.mul_assoc, Nat.mul_mod_left]

/-! ### What the rounded code is, mode by mode (R63, R64) -/

section
variable {f : FpFmt} {rm c code : Nat} {neg inexact : Bool} {size : Rat}
  (h : RoundsTo rm neg c (f.mag c) (f.mag (c + 1)) size code inexact)
include h

theorem RoundsTo.inexact_iff : inexact = true ↔ f.mag code ≠ size := by
  cases h with
  | exact h => simp [h]
  | up _ hhi _ => simpa using hhi.ne'
  | down hlo _ _ => simpa using hlo.ne

/-- Neither to the nearest nor away from zero: the code is the last one not above the size. -/
theorem RoundsTo.le_iff_of_truncates (hrm : rm ≠ 0) (haway : awayMode rm neg = false) (k : Nat) : f.mag k ≤ size ↔ k ≤ code := by
  have hmono := f.mag_strictMono
  cases h with
  | exact h => rw [← h, hmono.le_iff_le]
  | up _ _ h => simp [RoundsUp, hrm, haway] at h
  | down hlo hhi _ =>
    refine ⟨fun hk => Nat.lt_succ_iff.mp (hmono.lt_iff_lt.mp (hk.trans_lt hhi)), fun hk => ?_⟩
    exact (hmono.monotone hk).trans hlo.le

/-- Away from zero: the code is the first one not below the size. -/
theorem RoundsTo.ge_iff_of_away (haway : awayMode rm neg = true) (k : Nat) : size ≤ f.mag k ↔ code ≤ k := by
  have hmono := f.mag_strictMono
  cases h with
  | exact h => rw [← h, hmono.le_iff_le]
  | down _ _ h => exact absurd (.inl haway) h
  | up hlo hhi _ =>
    refine ⟨fun hk => hmono.lt_iff_lt.mp (hlo.trans_le hk), fun hk => ?_⟩
    exact hhi.le.trans (hmono.monotone hk)

/-- To the nearest: no code is nearer, and where another one is as near the code is even. -/
theorem RoundsTo.nearest (hrm : rm = 0) (k : Nat) :
    |f.mag code - size| ≤ |f.mag k - size| ∧ (|f.mag code - size| = |f.mag k - size| → k ≠ code → code % 2 = 0) := by
  have hmono := f.mag_strictMono
  have hupper := roundsUp_nearest hrm neg c (f.mag c) (f.mag (c + 1)) size
  have hbelow : ∀ {k}, f.mag k ≤ size → |f.mag k - size| = size - f.mag k := fun hk => by
    rw [abs_of_nonpos (by linarith), neg_sub]
  have habove : ∀ {k}, size ≤ f.mag k → |f.mag k - size| = f.mag k - size := fun hk => abs_of_nonneg (by linarith)
  cases h with
  | exact h =>
    refine ⟨by simp [h], fun he hk => absurd ?_ hk⟩
    rw [h, sub_self, abs_zero] at he
    exact hmono.injective ((sub_eq_zero.mp (abs_eq_zero.mp he.symm)).trans h.symm)
  | up hlo hhi h =>
    have hside := hupper.mp h
    rw [habove hhi.le]
    rcases Nat.lt_or_ge c k with hk | hk
    · have hmag := hmono.monotone (Nat.succ_le_of_lt hk)
      rw [habove (hhi.le.trans hmag)]
      refine ⟨by linarith, fun he hne => absurd ?_ hne⟩
      exact hmono.injective (by linarith)
    · have hmag := hmono.monotone hk
      rw [hbelow (hmag.trans hlo.le)]
      rcases hside with hside | ⟨hside, hodd⟩
      · exact ⟨by linarith, fun he => by linarith⟩
      · exact ⟨by linarith, fun _ _ => by omega⟩
  | down hlo hhi h =>
    have hside := mt hupper.mpr h
    push Not at hside
    obtain ⟨hside, hodd⟩ := hside
    rw [hbelow hlo.le]
    rcases Nat.lt_or_ge c k with hk | hk
    · have hmag := hmono.monotone (Nat.succ_le_of_lt hk)
      rw [habove (hhi.le.trans hmag)]
      refine ⟨by linarith, fun he _ => ?_⟩
      have := hodd (by linarith)
      omega
    · have hmag := hmono.monotone hk
      rw [hbelow (hmag.trans hlo.le)]
      refine ⟨by linarith, fun he hne => absurd ?_ hne⟩
      exact hmono.injective (by linarith)

/-- To the nearest, a code at an even one or past it comes of a size at its halfway point or past it. -/
theorem RoundsTo.ge_iff_of_nearest (hrm : rm = 0) {k : Nat} (hpos : 0 < k) (heven : k % 2 = 0) :
    f.mag (k - 1) + f.mag k ≤ 2 * size ↔ k ≤ code := by
  have hmono := f.mag_strictMono
  have hstep : f.mag (k - 1) < f.mag k := hmono (by omega)
  have hpast : k ≤ c → f.mag c ≤ size → f.mag (k - 1) + f.mag k ≤ 2 * size := fun hk hc => by
    have := hmono.monotone hk
    linarith
  have hshort : c + 1 < k → size < f.mag (c + 1) → 2 * size < f.mag (k - 1) + f.mag k := fun hk hc => by
    have := hmono.monotone (show c + 1 ≤ k - 1 by omega)
    linarith
  have hupper := roundsUp_nearest hrm neg c (f.mag c) (f.mag (c + 1)) size
  cases h with
  | exact h =>
    refine ⟨fun hk => not_lt.mp fun hlt => ?_, fun hk => hpast hk h.le⟩
    have := hmono.monotone (show c ≤ k - 1 by omega)
    linarith
  | up hlo hhi h =>
    refine ⟨fun hk => not_lt.mp fun hlt => (hshort hlt hhi).not_ge hk, fun hk => ?_⟩
    have hside := hupper.mp h
    have := hmono.monotone hk
    have := hmono.monotone (show k - 1 ≤ c by omega)
    rcases hside with hside | ⟨hside, -⟩ <;> linarith
  | down hlo hhi h =>
    refine ⟨fun hk => not_lt.mp fun hlt => ?_, fun hk => hpast hk hlo.le⟩
    rcases Nat.lt_or_ge (c + 1) k with hlt' | hge
    · exact (hshort hlt' hhi).not_ge hk
    · obtain rfl : k = c + 1 := by omega
      rw [Nat.add_sub_cancel] at hk
      exact h (hupper.mpr (hk.lt_or_eq.imp_right fun he => ⟨he, by omega⟩))

end

/-! ### The result of one rounding (R63, R64) -/

/-- The code k that a rounded size gets without its sign, at most the one of infinity, with the flags. -/
structure FpFmt.Outcome (f : FpFmt) (rm : Nat) (neg : Bool) (size : Rat) (r : FpRes) (k : Nat) : Prop where
  code : r.1 = f.signed neg k
  bound : k ≤ f.infCode
  inexact : k < f.infCode → (r.2.getLsbD 0 = true ↔ f.mag k ≠ size)
  overflow : k = f.infCode → r.2 = Flag.of ||| Flag.nx
  nearest : rm = 0 → k < f.infCode →
    ∀ i, |f.mag k - size| ≤ |f.mag i - size| ∧ (|f.mag k - size| = |f.mag i - size| → i ≠ k → k % 2 = 0)
  infinite : rm = 0 → (f.mag (f.infCode - 1) + f.mag f.infCode ≤ 2 * size ↔ f.infCode ≤ k)
  truncated : rm ≠ 0 → awayMode rm neg = false → k < f.infCode ∧ ∀ i < f.infCode, (f.mag i ≤ size ↔ i ≤ k)
  away : awayMode rm neg = true → ∀ i < f.infCode, (size ≤ f.mag i ↔ k ≤ i)

theorem overflow_inexact : (Flag.of ||| Flag.nx).getLsbD 0 = true := rfl

theorem FpFmt.round_of_lt {f : FpFmt} {rm : Nat} {v : Exact} (h : (f.roundMag rm v).1 < f.infCode) :
    (f.round rm v).1 = f.signed v.neg (f.roundMag rm v).1 ∧ ((f.round rm v).2.getLsbD 0 = true ↔ (f.roundMag rm v).2.1 = true) := by
  obtain ⟨⟨code, inexact, tiny⟩, hr⟩ : ∃ p, f.roundMag rm v = p := ⟨_, rfl⟩
  rw [hr] at h
  simp only [round, hr, if_neg (Nat.not_le.mpr h), true_and]
  cases inexact <;> cases tiny <;> decide

theorem FpFmt.round_of_ge {f : FpFmt} {rm : Nat} {v : Exact} (h : f.infCode ≤ (f.roundMag rm v).1) :
    f.round rm v = (f.signed v.neg (if rm = 0 ∨ awayMode rm v.neg = true then f.infCode else f.infCode - 1), Flag.of ||| Flag.nx) := by
  simp [round, if_pos h, awayMode, or_assoc]

theorem FpFmt.round_outcome {f : FpFmt} (hf : f.Ieee) {rm : Nat} (hrm : rm < 4) (neg : Bool) (m : Nat) (e : Int) :
    ∃ k, f.Outcome rm neg (ratOf false m e) (f.round rm ⟨neg, m, e, false⟩) k := by
  obtain ⟨c, h⟩ := roundMag_rounds hf hrm neg m e
  have hpos := infCode_pos hf
  have heven := infCode_even hf
  rcases Nat.lt_or_ge (f.roundMag rm ⟨neg, m, e, false⟩).1 f.infCode with hlt | hge
  · obtain ⟨hcode, hnx⟩ := round_of_lt hlt
    exact ⟨_, hcode, hlt.le, fun _ => hnx.trans h.inexact_iff, fun he => absurd he hlt.ne, fun h0 _ => h.nearest h0,
      fun h0 => h.ge_iff_of_nearest h0 hpos heven, fun h0 ha => ⟨hlt, fun i _ => h.le_iff_of_truncates h0 ha i⟩,
      fun ha i _ => h.ge_iff_of_away ha i⟩
  · rw [round_of_ge hge]
    by_cases hinf : rm = 0 ∨ awayMode rm neg = true
    · rw [if_pos hinf]
      refine ⟨_, rfl, le_rfl, fun hk => absurd hk (lt_irrefl _), fun _ => rfl, fun _ hk => absurd hk (lt_irrefl _), fun h0 => ?_,
        fun h0 ha => ?_, fun ha i hi => ?_⟩
      · exact iff_of_true ((h.ge_iff_of_nearest h0 hpos heven).mpr hge) le_rfl
      · simp [h0, ha] at hinf
      · rw [h.ge_iff_of_away ha]
        exact iff_of_false (by omega) (by omega)
    · obtain ⟨h0, ha⟩ := not_or.mp hinf
      have ha := Bool.eq_false_iff.mpr ha
      have hsize : f.mag (f.infCode - 1) < ratOf false m e :=
        (f.mag_strictMono (by omega)).trans_le ((h.le_iff_of_truncates h0 ha f.infCode).mpr hge)
      rw [if_neg hinf]
      refine ⟨f.infCode - 1, rfl, by omega, fun _ => iff_of_true overflow_inexact hsize.ne, fun hk => by omega, fun h0' => absurd h0' h0,
        fun h0' => absurd h0' h0, fun _ _ => ⟨by omega, fun i hi => ?_⟩, fun ha' => by simp [ha] at ha'⟩
      rw [h.le_iff_of_truncates h0 ha]
      exact iff_of_true (by omega) (by omega)

/-! ### Sizes with their signs -/

theorem signOf_not (neg : Bool) : signOf (!neg) = -signOf neg := by cases neg <;> simp [signOf]

theorem signOf_mul_mul (neg : Bool) (x : Rat) : signOf neg * x * (signOf neg * x) = x * x := by cases neg <;> simp [signOf]

/-- A size nearest to X among those of one sign is nearest of all, the zero being among them. -/
theorem signed_nearest {X V U : Rat} (hX : 0 ≤ X) (hU : 0 ≤ U) (s t : Bool) (h : |V - X| ≤ |U - X|) (hzero : |V - X| ≤ X) :
    (signOf s * V - signOf s * X) * (signOf s * V - signOf s * X) ≤ (signOf t * U - signOf s * X) * (signOf t * U - signOf s * X)
    ∧ ((signOf s * V - signOf s * X) * (signOf s * V - signOf s * X) = (signOf t * U - signOf s * X) * (signOf t * U - signOf s * X) →
      signOf t * U ≠ signOf s * V → |V - X| = |U - X| ∧ U ≠ V) := by
  have hleft : (signOf s * V - signOf s * X) * (signOf s * V - signOf s * X) = (V - X) * (V - X) := by
    rw [← mul_sub, signOf_mul_mul]
  rw [hleft]
  by_cases hst : t = s
  · subst hst
    rw [← mul_sub, signOf_mul_mul, ← abs_le_iff_mul_self_le, ← abs_eq_iff_mul_self_eq]
    exact ⟨h, fun he hne => ⟨he, fun huv => hne (by rw [huv])⟩⟩
  · have hright : (signOf t * U - signOf s * X) * (signOf t * U - signOf s * X) = (U + X) * (U + X) := by
      rw [Bool.eq_not.mpr hst, signOf_not, ← signOf_mul_mul s (U + X)]
      ring
    rw [hright, ← abs_le_iff_mul_self_le, ← abs_eq_iff_mul_self_eq, abs_of_nonneg (add_nonneg hU hX)]
    refine ⟨by linarith, fun he hne => ?_⟩
    obtain rfl : U = 0 := by linarith
    refine ⟨by rw [he, zero_sub, abs_neg, abs_of_nonneg hX, zero_add], fun hv => hne ?_⟩
    rw [← hv, mul_zero, mul_zero]

/-- A value of the size V that is the first not below X, between those of either sign. -/
theorem signed_away {X V U : Rat} (hX : 0 ≤ X) (hU : 0 ≤ U) (t : Bool) (h : X ≤ U → V ≤ U) :
    (X ≤ signOf t * U → V ≤ signOf t * U) ∧ (signOf t * U ≤ -X → signOf t * U ≤ -V) := by
  cases t <;> simp only [signOf, Bool.false_eq_true, if_false, if_true, one_mul, neg_mul]
  · refine ⟨h, fun hle => ?_⟩
    have := h (by linarith)
    linarith
  · refine ⟨fun hle => ?_, fun hle => neg_le_neg (h (neg_le_neg_iff.mp hle))⟩
    have := h (by linarith)
    linarith

/-- A value of the size V that is the last not above X, between those of either sign. -/
theorem signed_truncated {X V U : Rat} (hV : 0 ≤ V) (hU : 0 ≤ U) (t : Bool) (h : U ≤ X → U ≤ V) :
    (signOf t * U ≤ X → signOf t * U ≤ V) ∧ (-X ≤ signOf t * U → -V ≤ signOf t * U) := by
  cases t <;> simp only [signOf, Bool.false_eq_true, if_false, if_true, one_mul, neg_mul]
  · exact ⟨h, fun _ => by linarith⟩
  · exact ⟨fun _ => by linarith, fun hle => neg_le_neg (h (neg_le_neg_iff.mp hle))⟩

/-! ### The statement -/

/-- A finite result is, among all finite values, the one that its mode names. -/
theorem FpFmt.Outcome.finite_value {f : FpFmt} (hf : f.Ieee) {rm k : Nat} {neg : Bool} {size v u : Rat} {r : FpRes}
    (h : f.Outcome rm neg size r k) (hsize : 0 ≤ size) (hk : k < f.infCode) {i : Nat} (hi : i < f.infCode) (t : Bool)
    (hv : v = signOf neg * f.mag k) (hu : u = signOf t * f.mag i) (x : Rat) (hx : x = signOf neg * size) :
    (rm = 0 → (v - x) * (v - x) ≤ (u - x) * (u - x) ∧ ((v - x) * (v - x) = (u - x) * (u - x) → u ≠ v → r.1 % 2 = 0))
    ∧ (rm = 1 → v * v ≤ x * x ∧ (u * u ≤ x * x → 0 ≤ u * x → u * u ≤ v * v))
    ∧ (rm = 2 → x ≤ v ∧ (x ≤ u → v ≤ u))
    ∧ (rm = 3 → v ≤ x ∧ (u ≤ x → u ≤ v)) := by
  have hV := f.mag_nonneg k
  have hU := f.mag_nonneg i
  have hmono := f.mag_strictMono
  have haway : awayMode rm neg = true → size ≤ f.mag k ∧ (size ≤ f.mag i → f.mag k ≤ f.mag i) := fun ha =>
    ⟨(h.away ha k hk).mpr le_rfl, fun hle => hmono.monotone ((h.away ha i hi).mp hle)⟩
  have htrunc : rm ≠ 0 → awayMode rm neg = false → f.mag k ≤ size ∧ (f.mag i ≤ size → f.mag i ≤ f.mag k) := fun h0 ha => by
    obtain ⟨-, hiff⟩ := h.truncated h0 ha
    exact ⟨(hiff k hk).mpr le_rfl, fun hle => hmono.monotone ((hiff i hi).mp hle)⟩
  subst hv hu hx
  refine ⟨fun h0 => ?nearest, fun h1 => ?truncated, fun h2 => ?up, fun h3 => ?down⟩
  case nearest =>
    have hzero : |f.mag k - size| ≤ size := by
      simpa [f.mag_zero, abs_of_nonneg hsize] using (h.nearest h0 hk 0).1
    obtain ⟨hle, heven⟩ := h.nearest h0 hk i
    obtain ⟨hle', htie⟩ := signed_nearest hsize hU neg t hle hzero
    refine ⟨hle', fun he hne => ?_⟩
    obtain ⟨htie, hne⟩ := htie he hne
    rw [h.code, signed_parity hf]
    exact heven htie fun hik => hne (by rw [hik])
  case truncated =>
    obtain ⟨hle, hlast⟩ := htrunc (by omega) (by simp [awayMode, h1])
    simp only [signOf_mul_mul]
    exact ⟨mul_self_le_mul_self hV hle, fun hux _ => mul_self_le_mul_self hU (hlast ((mul_self_le_mul_self_iff hU hsize).mpr hux))⟩
  case up =>
    cases neg with
    | false =>
      obtain ⟨hle, hfirst⟩ := haway (by simp [awayMode, h2])
      simpa [signOf] using And.intro hle (signed_away hsize hU t hfirst).1
    | true =>
      obtain ⟨hle, hlast⟩ := htrunc (by omega) (by simp [awayMode, h2])
      simpa [signOf] using And.intro hle (signed_truncated hV hU t hlast).2
  case down =>
    cases neg with
    | false =>
      obtain ⟨hle, hlast⟩ := htrunc (by omega) (by simp [awayMode, h3])
      simpa [signOf] using And.intro hle (signed_truncated hV hU t hlast).1
    | true =>
      obtain ⟨hle, hfirst⟩ := haway (by simp [awayMode, h3])
      simpa [signOf] using And.intro hle (signed_away hsize hU t hfirst).2

/-- Which sizes become infinite. -/
theorem FpFmt.Outcome.infinite_iff {f : FpFmt} (hf : f.Ieee) {rm k : Nat} {neg : Bool} {size : Rat} {r : FpRes}
    (h : f.Outcome rm neg size r k) (hrm : rm < 4) :
    k = f.infCode ↔ (rm = 0 ∧ ratOf false (2^(f.mb + 2) - 1) (f.bias - f.mb - 1) ≤ size)
      ∨ (rm = 2 ∧ neg = false ∧ ratOf false (2^(f.mb + 1) - 1) (f.bias - f.mb) < size)
      ∨ (rm = 3 ∧ neg = true ∧ ratOf false (2^(f.mb + 1) - 1) (f.bias - f.mb) < size) := by
  have hpos := infCode_pos hf
  have hbound := h.bound
  have hhalf : rm = 0 → (k = f.infCode ↔ ratOf false (2^(f.mb + 2) - 1) (f.bias - f.mb - 1) ≤ size) := fun h0 => by
    rw [← mul_le_mul_iff_right₀ (two_pos (α := Rat)), mag_halfway hf, h.infinite h0]
    omega
  have hpast : awayMode rm neg = true → (k = f.infCode ↔ ratOf false (2^(f.mb + 1) - 1) (f.bias - f.mb) < size) := fun ha => by
    rw [← mag_largest hf, ← not_le, h.away ha _ (by omega)]
    omega
  have hnone : rm ≠ 0 → awayMode rm neg = false → k ≠ f.infCode := fun h0 ha => (h.truncated h0 ha).1.ne
  match rm, hrm with
  | 0, _ => simpa using hhalf rfl
  | 1, _ => simpa [awayMode] using hnone
  | 2, _ =>
    cases neg with
    | false => simpa using hpast rfl
    | true => simpa using hnone (by decide) rfl
  | 3, _ =>
    cases neg with
    | false => simpa using hnone (by decide) rfl
    | true => simpa using hpast rfl

/-- Settles O8: a rounding takes one of the two codes around the size, by the mode; a stage's true value moves by each term and by nothing else. -/
theorem roundingAndCellResults : Obligations.RoundingAndCellResults := by
  unfold Obligations.RoundingAndCellResults
  refine ⟨fun f hfmt neg m e rm hrm => ?rounding, Cell.residue_cycles, fun c t hlow hhigh hlo hhi hpos hneg hterms => ?cycle⟩
  case rounding =>
    have hf := FpFmt.ieee_of hfmt
    obtain ⟨k, h⟩ := FpFmt.round_outcome hf hrm neg m e
    have hsize : 0 ≤ ratOf false m e := by rw [ratOf_false]; positivity
    have hx := ratOf_eq_sign neg m e
    have hinf := h.infinite_iff hf hrm
    intro x r size largest half
    rcases h.bound.lt_or_eq with hk | hk
    · obtain ⟨m1, e1, hvalue, hv⟩ := FpFmt.value_signed_finite hf neg hk
      rw [← h.code] at hvalue
      have hnone : ∀ n1, f.value r.1 ≠ .inf n1 := fun n1 hn => by cases hvalue.symm.trans hn
      refine ⟨fun n1 m1' e1' hn => ?_, fun n1 hn => absurd hn (hnone n1), ?_, fun q hn => by cases hvalue.symm.trans hn⟩
      · cases hvalue.symm.trans hn
        refine ⟨rfl, (h.inexact hk).trans ?_, fun c n2 m2 e2 _ hc => ?_⟩
        · rw [hv, show x = _ from hx, Ne, Ne, mul_right_inj' (by cases neg <;> simp [signOf])]
        · obtain ⟨i, hi, hu⟩ := FpFmt.value_fin hf hc
          exact h.finite_value hf hsize hk hi n2 hv hu x hx
      · exact iff_of_false (fun ⟨n1, hn⟩ => hnone n1 hn) (mt hinf.mpr hk.ne)
    · have hvalue := FpFmt.value_signed_infCode hf neg
      rw [← hk, ← h.code] at hvalue
      refine ⟨fun n1 m1 e1 hn => ?_, fun n1 hn => ?_, iff_of_true ⟨neg, hvalue⟩ (hinf.mp hk), fun q hn => ?_⟩ <;>
        cases hvalue.symm.trans hn
      exact ⟨rfl, h.overflow hk⟩
  case cycle =>
    have hroom : c.Room := ⟨hpos, hneg⟩
    have hd := Cell.cycle_fits t hroom ⟨hlow, hhigh, ⟨hlo, hhi⟩, hterms⟩
    obtain ⟨hdpos, hdneg⟩ := Cell.cycle_room t hroom
    refine ⟨hd.high, hd.low, hd.terms, hd.excursion.1, hd.excursion.2, hdpos, hdneg, Cell.cycle_of_bad t, ?_, ?_, ?_, ?_⟩
    · rintro hb rfl
      rw [Cell.cycle_nar hb]
      exact ⟨rfl, rfl⟩
    · rintro v hb rfl hv
      rw [Cell.cycle_above hb hv]
      exact ⟨rfl, rfl⟩
    · rintro v hb rfl hv
      rw [Cell.cycle_below hb hv]
      exact ⟨rfl, rfl⟩
    · rintro v - rfl hdb
      exact (Cell.cycle_value hroom hdb).2

end Sys2Proof.Machine
end

section
/-! PROOFS. Translation (05 R100 to R102): where the page walk leads, and what it leaves in the entry that it used. -/

namespace Sys2Proof.Machine

open Sys2Proof

/-! ### One level of the walk (R100, R101) -/

/-- Where a table holds the entry that stands for va at a level. -/
def entryAddr (va : Word) (table level : Nat) : Nat := table + va.toNat / 2^(13 + 10 * level) % 2^10 * 8

theorem walkFrom_zero (m : Memory) (va : Word) (table : Nat) : walkFrom m va 0 table =
    let e := wd (readLE m (entryAddr va table 0) 8)
    if !pteV e || malformed e 0 then none else some ⟨e, some (entryAddr va table 0), 0⟩ := rfl

theorem walkFrom_succ (m : Memory) (va : Word) (level table : Nat) : walkFrom m va (level + 1) table =
    let e := wd (readLE m (entryAddr va table (level + 1)) 8)
    if !pteV e || malformed e (level + 1) then none
    else if isPointer e then walkFrom m va level (ptePpn e * 2^13) else some ⟨e, some (entryAddr va table (level + 1)), level + 1⟩ := rfl

theorem walkFrom_of_invalid {m : Memory} {va e : Word} {table level : Nat} (he : e = wd (readLE m (entryAddr va table level) 8))
    (hv : pteV e = false) : walkFrom m va level table = none := by
  cases level with
  | zero => simp [walkFrom_zero, ← he, hv]
  | succ level => simp [walkFrom_succ, ← he, hv]

theorem walkFrom_pointer {m : Memory} {va e : Word} {table level : Nat} (he : e = wd (readLE m (entryAddr va table (level + 1)) 8))
    (hp : pteV e = true ∧ isPointer e = true ∧ malformed e (level + 1) = false) :
    walkFrom m va (level + 1) table = walkFrom m va level (ptePpn e * 2^13) := by
  obtain ⟨hv, hp, hm⟩ := hp
  simp [walkFrom_succ, ← he, hv, hp, hm]

theorem walkFrom_page {m : Memory} {va e : Word} {table : Nat} (he : e = wd (readLE m (entryAddr va table 0) 8)) (hv : pteV e = true)
    (hm : malformed e 0 = false) : walkFrom m va 0 table = some ⟨e, some (entryAddr va table 0), 0⟩ := by
  simp [walkFrom_zero, ← he, hv, hm]

/-! ### The translation of an address whose page is not kept (R102, R105) -/

section
variable {ms : MemSystem} {o : OwnerRec} {va : Word} (hk : (ms.kept.all fun k => !(k.owner == o.num && k.page == va.toNat % 2^53 / 2^13)) = true)
include hk

theorem kept_find?_of_all : (ms.kept.find? fun k => k.owner == o.num && k.page == va.toNat % 2^53 / 2^13) = none := by
  simpa [List.find?_eq_none, imp_iff_not_or] using hk

theorem translate_of_no_leaf (hl : leafOf ms o va = none) (tick : Nat) (acc : Access) : translate ms tick o va acc = .page := by
  simp only [translate, kept_find?_of_all hk, hl]

theorem translate_of_leaf {l : Leaf} (hl : leafOf ms o va = some l) (tick : Nat) (acc : Access) :
    translate ms tick o va acc = resolve ms.mem o.rwtab va acc l := by
  simp only [translate, kept_find?_of_all hk, hl]

end

/-- The meaning of an 8 KiB leaf of this module that is not being moved. -/
theorem resolve_page {e : Word} (hr : pteRemote e = false) (hm : pteMig e = false) (m : Memory) (rwtab : Nat) (va : Word) (acc : Access)
    (loc : Option Nat) :
    let pa := ptePpn e * 2^13 + va.toNat % 2^13
    resolve m rwtab va acc ⟨e, loc, 0⟩
      = if permits e acc then if backed pa || hostSpace pa then .at pa ⟨e, loc, 0⟩ else .unbacked else .perm ⟨e, loc, 0⟩ := by
  simp only [resolve, hr, hm, pageBytes, Nat.mul_zero, Nat.add_zero]
  cases permits e acc <;> simp

/-! ### The A and D bits (R102) -/

/-- The entry of a leaf after an access through it: A is set, and D where the access writes. -/
def usedEntry (e : Word) (acc : Access) : Word := e ||| 0x20 ||| (if acc.writes then 0x40 else 0)

theorem usedEntry_getLsbD (e : Word) (acc : Access) {k : Nat} (hk : k < 64) :
    (usedEntry e acc).getLsbD k = (e.getLsbD k || decide (k = 5) || (decide (k = 6) && acc.writes)) := by
  have ha : (0x20 : Word) = BitVec.twoPow 64 5 := rfl
  have hd : (0x40 : Word) = BitVec.twoPow 64 6 := rfl
  rw [usedEntry, ha, hd, BitVec.getLsbD_or, BitVec.getLsbD_or, BitVec.getLsbD_twoPow]
  cases acc.writes <;> simp [hk, eq_comm]

theorem pteA_usedEntry (e : Word) (acc : Access) : pteA (usedEntry e acc) = true :=
  (usedEntry_getLsbD e acc (k := 5) (by decide)).trans (by simp)

theorem pteD_usedEntry (e : Word) (acc : Access) : pteD (usedEntry e acc) = (acc.writes || pteD e) :=
  (usedEntry_getLsbD e acc (k := 6) (by decide)).trans (by simp [Bool.or_comm, pteD, bitAt, BitVec.getLsbD])

theorem markUsed_mem {ms : MemSystem} {l : Leaf} {a : Nat} (hl : l.loc = some a) (o : OwnerRec) (va : Word) (acc : Access) :
    (markUsed ms o va acc l).mem
      = if usedEntry l.entry acc = l.entry then ms.mem else writeLE ms.mem a 8 (usedEntry l.entry acc).toNat := by
  simp only [markUsed, hl]
  rfl

/-- The marked entry stands at its home; no other byte and no full/empty bit differs. -/
theorem markUsed_home {ms : MemSystem} {l : Leaf} {a : Nat} (hw : ms.mem.wf = true) (hl : l.loc = some a)
    (he : l.entry = wd (readLE ms.mem a 8)) (o : OwnerRec) (va : Word) (acc : Access) :
    let m := (markUsed ms o va acc l).mem
    wd (readLE m a 8) = usedEntry l.entry acc ∧ (∀ q, q < a ∨ a + 8 ≤ q → readByte m q = readByte ms.mem q) ∧ m.full = ms.mem.full := by
  rw [markUsed_mem hl]
  split
  · next hsame => exact ⟨he.symm.trans hsame.symm, fun _ _ => rfl, rfl⟩
  · refine ⟨?_, fun q hq => readByte_writeLE_outside _ hw _ _ _ q hq, writeBytes_full ..⟩
    rw [readLE_writeLE _ hw, Nat.mod_eq_of_lt (show _ < 256^8 from (usedEntry l.entry acc).isLt), wd_toNat]

/-! ### The statement -/

/-- Settles O20: three pointers lead the walk to the last table, whose entry gives each outcome; marking it writes A and D at its home. -/
theorem translationResults : Obligations.TranslationResults := by
  unfold Obligations.TranslationResults
  refine ⟨fun ms tick o va acc e3 e2 e1 e0 hk h3 h2 h1 h0 hp3 hp2 hp1 => ?walk, fun ms o va acc l a hw hl he => ?marks⟩
  case walk =>
    have hwalk : leafOf ms o va = walkFrom ms.mem va 0 (ptePpn e1 * 2^13) := by
      rw [leafOf, walkFrom_pointer h3 hp3, walkFrom_pointer h2 hp2, walkFrom_pointer h1 hp1]
    refine ⟨fun hv => ?_, fun hv hm hr hmig => ?_⟩
    · exact translate_of_no_leaf hk (hwalk.trans (walkFrom_of_invalid h0 hv)) tick acc
    · rw [translate_of_leaf hk (hwalk.trans (walkFrom_page h0 hv hm)), resolve_page hr hmig]
      refine ⟨fun hperm => ⟨_, if_neg (by rw [hperm]; decide)⟩, fun hperm hb => ?_, fun hperm hb => ?_⟩
      · rw [if_pos hperm, if_neg (by rw [hb]; decide)]
      · rw [if_pos hperm, if_pos hb]
        rfl
  case marks =>
    obtain ⟨hentry, hbytes, hfull⟩ := markUsed_home hw hl he o va acc
    intro m e
    rw [show e = usedEntry l.entry acc from hentry]
    refine ⟨pteA_usedEntry _ _, pteD_usedEntry _ _, fun k hk h5 h6 => ?_, hbytes, hfull⟩
    simp [usedEntry_getLsbD l.entry acc hk, h5, h6]

end Sys2Proof.Machine
end

section
/-! PROOFS. Streams (05 R89 to R91; 09 R168, R185, R186): their binding, the word that tells of one, a step, and the operands that trap. -/

namespace Sys2Proof.Machine

open Sys2Proof

/-! ### The rows of a pattern (R89, R90) -/

/-- What moves evenly between two ends of an interval stays in it. -/
theorem affine_between {lo hi a s : Int} {i n : Nat} (hin : i ≤ n) (h0 : lo ≤ a ∧ a < hi) (hn : lo ≤ a + n * s ∧ a + n * s < hi) :
    lo ≤ a + i * s ∧ a + i * s < hi := by
  obtain ⟨h0, h0'⟩ := h0
  obtain ⟨hn, hn'⟩ := hn
  have hin : (i : Int) ≤ n := Int.ofNat_le.mpr hin
  rcases le_total 0 s with hs | hs
  · have hfirst := mul_nonneg (Int.natCast_nonneg i) hs
    have hlast := mul_le_mul_of_nonneg_right hin hs
    omega
  · have hfirst := mul_nonpos_of_nonneg_of_nonpos (Int.natCast_nonneg i) hs
    have hlast := mul_le_mul_of_nonpos_right hin hs
    omega

/-- The four extreme rows of a pattern stand for all of them. -/
theorem Stream.inside_iff {k : Stream} (t : Tile) (h0 : 1 ≤ k.c0) (h1 : 1 ≤ k.c1) :
    k.inside t = true ↔ (∀ i j : Nat, i < k.c0 → j < k.c1 → 0 ≤ k.rowAt i j ∧ k.rowAt i j < t.rows) ∧ k.col < t.rowBytes / 64 := by
  simp only [Stream.inside, Bool.and_eq_true, decide_eq_true_eq]
  refine ⟨fun ⟨⟨⟨⟨hfirst, hinner⟩, houter⟩, hlast⟩, hcol⟩ => ⟨fun i j hi hj => ?_, hcol⟩, fun ⟨hrows, hcol⟩ => ?_⟩
  · have hi : i ≤ k.c0 - 1 := by omega
    have hj : j ≤ k.c1 - 1 := by omega
    simp only [Stream.rowAt, Nat.cast_zero, zero_mul, add_zero] at hfirst hinner houter hlast ⊢
    have hside := affine_between hi hfirst hinner
    have hside' := affine_between hi houter hlast
    rw [add_right_comm] at hside' ⊢
    exact affine_between hj hside hside'
  · exact ⟨⟨⟨⟨hrows 0 0 (by omega) (by omega), hrows _ 0 (by omega) (by omega)⟩, hrows 0 _ (by omega) (by omega)⟩,
      hrows _ _ (by omega) (by omega)⟩, hcol⟩

/-! ### Binding, and the end of it (R185) -/

theorem bindWord1_counts {w : Word} (h : bindWord1 w = true) : 1 ≤ field w 0 13 ∧ 1 ≤ field w 16 13 := by
  simp only [bindWord1, Bool.and_eq_true, decide_eq_true_eq] at h
  obtain ⟨⟨⟨⟨-, h0⟩, -⟩, h1⟩, -⟩ := h
  exact ⟨h0, h1⟩

theorem exec_stream_in_helper {s : State} (hc : s.isControl = false) (k : Fin 4) (d a b : Reg) (la : Fin 16) :
    exec (.sbind k a b la) s = .next (s.illegal (.sbind k a b la)) ∧ exec (.sunbind k la) s = .next (s.illegal (.sunbind k la))
      ∧ exec (.sstat d k la) s = .next (s.illegal (.sstat d k la)) := by
  show execSbind k a b la s = _ ∧ execSunbind k la s = _ ∧ execSstat d k la s = _
  simp [execSbind, execSunbind, execSstat, hc]

section
variable {s : State} (hc : s.isControl = true)
include hc

section
variable {a b : Reg} (h0 : bindWord0 (s.x a) = true) (h1 : bindWord1 (s.x b) = true)
include h0 h1

/-- Words that keep their layout bind a tile's rows, or trap where one of them lies outside. -/
theorem exec_sbind_tile {t : Tile} (ht : s.tile? (field (s.x a) 0 7) = some t) (k : Fin 4) (la : Fin 16) :
    exec (.sbind k a b la) s = if Stream.inside ⟨s.x a, s.x b, 0, 0, 0⟩ t
      then .next { s with rk := { s.rk with streams := s.rk.streams.set k (some ⟨s.x a, s.x b, 0, 0, 0⟩) } }.advance
      else .next (s.trap Cause.operand (s.x a)) := by
  show execSbind k a b la s = _
  cases hin : Stream.inside ⟨s.x a, s.x b, 0, 0, 0⟩ t <;> simp [execSbind, hc, h0, h1, Stream.handle, ht, hin]

theorem exec_sbind_no_tile (ht : s.tile? (field (s.x a) 0 7) = none) (k : Fin 4) (la : Fin 16) :
    exec (.sbind k a b la) s = .next (s.trap Cause.tileAlloc (wd (field (s.x a) 0 7))) := by
  show execSbind k a b la s = _
  simp [execSbind, hc, h0, h1, Stream.handle, ht, allocVal]

end

theorem exec_sunbind (k : Fin 4) (la : Fin 16) :
    exec (.sunbind k la) s = .next { s with rk := { s.rk with streams := s.rk.streams.set k none } }.advance := by
  show execSunbind k la s = _
  simp [execSunbind, hc]

theorem exec_sstat {k : Fin 4} {r : Option Stream} (hr : s.rk.streams[k] = r) (d : Reg) (la : Fin 16) :
    exec (.sstat d k la) s = .next (s.setX d (streamWord r)).advance := by
  show execSstat d k la s = _
  simp [execSstat, hc, hr, State.result]

end

/-! ### Words packed from fields -/

/-- The number that holds fields, given by their widths and values, from bit 0 up. -/
def packed : List (Nat × Nat) → Nat
  | [] => 0
  | q :: r => q.2 + 2^q.1 * packed r

/-- How many bits some fields take. -/
def packedWidth (l : List (Nat × Nat)) : Nat := (l.map Prod.fst).sum

theorem packed_lt : ∀ {l : List (Nat × Nat)}, (∀ q ∈ l, q.2 < 2^q.1) → packed l < 2^packedWidth l
  | [], _ => Nat.one_pos
  | q :: r, h => by
    obtain ⟨hq, hr⟩ := List.forall_mem_cons.mp h
    have hroom : 2^q.1 * (packed r + 1) ≤ 2^q.1 * 2^packedWidth r := Nat.mul_le_mul_left _ (packed_lt hr)
    rw [packedWidth, List.map_cons, List.sum_cons, Nat.pow_add]
    exact (Nat.add_lt_add_right hq _).trans_le (by rwa [Nat.add_comm, ← Nat.mul_succ])

theorem packed_at : ∀ {l : List (Nat × Nat)} {k : Nat} {q : Nat × Nat}, (∀ q ∈ l, q.2 < 2^q.1) → l[k]? = some q →
    packed l / 2^packedWidth (l.take k) % 2^q.1 = q.2
  | p :: r, 0, q, h, hk => by
    obtain rfl : p = q := Option.some.inj hk
    obtain ⟨hp, -⟩ := List.forall_mem_cons.mp h
    rw [List.take_zero, packed, packedWidth, List.map_nil, List.sum_nil, Nat.pow_zero, Nat.div_one, Nat.add_mul_mod_self_left,
      Nat.mod_eq_of_lt hp]
  | p :: r, k + 1, q, h, hk => by
    obtain ⟨hp, hr⟩ := List.forall_mem_cons.mp h
    rw [List.take_succ_cons, packed, packedWidth, List.map_cons, List.sum_cons, Nat.pow_add, ← Nat.div_div_eq_div_mul,
      Nat.add_mul_div_left _ _ (Nat.two_pow_pos _), Nat.div_eq_of_lt hp, Nat.zero_add]
    exact packed_at hr hk

/-- A word packed from fields that it has room for holds each of them. -/
theorem field_packed {l : List (Nat × Nat)} (h : ∀ q ∈ l, q.2 < 2^q.1) (hroom : packedWidth l ≤ 64) {k len a : Nat}
    (hk : l[k]? = some (len, a)) : field (wd (packed l)) (packedWidth (l.take k)) len = a := by
  have hlt : packed l < 2^64 := (packed_lt h).trans_le (Nat.pow_le_pow_right Nat.two_pos hroom)
  rw [field, wd, BitVec.toNat_ofNat, Nat.mod_eq_of_lt hlt]
  exact packed_at h hk

theorem bitAt_eq_field (w : Word) (k : Nat) : bitAt w k = decide (field w k 1 = 1) := Nat.testBit_eq_decide_div_mod_eq

/-! ### The status word (R186) -/

/-- The fields of the word that tells of a bound stream. -/
def Stream.statusFields (r : Stream) : List (Nat × Nat) :=
  [(13, r.i), (3, 0), (13, r.j), (1, boolNat r.writes), (1, 1), (1, 0), (7, r.handle), (1, 0), (24, r.pass)]

theorem streamWord_packed (r : Stream) : streamWord (some r) = wd (packed r.statusFields) := by
  refine congrArg wd ?_
  dsimp only [Stream.statusFields, packed]
  omega

theorem streamWord_fields {r : Stream} (hi : r.i < 4096) (hj : r.j < 4096) (hp : r.pass < 2^24) :
    let v := streamWord (some r)
    field v 0 13 = r.i ∧ field v 13 3 = 0 ∧ field v 16 13 = r.j ∧ bitAt v 29 = r.writes ∧ bitAt v 30 = true ∧ bitAt v 31 = false
      ∧ field v 32 7 = r.handle ∧ bitAt v 39 = false ∧ field v 40 24 = r.pass := by
  have hw : boolNat r.writes < 2^1 := by cases r.writes <;> decide
  have hbit : decide (boolNat r.writes = 1) = r.writes := by cases r.writes <;> rfl
  have hl : ∀ q ∈ r.statusFields, q.2 < 2^q.1 := List.forall_iff_forall_mem.mp
    ⟨hi.trans (show 4096 < 2^13 by decide), by decide, hj.trans (show 4096 < 2^13 by decide), hw, by decide, by decide, Nat.mod_lt _ (by decide), by decide, hp⟩
  have hf {k len a : Nat} (hk : r.statusFields[k]? = some (len, a)) := field_packed hl (show 64 ≤ 64 from le_rfl) hk
  simp only [streamWord_packed, bitAt_eq_field]
  refine ⟨hf (k := 0) rfl, hf (k := 1) rfl, hf (k := 2) rfl, ?_, ?_, ?_, hf (k := 6) rfl, ?_, hf (k := 8) rfl⟩
  · exact (congrArg (fun n => decide (n = 1)) (hf (k := 3) rfl)).trans hbit
  · exact decide_eq_true (hf (k := 4) rfl)
  · exact congrArg (fun n => decide (n = 1)) (hf (k := 5) rfl)
  · exact congrArg (fun n => decide (n = 1)) (hf (k := 7) rfl)

/-! ### One step (R90, R91) -/

/-- A pattern's steps are numbered row by row: the next step has the next number, and after the last one the first begins a new pass. -/
theorem Stream.next_steps {r : Stream} (hi : r.i < r.c0) (hj : r.j < r.c1) :
    r.next.w0 = r.w0 ∧ r.next.w1 = r.w1 ∧ r.next.i < r.c0 ∧ r.next.j < r.c1
      ∧ r.next.j * r.c0 + r.next.i = (r.j * r.c0 + r.i + 1) % (r.c0 * r.c1)
      ∧ r.next.pass = if r.j * r.c0 + r.i + 1 = r.c0 * r.c1 then min (r.pass + 1) (2^24 - 1) else r.pass := by
  have hrow : (r.j + 1) * r.c0 = r.j * r.c0 + r.c0 := Nat.succ_mul _ _
  have hlast : (r.j + 1) * r.c0 ≤ r.c0 * r.c1 := by
    rw [Nat.mul_comm r.c0]
    exact Nat.mul_le_mul_right _ hj
  by_cases hin : r.i + 1 < r.c0
  · have hn : r.next = { r with i := r.i + 1 } := by rw [Stream.next, if_pos hin]
    have hlt : r.j * r.c0 + r.i + 1 < r.c0 * r.c1 := by omega
    rw [hn, Nat.mod_eq_of_lt hlt, if_neg hlt.ne]
    exact ⟨rfl, rfl, hin, hj, rfl, rfl⟩
  have hend : r.j * r.c0 + r.i + 1 = (r.j + 1) * r.c0 := by omega
  rw [hend]
  by_cases hout : r.j + 1 < r.c1
  · have hn : r.next = { r with i := 0, j := r.j + 1 } := by rw [Stream.next, if_neg hin, if_pos hout]
    have hlt : (r.j + 1) * r.c0 < r.c0 * r.c1 := by
      rw [Nat.mul_comm r.c0]
      exact Nat.mul_lt_mul_of_pos_right hout (Nat.zero_lt_of_lt hi)
    rw [hn, Nat.mod_eq_of_lt hlt, if_neg hlt.ne]
    exact ⟨rfl, rfl, Nat.zero_lt_of_lt hi, hout, rfl, rfl⟩
  · have hn : r.next = { r with i := 0, j := 0, pass := min (r.pass + 1) (2^24 - 1) } := by
      rw [Stream.next, if_neg hin, if_neg hout]
    have hall : (r.j + 1) * r.c0 = r.c0 * r.c1 := by rw [show r.j + 1 = r.c1 by omega, Nat.mul_comm]
    rw [hn, hall, Nat.mod_self, if_pos rfl]
    exact ⟨rfl, rfl, Nat.zero_lt_of_lt hi, Nat.zero_lt_of_lt hj, by simp, rfl⟩

theorem State.stepStream_same {s : State} {k : Fin 4} {r : Stream} (h : s.rk.streams[k] = some r) :
    (s.stepStream k).rk.streams[k] = some r.next := by
  simp [State.stepStream, h]

theorem State.stepStream_other (s : State) {j k : Fin 4} (h : j ≠ k) : (s.stepStream k).rk.streams[j] = s.rk.streams[j] := by
  simp [State.stepStream, Fin.val_ne_of_ne h.symm]

/-! ### Operands that trap (R168, R318 to R320) -/

theorem streamNo_isSome {f : VField} : (streamNo f).isSome = true ↔ 28 ≤ f.val := by
  unfold streamNo
  split <;> simp <;> omega

theorem State.streamsLegal_in_helper {s : State} (hn : s.cx.num ≠ 0) {us : List VUse} (hu : ∃ u ∈ us, 28 ≤ u.f.val) (i : Instr) :
    s.streamsLegal i us = .error (s.illegal i) := by
  have hstream : (us.any fun u => (streamNo u.f).isSome) = true := by
    simpa only [List.any_eq_true, streamNo_isSome] using hu
  simp [State.streamsLegal, State.isControl, hn, hstream]

theorem State.streamsLegal_of_badUse {s : State} (hn : s.cx.num = 0) {us : List VUse} {u : VUse} (hu : us.find? s.badUse = some u) (i : Instr) :
    s.streamsLegal i us = .error (s.streamTrap u.f) := by
  simp [State.streamsLegal, State.isControl, hn, hu]

/-- A vector instruction whose operands are no legal streams does nothing but trap. -/
theorem State.vector_of_illegal {s t : State} {i : Instr} {srcs : List VField} {dst : Option VField} {old : Bool}
    (h : s.streamsLegal i (srcs.map srcUse ++ (dst.map fun d => VUse.mk d true old).toList) = .error t) (k : List VReg → State) :
    s.vector i srcs dst old k = .next t := by
  simp only [State.vector, h]

/-! ### The statement -/

/-- Settles O13: an equation for each outcome of the three instructions, the numbering of a pattern's steps, and the checks that come first. -/
theorem streamResults : Obligations.StreamResults := by
  unfold Obligations.StreamResults
  refine ⟨fun s k d a b la q => ⟨fun hc => exec_stream_in_helper hc k d a b la, fun hc h0 h1 ht => ?binds,
      fun hc h0 h1 ht => exec_sbind_no_tile hc h0 h1 ht k la, fun hc => exec_sunbind hc k la, fun hc hr => ?unbound,
      fun hc r hr hi hj hp => ?status⟩,
    fun s k r hr hi hj => ?steps,
    fun s i srcs dst old k => ⟨fun hn hu => State.vector_of_illegal (State.streamsLegal_in_helper hn hu i) k,
      fun hn u hu => State.vector_of_illegal (State.streamsLegal_of_badUse hn hu i) k⟩⟩
  case binds =>
    obtain ⟨hc0, hc1⟩ := bindWord1_counts h1
    have hexec := exec_sbind_tile hc h0 h1 ht k la
    have hinside := Stream.inside_iff (k := ⟨s.x a, s.x b, 0, 0, 0⟩) q hc0 hc1
    exact ⟨fun h => hexec.trans (if_pos (hinside.mpr h)), fun h => hexec.trans (if_neg (mt hinside.mp h))⟩
  case unbound => exact exec_sstat hc hr d la
  case status => exact ⟨_, exec_sstat hc hr d la, streamWord_fields hi hj hp⟩
  case steps =>
    obtain ⟨hw0, hw1, hi', hj', hstep, hpass⟩ := Stream.next_steps hi hj
    exact ⟨r.next, State.stepStream_same hr, hw0, hw1, hi', hj', hstep, hpass, fun j hne => s.stepStream_other hne⟩

end Sys2Proof.Machine
end

section
/-! PROOFS. The instruction word (07 R131 to R141): where the decoder finds each field, and that the encoder puts it back there. -/

namespace Sys2Proof.Laws

/-! ### A word is its fields, each at its place (R132 to R138) -/

theorem low_bits_split (w a b : Nat) : w % 2^(b + a) = w / 2^a % 2^b * 2^a + w % 2^a := by
  rw [Nat.add_comm, pow_add, Nat.mod_mul, Nat.mul_comm, Nat.add_comm]

/-- The bit at which a layout ends that stands above the lowest `c` bits: its slots' widths, the highest slot first. A slot that is
not `true` has no field. -/
def top (c : Nat) (l : List (Nat × Bool)) : Nat := l.foldr (·.1 + ·) c

/-- `s`, and the fields of a word above its lowest `c` bits, each at its place. -/
def place (w c s : Nat) : List (Nat × Bool) → Nat
  | [] => s
  | (n, true) :: l => place w c (s + w / 2^(top c l) % 2^n * 2^(top c l)) l
  | (_, false) :: l => place w c s l

/-- The slots without a field, the lowest first, and `zs`. -/
def unused (w c : Nat) (zs : List Nat) : List (Nat × Bool) → List Nat
  | [] => zs
  | (_, true) :: l => unused w c zs l
  | (n, false) :: l => unused w c (w / 2^(top c l) % 2^n :: zs) l

theorem place_eq (w c : Nat) (l : List (Nat × Bool)) : ∀ (s : Nat) (zs : List Nat), (unused w c zs l).Forall (· = 0) →
    zs.Forall (· = 0) ∧ place w c s l + w % 2^c = s + w % 2^(top c l) := by
  induction l with
  | nil => exact fun _ _ h => ⟨h, rfl⟩
  | cons q l ih =>
    obtain ⟨n, b⟩ := q
    intro s zs h
    show _ ∧ _ = s + w % 2^(n + top c l)
    rw [low_bits_split]
    cases b with
    | true => exact (ih _ zs h).imp_right (·.trans (Nat.add_assoc ..))
    | false =>
      obtain ⟨hzs, hplace⟩ := ih s _ h
      obtain ⟨hz, hzs⟩ := (List.forall_cons ..).mp hzs
      rw [hz, Nat.zero_mul, Nat.zero_add]
      exact ⟨hzs, hplace⟩

/-- A code that is already among the fields counts once. -/
theorem add_code_cancel {p m s b : Nat} (k : Nat) (h : p + (m + k) = s + k + b) : p + m = s + b :=
  Nat.add_right_cancel ((Nat.add_assoc ..).trans (h.trans (Nat.add_right_comm ..)))

/-! ### The codes of the enumerated fields (R115, R116, R136, R137, R190) -/

/-- What holds of each number below `n`, and of each from `n` on, holds of every number. -/
theorem forall_of_lt_of_add {Q : Nat → Prop} (n : Nat) (h : ∀ k < n, Q k) (hn : ∀ m, Q (m + n)) (k : Nat) : Q k := by
  rcases Nat.lt_or_ge k n with hk | hk
  · exact h k hk
  · exact Nat.sub_add_cancel hk ▸ hn (k - n)

theorem Scope.code_of_ofCode? {n : Nat} {c : Scope} (h : Scope.ofCode? n = some c) : n = c.code := by
  have hall : (Scope.ofCode? n).all (n == ·.code) :=
    forall_of_lt_of_add (Q := fun n => (Scope.ofCode? n).all (n == ·.code)) 5 (by decide) (fun _ => rfl) n
  rw [h] at hall
  exact eq_of_beq hall

theorem FeMode.code_of_ofCode? {n : Nat} {c : FeMode} (h : FeMode.ofCode? n = some c) : n = c.code := by
  have hall : (FeMode.ofCode? n).all (n == ·.code) :=
    forall_of_lt_of_add (Q := fun n => (FeMode.ofCode? n).all (n == ·.code)) 6 (by decide) (fun _ => rfl) n
  rw [h] at hall
  exact eq_of_beq hall

theorem DrainFmt.code_of_ofCode? {n : Nat} {c : DrainFmt} (h : DrainFmt.ofCode? n = some c) : n = c.code := by
  have hall : (DrainFmt.ofCode? n).all (n == ·.code) :=
    forall_of_lt_of_add (Q := fun n => (DrainFmt.ofCode? n).all (n == ·.code)) 4 (by decide) (fun _ => rfl) n
  rw [h] at hall
  exact eq_of_beq hall

theorem MemOrd.code_ofCode (n : Nat) : n % 4 = (MemOrd.ofCode n).code := by
  have h : ∀ m < 4, m % 4 = (MemOrd.ofCode m).code := by decide
  unfold MemOrd.ofCode at h ⊢
  simpa only [Nat.mod_mod] using h (n % 4) (Nat.mod_lt n (by decide))

theorem Size.code_ofCode (n : Nat) : n % 4 = (Size.ofCode n).code := by
  have h : ∀ m < 4, m % 4 = (Size.ofCode m).code := by decide
  unfold Size.ofCode at h ⊢
  simpa only [Nat.mod_mod] using h (n % 4) (Nat.mod_lt n (by decide))

theorem ElemType.code_ofCode (n : Nat) : n % 8 = (ElemType.ofCode n).code := by
  have h : ∀ m < 8, m % 8 = (ElemType.ofCode m).code := by decide
  have hmod : ElemType.ofCode (n % 8) = ElemType.ofCode n := by rw [ElemType.ofCode, ElemType.ofCode, Nat.mod_mod]
  rw [← hmod, ← h (n % 8) (Nat.mod_lt n (by decide)), Nat.mod_mod]

theorem bitOf_toNat (w lo : Nat) : w / 2^lo % 2 = (bitOf w lo).toNat := by
  have h : ∀ m < 2, m = (m == 1).toNat := by decide
  exact h _ (Nat.mod_lt _ (by decide))

/-! ### What a decoder answers for a word -/

/-- Whatever instruction a decoder answers has `P`. -/
def Answers (P : Instr → Prop) (r : Except Undecoded Instr) : Prop := ∀ i, r = .ok i → P i

theorem Answers.ok {P : Instr → Prop} {i : Instr} (h : P i) : Answers P (.ok i) := fun _ hi => Except.ok.inj hi ▸ h

theorem Answers.error {P : Instr → Prop} {e : Undecoded} : Answers P (.error e) := fun _ h => nomatch h

/-- A field that must be zero, or the fields' limits. -/
theorem Answers.guard {P : Instr → Prop} {e : Undecoded} {p : Prop} [Decidable p] {r : Except Undecoded Instr} (h : p → Answers P r) :
    Answers P (if p then r else .error e) := by
  split
  case isTrue hp => exact h hp
  case isFalse => exact .error

/-- The answer `r` for a word of opcode `op`, of which the function code `f` is `k`: an instruction that has the 32 bits of `w` as its word. -/
def Arm (op : Nat) (f : Nat → Nat) (k w : Nat) (r : Except Undecoded Instr) : Prop :=
  w / 2^26 % 64 = op → f w = k → Answers (fun i => encode i = some (w % 2^32)) r

section
variable {w : Nat} {f : Nat → Nat} {e : Undecoded}

theorem Arm.error {op k : Nat} : Arm op f k w (.error e) := fun _ _ => .error

theorem Arm.guard {op : Nat} {p : Prop} [Decidable p] {k : Nat} {r : Except Undecoded Instr} (h : p → Arm op f k w r) :
    Arm op f k w (if p then r else .error e) := fun hop hk => .guard fun hp => h hp hop hk

/-- A field some of whose codes name nothing. -/
theorem Arm.elim {op k : Nat} {α : Type} {o : Option α} {g : α → Except Undecoded Instr} (h : ∀ x, o = some x → Arm op f k w (g x)) :
    Arm op f k w (o.elim (.error e) g) := by
  cases o with
  | none => exact .error
  | some x => exact h x rfl

theorem Arm.ok {op k : Nat} {i : Instr} (hi : f w = k → encode i = some (op * 2^26 + w % 2^26)) : Arm op f k w (.ok i) := by
  rintro rfl hk
  exact .ok ((hi hk).trans (congrArg some (low_bits_split w 26 6).symm))

/-- An instruction without a function code: its fields, and its lowest bits. -/
theorem Arm.low (c : Nat) (l : List (Nat × Bool)) (hl : top c l = 26) (hz : (unused w c [] l).Forall (· = 0)) {op k : Nat} {i : Instr}
    (hi : encode i = some (place w c (op * 2^26) l + w % 2^c)) : Arm op f k w (.ok i) :=
  .ok fun _ => hi.trans (congrArg some (hl ▸ (place_eq w c l _ [] hz).2))

/-- A function code in the lowest `c` bits. -/
theorem Arm.word {op : Nat} (c : Nat) (l : List (Nat × Bool)) (hl : top c l = 26) {k : Nat} {i : Instr}
    (hi : encode i = some (place w c (op * 2^26 + k) l)) (hz : (unused w c [] l).Forall (· = 0)) : Arm op (· % 2^c) k w (.ok i) := by
  refine .ok ?_
  rintro rfl
  exact hi.trans (congrArg some (add_code_cancel (m := 0) _ (by rw [Nat.zero_add, (place_eq w c l _ [] hz).2, hl])))

/-- A function code in the lowest `c` bits, where the slots without a field must be zero. -/
theorem Arm.zeroWord {op : Nat} (c : Nat) (l : List (Nat × Bool)) (hl : top c l = 26) {p : Prop} [Decidable p]
    (hp : p → (unused w c [] l).Forall (· = 0)) {k : Nat} {i : Instr} (hi : encode i = some (place w c (op * 2^26 + k) l)) :
    Arm op (· % 2^c) k w (if p then .ok i else .error e) :=
  .guard fun hz => .word c l hl hi (hp hz)

/-- A function code of `n` bits, in the slots `l'` above the lowest `c` bits. -/
theorem Arm.imm {op : Nat} (c n : Nat) (l l' : List (Nat × Bool)) (hl : top (n + top c l') l = 26) {k : Nat} {i : Instr}
    (hi : encode i = some (place w c (place w (n + top c l') (op * 2^26 + k * 2^(top c l')) l) l' + w % 2^c))
    (hz : (unused w c (unused w (n + top c l') [] l) l').Forall (· = 0)) : Arm op (· / 2^(top c l') % 2^n) k w (.ok i) := by
  refine .ok ?_
  rintro rfl
  obtain ⟨hz, hlow⟩ := place_eq w c l' _ _ hz
  refine hi.trans (congrArg some (hlow.trans (add_code_cancel (w / 2^(top c l') % 2^n * 2^(top c l')) ?_)))
  rw [Nat.add_comm (_ % _), ← low_bits_split, (place_eq w _ l _ [] hz).2, hl]

/-- A function code in the lowest 5 bits, and a type above it. -/
theorem Arm.typed {op : Nat} (l : List (Nat × Bool)) (hl : top 8 l = 26) {k : Nat} {C : ElemType → Instr}
    (hC : ∀ t, encode (C t) = some (place w 8 (op * 2^26 + k) l + t.code * 2^5)) (hz : (unused w 8 [] l).Forall (· = 0)) :
    Arm op (· % 2^5) k w (.ok (C (ElemType.ofCode (w / 2^5)))) := by
  refine .ok ?_
  rintro rfl
  refine (hC _).trans (congrArg some (add_code_cancel (w % 2^5) ?_))
  rw [← ElemType.code_ofCode]
  exact (congrArg (_ + ·) (low_bits_split w 5 3).symm).trans (hl ▸ (place_eq w 8 l _ [] hz).2)

/-- A function code in the lowest 5 bits, and a type above it, where the slots without a field must be zero. -/
theorem Arm.zeroTyped {op : Nat} (l : List (Nat × Bool)) (hl : top 8 l = 26) {p : Prop} [Decidable p]
    (hp : p → (unused w 8 [] l).Forall (· = 0)) {k : Nat} {C : ElemType → Instr}
    (hC : ∀ t, encode (C t) = some (place w 8 (op * 2^26 + k) l + t.code * 2^5)) :
    Arm op (· % 2^5) k w (if p then .ok (C (ElemType.ofCode (w / 2^5))) else .error e) :=
  .guard fun hz => .typed l hl hC (hp hz)

/-- The atomic instructions. -/
theorem Arm.amo {op k : Nat} {C : Scope → MemOrd → Bool → Instr} (hC : ∀ sc ord dbl, encode (C sc ord dbl)
      = some (place w 11 (op * 2^26 + k) [(5, true), (5, true), (5, true)] + sc.code * 2^8 + ord.code * 2^6 + dbl.toNat * 2^5)) :
    Arm op (· % 32) k w ((Scope.ofCode? (w / 2^8 % 8)).elim (.error .scope) fun sc => .ok (C sc (MemOrd.ofCode (w / 2^6)) (bitOf w 5))) :=
  .elim fun sc hsc => .word 5 [(5, true), (5, true), (5, true), (3, true), (2, true), (1, true)] rfl
    (by rw [hC, ← Scope.code_of_ofCode? hsc, ← MemOrd.code_ofCode, ← bitOf_toNat]; rfl) trivial

end

/-! ### The decoder of each opcode (R140)

A decoder is a match on the function code, and every code past its last one names nothing. The proof takes the codes in order and gives
the layout of each one's word, the highest slot first, as chapters 08 to 11 draw it. -/

/-- All the cases below `n`. -/
def Below (Q : Nat → Prop) (n : Nat) : Prop := ∀ k < n, Q k

theorem Below.nil {Q : Nat → Prop} : Below Q 0 := fun _ h => absurd h (Nat.not_lt_zero _)

theorem Below.snoc {Q : Nat → Prop} {n : Nat} (h : Below Q n) (hn : Q n) : Below Q (n + 1) := Nat.forall_lt_succ_right.mpr ⟨h, hn⟩

theorem Below.all {Q : Nat → Prop} {n : Nat} (h : Below Q n) (hn : ∀ m, Q (m + n)) (k : Nat) : Q k := forall_of_lt_of_add n h hn k

theorem arm_decodeInteger : ∀ w, Arm 1 (· % 128) (w % 128) w (decodeInteger w) := by
  intro w
  delta decodeInteger
  generalize w % 128 = k
  revert w
  revert k
  refine Below.all (n := 35) ?_ fun _ _ => .error
  iterate 35 refine .snoc ?_ ?_
  · exact .nil
  iterate 22 exact fun _ => .zeroWord 7 [(5, true), (5, true), (5, true), (4, false)] rfl (by exact id) rfl
  iterate 4 exact fun _ => .word 7 [(5, true), (5, true), (5, true), (4, true)] rfl rfl trivial
  iterate 8 exact fun _ => .zeroWord 7 [(5, true), (5, true), (9, false)] rfl (by exact id) rfl
  · exact fun _ => .zeroWord 7 [(5, true), (5, true), (5, true), (4, false)] rfl (by exact id) rfl

theorem arm_decodeIntegerWord : ∀ w, Arm 2 (· % 128) (w % 128) w (decodeIntegerWord w) := by
  intro w
  delta decodeIntegerWord
  generalize w % 128 = k
  revert w
  revert k
  refine Below.all (n := 10) ?_ fun _ _ => .error
  iterate 10 refine .snoc ?_ ?_
  · exact .nil
  iterate 6 exact fun _ => .zeroWord 7 [(5, true), (5, true), (5, true), (4, false)] rfl (by exact id) rfl
  iterate 4 exact fun _ => .word 7 [(5, true), (5, true), (5, true), (4, true)] rfl rfl trivial

theorem arm_decodeShiftImm : ∀ w, Arm 9 (· / 2^6 % 4) (w / 2^6 % 4) w (decodeShiftImm w) := by
  intro w
  delta decodeShiftImm
  generalize w / 2^6 % 4 = k
  revert w
  revert k
  refine Below.all (n := 4) ?_ fun _ _ => .error
  iterate 4 refine .snoc ?_ ?_
  · exact .nil
  iterate 4 exact fun _ => .guard (.imm 6 2 [(5, true), (5, true), (8, false)] [] rfl rfl)

theorem arm_decodeBranch : ∀ w, Arm 13 (· / 2^13 % 8) (w / 2^13 % 8) w (decodeBranch w) := by
  intro w
  delta decodeBranch
  generalize w / 2^13 % 8 = k
  revert w
  revert k
  refine Below.all (n := 6) ?_ fun _ _ => .error
  iterate 6 refine .snoc ?_ ?_
  · exact .nil
  iterate 6 exact fun _ => .imm 13 3 [(5, true), (5, true)] [] rfl rfl trivial

theorem arm_decodeAmo : ∀ w, Arm 31 (· % 32) (w % 32) w (decodeAmo w) := by
  intro w
  delta decodeAmo
  generalize w % 32 = k
  revert w
  revert k
  refine Below.all (n := 11) ?_ fun _ _ => .error
  iterate 11 refine .snoc ?_ ?_
  · exact .nil
  iterate 10 exact fun _ => .amo fun _ _ _ => rfl
  · exact fun _ => .guard fun hz => .elim fun _ hsc => .word 5 [(5, true), (5, true), (5, true), (3, true), (2, true), (1, false)] rfl
      (congrArg₂ (fun s o => some (pack21_16_11_8_6 _ _ _ _ s o)) (Scope.code_of_ofCode? hsc).symm (MemOrd.code_ofCode _).symm) hz

theorem arm_decodeFence : ∀ w, Arm 32 (· % 4) (w % 4) w (decodeFence w) := by
  intro w
  delta decodeFence
  generalize w % 4 = k
  revert w
  revert k
  refine Below.all (n := 3) ?_ fun _ _ => .error
  iterate 3 refine .snoc ?_ ?_
  · exact .nil
  · exact fun _ => .guard fun hz => .elim fun _ hsc => .word 2 [(12, false), (3, true), (9, false)] rfl
      (congrArg (fun s => some (pack11 _ s)) (Scope.code_of_ofCode? hsc).symm) hz
  · exact fun _ => .guard fun hz => .elim fun _ hsc => .word 2 [(6, true), (6, true), (3, true), (9, false)] rfl
      (congrArg (fun s => some (pack20_14_11 _ _ _ s)) (Scope.code_of_ofCode? hsc).symm) hz
  · exact fun _ => .zeroWord 2 [(24, false)] rfl (by exact id) rfl

theorem arm_decodeVecInt : ∀ w, Arm 33 (· % 32) (w % 32) w (decodeVecInt w) := by
  intro w
  delta decodeVecInt
  generalize w % 32 = k
  revert w
  revert k
  refine Below.all (n := 19) ?_ fun _ _ => .error
  iterate 19 refine .snoc ?_ ?_
  · exact .nil
  iterate 15 exact fun _ => .typed [(5, true), (5, true), (5, true), (3, true)] rfl (fun _ => rfl) trivial
  · exact fun _ => .zeroTyped [(5, true), (5, true), (5, false), (3, true)] rfl (by exact id) fun _ => rfl
  iterate 3 exact fun _ => .zeroTyped [(2, false), (3, true), (5, true), (5, true), (3, true)] rfl (by exact id) fun _ => rfl

theorem arm_decodeVecFp : ∀ w, Arm 34 (· % 32) (w % 32) w (decodeVecFp w) := by
  intro w
  delta decodeVecFp
  generalize w % 32 = k
  revert w
  revert k
  refine Below.all (n := 21) ?_ fun _ _ => .error
  iterate 21 refine .snoc ?_ ?_
  · exact .nil
  iterate 9 exact fun _ => .typed [(5, true), (5, true), (5, true), (3, true)] rfl (fun _ => rfl) trivial
  iterate 7 exact fun _ => .zeroTyped [(5, true), (5, true), (5, false), (3, true)] rfl (by exact id) fun _ => rfl
  iterate 4 exact fun _ => .zeroTyped [(2, false), (3, true), (5, true), (5, true), (3, true)] rfl (by exact id) fun _ => rfl
  · exact fun _ => .typed [(5, true), (5, true), (5, true), (3, true)] rfl (fun _ => rfl) trivial

theorem arm_decodeVecConv : ∀ w, Arm 35 (· % 32) (w % 32) w (decodeVecConv w) := by
  intro w
  delta decodeVecConv
  generalize w % 32 = k
  revert w
  revert k
  refine Below.all (n := 10) ?_ fun _ _ => .error
  iterate 10 refine .snoc ?_ ?_
  · exact .nil
  iterate 2 exact fun _ => .zeroWord 5 [(5, true), (5, true), (11, false)] rfl (by exact id) rfl
  · exact fun _ => .zeroWord 5 [(5, true), (5, true), (5, true), (6, false)] rfl (by exact id) rfl
  · exact fun _ => .zeroWord 5 [(5, true), (5, true), (4, false), (1, true), (6, false)] rfl (by exact id) rfl
  · exact fun _ => .zeroWord 5 [(5, true), (5, true), (5, true), (6, false)] rfl (by exact id) rfl
  · exact fun _ => .zeroWord 5 [(5, true), (5, true), (3, false), (2, true), (6, false)] rfl (by exact id) rfl
  iterate 2 exact fun _ => .zeroWord 5 [(5, true), (5, true), (5, true), (6, false)] rfl (by exact id) rfl
  iterate 2 exact fun _ => .zeroWord 5 [(5, true), (5, true), (3, false), (2, true), (6, false)] rfl (by exact id) rfl

theorem arm_decodeVecPerm : ∀ w, Arm 36 (· % 32) (w % 32) w (decodeVecPerm w) := by
  intro w
  delta decodeVecPerm
  generalize w % 32 = k
  revert w
  revert k
  refine Below.all (n := 11) ?_ fun _ _ => .error
  iterate 11 refine .snoc ?_ ?_
  · exact .nil
  · exact fun _ => .zeroTyped [(5, true), (5, true), (5, false), (3, true)] rfl (by exact id) fun _ => rfl
  iterate 2 exact fun _ => .zeroTyped [(5, true), (5, true), (5, true), (3, false)] rfl (by exact id) fun _ => rfl
  iterate 4 exact fun _ => .typed [(5, true), (5, true), (5, true), (3, true)] rfl (fun _ => rfl) trivial
  iterate 2 exact fun _ => .zeroTyped [(5, true), (5, true), (5, false), (3, true)] rfl (by exact id) fun _ => rfl
  · exact fun _ => .typed [(5, true), (5, true), (5, true), (3, true)] rfl (fun _ => rfl) trivial
  · exact fun _ => .zeroTyped [(5, true), (5, true), (5, false), (3, true)] rfl (by exact id) fun _ => rfl

theorem arm_decodePred : ∀ w, Arm 37 (· % 32) (w % 32) w (decodePred w) := by
  intro w
  delta decodePred
  generalize w % 32 = k
  revert w
  revert k
  refine Below.all (n := 11) ?_ fun _ _ => .error
  iterate 11 refine .snoc ?_ ?_
  · exact .nil
  iterate 4 exact fun _ => .zeroWord 5 [(2, false), (3, true), (2, false), (3, true), (2, false), (3, true), (6, false)] rfl (by exact id) rfl
  · exact fun _ => .zeroWord 5 [(2, false), (3, true), (2, false), (3, true), (11, false)] rfl (by exact id) rfl
  · exact fun _ => .zeroTyped [(2, false), (3, true), (5, true), (8, false)] rfl (by exact id) fun _ => rfl
  iterate 2 exact fun _ => .zeroTyped [(5, true), (2, false), (3, true), (8, false)] rfl (by exact id) fun _ => rfl
  · exact fun _ => .zeroTyped [(2, false), (3, true), (5, true), (5, true), (3, false)] rfl (by exact id) fun _ => rfl
  · exact fun _ => .zeroTyped [(5, true), (2, false), (3, true), (8, false)] rfl (by exact id) fun _ => rfl
  · exact fun _ => .zeroTyped [(2, false), (3, true), (5, true), (8, false)] rfl (by exact id) fun _ => rfl

theorem arm_decodeVecRed : ∀ w, Arm 38 (· % 32) (w % 32) w (decodeVecRed w) := by
  intro w
  delta decodeVecRed
  generalize w % 32 = k
  revert w
  revert k
  refine Below.all (n := 5) ?_ fun _ _ => .error
  iterate 5 refine .snoc ?_ ?_
  · exact .nil
  iterate 5 exact fun _ => .zeroTyped [(5, true), (5, true), (5, false), (3, true)] rfl (by exact id) fun _ => rfl

theorem arm_decodeVecMem : ∀ w, Arm 39 (· % 32) (w % 32) w (decodeVecMem w) := by
  intro w
  delta decodeVecMem
  generalize w % 32 = k
  revert w
  revert k
  refine Below.all (n := 6) ?_ fun _ _ => .error
  iterate 6 refine .snoc ?_ ?_
  · exact .nil
  iterate 6 exact fun _ => .typed [(5, true), (5, true), (5, true), (3, true)] rfl (fun _ => rfl) trivial

theorem arm_decodeStream : ∀ w, Arm 40 (· % 128) (w % 128) w (decodeStream w) := by
  intro w
  delta decodeStream
  generalize w % 128 = k
  revert w
  revert k
  refine Below.all (n := 3) ?_ fun _ _ => .error
  iterate 3 refine .snoc ?_ ?_
  · exact .nil
  · exact fun _ => .zeroWord 7 [(3, false), (2, true), (5, true), (5, true), (4, true)] rfl (by exact id) rfl
  · exact fun _ => .zeroWord 7 [(3, false), (2, true), (10, false), (4, true)] rfl (by exact id) rfl
  · exact fun _ => .zeroWord 7 [(5, true), (3, false), (2, true), (5, false), (4, true)] rfl (by exact id) rfl

theorem arm_decodeTile : ∀ w, Arm 41 (· % 128) (w % 128) w (decodeTile w) := by
  intro w
  delta decodeTile
  generalize w % 128 = k
  revert w
  revert k
  refine Below.all (n := 5) ?_ fun _ _ => .error
  iterate 5 refine .snoc ?_ ?_
  · exact .nil
  · exact fun _ => .word 7 [(5, true), (5, true), (5, true), (4, true)] rfl rfl trivial
  iterate 4 exact fun _ => .zeroWord 7 [(5, true), (5, true), (5, false), (4, true)] rfl (by exact id) rfl

theorem arm_decodeCopyist : ∀ w, Arm 42 (· % 128) (w % 128) w (decodeCopyist w) := by
  intro w
  delta decodeCopyist
  generalize w % 128 = k
  revert w
  revert k
  refine Below.all (n := 5) ?_ fun _ _ => .error
  iterate 5 refine .snoc ?_ ?_
  · exact .nil
  iterate 4 exact fun _ => .word 7 [(5, true), (5, true), (5, true), (4, true)] rfl rfl trivial
  · exact fun _ => .zeroWord 7 [(5, true), (5, true), (5, false), (4, true)] rfl (by exact id) rfl

theorem arm_decodeGraph : ∀ w, Arm 43 (· % 128) (w % 128) w (decodeGraph w) := by
  intro w
  delta decodeGraph
  generalize w % 128 = k
  revert w
  revert k
  refine Below.all (n := 3) ?_ fun _ _ => .error
  iterate 3 refine .snoc ?_ ?_
  · exact .nil
  iterate 3 exact fun _ => .zeroWord 7 [(5, true), (5, true), (5, false), (4, true)] rfl (by exact id) rfl

theorem arm_decodeMatrix : ∀ w, Arm 44 (· % 128) (w % 128) w (decodeMatrix w) := by
  intro w
  delta decodeMatrix
  generalize w % 128 = k
  revert w
  revert k
  refine Below.all (n := 8) ?_ fun _ _ => .error
  iterate 8 refine .snoc ?_ ?_
  · exact .nil
  · exact fun _ => .zeroWord 7 [(1, false), (4, true), (5, true), (5, false), (4, true)] rfl (by exact id) rfl
  · exact fun _ => .zeroWord 7 [(5, true), (1, false), (4, true), (5, false), (4, true)] rfl (by exact id) rfl
  · exact fun _ => .zeroWord 7 [(5, false), (5, true), (5, true), (4, true)] rfl (by exact id) rfl
  · exact fun _ => .zeroWord 7 [(15, false), (4, true)] rfl (by exact id) rfl
  · exact fun _ => .guard (.word 7 [(2, false), (1, true), (2, true), (5, true), (5, true), (4, true)] rfl
      (congrArg (fun b => some (pack23_21_16_11_7 _ b _ _ _ _)) (bitOf_toNat ..).symm))
  · exact fun _ => .zeroWord 7 [(3, false), (2, true), (10, false), (4, true)] rfl (by exact id) rfl
  · exact fun _ => .guard fun hz => .elim fun _ hf => .word 7 [(3, false), (2, true), (5, true), (3, false), (2, true), (4, true)] rfl
      (congrArg (fun f => some (pack21_16_11_7 _ _ _ f _)) (DrainFmt.code_of_ofCode? hf).symm) hz
  · exact fun _ => .zeroWord 7 [(5, true), (10, false), (4, true)] rfl (by exact id) rfl

theorem arm_decodeMessage : ∀ w, Arm 45 (· % 128) (w % 128) w (decodeMessage w) := by
  intro w
  delta decodeMessage
  generalize w % 128 = k
  revert w
  revert k
  refine Below.all (n := 6) ?_ fun _ _ => .error
  iterate 6 refine .snoc ?_ ?_
  · exact .nil
  iterate 2 exact fun _ => .word 7 [(5, true), (5, true), (5, true), (4, true)] rfl rfl trivial
  iterate 2 exact fun _ => .zeroWord 7 [(5, true), (5, true), (5, false), (4, true)] rfl (by exact id) rfl
  iterate 2 exact fun _ => .zeroWord 7 [(5, true), (10, false), (4, true)] rfl (by exact id) rfl

theorem arm_decodeBarrier : ∀ w, Arm 46 (· % 128) (w % 128) w (decodeBarrier w) := by
  intro w
  delta decodeBarrier
  generalize w % 128 = k
  revert w
  revert k
  refine Below.all (n := 3) ?_ fun _ _ => .error
  iterate 3 refine .snoc ?_ ?_
  · exact .nil
  iterate 2 exact fun _ => .zeroWord 7 [(13, false), (2, true), (4, false)] rfl (by exact id) rfl
  · exact fun _ => .zeroWord 7 [(5, true), (5, true), (3, false), (2, true), (4, false)] rfl (by exact id) rfl

theorem arm_decodeHelper : ∀ w, Arm 47 (· % 128) (w % 128) w (decodeHelper w) := by
  intro w
  delta decodeHelper
  generalize w % 128 = k
  revert w
  revert k
  refine Below.all (n := 6) ?_ fun _ _ => .error
  iterate 6 refine .snoc ?_ ?_
  · exact .nil
  · exact fun _ => .zeroWord 7 [(5, true), (5, true), (5, true), (4, false)] rfl (by exact id) rfl
  · exact fun _ => .zeroWord 7 [(5, true), (5, true), (5, false), (4, true)] rfl (by exact id) rfl
  · exact fun _ => .zeroWord 7 [(19, false)] rfl (by exact id) rfl
  · exact fun _ => .zeroWord 7 [(5, true), (14, false)] rfl (by exact id) rfl
  iterate 2 exact fun _ => .zeroWord 7 [(5, true), (5, true), (5, false), (4, true)] rfl (by exact id) rfl

theorem arm_decodeFabric : ∀ w, Arm 48 (· % 128) (w % 128) w (decodeFabric w) := by
  intro w
  delta decodeFabric
  generalize w % 128 = k
  revert w
  revert k
  refine Below.all (n := 3) ?_ fun _ _ => .error
  iterate 3 refine .snoc ?_ ?_
  · exact .nil
  · exact fun _ => .word 7 [(5, true), (5, true), (5, true), (4, true)] rfl rfl trivial
  iterate 2 exact fun _ => .zeroWord 7 [(5, true), (5, true), (5, false), (4, true)] rfl (by exact id) rfl

theorem arm_decodeOwn : ∀ w, Arm 49 (· % 128) (w % 128) w (decodeOwn w) := by
  intro w
  delta decodeOwn
  generalize w % 128 = k
  revert w
  revert k
  refine Below.all (n := 7) ?_ fun _ _ => .error
  iterate 7 refine .snoc ?_ ?_
  · exact .nil
  iterate 4 exact fun _ => .word 7 [(5, true), (5, true), (5, true), (4, true)] rfl rfl trivial
  · exact fun _ => .zeroWord 7 [(5, true), (5, true), (5, false), (4, true)] rfl (by exact id) rfl
  · exact fun _ => .zeroWord 7 [(5, true), (10, false), (4, true)] rfl (by exact id) rfl
  · exact fun _ => .word 7 [(5, true), (5, true), (5, true), (4, true)] rfl rfl trivial

theorem arm_decodeControl : ∀ w, Arm 50 (· / 2^14 % 4) (w / 2^14 % 4) w (decodeControl w) := by
  intro w
  delta decodeControl
  generalize w / 2^14 % 4 = k
  revert w
  revert k
  refine Below.all (n := 4) ?_ fun _ _ => .error
  iterate 4 refine .snoc ?_ ?_
  · exact .nil
  · exact fun _ => .guard (.imm 12 2 [(5, true), (5, false)] [(2, false)] rfl rfl)
  iterate 3 exact fun _ => .guard (.imm 12 2 [(5, true), (5, true)] [(2, false)] rfl rfl)

theorem arm_decodeSystem : ∀ w, Arm 51 (· % 2048) (w % 2048) w (decodeSystem w) := by
  intro w
  delta decodeSystem
  generalize w % 2048 = k
  revert w
  revert k
  refine Below.all (n := 6) ?_ fun _ _ => .error
  iterate 6 refine .snoc ?_ ?_
  · exact .nil
  · exact fun _ => .zeroWord 11 [(5, false), (5, true), (5, false)] rfl (by exact id) rfl
  iterate 3 exact fun _ => .zeroWord 11 [(15, false)] rfl (by exact id) rfl
  · exact fun _ => .zeroWord 11 [(5, false), (5, true), (5, false)] rfl (by exact id) rfl
  · exact fun _ => .zeroWord 11 [(15, false)] rfl (by exact id) rfl

theorem arm_decodeRaw : ∀ w, Arm (w / 2^26 % 64) id w w (decodeRaw w) := by
  intro w
  delta decodeRaw
  generalize w / 2^26 % 64 = op
  revert w
  revert op
  refine Below.all (n := 64) ?_ fun _ _ => .error
  iterate 64 refine .snoc ?_ ?_
  · exact .nil
  · exact fun _ => .error
  · exact fun w hop _ => arm_decodeInteger w hop rfl
  · exact fun w hop _ => arm_decodeIntegerWord w hop rfl
  iterate 6 exact fun _ => .low 16 [(5, true), (5, true)] rfl trivial rfl
  · exact fun w hop _ => arm_decodeShiftImm w hop rfl
  iterate 3 exact fun _ => .guard fun hz => .low 16 [(5, true), (5, false)] rfl hz rfl
  · exact fun w hop _ => arm_decodeBranch w hop rfl
  iterate 2 exact fun _ => .low 26 [] rfl trivial rfl
  · exact fun _ => .low 16 [(5, true), (5, true)] rfl trivial rfl
  · exact fun _ => .low 19 [(6, true), (1, true)] rfl trivial
      (congrArg (fun b => some (pack20_19_0 _ _ b _)) (bitOf_toNat ..).symm)
  iterate 11 exact fun _ => .low 16 [(5, true), (5, true)] rfl trivial rfl
  · exact fun _ => .guard fun hz => .elim fun sc hsc => .elim fun fe hfe hop _ => by
      refine Arm.word (op := 29) (k := 0) 1 [(5, true), (5, true), (4, true), (3, true), (2, true), (2, true), (3, true), (1, true)] rfl
        ?_ trivial hop hz
      show some (pack21_16_12_9_7_5_2_1 _ _ _ _ sc.code (MemOrd.code _) (Size.code _) fe.code (Bool.toNat _)) = _
      rw [← Scope.code_of_ofCode? hsc, ← MemOrd.code_ofCode, ← Size.code_ofCode, ← FeMode.code_of_ofCode? hfe, ← bitOf_toNat]
      rfl
  · exact fun _ => .guard fun hz => .elim fun sc hsc => .elim fun fe hfe hop _ => by
      refine Arm.word (op := 30) (k := 0) 2 [(5, true), (5, true), (4, true), (3, true), (2, true), (2, true), (3, true)] rfl ?_ trivial hop hz
      show some (pack21_16_12_9_7_5_2 _ _ _ _ sc.code (MemOrd.code _) (Size.code _) fe.code) = _
      rw [← Scope.code_of_ofCode? hsc, ← MemOrd.code_ofCode, ← Size.code_ofCode, ← FeMode.code_of_ofCode? hfe]
      rfl
  · exact fun w hop _ => arm_decodeAmo w hop rfl
  · exact fun w hop _ => arm_decodeFence w hop rfl
  · exact fun w hop _ => arm_decodeVecInt w hop rfl
  · exact fun w hop _ => arm_decodeVecFp w hop rfl
  · exact fun w hop _ => arm_decodeVecConv w hop rfl
  · exact fun w hop _ => arm_decodeVecPerm w hop rfl
  · exact fun w hop _ => arm_decodePred w hop rfl
  · exact fun w hop _ => arm_decodeVecRed w hop rfl
  · exact fun w hop _ => arm_decodeVecMem w hop rfl
  · exact fun w hop _ => arm_decodeStream w hop rfl
  · exact fun w hop _ => arm_decodeTile w hop rfl
  · exact fun w hop _ => arm_decodeCopyist w hop rfl
  · exact fun w hop _ => arm_decodeGraph w hop rfl
  · exact fun w hop _ => arm_decodeMatrix w hop rfl
  · exact fun w hop _ => arm_decodeMessage w hop rfl
  · exact fun w hop _ => arm_decodeBarrier w hop rfl
  · exact fun w hop _ => arm_decodeHelper w hop rfl
  · exact fun w hop _ => arm_decodeFabric w hop rfl
  · exact fun w hop _ => arm_decodeOwn w hop rfl
  · exact fun w hop _ => arm_decodeControl w hop rfl
  · exact fun w hop _ => arm_decodeSystem w hop rfl
  iterate 11 exact fun _ => .error
  · exact fun _ => .guard fun hz hop _ => Arm.word (op := 63) (k := 0) 26 [] rfl rfl trivial hop hz

/-- A word that decodes is that of a well-formed instruction. -/
theorem answers_decode (w : Nat) : Answers (fun i => i.wf = true ∧ encode i = some (w % 2^32)) (decode w) := by
  have h := arm_decodeRaw w rfl rfl
  delta decode
  revert h
  cases decodeRaw w with
  | error => exact fun _ => .error
  | ok i => exact fun h => .guard fun hwf => .ok ⟨hwf, h i rfl⟩

/-! ### Every instruction's word decodes to it (R131 to R138) -/

namespace RoundTrip

/-- What is stated instruction by instruction above, of every instruction. -/
theorem statement (i : Instr) : Statement i :=
  i.casesOn
    add sub and or xor andn orn sll srl sra rol ror slt sltu min max minu maxu mul mulh mulhu mulhsu div divu rem remu clz ctz
    popc sextb sexth sextw zextw bswap csel addw subw sllw srlw sraw mulw divw divuw remw remuw addi andi ori xori slti sltiu
    slli srli srai rori lhi lsh adr beq bne blt bge bltu bgeu jal j jalr bes ldB ldH ldW ldD ldBu ldHu ldWu stB stH stW stD ldo
    sto amoSwap amoAdd amoAnd amoOr amoXor amoMin amoMax amoMinu amoMaxu amoCas amoFadd fence xfence ifence vadd vsub vmul vmulh
    vmulhu vmin vmax vminu vmaxu vand vor vxor vsll vsrl vsra vabs vcmpeq vcmplt vcmpltu vfadd vfsub vfmul vfma vfms vfnma vfmin
    vfmax vfdiv vfsqrt vfrcp vfrsq vfexp2 vflog2 vfabs vfneg vfcmpeq vfcmplt vfcmple vfcmpun vresc vcvtF32I32 vcvtI32F32
    vcvtBf16F32 vcvtF32Bf16 vpackLb4 vunpkLb4 vpackE4m3 vpackE5m2 vunpkE4m3 vunpkE5m2 vbcast vext vins vperm vslup vsldn vzip
    vunzip vrev vsel vmov pand por pxor pandn pnot pset pcnt pfirst pldm pmovx pmovp vredadd vredmax vredmin vfredadd vfredmax
    vld vst vldt vstt vgather vscatter sbind sunbind sstat tal tfree tseal trel tstat cpin cpout cpg cpx cpstat tgpost tgwait
    tgstat mxg mxr mwld mwswap mmul mzero mzdrn mstat msnd msnds mrcv mpeek mcommit mabort barArrive barWait barVote hstart
    hjoin hexit hstat lnch lwait stmc coll collwait give accept lend reclaim ownq omake evict crr crw crs crc trap tret brk halt
    wfe nop solo mxovf launchPlace rankEnd launchComplete deadlinePassed doorbell queueDescriptorWrite bindRecordWrite
    bindRecordDeferred coreVacate rankResume arrivalCounted barrierRelease haltGroupStop debugStop debugResume powerLimitWrite
    powerMeasure fewaitTimeout faultReplyPoll faultRecordTimeout replicaCommit flush flushComplete moveStart moveCopyDone
    moveDoneClear tileClearEnd tileReadsEnd clusterTileEndFree copyStart copyChunkEnd matrixOpStart pairCycle matrixOpEnd
    drainEnd graphNodeStart graphNodeFinish messageDeliver queueRung contextRung engineRung partitionRung deviceRung rungTimeout
    bringUp portGive portAccept portLend portReclaim portOwnq portOmake portEvict trootWrite mkeyidWrite vfset enrol plotkey
    attest mcrecWrite registerWrite leaseexpWrite leaseExpire vfEnableClear cxlMemRead cxlMemWrite getVersion getCapabilities
    negotiateAlgorithms getDigests getCertificate challenge getMeasurements accessLogInterval logSeal flitReceive replayRequest
    linkOutOfService spareRetrain packetInject packetResend packetDeliver lossyBlockArrive lossyClose remoteRequest
    remoteCompletion remoteDeadline stmcReply stmcAckTimeout collCombine collResult collFaultTimeout collHeldDiscard
    collCloseTimeout atomicMerge atomicMergeTimeout timeFlit scrcache fwbound scriptoriumAccess vfEnableSet
    hostAccessLeaseTimeout arbiterGrant

end RoundTrip

/-! ### The statements -/

/-- Settles O59: the instruction that a word decodes to has that word's fields packed again, which also bounds the word of an instruction. -/
theorem encodingRoundTrip : Obligations.EncodingRoundTrip := by
  unfold Obligations.EncodingRoundTrip
  refine ⟨fun i w hwf hw => ?_, fun w i hlt hi => ?_⟩
  · have hi := RoundTrip.statement i hwf w hw
    have hmod : w = w % 2^32 := Option.some.inj (hw.symm.trans (answers_decode w i hi).2)
    exact ⟨hmod ▸ Nat.mod_lt w (by decide), hi⟩
  · exact Nat.mod_eq_of_lt hlt ▸ answers_decode w i hi

/-- Settles O58: the decoder is run on each word. -/
theorem decodedWords : Obligations.DecodedWords := by
  unfold Obligations.DecodedWords
  exact ⟨rfl, rfl, rfl, rfl, rfl, rfl, rfl, rfl, rfl⟩

end Sys2Proof.Laws
end

section
/-! PROOFS. A write to X[D] (07 R139; 08 R150, R154), and the control registers (07 R142 to R149; 11 R238). -/

namespace Sys2Proof.Machine

open Sys2Proof

/-! ### What a write to X[D] leaves (R139, R150) -/

/-- What a read of X[D] gives after a write to it: x0 discards the write. -/
theorem State.x_setX (s : State) (d : Reg) (v : Word) : (s.setX d v).x d = if d = 0 then 0 else v := by
  split
  case isTrue h => exact if_pos h
  case isFalse h => exact s.x_setX_same d v h

theorem sameElsewhere_advance (s : State) : sameElsewhere s s.advance := by
  delta State.advance
  exact iteInduction (motive := sameElsewhere s) (fun _ => rfl) fun _ => rfl

theorem State.setX_eq_with_cx (s : State) (d : Reg) (v : Word) : ∃ c, s.setX d v = { s with cx := c } := by
  rcases Decidable.em (d = 0) with h | h
  · exact ⟨s.cx, if_pos h⟩
  · exact ⟨_, if_neg h⟩

theorem sameElsewhere_setX_advance (s : State) (d : Reg) (v : Word) : sameElsewhere s (s.setX d v).advance := by
  obtain ⟨c, hc⟩ := s.setX_eq_with_cx d v
  rw [hc]
  exact sameElsewhere_advance { s with cx := c }

theorem sameMemory_of_ms {s t : State} (h : t.ms = s.ms) : sameMemory s t := by
  unfold sameMemory
  rw [h]
  exact ⟨fun _ => rfl, fun _ => rfl⟩

theorem onlyX_setX_advance (s : State) (d : Reg) (v : Word) : onlyX d s (s.setX d v).advance :=
  ⟨sameElsewhere_setX_advance s d v, sameMemory_of_ms ((State.advance_ms _).trans (s.setX_ms d v)),
    fun r hr => (State.x_advance _ r).trans (s.x_setX_other d r v hr), (State.advance_cx_v _).trans (s.setX_cx_v d v),
    (State.advance_cx_p _).trans (s.setX_cx_p d v), (State.advance_cx_mg _).trans (s.setX_cx_mg d v),
    (State.advance_cx_cr _).trans (s.setX_cx_cr d v), (State.advance_cx_hf _).trans (s.setX_cx_hf d v),
    (State.advance_cx_mx _).trans (s.setX_cx_mx d v), (State.advance_cx_num _).trans (s.setX_cx_num d v),
    (State.advance_cx_run _).trans (s.setX_cx_run d v)⟩

/-- Settles O3: every instruction of opcodes 0x01 to 0x0C is a write to X[D] and a move to the next word. -/
theorem registerWriteFrames : Obligations.RegisterWriteFrames := by
  unfold Obligations.RegisterWriteFrames
  refine ⟨fun s d v => ⟨onlyX_setX_advance s d v, (State.x_advance _ d).trans (s.x_setX d v), ?_, State.advance_cx_wait _⟩,
    fun i d hd s t ht => ?_⟩
  · rw [State.advance_cx_pc, State.setX_cx_pc, State.setX_cx_pair]
  · obtain ⟨f, hexec, -⟩ := exec_of_integerDest hd
    cases (hexec s).symm.trans ht
    exact onlyX_setX_advance s d (f s)

/-! ### The listed indices (R142) -/

/-- The indices of R142 but that of cr.est. -/
def crIndices : List Nat :=
  List.range' 0x000 12 ++ [0x011] ++ List.range' 0x020 8 ++ List.range' 0x030 5 ++ [0x038] ++ List.range' 0x040 5 ++ List.range' 0x048 3 ++ [0x050]

theorem crListed_eq (ix : BitVec 12) : crListed ix = decide (ix.toNat = 0x010 ∨ ix.toNat ∈ crIndices) := by
  delta crListed
  generalize ix.toNat = n
  revert n
  exact Laws.forall_of_lt_of_add 0x051 (by decide) fun _ => rfl

theorem crListed_iff (ix : BitVec 12) : crListed ix = true ↔ ix = 0x010 ∨ ix.toNat ∈ crIndices := by
  rw [crListed_eq, decide_eq_true_iff, ← BitVec.toNat_inj]
  exact Iff.rfl

/-- A row of R142 as the model has it: what the index reads, and the state that a write of a word to it makes. -/
def State.crRow (s : State) (ix : BitVec 12) : Word × (Word → State) := (s.readCr ix, s.writeCr ix)

/-- What cr.halts holds (R56). -/
theorem State.readCr_halts (s : State) :
    s.readCr 0x038 = wd (s.co.member.toNat + 2^16 * s.co.signal.toNat + (if s.co.halted then 2^32 else 0)) := by
  have hbit : 2^32 * boolNat s.co.halted = if s.co.halted then 2^32 else 0 := by cases s.co.halted <;> rfl
  exact congrArg (fun n => wd (s.co.member.toNat + 2^16 * s.co.signal.toNat + n)) hbit

/-- A write at a listed index that has no W1C bits. -/
theorem State.crAccess_listed (s : State) {ix : BitVec 12} (h : crListed ix = true) (hne : ix ≠ 0x010) (i : Instr) (d a : Reg) (w1c : Bool)
    (f : Word → Word → Word) : s.crAccess i d a ix w1c f = .next ((s.writeCr ix (f (s.readCr ix) (s.x a))).setX d (s.readCr ix)).advance := by
  have hw1c (t : State) : (if w1c then t.clearW1C ix (s.x a) else t) = t := by
    cases w1c
    · rfl
    · exact if_neg hne
  exact (if_neg (by rw [h]; exact Bool.false_ne_true)).trans (congrArg (fun t : State => (.next (t.setX d _).advance : Out)) (hw1c _))

theorem State.crAccess_unlisted {s : State} {ix : BitVec 12} (h : crListed ix = false) (i : Instr) (d a : Reg) (w1c : Bool)
    (f : Word → Word → Word) : s.crAccess i d a ix w1c f = .next (s.illegal i) :=
  if_pos (by rw [h]; rfl)

/-- What the four instructions do at the index of a row. -/
theorem exec_control_listed {ix : BitVec 12} (hix : ix.toNat ∈ crIndices) (s : State) (d a : Reg) :
    exec (.crr d ix) s = .next (s.setX d (s.crRow ix).1).advance
    ∧ exec (.crw d a ix) s = .next (((s.crRow ix).2 (s.x a)).setX d (s.crRow ix).1).advance
    ∧ exec (.crs d a ix) s = .next (((s.crRow ix).2 ((s.crRow ix).1 ||| s.x a)).setX d (s.crRow ix).1).advance
    ∧ exec (.crc d a ix) s = .next (((s.crRow ix).2 ((s.crRow ix).1 &&& ~~~(s.x a))).setX d (s.crRow ix).1).advance := by
  have hl : crListed ix = true := (crListed_iff ix).mpr (.inr hix)
  have hne : ix ≠ 0x010 := by
    rintro rfl
    exact absurd hix (by decide)
  refine ⟨?_, ?_, ?_, ?_⟩
  · show execCrr d ix s = _
    exact if_neg (by rw [hl]; exact Bool.false_ne_true)
  · show execCrw d a ix s = _
    exact State.crAccess_listed s hl hne ..
  · show execCrs d a ix s = _
    exact State.crAccess_listed s hl hne ..
  · show execCrc d a ix s = _
    exact State.crAccess_listed s hl hne ..

theorem exec_control_unlisted {ix : BitVec 12} (h : crListed ix = false) (s : State) (d a : Reg) :
    ∀ i ∈ [Instr.crr d ix, .crw d a ix, .crs d a ix, .crc d a ix], exec i s = .next (s.illegal i) := by
  refine List.forall_iff_forall_mem.mp ⟨?_, ?_, ?_, ?_⟩
  · show execCrr d ix s = _
    exact if_pos (by rw [h]; rfl)
  · show execCrw d a ix s = _
    exact State.crAccess_unlisted h ..
  · show execCrs d a ix s = _
    exact State.crAccess_unlisted h ..
  · show execCrc d a ix s = _
    exact State.crAccess_unlisted h ..

/-! ### cr.est (R145) -/

/-- The fields of cr.est from bit 0 up: the mirror of cr.wake, then one bit for each event. -/
def estFields (r : Rank) (ctxs : List Context) : List (Nat × Nat) :=
  [(16, r.wake.toNat), (1, boolNat r.mx.busy), (1, boolNat r.faults[0]), (1, boolNat (r.tickets.any fun t => t.kind == .copy && t.outstanding)),
    (1, boolNat r.faults[1]), (1, boolNat (!r.inbox.isEmpty)), (1, boolNat (!r.blotter.isEmpty)),
    (1, boolNat (r.tickets.any fun t => t.kind == .coll && !t.outstanding && !t.taken)), (1, boolNat r.faults[2]),
    (1, boolNat (ctxs.any fun c => c.num != 0))]

/-- Fields added to `s` one by one, from bit `lo` up. -/
def stacked (s lo : Nat) : List (Nat × Nat) → Nat
  | [] => s
  | q :: l => stacked (s + 2^lo * q.2) (lo + q.1) l

theorem stacked_eq (l : List (Nat × Nat)) : ∀ s lo, stacked s lo l = s + 2^lo * packed l := by
  induction l with
  | nil => exact fun _ _ => rfl
  | cons q l ih =>
    intro s lo
    refine (ih ..).trans ?_
    rw [packed, Nat.mul_add, ← Nat.mul_assoc, ← pow_add, Nat.add_assoc]

theorem estOf_packed (r : Rank) (ctxs : List Context) : estOf r ctxs = wd (packed (estFields r ctxs)) :=
  congrArg wd (stacked_eq (estFields r ctxs).tail r.wake.toNat 16)

theorem boolNat_lt (b : Bool) : boolNat b < 2^1 := by cases b <;> decide

theorem boolNat_eq_one (b : Bool) : decide (boolNat b = 1) = b := by cases b <;> rfl

theorem estFields_fit (r : Rank) (ctxs : List Context) : ∀ q ∈ estFields r ctxs, q.2 < 2^q.1 :=
  List.forall_iff_forall_mem.mp ⟨r.wake.isLt, boolNat_lt _, boolNat_lt _, boolNat_lt _, boolNat_lt _, boolNat_lt _, boolNat_lt _, boolNat_lt _,
    boolNat_lt _, boolNat_lt _⟩

theorem estOf_lt (r : Rank) (ctxs : List Context) : (estOf r ctxs).toNat < 2^25 := by
  rw [estOf_packed]
  exact (Nat.mod_le _ _).trans_lt (packed_lt (estFields_fit r ctxs))

theorem estOf_wake (r : Rank) (ctxs : List Context) : (estOf r ctxs).setWidth 16 = r.wake := by
  refine BitVec.eq_of_toNat_eq ?_
  have h := field_packed (estFields_fit r ctxs) (show 25 ≤ 64 by decide) (k := 0) rfl
  rw [← estOf_packed] at h
  rw [BitVec.toNat_setWidth, ← h]
  exact congrArg (· % 2^16) (Nat.div_one _).symm

/-- The bit of cr.est that is the field numbered k. -/
theorem estOf_bit {r : Rank} {ctxs : List Context} {k : Nat} {b : Bool} (hk : (estFields r ctxs)[k]? = some (1, boolNat b)) :
    bitAt (estOf r ctxs) (packedWidth ((estFields r ctxs).take k)) = b := by
  rw [estOf_packed, bitAt_eq_field, field_packed (estFields_fit r ctxs) (show 25 ≤ 64 by decide) hk, boolNat_eq_one]

theorem MatrixUnit.busy_eq (m : MatrixUnit) : m.busy = !m.ops.isEmpty := by
  have happ : ∀ {a b : List MatrixOp} {x y : Bool}, x = !a.isEmpty → y = !b.isEmpty → (x || y) = !(a ++ b).isEmpty := by
    rintro (_ | _) b _ _ rfl rfl <;> rfl
  have hopt : ∀ o : Option (MatrixOp × Nat), o.isSome = !(o.map (·.1)).toList.isEmpty := fun o => by cases o <;> rfl
  exact happ (happ (happ rfl (hopt m.stream)) rfl) (hopt m.drain)

theorem Ticket.outstanding_not (t : Ticket) : (!t.outstanding) = decide (2 ≤ t.state) := by
  simp only [Ticket.outstanding, ← Nat.not_lt, decide_not]

/-- Each fault bit is kept where a zero is written to it: every state of the three bits and of the three written. -/
theorem clearFaults_bits (f : BitVec 3) (w : Word) : (clearFaults f w)[0] = (f[0] && !bitAt w 17)
    ∧ (clearFaults f w)[1] = (f[1] && !bitAt w 19) ∧ (clearFaults f w)[2] = (f[2] && !bitAt w 23) := by
  delta clearFaults
  generalize bitAt w 17 = a, bitAt w 19 = b, bitAt w 23 = c
  revert f a b c
  decide

/-! ### The statement -/

/-- Settles O31: a row of the model for each listed index but that of cr.est, and what the fields of cr.est are. -/
theorem controlRegisterResults : Obligations.ControlRegisterResults := by
  unfold Obligations.ControlRegisterResults
  intro s d a ix c t0 t1 t2 t3 t4 table x
  refine ⟨?rows, ?unlisted, s.est, s.clearW1C 0x010 x, rfl, estOf_lt .., estOf_wake .., estOf_bit (k := 2) rfl, estOf_bit (k := 4) rfl,
    estOf_bit (k := 8) rfl, ?matrix, ?copies, ?collectives, estOf_bit (k := 5) rfl, estOf_bit (k := 6) rfl, estOf_bit (k := 9) rfl,
    List.forall_iff_forall_mem.mp ⟨rfl, rfl⟩, rfl, rfl, clearFaults_bits ..⟩
  case rows =>
    intro r hr
    have rows : table.map (s.crRow ∘ Prod.fst) = table.map Prod.snd :=
      congrArg (fun v => (table.map (s.crRow ∘ Prod.fst)).set 26 (v, s.writeCr 0x038)) s.readCr_halts
    have hix : r.1.toNat ∈ table.map (BitVec.toNat ∘ Prod.fst) := List.mem_map_of_mem hr
    exact List.map_inj_left.mp rows r hr ▸ exec_control_listed hix s d a
  case unlisted =>
    intro hne hall
    refine exec_control_unlisted (Bool.eq_false_iff.mpr fun hl => ?_) s d a
    have hmem : ix.toNat ∈ table.map (BitVec.toNat ∘ Prod.fst) := ((crListed_iff ix).mp hl).resolve_left hne
    obtain ⟨r, hr, hix⟩ := List.mem_map.mp hmem
    exact hall r hr (BitVec.eq_of_toNat_eq hix)
  case matrix => exact (estOf_bit (k := 1) rfl).trans (MatrixUnit.busy_eq _)
  case copies => exact estOf_bit (k := 3) rfl
  case collectives =>
    simp only [← Ticket.outstanding_not]
    exact estOf_bit (k := 7) rfl

end Sys2Proof.Machine
end
